-- ==== Sys2Proof/Word.lean ====
section
/-!
DEFINITION. Word.lean: the word types of the V96 and their plainest arithmetic.
Bit 0 is the least significant bit everywhere (R1).
-/

namespace Sys2Proof

/-- A lane word, a parcel or a 32-bit register (R49, R313). -/
abbrev Word := BitVec 32

/-- A 64-bit quantity: a register pair, a counter, an address before its check (R49, R96). -/
abbrev DWord := BitVec 64

/-- A lane mask: bit `l` stands for lane `l` (R19, R32). -/
abbrev Mask := BitVec 64

/-- One byte of memory (R1). -/
abbrev Byte := BitVec 8

/-- The 160-bit instruction word, W0 in bits [31:0] (R313, R314). -/
abbrev IWord := BitVec 160

/-- One 128-byte line as a list of bytes (R101, R109). -/
abbrev Line := List Byte

/-- The pair value whose low word is `lo` and high word is `hi` (R49). -/
def Word.pair (lo hi : Word) : DWord := hi ++ lo

/-- The low word of a pair value (R49). -/
def DWord.lo (d : DWord) : Word := d.setWidth 32

/-- The high word of a pair value (R49). -/
def DWord.hi (d : DWord) : Word := (d >>> 32).setWidth 32

end Sys2Proof
end

