-- ==== Sys2Proof/Syntax.lean ====
section
/-!
DEFINITION. Syntax.lean: the instruction word's fields, the data that events carry, and the ONE inductive `Instr`
with one constructor per row of the operation table.
The first 112 constructors are instructions, each carrying the decoded fields of its 160-bit word (R314).
The other 97 are the events of the package, each carrying what arrives with it.
-/

namespace Sys2Proof

/-- Element types, in the order of their TYP codes (R318). -/
inductive Typ where
  | u32 | s32 | f32 | bf16 | f16 | e4m3 | e5m2 | e2m1
  | s16x2 | u16x2 | s8x4 | u8x4 | mxe4m3 | mxe5m2 | mxe2m1 | mxs8
deriving DecidableEq, Repr

/-- Rounding, in the order of the RND codes (R76). -/
inductive Rnd where
  | rne | rz | rd | ru | rna | sr
deriving DecidableEq, Repr

/-- Scopes, in the order of the SCP codes (R13). -/
inductive Scope where
  | wg | core | quad | die | pkg | pod
deriving DecidableEq, Repr

/-- Orders, in the order of the ORD codes (R314). -/
inductive MemOrd where
  | relaxed | acquire | release | acqRel
deriving DecidableEq, Repr

/-- An operand field: its class and its index (R315). -/
inductive Opnd where
  | v (i : BitVec 8)
  | p (i : BitVec 3)
  | t (i : BitVec 4)
  | s (i : BitVec 9)
  | imm (d : BitVec 13)
  | imm32
  | pair (i : BitVec 8)
  | none
deriving DecidableEq, Repr

/-- One guard: a predicate and whether it is negated (R319). -/
structure Guard where
  neg  : Bool
  pred : BitVec 3
deriving DecidableEq, Repr

/-- The fields of an instruction word other than its opcode (R314). -/
structure Fields where
  sub  : BitVec 4
  typ  : Typ
  rnd  : Rnd
  sat  : Bool
  ga   : Guard
  gb   : Guard
  gc   : Bool
  od   : Opnd
  oa   : Opnd
  ob   : Opnd
  oc   : Opnd
  oe   : Opnd
  hint : BitVec 4
  la   : BitVec 4
  ru   : Bool
  yl   : Bool
  scp  : Scope
  ord  : MemOrd
  imm  : Word
deriving DecidableEq, Repr

/-- The bits of an instruction word, cut at the field boundaries of R314 and not yet checked. -/
structure Raw where
  opc  : BitVec 8
  sub  : BitVec 4
  typ  : BitVec 4
  rnd  : BitVec 3
  sat  : BitVec 1
  ga   : BitVec 4
  gb   : BitVec 4
  gc   : BitVec 1
  res0 : BitVec 3
  od   : BitVec 16
  oa   : BitVec 16
  ob   : BitVec 16
  oc   : BitVec 16
  oe   : BitVec 16
  hint : BitVec 4
  la   : BitVec 4
  ru   : BitVec 1
  yl   : BitVec 1
  scp  : BitVec 3
  ord  : BitVec 2
  res3 : BitVec 1
  imm  : BitVec 32
deriving DecidableEq, Repr

/-- A refused word: the cause group (1 or 2), the reason and the operand field of R234, 0xFF for none. -/
structure BadWord where
  group  : Nat
  reason : Nat
  field  : Nat
deriving DecidableEq, Repr

/-- What a form of an instruction accepts in each field (R317, R318, R320, R325). Operand classes are a set of
bits, bit `k` for class `k` of R315. -/
structure Form where
  /-- accepted TYP codes, bit `k` for code `k`; `none` for an instruction without a type -/
  typs : Option (BitVec 16) := none
  od   : BitVec 8 := 128
  oa   : BitVec 8 := 128
  ob   : BitVec 8 := 128
  oc   : BitVec 8 := 128
  oe   : BitVec 8 := 128
  /-- mark L -/
  la   : Bool := false
  /-- mark H: the HINT bits that may be set (R106) -/
  hint : BitVec 4 := 0
  /-- mark U -/
  ru   : Bool := false
  /-- mark N -/
  noGuard : Bool := false
  /-- the RND codes accepted, bit `k` for code `k` (marks R and Rs) -/
  rnds : BitVec 8 := 1
  /-- mark X -/
  sat  : Bool := false
  /-- the ORD codes accepted, bit `k` for code `k` -/
  ords : BitVec 4 := 1
  /-- the SCP codes accepted, bit `k` for code `k` -/
  scps : BitVec 8 := 1
  /-- SCP has no effect and is free when ORD is 0 (ATOM and RED, R130) -/
  scpFree : Bool := false
  /-- mark I: the assigned bits of IMM32 -/
  immBits : Option Word := none
  /-- registers read from the base register in OB -/
  rangeB : Nat := 1
  /-- registers read from the base register in OC -/
  rangeC : Nat := 1
deriving DecidableEq, Repr

/-- A rank-table entry (R257). -/
structure RankEntry where
  groups : BitVec 16
  shard  : BitVec 20
  pdom   : BitVec 16
  pod    : BitVec 4
  /-- 0 active, 1 filling, 2 vacant -/
  state  : BitVec 4
  faddr  : BitVec 20
  /-- the entry's reserved bits, zero in every accepted table (R256) -/
  resv   : Nat
deriving DecidableEq, Repr

/-- A rank table: its header's fields and its entries in rank order (R257). -/
structure RankTable where
  gen      : Word
  risk     : Bool
  fallback : Bool
  leaders  : List (BitVec 16)
  step     : Word
  ckstep   : Word
  digest   : DWord
  resv     : Nat
  entries  : List RankEntry
deriving DecidableEq, Repr

/-- The payload of a heartbeat and who sent it (R250). -/
structure Heartbeat where
  src    : BitVec 20
  ckstep : Word
  step   : Word
  pdom   : BitVec 16
  state  : BitVec 4
  seq    : Word
deriving DecidableEq, Repr

/-- A membership message and the package that sent it (R252). -/
structure MemMsg where
  src    : BitVec 20
  newgen : Word
  subj   : Word
  ballot : Word
  table  : Option RankTable
deriving DecidableEq, Repr

/-- A reward message (R278): KSPEC fields and the generation it carries. -/
structure RewardMsg where
  traj   : DWord
  step   : BitVec 16
  flags  : BitVec 8
  reward : Word
  gen    : Word
deriving DecidableEq, Repr

/-- A pod-barrier packet (R194). -/
structure PodPkt where
  src   : BitVec 20
  gen   : Word
  phase : BitVec 16
  queue : BitVec 16
  ctxid : BitVec 16
  seq   : Word
  wgid  : Word
deriving DecidableEq, Repr

/-- The die of a package that sent a packet (R192). -/
structure Sender where
  addr : BitVec 20
  die  : Nat
deriving DecidableEq, Repr

/-- A transaction of a die's fabric engine: its TXID (R192). -/
structure TxId where
  die : Nat
  num : BitVec 16
deriving DecidableEq, Repr

/-- A packet that travels on the fabric: its header (R192) and its payload, by kind. -/
inductive PktBody where
  | heartbeat (h : Heartbeat)
  | suspect (m : MemMsg) | withdraw (m : MemMsg) | prepare (m : MemMsg) | promise (m : MemMsg)
  | propose (m : MemMsg) | accept (m : MemMsg) | commit (m : MemMsg) | joined (m : MemMsg) | seal (m : MemMsg)
  | podArrive (p : PodPkt) | podComplete (p : PodPkt)
  | pullReq (core : Nat) (line : Nat)
  | pullResp (refused : Bool) (line : Nat) (data : Line)
  | cloneReq (stripe : Nat) (step : Word) (fingerprint : Bool)
  | cloneResp (stripe : Nat) (step : Word) (reason : BitVec 8) (fingerprint : Option DWord) (data : List Byte)
  | reward (m : RewardMsg) | rewardAck
  | unknown (kind : BitVec 8)
deriving DecidableEq, Repr

/-- A packet: header fields of R192 and its body. -/
structure Packet where
  src   : BitVec 20
  sdie  : Nat
  dst   : BitVec 20
  ddie  : Nat
  gen   : Word
  txid  : BitVec 16
  body  : PktBody
deriving DecidableEq, Repr

/-- A mailbox command's carrier, tag and payload words from payload offset 0 (R309). -/
structure MailCmd where
  i3c     : Bool
  tag     : BitVec 16
  payload : List DWord
deriving DecidableEq, Repr

/-- What the power-up stages find (R304): the outcomes of checks that lie outside the architecture. -/
structure BootInfo where
  pdom        : BitVec 16
  signatureOk : Bool
  versionOk   : Bool
  /-- stage 2: units whose self-test fails -/
  failedUnits : List (BitVec 16)
  /-- stage 2: dies with a failed boundary -/
  badBoundary : List Nat
  /-- stage 3: stacks that fail to train -/
  badStacks   : List Nat
  /-- stage 4: ports that train -/
  portsUp     : List Nat
  cxlUp       : Bool
deriving DecidableEq, Repr

/-- One row of the operation table each: 112 instructions, then 97 events. -/
inductive Instr where
  -- instructions, in the table's order
  | accalloc (f : Fields) | accfree (f : Fields) | and (f : Fields) | andn (f : Fields) | arrive (f : Fields)
  | assert (f : Fields) | atom (f : Fields) | awaitc (f : Fields) | bar (f : Fields) | barinit (f : Fields)
  | bcast (f : Fields) | bfi (f : Fields) | bfx (f : Fields) | bkpt (f : Fields) | bpass (f : Fields)
  | bra (f : Fields) | brev (f : Fields) | btake (f : Fields) | bwait (f : Fields) | call (f : Fields)
  | callInd (f : Fields) | cctl (f : Fields) | cfence (f : Fields) | clz (f : Fields) | coll (f : Fields)
  | copy (f : Fields) | cvt (f : Fields) | cvtpk (f : Fields) | cwait (f : Fields) | cwaitSplit (f : Fields)
  | epapp (f : Fields) | epend (f : Fields) | epi (f : Fields) | epiRec (f : Fields) | exit (f : Fields)
  | fadd (f : Fields) | fsub (f : Fields) | fmul (f : Fields) | ffma (f : Fields) | fcmp (f : Fields)
  | fence (f : Fields) | fmax (f : Fields) | fmin (f : Fields) | frnd (f : Fields) | fsfn (f : Fields)
  | gate (f : Fields) | gather (f : Fields) | iabs (f : Fields) | iadd (f : Fields) | isub (f : Fields)
  | iaddmin (f : Fields) | icmp (f : Fields) | idp2 (f : Fields) | idp4 (f : Fields) | imad (f : Fields)
  | imax (f : Fields) | imin (f : Fields) | imul (f : Fields) | imulh (f : Fields) | jmp (f : Fields)
  | jmpInd (f : Fields) | ld (f : Fields) | lea (f : Fields) | lqdone (f : Fields) | lqtake (f : Fields)
  | lqtakeSplit (f : Fields) | lqtakeTry (f : Fields) | lrel (f : Fields) | mbatch (f : Fields) | mfs (f : Fields)
  | mma (f : Fields) | mov (f : Fields) | mts (f : Fields) | mwait (f : Fields) | nop (f : Fields)
  | not (f : Fields) | or (f : Fields) | xor (f : Fields) | park (f : Fields) | pgreq (f : Fields)
  | pgreqSplit (f : Fields) | plop (f : Fields) | popc (f : Fields) | pref (f : Fields) | rcopy (f : Fields)
  | red (f : Fields) | redl (f : Fields) | scanl (f : Fields) | ret (f : Fields) | rwdsend (f : Fields)
  | rwr (f : Fields) | rwrVec (f : Fields) | scatter (f : Fields) | sel (f : Fields) | shfl (f : Fields)
  | slide (f : Fields) | swzx (f : Fields) | shl (f : Fields) | shr (f : Fields) | shra (f : Fields)
  | shrrn (f : Fields) | st (f : Fields) | tmark (f : Fields) | trap (f : Fields) | tret (f : Fields)
  | twin (f : Fields) | vexp (f : Fields) | vshape (f : Fields) | vsqz (f : Fields) | vote (f : Fields)
  | xfma2 (f : Fields) | yield (f : Fields)
  -- mailbox commands (R309)
  | status (m : MailCmd) | regctx (m : MailCmd) | regq (m : MailCmd) | regmem (m : MailCmd) | regjoin (m : MailCmd)
  | regspare (m : MailCmd) | resume (m : MailCmd) | destroy (m : MailCmd) | halt (m : MailCmd)
  | ochrerd (m : MailCmd) | unfence (m : MailCmd) | counters (m : MailCmd)
  -- writes to die 0's register space (R308)
  | notifyWrite (queue : Nat) (value : DWord)
  | stepdoneWrite (value : DWord)
  | ckptWrite (value : DWord)
  | rewardPageWrite (offset : Nat) (bytes : List Byte)
  | unlistedRegisterWrite (offset : Nat) (bytes : List Byte)
  -- packets and launches (R201 to R211)
  | packetAccept (queue : Nat)
  | launch (queue : Nat) (seq : Word)
  | bundle (queue : Nat) (seq : Word)
  | inval (queue : Nat) (seq : Word)
  | collProgramStep (prog : Nat) (peers : List (List Byte)) (mismatch : Bool)
  | packetComplete (queue : Nat) (seq : Word)
  -- placement, pre-emption, continuations (R29, R30, R243 to R246, R218)
  | workgroupPlacement (die : Nat)
  | reservation (die : Nat)
  | preemptionSave (wg : Nat)
  | preemptionTimeout (wg : Nat)
  | workgroupRestore (saved : Nat)
  | continuationResume (die : Nat)
  | rwrLanding (sender : Nat)
  -- the matrix engine, jobs and pages
  | bankGrant (core : Nat)
  | bankReturn (core : Nat) (bank : Nat)
  | matrixStep (core : Nat)
  | jobComplete (job : Nat)
  | jobResume (job : Nat)
  | pageMakeResident (ctx : BitVec 16) (va : Nat)
  | pagePinExpiry (ctx : BitVec 16) (va : Nat)
  | combiningFlush (core : Nat)
  -- issue (R42, R43, R45)
  | starvationQualify (cid : Nat)
  | yieldExpiry (cid : Nat)
  | readPin (core : Nat) (slot : Nat) (bank : Nat) (cid : Nat) (losses : Nat)
  -- collectives and pulls (R176 to R187)
  | collectiveStart (coll : Nat)
  | collectiveComplete (coll : Nat) (peers : List (List Byte)) (mismatch : Bool)
  | pullRequest (src : Sender) (gen : Word) (txid : BitVec 16) (core : Nat) (line : Nat)
  | pullLineRead (pull : Nat)
  | pullResponse (txid : TxId) (refused : Bool) (data : Line)
  | pullReissue (txid : TxId)
  -- the fabric (R189 to R194)
  | flitReceive (port : Nat) (flit : BitVec 2048)
  | portFail (port : Nat) (linkLoss : Bool)
  | heldPacketTimeout (port : Nat)
  | podBarrierArrive (p : PodPkt)
  | podBarrierComplete (p : PodPkt)
  | podBarrierResend (cid : Nat)
  -- membership (R249 to R269)
  | heartbeatSend (peer : Nat)
  | heartbeatReceive (h : Heartbeat)
  | heartbeatMiss (peer : Nat)
  | suspect (m : MemMsg)
  | withdraw (m : MemMsg)
  | prepare (m : MemMsg)
  | promise (m : MemMsg)
  | propose (m : MemMsg)
  | accept (m : MemMsg)
  | proposalRetry
  | commit (m : MemMsg)
  | joined (m : MemMsg)
  | sealStep (step : Word)
  | cloneRequest (src : Sender) (gen : Word) (txid : BitVec 16) (stripe : Nat) (step : Word) (fingerprint : Bool)
  | cloneResponse (src : BitVec 20) (stripe : Nat) (reason : BitVec 8) (fingerprint : Option DWord) (data : List Byte)
  -- reward join (R278 to R285)
  | rewardMessage (die : Nat) (fromPort : Bool) (m : RewardMsg)
  | rewardAcknowledgement (txid : TxId)
  | rewardUnacknowledged (txid : TxId)
  | rewardHoldTimeout (die : Nat)
  | orphanTimeout (die : Nat)
  | joinTimeout (die : Nat) (entry : Nat)
  | episodeRelease (die : Nat)
  -- stops (R227 to R231)
  | cohortStop (cid : Nat)
  | engineStop (ctx : BitVec 16)
  | stopAreaWrite (ctx : BitVec 16)
  -- silent-error defence, firmware and power (R222 to R224, R294 to R312)
  | indigoWindowCompare (cid : Nat)
  | replayRateFence (unit : BitVec 16)
  | ochreTest (unit : BitVec 16)
  | ochreTestComplete (unit : BitVec 16) (pass : Bool) (workArrived : Bool)
  | wayDisable (die : Nat) (slice : Nat) (set : Nat) (way : Nat)
  | firmwareCoreError (die : Nat) (core : Nat) (testPass : Bool)
  | firmwareEvent (die : Nat)
  | frontEndReset (die : Nat)
  | thermalThrottle (die : Nat) (tempC : Nat)
  | throttleEnd (die : Nat) (tempC : Nat)
  | overTemperatureShutdown (die : Nat) (tempC : Nat)
  | telemetryReport (powerW inletC outletC junctionC : Nat)
  | moduleReset (b : BootInfo)
  | lineLands (job : Nat)
  | cxlMemAccess (pa : Nat) (size : Nat) (write : Option (List Byte))
  | cxlCacheSnoop (lineAddr : Nat) (write : Option Line)
  | spdmRequest (code : Byte) (block : Nat)
  | rankTableRegistration (t : RankTable)
  | routingTableWrite (die : Nat) (faddr : BitVec 20) (port : Nat)
deriving DecidableEq, Repr

end Sys2Proof
end

