-- ==== Sys2Proof/Machine/Forms.lean ====
section
/-!
DEFINITION. Machine/Forms.lean: the opcode map with each form's accepted fields (R325, R333, R361, R389, R420) and the
checks of a word in the order of R323.
-/

namespace Sys2Proof

/-- One row of the opcode map: an opcode, the SUB values of the row, the form of each SUB, and its instruction. -/
structure OpRow where
  opc  : BitVec 8
  subs : List (BitVec 4)
  form : BitVec 4 → Form
  build : Fields → Instr

/-! Operand class sets (R315, R333): one bit per class. -/

/-- class 000 -/ def cV : BitVec 8 := 1
/-- class 001 -/ def cP : BitVec 8 := 2
/-- class 010 -/ def cT : BitVec 8 := 4
/-- class 011 -/ def cS : BitVec 8 := 8
/-- class 100 -/ def cI : BitVec 8 := 16
/-- class 101 -/ def cX : BitVec 8 := 32
/-- class 110 -/ def cPair : BitVec 8 := 64
/-- class 111 -/ def cN : BitVec 8 := 128
/-- V, a 13-bit immediate or IMM32 (R333) -/ def cVal : BitVec 8 := 49
/-- V, a 32-bit special register, a 13-bit immediate or IMM32 (R333) -/ def cSrc : BitVec 8 := 57
/-- a V-pair, a 13-bit immediate or IMM32 -/ def cPairImm : BitVec 8 := 112
/-- a memory base: V or pair -/ def cBase : BitVec 8 := 65
/-- a displacement: immediate, IMM32 or none -/ def cDisp : BitVec 8 := 176
/-- a predicate or none -/ def cPN : BitVec 8 := 130

/-! TYP sets (R325). -/

/-- U32 and S32 -/ def tInt : BitVec 16 := 0x3
/-- U32, S32 and the packed integers -/ def tPacked : BitVec 16 := 0xF03
/-- F32, BF16, F16 -/ def tFp : BitVec 16 := 0x1C
/-- all sixteen -/ def tAny : BitVec 16 := 0xFFFF

/-- every scope, SCP 0 to 5 (R13) -/ def scpAll : BitVec 8 := 0x3F
/-- RND 000 to 101, mark Rs -/ def rndS : BitVec 8 := 0x3F
/-- RND 000 to 100, mark R -/ def rndR : BitVec 8 := 0x1F

/-- A form with two sources and a V destination, without a type. -/
def formLogic2 : Form := { od := cV, oa := cSrc, ob := cSrc }
/-- A form with one source and a V destination, without a type. -/
def formLogic1 : Form := { od := cV, oa := cSrc }

/-- RND accepted by a CVT from source type `s` to destination type `d` (R372). -/
def cvtRnds (s d : BitVec 4) : BitVec 8 :=
  let intT (t : BitVec 4) : Bool := t = 0 ∨ t = 1 ∨ 8 ≤ t.toNat
  if intT s ∧ intT d then 1 else if intT d then rndR else rndS

/-- The form of LD, by SUB (R404). -/
def formLd (s : BitVec 4) : Form :=
  { typs := some (if s.toNat ≤ 1 then tAny else tInt), od := if s = 1 then cPair else cV, oa := cBase, ob := cDisp,
    oe := cPN, la := true, hint := 0xF, ords := 0x3, scps := scpAll }

/-- The form of ST, by SUB (R446). -/
def formSt (s : BitVec 4) : Form :=
  { typs := some (if s.toNat ≤ 1 then tAny else 1), oa := cBase, ob := cDisp, oc := if s = 1 then cPairImm else cSrc,
    oe := cPN, hint := 0x3, ords := 0x5, scps := scpAll }

/-- The TYP codes of ATOM and RED, by SUB (R342). -/
def atomTyps (s : BitVec 4) : BitVec 16 := if s.toNat ≤ 2 then tInt else if s = 8 then 0x4 else 1

/-- The form of ATOM, by SUB (R342). -/
def formAtom (s : BitVec 4) : Form :=
  { typs := some (atomTyps s), od := cV ||| cN, oa := cBase, ob := cDisp, oc := if s = 7 then cPair else cSrc,
    oe := cPN, la := true, hint := 0x3, ords := 0xF, scps := scpAll, scpFree := true }

/-- The form of RED, by SUB (R433). -/
def formRed (s : BitVec 4) : Form :=
  { typs := some (atomTyps s), oa := cBase, ob := cDisp, oc := cSrc,
    oe := cPN, hint := 0x3, ords := 0x5, scps := scpAll, scpFree := true }

/-- The form of a two-source floating-point instruction (R361). -/
def formFp2 (rnds : BitVec 8) : Form := { typs := some tFp, od := cV, oa := cSrc, ob := cSrc, rnds := rnds }

/-- The form of GATHER and SCATTER (R165). -/
def formGather : Form :=
  { od := cT, oa := cPair, ob := cV, oc := cPair, oe := cPair, la := true, hint := 0x3, scps := scpAll,
    immBits := some 0x1FFF, rangeB := 5 }

/-- The form of IADD and ISUB, by SUB (R389). -/
def formIadd (s : BitVec 4) : Form :=
  if s = 1 then { typs := some tInt, od := cPair, oa := cPairImm, ob := cPairImm, sat := true }
  else { typs := some tPacked, od := cV, oa := cSrc, ob := cSrc, sat := true }

/-- The form of SHL and SHR, by SUB (R420). -/
def formShift (typs : BitVec 16) (sat : Bool) (s : BitVec 4) : Form :=
  if s = 1 then { typs := some typs, od := cPair, oa := cPair, ob := cSrc }
  else { typs := some typs, od := cV, oa := cSrc, ob := cSrc, sat := sat }

/-- The SUB values 0 to `k`. -/
def subsTo (k : Nat) : List (BitVec 4) := (List.range (k + 1)).map (BitVec.ofNat 4)

/-- *Control* rows of the opcode map (R325). -/
def opControl : List OpRow := [
  ⟨0x01, [0], fun _ => {}, .nop⟩,
  ⟨0x02, [0], fun _ => { oa := cP, immBits := some 0xFFFFFFFF }, .bra⟩,
  ⟨0x03, [0], fun _ => { immBits := some 0xFFFFFFFF }, .jmp⟩,
  ⟨0x03, [1], fun _ => { oa := cV }, .jmpInd⟩,
  ⟨0x04, [0], fun _ => { od := cPair, immBits := some 0xFFFFFFFF }, .call⟩,
  ⟨0x04, [1], fun _ => { od := cPair, oa := cV }, .callInd⟩,
  ⟨0x05, [0], fun _ => { oa := cPair }, .ret⟩,
  ⟨0x06, [0], fun _ => { oa := cPair ||| cN, ob := cPair ||| cN, oc := cPair ||| cN, oe := cPair ||| cN }, .exit⟩,
  ⟨0x07, [0], fun _ => {}, .yield⟩,
  ⟨0x08, [0], fun _ => { od := cV ||| cN, oa := cV, ob := cV ||| cN, oc := cV ||| cN, noGuard := true,
                         immBits := some 0x1F1F }, .park⟩,
  ⟨0x09, [0], fun _ => { noGuard := true }, .gate⟩,
  ⟨0x0A, [0], fun _ => { noGuard := true }, .lrel⟩,
  ⟨0x0B, [0], fun _ => { oa := cP, ob := cPair ||| cN }, .assert⟩,
  ⟨0x0C, [0], fun _ => { oa := cDisp }, .trap⟩,
  ⟨0x0D, [0], fun _ => { oa := cDisp }, .bkpt⟩,
  ⟨0x0E, [0], fun _ => { oa := cVal ||| cN }, .tret⟩]

/-- *Integer* rows (R325). -/
def opInteger : List OpRow := [
  ⟨0x20, [0, 1], formIadd, .iadd⟩,
  ⟨0x21, [0, 1], formIadd, .isub⟩,
  ⟨0x22, [0], fun _ => { typs := some tInt, od := cV, oa := cSrc, ob := cSrc, sat := true }, .imul⟩,
  ⟨0x23, [0], fun _ => { typs := some tInt, od := cV, oa := cSrc, ob := cSrc }, .imulh⟩,
  ⟨0x24, [0, 1], fun s => { typs := some tInt, od := if s = 1 then cPair else cV, oa := cSrc, ob := cSrc,
                            oc := if s = 1 then cPairImm else cSrc, sat := true }, .imad⟩,
  ⟨0x25, [0], fun _ => { typs := some 0x502, od := cV, oa := cSrc, sat := true }, .iabs⟩,
  ⟨0x26, [0], fun _ => { typs := some tPacked, od := cV, oa := cSrc, ob := cSrc }, .imin⟩,
  ⟨0x27, [0], fun _ => { typs := some tPacked, od := cV, oa := cSrc, ob := cSrc }, .imax⟩,
  ⟨0x28, [0], fun _ => { typs := some tInt, od := cV, oa := cSrc, ob := cSrc, oc := cSrc }, .iaddmin⟩,
  ⟨0x29, subsTo 5, fun _ => { typs := some tInt, od := cV ||| cP, oa := cSrc, ob := cSrc }, .icmp⟩,
  ⟨0x2A, [0, 1], fun s => { typs := some tInt, od := if s = 1 then cPair else cV, oa := if s = 1 then cPair else cSrc,
                            ob := cSrc, oc := cI, sat := true }, .lea⟩,
  ⟨0x2B, [0], fun _ => { typs := some 0x100, od := cV, oa := cSrc, ob := cSrc, oc := cSrc, sat := true }, .idp2⟩,
  ⟨0x2C, [0], fun _ => { typs := some 0x400, od := cV, oa := cSrc, ob := cSrc, oc := cSrc, sat := true }, .idp4⟩,
  ⟨0x2D, [0], fun _ => { typs := some 0x500, od := cV, oa := cSrc, ob := cSrc, sat := true }, .shrrn⟩]

/-- *Logic and bits* rows (R325). -/
def opLogic : List OpRow := [
  ⟨0x30, [0], fun _ => formLogic2, .and⟩,
  ⟨0x31, [0], fun _ => formLogic2, .or⟩,
  ⟨0x32, [0], fun _ => formLogic2, .xor⟩,
  ⟨0x33, [0], fun _ => formLogic2, .andn⟩,
  ⟨0x34, [0], fun _ => formLogic1, .not⟩,
  ⟨0x35, [0, 1], formShift tInt true, .shl⟩,
  ⟨0x36, [0, 1], formShift 1 false, .shr⟩,
  ⟨0x37, [0], fun _ => { typs := some 2, od := cV, oa := cSrc, ob := cSrc }, .shra⟩,
  ⟨0x38, [0], fun _ => { typs := some tInt, od := cV, oa := cSrc, ob := cSrc, oc := cSrc }, .bfx⟩,
  ⟨0x39, [0], fun _ => { od := cV, oa := cSrc, ob := cSrc, oc := cSrc, oe := cSrc }, .bfi⟩,
  ⟨0x3A, [0], fun _ => formLogic1, .popc⟩,
  ⟨0x3B, [0], fun _ => formLogic1, .clz⟩,
  ⟨0x3C, [0], fun _ => formLogic1, .brev⟩]

/-- *Moves, conversion and predicates* rows (R325). CVT's RND set depends on its types and is checked by `rndSet`. -/
def opMove : List OpRow := [
  ⟨0x40, [0, 1], fun s => { typs := some tAny, od := if s = 1 then cPair else cV,
                            oa := if s = 1 then cPairImm else cSrc }, .mov⟩,
  ⟨0x41, [0], fun _ => { typs := some tAny, od := cV, oa := cSrc, ob := cSrc, oc := cP }, .sel⟩,
  ⟨0x42, subsTo 11, fun _ => { typs := some 0xFFF, od := cV, oa := cSrc, ob := cI ||| cN, rnds := rndS, sat := true }, .cvt⟩,
  ⟨0x43, subsTo 3, fun _ => { typs := some 0xFF8, od := cV, oa := cSrc, ob := cSrc, rnds := rndS, sat := true }, .cvtpk⟩,
  ⟨0x44, subsTo 4, fun s => { od := cP, oa := if s = 4 then cSrc else cP, ob := if s = 4 then cN else cP }, .plop⟩]

/-- *Floating point* rows (R325). -/
def opFloat : List OpRow := [
  ⟨0x50, [0], fun _ => formFp2 rndS, .fadd⟩,
  ⟨0x51, [0], fun _ => formFp2 rndS, .fsub⟩,
  ⟨0x52, [0], fun _ => formFp2 rndS, .fmul⟩,
  ⟨0x53, [0], fun _ => { typs := some tFp, od := cV, oa := cSrc, ob := cSrc, oc := cSrc, rnds := rndS }, .ffma⟩,
  ⟨0x54, [0], fun _ => formFp2 1, .fmin⟩,
  ⟨0x55, [0], fun _ => formFp2 1, .fmax⟩,
  ⟨0x56, subsTo 7, fun _ => { typs := some 0x4, od := cV ||| cP, oa := cSrc, ob := cSrc }, .fcmp⟩,
  ⟨0x57, [0], fun _ => { typs := some tFp, od := cV, oa := cSrc, rnds := rndR }, .frnd⟩,
  ⟨0x58, subsTo 7, fun _ => { typs := some 0x4, od := cV, oa := cSrc, la := true }, .fsfn⟩,
  ⟨0x59, [0], fun _ => { typs := some 0x18, od := cV, oa := cSrc, ob := cSrc, oc := cSrc, rnds := rndS }, .xfma2⟩]

/-- *Cross-lane and shape* rows (R325). -/
def opCross : List OpRow := [
  ⟨0x70, [0, 1], fun _ => { typs := some tAny, od := cV, oa := cV, ob := cSrc }, .shfl⟩,
  ⟨0x71, [0, 1], fun _ => { typs := some tAny, od := cV, oa := cV, ob := cVal, oc := cSrc ||| cN }, .slide⟩,
  ⟨0x72, [0], fun _ => { typs := some tAny, od := cV, oa := cV, immBits := some 0x3FFFFFF }, .swzx⟩,
  ⟨0x73, [0], fun _ => { typs := some tAny, od := cV, oa := cV, ob := cVal }, .bcast⟩,
  ⟨0x74, subsTo 3, fun s => { od := if s.toNat ≤ 1 then cV ||| cP else if s = 2 then cPair else cV, oa := cP }, .vote⟩,
  ⟨0x75, subsTo 5, fun s => { typs := some (if s.toNat ≤ 2 then 0x7 else 1), od := cV, oa := cV }, .redl⟩,
  ⟨0x76, subsTo 3, fun _ => { typs := some 0x7, od := cV, oa := cV }, .scanl⟩,
  ⟨0x78, [0], fun _ => { od := cV, oa := cV }, .vshape⟩,
  ⟨0x79, [0], fun _ => { od := cV, oa := cV }, .vsqz⟩,
  ⟨0x7A, [0], fun _ => { od := cV, oa := cV }, .vexp⟩]

/-- *Memory* rows (R325). -/
def opMemory : List OpRow := [
  ⟨0x80, subsTo 3, formLd, .ld⟩,
  ⟨0x81, subsTo 3, formSt, .st⟩,
  ⟨0x82, subsTo 8, formAtom, .atom⟩,
  ⟨0x83, [0, 1, 2, 3, 4, 5, 8], formRed, .red⟩,
  ⟨0x84, [0], fun _ => { oa := cBase, ob := cDisp, oe := cPN, hint := 0x7 }, .pref⟩,
  ⟨0x85, [0], fun _ => { od := cPN, oa := cBase, ob := cDisp }, .pgreq⟩,
  ⟨0x85, [1], fun _ => { od := cV, oa := cBase, ob := cDisp }, .pgreqSplit⟩,
  ⟨0x86, subsTo 2, fun s => { oa := if s = 1 then cPair ||| cN else cN, ob := if s = 1 then cVal ||| cN else cN,
                              scps := if s = 1 then scpAll else 0x1F }, .cctl⟩,
  ⟨0x87, [0], fun _ => { ords := 0xE, scps := scpAll }, .fence⟩,
  ⟨0x88, [0, 1], fun _ => { oa := cT, ob := cVal, oc := cVal }, .tmark⟩,
  ⟨0x89, [0], fun _ => { od := cT, oa := cSrc }, .twin⟩]

/-- The TYP codes of MMA, by SUB (R325). -/
def mmaTyps (s : BitVec 4) : BitVec 16 := if s.toNat ≤ 1 then 0xF4F8 else 0x60

/-- *Engines and the matrix engine* rows (R325). -/
def opEngine : List OpRow := [
  ⟨0xA0, [0, 1], fun _ => { od := cT, oa := cPair, ob := cV, oc := cPair, la := true, hint := 0x3, scps := scpAll,
                            rangeB := 5 }, .copy⟩,
  ⟨0xA1, [0], fun _ => formGather, .gather⟩,
  ⟨0xA2, [0], fun _ => formGather, .scatter⟩,
  ⟨0xA3, [0], fun _ => { od := cT, oa := cV, ob := cV, oc := cPair, la := true, scps := scpAll,
                         immBits := some 0x7FFFF }, .rcopy⟩,
  ⟨0xA4, subsTo 3, fun s => { typs := some (if s.toNat ≤ 1 then 0x1F else tAny), od := cT, oa := cPair, noGuard := true,
                              immBits := some 0xFFFFFFFF }, .coll⟩,
  ⟨0xA5, [0], fun _ => { oa := cPair, ob := cVal, la := true, scps := scpAll }, .cwait⟩,
  ⟨0xA5, [1], fun _ => { od := cV, oa := cPair, ob := cVal, la := true, scps := scpAll }, .cwaitSplit⟩,
  ⟨0xA8, subsTo 3, fun s => { typs := some (mmaTyps s), od := cPair, oa := cPair, ob := cT, oc := cVal,
                              oe := cV ||| cN, la := true, ru := true }, .mma⟩,
  ⟨0xA9, [0], fun _ => { od := cV ||| cN }, .mbatch⟩,
  ⟨0xAA, [0], fun _ => { oa := cVal }, .mwait⟩,
  ⟨0xAB, [0], fun _ => { od := cV, oa := cVal }, .accalloc⟩,
  ⟨0xAC, [0], fun _ => { oa := cV }, .accfree⟩,
  ⟨0xAD, [0, 1], fun _ => { typs := some 0xF0FE, od := cT, oa := cPair, ob := cV, oe := cPair, la := true,
                            rnds := rndR, sat := true, scps := scpAll }, .epi⟩,
  ⟨0xAD, [2, 3], fun _ => { typs := some 0xFE, od := cPair, oa := cPair, ob := cV, oc := cV, oe := cPair, la := true,
                            rnds := rndR, sat := true, scps := scpAll, rangeC := 5 }, .epiRec⟩,
  ⟨0xAE, [0], fun _ => {}, .btake⟩,
  ⟨0xAF, [0], fun _ => {}, .bpass⟩]

/-- *Synchronisation, membership, reward join and special registers* rows (R325). -/
def opSync : List OpRow := [
  ⟨0xC0, [0], fun _ => { od := cPN, scps := scpAll }, .bar⟩,
  ⟨0xC1, [0], fun _ => { oa := cPair, ob := cVal, scps := scpAll }, .barinit⟩,
  ⟨0xC2, [0], fun _ => { od := cV ||| cN, oa := cPair }, .arrive⟩,
  ⟨0xC3, [0], fun _ => { od := cPN, oa := cPair, ob := cVal }, .bwait⟩,
  ⟨0xC4, [0], fun _ => { od := cV, oa := cVal, ob := cV ||| cI, oc := cV ||| cI }, .rwr⟩,
  ⟨0xC4, [1], fun _ => { od := cV, oa := cV, ob := cV ||| cI, oc := cV ||| cI }, .rwrVec⟩,
  ⟨0xC5, [0], fun _ => { oa := cVal, noGuard := true }, .awaitc⟩,
  ⟨0xC6, [0], fun _ => { od := cPN, oa := cVal, noGuard := true }, .cfence⟩,
  ⟨0xD0, [0], fun _ => { od := cPN, oa := cPair, ob := cV, la := true, rangeB := 8 }, .epapp⟩,
  ⟨0xD1, [0], fun _ => { od := cPN, oa := cPair, ob := cV, oc := cV ||| cI, oe := cP, la := true }, .epend⟩,
  ⟨0xD2, [0], fun _ => { oa := cPair, ob := cV ||| cI, oc := cV, la := true, immBits := some 1 }, .rwdsend⟩,
  ⟨0xD3, [0], fun _ => { od := cV, la := true }, .lqtake⟩,
  ⟨0xD3, [1], fun _ => { od := cV }, .lqtakeSplit⟩,
  ⟨0xD3, [2], fun _ => { od := cV, oe := cP }, .lqtakeTry⟩,
  ⟨0xD4, [0], fun _ => { oa := cV }, .lqdone⟩,
  ⟨0xE0, [0], fun _ => { od := cV ||| cPair, oa := cS }, .mfs⟩,
  ⟨0xE1, [0], fun _ => { od := cS, oa := cSrc ||| cPair }, .mts⟩]

/-- The opcode map (R325). -/
def opMap : List OpRow :=
  opControl ++ opInteger ++ opLogic ++ opMove ++ opFloat ++ opCross ++ opMemory ++ opEngine ++ opSync

/-- The row of an opcode and SUB. -/
def opRow? (opc : BitVec 8) (sub : BitVec 4) : Option OpRow :=
  opMap.find? fun r => r.opc == opc && r.subs.contains sub

/-! ### The fields of a raw word -/

/-- The class of a raw operand field (R315). -/
def opClass (o : BitVec 16) : Nat := (o >>> 13).toNat

/-- The index of a raw operand field (R315). -/
def opIndex (o : BitVec 16) : Nat := (o &&& 0x1FFF).toNat

/-- How many index bits a class uses (R315). -/
def indexBits : Nat → Nat
  | 0 => 8 | 1 => 3 | 2 => 4 | 3 => 9 | 4 => 13 | 6 => 8 | _ => 0

/-- The five raw operand fields with their numbers, in checking order (R323). -/
def Raw.operands (r : Raw) : List (Nat × BitVec 16) := [(0, r.od), (1, r.oa), (2, r.ob), (3, r.oc), (4, r.oe)]

/-- The class sets of a form in checking order. -/
def Form.classes (f : Form) : List (BitVec 8) := [f.od, f.oa, f.ob, f.oc, f.oe]

/-- Whether a special register is 64 bits wide (R52). -/
def special64 (i : Nat) : Bool := i == 0x0C || i == 0x0D || i == 0x10 || i == 0x11

/-- Whether MTS may name a special register, $ACTMASK and $EPC among them in every mode (R52, R417). -/
def specialWritable (i : Nat) : Bool :=
  i == 0x0B || i == 0x0C || i == 0x0E || i == 0x0F || i == 0x11 || i == 0x12 || i == 0x17

/-- Elements of a type in one lane word (R71, R74); MX types count as their elements. -/
def Raw.elemCount (t : BitVec 4) : Nat :=
  match t.toNat with
  | 3 => 2 | 4 => 2 | 5 => 4 | 6 => 4 | 7 => 8 | 8 => 2 | 9 => 2 | 10 => 4 | 11 => 4 | 12 => 4 | 13 => 4 | 14 => 8 | 15 => 4
  | _ => 1

/-- The class set that position `k` accepts, where it depends on other fields: MTS's source on the register it names
(R389), and MMA's scale on its type (R413). -/
def classSet (r : Raw) (f : Form) (k : Nat) : BitVec 8 :=
  if r.opc = 0xE1 ∧ k = 1 then (if special64 (opIndex r.od % 512) then cPairImm else cSrc)
  else if r.opc = 0xA8 ∧ k = 4 ∧ 12 ≤ r.typ.toNat then cV
  else (f.classes[k]?).getD 128

/-- The RND codes a word may carry (R76, R372, R374). -/
def rndSet (r : Raw) (f : Form) : BitVec 8 :=
  if r.opc = 0x42 then cvtRnds r.sub r.typ
  else if r.opc = 0x43 then cvtRnds (if 8 ≤ r.typ.toNat then 1 else 2) r.typ
  else f.rnds

/-! ### The checks of R323 -/

/-- Check 4: TYP accepted. -/
def check4 (r : Raw) (f : Form) : Option BadWord :=
  match f.typs with
  | some ts => if ts.getLsbD r.typ.toNat then none else some ⟨1, 8, 0xFF⟩
  | none => none

/-- Check 5: the class of a field is accepted; a position marked none accepts class 111 alone (R333, R361, R389, R420). -/
def check5 (r : Raw) (f : Form) (k : Nat) (o : BitVec 16) : Option BadWord :=
  if (classSet r f k).getLsbD (opClass o) then none else some ⟨1, 4, k⟩

/-- How many registers a field reads from its base (R164, R275, R378). -/
def rangeOf (f : Form) (k : Nat) : Nat := if k = 2 then f.rangeB else if k = 3 then f.rangeC else 1

/-- Check 6: register indexes below n. -/
def check6 (n : Nat) (f : Form) (k : Nat) (o : BitVec 16) : Option BadWord :=
  let i := opIndex o % 256
  if (opClass o = 0 ∧ n < i + rangeOf f k) ∨ (opClass o = 6 ∧ n ≤ i) then some ⟨1, 5, k⟩ else none

/-- Check 7: pair index even and its odd half below n. -/
def check7 (n : Nat) (k : Nat) (o : BitVec 16) : Option BadWord :=
  let i := opIndex o % 256
  if opClass o = 6 ∧ (i % 2 = 1 ∨ n ≤ i + 1) then some ⟨1, 6, k⟩ else none

/-- Check 8: special-register index and access (R52, R412, R417). -/
def check8 (r : Raw) (k : Nat) (o : BitVec 16) : Option BadWord :=
  let i := opIndex o % 512
  if opClass o ≠ 3 then none
  else if 0x17 < i then some ⟨1, 7, k⟩
  else if r.opc = 0xE0 then (if special64 i = (opClass r.od == 6) then none else some ⟨1, 7, k⟩)
  else if r.opc = 0xE1 ∧ k = 0 then (if specialWritable i then none else some ⟨1, 7, k⟩)
  else if special64 i then some ⟨1, 7, k⟩ else none

/-- Checks 5 to 8, field by field: within a field the class check comes before the index checks. -/
def checkOperands (n : Nat) (r : Raw) (f : Form) : Option BadWord :=
  r.operands.findSome? fun (k, o) =>
    check5 r f k o <|> check6 n f k o <|> check7 n k o <|> check8 r k o

/-- Whether a used CVT element index is in its source's range (R372). -/
def cvtElemOk (r : Raw) : Bool := !(r.opc == 0x42 && opClass r.ob == 4 && Raw.elemCount r.sub ≤ opIndex r.ob)

/-- Check 9: reserved bits zero; RED = 3 of COLL is a reserved value (R183). -/
def check9 (r : Raw) (f : Form) : Option BadWord :=
  if r.res0 ≠ 0 ∨ r.res3 ≠ 0 then some ⟨2, 1, 0xFF⟩
  else match r.operands.findSome? fun (k, o) =>
      if opIndex o < 2 ^ indexBits (opClass o) then none else some (⟨2, 1, k⟩ : BadWord) with
    | some b => some b
    | none =>
      if !cvtElemOk r then some ⟨2, 1, 2⟩
      else match f.immBits with
        | some m => if r.imm &&& ~~~m ≠ 0 ∨ (r.opc = 0xA4 ∧ r.imm &&& 3 = 3) then some ⟨2, 1, 0xFF⟩ else none
        | none => none

/-- Whether some operand is of class 101 (R321). -/
def usesImm32 (r : Raw) : Bool := r.operands.any fun (_, o) => opClass o == 5

/-- Whether COLL's RED is set on an operation that has none, or its ROOT on one other than `.bcast` (R183). -/
def collUnused (r : Raw) : Bool := (2 ≤ r.sub.toNat && r.imm &&& 3 != 0) || (r.sub != 3 && r.imm >>> 8 != 0)

/-- Check 10: unused fields besides the operand positions hold "none" (R321), hints not accepted by the form (R106), the guard of N instructions,
MMA's scale operand without an MX type (R413), and COLL's RED and ROOT where its operation has none (R183). -/
def check10 (r : Raw) (f : Form) : Option BadWord :=
  if f.typs = none ∧ r.typ ≠ 0 then some ⟨2, 2, 0xFF⟩
  else if r.opc = 0xA8 ∧ r.typ.toNat < 12 ∧ opClass r.oe ≠ 7 then some ⟨2, 2, 4⟩
  else if r.hint &&& ~~~f.hint ≠ 0 ∨ (f.la = false ∧ r.la ≠ 0) ∨ (f.ru = false ∧ r.ru ≠ 0) then some ⟨2, 2, 0xFF⟩
  else if f.noGuard ∧ (r.ga ≠ 7 ∨ r.gb ≠ 7 ∨ r.gc ≠ 0) then some ⟨2, 2, 0xFF⟩
  else if f.immBits = none ∧ usesImm32 r = false ∧ r.imm ≠ 0 then some ⟨2, 2, 0xFF⟩
  else if r.opc = 0xA4 ∧ collUnused r then some ⟨2, 2, 0xFF⟩
  else none

/-- Check 11: RND accepted. -/
def check11 (r : Raw) (f : Form) : Option BadWord :=
  if (rndSet r f).getLsbD r.rnd.toNat then none else some ⟨2, 3, 0xFF⟩

/-- Check 12: ORD and SCP accepted (R130). -/
def check12 (r : Raw) (f : Form) : Option BadWord :=
  if f.ords.getLsbD r.ord.toNat = false ∨ f.scps.getLsbD r.scp.toNat = false then some ⟨2, 4, 0xFF⟩
  else if f.ords ≠ 1 ∧ r.ord = 0 ∧ f.scpFree = false ∧ r.scp ≠ 0 then some ⟨2, 4, 0xFF⟩
  else none

/-- Check 13: SAT accepted. -/
def check13 (r : Raw) (f : Form) : Option BadWord :=
  if f.sat = false ∧ r.sat ≠ 0 then some ⟨2, 5, 0xFF⟩ else none

/-- Whether a SWZX word's group size and selectors are in range (R442). -/
def swzxOk (imm : Word) : Bool :=
  let g := 2 ^ ((imm >>> 24) &&& 3).toNat
  (imm >>> 24) &&& 3 ≠ 0 &&
  (List.range 8).all fun j =>
    let s := ((imm >>> (3 * j)) &&& 7).toNat
    if j < g then s < g else s = 0

/-- PARK's counts against its fields (R424). -/
def parkCheck (r : Raw) : Option BadWord :=
  let c1 := (r.imm &&& 0x1F).toNat
  let c2 := ((r.imm >>> 8) &&& 0x1F).toNat
  if 16 < c1 ∨ 16 < c2 then some ⟨2, 1, 0xFF⟩
  else if (c1 = 0) ≠ (opClass r.ob = 7) then some ⟨2, 2, 2⟩
  else if (c2 = 0) ≠ (opClass r.oc = 7) then some ⟨2, 2, 3⟩
  else none

/-- Check 14: limits that an entry states for an encoded value. -/
def check14 (r : Raw) : Option BadWord :=
  if r.opc = 0x72 then (if swzxOk r.imm then none else some ⟨2, 1, 0xFF⟩)
  else if r.opc = 0x2A then
    (if opIndex r.oc < (if r.sub = 1 then 64 else 32) then none else some ⟨2, 1, 3⟩)
  else if r.opc = 0xA1 ∨ r.opc = 0xA2 then
    (if 1 ≤ (r.imm &&& 0x1FFF).toNat ∧ (r.imm &&& 0x1FFF).toNat ≤ 4096 then none else some ⟨2, 1, 0xFF⟩)
  else if r.opc = 0x43 then
    (if 2 * r.sub.toNat < Raw.elemCount r.typ ∧ (r.typ ≠ 7 ∨ r.sub.toNat ≤ 3) then none else some ⟨1, 3, 0xFF⟩)
  else if r.opc = 0x08 then parkCheck r
  else none

/-- Checks 4 to 14 of R323 for a word of form `f` in a cohort with `n` registers. -/
def checkForm (n : Nat) (r : Raw) (f : Form) : Option BadWord :=
  check4 r f <|> checkOperands n r f <|> check9 r f <|> check10 r f
    <|> check11 r f <|> check12 r f <|> check13 r f <|> check14 r

end Sys2Proof
end

