-- ==== Sys2Proof/Machine/Encoding.lean ====
section
/-!
DEFINITION. Machine/Encoding.lean: the codes of an instruction word's fields and what they name, both ways, and the opcode of each
instruction (R13, R76, R314, R315, R318, R325).
-/

namespace Sys2Proof

/-- The 4-bit TYP code of a type (R318). -/
def Typ.code : Typ → BitVec 4
  | .u32 => 0 | .s32 => 1 | .f32 => 2 | .bf16 => 3 | .f16 => 4 | .e4m3 => 5 | .e5m2 => 6 | .e2m1 => 7
  | .s16x2 => 8 | .u16x2 => 9 | .s8x4 => 10 | .u8x4 => 11 | .mxe4m3 => 12 | .mxe5m2 => 13 | .mxe2m1 => 14 | .mxs8 => 15

/-- The type of a 4-bit TYP code (R318); all sixteen codes are assigned. -/
def Typ.ofCode (c : BitVec 4) : Typ :=
  match c.toNat with
  | 0 => .u32 | 1 => .s32 | 2 => .f32 | 3 => .bf16 | 4 => .f16 | 5 => .e4m3 | 6 => .e5m2 | 7 => .e2m1
  | 8 => .s16x2 | 9 => .u16x2 | 10 => .s8x4 | 11 => .u8x4 | 12 => .mxe4m3 | 13 => .mxe5m2 | 14 => .mxe2m1 | _ => .mxs8

/-- The RND code of a rounding (R76). -/
def Rnd.code : Rnd → BitVec 3
  | .rne => 0 | .rz => 1 | .rd => 2 | .ru => 3 | .rna => 4 | .sr => 5

/-- The rounding of an RND code (R76). Codes 6 and 7 are refused by check 11 before this is read. -/
def Rnd.ofCode (c : BitVec 3) : Rnd :=
  match c.toNat with
  | 0 => .rne | 1 => .rz | 2 => .rd | 3 => .ru | 4 => .rna | _ => .sr

/-- The SCP code of a scope (R13, R314). -/
def Scope.code : Scope → BitVec 3
  | .wg => 0 | .core => 1 | .quad => 2 | .die => 3 | .pkg => 4 | .pod => 5

/-- The scope of an SCP code. Codes 6 and 7 are refused by check 12 before this is read. -/
def Scope.ofCode (c : BitVec 3) : Scope :=
  match c.toNat with
  | 0 => .wg | 1 => .core | 2 => .quad | 3 => .die | 4 => .pkg | _ => .pod

/-- The ORD code of an order (R314). -/
def MemOrd.code : MemOrd → BitVec 2
  | .relaxed => 0 | .acquire => 1 | .release => 2 | .acqRel => 3

/-- The order of an ORD code (R314). -/
def MemOrd.ofCode (c : BitVec 2) : MemOrd :=
  match c.toNat with
  | 0 => .relaxed | 1 => .acquire | 2 => .release | _ => .acqRel

/-- The 16 bits of an operand field: class in [15:13], index in [12:0] (R315). -/
def Opnd.bits : Opnd → BitVec 16
  | .v i => 0#8 ++ i
  | .p i => 0x400#13 ++ i
  | .t i => 0x400#12 ++ i
  | .s i => 0x30#7 ++ i
  | .imm d => 0b100#3 ++ d
  | .imm32 => 0xA000
  | .pair i => 0xC0#8 ++ i
  | .none => 0xE000

/-- The operand that 16 bits name (R315). Unused index bits are refused by check 9 before this is read. -/
def Opnd.ofBits (b : BitVec 16) : Opnd :=
  match (b >>> 13).toNat with
  | 0 => .v (b.setWidth 8)
  | 1 => .p (b.setWidth 3)
  | 2 => .t (b.setWidth 4)
  | 3 => .s (b.setWidth 9)
  | 4 => .imm (b.setWidth 13)
  | 5 => .imm32
  | 6 => .pair (b.setWidth 8)
  | _ => .none

/-- A guard's four bits: negate above the predicate (R314). -/
def Guard.bits (g : Guard) : BitVec 4 := BitVec.ofBool g.neg ++ g.pred

/-- The guard of four bits (R314). -/
def Guard.ofBits (b : BitVec 4) : Guard := ⟨b.getLsbD 3, b.setWidth 3⟩

/-- The raw word of an opcode and its fields (R314). -/
def Fields.raw (opc : BitVec 8) (f : Fields) : Raw :=
  { opc := opc, sub := f.sub, typ := f.typ.code, rnd := f.rnd.code, sat := BitVec.ofBool f.sat,
    ga := f.ga.bits, gb := f.gb.bits, gc := BitVec.ofBool f.gc, res0 := 0,
    od := f.od.bits, oa := f.oa.bits, ob := f.ob.bits, oc := f.oc.bits, oe := f.oe.bits,
    hint := f.hint, la := f.la, ru := BitVec.ofBool f.ru, yl := BitVec.ofBool f.yl,
    scp := f.scp.code, ord := f.ord.code, res3 := 0, imm := f.imm }

/-- The fields of a raw word that has passed the checks (R314). -/
def Raw.fields (r : Raw) : Fields :=
  { sub := r.sub, typ := Typ.ofCode r.typ, rnd := Rnd.ofCode r.rnd, sat := r.sat.getLsbD 0,
    ga := Guard.ofBits r.ga, gb := Guard.ofBits r.gb, gc := r.gc.getLsbD 0,
    od := Opnd.ofBits r.od, oa := Opnd.ofBits r.oa, ob := Opnd.ofBits r.ob, oc := Opnd.ofBits r.oc, oe := Opnd.ofBits r.oe,
    hint := r.hint, la := r.la, ru := r.ru.getLsbD 0, yl := r.yl.getLsbD 0,
    scp := Scope.ofCode r.scp, ord := MemOrd.ofCode r.ord, imm := r.imm }

/-- The opcode and the fields of an instruction; `none` for an event (R325). -/
def Instr.parts : Instr → Option (BitVec 8 × Fields)
  | .nop f => some (0x01, f) | .bra f => some (0x02, f) | .jmp f => some (0x03, f) | .jmpInd f => some (0x03, f)
  | .call f => some (0x04, f) | .callInd f => some (0x04, f) | .ret f => some (0x05, f) | .exit f => some (0x06, f)
  | .yield f => some (0x07, f) | .park f => some (0x08, f) | .gate f => some (0x09, f) | .lrel f => some (0x0A, f)
  | .assert f => some (0x0B, f) | .trap f => some (0x0C, f) | .bkpt f => some (0x0D, f) | .tret f => some (0x0E, f)
  | .iadd f => some (0x20, f) | .isub f => some (0x21, f) | .imul f => some (0x22, f) | .imulh f => some (0x23, f)
  | .imad f => some (0x24, f) | .iabs f => some (0x25, f) | .imin f => some (0x26, f) | .imax f => some (0x27, f)
  | .iaddmin f => some (0x28, f) | .icmp f => some (0x29, f) | .lea f => some (0x2A, f) | .idp2 f => some (0x2B, f)
  | .idp4 f => some (0x2C, f) | .shrrn f => some (0x2D, f)
  | .and f => some (0x30, f) | .or f => some (0x31, f) | .xor f => some (0x32, f) | .andn f => some (0x33, f)
  | .not f => some (0x34, f) | .shl f => some (0x35, f) | .shr f => some (0x36, f) | .shra f => some (0x37, f)
  | .bfx f => some (0x38, f) | .bfi f => some (0x39, f) | .popc f => some (0x3A, f) | .clz f => some (0x3B, f)
  | .brev f => some (0x3C, f)
  | .mov f => some (0x40, f) | .sel f => some (0x41, f) | .cvt f => some (0x42, f) | .cvtpk f => some (0x43, f)
  | .plop f => some (0x44, f)
  | .fadd f => some (0x50, f) | .fsub f => some (0x51, f) | .fmul f => some (0x52, f) | .ffma f => some (0x53, f)
  | .fmin f => some (0x54, f) | .fmax f => some (0x55, f) | .fcmp f => some (0x56, f) | .frnd f => some (0x57, f)
  | .fsfn f => some (0x58, f) | .xfma2 f => some (0x59, f)
  | .shfl f => some (0x70, f) | .slide f => some (0x71, f) | .swzx f => some (0x72, f) | .bcast f => some (0x73, f)
  | .vote f => some (0x74, f) | .redl f => some (0x75, f) | .scanl f => some (0x76, f) | .vshape f => some (0x78, f)
  | .vsqz f => some (0x79, f) | .vexp f => some (0x7A, f)
  | .ld f => some (0x80, f) | .st f => some (0x81, f) | .atom f => some (0x82, f) | .red f => some (0x83, f)
  | .pref f => some (0x84, f) | .pgreq f => some (0x85, f) | .pgreqSplit f => some (0x85, f) | .cctl f => some (0x86, f)
  | .fence f => some (0x87, f) | .tmark f => some (0x88, f) | .twin f => some (0x89, f)
  | .copy f => some (0xA0, f) | .gather f => some (0xA1, f) | .scatter f => some (0xA2, f) | .rcopy f => some (0xA3, f)
  | .coll f => some (0xA4, f) | .cwait f => some (0xA5, f) | .cwaitSplit f => some (0xA5, f)
  | .mma f => some (0xA8, f) | .mbatch f => some (0xA9, f) | .mwait f => some (0xAA, f) | .accalloc f => some (0xAB, f)
  | .accfree f => some (0xAC, f) | .epi f => some (0xAD, f) | .epiRec f => some (0xAD, f) | .btake f => some (0xAE, f)
  | .bpass f => some (0xAF, f)
  | .bar f => some (0xC0, f) | .barinit f => some (0xC1, f) | .arrive f => some (0xC2, f) | .bwait f => some (0xC3, f)
  | .rwr f => some (0xC4, f) | .rwrVec f => some (0xC4, f) | .awaitc f => some (0xC5, f) | .cfence f => some (0xC6, f)
  | .epapp f => some (0xD0, f) | .epend f => some (0xD1, f) | .rwdsend f => some (0xD2, f) | .lqtake f => some (0xD3, f)
  | .lqtakeSplit f => some (0xD3, f) | .lqtakeTry f => some (0xD3, f) | .lqdone f => some (0xD4, f)
  | .mfs f => some (0xE0, f) | .mts f => some (0xE1, f)
  | _ => none

end Sys2Proof
end

