-- ==== Sys2Proof/WellFormed.lean ====
section
/-!
DEFINITION. WellFormed.lean: which terms of `Instr` are instructions that a word can carry (R314 to R325).
The fields of an instruction are laid out as a raw word, and the row of the opcode map and the checks of R323 decide.
An event has no word (the table gives it none) and is well formed as it stands.
-/

namespace Sys2Proof

/-- Whether the fields under an opcode are a word of the row that builds `i`, in a cohort with `n` registers:
the row is assigned, it builds exactly `i`, and every check of R323 passes. -/
def wordOk (n : Nat) (opc : BitVec 8) (f : Fields) (i : Instr) : Bool :=
  match opRow? opc f.sub with
  | some row => decide (row.build f = i) && (checkForm n (f.raw opc) (row.form f.sub)).isNone
  | none => false

/-- An instruction is well formed when its word passes every check of R323 with all 256 registers present.
(A cohort with fewer registers checks its own bound at issue, R22, R322.) An event is well formed. -/
def Instr.wf (i : Instr) : Bool :=
  match i.parts with
  | some (opc, f) => wordOk 256 opc f i
  | none => true

end Sys2Proof
end

