-- ==== Sys2Proof/Decode.lean ====
section
/-!
DEFINITION. Decode.lean: the 160-bit word, its decoder in the order of R323, and the encoder.
-/

namespace Sys2Proof

/-- The word cut into the fields of R314. -/
def splitWord (w : IWord) : Raw :=
  { opc := w.extractLsb' 0 8, sub := w.extractLsb' 8 4, typ := w.extractLsb' 12 4, rnd := w.extractLsb' 16 3,
    sat := w.extractLsb' 19 1, ga := w.extractLsb' 20 4, gb := w.extractLsb' 24 4, gc := w.extractLsb' 28 1,
    res0 := w.extractLsb' 29 3, od := w.extractLsb' 32 16, oa := w.extractLsb' 48 16, ob := w.extractLsb' 64 16,
    oc := w.extractLsb' 80 16, oe := w.extractLsb' 96 16, hint := w.extractLsb' 112 4, la := w.extractLsb' 116 4,
    ru := w.extractLsb' 120 1, yl := w.extractLsb' 121 1, scp := w.extractLsb' 122 3, ord := w.extractLsb' 125 2,
    res3 := w.extractLsb' 127 1, imm := w.extractLsb' 128 32 }

/-- The word of a raw word's fields, highest field first (R314). -/
def joinWord (r : Raw) : IWord :=
  r.imm ++ r.res3 ++ r.ord ++ r.scp ++ r.yl ++ r.ru ++ r.la ++ r.hint ++ r.oe ++ r.oc ++ r.ob ++ r.oa ++ r.od
    ++ r.res0 ++ r.gc ++ r.gb ++ r.ga ++ r.sat ++ r.rnd ++ r.typ ++ r.sub ++ r.opc

/-- Whether an opcode is in the opcode map (R325). -/
def opcAssigned (opc : BitVec 8) : Bool := opMap.any fun r => r.opc == opc

/-- The decoder: the instruction a word names for a cohort with `n` registers, or the first failing check (R323). -/
def decodeFor (n : Nat) (w : IWord) : Except BadWord Instr :=
  if w = 0 then .error ⟨1, 1, 0xFF⟩
  else
    let r := splitWord w
    match opRow? r.opc r.sub with
    | none => if opcAssigned r.opc then .error ⟨1, 3, 0xFF⟩ else .error ⟨1, 2, 0xFF⟩
    | some row =>
      match checkForm n r (row.form r.sub) with
      | some b => .error b
      | none => .ok (row.build r.fields)

/-- The decoder with all 256 registers present. -/
def decode (w : IWord) : Except BadWord Instr := decodeFor 256 w

/-- The word of an instruction; `none` for an event, which has no word. -/
def encode (i : Instr) : Option IWord := i.parts.map fun (opc, f) => joinWord (f.raw opc)

/-- Twenty bytes of code as a word: five little-endian parcels, W0 at the lowest address (R313).
A missing byte reads as zero. -/
def wordOfBytes (bs : List Byte) : IWord :=
  BitVec.ofNat 160 ((bs.take 20).foldr (fun b acc => b.toNat + 256 * acc) 0)

/-- The `k` low bytes of a number, lowest first (R1). -/
def leBytes (k : Nat) (v : Nat) : List Byte := (List.range k).map fun i => BitVec.ofNat 8 (v / 256 ^ i)

/-- The code bytes of a word (R313). -/
def bytesOfWord (w : IWord) : List Byte := leBytes 20 w.toNat

/-- The instruction the decoder reads from a word numbered as the table numbers it: bit 0 is the lowest bit of W0. -/
def decodeTableWord (_nbits w : Nat) : Option Instr :=
  match decode (wordOfBytes (leBytes 20 w)) with
  | .ok i => some i
  | .error _ => none

end Sys2Proof
end

