-- ==== Sys2Proof/Config.lean ====
section
/-!
DEFINITION. Config.lean: what the manual leaves to the implementation, and the free values.
A free value is an opaque constant with no body: no proof can learn it, so a theorem that mentions it holds whatever it is.
-/

namespace Sys2Proof.Config

/-- FREE VALUE (log entry 5): which result FSFN function `fn` delivers for operand `x` among those that the
bound of R91 allows. R91 gives the bound and not the value. -/
opaque fsfnChoice : BitVec 4 → Word → Nat

/-- FREE VALUE (log entry 22): the digest of the signed manifest, and the minimum version that is fused (R304, R307). -/
opaque manifestDigest : DWord
opaque fusedVersion : DWord

/-- FREE VALUE (log entry 22): the measurement that SPDM reports for block `k`, from the manifest's digest, the fused version and the fence
record, as units and their states (R307 names what is measured, not its block or digest). -/
opaque spdmDigest : Nat → DWord → DWord → List (Nat × Nat) → DWord

/-- FREE VALUE (log entry 92): sensor `k` as the telemetry report of cycle `n` reads it: power, inlet and outlet temperature, and the hottest die
junction (R311). -/
opaque telemetry : Nat → Nat → Nat

/-- FREE VALUE (log entry 15): the two LGSZ bits of a fault record or detail (R232, R234) for an access of 2^n bytes that
they cannot count, n > 3: a barrier object, a tensor record or a launch block. -/
opaque wideLgsz : Nat → BitVec 2

/-- FREE VALUE (log entry 19): how far chunk `c` of collective `k` has come when it aborts, or when a `.rscat` leaves it: 0 original,
1 partial, 2 final (R185, R187). -/
opaque collReach : Nat → Nat → BitVec 2

/-- FREE VALUE (log entry 19): which of the prefixes of its fold order that R186 allows the partial chunk `c` of collective `k` holds. -/
opaque collPrefix : Nat → Nat → Nat

/-- FREE VALUE (log entry 19): byte `i` of the window of position `p` of collective `k`, where that lies on another package and the
collective aborts before it has come here (R187). -/
opaque collPeer : Nat → Nat → Nat → BitVec 8

/-- FREE VALUE (log entry 23): the pod in which the package with a fabric address lies. R261 chooses spares by POD, and the heartbeat of a
spare does not carry it (R250). -/
opaque podOf : BitVec 20 → BitVec 4

/-- FREE VALUE (log entry 20): H of a port, the flits in flight in one round trip that its receiver measures at link training, at most 192
(R191). -/
opaque roundTrip : Nat → Fin 193

/-- The number of words an instruction buffer keeps; R324 gives no size (DESIGN CHOICE, log entry 8). -/
def ibufWords : Nat := 64

end Sys2Proof.Config
end

