-- ==== Sys2Proof/Machine/Num.lean ====
section
/-!
DEFINITION. Machine/Num.lean: the exact arithmetic of chapter 04. Integer elements and their ranges (R71, R72), the
floating-point formats (R73, R74), rounding once from an exact value (R76 to R80), the flags a rounding raises (R81),
the stochastic generator (R83, R84), the special functions within their bounds (R91, R92) and microscaling (R93, R94).
-/

namespace Sys2Proof.Machine

/-! ### $VSTAT flags (R54) -/

/-- SAT -/ def flagSAT : BitVec 6 := 0x01
/-- NV -/ def flagNV : BitVec 6 := 0x02
/-- DZ -/ def flagDZ : BitVec 6 := 0x04
/-- OF -/ def flagOF : BitVec 6 := 0x08
/-- UF -/ def flagUF : BitVec 6 := 0x10
/-- NX -/ def flagNX : BitVec 6 := 0x20

/-! ### Elements of a word (R71, R74) -/

/-- Bits of one element of a type; an MX type counts as its element (R71, R74, R93). -/
def elemBits : Typ → Nat
  | .u32 | .s32 | .f32 => 32
  | .bf16 | .f16 | .s16x2 | .u16x2 => 16
  | .e4m3 | .e5m2 | .s8x4 | .u8x4 | .mxe4m3 | .mxe5m2 | .mxs8 => 8
  | .e2m1 | .mxe2m1 => 4

/-- Elements of a type in one 32-bit word. -/
def elemsPerWord (t : Typ) : Nat := 32 / elemBits t

/-- Element `i` of `b`-bit elements of a number. -/
def elemAt (b : Nat) (x : Nat) (i : Nat) : Nat := x / 2 ^ (b * i) % 2 ^ b

/-- The word whose `b`-bit elements are the given ones, element 0 lowest. -/
def packElems (b : Nat) (es : List Nat) : Word :=
  BitVec.ofNat 32 (es.foldr (fun e acc => e % 2 ^ b + 2 ^ b * acc) 0)

/-- The elements of a word under a type. -/
def elemsOf (t : Typ) (x : Word) : List Nat := (List.range (elemsPerWord t)).map (elemAt (elemBits t) x.toNat)

/-- A `b`-bit number read as two's complement. -/
def signedOf (b : Nat) (x : Nat) : Int := if x % 2 ^ b < 2 ^ (b - 1) then ((x % 2 ^ b : Nat) : Int) else ((x % 2 ^ b : Nat) : Int) - ((2 ^ b : Nat) : Int)

/-- Whether an integer type is signed (R71). -/
def typSigned : Typ → Bool
  | .s32 | .s16x2 | .s8x4 | .mxs8 => true
  | _ => false

/-- Whether a type is one of the six integer types (R71). -/
def typInteger : Typ → Bool
  | .u32 | .s32 | .s16x2 | .u16x2 | .s8x4 | .u8x4 => true
  | _ => false

/-- The exact value of an integer element (R71). -/
def intVal (t : Typ) (x : Nat) : Int := if typSigned t then signedOf (elemBits t) x else ((x % 2 ^ elemBits t : Nat) : Int)

/-- The least value of an integer type's element (R71). -/
def intMin (t : Typ) : Int := if typSigned t then -((2 ^ (elemBits t - 1) : Nat) : Int) else 0

/-- The greatest value of an integer type's element (R71). -/
def intMax (t : Typ) : Int := if typSigned t then ((2 ^ (elemBits t - 1) : Nat) : Int) - 1 else ((2 ^ elemBits t : Nat) : Int) - 1

/-- An integer modulo 2^b, as an unsigned number. -/
def wrapInt (b : Nat) (v : Int) : Nat := (v % ((2 ^ b : Nat) : Int)).toNat

/-- An integer result narrowed to its element: wrapped, or clamped with SAT set (R72). -/
def iclamp (t : Typ) (sat : Bool) (v : Int) : Nat × BitVec 6 :=
  if sat then
    if v < intMin t then (wrapInt (elemBits t) (intMin t), flagSAT)
    else if intMax t < v then (wrapInt (elemBits t) (intMax t), flagSAT)
    else (wrapInt (elemBits t) v, 0)
  else (wrapInt (elemBits t) v, 0)

/-- A 64-bit integer result under `.w64`, wrapped or clamped to U64 or S64 (R72). -/
def iclamp64 (signed sat : Bool) (v : Int) : DWord × BitVec 6 :=
  let lo : Int := if signed then -(2 ^ 63) else 0
  let hi : Int := if signed then 2 ^ 63 - 1 else 2 ^ 64 - 1
  if sat ∧ v < lo then (BitVec.ofInt 64 lo, flagSAT)
  else if sat ∧ hi < v then (BitVec.ofInt 64 hi, flagSAT)
  else (BitVec.ofInt 64 v, 0)

/-! ### Floating-point formats (R73) -/

/-- A floating-point format: exponent bits, mantissa bits, bias, whether the top exponent holds infinity and NaN, and
whether the all-ones pattern alone is NaN. -/
structure Fmt where
  ew   : Nat
  mw   : Nat
  bias : Nat
  ieee : Bool
  nan1 : Bool
deriving DecidableEq, Repr

/-- The format of a floating-point element (R73); an MX type has its element's format (R93). -/
def fmtOf : Typ → Fmt
  | .bf16 => ⟨8, 7, 127, true, false⟩
  | .f16 => ⟨5, 10, 15, true, false⟩
  | .e5m2 | .mxe5m2 => ⟨5, 2, 15, true, false⟩
  | .e4m3 | .mxe4m3 => ⟨4, 3, 7, false, true⟩
  | .e2m1 | .mxe2m1 => ⟨2, 1, 1, false, false⟩
  | _ => ⟨8, 23, 127, true, false⟩

/-- The exact value of an element: NaN, an infinity, or a sign with `mag × 2^e` (a zero keeps its sign). -/
inductive FVal where
  | nan
  | inf (neg : Bool)
  | fin (neg : Bool) (mag : Nat) (e : Int)
deriving DecidableEq, Repr

/-- The exponent of the least significant bit of a subnormal of the format. -/
def Fmt.qmin (f : Fmt) : Int := 1 - (f.bias : Int) - (f.mw : Int)

/-- The bits of the greatest finite magnitude (R73). -/
def Fmt.maxBits (f : Fmt) : Nat :=
  if f.ieee then (2 ^ f.ew - 1) * 2 ^ f.mw - 1 else if f.nan1 then 2 ^ (f.ew + f.mw) - 2 else 2 ^ (f.ew + f.mw) - 1

/-- The bits of the NaN that is written, sign 0 (R73, R75). E2M1 has none, and +0 stands there (R77). -/
def Fmt.nanBits (f : Fmt) : Nat :=
  if f.ieee then (2 ^ f.ew - 1) * 2 ^ f.mw + 2 ^ (f.mw - 1) else if f.nan1 then 2 ^ (f.ew + f.mw) - 1 else 0

/-- The bits of infinity of a format that has one. -/
def Fmt.infBits (f : Fmt) : Nat := (2 ^ f.ew - 1) * 2 ^ f.mw

/-- The sign bit of a format. -/
def Fmt.signBit (f : Fmt) (neg : Bool) : Nat := if neg then 2 ^ (f.ew + f.mw) else 0

/-- The exact value of an element's bits (R73). Every NaN is one NaN (R75). -/
def fpVal (f : Fmt) (bits : Nat) : FVal :=
  let s := bits / 2 ^ (f.ew + f.mw) % 2 = 1
  let ef := bits / 2 ^ f.mw % 2 ^ f.ew
  let mf := bits % 2 ^ f.mw
  if f.ieee ∧ ef = 2 ^ f.ew - 1 then (if mf = 0 then .inf s else .nan)
  else if f.nan1 ∧ ef = 2 ^ f.ew - 1 ∧ mf = 2 ^ f.mw - 1 then .nan
  else if ef = 0 then .fin s mf f.qmin
  else .fin s (2 ^ f.mw + mf) (f.qmin + (ef : Int) - 1)

/-- The bits of `n × 2^q` where `n < 2^(mw+1)` and `q` is the quantum of its binade, or `n = 2^(mw+1)`. -/
def Fmt.magBits (f : Fmt) (n : Nat) (q : Int) : Nat :=
  if n < 2 ^ f.mw then n else n - 2 ^ f.mw + 2 ^ f.mw * ((q - f.qmin).toNat + 1)

/-! ### Rounding (R76, R84) -/

/-- Whether a remainder `rem` of `2^d` is rounded away from zero, for a kept magnitude `n`, and under `.sr` the draw `u`. -/
def roundUp (rnd : Rnd) (u : Word) (neg : Bool) (n rem d : Nat) : Bool :=
  match rnd with
  | .rne => 2 ^ d < 2 * rem || (2 * rem == 2 ^ d && n % 2 == 1)
  | .rz  => false
  | .rd  => neg && rem != 0
  | .ru  => !neg && rem != 0
  | .rna => 2 ^ d ≤ 2 * rem && rem != 0
  | .sr  => u.toNat < rem * 2 ^ 32 / 2 ^ d

/-- `mag × 2^e` at quantum `2^q`: the rounded count of quanta, and whether the value changed. -/
def roundAt (rnd : Rnd) (u : Word) (neg : Bool) (mag : Nat) (e q : Int) : Nat × Bool :=
  if q ≤ e then (mag * 2 ^ (e - q).toNat, false)
  else
    let d := (q - e).toNat
    let n := mag / 2 ^ d
    let rem := mag % 2 ^ d
    (if roundUp rnd u neg n rem d then n + 1 else n, rem != 0)

/-- Floor of log2 of `mag × 2^e`, `mag ≠ 0`. -/
def log2Floor (mag : Nat) (e : Int) : Int := (Nat.log2 mag : Int) + e

/-- Whether `n × 2^q` is greater than `m × 2^p`. -/
def dyadicLt (m : Nat) (p : Int) (n : Nat) (q : Int) : Bool :=
  if q ≤ p then m * 2 ^ (p - q).toNat < n else m < n * 2 ^ (q - p).toNat

/-- What a finite overflow delivers (R77): whether the greatest finite value stands in for infinity. -/
def overflowToMax (f : Fmt) (rnd : Rnd) (neg sat : Bool) : Bool :=
  sat || (!f.ieee && !f.nan1) || (match rnd with
    | .rz => true
    | .rd => !neg
    | .ru => neg
    | _ => false)

/-- A non-zero finite value rounded once to a format, with its flags (R76 to R81). -/
def roundFin (f : Fmt) (rnd : Rnd) (sat : Bool) (u : Word) (neg : Bool) (mag : Nat) (e : Int) : Nat × BitVec 6 :=
  let top := log2Floor mag e
  let qu := top - (f.mw : Int)
  let q := if qu < f.qmin then f.qmin else qu
  let (n, inexact) := roundAt rnd u neg mag e q
  let maxN := fpVal f f.maxBits
  let beyond := match maxN with
    | .fin _ m p => dyadicLt m p n q
    | _ => false
  if beyond then
    let flags := (if sat then flagSAT else flagOF) ||| flagNX
    if overflowToMax f rnd neg sat then (f.signBit neg + f.maxBits, flags)
    else if f.ieee then (f.signBit neg + f.infBits, flags)
    else (f.nanBits, flags)
  else
    let (nu, _) := roundAt rnd u neg mag e qu
    let tiny := dyadicLt nu qu 1 (1 - (f.bias : Int))
    let flags := (if inexact then flagNX else 0) ||| (if inexact && tiny then flagUF else 0)
    (f.signBit neg + f.magBits n q, flags)

/-- An exact value as the result of an arithmetic instruction: infinities and NaN pass, a zero keeps its sign, and a finite
value rounds once (R75 to R81). -/
def roundArith (f : Fmt) (rnd : Rnd) (u : Word) (v : FVal) : Nat × BitVec 6 :=
  match v with
  | .nan => (f.nanBits, 0)
  | .inf neg => (f.signBit neg + f.infBits, 0)
  | .fin neg mag e => if mag = 0 then (f.signBit neg, 0) else roundFin f rnd false u neg mag e

/-- An exact value converted to a format, with the infinity and NaN columns of R77. `widens` says that the conversion is
into the same or a wider type, where an infinity passes unchanged (R77, R79). -/
def roundConv (f : Fmt) (rnd : Rnd) (sat widens : Bool) (u : Word) (v : FVal) : Nat × BitVec 6 :=
  match v with
  | .nan => (f.nanBits, if f.ieee || f.nan1 then 0 else flagNV)
  | .inf neg =>
    if widens && f.ieee then (f.signBit neg + f.infBits, 0)
    else if !f.ieee && !f.nan1 then (f.signBit neg + f.maxBits, if sat then flagSAT else flagOF)
    else if sat then (f.signBit neg + f.maxBits, if f.ieee || f.nan1 then flagSAT ||| flagNX else flagSAT)
    else if f.ieee then (f.signBit neg + f.infBits, 0)
    else (f.nanBits, 0)
  | .fin neg mag e => if mag = 0 then (f.signBit neg, 0) else roundFin f rnd sat u neg mag e

/-- An exact finite value rounded by RND to an integer. -/
def roundInt (rnd : Rnd) (neg : Bool) (mag : Nat) (e : Int) : Int × Bool :=
  let (n, inexact) := roundAt rnd 0 neg mag e 0
  (if neg then -(n : Int) else (n : Int), inexact)

/-! ### Exact sums and products -/

/-- The signed mantissa of a finite value. -/
def FVal.signed : Bool → Nat → Int
  | neg, mag => if neg then -(mag : Int) else (mag : Int)

/-- The exact sum of two finite dyadics as (mantissa, exponent). -/
def dyAdd (m : Int) (e : Int) (n : Int) (k : Int) : Int × Int :=
  if e ≤ k then (m + n * 2 ^ (k - e).toNat, e) else (m * 2 ^ (e - k).toNat + n, k)

/-- The sum of two values with its invalid flag; a zero sum takes its sign by R80. -/
def fpAdd (rnd : Rnd) (a b : FVal) : FVal × BitVec 6 :=
  match a, b with
  | .nan, _ => (.nan, 0)
  | _, .nan => (.nan, 0)
  | .inf s, .inf t => if s = t then (.inf s, 0) else (.nan, flagNV)
  | .inf s, _ => (.inf s, 0)
  | _, .inf t => (.inf t, 0)
  | .fin s m e, .fin t n k =>
    let (r, x) := dyAdd (FVal.signed s m) e (FVal.signed t n) k
    if r = 0 then
      let neg := if m = 0 ∧ n = 0 ∧ s = t then s else rnd == .rd
      (.fin neg 0 0, 0)
    else (.fin (r < 0) r.natAbs x, 0)

/-- The product of two values with its invalid flag (R80, R81). -/
def fpMul (a b : FVal) : FVal × BitVec 6 :=
  match a, b with
  | .nan, _ => (.nan, 0)
  | _, .nan => (.nan, 0)
  | .inf s, .inf t => (.inf (s != t), 0)
  | .inf s, .fin t n _ => if n = 0 then (.nan, flagNV) else (.inf (s != t), 0)
  | .fin s m _, .inf t => if m = 0 then (.nan, flagNV) else (.inf (s != t), 0)
  | .fin s m e, .fin t n k => (.fin (s != t) (m * n) (e + k), 0)

/-- Whether a value is NaN. -/
def FVal.isNan : FVal → Bool
  | .nan => true
  | _ => false

/-- The negation of a value; NaN stays NaN. -/
def FVal.negate : FVal → FVal
  | .nan => .nan
  | .inf s => .inf (!s)
  | .fin s m e => .fin (!s) m e

/-- Sum of exact products and an addend, rounded once by the caller: products first, then the addend. A NaN operand
delivers NaN without NV (R81). -/
def fpFma (rnd : Rnd) (prods : List (FVal × FVal)) (c : FVal) : FVal × BitVec 6 :=
  if c.isNan || prods.any (fun p => p.1.isNan || p.2.isNan) then (.nan, 0)
  else
    let ps := prods.map fun p => fpMul p.1 p.2
    if ps.any (fun p => p.2 != 0) then (.nan, flagNV)
    else ps.foldl (fun acc p => match fpAdd rnd acc.1 p.1 with
      | (v, fl) => (v, acc.2 ||| fl)) (c, 0)

/-- The order of two values that are not NaN: negative, zero or positive as the first is less, equal or greater. -/
def fpCmp (a b : FVal) : Int :=
  match a, b with
  | .inf s, .inf t => if s = t then 0 else if s then -1 else 1
  | .inf s, _ => if s then -1 else 1
  | _, .inf t => if t then 1 else -1
  | .fin s m e, .fin t n k =>
    let (r, _) := dyAdd (FVal.signed s m) e (-(FVal.signed t n)) k
    r
  | _, _ => 0

/-! ### The stochastic generator (R83) -/

/-- One step of the xorshift generator. -/
def srStep (x0 : DWord) : DWord :=
  let x := if x0 = 0 then 1 else x0
  let x := x ^^^ (x <<< 13)
  let x := x ^^^ (x >>> 7)
  x ^^^ (x <<< 17)

/-- The draws of lanes 0 to k−1 and the state after them. -/
def srDraws : Nat → DWord → List Word × DWord
  | 0, x => ([], x)
  | k + 1, x =>
    let y := srStep x
    let (us, z) := srDraws k y
    (DWord.hi y :: us, z)

/-! ### Special functions (R91, R92). A result is a free choice among the F32 values within the bound (log entry 5). -/

/-- The F32 format. -/
def f32 : Fmt := fmtOf .f32

/-- An enclosure of an exact real result: between `lo × 2^e` and `hi × 2^e`. -/
structure Enclosure where
  lo : Int
  hi : Int
  e  : Int
deriving DecidableEq, Repr

/-- The bits of a magnitude rounded to F32 toward zero, or away from zero, held at the greatest finite value. -/
def f32MagBits (up : Bool) (mag : Nat) (e : Int) : Nat :=
  if mag = 0 then 0 else
  let b := (roundFin f32 (if up then .ru else .rd) false 0 false mag e).1
  if f32.maxBits < b then f32.maxBits else b

/-- The place in the order of F32 values: bits for a positive value, −1 − bits of the magnitude for a negative one. -/
def f32OrdFloor (m e : Int) : Int := if 0 ≤ m then (f32MagBits false m.natAbs e : Int) else -1 - (f32MagBits true m.natAbs e : Int)

/-- The least place whose value is at least `m × 2^e`. -/
def f32OrdCeil (m e : Int) : Int := if 0 ≤ m then (f32MagBits true m.natAbs e : Int) else -1 - (f32MagBits false m.natAbs e : Int)

/-- The F32 bits at a place of the order. -/
def f32OfOrd (o : Int) : Word := if 0 ≤ o then BitVec.ofNat 32 o.toNat else BitVec.ofNat 32 (2 ^ 31 + (-1 - o).toNat)

/-- The values that lie within `k × 2^u` of every value of an enclosure. -/
def Enclosure.within (v : Enclosure) (k : Int) (u : Int) : Enclosure :=
  if v.e ≤ u then { v with lo := v.hi - k * 2 ^ (u - v.e).toNat, hi := v.lo + k * 2 ^ (u - v.e).toNat }
  else { lo := v.hi * 2 ^ (v.e - u).toNat - k, hi := v.lo * 2 ^ (v.e - u).toNat + k, e := u }

/-- The enclosure cut to −1 to 1. -/
def Enclosure.unit (v : Enclosure) : Enclosure :=
  if v.e ≤ 0 then
    let one : Int := 2 ^ (-v.e).toNat
    { v with lo := max v.lo (-one), hi := min v.hi one }
  else v

/-- The exponent of the F32 spacing at the magnitude of the enclosure's lower end. -/
def Enclosure.ulpExp (v : Enclosure) : Int :=
  let t := log2Floor v.lo.natAbs v.e - 23
  if v.lo = 0 ∨ t < -149 then -149 else t

/-- FREE VALUE: one of the F32 values in a range (log entry 5), with its flags. One below 2^-149 is a zero of the exact value's sign `neg`, with UF
(R92). -/
def pickF32 (fn : BitVec 4) (x : Word) (neg : Bool) (v : Enclosure) : Word × BitVec 6 :=
  let lo := f32OrdCeil v.lo v.e
  let hi := f32OrdFloor v.hi v.e
  let r := f32OfOrd (lo + ((Config.fsfnChoice fn x : Int) % (hi - lo + 1)))
  if r <<< 1 = 0 then (if neg then 0x80000000 else 0, flagUF) else (r, 0)

/-- The working scale of the series below: values are integers over 2^192. -/
def fixBits : Nat := 192

/-- A Taylor sum: terms `t` from index `k`, each the last times `z` over the next indexes, with `fuel` terms. `step` is the
number of factors per term and `alt` alternates signs. -/
def taylor (z : Int) (alt : Bool) (step : Nat) : Nat → Nat → Int → Int → Int
  | 0, _, _, acc => acc
  | fuel + 1, k, t, acc =>
    let den : Int := if step = 2 then ((k + 1) * (k + 2) : Nat) else ((k + 1 : Nat) : Int)
    let t' := (if alt then -(t * z) else t * z) / (2 ^ fixBits * den)
    taylor z alt step fuel (k + step) t' (acc + t')

/-- e^z for fixed-point z, 0 ≤ z < 32. -/
def expFix (z : Int) : Int := taylor z false 1 160 0 (2 ^ fixBits) (2 ^ fixBits)

/-- ln 2 × 2^192, rounded down. -/
def ln2Fix : Int := 4350955369971217654477563090224794165364344896676135745069

/-- 2π × 2^400, rounded down. -/
def twoPiBig : Int := 16224754493461942477724542702601789038322303200358530407182382075230461810747980997491046721853633630855133559454655152472

/-- sin and cos of a fixed-point angle, 0 ≤ z < 7. -/
def sinFix (z : Int) : Int := taylor (z * z / 2 ^ fixBits) true 2 60 1 z z

/-- The cosine. -/
def cosFix (z : Int) : Int := taylor (z * z / 2 ^ fixBits) true 2 60 0 (2 ^ fixBits) (2 ^ fixBits)

/-- Fixed-point of `m × 2^e`, rounded down. -/
def toFix (m : Int) (e : Int) : Int :=
  let k := (fixBits : Int) + e
  if 0 ≤ k then m * 2 ^ k.toNat else m / 2 ^ (-k).toNat

/-- A finite angle reduced modulo 2π, as fixed-point in 0 to 2π. -/
def reduceAngle (m : Int) (e : Int) : Int :=
  let big := if 0 ≤ (400 : Int) + e then m * 2 ^ ((400 : Int) + e).toNat else m / 2 ^ (-((400 : Int) + e)).toNat
  (big % twoPiBig) / 2 ^ 208

/-- The fractional bits of log2 of a fixed-point number in 1 to 2, `fuel` of them, as a count of 2^−fuel. -/
def log2Bits : Nat → Int → Int → Int
  | 0, _, acc => acc
  | fuel + 1, y, acc =>
    let sq := y * y / 2 ^ fixBits
    if 2 * 2 ^ fixBits ≤ sq then log2Bits fuel (sq / 2) (2 * acc + 1) else log2Bits fuel sq (2 * acc)

/-- An enclosure around a fixed-point value with the series' error. -/
def aroundFix (v : Int) : Enclosure := { lo := v - 2 ^ 60, hi := v + 2 ^ 60, e := -(fixBits : Int) }

/-- 1 / (mag × 2^e): exact where it is a power of two, else enclosed to 2^−200 of itself. -/
def rcpEncl (mag : Nat) (e : Int) : Enclosure :=
  let k := Nat.log2 mag + 220
  let q : Int := ((2 ^ k / mag : Nat) : Int)
  { lo := q, hi := if 2 ^ k % mag = 0 then q else q + 1, e := -e - (k : Int) }

/-- The square root of mag × 2^e, e made even, enclosed. -/
def sqrtEncl (mag : Nat) (e : Int) : Enclosure :=
  let (m, x) := if e % 2 = 0 then (mag, e) else (2 * mag, e - 1)
  let big := m * 4 ^ 200
  let r := Nat.sqrt big
  { lo := r, hi := if r * r = big then r else r + 1, e := x / 2 - 200 }

/-- The sign applied to F32 bits. -/
def withSign (neg : Bool) (x : Word) : Word := if neg then x ||| 0x80000000 else x

/-- Flagged F32 bits with a sign applied. -/
def signed (neg : Bool) (r : Word × BitVec 6) : Word × BitVec 6 := (withSign neg r.1, r.2)

/-- An enclosure of 2^x for x = `sm × 2^e`, not an integer. Near 0, 2^x lies between 1 and 1 + x. -/
def exp2Encl (sm : Int) (e : Int) : Enclosure :=
  if log2Floor sm.natAbs e < -30 then
    let one : Int := 2 ^ (-e).toNat
    { lo := min one (one + sm), hi := max one (one + sm), e := e }
  else
    let fx := toFix sm e
    let v := aroundFix (expFix (fx % 2 ^ fixBits * ln2Fix / 2 ^ fixBits))
    { v with e := v.e + fx / 2 ^ fixBits }

/-- An enclosure of log2 of `mag × 2^e`, not a power of two. -/
def log2Encl (mag : Nat) (e : Int) : Enclosure :=
  let n := log2Floor mag e
  let fr := log2Bits 120 (toFix mag (-(Nat.log2 mag : Int))) 0
  { lo := n * 2 ^ 120 + fr - 4, hi := n * 2 ^ 120 + fr + 5, e := -120 }

/-- An enclosure of tanh of a positive number. Below 2^-14 it lies between x − x³/3 and x. -/
def tanhEncl (mag : Nat) (e : Int) : Enclosure :=
  let t := log2Floor mag e
  if t < -14 then
    { lo := ((mag * 2 ^ 40 - (if t < -40 then 1 else mag * 2 ^ 40 / 2 ^ 28) : Nat) : Int), hi := ((mag * 2 ^ 40 : Nat) : Int), e := e - 40 }
  else if 4 ≤ t then { lo := 2 ^ 60 - 2 ^ 24, hi := 2 ^ 60, e := -60 }
  else
    let ex := expFix (2 * toFix mag e)
    aroundFix ((ex - 2 ^ fixBits) * 2 ^ fixBits / (ex + 2 ^ fixBits))

/-- FSFN of a finite non-zero argument, function by SUB (R91, R92, R325). sin and tanh of ±2^-149 lie below 2^-149. -/
def fsfnFinite (fn : BitVec 4) (x : Word) (neg : Bool) (mag : Nat) (e : Int) : Word × BitVec 6 :=
  let sm := FVal.signed neg mag
  let angle (v : Enclosure) : Word × BitVec 6 := pickF32 fn x (v.hi ≤ 0 || (v.lo < 0 && neg)) (v.within 1 (-21)).unit
  match fn.toNat with
  | 0 =>
    let v := rcpEncl mag e
    if 128 ≤ log2Floor v.lo.natAbs v.e then (withSign neg 0x7F800000, flagOF)
    else signed neg (pickF32 fn x false (v.within 1 v.ulpExp))
  | 1 =>
    if neg then (0x7FC00000, flagNV)
    else
      let r := sqrtEncl mag e
      let k := Nat.log2 r.lo.natAbs + 220
      let v : Enclosure := { lo := ((2 ^ k / r.hi.natAbs : Nat) : Int),
                             hi := (((2 ^ k + r.lo.natAbs - 1) / r.lo.natAbs : Nat) : Int), e := -r.e - (k : Int) }
      pickF32 fn x false (v.within 1 v.ulpExp)
  | 2 =>
    if neg then (0x7FC00000, flagNV)
    else
      let r := sqrtEncl mag e
      -- the sticky half-quantum keeps a single correct rounding
      let m := 2 * r.lo.natAbs + (if r.lo = r.hi then 0 else 1)
      (BitVec.ofNat 32 (roundFin f32 .rne false 0 false m (r.e - 1)).1, 0)
  | 3 =>
    if !neg && 7 ≤ log2Floor mag e then (0x7F800000, flagOF)
    else if neg && dyadicLt 149 0 mag e then (0, flagUF)
    else if 0 ≤ e ∨ (mag % 2 ^ (-e).toNat = 0) then (BitVec.ofNat 32 (roundFin f32 .rne false 0 false 1 (toFix sm e / 2 ^ fixBits)).1, 0)
    else
      let v := exp2Encl sm e
      pickF32 fn x false (v.within 2 v.ulpExp)
  | 4 =>
    if neg then (0x7FC00000, flagNV)
    else
      let n := log2Floor mag e
      if mag = 2 ^ Nat.log2 mag then
        (BitVec.ofNat 32 (if n = 0 then 0 else (roundFin f32 .rne false 0 (n < 0) n.natAbs 0).1), 0)
      else
        let v := log2Encl mag e
        let ulp := if n < 0 then ({ v with lo := -v.hi } : Enclosure).ulpExp else v.ulpExp
        pickF32 fn x (n < 0) (if n = 0 ∨ n = -1 then v.within 1 (-22) else v.within 2 ulp)
  | 5 => if x <<< 1 = 2 then (withSign neg 0, flagUF) else angle (aroundFix (sinFix (reduceAngle sm e)))
  | 6 => angle (aroundFix (cosFix (reduceAngle sm e)))
  | _ =>
    let v := tanhEncl mag e
    if x <<< 1 = 2 then (withSign neg 0, flagUF) else signed neg (pickF32 fn x false (v.within 2 v.ulpExp).unit)

/-- FSFN of one lane's F32 bits: the special results of R92 first. -/
def fsfn (fn : BitVec 4) (x : Word) : Word × BitVec 6 :=
  match fpVal f32 x.toNat with
  | .nan => (0x7FC00000, 0)
  | .inf neg =>
    match fn.toNat with
    | 0 => (withSign neg 0, 0)
    | 1 => if neg then (0x7FC00000, flagNV) else (0, 0)
    | 2 => if neg then (0x7FC00000, flagNV) else (0x7F800000, 0)
    | 3 => (if neg then 0 else 0x7F800000, 0)
    | 4 => if neg then (0x7FC00000, flagNV) else (0x7F800000, 0)
    | 5 => (0x7FC00000, flagNV)
    | 6 => (0x7FC00000, flagNV)
    | _ => (withSign neg 0x3F800000, 0)
  | .fin neg mag e =>
    if mag = 0 then
      match fn.toNat with
      | 0 => (withSign neg 0x7F800000, flagDZ)
      | 1 => (withSign neg 0x7F800000, flagDZ)
      | 2 => (withSign neg 0, 0)
      | 3 => (0x3F800000, 0)
      | 4 => (0xFF800000, flagDZ)
      | 5 => (withSign neg 0, 0)
      | 6 => (0x3F800000, 0)
      | _ => (withSign neg 0, 0)
    else fsfnFinite fn x neg mag e

/-! ### Microscaling (R93, R94) -/

/-- emax of an MX type (R93). -/
def mxEmax : Typ → Int
  | .mxe4m3 => 8 | .mxe5m2 => 15 | .mxe2m1 => 2 | _ => 0

/-- The value of element bits of an MX type before its scale (R93). -/
def mxElemVal (t : Typ) (bits : Nat) : FVal :=
  if t = .mxs8 then
    let v := signedOf 8 bits
    .fin (v < 0) v.natAbs (-6)
  else fpVal (fmtOf t) bits

/-- One element of a block at scale `2^X`, rounded and clamped (R94). -/
def mxRoundElem (t : Typ) (rnd : Rnd) (x : FVal) (sc : Int) : Nat :=
  match x with
  | .fin neg mag e =>
    if t = .mxs8 then
      let (v, _) := roundInt rnd neg mag (e - sc + 6)
      wrapInt 8 (if v < -128 then -128 else if 127 < v then 127 else v)
    else (roundConv (fmtOf t) rnd true true 0 (.fin neg mag (e - sc))).1
  | _ => 0

/-- A 32-element block of F32 values re-quantised: the scale code, the element bits, and whether SAT is set (R94). -/
def mxQuantise (t : Typ) (rnd : Rnd) (xs : List Word) : Nat × List Nat × Bool :=
  let vs := xs.map fun x => fpVal f32 x.toNat
  if vs.any (fun v => match v with
      | .fin _ _ _ => false
      | _ => true) then (0xFF, xs.map (fun _ => 0), false)
  else
    let tops := vs.filterMap fun v => match v with
      | .fin _ mag e => if mag = 0 then none else some (log2Floor mag e)
      | _ => none
    match tops with
    | [] => (0, xs.map (fun _ => 0), false)
    | t0 :: ts =>
      let sc := ts.foldl max t0 - mxEmax t
      if 127 < sc then (0xFE, vs.map (fun v => mxRoundElem t rnd v 127), true)
      else if sc < -127 then (0, vs.map (fun v => mxRoundElem t rnd v (-127)), false)
      else ((sc + 127).toNat, vs.map (fun v => mxRoundElem t rnd v sc), false)

end Sys2Proof.Machine
end

