-- ==== Sys2Proof/Machine/State.lean ====
section
/-!
DEFINITION. Machine/State.lean: everything the manual gives the machine, as plain data, and the machine after reset.
Sparse parts (cores, contexts, dies) are lists in which an absent element stands for its reset value.
INVENTORY.md lists each field with its rule and its reset value.
-/

namespace Sys2Proof.Machine

/-! ### Outcomes -/

/-- The reasons a step stops without a next state. -/
inductive Fault where
  /-- `exec` was asked to run an instruction while no resident cohort of a registered context is issuing. Raised by every
  instruction's meaning.
  Safe: the hardware has no such situation, because an instruction is always issued by a resident cohort (R41). -/
  | noIssuer
deriving DecidableEq, Repr

/-- The reasons an instruction has no meaning in the model. -/
inductive Refusal where
  /-- Raised by an arm of `exec` whose instruction is not modelled yet. Safe: nothing is claimed of it. -/
  | notModelled (mnemonic : String)
deriving DecidableEq, Repr

/-! ### The cohort (02, 03, 10) -/

/-- A vector register with its shape (R55). A `g` register holds one word per lane. -/
inductive VReg where
  | u (x : Word)
  | a (base stride : Word)
  | g (ws : List Word)
deriving DecidableEq, Repr

/-- A live PC slot (R32). -/
structure PcSlot where
  pc   : Word
  mask : Mask
deriving DecidableEq, Repr

/-- A reconvergence-stack entry; `outer` 0xFFFF_FFFF is NONE (R32). -/
structure StackEntry where
  pc    : Word
  mask  : Mask
  outer : Word
deriving DecidableEq, Repr

/-- A per-lane fault record (R232). `state`: 0 no access, 1 faulted, 2 suppressed, 3 met a page with P = 0. -/
structure LaneRec where
  addr   : DWord
  pc     : Word
  reason : Nat
  state  : Nat
  lgsz   : Nat
  cause  : Nat
deriving DecidableEq, Repr

/-- An atomic instruction that is part done: the lanes performed with what they read, the lanes that consumed an error, the word read from
a device page whose write is to follow (R142), and whether its beats wait to be compared in an Indigo pair (R297). -/
structure Rmw where
  done  : List (Nat × Nat)
  dead  : Mask
  read  : Option (Nat × Word)
  asked : Bool
  /-- the words that its lanes act on, where one of them takes two steps: no other access comes between them (R125, R142) -/
  words : List Nat := []
  /-- the lanes whose pages were not resident in the primary (R296) -/
  nonres : Mask := 0
deriving DecidableEq, Repr

/-- The kernel's control state at handler entry (R239). -/
structure KCtl where
  s0    : Option PcSlot
  s1    : Option PcSlot
  j     : Word
  lastS : Bool
  nStk  : Nat
  nSpill : Nat
  /-- the trapped slot's mask as the handler has written it through $ACTMASK (R240, R241) -/
  act   : Mask
  /-- an atomic that the stop has left part done (R142) -/
  rmw   : Option Rmw := none
deriving DecidableEq, Repr

/-- An event that a cohort has met and not taken (R238): its group, its detail, the PC of its instruction or command (none for an event
from outside the cohort, whose $EPC is the PC at which the cohort stops), its lane records, and whether it is a job's (R195, R239). -/
structure PendEvent where
  group  : Nat
  detail : BitVec 96
  pc     : Option Word
  recs   : List LaneRec
  job    : Bool
deriving DecidableEq, Repr

/-- What keeps a cohort from being ready (R41). -/
inductive Wait where
  /-- nothing -/
  | none
  /-- the instruction at its PC waits for a condition and is tried again at its next turn -/
  | retry
  /-- a BTAKE waits for the baton (R153) -/
  | baton
  /-- an ACCALLOC waits for banks, with the register for its handle (R150) -/
  | banks (od : Opnd)
  /-- a BAR waits at a scope, after arriving, with its predicate and write mask (R347) -/
  | bar (scope : Scope) (od : Opnd) (m : Mask)
  /-- a blocking LQTAKE waits in its die's queue of takers, with its register and write mask (R286) -/
  | learner (od : Opnd) (m : Mask)
  /-- a restored cohort waits for the baton before its next instruction (R163) -/
  | batonAgain
deriving DecidableEq, Repr

/-- The role of a cohort in an Indigo pair (R295). -/
inductive IndigoRole where
  | single | primary | secondary
deriving DecidableEq, Repr

/-- A value from outside the core that a primary forwards to its twin (R296): the instruction count it belongs to and the
values by lane. -/
structure Forwarded where
  at_    : Nat
  vals   : List (Option DWord)
  /-- lanes of the primary that died at this instruction (R296) -/
  lost   : Mask
deriving DecidableEq, Repr

/-- One store beat of an Indigo stream (R297), with what performing it needs. `kind` 0 is a plain write. -/
structure Beat where
  va   : DWord
  size : Nat
  data : BitVec 256
  kind : Nat
  scope : Scope
  /-- the beat is of the same instruction as the one before it (R125) -/
  next : Bool := false
  /-- the lane, and for an atomic with a return its operation and the value it compares with (R342) -/
  lane : Nat := 0
  op   : Nat := 0
  cmp  : Word := 0
  /-- the L2 policy, and whether the write is a release's, which no combining buffer takes (R106, R107) -/
  pol  : BitVec 2 := 0
  rel  : Bool := false
  /-- for 4-bit elements, which the kind 1024 marks: the first nibble that is written, and how many -/
  nib  : Nat := 0
  nibs : Nat := 0
  /-- the instruction's place among those of its cohort (R296) -/
  at_  : Nat := 0
deriving DecidableEq, Repr

/-- A store window: its number, whether it is closed, and its beats in order (R297). -/
structure StoreWindow where
  num    : Nat
  closed : Bool
  beats  : List Beat
  /-- beats of the window before it that belong to one instruction with its first ones, and are performed with them (R125) -/
  carried : List Beat := []
  /-- it was closed before it was full -/
  early : Bool := false
  /-- its hashes have matched and its beats are being performed; the word that its first beat has read, and the words that no other access
  may come between (R125, R142) -/
  matched : Bool := false
  read : Option Word := none
  words : List Nat := []
deriving DecidableEq, Repr

/-- A resident cohort (R32, R41, R49 to R54, R56, R83, R233, R234, R239). -/
structure Cohort where
  /-- the model's own name for the cohort -/
  cid     : Nat
  launch  : Nat
  wg      : Nat
  ctx     : BitVec 16
  /-- package core index (R12) -/
  core    : Nat
  /-- slot × 12 + index on the slot (R41) -/
  place   : Nat
  width   : Nat
  nreg    : Nat
  budget  : Nat
  wgid    : Word
  chid    : Word
  nch     : Word
  /-- base of the cohort's spill area (R204) -/
  spill   : DWord
  code    : DWord
  regs    : List VReg
  /-- p0 to p6 -/
  preds   : List Mask
  /-- t0 to t15 -/
  tiles   : List (Option Word)
  s0      : Option PcSlot
  s1      : Option PcSlot
  j       : Word
  /-- reconvergence stack, top first, with the number of its bottom entries that are spilled (R36) -/
  stack   : List StackEntry
  nSpill  : Nat
  lastS   : Bool
  prio    : BitVec 4
  dead    : Mask
  vstat   : Word
  arrive  : Word
  srseed  : DWord
  cause   : BitVec 5
  caused0 : Word
  caused1 : Word
  caused2 : Word
  epc     : Word
  pend    : Word
  /-- the pending events, one of a group (R234, R238) -/
  pendInfo : List PendEvent
  hmode   : Bool
  kctl    : Option KCtl
  traps   : Bool
  laneRecs : List LaneRec
  /-- the cohort's $CAUSE was set by the stop now in force -/
  raised  : Bool
  /-- that cause is a job's, raised while the job ran (R195, R239) -/
  jobSide : Bool
  /-- the cohort has stopped at the halt line (R227) -/
  stopped : Bool
  handle  : Option Word
  bheld   : Bool
  bwt     : Bool
  /-- banks of an abandoned ACCALLOC, for the header (R334) -/
  accReq  : Nat
  lastBatch : BitVec 16
  /-- closed batches not yet complete, oldest first (R156) -/
  closed  : List (BitVec 16)
  /-- A-operand latch: the pair it was filled from (R145) -/
  latch   : Option (BitVec 8)
  /-- registers that hold a row, with the cycle of the last write (R56, R57) -/
  rows    : List (Nat × Nat)
  spilled : List Nat
  /-- registers of the instruction in progress, whose rows are pinned, and at which no landing falls, while the cohort waits in it (R57,
  R438) -/
  busy    : List Nat
  /-- the cohort waits in an instruction that a stop does not abandon: FENCE or CCTL (R362) -/
  ends    : Bool
  /-- the slot whose waiting instruction a stop or a pre-emption has abandoned (R334) -/
  left    : Option Bool
  /-- a merge of R34 whose stores have yet to reach the point where the cohort's later loads observe them (R38) -/
  merged  : Bool
  wait    : Wait
  /-- what the cohort waited for when a pre-emption was requested, taken up again if the victim stays (R244) -/
  kept    : Wait
  starve  : Nat
  /-- the cycle until which a `.yl` instruction ranks the cohort last (R43) -/
  yieldUntil : Option Nat
  /-- the cycle in which the cohort became resident (R41) -/
  since   : Nat
  lrel    : Bool
  /-- COLLs issued (R184) -/
  colls   : Nat
  /-- BAR.pod phases completed (R194) -/
  podPhase : Nat
  /-- order of a waiting taker or taker of descriptors (R153, R286) -/
  waitSeq : Nat
  role    : IndigoRole
  twin    : Option Nat
  /-- memory-value-carrying instructions executed so far, counted in an Indigo pair -/
  fwdCount : Nat
  fwd     : List Forwarded
  windows : List StoreWindow
  /-- windows compared so far (R297) -/
  winDone : Nat
  /-- engine jobs created so far, by which the jobs of an Indigo pair are matched -/
  jobSeq  : Nat
  /-- an atomic or a reduction in progress (R142, R297) -/
  rmw     : Option Rmw
  /-- instructions completed, and lanes that died in the twin at the instruction that this cohort has yet to run (R296) -/
  steps   : Nat
  dying   : Mask
deriving DecidableEq, Repr

/-! ### Cores, quads and dies (05, 07) -/

/-- An accepted MMA with its captured operands (R143, R155). -/
structure Mma where
  /-- place in the acceptance order of its workgroup's commands (R139) -/
  seq   : Nat
  cid   : Nat
  wg    : Nat
  ctx   : BitVec 16
  /-- `none` while the batch is open (R156) -/
  batch : Option (BitVec 16)
  bank  : Nat
  typA  : Typ
  typB  : Typ
  tr    : Bool
  step  : Nat
  lanes : Mask
  /-- A elements' bits: one 64-bit value per lane -/
  aVals : List DWord
  /-- E8M0 codes per lane for MX types -/
  aScales : List Nat
  /-- first core line of the window and its descriptor fields (R146) -/
  line0 : Nat
  ilv   : Nat
  soff  : Nat
  place : Nat
  /-- PC of the instruction, for $EPC of a cause (R234) -/
  pc    : Word
  /-- lines of the core's combining buffer whose stores come before it (R137) -/
  pre   : List Nat
deriving DecidableEq, Repr

/-- An accumulator bank (R150, R152): owner, whether its allocation has ended, and its non-zero values by 32·row + column. -/
structure Bank where
  owner : Option Nat
  freed : Bool
  vals  : List (Nat × Word)
deriving DecidableEq, Repr

/-- A range-scoreboard entry (R111). -/
structure SbEntry where
  job   : Nat
  lo    : Nat
  hi    : Nat
  write : Bool
deriving DecidableEq, Repr

/-- A line of the combining buffer (R108): its entry number, the physical line, the bytes written, and the cycle of its last store. -/
structure WcLine where
  entry : Nat
  line  : Nat
  bytes : List (Nat × Byte)
  last  : Nat
  /-- the cohorts that stored into it, with their launches (R135, R207) -/
  owners : List (Nat × Nat)
deriving DecidableEq, Repr

/-- A line of the read-only L1 (R104), least recently used last in its list. -/
structure L1Line where
  line : Nat
  data : Line
deriving DecidableEq, Repr

/-- A translation held by a TLB (R115). -/
structure TlbEntry where
  ctx   : BitVec 16
  /-- virtual base and size of the page -/
  va    : Nat
  size  : Nat
  frame : Nat
  mt    : BitVec 2
  x     : Bool
  w     : Bool
  /-- physical address of the leaf, where AF and DF are set (R114) -/
  leaf  : Nat
deriving DecidableEq, Repr

/-- A table entry held by a walk cache: context, address of the entry, and its value (R115). -/
structure WalkEntry where
  ctx : BitVec 16
  /-- the virtual region that the entry covers: base and size -/
  va  : Nat
  size : Nat
  addr : Nat
  val : DWord
deriving DecidableEq, Repr

/-- A word in an instruction buffer, by its context and the address it was fetched from (R324). -/
structure IbufEntry where
  ctx  : BitVec 16
  va   : Nat
  word : IWord
deriving DecidableEq, Repr

/-- An operand read that has been pinned (R45). -/
structure PinEntry where
  slot : Nat
  bank : Nat
  cid  : Nat
  at_  : Nat
deriving DecidableEq, Repr

/-- A core (R10). -/
structure CoreState where
  core   : Nat
  rot    : Nat
  serial : BitVec 16
  baton  : Option Nat
  bankQ  : List (Nat × Nat)
  banks  : List Bank
  mmaQ   : List Mma
  /-- full tile-memory lines, ascending (R109) -/
  full   : List Nat
  board  : List SbEntry
  wc     : List WcLine
  l1     : List L1Line
  tlb    : List TlbEntry
  ibuf   : List IbufEntry
  /-- a tile-memory reservation: launch, first block, blocks (R30) -/
  reserve : Option (Nat × Nat × Nat)
  /-- pinned reads in the order in which they are granted, as they stood at a cycle (R45) -/
  pins   : List PinEntry
  pinsAt : Nat
  /-- each context's last placement on the core: context and cycle (R243) -/
  lastPlaced : List (BitVec 16 × Nat)
deriving DecidableEq, Repr

/-- A quad's translation structures (R115). -/
structure QuadState where
  quad : Nat
  tlb  : List TlbEntry
  walk : List WalkEntry
deriving DecidableEq, Repr

/-! ### Contexts, queues and launches (05, 09, 10) -/

/-- A registered trap block (R225). -/
structure TrapBlock where
  tslice  : Word
  hmask   : Word
  hentry  : Word
  hcode   : DWord
  savea   : DWord
  savelen : DWord
  stopa   : DWord
  stoplen : DWord
deriving DecidableEq, Repr

/-- A page made resident (R480): its virtual base, size and frame, its backing host address, and the range that lists it. -/
structure ResPage where
  va    : Nat
  size  : Nat
  frame : Nat
  host  : Nat
  range : Nat
  len   : Nat
deriving DecidableEq, Repr

/-- A context (R98, R197, R225, R226, R231). -/
structure Ctx where
  ctxid : BitVec 16
  ctxva : DWord
  root  : Nat
  twe   : Bool
  tw    : Nat
  vwe   : Bool
  vw    : Nat
  rpool : Nat
  rpoolLen : Nat
  trap  : Option TrapBlock
  /-- the halt line -/
  halt  : Bool
  /-- each die's counter when the halt line rose (R230) -/
  haltAt : List Nat
  /-- jobs and engines of the context have stopped (R229) -/
  enginesStopped : Bool
  /-- the stop area has been written for the stop in force -/
  stopWritten : Bool
  /-- the cohort records written there: cohort, byte offset, length -/
  stopRecs : List (Nat × Nat × Nat)
  /-- a handler runs -/
  inHandler : Bool
  double : Bool
  stopNum : BitVec 24
  firstCause : BitVec 5
  firstCore : BitVec 16
  firstPc : Word
  /-- save-area allocation: workgroup record, offset and length (R245) -/
  saves : List (Nat × Nat × Nat)
  /-- pages made resident in the context's pool (R480) -/
  resident : List ResPage
  /-- pages pinned by PGREQ: page, requesting cohort, cycle (R120) -/
  pinned : List (Nat × Nat × Nat)
  /-- a removal or a hardware error that the runtime may not resume from (R242) -/
  noResume : Bool
deriving DecidableEq, Repr

/-- A user-mode queue (R196, R200, R201, R206). -/
structure Queue where
  num    : Nat
  ctx    : BitVec 16
  ring   : Nat
  accidx : Nat
  errrec : Nat
  logsz  : Nat
  next   : Word
  widx   : Option Word
  broken : Bool
  errors : Word
  /-- the packet accepted last, which the next packet may follow (R211, R213) -/
  lastSeq : Option Word
deriving DecidableEq, Repr

/-- A kernel descriptor (R203). -/
structure Kernel where
  kdesc  : DWord
  code   : DWord
  entry  : Word
  cohort : Nat
  wgsize : Nat
  regs   : Nat
  rows   : Nat
  tmem   : Nat
  prio   : BitVec 4
  comm   : Option Nat
  qg     : Bool
  task   : Bool
  indigo : Bool
deriving DecidableEq, Repr

/-- A virtual range of a launch (R205). -/
structure Range where
  va   : Nat
  len  : Nat
  host : Nat
deriving DecidableEq, Repr

/-- A launch as its packet, block or successor block asks for it (R202 to R205). -/
structure LaunchSpec where
  kern   : Kernel
  args   : DWord
  nwg    : Nat
  mask   : Nat
  prio   : BitVec 4
  spill  : DWord
  signal : Nat
  ranges : List Range
deriving DecidableEq, Repr

/-- A sub-launch of a BUNDLE that has passed its checks (R209). -/
inductive SubLaunch where
  | grid (x : LaunchSpec)
  | copies (list count : Nat)
  | prog (list count : Nat) (tag : Word)
deriving DecidableEq, Repr

/-- A packet in a queue table (R201, R208). -/
structure PacketEntry where
  queue   : Nat
  seq     : Word
  words   : List DWord
  started : Bool
  refused : Bool
  done    : Bool
  signal  : Nat
  ctx     : BitVec 16
  /-- the packet immediately before it in its queue -/
  prev    : Option Word
  /-- the jobs of a BUNDLE's copy lists (R209) -/
  copies  : List Nat
  /-- it launches grids: a LAUNCH, or a BUNDLE with a grid sub-launch (R211, R213) -/
  grids   : Bool
  /-- the sub-launches of a BUNDLE as they were checked at its acceptance (R206, R209) -/
  subs    : List SubLaunch
deriving DecidableEq, Repr

/-- What one die has still to place of a launch, with its head's passed count (R29, R30). -/
structure DieShare where
  die    : Nat
  next   : Nat
  stop   : Nat
  passed : Nat
  target : Option Nat
deriving DecidableEq, Repr

/-- A launch: a LAUNCH, a grid of a bundle, or a successor (R202, R204, R209, R214). -/
structure Launch where
  id      : Nat
  queue   : Nat
  seq     : Word
  ctx     : BitVec 16
  kern    : Kernel
  args    : DWord
  nwg     : Nat
  prio    : BitVec 4
  spill   : DWord
  signal  : Nat
  ranges  : List Range
  shares  : List DieShare
  exited  : Nat
  /-- its packet has started (R211); a launch is listed from its packet's acceptance -/
  started : Bool
  /-- a successor launch: it is no predecessor and its GATE passes (R213) -/
  successor : Bool
  /-- the packet immediately before its own in the queue, whose launches GATE waits for (R213) -/
  pred    : Option Word
  /-- the launch whose EXIT started a successor (R214) -/
  spawner : Option Nat
  degraded : Bool
  complete : Bool
deriving DecidableEq, Repr

/-- A resident workgroup (R23, R28). -/
structure Wg where
  id     : Nat
  launch : Nat
  wgid   : Nat
  core   : Nat
  /-- first tile block and blocks -/
  block  : Nat
  blocks : Nat
  /-- cohorts still resident -/
  live   : Nat
  /-- the cycle of its placement, for the time slice (R243) -/
  placedAt : Nat
  /-- place, row budget and register count of each cohort that has exited: the core frees them with the last (R31) -/
  gone : List (Nat × Nat × Nat)
  /-- a pre-emption of it was requested at a cycle, for a placement: launch and first workgroup (R244) -/
  preempt : Option (Nat × Nat × Nat)
  /-- the placements for which it is not chosen again (R244) -/
  spared : List (Nat × Nat)
  role   : IndigoRole
  /-- the other workgroup of an Indigo pair (R295) -/
  twin   : Option Nat
deriving DecidableEq, Repr

/-- A saved workgroup: what its record holds (R245). -/
structure SavedWg where
  id      : Nat
  wg      : Wg
  cohorts : List Cohort
  banks   : List (Nat × List (List (Nat × Word)))
  tile    : List Byte
  full    : List Nat
  quadGroup : Bool
  die     : Nat
deriving DecidableEq, Repr

/-- A remote register write that has been sent and has not landed (R219, R438). -/
structure Landing where
  sender : Nat
  target : Nat
  reg    : Nat
  val    : VReg
deriving DecidableEq, Repr

/-- A parked continuation that waits for its handle (R217, R218): where its record lies and who it belongs to. -/
structure Parked where
  die    : Nat
  index  : Nat
  addr   : DWord
  ctx    : BitVec 16
  launch : Nat
  core   : Nat
  wgid   : Nat
  wg     : Nat
  cid    : Nat
  /-- the cohort had executed LREL (R410) -/
  lrel   : Bool
  /-- BAR.pod phases it had completed (R194) -/
  podPhase : Nat
deriving DecidableEq, Repr

/-- What a split handle stands for (R216). -/
inductive SplitOp where
  | pages (vas : List Nat)
  | counter (pa : Nat) (va : DWord) (value : DWord) (scope : Scope)
  | learner
deriving DecidableEq, Repr

/-- An entry of a die's wait table (R216). -/
structure WaitEntry where
  die   : Nat
  index : Nat
  op    : SplitOp
  cid   : Nat
  ctx   : BitVec 16
  /-- issue order of the split instruction -/
  seq   : Nat
  /-- its completion value, once complete, and the cycle of its die in which it completed (R218) -/
  done  : Option (Word × Nat)
  parked : Bool
deriving DecidableEq, Repr

/-- A page that is to be made resident (R120, R121, R480). -/
structure PageReq where
  ctx : BitVec 16
  va  : Nat
  /-- the cohort that asked, or `none` for an engine, the join unit or the front end -/
  cid : Option Nat
  /-- the outcome: 0 not yet, 1 resident, 2 cannot be made resident -/
  status : Nat
  /-- it was asked for by PGREQ, which pins it (R120) -/
  pin : Bool := false
deriving DecidableEq, Repr

/-! ### Engine jobs and collectives (06, 08) -/

/-- A tensor layout record as copied at acceptance (R167). -/
structure TRecord where
  base   : Nat
  typ    : Typ
  rank   : Nat
  fill   : Nat
  fillv  : Word
  ilv    : Nat
  exts   : List Nat
  strides : List Nat
  boxes  : List Nat
  pitch  : Nat
deriving DecidableEq, Repr

/-- The kind of a job (R138). -/
inductive JobKind where
  | copyLd | copySt | gather | scatter | rcopy | epiTile | epiRec | copyList | collStep
deriving DecidableEq, Repr

/-- A region of a footprint (R138). -/
inductive Region where
  | mem (lo hi : Nat)
  | tile (lo hi : Nat)
  | bank (b : Nat)
deriving DecidableEq, Repr

/-- The operands of an EPI captured at issue (R158). -/
structure EpiOps where
  bank   : Nat
  alpha  : List Word
  bias   : Option Nat
  biasIlv : Nat
  typ    : Typ
  rnd    : Rnd
  sat    : Bool
  zero   : Bool
  rows   : Nat
deriving DecidableEq, Repr

/-- An engine job (R137 to R140, R166, R169 to R179). -/
structure Job where
  id     : Nat
  kind   : JobKind
  cid    : Nat
  core   : Nat
  place  : Nat
  wg     : Nat
  launch : Nat
  ctx    : BitVec 16
  pc     : Word
  opc    : BitVec 8
  recAddr : DWord
  /-- the tile side: first core line, lines, interleave, scale offset (R146, R171) -/
  line0  : Nat
  nlines : Nat
  ilv    : Nat
  soff   : Nat
  trec   : Option TRecord
  coords : List Int
  /-- index-list entries read so far (R173); for a copy list, source, destination and length of the entry in progress -/
  indexes : List Int
  /-- address of the index list, and bytes of a copy-list entry done -/
  idxVa  : Nat
  off    : Nat
  /-- counter: virtual and physical address, and the scope of the increment (R140, R174) -/
  ctrVa  : DWord
  ctrPa  : Nat
  /-- the counter's leaf, where DF is set by the increment (R114), and whether the translation still stands: a stop ends it (R362) -/
  ctrLeaf : Option Nat := none
  held   : Bool := true
  scope  : Scope
  epi    : Option EpiOps
  /-- RCOPY source: rank, core, first line -/
  srcRank : Nat
  srcCore : Nat
  srcLine : Nat
  reads  : List Region
  writes : List Region
  /-- next element, row or line in traversal order -/
  next   : Nat
  total  : Nat
  /-- SAT recorded so far (R95) -/
  satSeen : Bool
  /-- 0 running, 1 paused on a page, 2 waiting for acceptance on a page, 3 finished its writes -/
  status : Nat
  /-- the page a paused job waits for -/
  pausedAt : Nat
  /-- lines of the core's combining buffer whose stores come before the job (R137) -/
  pre    : List Nat
  /-- L2 policy of its accesses (R106) -/
  pol    : BitVec 2
  /-- window lines landed by pulls (R178) -/
  landed : List Nat
  /-- position among its cohort's jobs, and its store windows in an Indigo kernel (R297) -/
  seqNo  : Nat
  role   : IndigoRole
  windows : List StoreWindow
  winDone : Nat
  /-- the twin of its cohort (R295) -/
  mate   : Option Nat
deriving DecidableEq, Repr

/-- A collective of a workgroup (R184 to R187). -/
structure Coll where
  id     : Nat
  launch : Nat
  wg     : Nat
  wgid   : Nat
  ctx    : BitVec 16
  index  : Nat
  sub    : Nat
  typ    : Typ
  red    : Nat
  alg    : Nat
  group  : Nat
  root   : Nat
  objVa  : DWord
  objPa  : Nat
  /-- the object's leaf and whether its translation still stands, as for a job's counter; and an abort before every cohort had issued it
  (R187) -/
  objLeaf : Option Nat := none
  held   : Bool := true
  aborted : Bool := false
  core   : Nat
  line0  : Nat
  nlines : Nat
  /-- cohorts of the workgroup that have issued it -/
  issued : List Nat
  /-- the communication cohort's operands have been captured -/
  ready  : Bool
  started : Bool
  pc     : Word
  cid    : Nat
  ilv    : Nat := 0
deriving DecidableEq, Repr

/-- A collective program of a bundle (R209, R210). -/
structure CollProg where
  id    : Nat
  queue : Nat
  seq   : Word
  ctx   : BitVec 16
  list  : DWord
  count : Nat
  tag   : Word
  next  : Nat
  /-- the step it stands at has aborted, and what follows has still to be written (R210) -/
  dead  : Bool := false
deriving DecidableEq, Repr

/-- A pull of one line in flight (R176 to R178). -/
structure Pull where
  txid  : TxId
  job   : Nat
  line  : Nat
  rank  : Nat
  sent  : Nat
deriving DecidableEq, Repr

/-- A pull that waits at this package, its source, until the line is full (R176). -/
structure PullServe where
  id   : Nat
  src  : Sender
  gen  : Word
  txid : BitVec 16
  core : Nat
  line : Nat
deriving DecidableEq, Repr

/-! ### Reward join (12) -/

/-- State of a join-table entry (R280). -/
inductive JoinState where
  | free | open_ | closed | joined | queued | taken
deriving DecidableEq, Repr

/-- A join-table entry (R274, R276, R277, R280); entries not listed are FREE. -/
structure JoinEntry where
  idx     : Nat
  state   : JoinState
  traj    : DWord
  count   : Nat
  opened  : Nat
  boot    : Word
  version : Word
  terminal : Bool
  len     : Nat
  rewards : List (Nat × Word)
  /-- 0 complete, 1 truncated at `k` -/
  cut     : Option Nat
  joinedAt : Nat
deriving DecidableEq, Repr

/-- An orphan or a held reward with its arrival cycle (R279). -/
structure Orphan where
  msg : RewardMsg
  at_ : Nat
deriving DecidableEq, Repr

/-- A reward join unit (R273, R279, R286, R289). -/
structure JoinUnit where
  die     : Nat
  accepted : Bool
  ctx     : BitVec 16
  store   : Nat
  nent    : Nat
  trunc   : Bool
  smax    : Nat
  orphto  : Nat
  jointo  : Nat
  gamma   : Word
  lambda  : Word
  c       : Word
  entries : List JoinEntry
  orphans : List Orphan
  hold    : List Orphan
  queue   : List Word
  /-- counts in the order of R289 -/
  counts  : List Nat
deriving DecidableEq, Repr

/-- A reward packet that awaits its acknowledgement (R278). -/
structure RewardTx where
  txid : TxId
  sent : Nat
deriving DecidableEq, Repr

/-! ### Fabric and membership (08, 11) -/

/-- A data flit that has been sent (R190): its ACK and XOFF are those of the moment in which it leaves. -/
structure TxFlit where
  seq  : BitVec 16
  ft   : Nat
  cls  : Nat
  data : List Byte
deriving DecidableEq, Repr

/-- A packet of which not every flit has been received: its class, NFLIT, the flits that are here, and their payload (R191, R192). -/
structure RxPart where
  cls   : Nat
  nflit : Nat
  got   : Nat
  data  : List Byte
deriving DecidableEq, Repr

/-- A fabric port (R189 to R193). -/
structure Port where
  num     : Nat
  up      : Bool
  seqTx   : BitVec 16
  ackRx   : BitVec 16
  /-- the replay buffer: flits not yet acknowledged, oldest first (R190) -/
  replay  : List TxFlit
  /-- last SEQ received in order -/
  lastRx  : BitVec 16
  nacks   : Nat
  /-- classes that the other end has halted -/
  xoff    : BitVec 4
  /-- classes that this end has halted (R191) -/
  xoffOut : BitVec 4
  held    : List (Packet × Nat)
  /-- packets that have still to leave, oldest first, with the flits of each that have left (R190, R191) -/
  queued  : List (Packet × Nat)
  /-- flits that classes 1 to 3 may send before the share is dealt again (R191) -/
  share   : List Nat
  /-- packets that are arriving, one for a class at most -/
  parts   : List RxPart
  /-- stale, hold-dropped, CRC-failed, replayed, unroutable, other-dropped (R193, R309) -/
  counts  : List Nat
deriving DecidableEq, Repr

/-- A pod barrier instance (R194). -/
structure PodBar where
  ctx   : BitVec 16
  queue : Nat
  seq   : Word
  wgid  : Word
  /-- arrivals counted at the root: source address and phase -/
  arrived : List (BitVec 20 × BitVec 16)
  /-- own ARRIVE sent at a cycle, not yet completed -/
  sentAt : Option Nat
  /-- phases completed, as the root sees them -/
  done  : Nat
deriving DecidableEq, Repr

/-- A watched peer (R249, R251). -/
structure Watch where
  rank   : Nat
  faddr  : BitVec 20
  miss   : Nat
  lastAt : Nat
  sentAt : Nat
  /-- a standing suspicion -/
  suspected : Bool
deriving DecidableEq, Repr

/-- What a leader holds (R253, R254). -/
structure Leader where
  index    : Nat
  committed : Word
  promised : Word
  accepted : Option (Word × RankTable)
  /-- standing suspicions: rank and watcher address -/
  suspicions : List (Nat × BitVec 20)
  /-- shards that are reported lost, and for which no table has been committed (R267; log entry 80) -/
  losses   : List (BitVec 20)
  /-- the coordinator's round in progress: ballot, promises with what they reported, the table proposed and accepts -/
  ballot   : Word
  promises : List (BitVec 20 × Option (Word × RankTable))
  proposed : Option RankTable
  accepts  : List (BitVec 20)
  roundAt  : Nat
  /-- STEP, CKSTEP, PDOM and STATE last heard from a package, with the cycle (R250, R261, R263) -/
  heard    : List (BitVec 20 × Word × Word × BitVec 16 × BitVec 4 × Nat)
  sealed   : Word
  seenBallot : Word
deriving DecidableEq, Repr

/-- State of a package towards membership (R250, R262, R305). -/
inductive MemState where
  | idle | member | failed | spareReady | spareFilling | spareJoined | expelled
deriving DecidableEq, Repr

/-- A stripe being pulled (R268, R269). Positions count the surviving holders of the shard in rank order. -/
structure Stripe where
  idx      : Nat
  /-- the positions that have refused, with their reasons -/
  refused  : List (Nat × BitVec 8)
  /-- the donor's data -/
  first    : Option (List Byte)
  /-- the verifier's fingerprint has differed from the donor's -/
  differs  : Bool
  /-- after that: the data pulled again from the verifier, and the third position's fingerprint -/
  second   : Option (List Byte)
  third    : Option DWord
  verified : Bool
  /-- the holders do not agree, or all refuse for a dropped page (R267, R269) -/
  lost     : Bool
  /-- the verified data, which a survivor keeps for its rollback -/
  data     : List Byte
deriving DecidableEq, Repr

/-- An amber view (R263): its step, the pages whose pre-images it holds, each with its page of the shadow pool, and the pages it
dropped. -/
structure AmberView where
  step    : Word
  images  : List (Nat × Nat)
  dropped : List Nat
deriving DecidableEq, Repr

/-- The membership block (R247). -/
structure MemBlock where
  ctx      : BitVec 16
  shardl   : Nat
  pool     : Nat
  poolLen  : Nat
  tablebuf : Nat
  shard    : List Range
deriving DecidableEq, Repr

/-! ### Defence, firmware, boot and host (09, 13, 14) -/

/-- The report of one unit (R298, R299). `state`: 0 in service, 1 fenced, 2 fenced until power-up test. -/
structure UnitRec where
  unit  : BitVec 16
  state : Nat
  lastC : Nat
  pass  : Nat
  fail  : Nat
  mism  : Nat
  /-- when its last correct replays were, latest first, at most 16 (R294) -/
  recent : List Nat
  last  : Nat
  /-- failed tests in a row and passes in a row (R298) -/
  failRow : Nat
  passRow : Nat
  /-- a test that was scheduled or is running, with its start (R294, R298) -/
  scheduled : Bool
  testing : Option Nat
deriving DecidableEq, Repr

/-- A line that an L2 slice holds: its number, physical address ÷ 128, and the policy it was brought in with (R101, R106). Its data are
those of its home, since no line has a second copy. -/
structure L2Line where
  line : Nat
  pol  : BitVec 2
deriving DecidableEq, Repr

/-- An L2 set's way bitmap and corrected-error counts (R301). -/
structure L2Set where
  die   : Nat
  slice : Nat
  set   : Nat
  disabled : BitVec 16
  counts : List Nat
deriving DecidableEq, Repr

/-- An event in a die's hardware event queue (R221). -/
inductive FwEvent where
  | notify (queue : Nat) (widx : Word)
  /-- a packet whose work has ended -/
  | completion (queue : Nat) (seq : Word)
  /-- the JOIN of a block that a cohort of a launch named has reached 0 (R214) -/
  | joinZero (queue launch : Nat) (va : DWord)
  | pageRequest (ctx : BitVec 16) (va : Nat)
  /-- frames are wanted for a page of a context whose pool has none free (R122) -/
  | eviction (ctx : BitVec 16) (va : Nat)
  | mailbox (i3c : Bool)
  /-- an error that a unit reports (R224, R294) -/
  | errorReport (unit : BitVec 16)
deriving DecidableEq, Repr

/-- One effect of a journal record (R222): an absolute write of bytes, of a table entry or of a result, or the completion of a packet, which
its DONE bit binds (R208). -/
inductive FwEffect where
  | write (key : Nat) (bytes : List Byte)
  | done (queue : Nat) (seq : Word)
  /-- a packet's entry in its queue table (R201) -/
  | entry (queue : Nat) (seq : Word)
  /-- the RESULT of a mailbox command (R309) -/
  | result (i3c : Bool) (value : DWord)
deriving DecidableEq, Repr

/-- A firmware core that runs an event (R221). -/
structure FwCore where
  core : Nat
  running : FwEvent
deriving DecidableEq, Repr

/-- A die (R10): its counters and firmware. -/
structure DieState where
  die     : Nat
  lqver   : Word
  /-- the last write of $LQVER: its cycle, the core it came from, and the value before it, which the die uses to the end of the cycle
  (R417, R418) -/
  lqWrite : Option (Nat × Nat × Word)
  walk    : List TlbEntry
  throttled : Bool
  /-- the hardware event queue, oldest first: 1,024 entries, and behind them the events that their sources hold (R221) -/
  events  : List FwEvent
  /-- the private buffer of the handler in progress, empty between turns, and the effects of the journal record committed last, which
  lies in two vaults of the die (R222) -/
  buffer : List FwEffect
  journal : List FwEffect
  /-- the firmware cores that run an event -/
  fw      : List FwCore
  /-- the transaction identifier that the die's fabric engine gives next (R192; log entry 20) -/
  txid    : BitVec 16
  retired : List Nat
deriving DecidableEq, Repr

/-- A carrier's copies of the mailbox's CMD and RESULT (R309). -/
structure MailRegs where
  cmd    : DWord
  result : DWord
deriving DecidableEq, Repr

/-- The mailbox: the host's CMD and RESULT, and the payload, which the I3C target shares (R309). -/
structure Mailbox where
  cmd     : DWord
  result  : DWord
  payload : List (Nat × Byte)
deriving DecidableEq, Repr

/-- What the package sends or reports outward. -/
inductive OutMsg where
  /-- a flit leaves a port (R189) -/
  | flit (port : Nat) (bits : BitVec 2048)
  | telemetry (powerW inletC outletC junctionC : Nat)
  | cxlData (bytes : List Byte)
  | snoopData (bytes : List Byte)
  /-- data whose code failed on the way out, discarded (R303) -/
  | dataLost
  | spdm (code : Byte) (digest : DWord)
deriving DecidableEq, Repr

/-! ### Turns and the state -/

/-- What a turn does: a cohort issues, or an event happens. -/
inductive TurnWhat where
  | issue (cid : Nat)
  | event (e : Instr)
deriving DecidableEq, Repr

/-- The structures whose codes correct errors, apart from L2's dirty lines (R302). -/
inductive Coded where
  | hbm | vault | tile | rows | shape | banks | firmware
deriving DecidableEq, Repr

/-- An error of the circuits below the architecture that has occurred and has not been met yet (R302; log entry 78). -/
inductive Upset where
  /-- the next checked operation of a unit of kinds 0 to 4 mismatches, and so does its replay (R162, R294) -/
  | replay (unit : BitVec 16)
  /-- the next checked operation of a unit of kinds 0 to 4 mismatches, and its replay checks correctly (R293, R299) -/
  | mismatch (unit : BitVec 16)
  /-- a lane's word of a register row of a cohort (R236) -/
  | rowWord (cid reg lane : Nat)
  /-- the compact entry of a U or A register of a cohort (R236) -/
  | compact (cid reg : Nat)
  /-- the A-operand latch of a core (R236) -/
  | latch (core : Nat)
  /-- the scalar path of a slot: 4 × package core index + slot (R236) -/
  | scalar (slot : Nat)
  /-- an accumulator bank of a core (R302) -/
  | bank (core b : Nat)
  /-- uncorrectable data at a key of memory: the bytes under its code word are poisoned (R300, R302) -/
  | data (key : Nat)
  /-- an error in a dirty line of a way of an L2 set that its code corrects (R300, R301) -/
  | corrected (die slice set way : Nat)
  /-- an error that another structure's code corrects (R302) -/
  | fixed (c : Coded)
  /-- an L1 line of a core, found by parity (R302) -/
  | l1Line (core line : Nat)
  /-- a core's translation of an address, or a word of its instruction buffer, found by parity (R302) -/
  | tlbEntry (core va : Nat)
  | ibufWord (core va : Nat)
  /-- an entry of a quad's TLB or walk cache, or of a die's walk-ahead TLB, for an address, found by parity (R302) -/
  | quadEntry (quad va : Nat)
  | dieEntry (die va : Nat)
  /-- a copy, 0 or 1, of a packet's entry in its queue table (R223) -/
  | tableCopy (queue : Nat) (seq : Word) (copy : Nat)
  /-- a copy, 0 or 1, of the journal record that a die committed last (R222, R302) -/
  | journalCopy (die copy : Nat)
deriving DecidableEq, Repr

/-- One turn: the cycles that pass before it, the errors that occur with it, and what moves. The model's own (log entry 4). -/
structure Turn where
  dt   : Nat
  what : TurnWhat
  upsets : List Upset := []
deriving DecidableEq, Repr

/-- The machine. -/
structure State where
  /-- memory: (address, byte), ascending, no zero byte listed (log entry 2) -/
  mem      : List Host.Cell
  /-- poisoned bytes (R300) -/
  poison   : List Nat
  cohorts  : List Cohort
  cores    : List CoreState
  quads    : List QuadState
  dies     : List DieState
  ctxs     : List Ctx
  queues   : List Queue
  packets  : List PacketEntry
  launches : List Launch
  wgs      : List Wg
  saved    : List SavedWg
  parked   : List Parked
  /-- remote register writes in flight, oldest first -/
  landings : List Landing
  waitTable : List WaitEntry
  pageReqs : List PageReq
  jobs     : List Job
  colls    : List Coll
  progs    : List CollProg
  pulls    : List Pull
  serves   : List PullServe
  joins    : List JoinUnit
  rewardTx : List RewardTx
  ports    : List Port
  routes   : List (Nat × BitVec 20 × Nat)
  podBars  : List PodBar
  /-- cycle counter of each die, 0 to 15 (R17) -/
  cycles   : List Nat
  pkgRank  : Word
  mgen     : Word
  faddr    : BitVec 20
  adopted  : Option RankTable
  staged   : Option RankTable
  memState : MemState
  /-- the package reports itself present but failed, in service (R224, R301) -/
  failed   : Bool
  memBlock : Option MemBlock
  stepdone : Word
  ckpt     : Word
  /-- writes of the membership page behind a STEPDONE write that is held for SEAL: the storing cohort if it is one, the
  register's offset and the value (R248) -/
  heldWrites : List (Option Nat × Nat × DWord)
  sealed   : Option Word
  watches  : List Watch
  /-- the port by which the last heartbeat of a package came (R305) -/
  heardOn  : List (BitVec 20 × Nat)
  hbSeq    : Word
  leader   : Option Leader
  stripes  : List Stripe
  views    : List AmberView
  bootstat : DWord
  released : Bool
  powered  : Bool
  /-- the CXL link is trained (R304, R305) -/
  cxlUp    : Bool
  pdom     : BitVec 16
  mailbox  : Mailbox
  i3c      : MailRegs
  /-- the module has passed 115 °C, and turns its power stages off once its contexts have stopped (R312) -/
  shutdown : Bool
  units    : List UnitRec
  l2sets   : List L2Set
  /-- the lines that the L2 slices hold, most recently used first (R101, R102) -/
  l2       : List L2Line
  /-- the cycle of its die in which a unit was last at work, by unit (R298) -/
  worked   : List (Nat × Nat)
  /-- addresses of the last leaders (R305) -/
  lastLeaders : List (BitVec 20)
  outbox   : List OutMsg
  /-- errors that no access has met yet (log entry 78) -/
  upsets   : List Upset
  /-- corrected errors by structure (R302) -/
  fixes    : List (Coded × Nat)
  /-- telemetry reports made, by their period (R311) -/
  reports  : Nat
  /-- the model's own fields (log entry 4): turns to come, the issuing cohort, and the next fresh name -/
  agenda   : List Turn
  /-- events that wait for frames (R480), tried again when no cohort is ready -/
  later    : List Instr
  cur      : Option Nat
  fresh    : Nat
deriving DecidableEq, Repr

/-- A mailbox after reset (R309). -/
def Mailbox.reset : Mailbox := { cmd := 0, result := 0, payload := [] }

/-- The machine right after reset (R304 to R306): compute is not released, nothing is registered, no cohort is resident.
BOOTSTAT holds DIE = 0xFF and zero elsewhere (R306); the strap value, the addresses and the generation are named in log
entry 9. -/
def State.reset : State :=
  { mem := [], poison := [], cohorts := [], cores := [], quads := [], dies := [], ctxs := [], queues := [], packets := [],
    launches := [], wgs := [], saved := [], parked := [], landings := [], waitTable := [], pageReqs := [], jobs := [], colls := [],
    progs := [], pulls := [], serves := [], joins := [], rewardTx := [], ports := [], routes := [], podBars := [],
    cycles := List.replicate 16 0, pkgRank := 0, mgen := 0, faddr := 0, adopted := none, staged := none,
    memState := .idle, failed := false, memBlock := none, stepdone := 0, ckpt := 0, heldWrites := [], sealed := none, watches := [], heardOn := [],
    hbSeq := 0, leader := none, stripes := [], views := [], bootstat := 0xFF000000, released := false, powered := true, cxlUp := false,
    pdom := 0, mailbox := .reset, i3c := ⟨0, 0⟩, shutdown := false, units := [], l2sets := [], l2 := [], worked := [], lastLeaders := [],
    outbox := [], upsets := [], agenda := [], later := [], cur := none, fixes := [], reports := 0, fresh := 0 }

end Sys2Proof.Machine
end

