-- ==== Sys2Proof/Machine/Ops.lean ====
section
/-!
DEFINITION. Machine/Ops.lean: the named operations over memory, registers and control state; raising a cause (R226, R234),
entering a handler (R239) and returning from one (R241); the baton, barriers and a cohort's end.
-/

namespace Sys2Proof.Machine

/-- The outcome of a meaning. -/
abbrev Out := Host.Outcome State Fault Refusal

/-! ### Memory as cells -/

/-- The byte at a key; an unlisted byte reads as zero (log entry 2). -/
def memByte : List Host.Cell → Nat → Byte
  | [], _ => 0
  | (k, b) :: m, a => if a = k then b else memByte m a

/-- Puts a byte at its place in the ascending order of keys. -/
def memPlace : List Host.Cell → Nat → Byte → List Host.Cell
  | [], a, v => [(a, v)]
  | (k, b) :: m, a, v =>
    if a < k then (a, v) :: (k, b) :: m else if a = k then (a, v) :: m else (k, b) :: memPlace m a v

/-- Writes one byte, keeping the canonical form: ascending keys and no zero byte listed. -/
def memSet (m : List Host.Cell) (a : Nat) (v : Byte) : List Host.Cell :=
  if v = 0 then m.filter fun c => c.1 != a else memPlace m a v

/-- The `n` bytes from a key, lowest first. -/
def memBytes (m : List Host.Cell) (a n : Nat) : List Byte := (List.range n).map fun i => memByte m (a + i)

/-- A little-endian number from bytes (R1). -/
def leNat : List Byte → Nat
  | [] => 0
  | b :: bs => b.toNat + 256 * leNat bs

/-- The `n`-byte little-endian number at a key (R1). -/
def memNat (m : List Host.Cell) (a n : Nat) : Nat := leNat (memBytes m a n)

/-- Writes bytes upward from a key. -/
def memWrite : List Host.Cell → Nat → List Byte → List Host.Cell
  | m, _, [] => m
  | m, a, b :: bs => memWrite (memSet m a b) (a + 1) bs

/-- The `n` little-endian bytes of a number (R1). -/
def natBytes : Nat → Nat → List Byte
  | 0, _ => []
  | n + 1, v => BitVec.ofNat 8 v :: natBytes n (v / 256)

/-- Writes an `n`-byte little-endian number. -/
def memPut (m : List Host.Cell) (a n v : Nat) : List Host.Cell := memWrite m a (natBytes n v)

/-- The canonical form of memory: keys strictly rising, no listed byte zero. -/
def Memory.wf : List Host.Cell → Bool
  | [] => true
  | [(_, b)] => b != 0
  | (a, x) :: (b, y) :: m => a < b && x != 0 && Memory.wf ((b, y) :: m)

/-- The key of a byte of a core's tile memory, above every physical address (R109). -/
def tileKey (core off : Nat) : Nat := 2 ^ 52 + core * 2 ^ 20 + off

/-- A memory with its poison: writing bytes clears their poison (R300). -/
def State.writeMem (s : State) (a : Nat) (bs : List Byte) : State :=
  { s with mem := memWrite s.mem a bs, poison := s.poison.filter fun p => p < a || a + bs.length ≤ p }

/-- Whether any of `n` bytes from a key is poisoned. -/
def State.poisoned (s : State) (a n : Nat) : Bool := s.poison.any fun p => a ≤ p && p < a + n

/-! ### Keyed lists -/

/-- Puts an element in place of the one with its key, or inserts it in ascending order of keys. -/
def upsertBy {α : Type} (key : α → Nat) (x : α) : List α → List α
  | [] => [x]
  | y :: ys => if key y = key x then x :: ys else if key x < key y then x :: y :: ys else y :: upsertBy key x ys

/-- A core before any work (R24, R150, R153). -/
def CoreState.init (k : Nat) : CoreState :=
  { core := k, rot := 0, serial := 0, baton := none, bankQ := [], banks := List.replicate 32 { owner := none, freed := false, vals := [] },
    mmaQ := [], full := [], board := [], wc := [], l1 := [], tlb := [], ibuf := [], reserve := none, pins := [], pinsAt := 0, lastPlaced := [] }

/-- A package core's state. -/
def State.core (s : State) (k : Nat) : CoreState := (s.cores.find? (·.core == k)).getD (CoreState.init k)

/-- Replaces a core's state. -/
def State.setCore (s : State) (c : CoreState) : State := { s with cores := upsertBy CoreState.core c s.cores }

/-- A quad's translation state; quads are numbered 24 × die + quad. -/
def State.quad (s : State) (q : Nat) : QuadState := (s.quads.find? (·.quad == q)).getD { quad := q, tlb := [], walk := [] }

/-- Replaces a quad's state. -/
def State.setQuad (s : State) (q : QuadState) : State := { s with quads := upsertBy QuadState.quad q s.quads }

/-- A die before any work (R221, R284). -/
def DieState.init (d : Nat) : DieState :=
  { die := d, lqver := 0, lqWrite := none, walk := [], throttled := false, events := [], buffer := [], journal := [], fw := [], txid := 0, retired := [] }

/-- A die's state. -/
def State.die (s : State) (d : Nat) : DieState := (s.dies.find? (·.die == d)).getD (DieState.init d)

/-- Replaces a die's state. -/
def State.setDie (s : State) (d : DieState) : State := { s with dies := upsertBy DieState.die d s.dies }

/-- An event joins a die's hardware event queue, or is held at its source behind a full one (R221). -/
def State.postEvent (s : State) (d : Nat) (e : FwEvent) : State :=
  let x := s.die d
  s.setDie { x with events := x.events ++ [e] }

/-- A registered context. -/
def State.ctx? (s : State) (k : BitVec 16) : Option Ctx := s.ctxs.find? (·.ctxid == k)

/-- Replaces a registered context. -/
def State.setCtx (s : State) (c : Ctx) : State := { s with ctxs := s.ctxs.map fun d => if d.ctxid = c.ctxid then c else d }

/-- A resident cohort by its name. -/
def State.cohort? (s : State) (k : Nat) : Option Cohort := s.cohorts.find? (·.cid == k)

/-- Replaces a resident cohort. -/
def State.setCohort (s : State) (c : Cohort) : State := { s with cohorts := s.cohorts.map fun d => if d.cid = c.cid then c else d }

/-- A launch by its name. -/
def State.launch? (s : State) (k : Nat) : Option Launch := s.launches.find? (·.id == k)

/-- Replaces a launch. -/
def State.setLaunch (s : State) (l : Launch) : State := { s with launches := s.launches.map fun d => if d.id = l.id then l else d }

/-- A resident workgroup by its name. -/
def State.wg? (s : State) (k : Nat) : Option Wg := s.wgs.find? (·.id == k)

/-- Replaces a resident workgroup. -/
def State.setWg (s : State) (w : Wg) : State := { s with wgs := s.wgs.map fun d => if d.id = w.id then w else d }

/-- A registered queue. -/
def State.queue? (s : State) (k : Nat) : Option Queue := s.queues.find? (·.num == k)

/-- Replaces a registered queue. -/
def State.setQueue (s : State) (q : Queue) : State := { s with queues := s.queues.map fun d => if d.num = q.num then q else d }

/-- A job by its name. -/
def State.job? (s : State) (k : Nat) : Option Job := s.jobs.find? (·.id == k)

/-- Replaces a job. -/
def State.setJob (s : State) (j : Job) : State := { s with jobs := s.jobs.map fun d => if d.id = j.id then j else d }

/-- A die's cycle counter (R17). -/
def State.cycle (s : State) (d : Nat) : Nat := s.cycles.getD d 0

/-- The die, the core within the die, and the package's quad number of a package core (R12). -/
def dieOf (core : Nat) : Nat := core / 96

/-- Quad of the package: 24 × die + quad (R12). -/
def quadOf (core : Nat) : Nat := 24 * (core / 96) + core % 96 / 4

/-- The cohort that is issuing. -/
def State.me? (s : State) : Option Cohort := s.cur.bind s.cohort?

/-- Runs a meaning for the issuing cohort. -/
def withMe (s : State) (k : Cohort → Out) : Out :=
  match s.me? with
  | some c => k c
  | none => .fault .noIssuer

/-! ### Lanes and masks -/

/-- The mask of lanes 0 to w−1 (R19). -/
def lanesMask (w : Nat) : Mask := BitVec.ofNat 64 (2 ^ w - 1)

/-- The lanes of a mask in ascending order (R331). -/
def laneList (m : Mask) : List Nat := (List.range 64).filter m.getLsbD

/-- The elected lane: the lowest of the mask (R164). -/
def elect (m : Mask) : Nat := ((laneList m).head?).getD 0

/-- The mask of the lanes that satisfy a test. -/
def maskOf (p : Nat → Bool) : Mask :=
  BitVec.ofNat 64 ((List.range 64).foldr (fun l acc => (if p l then 1 else 0) + 2 * acc) 0)

/-! ### Control state (R32 to R36) -/

/-- The encoding of no join PC (R32). -/
def noneJ : Word := 0xFFFFFFFF

/-- A slot by its number: false S0, true S1. -/
def Cohort.slot (c : Cohort) (x : Bool) : Option PcSlot := if x then c.s1 else c.s0

/-- Replaces a slot. -/
def Cohort.setSlot (c : Cohort) (x : Bool) (v : Option PcSlot) : Cohort := if x then { c with s1 := v } else { c with s0 := v }

/-- Whether a slot is live and does not wait at J (R34). -/
def Cohort.slotReady (c : Cohort) (x : Bool) : Bool :=
  match c.slot x with
  | some p => c.j == noneJ || p.pc != c.j
  | none => false

/-- The slot the cohort issues from (R35). -/
def Cohort.issueSlot? (c : Cohort) : Option Bool :=
  if c.slotReady false && c.slotReady true then some (!c.lastS)
  else if c.slotReady false then some false
  else if c.slotReady true then some true
  else none

/-- The number of the slot the cohort issues from; the last one when none can issue. -/
def Cohort.issuer (c : Cohort) : Bool := c.issueSlot?.getD c.lastS

/-- PC and mask of the issuing slot. -/
def Cohort.here (c : Cohort) : PcSlot := (c.slot c.issuer).getD { pc := 0, mask := 0 }

/-- Number of on-chip stack entries (R36). -/
def Cohort.onChip (c : Cohort) : Nat := c.stack.length - c.nSpill

/-- The stack entries that lie below the handler's own: a handler leaves the kernel's entries in place (R239, R240, log entry 30). -/
def Cohort.kernelEntries (c : Cohort) : Nat :=
  match c.hmode, c.kctl with
  | true, some k => k.nStk + k.nSpill
  | _, _ => 0

/-- Pops the stack's top entry, refilling when no on-chip entry is left (R36). In handler mode the stack is the handler's own. -/
def Cohort.pop (c : Cohort) : Option (StackEntry × Cohort) :=
  if c.stack.length ≤ c.kernelEntries then none
  else match c.stack with
  | [] => none
  | e :: st =>
    let sp := if st.length ≤ c.nSpill then c.nSpill - 8 else c.nSpill
    some (e, { c with stack := st, nSpill := sp })

/-- Pushes an entry; `none` when it would make 288 entries (R36). -/
def Cohort.push (c : Cohort) (e : StackEntry) : Option Cohort :=
  if 287 ≤ c.stack.length then none
  else some { c with stack := e :: c.stack, nSpill := if c.onChip = 32 then c.nSpill + 8 else c.nSpill }

/-- A live slot, or an empty one for an empty mask. -/
def liveSlot (pc : Word) (m : Mask) : Option PcSlot := if m = 0 then none else some { pc := pc, mask := m }

/-- The procedure of R34, for at most `fuel` rounds. A merge is noted: it is complete only when every store of either side has
reached the point where the cohort's later loads observe it (R38). -/
def Cohort.reconverge : Nat → Cohort → Cohort
  | 0, c => c
  | n + 1, c =>
    match c.s0, c.s1 with
    | none, none =>
      match c.pop with
      | none => c
      | some (e, c') => Cohort.reconverge n { c' with s0 := liveSlot e.pc (e.mask &&& ~~~c.dead), j := e.outer }
    | a, b =>
      let waits (o : Option PcSlot) : Bool := match o with
        | some p => p.pc == c.j
        | none => true
      if c.j ≠ noneJ ∧ waits a = true ∧ waits b = true then
        let m := (match a with | some p => p.mask | none => 0) ||| (match b with | some p => p.mask | none => 0)
        let c1 := { c with s0 := some { pc := c.j, mask := m }, s1 := none, merged := true }
        match c1.pop with
        | none => { c1 with j := noneJ }
        | some (e, c') => Cohort.reconverge n { c' with s1 := liveSlot e.pc (e.mask &&& ~~~c.dead), j := e.outer }
      else c

/-- R34 applied to its end: every round that goes on pops an entry. -/
def Cohort.settle (c : Cohort) : Cohort := c.reconverge (c.stack.length + 1)

/-- Whether the cohort has ended (R34). -/
def Cohort.ended (c : Cohort) : Bool := c.s0.isNone && c.s1.isNone && c.stack.isEmpty

/-- The issuing slot moves to a PC, and counts as the slot that issued last (R35). -/
def Cohort.goto (c : Cohort) (pc : Word) : Cohort :=
  let x := c.issuer
  { (c.setSlot x (some { pc := pc, mask := c.here.mask })) with lastS := x, wait := .none }

/-- Whether a cohort waits in an instruction: a restored one that waits for the baton has none in progress (R163). -/
def Cohort.inWait (c : Cohort) : Bool := c.wait != .none && c.wait != .batonAgain

/-- The slot that $EPC of a stop names: that of the instruction in which the cohort waits, or waited until the stop abandoned it, else the
slot that issued last (R227, R334). -/
def Cohort.stopSlot (c : Cohort) : Bool := c.left.getD (if c.inWait then c.issuer else c.lastS)

/-- The PC at which a cohort stops: what the slot that issued its last instruction would issue next, or the instruction that is abandoned
(R227, R334). DESIGN CHOICE: where that slot has become empty, it is the other slot's PC, and with neither $EPC keeps its value (log entry
91). -/
def Cohort.stopPc (c : Cohort) : Word :=
  match c.slot c.stopSlot, c.slot (!c.stopSlot) with
  | some p, _ => p.pc
  | none, some p => p.pc
  | none, none => c.epc

/-- Whether a cohort waits in a FENCE or a CCTL, for which a stop waits (R362). -/
def Cohort.mustEnd (c : Cohort) : Bool := c.wait == .retry && c.ends

/-- The registers of a cohort whose rows are pinned because an instruction in progress uses them (R57). -/
def Cohort.pinnedRegs (c : Cohort) : List Nat := if c.inWait then c.busy else []

/-- The issuing slot moves to the next instruction (R313). -/
def Cohort.advance (c : Cohort) : Cohort := c.goto (c.here.pc + 1)

/-- An instruction that another unit completes: the slot advances and R34 applies. -/
def Cohort.complete (c : Cohort) : Cohort := c.advance.settle

/-! ### Vector registers (R49, R55) -/

/-- The value of a register in a lane (R55). -/
def VReg.lane : VReg → Nat → Word
  | .u x, _ => x
  | .a b st, l => b + BitVec.ofNat 32 l * st
  | .g ws, l => ws.getD l 0

/-- Whether a register is uniform. -/
def VReg.isU : VReg → Bool
  | .u _ => true
  | _ => false

/-- Whether a register is held as a compact entry of the shape store (R55). -/
def VReg.compact : VReg → Bool
  | .g _ => false
  | _ => true

/-- The tag code (R55). -/
def VReg.tag : VReg → Nat
  | .u _ => 0
  | .a _ _ => 1
  | .g _ => 2

/-- An affine register; stride 0 is U (R55). -/
def VReg.affine (base stride : Word) : VReg := if stride = 0 then .u base else .a base stride

/-- A register's value; one never written reads U(0) (R22). -/
def Cohort.reg (c : Cohort) (i : Nat) : VReg := c.regs.getD i (.u 0)

/-- Writes a register, dropping the A-operand latch of its pair (R145). -/
def Cohort.setReg (c : Cohort) (i : Nat) (v : VReg) : Cohort :=
  { c with regs := c.regs.set i v,
           latch := match c.latch with
             | some p => if p.toNat = i ∨ p.toNat + 1 = i then none else some p
             | none => none }

/-- A general register built lane by lane; a dead lane's word is zero (R62). -/
def Cohort.general (c : Cohort) (lane : Nat → Word) : VReg :=
  .g ((List.range c.width).map fun l => if c.dead.getLsbD l then 0 else lane l)

/-- Whether a write mask is full: every lane that is not dead (R60). -/
def Cohort.full (c : Cohort) (m : Mask) : Bool := (lanesMask c.width &&& ~~~c.dead) &&& ~~~m == 0

/-- Writes a register under a mask: a full write takes the given shape, a partial one is G and keeps the other lanes (R60,
R61). An empty mask writes nothing (R319, R323; log entry 11). -/
def Cohort.putVec (c : Cohort) (m : Mask) (i : Nat) (lane : Nat → Word) (shape : VReg) : Cohort :=
  if m = 0 then c
  else if c.full m then c.setReg i shape
  else
    let old := c.reg i
    c.setReg i (c.general fun l => if m.getLsbD l then lane l else old.lane l)

/-- A write of one value to every lane that is not dead: U (R335, R340). -/
def Cohort.putUniform (c : Cohort) (i : Nat) (x : Word) : Cohort := c.setReg i (.u x)

/-! ### Predicates (R50) -/

/-- A predicate; p7 reads as ones (R50). -/
def Cohort.pred (c : Cohort) (i : BitVec 3) : Mask := if i = 7 then lanesMask c.width else c.preds.getD i.toNat 0

/-- Writes a predicate in the lanes of a mask; p7 discards (R50). -/
def Cohort.putPred (c : Cohort) (m : Mask) (i : BitVec 3) (bits : Mask) : Cohort :=
  if i = 7 then c else { c with preds := c.preds.set i.toNat ((c.preds.getD i.toNat 0 &&& ~~~m) ||| (bits &&& m)) }

/-- Writes a predicate operand that may be none. -/
def Cohort.putPredOpt (c : Cohort) (m : Mask) (o : Opnd) (bits : Mask) : Cohort :=
  match o with
  | .p i => c.putPred m i bits
  | _ => c

/-! ### Age (R41) -/

/-- Whether a cohort is older than another (R41). -/
def Cohort.older (a b : Cohort) : Bool :=
  if a.since ≠ b.since then a.since < b.since
  else if a.wg = b.wg then a.chid.toNat < b.chid.toNat
  else a.place < b.place

/-- The cohort that a test prefers over all others in a list. -/
def bestBy {α : Type} (better : α → α → Bool) : List α → Option α
  | [] => none
  | x :: xs =>
    match bestBy better xs with
    | none => some x
    | some y => if better y x then some y else some x

/-- Higher $PRIO first, then older (R153). -/
def Cohort.ranksAbove (a b : Cohort) : Bool := if a.prio ≠ b.prio then b.prio < a.prio else a.older b

/-! ### Stopping a context (R226) -/

/-- Whether a context's halt line rose in this very cycle, and nothing has followed from it yet (R231, R238). -/
def Ctx.haltsNow (x : Ctx) (cycles : List Nat) : Bool :=
  x.halt && x.haltAt == cycles && !x.stopWritten && !x.inHandler && !x.double

/-- A per-lane record that is all zero (R232). -/
def LaneRec.zero : LaneRec := { addr := 0, pc := 0, reason := 0, state := 0, lgsz := 0, cause := 0 }

/-- Per-lane records in which the lanes of a mask carry a cause and a reason, without a memory access; every other lane's is zero
(R232, R341, R459). -/
def Cohort.plainRecs (c : Cohort) (m : Mask) (group reason : Nat) : List LaneRec :=
  (List.range c.width).map fun l =>
    if m.getLsbD l then { LaneRec.zero with pc := c.here.pc, cause := group, reason := reason } else LaneRec.zero

/-- Per-lane records that name the elected lane alone, with STATE 01 and an address; every other lane's is zero (R234, R459). -/
def Cohort.electedRecs (c : Cohort) (l group reason lgsz : Nat) (addr : DWord) : List LaneRec :=
  (List.range c.width).map fun k =>
    if k = l then { addr := addr, pc := c.here.pc, reason := reason, state := 1, lgsz := lgsz, cause := group } else LaneRec.zero

/-- The place of a cause group in the order in which a cohort takes the events of one cycle (R238). -/
def eventRank (group : Nat) : Nat :=
  match group with
  | 13 => 0
  | 15 => 1
  | 18 => 2
  | 17 => 3
  | 5 => 5
  | 16 => 6
  | _ => 4

/-- Whether an event is no cohort's instruction's, so that a stop that it raises names no core (R231). -/
def PendEvent.outside (e : PendEvent) : Bool := e.job || e.pc.isNone

/-- An event that is not taken is pending: its bit in PEND is set, and what taking it needs is kept (R234, R238). -/
def Cohort.pending (c : Cohort) (e : PendEvent) : Cohort :=
  { c with pend := c.pend ||| BitVec.twoPow 32 e.group,
           pendInfo := if c.pendInfo.any (·.group == e.group) then c.pendInfo else c.pendInfo ++ [e] }

/-- $CAUSED0 to $CAUSED2 as one detail (R234). -/
def Cohort.detail (c : Cohort) : BitVec 96 := c.caused2 ++ c.caused1 ++ c.caused0

/-- A cause is written: $CAUSE, its 96-bit detail and $EPC, with the per-lane records for the stop record (R232, R234). -/
def Cohort.takeCause (c : Cohort) (e : PendEvent) : Cohort :=
  { c with cause := BitVec.ofNat 5 e.group, caused0 := e.detail.setWidth 32, caused1 := (e.detail >>> 32).setWidth 32,
           caused2 := (e.detail >>> 64).setWidth 32, epc := e.pc.getD c.stopPc, laneRecs := e.recs, raised := true, jobSide := e.job }

/-- The event that a cohort's $CAUSE holds. -/
def Cohort.causeEvent (c : Cohort) : PendEvent :=
  { group := c.cause.toNat, detail := c.detail, pc := if c.cause = 17 ∨ c.cause = 18 then none else some c.epc, recs := c.laneRecs,
    job := c.jobSide }

/-- An event reaches a cohort: of two in one stop the one that R238 ranks first is taken, and the other is pending. -/
def Cohort.meet (c : Cohort) (e : PendEvent) : Cohort :=
  if c.raised && !c.hmode then
    if eventRank e.group < eventRank c.cause.toNat then (c.pending c.causeEvent).takeCause e else c.pending e
  else c.takeCause e

/-- The first pending event in the order of R238, and the cohort without it. -/
def Cohort.nextPending (c : Cohort) : Option (PendEvent × Cohort) :=
  match bestBy (fun (a b : Nat) => eventRank a < eventRank b || (eventRank a == eventRank b && a < b)) ((List.range 32).filter c.pend.getLsbD) with
  | none => none
  | some g =>
    some ((c.pendInfo.find? (·.group == g)).getD { group := g, detail := 0, pc := none, recs := [], job := false },
      { c with pend := c.pend &&& ~~~(BitVec.twoPow 32 g), pendInfo := c.pendInfo.filter (·.group != g) })

/-- A pre-emption stop that reaches a cohort in the cycle in which it takes another event is lost: its bit of PEND is set, with the CTXID of
the context that comes in (R234, R238). -/
def State.losePreempts (s : State) (k : BitVec 16) : State :=
  let lost (c : Cohort) : Option (BitVec 16) :=
    if c.ctx = k ∧ c.raised then
      ((s.wg? c.wg).bind (·.preempt)).bind fun p =>
        if p.1 = s.cycle (dieOf c.core) then (s.launch? p.2.1).map (·.ctx) else none
    else none
  { s with cohorts := s.cohorts.map fun c => match lost c with
      | some a => c.pending { group := 16, detail := a.setWidth 96, pc := none, recs := [], job := false }
      | none => c }

/-- The halt line of a context rises for a cause group (R226, R231). A cause raised while a handler runs leaves the context
stopped with DOUBLE set (R240). Of causes that arrive in one cycle, that of the lower core is the first, and a job's comes below
any cohort's (R231). -/
def State.halt (s : State) (k : BitVec 16) (group : BitVec 5) (core : BitVec 16) (pc : Word) : State :=
  let s := s.losePreempts k
  match s.ctx? k with
  | none => s
  | some x =>
    if x.halt then
      if x.inHandler then s.setCtx { x with inHandler := false, double := true, stopWritten := false }
      else if x.haltAt = s.cycles ∧ x.stopWritten = false ∧ x.double = false ∧ core.toNat < x.firstCore.toNat then
        s.setCtx { x with firstCause := group, firstCore := core, firstPc := pc }
      else s
    else
      s.setCtx { x with halt := true, haltAt := s.cycles, enginesStopped := false, stopWritten := false, inHandler := false,
                        double := false, stopNum := x.stopNum + 1, firstCause := group, firstCore := core, firstPc := pc }

/-- Whether a context's halt line is up; its MMAs and jobs do not move (R155, R229). -/
def State.halted (s : State) (k : BitVec 16) : Bool :=
  match s.ctx? k with
  | some x => x.halt
  | none => true

/-- TAKING A CAUSE (R226, R227, R234): $CAUSE, its 96-bit detail and $EPC are written, the per-lane records are kept for the
stop record, and the halt line of the context rises. Nothing else of the instruction is written. -/
def State.raise (s : State) (c : Cohort) (group : Nat) (detail : BitVec 96) (recs : List LaneRec) : State :=
  let pc := c.here.pc
  let e : PendEvent := { group := group, detail := detail, pc := some pc, recs := recs, job := false }
  let c' := { c.meet e with lastS := c.issuer, wait := .none }
  (s.setCohort c').halt c.ctx (BitVec.ofNat 5 group) (BitVec.ofNat 16 c.core) pc

/-- A cause whose detail is a reason at bit 64 (groups 10, 11, 12) or zero, with no lane record (R234). -/
def State.raiseReason (s : State) (c : Cohort) (group reason : Nat) : State :=
  s.raise c group (BitVec.ofNat 96 (reason * 2 ^ 64)) (c.plainRecs 0 group reason)

/-- The LGSZ field for an access of 2^n bytes: two bits hold 0 to 3 (R232, R234; log entry 15). -/
def lgField (n : Nat) : Nat := if n ≤ 3 then n else (Config.wideLgsz n).toNat

/-- A cause that names the elected lane alone (R234): lane mask, lowest lane, and the address in its record. -/
def State.raiseElected (s : State) (c : Cohort) (l : Nat) (group reason lgsz : Nat) (addr : DWord) : State :=
  let top := if group = 3 then l + lgField lgsz * 256 else l + reason * 256
  s.raise c group (BitVec.ofNat 96 (2 ^ l + top * 2 ^ 64)) (c.electedRecs l group reason (lgField lgsz) addr)

/-! ### The baton (R153, R359) -/

/-- Whether a pre-emption of a cohort's workgroup is under way (R244). -/
def State.preempted (s : State) (c : Cohort) : Bool := (s.wg? c.wg).any fun w => w.preempt.isSome

/-- The cohorts of a core that wait for the baton; a stop abandons the wait of every cohort of its context, and a pre-emption
that of its workgroup's, but not one that is satisfied in the stop's own cycle (R334, R359). -/
def State.takers (s : State) (core : Nat) : List Cohort :=
  s.cohorts.filter fun c => c.core == core && (c.wait == .baton || c.wait == .batonAgain) && !c.stopped && !s.preempted c &&
    !((s.ctx? c.ctx).any fun x => x.halt && !x.haltsNow s.cycles)

/-- The holder gives the baton up: it goes to the waiting taker with the highest $PRIO, then the oldest, or becomes free.
A BTAKE that obtains it completes (R153, R354, R358). -/
def State.passBaton (s : State) (core : Nat) : State :=
  match bestBy Cohort.ranksAbove (s.takers core) with
  | none => s.setCore { s.core core with baton := none }
  | some t =>
    let t' := if t.wait = .baton then t.complete else { t with wait := .none }
    (s.setCohort { t' with bwt := false, bheld := false }).setCore { s.core core with baton := some t.cid }

/-- Whether a cohort holds its core's baton. -/
def State.holdsBaton (s : State) (c : Cohort) : Bool := (s.core c.core).baton == some c.cid

/-! ### Accumulator banks (R150, R152) -/

/-- Whether an accepted MMA or EPI still touches a bank of a core. -/
def State.bankBusy (s : State) (core b : Nat) : Bool :=
  (s.core core).mmaQ.any (fun m => m.bank == b) ||
  s.jobs.any fun j => j.core == core && j.status != 3 && (match j.epi with
    | some e => e.bank == b
    | none => false)

/-- The end of a cohort's allocation: its banks are marked, and those that nothing touches return at once (R152). -/
def State.freeBanks (s : State) (c : Cohort) : State :=
  let k := s.core c.core
  let banks := k.banks.mapIdx fun b x =>
    if x.owner = some c.cid then (if s.bankBusy c.core b then { x with freed := true } else { owner := none, freed := false, vals := [] })
    else x
  s.setCore { k with banks := banks, bankQ := k.bankQ.filter fun q => q.1 != c.cid }

/-! ### BAR (R346, R347) -/

/-- The launch of a cohort. -/
def State.launchOf (s : State) (c : Cohort) : Option Launch := s.launch? c.launch

/-- Whether two resident cohorts of one launch lie in one instance of a scope, for BAR (R346). -/
def sameInstance (scope : Scope) (a b : Cohort) : Bool :=
  a.launch == b.launch && (match scope with
    | .wg => a.wg == b.wg
    | .core => a.core == b.core
    | .quad => a.wgid.toNat / 4 == b.wgid.toNat / 4
    | .die => dieOf a.core == dieOf b.core
    | .pkg => true
    | .pod => a.wg == b.wg)

/-- Whether a workgroup of the launch that is not resident still takes part in the instance: one not yet placed, or one
saved by pre-emption (R346). -/
def State.absentParticipant (s : State) (scope : Scope) (c : Cohort) : Bool :=
  let savedIn := s.saved.any fun v => v.wg.launch == c.launch && (match scope with
    | .wg => false
    | .core => v.wg.core == c.core
    | .quad => v.wg.wgid / 4 == c.wgid.toNat / 4
    | .die => v.die == dieOf c.core
    | .pkg => true
    | .pod => false)
  let unplaced := match s.launchOf c with
    | some l => l.shares.any fun h => h.next < h.stop && (match scope with
        | .die => h.die == dieOf c.core
        | .pkg => true
        | _ => false)
    | none => false
  savedIn || unplaced || s.parked.any fun p => p.launch == c.launch && (scope == .pkg || (scope == .die && p.die == dieOf c.core))

/-- Whether a cohort stands at a BAR of a scope. -/
def Cohort.atBar (c : Cohort) (scope : Scope) : Bool :=
  match c.wait with
  | .bar sc _ _ => sc == scope
  | _ => false

/-- A BAR completes in a cohort that stands at one: OD takes 0, or 1 on an abort, in every lane of M, and the slot advances
(R347, R348). -/
def Cohort.barDone (c : Cohort) (abort : Bool) : Cohort :=
  match c.wait with
  | .bar _ od m => (c.putPredOpt m od (if abort then m else 0)).complete
  | _ => c

/-- The phase of a BAR completes when every participant of the instance of a cohort has an arrival standing (R346, R347). -/
def State.barCheck (s : State) (scope : Scope) (c : Cohort) : State :=
  if !s.absentParticipant scope c && s.cohorts.all fun d => !sameInstance scope c d || d.atBar scope then
    { s with cohorts := s.cohorts.map fun d => if sameInstance scope c d && d.atBar scope then d.barDone false else d }
  else s

/-- The BAR.core of a launch on a core is judged again, when a cohort has left the core for another (R346). -/
def State.recheckCore (s : State) (launch core : Nat) : State :=
  match s.cohorts.find? fun d => d.launch == launch && d.core == core && d.atBar .core with
  | some d => s.barCheck .core d
  | none => s

/-! ### The end of a cohort (R31, R381) -/

/-- A workgroup whose last cohort has ended leaves its core: its tile region is free (R31). The region's full/empty bits stay until a
workgroup is admitted to it (R109). -/
def State.retireWg (s : State) (w : Wg) : State :=
  let s2 := { s with wgs := s.wgs.filter (fun v => v.id != w.id), colls := s.colls.filter fun (k : Coll) => k.wg != w.id || (k.ready && (s.job? k.id).isSome) }
  match s2.launch? w.launch with
  | some l => if w.role = .secondary then s2 else s2.setLaunch { l with exited := l.exited + 1 }
  | none => s2

/-- A cohort that has ended leaves: it gives up the baton, its banks and its requests, its wait-table entries are freed, and
it no longer takes part in barriers (R381, R346). Its place, budget and mapping blocks stay taken until the last cohort of its
workgroup exits (R31). -/
def State.retire (s : State) (c : Cohort) : State :=
  let s0 := s.setCohort c
  let s1 := if s0.holdsBaton c then s0.passBaton c.core else s0
  let s2 := s1.freeBanks c
  let s3 := { s2 with cohorts := s2.cohorts.filter (fun d => d.cid != c.cid),
                      waitTable := s2.waitTable.filter fun e => e.cid != c.cid }
  let s4 := [Scope.wg, .core, .quad, .die, .pkg].foldl (fun t sc =>
    match t.cohorts.find? fun d => sameInstance sc c d && d.atBar sc with
    | some d => t.barCheck sc d
    | none => t) s3
  match s4.wg? c.wg with
  | some w =>
    if w.live ≤ 1 then s4.retireWg w else s4.setWg { w with live := w.live - 1, gone := (c.place, c.budget, c.nreg) :: w.gone }
  | none => s4

/-- The open window closes early (R297). -/
def closeWindows (ws : List StoreWindow) : List StoreWindow := ws.map fun w => if w.closed then w else { w with closed := true, early := true }

/-- A cohort whose control state has changed: it goes on, or it leaves when it has ended (R34). One of an Indigo pair leaves once its store
windows, which its end closes, have been compared and performed (R134, R297). -/
def State.settleCohort (s : State) (c : Cohort) : State :=
  let c' := c.settle
  if c'.ended = false then s.setCohort c'
  else if c'.role = .single ∨ c'.windows = [] then s.retire c'
  else s.setCohort { c' with windows := closeWindows c'.windows, wait := .none }

/-- An instruction is done: its cohort is written back, its slot advances, and R34 applies. -/
def finish (s : State) (c : Cohort) : Out := .next (s.setCohort c.complete)

/-- The instruction cannot go on yet: its cohort is not ready, nothing else changes, and it is issued again later (R41). -/
def waitHere (s : State) (c : Cohort) : Out := .next (s.setCohort { c with wait := .retry })

/-- The cohort waits for another unit, which completes the instruction. -/
def waitFor (s : State) (c : Cohort) (w : Wait) : Out := .next (s.setCohort { c with wait := w })

/-- The instruction raises a cause (R226). -/
def raiseOut (s : State) (c : Cohort) (group : Nat) (detail : BitVec 96) (recs : List LaneRec) : Out :=
  .next (s.raise c group detail recs)

/-- The instruction raises a cause with a reason alone (R234). -/
def raiseR (s : State) (c : Cohort) (group reason : Nat) : Out := .next (s.raiseReason c group reason)

/-! ### Handlers (R239 to R241) -/

/-- ENTERING THE HANDLER (R239): the control state goes into KCTL, the trapped slot is the one that holds $EPC, S0 takes
HENTRY with the lanes of the live slots, S1 is empty and J is NONE. -/
def Cohort.enterHandler (c : Cohort) (hentry : Word) : Cohort :=
  let m (o : Option PcSlot) : Mask := match o with
    | some p => p.mask
    | none => 0
  let x := c.slot c.stopSlot
  { c with kctl := some { s0 := c.s0, s1 := c.s1, j := c.j, lastS := c.lastS, nStk := c.onChip, nSpill := c.nSpill, act := m x, rmw := c.rmw }, rmw := none,
           traps := c.stopSlot, left := none, hmode := true, s0 := liveSlot hentry ((m c.s0 ||| m c.s1) &&& ~~~c.dead), s1 := none,
           j := noneJ, lastS := false }

/-- The entries that TRET resumes: those with a mask, equal PCs merged into the first (R241). -/
def mergeEntries : List (Word × Mask) → List (Word × Mask)
  | [] => []
  | (p, m) :: rest =>
    let r := mergeEntries rest
    if m = 0 then r
    else match r.find? (·.1 == p) with
      | some (_, m') => (p, m ||| m') :: r.filter (·.1 != p)
      | none => (p, m) :: r

/-- RETURNING FROM A HANDLER (R241): the control state rebuilt from KCTL with ALT for the lanes the handler took out of
$ACTMASK; `none` when the stack has no room for the third entry. HMODE, $CAUSE and the detail are cleared. DESIGN CHOICE: the slot that counts
as the last issuer is that of the interrupted code (log entry 91). -/
def Cohort.leaveHandler (c : Cohort) (k : KCtl) (alt : Word) : Option Cohort :=
  let xs := if c.traps then k.s1 else k.s0
  let ys := if c.traps then k.s0 else k.s1
  let xm := match xs with
    | some p => p.mask
    | none => 0
  let m1 := k.act &&& xm &&& ~~~c.dead
  let m2 := xm &&& ~~~k.act &&& ~~~c.dead
  let other := match ys with
    | some p => [(p.pc, p.mask &&& ~~~c.dead)]
    | none => []
  let es := mergeEntries ([(c.epc, m1)] ++ other ++ [(alt, m2)])
  let slot (n : Nat) : Option PcSlot := (es[n]?).map fun e => { pc := e.1, mask := e.2 }
  let base := { c with s0 := slot 0, s1 := slot 1, j := k.j, hmode := false, kctl := none, cause := 0, caused0 := 0, caused1 := 0,
                       caused2 := 0, lastS := k.lastS, raised := false, rmw := k.rmw }
  match es[2]? with
  | none => some base
  | some e => base.push { pc := e.1, mask := e.2, outer := k.j }

end Sys2Proof.Machine
end

