-- ==== Sys2Proof/Machine/Operands.lean ====
section
/-!
DEFINITION. Machine/Operands.lean: reading and writing the operand fields of an instruction (R315 to R317, R331), guards and
the write mask (R319, R60), special registers (R52), and the shape of a result (R60).
-/

namespace Sys2Proof.Machine

/-! ### Guards and the write mask -/

/-- The lanes that pass the guard (R319). -/
def Cohort.guardMask (c : Cohort) (f : Fields) : Mask :=
  let one (g : Guard) : Mask := if g.neg then lanesMask c.width &&& ~~~c.pred g.pred else c.pred g.pred
  if f.gc then one f.ga ||| one f.gb else one f.ga &&& one f.gb

/-- The write mask M: the issuing slot's mask, the guard, and no dead lane (R60). -/
def Cohort.writeMask (c : Cohort) (f : Fields) : Mask := c.here.mask &&& c.guardMask f &&& ~~~c.dead

/-! ### Special registers (R52) -/

/-- The core whose identifiers a cohort reads: an Indigo secondary reads its primary's (R295). -/
def State.idCore (s : State) (c : Cohort) : Nat :=
  if c.role = .secondary then
    match c.twin.bind s.cohort? with
    | some t => t.core
    | none => c.core
  else c.core

/-- $ACTMASK as the cohort reads it: the mask of the issuing slot, or in a handler the trapped slot's saved mask (R240). -/
def Cohort.actmask (c : Cohort) : Mask :=
  match c.hmode, c.kctl with
  | true, some k => k.act
  | _, _ => c.here.mask

/-- A 32-bit special register with its shape (R52). -/
def State.special (s : State) (c : Cohort) (i : Nat) : VReg :=
  let k := s.idCore c
  match i with
  | 0x00 => .a 0 1
  | 0x01 => .u (BitVec.ofNat 32 c.width)
  | 0x02 => .u 64
  | 0x03 => .u c.wgid
  | 0x04 => .u c.chid
  | 0x05 => .u c.nch
  | 0x06 => .u (BitVec.ofNat 32 (k % 96))
  | 0x07 => .u (BitVec.ofNat 32 (k % 96 / 4))
  | 0x08 => .u (BitVec.ofNat 32 (k / 96))
  | 0x09 => .u s.pkgRank
  | 0x0A => .u s.mgen
  | 0x0B => .u (c.prio.setWidth 32)
  | 0x0E => .u c.vstat
  | 0x0F => .u c.arrive
  | 0x12 => .u (s.die (dieOf c.core)).lqver
  | 0x13 => .u (c.cause.setWidth 32)
  | 0x14 => .u c.caused0
  | 0x15 => .u c.caused1
  | 0x16 => .u c.caused2
  | 0x17 => .u c.epc
  | _ => .u 0

/-- A 64-bit special register (R52). -/
def State.special64 (s : State) (c : Cohort) (i : Nat) : DWord :=
  match i with
  | 0x0C => c.actmask
  | 0x0D => c.dead
  | 0x10 => BitVec.ofNat 64 (s.cycle (dieOf c.core))
  | 0x11 => c.srseed
  | _ => 0

/-! ### Source operands -/

/-- A source operand with its shape (R55, R316). -/
def State.src (s : State) (c : Cohort) (f : Fields) (o : Opnd) : VReg :=
  match o with
  | .v i => c.reg i.toNat
  | .pair i => c.reg i.toNat
  | .s i => s.special c i.toNat
  | .imm d => .u (d.signExtend 32)
  | .imm32 => .u f.imm
  | _ => .u 0

/-- A 64-bit source operand: a register pair, or an immediate sign-extended (R316). -/
def Cohort.src64 (c : Cohort) (f : Fields) (o : Opnd) : VReg × VReg :=
  match o with
  | .pair i => (c.reg i.toNat, c.reg (i.toNat + 1))
  | .imm d => (.u (DWord.lo (d.signExtend 64)), .u (DWord.hi (d.signExtend 64)))
  | .imm32 => (.u f.imm, .u (DWord.hi (f.imm.signExtend 64)))
  | _ => (.u 0, .u 0)

/-- The 64-bit value of a pair in a lane. -/
def lane64 (p : VReg × VReg) (l : Nat) : DWord := Word.pair (p.1.lane l) (p.2.lane l)

/-- A 32-bit operand read in the elected lane of a mask (R164). -/
def State.atElected (s : State) (c : Cohort) (f : Fields) (o : Opnd) (m : Mask) : Word := (s.src c f o).lane (elect m)

/-- A 64-bit operand read in the elected lane of a mask. -/
def Cohort.addrElected (c : Cohort) (f : Fields) (o : Opnd) (m : Mask) : DWord := lane64 (c.src64 f o) (elect m)

/-- A predicate operand's bits; anything else is no lane. -/
def Cohort.predOf (c : Cohort) (o : Opnd) : Mask :=
  match o with
  | .p i => c.pred i
  | _ => 0

/-- A displacement, sign-extended to 64 bits (R96, R342). -/
def dispOf (f : Fields) (o : Opnd) : DWord :=
  match o with
  | .imm d => d.signExtend 64
  | .imm32 => f.imm.signExtend 64
  | _ => 0

/-- The effective address of a lane: base zero-extended or a pair, plus the displacement (R96). -/
def Cohort.ea (c : Cohort) (f : Fields) (b d : Opnd) (l : Nat) : DWord :=
  match b with
  | .pair i => Word.pair ((c.reg i.toNat).lane l) ((c.reg (i.toNat + 1)).lane l) + dispOf f d
  | .v i => ((c.reg i.toNat).lane l).setWidth 64 + dispOf f d
  | _ => dispOf f d

/-- Whether the base of an address is U in every half. -/
def Cohort.baseU (c : Cohort) (b : Opnd) : Bool :=
  match b with
  | .pair i => (c.reg i.toNat).isU && (c.reg (i.toNat + 1)).isU
  | .v i => (c.reg i.toNat).isU
  | _ => true

/-! ### Destinations -/

/-- The register a destination names. -/
def opndIndex : Opnd → Nat
  | .v i => i.toNat
  | .pair i => i.toNat
  | .p i => i.toNat
  | .t i => i.toNat
  | .s i => i.toNat
  | _ => 0

/-- The shape of a full result (R60): G under `.sr`; the affine form where a rule gives one; U when every source is U; else G. -/
def Cohort.resultShape (c : Cohort) (sr : Bool) (srcs : List VReg) (affine : Option VReg) (lane : Nat → Word) : VReg :=
  if sr then c.general lane
  else if srcs.all VReg.isU then .u (lane 0)
  else match affine with
    | some r => r
    | none => c.general lane

/-- Writes a lane result to a V destination under the write mask. -/
def Cohort.putLanes (c : Cohort) (m : Mask) (od : Opnd) (srcs : List VReg) (affine : Option VReg) (lane : Nat → Word) : Cohort :=
  c.putVec m (opndIndex od) lane (c.resultShape false srcs affine lane)

/-- Writes a 64-bit lane result to a pair destination: U in both halves if every source half is U, else G (R60, rule 3). -/
def Cohort.putLanes64 (c : Cohort) (m : Mask) (od : Opnd) (srcs : List VReg) (lane : Nat → DWord) : Cohort :=
  let lo (l : Nat) := DWord.lo (lane l)
  let hi (l : Nat) := DWord.hi (lane l)
  let c1 := c.putVec m (opndIndex od) lo (c.resultShape false srcs none lo)
  c1.putVec m ((opndIndex od) + 1) hi (c1.resultShape false srcs none hi)

/-- A destination written by one value in every lane that is not dead, or none (R340). -/
def Cohort.putUniformOpt (c : Cohort) (o : Opnd) (x : Word) : Cohort :=
  match o with
  | .v i => c.putUniform i.toNat x
  | _ => c

/-- A register or a predicate destination takes a truth value per lane: a register takes 1 or 0 (R320; ICMP, FCMP, VOTE). -/
def Cohort.putTruth (c : Cohort) (m : Mask) (od : Opnd) (srcs : List VReg) (bit : Nat → Bool) : Cohort :=
  match od with
  | .p i => c.putPred m i (maskOf fun l => m.getLsbD l && bit l)
  | _ => c.putLanes m od srcs none fun l => if bit l then 1 else 0

/-- A vector instruction without flags: its result in the write mask, and the slot advances. -/
def vecOut (s : State) (c : Cohort) (f : Fields) (srcs : List VReg) (affine : Option VReg) (lane : Nat → Word) : Out :=
  finish s (c.putLanes (c.writeMask f) f.od srcs affine lane)

end Sys2Proof.Machine
end

