-- ==== Sys2Proof/Machine/Records.lean ====
section
/-!
DEFINITION. Machine/Records.lean: the images of a cohort in memory: register images (R69, R70), context records (R233),
per-lane fault records (R232) and continuation records (R217), written and read back (R68, R218).
-/

namespace Sys2Proof.Machine

/-- A number made of fields at bit offsets. -/
def packBits (fs : List (Nat × Nat)) : Nat := fs.foldl (fun acc f => acc + f.2 * 2 ^ f.1) 0

/-- Bits `[hi:lo]` of a number. -/
def bitsOf (x hi lo : Nat) : Nat := x / 2 ^ lo % 2 ^ (hi - lo + 1)

/-- One bit for a truth value. -/
def bit01 (b : Bool) : Nat := if b then 1 else 0

/-- Bytes padded with zeros to a multiple of 64 (R70). -/
def pad64 (bs : List Byte) : List Byte := bs ++ List.replicate ((64 - bs.length % 64) % 64) 0

/-- The four bytes of a word. -/
def wordBytes (w : Word) : List Byte := natBytes 4 w.toNat

/-! ### Register images (R69) -/

/-- The body of a register: U its value, A base then stride, G 64 words with zero in dead lanes and at or above w (R62, R69). -/
def Cohort.body (c : Cohort) (v : VReg) : List Byte :=
  match v with
  | .u x => wordBytes x
  | .a b st => wordBytes b ++ wordBytes st
  | .g ws => (List.range 64).flatMap fun l => wordBytes (if l < c.width ∧ c.dead.getLsbD l = false then ws.getD l 0 else 0)

/-- The size of a body by its tag. -/
def bodySize (tag : Nat) : Nat := match tag with
  | 0 => 4
  | 1 => 8
  | _ => 256

/-- A register read back from its body; tag A with stride 0 is U of its base (R55). -/
def bodyOf (width tag : Nat) (bs : List Byte) : VReg :=
  let w (i : Nat) : Word := BitVec.ofNat 32 (leNat ((bs.drop (4 * i)).take 4))
  match tag with
  | 0 => .u (w 0)
  | 1 => VReg.affine (w 0) (w 1)
  | _ => .g ((List.range width).map w)

/-- Registers read back in a row, each by its tag, with the bytes that remain. -/
def bodiesOf (width : Nat) : List Nat → List Byte → List VReg × List Byte
  | [], bs => ([], bs)
  | t :: ts, bs =>
    let r := bodiesOf width ts (bs.drop (bodySize t))
    (bodyOf width t bs :: r.1, r.2)

/-- The 64 bytes of tags (R69). -/
def Cohort.tagBytes (c : Cohort) : List Byte :=
  natBytes 64 (packBits ((List.range c.nreg).map fun i => (2 * i, (c.reg i).tag)))

/-- The 64 bytes of predicates (R69). -/
def Cohort.predBytes (c : Cohort) : List Byte :=
  (List.range 7).flatMap (fun i => natBytes 8 (c.preds.getD i 0).toNat) ++ List.replicate 8 0

/-- A stack entry in the layout of R32. -/
def entryBytes (e : StackEntry) : List Byte := wordBytes e.pc ++ natBytes 8 e.mask.toNat ++ wordBytes e.outer

/-- The entry of 16 bytes. -/
def entryOf (bs : List Byte) : StackEntry :=
  let x := leNat (bs.take 16)
  { pc := BitVec.ofNat 32 x, mask := BitVec.ofNat 64 (bitsOf x 95 32), outer := BitVec.ofNat 32 (bitsOf x 127 96) }

/-- The compact image (R69). -/
def Cohort.image (c : Cohort) : List Byte :=
  c.tagBytes ++ c.predBytes ++ (List.range c.nreg).flatMap (fun i => c.body (c.reg i)) ++
    ((c.stack.take c.onChip).reverse).flatMap entryBytes

/-! ### Context records (R233) -/

/-- PC and mask of a slot as numbers, zero when empty. -/
def slotNum (o : Option PcSlot) : Nat × Nat := match o with
  | some p => (p.pc.toNat, p.mask.toNat)
  | none => (0, 0)

/-- Control state as bits [255:0] (R233). -/
def ctlBits (s0 s1 : Option PcSlot) (j : Word) (lastS : Bool) (nStk nSpill : Nat) : Nat :=
  packBits [(0, (slotNum s0).2), (64, (slotNum s1).2), (128, (slotNum s0).1), (160, (slotNum s1).1), (192, j.toNat),
            (224, bit01 s0.isSome), (225, bit01 s1.isSome), (226, bit01 lastS), (232, nStk), (240, nSpill)]

/-- The 512-byte header (R233). -/
def Cohort.header (c : Cohort) : Nat :=
  let kctl := match c.kctl with
    | some k => ctlBits k.s0 k.s1 k.j k.lastS k.nStk k.nSpill
    | none => 0
  packBits ([(0, ctlBits c.s0 c.s1 c.j c.lastS c.onChip c.nSpill), (256, c.dead.toNat), (320, c.srseed.toNat), (384, c.vstat.toNat),
    (416, c.arrive.toNat), (448, c.epc.toNat), (480, c.cause.toNat), (512, c.caused0.toNat), (544, c.caused1.toNat),
    (576, c.caused2.toNat), (608, c.lastBatch.toNat), (640, (c.handle.getD 0).toNat), (672, bit01 c.bheld), (673, bit01 c.bwt),
    (674, c.accReq), (680, c.prio.toNat), (684, bit01 c.hmode), (688, c.nreg), (720, bit01 (c.hmode && c.traps)),
    (736, c.pend.toNat), (1280, if c.hmode then kctl else 0)] ++
    ((List.range 16).map fun k => (704 + k, bit01 (c.tiles.getD k none).isSome)) ++
    ((List.range 16).map fun k => (768 + 32 * k, ((c.tiles.getD k none).getD 0).toNat)))

/-- A context record, not padded (R70). -/
def Cohort.record (c : Cohort) : List Byte := natBytes 512 c.header ++ c.image

/-- A per-lane fault record (R232). -/
def laneRecBytes (r : LaneRec) : List Byte :=
  natBytes 32 (packBits [(0, r.cause), (5, r.lgsz), (8, r.state), (12, r.reason), (128, r.pc.toNat), (192, r.addr.toNat)])

/-- A cohort's stop record: its context record as stored (R70) and w per-lane records (R232), padded (R231). -/
def Cohort.stopRecord (c : Cohort) : List Byte :=
  let recs := if c.raised then c.laneRecs else []
  pad64 (pad64 c.record ++ (List.range c.width).flatMap fun l => laneRecBytes (recs.getD l LaneRec.zero))

/-- A slot read back from a header. -/
def slotOf (c : Cohort) (live pc mask : Nat) : Option PcSlot :=
  if live = 0 then none else liveSlot (BitVec.ofNat 32 pc) (BitVec.ofNat 64 mask &&& lanesMask c.width &&& ~~~c.dead)

/-- A cohort rebuilt from its context record: registers with their tags, predicates, PC slots, J, $EPC and the on-chip stack
come from the record, which the runtime may have edited; the rest is as the cohort held it (R68, R242). `none` when a
tag code is 11 (R55). -/
def Cohort.restoreFrom (c : Cohort) (bs : List Byte) : Option Cohort :=
  let h := leNat (bs.take 512)
  let tagNum := leNat ((bs.drop 512).take 64)
  let tags := (List.range c.nreg).map fun i => bitsOf tagNum (2 * i + 1) (2 * i)
  if tags.contains 3 then none
  else
    let preds := (List.range 7).map fun i => BitVec.ofNat 64 (leNat (((bs.drop 576).drop (8 * i)).take 8)) &&& lanesMask c.width
    let b := bodiesOf c.width tags (bs.drop 640)
    let entry (i : Nat) : StackEntry := let e := entryOf (b.2.drop (16 * i)); { e with mask := e.mask &&& lanesMask c.width }
    let entries := ((List.range c.onChip).map entry).reverse
    some { c with regs := b.1, preds := preds, stack := entries ++ c.stack.drop c.onChip, latch := none,
                  s0 := slotOf c (bitsOf h 224 224) (bitsOf h 159 128) (bitsOf h 63 0),
                  s1 := slotOf c (bitsOf h 225 225) (bitsOf h 191 160) (bitsOf h 127 64),
                  j := BitVec.ofNat 32 (bitsOf h 223 192), epc := BitVec.ofNat 32 (bitsOf h 479 448) }

/-! ### Continuation records (R217) -/

/-- The record that PARK writes: fixed part, predicates, and the listed registers' bodies, padded as it is stored (R70). -/
def Cohort.parkRecord (c : Cohort) (list : List Nat) (handle : Word) (res : Option Nat) (queue : Nat) (seq : Word) (kdesc : DWord) : List Byte :=
  let fixed := packBits ([(0, seq.toNat), (48, queue), (64, kdesc.toNat), (176, list.length), (288, c.wgid.toNat),
    (320, (c.here.pc + 1).toNat), (368, bit01 res.isSome), (376, res.getD 0), (384, c.prio.toNat), (416, c.arrive.toNat),
    (448, c.vstat.toNat), (480, handle.toNat), (640, c.here.mask.toNat), (704, c.dead.toNat), (768, c.srseed.toNat)] ++
    (list.mapIdx fun i r => (192 + 2 * i, (c.reg r).tag)) ++ (list.mapIdx fun i r => (512 + 8 * i, r)))
  pad64 (natBytes 128 fixed ++ c.predBytes ++ list.flatMap fun r => c.body (c.reg r))

/-- The registers of a continuation record put into a cohort in list order, so that a later copy stands (R217). -/
def putListed (c : Cohort) : List Nat → List VReg → Cohort
  | r :: rs, v :: vs => putListed { c with regs := c.regs.set r v } rs vs
  | _, _ => c

/-- A cohort rebuilt from a continuation record, with its completion value (R218); `none` when a tag code is 11. Reserved bits of
$VSTAT and lanes at or above w read as zero (R3, R19). -/
def Cohort.unparkFrom (c : Cohort) (bs : List Byte) (value : Word) : Option Cohort :=
  let h := leNat (bs.take 128)
  let n := bitsOf h 180 176
  let tags := (List.range n).map fun i => bitsOf h (193 + 2 * i) (192 + 2 * i)
  let list := (List.range n).map fun i => bitsOf h (519 + 8 * i) (512 + 8 * i)
  if tags.contains 3 then none
  else
    let dead := BitVec.ofNat 64 (bitsOf h 767 704) &&& lanesMask c.width
    let c0 := { c with
      dead := dead, preds := (List.range 7).map fun i => BitVec.ofNat 64 (leNat (((bs.drop 128).drop (8 * i)).take 8)) &&& lanesMask c.width,
      regs := List.replicate c.nreg (.u 0), s0 := liveSlot (BitVec.ofNat 32 (bitsOf h 351 320)) (BitVec.ofNat 64 (bitsOf h 703 640) &&& lanesMask c.width &&& ~~~dead),
      s1 := none, j := noneJ, prio := BitVec.ofNat 4 (bitsOf h 387 384), vstat := BitVec.ofNat 32 (bitsOf h 479 448) &&& 0x1F3F,
      arrive := BitVec.ofNat 32 (bitsOf h 447 416), srseed := BitVec.ofNat 64 (bitsOf h 831 768) }
    let c1 := putListed c0 list (bodiesOf c.width tags (bs.drop 192)).1
    some (if bitsOf h 368 368 = 1 then c1.putUniform (bitsOf h 383 376) value else c1)

end Sys2Proof.Machine
end

