-- ==== Sys2Proof/Machine/HostRegs.lean ====
section
/-!
DEFINITION. Machine/HostRegs.lean: die 0's register space (R306, R308, R309), as the host and device accesses of its range see
it: the mailbox, the notify page (R200), the membership page (R248) and the reward page (R278).
-/

namespace Sys2Proof.Machine

/-! ### Physical ranges (R100) -/

/-- First address of the vaults, of die 0's register space, and of host memory. -/
def vaultBase : Nat := 0x8000000000000
/-- First address of die 0's register space. -/
def regBase : Nat := 0x8000800000000
/-- First address of host memory. -/
def hostBase : Nat := 0xC000000000000

/-- Whether a physical address lies in die 0's register space. -/
def inRegs (pa : Nat) : Bool := regBase ≤ pa && pa < regBase + 0x8000

/-- The offset in the register space of a physical address in it. -/
def regOff (key : Nat) : Nat := key - regBase

/-! ### Join units -/

/-- A reward join unit before registration (R273, R280). -/
def JoinUnit.init (d : Nat) : JoinUnit :=
  { die := d, accepted := false, ctx := 0, store := 0, nent := 0, trunc := false, smax := 0, orphto := 0, jointo := 0, gamma := 0,
    lambda := 0, c := 0, entries := [], orphans := [], hold := [], queue := [], counts := List.replicate 12 0 }

/-- A die's reward join unit. -/
def State.join (s : State) (d : Nat) : JoinUnit := (s.joins.find? (·.die == d)).getD (JoinUnit.init d)

/-- Replaces a reward join unit. -/
def State.setJoin (s : State) (u : JoinUnit) : State := { s with joins := upsertBy JoinUnit.die u s.joins }

/-- A 32-bit saturating count goes up by `k` (R289). -/
def satAdd (x k : Nat) : Nat := min (x + k) 0xFFFFFFFF

/-- Count `i` of R289 goes up. -/
def JoinUnit.count (u : JoinUnit) (i k : Nat) : JoinUnit := { u with counts := u.counts.set i (satAdd (u.counts.getD i 0) k) }

/-! ### The notify page (R200) -/

/-- A notify write: WIDX is recorded when it lies from E + 1 to E + 2^(LOGSZ + 4) and the queue is registered and not broken;
any other is ignored (R200). -/
def State.notify (s : State) (q : Nat) (value : DWord) : State :=
  match s.queue? q with
  | none => s
  | some k =>
    let w := DWord.lo value
    let d := (w - k.next).toNat
    if k.broken = false ∧ 1 ≤ d ∧ d ≤ 2 ^ (k.logsz + 4) then (s.setQueue { k with widx := some w }).postEvent 0 (.notify q w) else s

/-! ### The membership page (R248) -/

/-- Whether STEPDONE may take step `v`: SEAL(v − 1) has arrived, or v − 1 is the STEP of the table last adopted (R248). -/
def State.stepOpen (s : State) (v : Word) : Bool :=
  (match s.sealed with
   | some t => (t - (v - 1)).toNat < 2 ^ 31
   | none => false) ||
  (match s.adopted with
   | some t => t.step == v - 1
   | none => false)

/-- A STEPDONE write is recorded: it is the boundary of its step, where view(step) opens (R248, R263). -/
def State.recordStep (s : State) (v : Word) : State :=
  { s with stepdone := v, views := { step := v, images := [], dropped := [] } :: s.views }

/-- A write of the membership page that can be decided now; `none` when it must be held (R248). -/
def State.memPageApply (s : State) (off : Nat) (value : DWord) : Option State :=
  let v := DWord.lo value
  if off = 0 then
    if v ≠ s.stepdone + 1 then some s
    else if s.stepOpen v then some (s.recordStep v) else none
  else if off = 8 then
    let up := (v - s.ckpt).toNat
    if 1 ≤ up ∧ up < 2 ^ 31 ∧ (s.stepdone - v).toNat < 2 ^ 31 then some { s with ckpt := v } else some s
  else some s

/-- A write of the membership page: it waits behind a held STEPDONE write, or is held itself, or is decided (R248). -/
def State.memPageWrite (s : State) (cid : Option Nat) (off : Nat) (value : DWord) : State :=
  if s.heldWrites ≠ [] then { s with heldWrites := s.heldWrites ++ [(cid, off, value)] }
  else match s.memPageApply off value with
    | some t => t
    | none => { s with heldWrites := [(cid, off, value)] }

/-- Held writes are decided in order, as far as they can be (R248). -/
def drainHeld : State → List (Option Nat × Nat × DWord) → State
  | s, [] => { s with heldWrites := [] }
  | s, h :: hs =>
    match s.memPageApply h.2.1 h.2.2 with
    | some t => drainHeld t hs
    | none => { s with heldWrites := h :: hs }

/-! ### The register space as bytes -/

/-- A byte of the register space as it reads (R308). -/
def State.hostByte (s : State) (off : Nat) : Byte :=
  let of8 (v : DWord) : Byte := (v >>> (8 * (off % 8))).setWidth 8
  if off < 8 then of8 s.bootstat
  else if 0x1000 ≤ off ∧ off < 0x2000 then
    let o := off - 0x1000
    if o < 8 then of8 s.mailbox.cmd
    else if o < 16 then of8 s.mailbox.result
    else if 64 ≤ o then memByte s.mailbox.payload (o - 64)
    else 0
  else if 0x2000 ≤ off ∧ off < 0x4000 then
    match s.queue? ((off - 0x2000) / 8) with
    | some q => of8 (((q.widx.getD 0).setWidth 64))
    | none => 0
  else if 0x4000 ≤ off ∧ off < 0x4008 then of8 (s.stepdone.setWidth 64)
  else if 0x4008 ≤ off ∧ off < 0x4010 then of8 (s.ckpt.setWidth 64)
  else 0

/-- Bytes of the register space. -/
def State.hostRead (s : State) (off n : Nat) : Nat := leNat ((List.range n).map fun i => s.hostByte (off + i))

/-- The 64-bit value that a write of `n` bytes at an offset leaves in its register: the bytes it does not write keep what they
read as (log entry 13). -/
def State.mergedReg (s : State) (off n v : Nat) : DWord :=
  let base := off / 8 * 8
  BitVec.ofNat 64 (leNat ((List.range 8).map fun i =>
    if off ≤ base + i ∧ base + i < off + n then BitVec.ofNat 8 (v / 256 ^ (base + i - off)) else s.hostByte (base + i)))

/-- The opcodes of the mailbox (R309). -/
def mailOpcs : List Nat := [1, 2, 3, 4, 5, 6, 7, 8, 9, 10, 11, 12]

/-- A write of CMD: ignored while GO = 1; an unknown command completes at once with status 3; any other with GO = 1 waits for
the front end (R309, R221). -/
def State.mailCmd (s : State) (v : DWord) : State :=
  let c : DWord := v &&& 0x8000FFFF000000FF
  if s.mailbox.cmd.getLsbD 63 then s
  else if c.getLsbD 63 = false then { s with mailbox := { s.mailbox with cmd := c } }
  else if mailOpcs.contains (c.toNat % 256) then { s with mailbox := { s.mailbox with cmd := c } }.postEvent 0 (.mailbox false)
  else { s with mailbox := { s.mailbox with cmd := c &&& 0x7FFFFFFFFFFFFFFF, result := 3 } }

/-- A write of `n` bytes at an offset of the register space by the host, or by a device access of the same size (R100, R308).
Writes of read-only or unlisted offsets are ignored (R3, R6). DESIGN CHOICE: R309 gives the RESULT word of the mailbox no access code; a write of
it is ignored, as of a read-only word (log entry 88). -/
def State.hostWrite (s : State) (cid : Option Nat) (off n v : Nat) : State :=
  if 0x1000 ≤ off ∧ off < 0x1008 then s.mailCmd (s.mergedReg off n v)
  else if 0x1040 ≤ off ∧ off < 0x2000 then
    { s with mailbox := { s.mailbox with payload := memPut s.mailbox.payload (off - 0x1040) n v } }
  else if 0x2000 ≤ off ∧ off < 0x4000 then s.notify ((off - 0x2000) / 8) (s.mergedReg off n v)
  else if 0x4000 ≤ off ∧ off < 0x4010 then s.memPageWrite cid (off / 8 * 8 - 0x4000) (s.mergedReg off n v)
  else if 0x5000 ≤ off ∧ off < 0x6000 then s.setJoin ((s.join 0).count 9 1)
  else s

/-- Whether a write by a cohort to the membership page is still held (R248). -/
def State.holdsWrite (s : State) (cid : Nat) : Bool := s.heldWrites.any fun h => h.1 == some cid

end Sys2Proof.Machine
end

