-- ==== Sys2Proof/Machine/Mem.lean ====
section
/-!
DEFINITION. Machine/Mem.lean: translation (R98 to R100, R113 to R118), the caches a lane access meets (R104, R105, R108),
writes and the amber views that see them (R263), and the code fetch (R313, R324).
-/

namespace Sys2Proof.Machine

/-! ### Page frames (R100) -/

/-- Whether a frame of a size lies in the HBM, host or register range (R114). -/
def frameOk (frame size mt : Nat) : Bool :=
  frame + size ≤ 2 ^ 41 || (hostBase ≤ frame && frame + size ≤ 2 ^ 52) ||
  (regBase ≤ frame && frame + size ≤ regBase + 0x8000 && size == 8192 && mt == 2)

/-! ### L2 slices (R101, R102, R106, R292, R301) -/

/-- The home of a line: a die, the slice that its address names, and the set (R101, R102). Vault lines and registers have none. -/
def homeIndex (k : Nat) : Option (Nat × Nat × Nat) :=
  let place (n : Nat) : Nat × Nat := (n % 48, n / 48 % 1024)
  if k < 2 ^ 41 then some (k / 2 ^ 37, place (k / 128 % 2 ^ 30))
  else if hostBase ≤ k ∧ k < 2 ^ 52 then some (0, place ((k - hostBase) / 128))
  else none

/-- The home slice of a line now: a retired slice's lines pass to the next slice of the die in ascending order, modulo 48, that is not
retired (R301). -/
def State.homeOf (s : State) (k : Nat) : Option (Nat × Nat × Nat) :=
  match homeIndex k with
  | none => none
  | some (d, slice, set) =>
    (((List.range 48).map fun i => (slice + i) % 48).find? fun i => !(s.die d).retired.contains i).map fun i => (d, i, set)

/-- A set of an L2 slice: its bitmap and counts (R301). -/
def State.l2Set (s : State) (die slice set : Nat) : L2Set :=
  (s.l2sets.find? fun x => x.die == die && x.slice == slice && x.set == set).getD
    { die := die, slice := slice, set := set, disabled := 0, counts := List.replicate 16 0 }

/-- Replaces a set of an L2 slice. -/
def State.setL2Set (s : State) (x : L2Set) : State :=
  { s with l2sets := x :: s.l2sets.filter fun y => !(y.die == x.die && y.slice == x.slice && y.set == x.set) }

/-- Ways of a set that may hold lines: 16 less the disabled ones (R301). -/
def L2Set.ways (x : L2Set) : Nat := ((List.range 16).filter fun w => !x.disabled.getLsbD w).length

/-- Whether L2 holds the line of an address. -/
def State.inL2 (s : State) (k : Nat) : Bool := s.l2.any fun x => x.line == k / 128

/-- The line that leaves a full set: one that is first to evict, else a normal one, else one that is last to evict; among equals the least
recently used (R106; log entry 6). `same` is the set, most recent first. -/
def l2Victim (same : List L2Line) : Option L2Line :=
  let rank (x : L2Line) : Nat := if x.pol = 1 then 0 else if x.pol = 2 then 2 else 1
  bestBy (fun a b => rank a < rank b) same.reverse

/-- An access through a page of type N uses its line in L2, or brings it in unless its hint forbids that (R101, R102, R106). -/
def State.noteLine (s : State) (key : Nat) (mt pol : BitVec 2) : State :=
  if mt ≠ 0 then s
  else match s.homeOf key with
  | none => s
  | some h =>
    let n := key / 128
    match s.l2.find? (·.line == n) with
    | some x => { s with l2 := { x with pol := if pol = 3 then x.pol else pol } :: s.l2.filter (·.line != n) }
    | none =>
      let same := s.l2.filter fun x => s.homeOf (128 * x.line) == some h
      if pol = 3 then s
      else if same.length < (s.l2Set h.1 h.2.1 h.2.2).ways then { s with l2 := { line := n, pol := pol } :: s.l2 }
      else match l2Victim same with
      | some v => { s with l2 := { line := n, pol := pol } :: s.l2.erase v }
      | none => s

/-- Every line of a run of bytes is used in L2. -/
def State.noteRun (s : State) (key n : Nat) (mt pol : BitVec 2) : State :=
  if mt ≠ 0 then s else (List.range ((key + n + 127) / 128 - key / 128)).foldl (fun t i => t.noteLine (key / 128 * 128 + 128 * i) mt pol) s

/-- The unit that held the bad data of an address, with its location (R292): tile memory of a core, a vault, the L2 slice that holds the
line, or its HBM stack. A bad host line outside L2 names its home slice. -/
def State.unitOfKey (s : State) (k : Nat) : Nat × Nat :=
  let slice : Nat × Nat := match s.homeOf k with
    | some h => (5 * 8192 + 48 * h.1 + h.2.1, 0)
    | none => (5 * 8192, 0)
  if 2 ^ 52 ≤ k then (0xE000 + 2, (k - 2 ^ 52) / 2 ^ 20)
  else if vaultBase ≤ k ∧ k < vaultBase + 2 ^ 36 then (0xE000 + 7, (k - vaultBase) / 2 ^ 26)
  else if s.inL2 k ∨ 2 ^ 41 ≤ k then slice
  else (0xE000 + 8, 2 * (k / 2 ^ 37) + k / 4096 % 2)

/-! ### Page-table entries (R113, R114) -/

/-- Bits `[hi:lo]` of an entry. -/
def pteBits (e : Nat) (hi lo : Nat) : Nat := e / 2 ^ lo % 2 ^ (hi - lo + 1)

/-- What a walk finds. -/
inductive WalkOut where
  /-- a leaf, whether P = 1 -/
  | leaf (e : TlbEntry) (p : Bool)
  /-- V = 0 or a bad entry -/
  | bad
  /-- an uncorrectable error in the entry at an address -/
  | poisoned (addr : Nat)
deriving DecidableEq, Repr

/-- One level of the walk judged (R114): the next table, a leaf, or the end of the walk. -/
def judgeEntry (ctx : BitVec 16) (level va addr e : Nat) : WalkOut ⊕ Nat :=
  let size := 2 ^ (13 + 10 * (3 - level))
  let frame := pteBits e 51 13 * 8192
  let mt := pteBits e 53 52
  if pteBits e 0 0 = 0 then .inl .bad
  else if pteBits e 63 54 ≠ 0 ∨ pteBits e 12 7 ≠ 0 then .inl .bad
  else if pteBits e 1 1 = 0 then
    if level = 3 ∨ mt ≠ 0 ∨ pteBits e 6 2 ≠ 0 then .inl .bad else .inr frame
  else if level = 0 ∨ frame % size ≠ 0 ∨ !frameOk frame size mt then .inl .bad
  else .inl (.leaf { ctx := ctx, va := va / size * size, size := size, frame := frame, mt := BitVec.ofNat 2 mt,
                     x := pteBits e 4 4 = 1, w := pteBits e 3 3 = 1, leaf := addr } (pteBits e 2 2 = 1))

/-- A walk over the levels that remain, with the table entries that a walk cache holds (R115). -/
def walkLevels (s : State) (ctx : BitVec 16) (cache : List WalkEntry) (va : Nat) : List Nat → Nat → WalkOut
  | [], _ => .bad
  | k :: ks, table =>
    let addr := table + 8 * (va / 2 ^ (43 - 10 * k) % 1024)
    match cache.find? fun w => w.ctx == ctx && w.addr == addr && w.va ≤ va && va < w.va + w.size with
    | some w =>
      match judgeEntry ctx k va addr w.val.toNat with
      | .inl r => r
      | .inr t => walkLevels s ctx cache va ks t
    | none =>
      if s.poisoned addr 8 then .poisoned addr
      else match judgeEntry ctx k va addr (memNat s.mem addr 8) with
        | .inl r => r
        | .inr t => walkLevels s ctx cache va ks t

/-- The table entries of levels 0 to 2 that a walk reads, for the walk cache (R115). -/
def walkReads (s : State) (ctx : BitVec 16) (va : Nat) : List Nat → Nat → List WalkEntry
  | [], _ => []
  | k :: ks, table =>
    let addr := table + 8 * (va / 2 ^ (43 - 10 * k) % 1024)
    let e := memNat s.mem addr 8
    let size := 2 ^ (13 + 10 * (3 - k))
    match judgeEntry ctx k va addr e with
    | .inr t => { ctx := ctx, va := va / size * size, size := size, addr := addr, val := BitVec.ofNat 64 e } :: walkReads s ctx va ks t
    | _ => []

/-- The entry of a TLB that covers an address. -/
def tlbFind (tlb : List TlbEntry) (ctx : BitVec 16) (va : Nat) : Option TlbEntry :=
  tlb.find? fun e => e.ctx == ctx && e.va ≤ va && va < e.va + e.size

/-- Where a translation is made: a lane or fetch of a core, engine traffic of a die (R115, R117), or the front end, which
holds no translations. -/
inductive XPort where
  | core (k : Nat)
  | die (d : Nat)
  | front
deriving DecidableEq, Repr

/-- The translation of a paged address: the TLBs, then the walk (R115). -/
def State.walk (s : State) (p : XPort) (x : Ctx) (va : Nat) : WalkOut :=
  match p with
  | .core k =>
    match tlbFind (s.core k).tlb x.ctxid va with
    | some e => .leaf e true
    | none =>
      match tlbFind (s.quad (quadOf k)).tlb x.ctxid va with
      | some e => .leaf e true
      | none => walkLevels s x.ctxid (s.quad (quadOf k)).walk va [0, 1, 2, 3] x.root
  | .die d =>
    match tlbFind (s.die d).walk x.ctxid va with
    | some e => .leaf e true
    | none => walkLevels s x.ctxid [] va [0, 1, 2, 3] x.root
  | .front => walkLevels s x.ctxid [] va [0, 1, 2, 3] x.root

/-- A fully associative TLB takes an entry: newest first, within its size (R115; log entry 7). -/
def tlbFill (cap : Nat) (e : TlbEntry) (tlb : List TlbEntry) : List TlbEntry :=
  if tlb.contains e then tlb else (e :: tlb).take cap

/-- The set of an 8-way TLB: the low bits of the virtual page number of the entry's page (R115; log entry 7). -/
def tlbSet (sets : Nat) (e : TlbEntry) : Nat := e.va / e.size % sets

/-- An 8-way TLB takes an entry: the newest eight of its set stay (R115). -/
def tlbFill8 (sets : Nat) (e : TlbEntry) (tlb : List TlbEntry) : List TlbEntry :=
  if tlb.contains e then tlb
  else
    let same := (tlb.filter fun x => tlbSet sets x == tlbSet sets e).take 7
    e :: tlb.filter fun x => tlbSet sets x != tlbSet sets e || same.contains x

/-- The addresses of the table entries that a walk reads, to its end, past those that a walk cache holds (R115). -/
def walkAddrs (s : State) (ctx : BitVec 16) (cache : List WalkEntry) (va : Nat) : List Nat → Nat → List Nat
  | [], _ => []
  | k :: ks, table =>
    let addr := table + 8 * (va / 2 ^ (43 - 10 * k) % 1024)
    let next (e : Nat) : List Nat := match judgeEntry ctx k va addr e with
      | .inr t => walkAddrs s ctx cache va ks t
      | .inl _ => []
    match cache.find? fun w => w.ctx == ctx && w.addr == addr && w.va ≤ va && va < w.va + w.size with
    | some w => next w.val.toNat
    | none => addr :: if s.poisoned addr 8 then [] else next (memNat s.mem addr 8)

/-- The walk that a translation of a paged address makes, where no TLB holds it; its table reads pass through L2 as type N (R115). -/
def State.noteWalk (s : State) (p : XPort) (x : Ctx) (va : Nat) : State :=
  let walk (tlbs : List TlbEntry) (cache : List WalkEntry) : State :=
    match tlbFind tlbs x.ctxid va with
    | some _ => s
    | none => (walkAddrs s x.ctxid cache va [0, 1, 2, 3] x.root).foldl (fun t a => t.noteLine a 0 0) s
  match p with
  | .core k => walk ((s.core k).tlb ++ (s.quad (quadOf k)).tlb) (s.quad (quadOf k)).walk
  | .die d => walk (s.die d).walk []
  | .front => s

/-- A translation with P = 1 is kept by the structures it passed (R115). -/
def State.keepTranslation (s : State) (p : XPort) (x : Ctx) (va : Nat) (e : TlbEntry) : State :=
  match p with
  | .core k =>
    match tlbFind (s.core k).tlb x.ctxid va with
    | some _ => s
    | none =>
      let q := s.quad (quadOf k)
      let q' := match tlbFind q.tlb x.ctxid va with
        | some _ => q
        | none => { q with tlb := tlbFill8 1024 e q.tlb,
                           walk := ((walkReads s x.ctxid va [0, 1, 2] x.root).filter (fun w => !q.walk.contains w) ++ q.walk).take 64 }
      (s.setQuad q').setCore { s.core k with tlb := tlbFill 256 e (s.core k).tlb }
  | .die d =>
    match tlbFind (s.die d).walk x.ctxid va with
    | some _ => s
    | none =>
      s.setDie { s.die d with walk := tlbFill8 512 e (s.die d).walk }
  | .front => s

/-- The walker sets bits of a leaf, AF = 0x20 or DF = 0x40, writing it only to set them (R114). -/
def State.setLeaf (s : State) (leaf : Nat) (bits : Byte) : State :=
  let b := memByte s.mem leaf
  if b &&& bits = bits then s else { s with mem := memSet s.mem leaf (b ||| bits) }

/-! ### The fate of an access (R118) -/

/-- Who accesses, and how. -/
inductive Acc where
  | load | store | atomic | fetch
deriving DecidableEq, Repr

/-- What translation gives: a key of memory with its type and leaf, a page with P = 0, or a fault. Type 0 in windows. -/
inductive Xlat where
  | ok (key : Nat) (mt : BitVec 2) (leaf : Option TlbEntry) (tile : Bool)
  | nonres (mt : BitVec 2)
  | fault (group reason : Nat)
  | poisoned (addr : Nat)
deriving DecidableEq, Repr

/-- Whether an address lies in a present window of a length. -/
def inWindow (present : Bool) (base len va : Nat) : Bool := present && base ≤ va && va < base + len

/-- Translation of an address with the conditions of R118, top row first. `core` owns the tile window (R99). -/
def State.xlat (s : State) (p : XPort) (core : Nat) (x : Ctx) (acc : Acc) (va : DWord) : Xlat :=
  let a := va.toNat
  if 2 ^ 53 ≤ a then .fault 4 1
  else if acc = .fetch ∧ (inWindow x.twe x.tw (2 ^ 20) a ∨ inWindow x.vwe x.vw (2 ^ 35) a) then .fault 4 9
  else if inWindow x.twe x.tw (2 ^ 20) a then
    if a - x.tw < 786432 ∧ p ≠ .front then .ok (tileKey core (a - x.tw)) 0 none true else .fault 4 2
  else if inWindow x.vwe x.vw (2 ^ 35) a then
    let off := a - x.vw
    if off / 2 ^ 26 < 384 ∧ off % 2 ^ 26 < 40 * 2 ^ 20 then .ok (vaultBase + off) 0 none false else .fault 4 2
  else match s.walk p x a with
    | .bad => .fault 4 3
    | .poisoned addr => .poisoned addr
    | .leaf e pr =>
      let key := e.frame + (a - e.va)
      if (acc = .store ∨ acc = .atomic) ∧ e.w = false then .fault 4 4
      else if acc = .atomic ∧ (e.mt = 1 ∨ inRegs key) then .fault 4 5
      else if acc = .fetch ∧ e.x = false then .fault 4 6
      else if pr = false then .nonres e.mt
      else .ok key e.mt (some e) false

/-- The row of R118 that decides an access, the first of the table as 0; 9 where none applies. -/
def Xlat.row : Xlat → Nat
  | .ok _ _ _ _ => 9
  | .poisoned _ => 8
  | .nonres _ => 7
  | .fault _ r => if r = 1 then 0 else if r = 9 then 1 else r

/-- The table reads of the walk that a translation makes, if it makes one (R115). -/
def State.noteXlat (s : State) (p : XPort) (x : Ctx) (va : DWord) (r : Xlat) : State :=
  match r with
  | .ok _ _ none _ => s
  | .fault g _ => if g = 4 ∧ 3 ≤ r.row then s.noteWalk p x va.toNat else s
  | _ => s.noteWalk p x va.toNat

/-- The effects of a translation: the table reads of its walk, and, where it passed, the TLBs keep it and AF is set (R114, R115). -/
def State.touch (s : State) (p : XPort) (x : Ctx) (va : DWord) (r : Xlat) : State :=
  match r with
  | .ok _ _ (some e) _ => ((s.noteXlat p x va r).keepTranslation p x va.toNat e).setLeaf e.leaf 0x20
  | _ => s.noteXlat p x va r

/-- DF is set before a write is performed (R114). -/
def State.dirty (s : State) (r : Xlat) : State :=
  match r with
  | .ok _ _ (some e) _ => s.setLeaf e.leaf 0x40
  | _ => s

/-! ### Amber views (R263) -/

/-- The launches of a context that are queued or execute. -/
def State.liveLaunches (s : State) (k : BitVec 16) : List Launch := s.launches.filter fun l => l.ctx == k && !l.complete

/-- The listed range that holds a page (R480). -/
def State.rangeOf (s : State) (k : BitVec 16) (va size : Nat) : Option Range :=
  ((s.liveLaunches k).flatMap (·.ranges)).find? fun r => r.va ≤ va && va + size ≤ r.va + r.len

/-- The physical address of a host address (R100). -/
def hostPa (h : Nat) : Nat := hostBase + h

/-- Where the contents of an 8 KiB page of a context lie: in its vault, in its frame, or, while P = 0, at the backing host address of the
range that lists it (R99, R113, R480). -/
def State.pageHome (s : State) (x : Ctx) (va : Nat) : Option Nat :=
  if inWindow x.vwe x.vw (2 ^ 35) va then
    let off := va - x.vw
    if off / 2 ^ 26 < 384 ∧ off % 2 ^ 26 < 40 * 2 ^ 20 then some (vaultBase + off) else none
  else match walkLevels s x.ctxid [] va [0, 1, 2, 3] x.root with
  | .leaf e true => some (e.frame + (va - e.va))
  | .leaf e false => (s.rangeOf x.ctxid e.va e.size).map fun r => hostPa (r.host + (va - r.va))
  | _ => none

/-- The 8 KiB shard pages with the physical page that holds each: (index in the shard, physical base). -/
def State.shardPages (s : State) : List (Nat × Nat) :=
  match s.memBlock with
  | none => []
  | some b =>
    match s.ctx? b.ctx with
    | none => []
    | some x =>
      let vas := b.shard.flatMap fun r => (List.range (r.len / 8192)).map fun i => r.va + 8192 * i
      (vas.mapIdx fun i va => (i, va)).filterMap fun (i, va) => (s.pageHome x va).map fun k => (i, k)

/-- The pages of the shadow pool, with the physical page of each: those of POOL that its context maps into HBM (R247). -/
def State.poolPages (s : State) : List (Nat × Nat) :=
  match s.memBlock with
  | none => []
  | some b =>
    match s.ctx? b.ctx with
    | none => []
    | some x => (List.range (b.poolLen / 8192)).filterMap fun k =>
        match walkLevels s x.ctxid [] (b.pool + 8192 * k) [0, 1, 2, 3] x.root with
        | .leaf e true => let key := e.frame + (b.pool + 8192 * k - e.va); if key < 2 ^ 41 then some (k, key) else none
        | _ => none

/-- The first page of the shadow pool in which no open view holds a pre-image. -/
def State.freePool (s : State) : Option (Nat × Nat) :=
  s.poolPages.find? fun p => !(s.views.any fun v => v.images.any fun im => im.2 == p.1)

/-- The bytes of one page are put into the pool for the newest open view, or the page is marked dropped when the pool is full (R263). -/
def State.putImage (s : State) (page : Nat) (bs : List Byte) : State :=
  match s.views with
  | [] => s
  | v :: vs =>
    match s.freePool with
    | some (slot, dst) => { s.writeMem dst bs with views := { v with images := (page, slot) :: v.images } :: vs }
    | none => { s with views := { v with dropped := page :: v.dropped } :: vs }

/-- One page is copied for the newest open view as it stands (R263). -/
def State.keepImage (s : State) (page key : Nat) : State := s.putImage page (memBytes s.mem key 8192)

/-- Copy on write: the newest open view takes the pre-image of each shard page that a write to `n` bytes at a key is the first to change
(R263). -/
def State.amberCopy (s : State) (key n : Nat) : State :=
  match s.views with
  | [] => s
  | v :: _ =>
    (s.shardPages.filter fun (i, pa) => pa < key + n && key < pa + 8192 && !(v.images.any fun im => im.1 == i) && !v.dropped.contains i).foldl
      (fun t pg => t.keepImage pg.1 pg.2) s

/-- A write that is performed: shard pages are copied first, the bytes land, and poison over them goes (R263, R300). -/
def State.store (s : State) (key : Nat) (bs : List Byte) : State := (s.amberCopy key bs.length).writeMem key bs

/-- A little-endian store of `n` bytes. -/
def State.storeNat (s : State) (key n v : Nat) : State := s.store key (natBytes n v)

/-! ### Read-only L1 (R104, R105) -/

/-- The set of a line (log entry 6). -/
def l1Set (line : Nat) : Nat := line % 256

/-- A line's data in a core's L1. -/
def CoreState.l1Data (k : CoreState) (line : Nat) : Option Line := (k.l1.find? (·.line == line)).map (·.data)

/-- A line is used or filled: it becomes the most recent of its set, and the ninth of a set leaves (R104). -/
def CoreState.l1Put (k : CoreState) (line : Nat) (data : Line) : CoreState :=
  let others := k.l1.filter fun x => x.line != line
  let same := (others.filter fun x => l1Set x.line == l1Set line).take 7
  { k with l1 := { line := line, data := data } :: (others.filter fun x => l1Set x.line != l1Set line || same.contains x) }

/-- A line leaves a core's L1 (R105). -/
def State.l1Drop (s : State) (core line : Nat) : State :=
  let k := s.core core
  if k.l1.any fun x => x.line == line then s.setCore { k with l1 := k.l1.filter fun x => x.line != line } else s

/-- A fresh read of a core leaves no older copy of its line behind: a copy in L1 is brought up to date (R127; log entry 6). -/
def State.l1Renew (s : State) (core line : Nat) : State :=
  let k := s.core core
  if k.l1.any fun x => x.line == line then
    s.setCore { k with l1 := k.l1.map fun x => if x.line = line then { x with data := memBytes s.mem (line * 128) 128 } else x }
  else s

/-- The number read by one load of `n` bytes at a key: weak loads are served from L1 and fill it (R104, R127). -/
def State.loadKey (s : State) (core key n : Nat) (weak : Bool) : Nat × State :=
  if weak then
    let line := key / 128
    match (s.core core).l1Data line with
    | some d => (leNat ((d.drop (key % 128)).take n), s.setCore ((s.core core).l1Put line d))
    | none => (memNat s.mem key n, s.setCore ((s.core core).l1Put line (memBytes s.mem (line * 128) 128)))
  else (memNat s.mem key n, s)

/-! ### The combining buffer (R108) -/

/-- The buffer writes a line to its home: only the bytes that stores wrote (R108). -/
def State.writeWc (s : State) (w : WcLine) : State :=
  w.bytes.foldl (fun t b => t.store (w.line * 128 + b.1) [b.2]) s

/-- Every line of a core's buffer is written (R108). -/
def State.drainWc (s : State) (core : Nat) : State :=
  let k := s.core core
  k.wc.foldl (fun t w => t.writeWc w) (s.setCore { k with wc := [] })

/-- The lowest entry of the combining buffer that is not in use (R108). -/
def freeWc (ws : List WcLine) : Nat := ((List.range 8).find? fun i => !(ws.any fun w => w.entry == i)).getD 0

/-- A WC store merges into its line; a ninth line makes room, and a full line is written (R108). `owner` is the storing cohort with its
launch. -/
def State.storeWc (s : State) (core : Nat) (owner : Nat × Nat) (key : Nat) (bs : List Byte) : State :=
  let now := s.cycle (dieOf core)
  let line := key / 128
  let k := s.core core
  let entries := bs.mapIdx fun i b => (key % 128 + i, b)
  match k.wc.find? (·.line == line) with
  | some w =>
    let bytes := entries.foldl (fun acc e => upsertBy Prod.fst e acc) w.bytes
    let w' : WcLine := { w with bytes := bytes, last := now, owners := if w.owners.contains owner then w.owners else owner :: w.owners }
    if bytes.length = 128 then (s.setCore { k with wc := k.wc.filter fun v => v.line != line }).writeWc w'
    else s.setCore { k with wc := k.wc.map fun v => if v.line = line then w' else v }
  | none =>
    let w' : WcLine := { entry := freeWc k.wc, line := line, bytes := entries, last := now, owners := [owner] }
    if 8 ≤ k.wc.length then
      match bestBy (fun (a b : WcLine) => a.last < b.last || (a.last == b.last && a.entry < b.entry)) k.wc with
      | some o => (s.setCore { k with wc := (k.wc.filter fun v => v.line != o.line) ++ [{ w' with entry := o.entry }] }).writeWc o
      | none => s
    else s.setCore { k with wc := k.wc ++ [w'] }

/-- A release or FENCE by a cohort of a core drains its buffer (R108, R136). -/
def State.release (s : State) (core : Nat) : State := if (s.core core).wc = [] then s else s.drainWc core

/-! ### The range scoreboard (R111, R112) -/

/-- Whether a lane access of tile memory must wait: a load waits for writers, a store or atomic for any (R112). -/
def State.boardBlocks (s : State) (core line : Nat) (load : Bool) : Bool :=
  (s.core core).board.any fun e => e.lo ≤ line && line ≤ e.hi && (e.write || !load)

/-! ### The lanes of a memory instruction (R97, R118, R405) -/

/-- One lane's access as planned: its address and what translation gives, alignment judged after bits [63:53] (R405). -/
structure LanePlan where
  lane : Nat
  va   : DWord
  out  : Xlat
deriving DecidableEq, Repr

/-- The plan of one lane (R405). -/
def State.planLane (s : State) (c : Cohort) (x : Ctx) (acc : Acc) (size : Nat) (va : DWord) (l : Nat) : LanePlan :=
  let r := s.xlat (.core c.core) c.core x acc va
  let r' := if 2 ^ 53 ≤ va.toNat then .fault 4 1 else if va.toNat % size ≠ 0 then .fault 3 0 else r
  { lane := l, va := va, out := r' }

/-- The plans of the lanes of a mask, in ascending order. -/
def State.planLanes (s : State) (c : Cohort) (x : Ctx) (acc : Acc) (size : Nat) (m : Mask) (va : Nat → DWord) : List LanePlan :=
  (laneList m).map fun l => s.planLane c x acc size (va l) l

/-- Whether a plan faults. -/
def LanePlan.faults (p : LanePlan) : Bool :=
  match p.out with
  | .fault _ _ => true
  | .poisoned _ => true
  | _ => false

/-- The group of a faulting plan. -/
def LanePlan.group (p : LanePlan) : Nat :=
  match p.out with
  | .fault g _ => g
  | .poisoned _ => 13
  | _ => 0

/-- The reason of a faulting plan. -/
def LanePlan.reason (p : LanePlan) : Nat :=
  match p.out with
  | .fault _ r => r
  | .poisoned _ => 2
  | _ => 0

/-- log2 of an access size. -/
def lg (n : Nat) : Nat := Nat.log2 n

/-- The detail of a group 13 cause: unit, reason and location (R234, R292). -/
def hwDetail (unit reason loc : Nat) : BitVec 96 := BitVec.ofNat 96 (unit + reason * 2 ^ 16 + loc * 2 ^ 32)

/-- The per-lane records of a faulting memory instruction; a lane outside its write mask has a zero one (R232, R469). -/
def planRecs (c : Cohort) (size : Nat) (ps : List LanePlan) : List LaneRec :=
  (List.range c.width).map fun l =>
    match ps.find? (·.lane == l) with
    | none => LaneRec.zero
    | some p =>
      { addr := p.va, pc := c.here.pc, reason := p.reason, lgsz := lg size, cause := p.group,
        state := if p.faults then 1 else match p.out with
          | .nonres _ => 3
          | _ => 2 }

/-- A memory instruction in which a lane faults: the group of the lowest faulting lane decides (R405, R234). -/
def State.raisePlans (s : State) (c : Cohort) (size : Nat) (ps : List LanePlan) : State :=
  match ps.find? LanePlan.faults with
  | none => s
  | some p =>
    let g := p.group
    let lanes := maskOf fun l => ps.any fun q => q.lane == l && q.faults && q.group == g
    let detail : BitVec 96 :=
      if g = 13 then (match p.out with
        | .poisoned a => hwDetail (s.unitOfKey a).1 2 (s.unitOfKey a).2
        | _ => 0)
      else if g = 3 then lanes.setWidth 96 ||| BitVec.ofNat 96 ((p.lane + lg size * 256) * 2 ^ 64)
      else lanes.setWidth 96 ||| BitVec.ofNat 96 ((p.lane + p.reason * 256) * 2 ^ 64)
    s.raise c g detail (planRecs c size ps)

/-- The lanes that met a page with P = 0 (R119). -/
def nonresMask (ps : List LanePlan) : Mask :=
  maskOf fun l => ps.any fun p => p.lane == l && (match p.out with
    | .nonres _ => true
    | _ => false)

/-- The effects of the translations of the lanes that pass (R114, R115). -/
def State.touchPlans (s : State) (c : Cohort) (x : Ctx) (ps : List LanePlan) : State :=
  ps.foldl (fun t p => (t.touch (.core c.core) x p.va p.out)) s

/-! ### Runs of bytes at virtual addresses -/

/-- The pieces of a run of bytes, each within one 8 KiB page. -/
def pagePieces : Nat → Nat → Nat → List (Nat × Nat)
  | 0, _, _ => []
  | fuel + 1, va, n =>
    if n = 0 then []
    else
      let k := min n (8192 - va % 8192)
      (va, k) :: pagePieces fuel (va + k) (n - k)

/-- Why a run of bytes cannot be reached, with the address. -/
inductive VaFail where
  | nonres (va : Nat)
  | fault (group reason : Nat) (va : Nat)
  | poisoned (addr : Nat)
  | data (key : Nat)
deriving DecidableEq, Repr

/-- The translated pieces of a run of bytes, or the first piece that fails. -/
def State.vaPieces (s : State) (p : XPort) (core : Nat) (x : Ctx) (acc : Acc) : List (Nat × Nat) → Except VaFail (List (Nat × Nat × Xlat))
  | [] => .ok []
  | (va, k) :: rest =>
    match s.xlat p core x acc (BitVec.ofNat 64 va) with
    | .nonres _ => .error (.nonres va)
    | .fault g r => .error (.fault g r va)
    | .poisoned a => .error (.poisoned a)
    | r =>
      match State.vaPieces s p core x acc rest with
      | .error e => .error e
      | .ok ps => .ok ((va, k, r) :: ps)

/-- The key of a translation that passed. -/
def Xlat.key : Xlat → Nat
  | .ok k _ _ _ => k
  | _ => 0

/-- The address of the leaf of a translation that passed, if it has one. -/
def Xlat.leaf? : Xlat → Option Nat
  | .ok _ _ e _ => e.map (·.leaf)
  | _ => none

/-- The memory type of a translation that passed; nothing else is cached. -/
def Xlat.mt : Xlat → BitVec 2
  | .ok _ mt _ tile => if tile then 2 else mt
  | _ => 2

/-- The bytes of a piece: of memory, or of the register space as the host reads it (R308). -/
def State.bytesAt (s : State) (key n : Nat) : List Byte := if inRegs key then natBytes n (s.hostRead (regOff key) n) else memBytes s.mem key n

/-- Bytes written at a key: to memory, or to the register space as the host writes it, one aligned 8-byte word or part of one at a time
(R100, R308; log entry 13). -/
def State.putAt (s : State) (key : Nat) (bs : List Byte) : State :=
  if inRegs key then
    (List.range (bs.length / 8 + 2)).foldl (fun t i =>
      let lo := max key ((key / 8 + i) * 8)
      let hi := min (key + bs.length) ((key / 8 + i + 1) * 8)
      if lo < hi then t.hostWrite none (regOff lo) (hi - lo) (leNat ((bs.drop (lo - key)).take (hi - lo))) else t) s
  else s.store key bs

/-- A run of bytes read: its bytes, or the failure; poisoned data fails too. -/
def State.vaRead (s : State) (p : XPort) (core : Nat) (x : Ctx) (va n : Nat) : Except VaFail (List Byte × State) :=
  match s.vaPieces p core x .load (pagePieces (n / 8192 + 2) va n) with
  | .error e => .error e
  | .ok ps =>
    match ps.find? fun q => s.poisoned q.2.2.key q.2.1 with
    | some q => .error (.data q.2.2.key)
    | none => .ok (ps.flatMap (fun q => s.bytesAt q.2.2.key q.2.1),
                   ps.foldl (fun t q => (t.touch p x (BitVec.ofNat 64 q.1) q.2.2).noteRun q.2.2.key q.2.1 q.2.2.mt 0) s)

/-- What a run of bytes that is not reached has touched: the translations of its pages up to the one that fails (R114, R115). -/
def State.vaTouch (s : State) (p : XPort) (core : Nat) (x : Ctx) (acc : Acc) : List (Nat × Nat) → State
  | [] => s
  | (va, _) :: rest =>
    let r := s.xlat p core x acc (BitVec.ofNat 64 va)
    let t := s.touch p x (BitVec.ofNat 64 va) r
    if r.row = 9 then State.vaTouch t p core x acc rest else t

/-- The pieces of a run with the bytes that go to each. -/
def pieceBytes : List (Nat × Nat × Xlat) → List Byte → List ((Nat × Nat × Xlat) × List Byte)
  | [], _ => []
  | q :: qs, bs => (q, bs.take q.2.1) :: pieceBytes qs (bs.drop q.2.1)

/-- A run of bytes written whole, or not at all. -/
def State.vaWrite (s : State) (p : XPort) (core : Nat) (x : Ctx) (va : Nat) (bs : List Byte) : Except VaFail State :=
  match s.vaPieces p core x .store (pagePieces (bs.length / 8192 + 2) va bs.length) with
  | .error e => .error e
  | .ok ps =>
    .ok ((pieceBytes ps bs).foldl (fun t q =>
      (((t.touch p x (BitVec.ofNat 64 q.1.1) q.1.2.2).noteRun q.1.2.2.key q.2.length q.1.2.2.mt 0).dirty q.1.2.2).putAt q.1.2.2.key q.2) s)

/-! ### Waiting for a page (R120, R339, R375, R382, R424) -/

/-- The base of the page that holds an address: that of its leaf, whatever its size (R113), or of the 8 KiB about it where there is no
leaf. -/
def State.pageBase (s : State) (ctx : BitVec 16) (va : Nat) : Nat :=
  match s.ctx? ctx with
  | none => va / 8192 * 8192
  | some x => match walkLevels s ctx [] va [0, 1, 2, 3] x.root with
    | .leaf e _ => e.va
    | _ => va / 8192 * 8192

/-- The request of a cohort for a page. -/
def State.pageReq? (s : State) (ctx : BitVec 16) (cid : Option Nat) (va : Nat) : Option PageReq :=
  s.pageReqs.find? fun r => r.ctx == ctx && r.cid == cid && r.va == s.pageBase ctx va

/-- Requests of a cohort for a page are dropped. -/
def State.dropReq (s : State) (ctx : BitVec 16) (cid : Option Nat) (va : Nat) : State :=
  { s with pageReqs := s.pageReqs.filter fun r => !(r.ctx == ctx && r.cid == cid && r.va == s.pageBase ctx va) }

/-- A page is asked for, once (R120). -/
def State.askPage (s : State) (ctx : BitVec 16) (cid : Option Nat) (va : Nat) : State :=
  match s.pageReq? ctx cid va with
  | some _ => s
  | none => { s with pageReqs := s.pageReqs ++ [{ ctx := ctx, va := s.pageBase ctx va, cid := cid, status := 0 }] }

/-- PGREQ asks for a page, which is pinned when it comes (R120). -/
def State.askPin (s : State) (ctx : BitVec 16) (cid va : Nat) : State :=
  let t := s.askPage ctx (some cid) va
  { t with pageReqs := t.pageReqs.map fun r => if r.ctx = ctx ∧ r.cid = some cid ∧ r.va = s.pageBase ctx va then { r with pin := true } else r }

/-- The cohort is not ready while the front end makes a page resident; a page that cannot be made resident raises group 11,
reason 2. -/
def waitPage (s : State) (c : Cohort) (va : Nat) : Out :=
  match s.pageReq? c.ctx (some c.cid) va with
  | some r => if r.status = 2 then raiseR (s.dropReq c.ctx (some c.cid) va) c 11 2 else waitHere s c
  | none => waitHere (s.askPage c.ctx (some c.cid) va) c

/-- An access by the requesting cohort ends a page's pin (R120). -/
def State.unpin (s : State) (c : Cohort) (va : Nat) : State :=
  match s.ctx? c.ctx with
  | none => s
  | some x => if x.pinned = [] then s else s.setCtx { x with pinned := x.pinned.filter fun p => !(p.1 == s.pageBase c.ctx va && p.2.1 == c.cid) }

/-- The same for the pages of a run of bytes. -/
def State.unpinRun (s : State) (c : Cohort) (va n : Nat) : State := (pagePieces (n / 8192 + 2) va n).foldl (fun t p => t.unpin c p.1) s

/-! ### Dying lanes (R236) -/

/-- Lanes of a cohort die of a consumed error: they leave every slot and every stack entry, and $CAUSE becomes 14 only if it
holds 0 (R236). -/
def Cohort.kill (c : Cohort) (m : Mask) (pc : Word) : Cohort :=
  if m = 0 then c else
  let drop (o : Option PcSlot) : Option PcSlot := o.bind fun p => liveSlot p.pc (p.mask &&& ~~~m)
  let c1 := { c with dead := c.dead ||| m, s0 := drop c.s0, s1 := drop c.s1,
                     stack := c.stack.map fun e => { e with mask := e.mask &&& ~~~m } }
  if c1.cause = 0 then
    { c1 with cause := 14, caused0 := DWord.lo m, caused1 := DWord.hi m, caused2 := pc }
  else c1

/-! ### The code fetch (R118, R313, R324) -/

/-- The code base a cohort fetches from: HCODE in handler mode (R203, R239). -/
def Cohort.codeBase (c : Cohort) (x : Ctx) : DWord :=
  match c.hmode, x.trap with
  | true, some t => t.hcode
  | _, _ => c.code

/-- The address of the word at a PC (R313). -/
def codeAddr (base : DWord) (pc : Word) : DWord := base + BitVec.ofNat 64 (20 * pc.toNat)

/-- What a fetch gives: a word, or why it cannot be fetched. -/
inductive Fetched where
  | word (w : IWord)
  | fault (group reason : Nat)
  | nonres
  | poisoned (addr : Nat)
  /-- the word itself holds uncorrectable data -/
  | data (addr : Nat)
deriving DecidableEq, Repr

/-- The byte of uncorrectable data at which a word is bad, if there is one: its first and last bytes lie at two keys, one or two pages. -/
def State.badWord (s : State) (va k0 k1 : Nat) : Option Nat :=
  let tail := if va / 8192 = (va + 19) / 8192 then 0 else (va + 19) % 8192 + 1
  if s.poisoned k0 (20 - tail) then some k0 else if tail ≠ 0 ∧ s.poisoned (k1 + 1 - tail) tail = true then some (k1 + 1 - tail) else none

/-- The fetch of a word, byte range by page: both ends must translate, and of two conditions the earlier row of R118 decides (R313, R118). -/
def State.fetchWord (s : State) (core : Nat) (x : Ctx) (va : DWord) : Fetched × State :=
  match (s.core core).ibuf.find? fun e => e.ctx == x.ctxid && e.va == va.toNat with
  | some e => (.word e.word, s)
  | none =>
    let last := va + 19
    let r0 := s.xlat (.core core) core x .fetch va
    let r1 := s.xlat (.core core) core x .fetch last
    let byte (i : Nat) : Byte :=
      match r0, r1 with
      | .ok k0 _ _ _, .ok k1 _ _ _ => if va.toNat / 8192 = (va.toNat + i) / 8192 then memByte s.mem (k0 + i) else memByte s.mem (k1 - 19 + i)
      | _, _ => 0
    let s0 := (s.touch (.core core) x va r0).touch (.core core) x last r1
    match if r1.row < r0.row then r1 else r0 with
    | .fault g r => (.fault g r, s0)
    | .poisoned a => (.poisoned a, s0)
    | .nonres _ => (.nonres, s0)
    | .ok _ _ _ _ =>
      match s.badWord va.toNat r0.key r1.key with
      | some a => (.data a, s0)
      | none =>
      let w := BitVec.ofNat 160 (leNat ((List.range 20).map byte))
      let note (t : State) (r : Xlat) : State := match r with
        | .ok key mt _ _ => t.noteLine key mt 0
        | _ => t
      let s1 := note (note s0 r0) r1
      let k := s1.core core
      (.word w, s1.setCore { k with ibuf := ({ ctx := x.ctxid, va := va.toNat, word := w } :: k.ibuf).take Config.ibufWords })

end Sys2Proof.Machine
end

