-- ==== Sys2Proof/Machine/Causes.lean ====
section
/-!
DEFINITION. Machine/Causes.lean: causes that arise outside a cohort's instructions (R195, R226, R238), the checked units and their
reports (R292, R299), and an operation whose replay mismatches too (R162, R294).
-/

namespace Sys2Proof.Machine

/-! ### Causes raised outside an instruction (R195, R226, R238) -/

/-- A cause of a cohort that arises beside the meaning of its instructions, with the PC and the core that the stop names: it stops the
context, and the cohort takes it; in a context that was stopped before, it is pending for the cohort, resident or saved (R195, R231, R238).
One that a cohort's own instruction in a handler meets leaves the context stopped with DOUBLE set (R240). -/
def State.causeAside (s : State) (cid : Nat) (k : BitVec 16) (group : Nat) (detail : BitVec 96) (core : BitVec 16) (pc : Word) (job : Bool) : State :=
  match s.ctx? k with
  | none => s
  | some x =>
    let e : PendEvent := { group := group, detail := detail, pc := some pc, recs := [], job := job }
    let pend (c : Cohort) : Cohort := if c.cid = cid then c.pending e else c
    let saved := s.saved.map fun (v : SavedWg) => { v with cohorts := v.cohorts.map pend }
    let handling := x.inHandler && !job && s.cohorts.any fun c => c.cid == cid && c.hmode
    if x.halt && !x.haltsNow s.cycles && !handling then { s with cohorts := s.cohorts.map pend, saved := saved }
    else
      let s1 := { s with saved := saved, cohorts := s.cohorts.map fun (c : Cohort) => if c.cid = cid then c.meet e else c }
      s1.halt k (BitVec.ofNat 5 group) core pc

/-- A cause of work that runs beside its cohort: the stop names no core, and $EPC is the command's PC (R195, R231). -/
def State.jobCause (s : State) (cid : Nat) (k : BitVec 16) (group : Nat) (detail : BitVec 96) (pc : Word) : State :=
  s.causeAside cid k group detail 0xFFFF pc true

/-- An event from outside the cohorts stops a context: each resident cohort takes it, or has it pending where the context is
stopped already; saved cohorts have it pending (R238). `final` forbids a resume (R242). The cohort `but`, if there is one, has met it. -/
def State.stopContext (s : State) (k : BitVec 16) (group : Nat) (detail : BitVec 96) (final : Bool) (but : Option Nat := none) : State :=
  match s.ctx? k with
  | none => s
  | some x =>
    let mine (c : Cohort) : Bool := c.ctx == k && but != some c.cid
    let late := x.halt && !x.haltsNow s.cycles
    let e : PendEvent := { group := group, detail := detail, pc := none, recs := [], job := false }
    let hit (c : Cohort) : Cohort := if late then c.pending e else c.meet e
    let s1 : State := { s with
      cohorts := s.cohorts.map (fun c => if mine c then hit c else c),
      saved := s.saved.map fun (v : SavedWg) => { v with cohorts := v.cohorts.map fun c => if mine c then c.pending e else c } }
    let s2 := if late then s1 else s1.halt k (BitVec.ofNat 5 group) 0xFFFF 0
    match s2.ctx? k with
    | some y => if final then s2.setCtx { y with noResume := true } else s2
    | none => s2

/-! ### Units (R292, R294, R299) -/

/-- Whether an identifier names a unit (R292). -/
def unitExists (u : Nat) : Bool :=
  let i := u % 8192
  match u / 8192 with
  | 0 | 1 => i < 6144
  | 2 | 3 | 4 => i < 1536
  | 5 => i < 768
  | 6 => i < 192
  | _ => 1 ≤ i && i ≤ 9

/-- The report of a unit that has none yet (R299). -/
def UnitRec.init (u : BitVec 16) : UnitRec :=
  { unit := u, state := 0, lastC := 0, pass := 0, fail := 0, mism := 0, recent := [], last := 0, failRow := 0, passRow := 0, scheduled := false, testing := none }

/-- A unit's report. -/
def State.unitRec (s : State) (u : BitVec 16) : UnitRec := (s.units.find? fun x => x.unit == u).getD (UnitRec.init u)

/-- Replaces a unit's report. -/
def State.setUnit (s : State) (r : UnitRec) : State := { s with units := upsertBy (fun x => x.unit.toNat) r s.units }

/-- Whether a unit in a state other than in service fences a core: kinds 0 to 4 fence their core (R292, R294). -/
def unitCore (u : BitVec 16) : Option Nat :=
  let kind := u.toNat / 8192
  let i := u.toNat % 8192
  if kind ≤ 1 then some (i / 4) else if kind ≤ 4 then some i else none

/-- Whether a core is fenced (R16, R294). -/
def State.coreFenced (s : State) (core : Nat) : Bool := s.units.any fun u => u.state != 0 && unitCore u.unit == some core

/-- The contexts with work resident on a core (R294). -/
def State.coreContexts (s : State) (core : Nat) : List (BitVec 16) :=
  ((s.cohorts.filter (·.core == core)).map (·.ctx) ++ (s.jobs.filter (·.core == core)).map (·.ctx) ++
    ((s.core core).mmaQ.map (·.ctx))).eraseDups

/-- A MISMATCH DURING A REPLAY (R162, R294): nothing of the operation is written. Its unit is fenced at once, with a test scheduled; the
cohort whose operation it was takes group 13, reason 1, and every context with work resident on the core stops with the same cause. -/
def State.replayFails (s : State) (unit : BitVec 16) (core : Nat) (k : BitVec 16) (cid : Nat) (pc : Word) (job : Bool) : State :=
  let detail := hwDetail unit.toNat 1 0
  let r := s.unitRec unit
  let s1 := ({ s with upsets := s.upsets.erase (.replay unit) }.setUnit { r with state := max 1 r.state, scheduled := true, passRow := 0 }).postEvent (dieOf core)
    (.errorReport unit)
  let s2 := s1.causeAside cid k 13 detail (if job then 0xFFFF else BitVec.ofNat 16 core) pc job
  (k :: (s2.coreContexts core).filter (· != k)).foldl (fun t j => t.stopContext j 13 detail true (some cid)) s2

/-- A checked operation of a unit on a die: a mismatch whose replay checks correctly changes nothing but the unit's count, and is remembered
with its time (R293, R294, R299). -/
def State.replayed (s : State) (unit : BitVec 16) (die : Nat) : State :=
  if s.upsets.contains (.mismatch unit) then
    let r := s.unitRec unit
    { s with upsets := s.upsets.erase (.mismatch unit) }.setUnit
      { r with mism := min 255 (r.mism + 1), recent := (s.cycle die :: r.recent).take 16 }
  else s

/-- Whether the next operation of a unit mismatches in its replay too (R162, R294). -/
def State.replayBad (s : State) (kind index : Nat) : Bool := s.upsets.contains (.replay (BitVec.ofNat 16 (8192 * kind + index)))

/-- The operation of a unit of a core mismatches twice, for a job or an accepted MMA (R162). -/
def State.engineReplay (s : State) (kind core : Nat) (k : BitVec 16) (cid : Nat) (pc : Word) : State :=
  s.replayFails (BitVec.ofNat 16 (8192 * kind + core)) core k cid pc true

end Sys2Proof.Machine
end

