-- ==== Sys2Proof/Machine/Indigo.lean ====
section
/-!
DEFINITION. Machine/Indigo.lean: redundant execution of a cohort (R295 to R297). The primary forwards each value that enters
from outside its core; the secondary takes them in order. Both cut their store beats into windows.
-/

namespace Sys2Proof.Machine

/-- Where a value from outside the core comes from for a cohort (R296). -/
inductive FwdIn where
  /-- the cohort reads for itself: it is no secondary -/
  | own
  /-- the primary has not read yet -/
  | waits
  | given (vals : List (Option DWord)) (lost : Mask)
deriving DecidableEq, Repr

/-- What the cohort's next outside value is taken from (R296). -/
def Cohort.fwdIn (c : Cohort) : FwdIn :=
  match c.role with
  | .secondary =>
    match c.fwd.find? (·.at_ == c.fwdCount) with
    | some v => .given v.vals v.lost
    | none => .waits
  | _ => .own

/-- A secondary has used its forwarded value. -/
def Cohort.fwdTaken (c : Cohort) : Cohort :=
  { c with fwd := c.fwd.filter (·.at_ != c.fwdCount), fwdCount := c.fwdCount + 1 }

/-- A primary has read a value: its twin receives it (R296). -/
def State.fwdGive (s : State) (c : Cohort) (vals : List (Option DWord)) (lost : Mask) : State × Cohort :=
  match c.role with
  | .primary =>
    match c.twin.bind s.cohort? with
    | some t => (s.setCohort { t with fwd := t.fwd ++ [{ at_ := c.fwdCount, vals := vals, lost := lost }] }, { c with fwdCount := c.fwdCount + 1 })
    | none => (s, { c with fwdCount := c.fwdCount + 1 })
  | _ => (s, c)

/-- The issuing cohort's context; there is none only in states that no run reaches. -/
def withCtx (s : State) (c : Cohort) (k : Ctx → Out) : Out :=
  match s.ctx? c.ctx with
  | some x => k x
  | none => .fault .noIssuer

/-- A single value from outside the core: read by `own`, or forwarded (R296). -/
def outsideValue (s : State) (c : Cohort) (own : DWord) (k : State → Cohort → DWord → Out) : Out :=
  match c.fwdIn with
  | .own =>
    let r := s.fwdGive c [some own] 0
    k r.1 r.2 own
  | .waits => waitHere s c
  | .given vals _ => k s c.fwdTaken ((vals.getD 0 none).getD 0)

/-- The beats of a window that have not been performed, in order. -/
def StoreWindow.held (w : StoreWindow) : List Beat := w.carried ++ w.beats

/-- The bytes of a load as a cohort sees them over its own held stores: a later beat covers an earlier one (R297, R105). -/
def Cohort.overlay (c : Cohort) (va : DWord) (n v : Nat) : Nat :=
  let beats := (c.windows.flatMap (·.held)).filter (·.kind == 0)
  let byte (i : Nat) : Byte :=
    beats.foldl (fun (acc : Byte) (b : Beat) =>
      let a := va.toNat + i
      if b.va.toNat ≤ a ∧ a < b.va.toNat + b.size then (b.data >>> (8 * (a - b.va.toNat))).setWidth 8 else acc)
      (BitVec.ofNat 8 (v / 256 ^ i))
  if beats = [] then v else leNat ((List.range n).map byte)

/-- A beat joins the open window, which closes after 256 (R297). `done` windows have been performed before. -/
def addBeat (ws : List StoreWindow) (done : Nat) (b : Beat) : List StoreWindow :=
  match ws.getLast? with
  | some w =>
    if w.closed then ws ++ [{ num := w.num + 1, closed := false, beats := [b] }]
    else ws.dropLast ++ [{ w with beats := w.beats ++ [b], closed := 256 ≤ w.beats.length + 1 }]
  | none => [{ num := done, closed := false, beats := [b] }]

/-- Beats of one instruction's lanes join the windows: each but the first says that it goes on from the one before (R125). -/
def addBeats (ws : List StoreWindow) (done : Nat) (bs : List Beat) : List StoreWindow :=
  (bs.mapIdx fun i b => { b with next := i != 0 }).foldl (fun acc b => addBeat acc done b) ws

/-- The windows of a stream cut again without the beats that a test drops, because their lanes have died in the twin (R296); those that close
early do so where they did. `acc` are the windows before them. -/
def recut (drop : Beat → Bool) (done : Nat) : List StoreWindow → List StoreWindow → List StoreWindow
  | acc, [] => acc
  | acc, w :: ws =>
    if w.matched then recut drop done (acc ++ [w]) ws
    else
      let next (p : Option Beat) (b : Beat) : Bool := b.kind != 0 && p.any fun q => q.at_ == b.at_
      let add (a : List StoreWindow) (b : Beat) : List StoreWindow := addBeat a done { b with next := next ((a.getLast?).bind (·.beats.getLast?)) b }
      let cut := (w.beats.filter fun b => !drop b).foldl add acc
      recut drop done (if w.early then closeWindows cut else cut) ws

/-- A cohort's held beats of its lanes of a mask, from an instruction on, are given up (R296). -/
def Cohort.giveUp (c : Cohort) (m : Mask) (at_ : Nat) : Cohort :=
  let drop (b : Beat) : Bool := m.getLsbD b.lane && at_ ≤ b.at_
  if (c.windows.flatMap (·.beats)).any drop then
    { c with windows := (recut drop c.winDone [] c.windows).map fun v =>
        match c.windows.find? fun w => w.num == v.num && w.carried != [] with
        | some w => { v with carried := w.carried }
        | none => v }
  else c

/-- A release, FENCE, barrier instruction, engine command, LREL or EXIT of an Indigo cohort closes its window, and goes on when
every window has been compared and its writes performed (R297, R131). -/
def indigoClose (s : State) (c : Cohort) (k : Cohort → Out) : Out :=
  if c.role = .single ∨ c.windows = [] then k c
  else waitHere s { c with windows := closeWindows c.windows }

end Sys2Proof.Machine
end

