-- ==== Sys2Proof/Machine/Flags.lean ====
section
/-!
DEFINITION. Machine/Flags.lean: the sticky flags of $VSTAT and their trap enables (R54, R81, R234).
-/

namespace Sys2Proof.Machine

/-- The flags of the lanes of a mask, ORed (R81). -/
def flagsOf (m : Mask) (fl : Nat → BitVec 6) : BitVec 6 := (laneList m).foldl (fun acc l => acc ||| fl l) 0

/-- The trap enables of $VSTAT [12:8], in the order of flags [5:1] (R54). -/
def enablesOf (vstat : Word) : BitVec 5 := (vstat >>> 8).setWidth 5

/-- The flags [5:1] that a trap enable catches (R54). -/
def trapped (vstat : Word) (fl : BitVec 6) : BitVec 5 := enablesOf vstat &&& (fl >>> 1).setWidth 5

/-- $VSTAT with flags ORed in (R54). -/
def setFlags (vstat : Word) (fl : BitVec 6) : Word := vstat ||| fl.setWidth 32

/-- An instruction with flags: an enabled flag stops it with cause group 6 and writes neither results nor flags; otherwise
the flags are ORed into $VSTAT and `k` gives the cohort with the results written (R54, R81, R234). -/
def withFlags (s : State) (c : Cohort) (m : Mask) (fl : Nat → BitVec 6) (k : Cohort → Cohort) : Out :=
  let all := flagsOf m fl
  let t := trapped c.vstat all
  if t = 0 then finish s (k { c with vstat := setFlags c.vstat all })
  else
    let lanes := maskOf fun l => m.getLsbD l && trapped c.vstat (fl l) != 0
    raiseOut s c 6 (lanes.setWidth 96 ||| (t.setWidth 96 <<< 64)) (c.plainRecs lanes 6 0)

/-- A vector instruction whose lanes give a word and flags. -/
def flaggedOut (s : State) (c : Cohort) (f : Fields) (srcs : List VReg) (affine : Option VReg) (lane : Nat → Word × BitVec 6) : Out :=
  let m := c.writeMask f
  withFlags s c m (fun l => (lane l).2) fun d => d.putLanes m f.od srcs affine fun l => (lane l).1

/-- A rounding vector instruction: under `.sr` each lane takes its draw, the result is G, and the generator's state after w
steps is written back (R83, R60 rule 2). -/
def roundedOut (s : State) (c : Cohort) (f : Fields) (srcs : List VReg) (lane : Word → Nat → Word × BitVec 6) : Out :=
  let m := c.writeMask f
  if f.rnd = .sr then
    let (us, seed) := srDraws c.width c.srseed
    let at_ (l : Nat) := lane (us.getD l 0) l
    withFlags s c m (fun l => (at_ l).2) fun d =>
      { (d.putVec m (opndIndex f.od) (fun l => (at_ l).1) (d.general fun l => (at_ l).1)) with srseed := seed }
  else flaggedOut s c f srcs none fun l => lane 0 l

end Sys2Proof.Machine
end

