-- ==== Sys2Proof/Machine/Integer.lean ====
section
/-!
DEFINITION. Machine/Integer.lean: the integer instructions (R89, R90, R391 to R402, R407, R445).
-/

namespace Sys2Proof.Machine

/-- Base and stride of a U or A register; `none` for G. -/
def VReg.line? : VReg → Option (Word × Word)
  | .u x => some (x, 0)
  | .a b st => some (b, st)
  | .g _ => none

/-- Whether a register is A. -/
def VReg.isA : VReg → Bool
  | .a _ _ => true
  | _ => false

/-- Rule 5 of R60: base from the bases, stride from the strides. -/
def affine2 (op : Word → Word → Word) (a b : VReg) : Option VReg :=
  match a.line?, b.line? with
  | some (x, s), some (y, t) => some (VReg.affine (op x y) (op s t))
  | _, _ => none

/-- Rule 6 of R60: one source A and the other U, under an operation that distributes over lanes. -/
def affineMul (a b : VReg) : Option VReg :=
  match a, b with
  | .a x s, .u y => some (VReg.affine (x * y) (s * y))
  | .u y, .a x s => some (VReg.affine (x * y) (s * y))
  | _, _ => none

/-- Rule 7 of R60: one factor A, the other U, the addend U or A. -/
def affineMad (a b c : VReg) : Option VReg :=
  match c.line?, a, b with
  | some (z, r), .a x s, .u y => some (VReg.affine (x * y + z) (s * y + r))
  | some (z, r), .u y, .a x s => some (VReg.affine (x * y + z) (s * y + r))
  | _, _, _ => none

/-- An affine result applies only to 32-bit types and without `.sat` (R391, R60). -/
def affineIf (f : Fields) (r : Option VReg) : Option VReg := if (f.typ = .u32 ∨ f.typ = .s32) ∧ f.sat = false then r else none

/-- A binary operation on the elements of two words under a type, each element narrowed (R72, R391). -/
def elemwise (t : Typ) (sat : Bool) (op : Int → Int → Int) (a b : Word) : Word × BitVec 6 :=
  let n := elemBits t
  let es := (elemsOf t a).zipWith (fun x y => iclamp t sat (op (intVal t x) (intVal t y))) (elemsOf t b)
  (packElems n (es.map (·.1)), es.foldl (fun acc e => acc ||| e.2) 0)

/-- An integer instruction of two sources on elements. -/
def intOut2 (f : Fields) (s : State) (op : Int → Int → Int) (affine : VReg → VReg → Option VReg) : Out :=
  withMe s fun c =>
    let a := s.src c f f.oa
    let b := s.src c f f.ob
    flaggedOut s c f [a, b] (affineIf f (affine a b)) fun l => elemwise f.typ f.sat op (a.lane l) (b.lane l)

/-- The exact value of a 32-bit or 64-bit word under TYP 0 or 1 (R391). -/
def exact32 (t : Typ) (x : Word) : Int := if t = .s32 then x.toInt else (x.toNat : Int)
/-- The same for 64 bits. -/
def exact64 (t : Typ) (x : DWord) : Int := if t = .s32 then x.toInt else (x.toNat : Int)

/-- A 64-bit result of exact lanes, narrowed to 64 bits (R396, R400, R407). -/
def wideOut (f : Fields) (s : State) (c : Cohort) (srcs : List VReg) (val : Nat → Int) : Out :=
  let m := c.writeMask f
  let r (l : Nat) := iclamp64 (f.typ == .s32) f.sat (val l)
  withFlags s c m (fun l => (r l).2) fun d => d.putLanes64 m f.od srcs fun l => (r l).1

/-- IADD and ISUB with `.w64` (R396). -/
def addWide (f : Fields) (s : State) (op : Int → Int → Int) : Out :=
  withMe s fun c =>
    let a := c.src64 f f.oa
    let b := c.src64 f f.ob
    wideOut f s c [a.1, a.2, b.1, b.2] fun l => op (exact64 f.typ (lane64 a l)) (exact64 f.typ (lane64 b l))

/-- IADD (R396). -/
def execIadd (f : Fields) (s : State) : Out :=
  if f.sub = 1 then addWide f s (· + ·) else intOut2 f s (· + ·) (affine2 (· + ·))

/-- ISUB (R396). -/
def execIsub (f : Fields) (s : State) : Out :=
  if f.sub = 1 then addWide f s (· - ·) else intOut2 f s (· - ·) (affine2 (· - ·))

/-- IMUL: the low 32 bits of the product (R402). -/
def execImul (f : Fields) (s : State) : Out := intOut2 f s (· * ·) affineMul

/-- IMULH: bits [63:32] of the product (R402). -/
def execImulh (f : Fields) (s : State) : Out :=
  withMe s fun c =>
    let a := s.src c f f.oa
    let b := s.src c f f.ob
    vecOut s c f [a, b] none fun l => DWord.hi (BitVec.ofInt 64 (exact32 f.typ (a.lane l) * exact32 f.typ (b.lane l)))

/-- IMAD (R400). -/
def execImad (f : Fields) (s : State) : Out :=
  withMe s fun c =>
    let a := s.src c f f.oa
    let b := s.src c f f.ob
    if f.sub = 1 then
      let d := c.src64 f f.oc
      wideOut f s c [a, b, d.1, d.2] fun l =>
        exact32 f.typ (a.lane l) * exact32 f.typ (b.lane l) + exact64 f.typ (lane64 d l)
    else
      let d := s.src c f f.oc
      flaggedOut s c f [a, b, d] (affineIf f (affineMad a b d)) fun l =>
        let r := iclamp f.typ f.sat (exact32 f.typ (a.lane l) * exact32 f.typ (b.lane l) + exact32 f.typ (d.lane l))
        (BitVec.ofNat 32 r.1, r.2)

/-- IABS (R395). -/
def execIabs (f : Fields) (s : State) : Out :=
  withMe s fun c =>
    let a := s.src c f f.oa
    flaggedOut s c f [a] none fun l => elemwise f.typ f.sat (fun x _ => (x.natAbs : Int)) (a.lane l) (a.lane l)

/-- IMIN (R401). -/
def execImin (f : Fields) (s : State) : Out := intOut2 f s min fun _ _ => none

/-- IMAX (R401). -/
def execImax (f : Fields) (s : State) : Out := intOut2 f s max fun _ _ => none

/-- IADDMIN: the sum clamped without SAT, then the minimum (R397). -/
def execIaddmin (f : Fields) (s : State) : Out :=
  withMe s fun c =>
    let a := s.src c f f.oa
    let b := s.src c f f.ob
    let d := s.src c f f.oc
    vecOut s c f [a, b, d] none fun l =>
      let x := exact32 f.typ (a.lane l) + exact32 f.typ (b.lane l)
      let y := if x < intMin f.typ then intMin f.typ else if intMax f.typ < x then intMax f.typ else x
      BitVec.ofInt 32 (min y (exact32 f.typ (d.lane l)))

/-- The comparison of ICMP's SUB (R398). -/
def icmpHolds (sub : BitVec 4) (a b : Int) : Bool :=
  match sub.toNat with
  | 0 => a == b
  | 1 => a != b
  | 2 => a < b
  | 3 => a ≤ b
  | 4 => b < a
  | _ => b ≤ a

/-- ICMP (R398). -/
def execIcmp (f : Fields) (s : State) : Out :=
  withMe s fun c =>
    let a := s.src c f f.oa
    let b := s.src c f f.ob
    finish s (c.putTruth (c.writeMask f) f.od [a, b] fun l => icmpHolds f.sub (exact32 f.typ (a.lane l)) (exact32 f.typ (b.lane l)))

/-- The shift an LEA carries in its immediate (R407). -/
def immNat : Opnd → Nat
  | .imm d => d.toNat
  | _ => 0

/-- LEA (R407). -/
def execLea (f : Fields) (s : State) : Out :=
  withMe s fun c =>
    let k := immNat f.oc
    let b := s.src c f f.ob
    if f.sub = 1 then
      let a := c.src64 f f.oa
      wideOut f s c [a.1, a.2, b] fun l => exact64 f.typ (lane64 a l) + exact32 f.typ (b.lane l) * 2 ^ k
    else
      let a := s.src c f f.oa
      flaggedOut s c f [a, b] (affineIf f (affine2 (fun x y => x + (y <<< k)) a b)) fun l =>
        let r := iclamp f.typ f.sat (exact32 f.typ (a.lane l) + exact32 f.typ (b.lane l) * 2 ^ k)
        (BitVec.ofNat 32 r.1, r.2)

/-- The exact dot product of the elements of two words (R89). -/
def dotExact (t : Typ) (a b : Word) : Int :=
  ((elemsOf t a).zipWith (fun x y => intVal t x * intVal t y) (elemsOf t b)).foldl (· + ·) 0

/-- IDP2 and IDP4: the exact dot product and the S32 addend, narrowed once (R89, R399). -/
def dotOut (f : Fields) (s : State) (t : Typ) : Out :=
  withMe s fun c =>
    let a := s.src c f f.oa
    let b := s.src c f f.ob
    let d := s.src c f f.oc
    flaggedOut s c f [a, b, d] none fun l =>
      let r := iclamp .s32 f.sat (dotExact t (a.lane l) (b.lane l) + (d.lane l).toInt)
      (BitVec.ofNat 32 r.1, r.2)

/-- IDP2 (R399). -/
def execIdp2 (f : Fields) (s : State) : Out := dotOut f s .s16x2

/-- IDP4 (R399). -/
def execIdp4 (f : Fields) (s : State) : Out := dotOut f s .s8x4

/-- SHRRN of one word: round half up, shift right, narrow and sign-extend (R90, R445). -/
def shrrn (t : Typ) (sat : Bool) (x amount : Word) : Word × BitVec 6 :=
  let n := amount.toNat % 32
  let h : Int := if n = 0 then 0 else 2 ^ (n - 1)
  let r := iclamp t sat ((x.toInt + h) / 2 ^ n)
  (BitVec.ofInt 32 (signedOf (elemBits t) r.1), r.2)

/-- SHRRN (R445). -/
def execShrrn (f : Fields) (s : State) : Out :=
  withMe s fun c =>
    let a := s.src c f f.oa
    let b := s.src c f f.ob
    flaggedOut s c f [a, b] none fun l => shrrn f.typ f.sat (a.lane l) (b.lane l)

end Sys2Proof.Machine
end

