-- ==== Sys2Proof/Machine/Stops.lean ====
section
/-!
DEFINITION. Machine/Stops.lean: the end of a stop (R241, R242) and the baton across it (R359).
-/

namespace Sys2Proof.Machine

/-- A free baton goes to the best waiting taker of a core. -/
def State.offerBaton (s : State) (core : Nat) : State :=
  match (s.core core).baton with
  | none => s.passBaton core
  | some _ => s

/-- The halt line of a context falls: its cohorts and jobs go on, and a cohort that held the baton first waits for it (R241,
R242, R359). What the stop has ended of their translations is made again (R362). -/
def State.haltFall (s : State) (k : BitVec 16) : State :=
  match s.ctx? k with
  | none => s
  | some x =>
    let s1 := s.setCtx { x with halt := false, inHandler := false, enginesStopped := false, stopWritten := false, double := false }
    let again := (s1.cohorts.filter fun c => c.ctx == k && c.bheld).map (·.core)
    let s2 := { s1 with
      jobs := s1.jobs.map fun (j : Job) => if j.ctx = k then { j with held := false } else j,
      colls := s1.colls.map fun (o : Coll) => if o.ctx = k then { o with held := false } else o,
      cohorts := s1.cohorts.map fun (c : Cohort) =>
      if c.ctx = k then
        { c with stopped := false, raised := false, left := none, jobSide := false, laneRecs := [], bwt := false, accReq := 0,
                 wait := if c.bheld then .batonAgain else c.wait, waitSeq := if c.bheld then s1.fresh else c.waitSeq }
      else c }
    again.foldl (fun t core => t.offerBaton core) { s2 with fresh := s2.fresh + 1 }

/-- The halt line falls once no cohort of the context is in handler mode (R241). -/
def State.handlerDone (s : State) (k : BitVec 16) : State :=
  if s.cohorts.any fun c => c.ctx == k && c.hmode then s else s.haltFall k

end Sys2Proof.Machine
end

