-- ==== Sys2Proof/Machine/Control.lean ====
section
/-!
DEFINITION. Machine/Control.lean: control flow, software causes, the return from a handler, special registers, launch order
(R33 to R37, R213, R241, R341, R353, R355, R364, R392, R403, R410, R412, R417, R422, R435, R449, R450, R455).
-/

namespace Sys2Proof.Machine

/-- A cause of group 1 or 2 that an instruction raises after decode: W0 of the word, the reason and the operand field (R234). -/
def raiseWord (s : State) (c : Cohort) (opc : BitVec 8) (f : Fields) (group reason field : Nat) : Out :=
  let w0 := (joinWord (f.raw opc)).setWidth 32
  raiseOut s c group (BitVec.ofNat 96 (w0.toNat + (reason + field * 256) * 2 ^ 64)) (c.plainRecs 0 group reason)

/-- NOP (R422). -/
def execNop (_f : Fields) (s : State) : Out := withMe s fun c => finish s c

/-- YIELD changes no architectural state; the issue logic ranks its cohort last (R43, R455). -/
def execYield (_f : Fields) (s : State) : Out := withMe s fun c => finish s c

/-- A 16-bit offset of an instruction's immediate, added to its PC (R329, R355). -/
def rel16 (pc : Word) (x : Word) : Word := pc + (x.setWidth 16).signExtend 32

/-- BRA (R33, R355): a divergent branch gives the taken lanes to the other slot, which is pushed first if it is live; a push
that would make 288 entries raises group 12, reason 1 (R36, R356). -/
def execBra (f : Fields) (s : State) : Out :=
  withMe s fun c =>
    let here := c.here
    let x := c.issuer
    let tgt := rel16 here.pc f.imm
    let jn := rel16 here.pc (f.imm >>> 16)
    let t := here.mask &&& c.guardMask f &&& c.predOf f.oa
    let n := here.mask &&& ~~~t
    if t = 0 then finish s c
    else if n = 0 then .next (s.settleCohort (c.goto tgt))
    else
      let split (d : Cohort) : Cohort :=
        let d1 := d.setSlot (!x) (some { pc := tgt, mask := t })
        { d1.setSlot x (some { pc := here.pc + 1, mask := n }) with j := jn, lastS := x, wait := .none }
      match c.slot (!x) with
      | none => .next (s.settleCohort (split c))
      | some y =>
        match c.push { pc := y.pc, mask := y.mask, outer := c.j } with
        | none => raiseR s c 12 1
        | some d => .next (s.settleCohort (split d))

/-- JMP and JMP.ind (R403): the whole slot moves when any lane passes the guard. -/
def jumpOut (f : Fields) (s : State) (target : Cohort → Word) : Out :=
  withMe s fun c => if c.writeMask f = 0 then finish s c else .next (s.settleCohort (c.goto (target c)))

/-- JMP (R403). -/
def execJmp (f : Fields) (s : State) : Out := jumpOut f s fun c => c.here.pc + f.imm

/-- JMP.ind: the target is read in the elected lane (R403). -/
def execJmpInd (f : Fields) (s : State) : Out := jumpOut f s fun c => s.atElected c f f.oa (c.writeMask f)

/-- CALL (R364): the link is the join above the return PC, written in every lane of the issuing slot. -/
def callOut (f : Fields) (s : State) (target : Cohort → Word) : Out :=
  withMe s fun c =>
    if c.writeMask f = 0 then finish s c
    else
      let m := c.here.mask &&& ~~~c.dead
      let link := Word.pair (c.here.pc + 1) c.j
      .next (s.settleCohort ((c.putLanes64 m f.od [] fun _ => link).goto (target c)))

/-- CALL (R364). -/
def execCall (f : Fields) (s : State) : Out := callOut f s fun c => c.here.pc + f.imm

/-- CALL.ind (R364). -/
def execCallInd (f : Fields) (s : State) : Out := callOut f s fun c => s.atElected c f f.oa (c.writeMask f)

/-- RET (R37, R435): a link whose join differs from J raises group 12, reason 2. -/
def execRet (f : Fields) (s : State) : Out :=
  withMe s fun c =>
    let m := c.writeMask f
    if m = 0 then finish s c
    else
      let link := c.addrElected f f.oa m
      if c.j = DWord.hi link then .next (s.settleCohort (c.goto (DWord.lo link))) else raiseR s c 12 2

/-- ASSERT (R341): a failing lane raises group 7 with the message pointer. -/
def execAssert (f : Fields) (s : State) : Out :=
  withMe s fun c =>
    let bad := c.writeMask f &&& ~~~c.predOf f.oa
    if bad = 0 then finish s c
    else
      let l := elect bad
      let ptr : DWord := match f.ob with
        | .none => 0
        | o => lane64 (c.src64 f o) l &&& 0x1FFFFFFFFFFFFF
      raiseOut s c 7 (ptr.setWidth 96 ||| BitVec.ofNat 96 (l * 2 ^ 53)) (c.plainRecs bad 7 0)

/-- The code that TRAP and BKPT name; 0 when none (R353, R449). -/
def codeOf (s : State) (c : Cohort) (f : Fields) : Word :=
  match f.oa with
  | .none => 0
  | o => (s.src c f o).lane 0

/-- TRAP (R449): group 8 with its code. -/
def execTrap (f : Fields) (s : State) : Out :=
  withMe s fun c =>
    if c.writeMask f = 0 then finish s c else raiseOut s c 8 ((codeOf s c f).setWidth 96) (c.plainRecs 0 8 0)

/-- BKPT (R353): group 9, reason 1, with its code. -/
def execBkpt (f : Fields) (s : State) : Out :=
  withMe s fun c =>
    if c.writeMask f = 0 then finish s c
    else raiseOut s c 9 ((codeOf s c f).setWidth 96 ||| BitVec.ofNat 96 (2 ^ 64)) (c.plainRecs 0 9 1)

/-- TRET (R241, R450): reason 8 outside handler mode; reason 6 when the handler is not reconverged or the rebuild has no room.
The halt line falls when no cohort of the context is left in handler mode. -/
def execTret (f : Fields) (s : State) : Out :=
  withMe s fun c =>
    let m := c.writeMask f
    if m = 0 then finish s c
    else match c.kctl with
      | none => raiseR s c 12 8
      | some k =>
        if c.hmode = false then raiseR s c 12 8
        else if (c.s0.isSome && c.s1.isSome) || k.nStk + k.nSpill != c.stack.length then raiseR s c 12 6
        else
          let alt := match f.oa with
            | .none => c.epc + 1
            | o => s.atElected c f o m
          match c.leaveHandler k alt with
          | none => raiseR s c 12 6
          | some d => .next ((s.settleCohort { d with wait := .none }).handlerDone c.ctx)

/-! ### Launch order (R213) -/

/-- Whether every cohort of a list of cohorts has executed LREL. -/
def allReleased (cs : List Cohort) : Bool := cs.all (·.lrel)

/-- Whether every workgroup of a launch has released: it has exited, or each of its cohorts has executed LREL (R213). -/
def State.launchReleased (s : State) (l : Launch) : Bool :=
  let resident := (s.wgs.filter fun w => w.launch == l.id && w.role != .secondary && allReleased (s.cohorts.filter fun c => c.wg == w.id)).length
  let saved := (s.saved.filter fun v => v.wg.launch == l.id && v.wg.role != .secondary && allReleased v.cohorts).length
  let parked := (s.parked.filter fun p => p.launch == l.id && p.lrel).length
  l.complete || l.nwg ≤ l.exited + resident + saved + parked

/-- A packet by its queue and sequence number. -/
def State.packet? (s : State) (q : Nat) (seq : Word) : Option PacketEntry := s.packets.find? fun p => p.queue == q && p.seq == seq

/-- TYPE of a packet (R198). -/
def PacketEntry.type (p : PacketEntry) : Nat := bitsOf (p.words.getD 0 0).toNat 15 8

/-- Whether stores of cohorts of a launch that have exited still wait in a combining buffer (R135). -/
def State.exitedStores (s : State) (l : Launch) : Bool :=
  s.cores.any fun k => k.wc.any fun w => w.owners.any fun o => o.1 == l.id && (s.cohort? o.2).isNone

/-- Whether GATE lets a cohort of a launch pass: it has no predecessor, or each workgroup of the predecessor has released, and the stores
of those that exited are performed (R135, R213). -/
def State.gateOpen (s : State) (l : Launch) : Bool :=
  l.successor || (match l.pred with
    | none => true
    | some q =>
      match s.packet? l.queue q with
      | none => true
      | some p =>
        p.done || p.refused || (p.type != 1 && p.type != 2) ||
        (if p.started then
          (s.launches.filter fun m => m.queue == l.queue && m.seq == q && !m.successor).all fun m => s.launchReleased m && !s.exitedStores m
         else p.type == 2 && !p.grids))

/-- GATE (R213, R392): the cohort waits until each workgroup of the predecessor has released. -/
def execGate (_f : Fields) (s : State) : Out :=
  withMe s fun c =>
    let free := match s.launchOf c with
      | none => true
      | some l => s.gateOpen l
    if free then finish s c else waitHere s c

/-! ### Special registers (R52, R412, R417) -/

/-- Whether a special register is 64-bit (R52). -/
def wideSpecial (i : Nat) : Bool := i = 0x0C ∨ i = 0x0D ∨ i = 0x10 ∨ i = 0x11

/-- MFS (R412): a full write takes the shape of R52. In an Indigo pair $CYCLE, $MGEN and $LQVER are the primary's (R296). -/
def execMfs (f : Fields) (s : State) : Out :=
  withMe s fun c =>
    let m := c.writeMask f
    let i := opndIndex f.oa
    let d := opndIndex f.od
    let put (s : State) (c : Cohort) (v : DWord) : Out :=
      finish s ((c.putVec m d (fun _ => DWord.lo v) (.u (DWord.lo v))).putVec m (d + 1) (fun _ => DWord.hi v) (.u (DWord.hi v)))
    if wideSpecial i then
      if i = 0x10 then outsideValue s c (s.special64 c i) put else put s c (s.special64 c i)
    else if i = 0x0A ∨ i = 0x12 then
      outsideValue s c (((s.special c i).lane 0).setWidth 64) fun s c v => finish s (c.putVec m d (fun _ => DWord.lo v) (.u (DWord.lo v)))
    else
      let v := s.special c i
      finish s (c.putVec m d v.lane v)

/-- The reserved bits of a special register (R53, R54). -/
def specialReserved (i : Nat) : DWord := if i = 0x0B then 0xFFFFFFF0 else if i = 0x0E then 0xFFFFE0C0 else 0

/-- The effect of an MTS on a cohort (R417): $PRIO, $VSTAT, $ARRIVE, $SRSEED, $ACTMASK or $EPC. -/
def Cohort.setSpecial (c : Cohort) (i : Nat) (v : DWord) : Cohort :=
  match i with
  | 0x0B => { c with prio := v.setWidth 4 }
  | 0x0E => { c with vstat := DWord.lo v }
  | 0x0F => { c with arrive := DWord.lo v }
  | 0x11 => { c with srseed := v }
  | 0x0C =>
    match c.kctl with
    | some k =>
      let x := match (if c.traps then k.s1 else k.s0) with
        | some p => p.mask
        | none => 0
      { c with kctl := some { k with act := v &&& x } }
    | none => c
  | 0x17 => { c with epc := DWord.lo v }
  | _ => c

/-- A write of $LQVER by a core: of the writes of one cycle that of the highest core stands, and the die's join unit uses the value before them
until the cycle ends (R417, R418). -/
def State.writeLqver (s : State) (core : Nat) (v : Word) : State :=
  let d := s.die (dieOf core)
  let now := s.cycle (dieOf core)
  match d.lqWrite with
  | some (t, k, old) =>
    if t ≠ now then s.setDie { d with lqver := v, lqWrite := some (now, core, d.lqver) }
    else if core < k then s
    else s.setDie { d with lqver := v, lqWrite := some (now, core, old) }
  | none => s.setDie { d with lqver := v, lqWrite := some (now, core, d.lqver) }

/-- MTS (R417, R418). A write of a register marked RO does not pass the decoder (R323). -/
def execMts (f : Fields) (s : State) : Out :=
  withMe s fun c =>
    let m := c.writeMask f
    let i := opndIndex f.od
    if m = 0 then finish s c
    else if (i = 0x0C ∨ i = 0x17) ∧ c.hmode = false then raiseR s c 12 4
    else
      let v : DWord := if wideSpecial i then c.addrElected f f.oa m else (s.atElected c f f.oa m).setWidth 64
      if v &&& specialReserved i ≠ 0 then raiseWord s c 0xE1 f 2 7 0
      else if i = 0x12 then
        finish (if c.role = .secondary then s else s.writeLqver c.core (DWord.lo v)) c
      else finish s (c.setSpecial i v)

end Sys2Proof.Machine
end

