-- ==== Sys2Proof/Machine/Logic.lean ====
section
/-!
DEFINITION. Machine/Logic.lean: logic, shifts and bit operations (R338, R351, R352, R357, R369, R423, R429, R444).
-/

namespace Sys2Proof.Machine

/-- A two-source instruction without flags (R338). -/
def logicOut2 (f : Fields) (s : State) (op : Word → Word → Word) : Out :=
  withMe s fun c =>
    let a := s.src c f f.oa
    let b := s.src c f f.ob
    vecOut s c f [a, b] none fun l => op (a.lane l) (b.lane l)

/-- A one-source instruction without flags. -/
def logicOut1 (f : Fields) (s : State) (op : Word → Word) : Out :=
  withMe s fun c =>
    let a := s.src c f f.oa
    vecOut s c f [a] none fun l => op (a.lane l)

/-- AND (R338). -/
def execAnd (f : Fields) (s : State) : Out := logicOut2 f s fun a b => a &&& b

/-- ANDN (R338). -/
def execAndn (f : Fields) (s : State) : Out := logicOut2 f s fun a b => a &&& ~~~b

/-- OR (R423). -/
def execOr (f : Fields) (s : State) : Out := logicOut2 f s fun a b => a ||| b

/-- XOR (R423). -/
def execXor (f : Fields) (s : State) : Out := logicOut2 f s fun a b => a ^^^ b

/-- NOT (R423). -/
def execNot (f : Fields) (s : State) : Out := logicOut1 f s fun a => ~~~a

/-- The number of set bits (R429). -/
def popCount (a : Word) : Nat := (List.range 32).foldl (fun k i => if a.getLsbD i then k + 1 else k) 0

/-- POPC (R429). -/
def execPopc (f : Fields) (s : State) : Out := logicOut1 f s fun a => BitVec.ofNat 32 (popCount a)

/-- The number of zero bits above the highest set bit; 32 for zero (R369). -/
def leadingZeros (a : Word) : Nat := ((List.range 32).find? fun i => a.getLsbD (31 - i)).getD 32

/-- CLZ (R369). -/
def execClz (f : Fields) (s : State) : Out := logicOut1 f s fun a => BitVec.ofNat 32 (leadingZeros a)

/-- Bit i moves to bit 31 − i (R357). -/
def bitReverse (a : Word) : Word :=
  BitVec.ofNat 32 ((List.range 32).foldl (fun acc i => 2 * acc + (if a.getLsbD i then 1 else 0)) 0)

/-- BREV (R357). -/
def execBrev (f : Fields) (s : State) : Out := logicOut1 f s bitReverse

/-- The length of a field at a position, cut at bit 31 (R351). -/
def fieldLen (len pos : Nat) : Nat := min (len % 64) (32 - pos)

/-- A field extracted and extended (R352). -/
def bitExtract (signed : Bool) (a p n : Word) : Word :=
  let pos := p.toNat % 32
  let len := fieldLen n.toNat pos
  let v := a.toNat / 2 ^ pos % 2 ^ len
  if len = 0 then 0 else if signed then BitVec.ofInt 32 (signedOf len v) else BitVec.ofNat 32 v

/-- BFX (R352). -/
def execBfx (f : Fields) (s : State) : Out :=
  withMe s fun c =>
    let a := s.src c f f.oa
    let b := s.src c f f.ob
    let d := s.src c f f.oc
    vecOut s c f [a, b, d] none fun l => bitExtract (f.typ == .s32) (a.lane l) (b.lane l) (d.lane l)

/-- A field replaced (R351). -/
def bitInsert (a b p n : Word) : Word :=
  let pos := p.toNat % 32
  let len := fieldLen n.toNat pos
  let m : Word := BitVec.ofNat 32 ((2 ^ len - 1) * 2 ^ pos)
  (a &&& ~~~m) ||| ((b <<< pos) &&& m)

/-- BFI (R351). -/
def execBfi (f : Fields) (s : State) : Out :=
  withMe s fun c =>
    let a := s.src c f f.oa
    let b := s.src c f f.ob
    let d := s.src c f f.oc
    let e := s.src c f f.oe
    vecOut s c f [a, b, d, e] none fun l => bitInsert (a.lane l) (b.lane l) (d.lane l) (e.lane l)

/-- A shift of a pair without flags (R444). -/
def shiftWide (f : Fields) (s : State) (op : DWord → Nat → DWord) : Out :=
  withMe s fun c =>
    let a := c.src64 f f.oa
    let b := s.src c f f.ob
    finish s (c.putLanes64 (c.writeMask f) f.od [a.1, a.2, b] fun l => op (lane64 a l) ((b.lane l).toNat % 64))

/-- Rule 6 of R60 for SHL: an A source by a U amount. -/
def affineShl (a b : VReg) : Option VReg :=
  match a, b with
  | .a x st, .u n => some (VReg.affine (x <<< (n.toNat % 32)) (st <<< (n.toNat % 32)))
  | _, _ => none

/-- SHL (R444). -/
def execShl (f : Fields) (s : State) : Out :=
  if f.sub = 1 then shiftWide f s fun a n => a <<< n
  else withMe s fun c =>
    let a := s.src c f f.oa
    let b := s.src c f f.ob
    flaggedOut s c f [a, b] (affineIf f (affineShl a b)) fun l =>
      let r := iclamp f.typ f.sat (exact32 f.typ (a.lane l) * 2 ^ ((b.lane l).toNat % 32))
      (BitVec.ofNat 32 r.1, r.2)

/-- SHR (R444). -/
def execShr (f : Fields) (s : State) : Out :=
  if f.sub = 1 then shiftWide f s fun a n => a >>> n
  else logicOut2 f s fun a b => a >>> (b.toNat % 32)

/-- SHRA (R444). -/
def execShra (f : Fields) (s : State) : Out := logicOut2 f s fun a b => a.sshiftRight (b.toNat % 32)

end Sys2Proof.Machine
end

