-- ==== Sys2Proof/Machine/Cross.lean ====
section
/-!
DEFINITION. Machine/Cross.lean: cross-lane and shape instructions (R63, R64, R350, R434, R441 to R443, R452, R453).
-/

namespace Sys2Proof.Machine

/-- Whether a lane may be read across lanes: below w, active in the issuing slot and not dead (R441). -/
def Cohort.validLane (c : Cohort) (k : Nat) : Bool := k < c.width && c.here.mask.getLsbD k && !c.dead.getLsbD k

/-- A cross-lane read: each lane of M takes lane `src l` of a register, or its fill, or keeps its old value. The result is U
only when the source is U, the write is full and every lane reads a valid lane (R441, R443). -/
def crossOut (f : Fields) (s : State) (c : Cohort) (src : Nat → Option Nat) (fill : Option VReg) : Out :=
  let m := c.writeMask f
  let a := s.src c f f.oa
  let d := opndIndex f.od
  let old := c.reg d
  let valid (l : Nat) : Option Nat := (src l).bind fun k => if c.validLane k then some k else none
  let lane (l : Nat) : Word :=
    match valid l with
    | some k => a.lane k
    | none => match fill with
      | some v => v.lane l
      | none => old.lane l
  let allValid := (laneList m).all fun l => (valid l).isSome
  let shape := if a.isU && allValid then .u (a.lane 0) else c.general lane
  let wrote := (laneList m).any fun l => (valid l).isSome || fill.isSome
  finish s (if wrote then c.putVec m d lane shape else c)

/-- The lane that each lane of a SHFL reads (R441). -/
def State.shflSrc (s : State) (c : Cohort) (f : Fields) (l : Nat) : Option Nat :=
  let b := s.src c f f.ob
  some (if f.sub = 1 then l ^^^ (b.lane l).toNat else (b.lane l).toNat)

/-- The lane that each lane of a SLIDE reads; the distance is read in the elected lane (R441). -/
def State.slideSrc (s : State) (c : Cohort) (f : Fields) (l : Nat) : Option Nat :=
  let k := (s.atElected c f f.ob (c.writeMask f)).toNat
  if f.sub = 1 then some (l + k) else if l < k then none else some (l - k)

/-- The lane that each lane of a SWZX reads (R441, R442). -/
def swzxSrc (f : Fields) (l : Nat) : Option Nat :=
  let g := 2 ^ ((f.imm >>> 24) &&& 3).toNat
  some (l / g * g + ((f.imm >>> (3 * (l % g))) &&& 7).toNat)

/-- SHFL (R441). -/
def execShfl (f : Fields) (s : State) : Out := withMe s fun c => crossOut f s c (s.shflSrc c f) none

/-- SLIDE (R441): the fill per lane when OC is named. -/
def execSlide (f : Fields) (s : State) : Out :=
  withMe s fun c =>
    let fill := match f.oc with
      | .none => none
      | o => some (s.src c f o)
    crossOut f s c (s.slideSrc c f) fill

/-- SWZX: groups of 2, 4 or 8 lanes permuted by selectors (R441, R442). -/
def execSwzx (f : Fields) (s : State) : Out := withMe s fun c => crossOut f s c (swzxSrc f) none

/-- BCAST: one lane's value to every lane of M; an invalid lane writes nothing (R350). -/
def execBcast (f : Fields) (s : State) : Out :=
  withMe s fun c =>
    let m := c.writeMask f
    let k := (s.atElected c f f.ob m).toNat
    let v := (s.src c f f.oa).lane k
    finish s (if m ≠ 0 ∧ c.validLane k then c.putVec m (opndIndex f.od) (fun _ => v) (.u v) else c)

/-- VOTE (R453). -/
def execVote (f : Fields) (s : State) : Out :=
  withMe s fun c =>
    let m := c.writeMask f
    let b := c.predOf f.oa &&& m
    let n := (laneList b).length
    let put (v : Word) : Cohort :=
      match f.od with
      | .p i => c.putPred m i (if v = 0 then 0 else m)
      | _ => c.putVec m (opndIndex f.od) (fun _ => v) (.u v)
    match f.sub.toNat with
    | 0 => finish s (put (if 0 < n then 1 else 0))
    | 1 => finish s (put (if b = m then 1 else 0))
    | 2 =>
      let d := opndIndex f.od
      finish s ((c.putVec m d (fun _ => DWord.lo b) (.u (DWord.lo b))).putVec m (d + 1) (fun _ => DWord.hi b) (.u (DWord.hi b)))
    | _ => finish s (put (BitVec.ofNat 32 n))

/-- The larger or smaller of two F32 words as FMAX and FMIN give it (R386): NaN gives NaN, and −0 is less than +0. -/
def fpMinMax (f : Fmt) (wantMax : Bool) (x y : Nat) : Nat :=
  let a := fpVal f x
  let b := fpVal f y
  if a.isNan || b.isNan then f.nanBits
  else
    let r := fpCmp a b
    let less := if r = 0 then (match a, b with
        | .fin s _ _, .fin t _ _ => s && !t
        | _, _ => false) else decide (r < 0)
    if wantMax then (if less then y else x) else (if less || r = 0 && x = y then x else if r < 0 then x else y)

/-- One fold of REDL or SCANL with its flags (R434). Operations: 0 add, 1 min, 2 max, 3 and, 4 or, 5 xor. -/
def foldLane (t : Typ) (op : Nat) (x y : Word) : Word × BitVec 6 :=
  match op with
  | 0 =>
    if t = .f32 then
      let v := fpAdd .rne (fpVal f32 x.toNat) (fpVal f32 y.toNat)
      let r := roundArith f32 .rne 0 v.1
      (BitVec.ofNat 32 r.1, v.2 ||| r.2)
    else (x + y, 0)
  | 1 =>
    if t = .f32 then (BitVec.ofNat 32 (fpMinMax f32 false x.toNat y.toNat), 0)
    else (if exact32 t x ≤ exact32 t y then x else y, 0)
  | 2 =>
    if t = .f32 then (BitVec.ofNat 32 (fpMinMax f32 true x.toNat y.toNat), 0)
    else (if exact32 t y ≤ exact32 t x then x else y, 0)
  | 3 => (x &&& y, 0)
  | 4 => (x ||| y, 0)
  | _ => (x ^^^ y, 0)

/-- The running folds over a list of words: what stands after each, and the flags of all (R434). -/
def scanWords (t : Typ) (op : Nat) : Option Word → List Word → List (Word × BitVec 6)
  | _, [] => []
  | none, x :: xs => (x, 0) :: scanWords t op (some x) xs
  | some a, x :: xs =>
    let r := foldLane t op a x
    r :: scanWords t op (some r.1) xs

/-- REDL (R434): the fold of the lanes of M, written to each; U under a full write. -/
def execRedl (f : Fields) (s : State) : Out :=
  withMe s fun c =>
    let m := c.writeMask f
    let a := s.src c f f.oa
    let rs := scanWords f.typ f.sub.toNat none ((laneList m).map a.lane)
    let v := match rs.getLast? with
      | some r => r.1
      | none => 0
    let fl := rs.foldl (fun acc r => acc ||| r.2) 0
    withFlags s c m (fun _ => fl) fun d => d.putVec m (opndIndex f.od) (fun _ => v) (.u v)

/-- SCANL (R434): inclusive, or exclusive for `.addx`; always G. -/
def execScanl (f : Fields) (s : State) : Out :=
  withMe s fun c =>
    let m := c.writeMask f
    let a := s.src c f f.oa
    let ls := laneList m
    let op := if f.sub = 3 then 0 else f.sub.toNat
    let rs := scanWords f.typ op none (ls.map a.lane)
    let outs := if f.sub = 3 then (0 : Word) :: rs.map (·.1) else rs.map (·.1)
    -- every addition of the fold is made, the last one too
    let fl (l : Nat) : BitVec 6 := match (ls.zip rs).find? fun p => p.1 == l with
      | some p => p.2.2
      | none => 0
    let lane (l : Nat) : Word := match (ls.zip outs).find? fun p => p.1 == l with
      | some p => p.2
      | none => 0
    withFlags s c m fl fun d => d.putVec m (opndIndex f.od) lane (d.general lane)

/-- VSHAPE: the tag code of a register (R64, R452). -/
def execVshape (f : Fields) (s : State) : Out :=
  withMe s fun c =>
    if c.writeMask f = 0 then finish s c
    else finish s (c.putUniform (opndIndex f.od) (BitVec.ofNat 32 (c.reg (opndIndex f.oa)).tag))

/-- What VSQZ finds in a register: the most compact shape that holds the words of the lanes that are not dead (R64). -/
def Cohort.squeeze (c : Cohort) (a : VReg) : VReg :=
  match (List.range c.width).filter fun l => !c.dead.getLsbD l with
  | [] => .u 0
  | [l] => .u (a.lane l)
  | l0 :: l1 :: rest =>
    let ls := l0 :: l1 :: rest
    let stride := a.lane l1 - a.lane l0
    let base := a.lane l0 - BitVec.ofNat 32 l0 * stride
    if ls.all fun l => a.lane l == a.lane l0 then .u (a.lane l0)
    else if l1 = l0 + 1 ∧ (ls.all fun l => a.lane l == base + BitVec.ofNat 32 l * stride) = true then .a base stride
    else c.general a.lane

/-- VSQZ (R64, R452). -/
def execVsqz (f : Fields) (s : State) : Out :=
  withMe s fun c =>
    if c.writeMask f = 0 then finish s c
    else finish s (c.setReg (opndIndex f.od) (c.squeeze (c.reg (opndIndex f.oa))))

/-- VEXP (R64, R452). -/
def execVexp (f : Fields) (s : State) : Out :=
  withMe s fun c =>
    if c.writeMask f = 0 then finish s c
    else finish s (c.setReg (opndIndex f.od) (c.general (c.reg (opndIndex f.oa)).lane))

end Sys2Proof.Machine
end

