-- ==== Sys2Proof/Machine/Packets.lean ====
section
/-!
DEFINITION. Machine/Packets.lean: what travels on the fabric, bit by bit: flits with their CRC (R189), packet headers (R192), and what
each kind carries (R176, R194, R250, R252, R257, R266, R278).
-/

namespace Sys2Proof

open Machine

/-! ### The rank table as bytes (R257) -/

/-- The bytes of an entry (R257). -/
def RankEntry.bytes (e : RankEntry) : List Byte :=
  natBytes 16 (packBits [(0, e.faddr.toNat), (20, e.state.toNat), (24, e.pod.toNat), (32, e.pdom.toNat), (48, e.shard.toNat),
    (80, e.groups.toNat)])

/-- The bytes of a table's entries. -/
def RankTable.entryBytes (t : RankTable) : List Byte := t.entries.flatMap RankEntry.bytes

/-- The bytes of a table (R257). -/
def RankTable.bytes (t : RankTable) : List Byte :=
  natBytes 64 (packBits ([(0, t.gen.toNat), (32, t.entries.length), (48, bit01 t.risk), (49, bit01 t.fallback), (160, t.step.toNat),
    (192, t.ckstep.toNat), (256, t.digest.toNat)] ++ t.leaders.mapIdx fun k l => (64 + 16 * k, l.toNat))) ++ t.entryBytes

/-- An entry from its 128 bits; `resv` gathers the reserved ones (R257). -/
def RankEntry.ofNat (v : Nat) : RankEntry :=
  { groups := BitVec.ofNat 16 (bitsOf v 95 80), shard := BitVec.ofNat 20 (bitsOf v 67 48), pdom := BitVec.ofNat 16 (bitsOf v 47 32),
    pod := BitVec.ofNat 4 (bitsOf v 27 24), state := BitVec.ofNat 4 (bitsOf v 23 20), faddr := BitVec.ofNat 20 (bitsOf v 19 0),
    resv := bitsOf v 31 28 + bitsOf v 79 68 * 2 ^ 4 + bitsOf v 127 96 * 2 ^ 16 }

/-- A table from its bytes; `none` where NRANK says more entries than there are bytes for, or none (R257). -/
def RankTable.ofBytes (bs : List Byte) : Option RankTable :=
  let h := leNat (bs.take 64)
  let n := bitsOf h 47 32
  if n = 0 ∨ bs.length < 64 + 16 * n then none
  else some { gen := BitVec.ofNat 32 (bitsOf h 31 0), risk := bitsOf h 48 48 = 1, fallback := bitsOf h 49 49 = 1,
              leaders := (List.range 5).map fun k => BitVec.ofNat 16 (bitsOf h (79 + 16 * k) (64 + 16 * k)),
              step := BitVec.ofNat 32 (bitsOf h 191 160), ckstep := BitVec.ofNat 32 (bitsOf h 223 192), digest := BitVec.ofNat 64 (bitsOf h 319 256),
              resv := bitsOf h 63 50 + bitsOf h 159 144 * 2 ^ 14 + bitsOf h 255 224 * 2 ^ 30 + bitsOf h 511 320 * 2 ^ 62,
              entries := (List.range n).map fun r => RankEntry.ofNat (leNat ((bs.drop (64 + 16 * r)).take 16)) }

/-! ### Kinds and classes (R191, R192) -/

/-- The traffic class of a packet (R191). -/
def PktBody.cls : PktBody → Nat
  | .pullReq _ _ | .pullResp _ _ _ => 1
  | .cloneReq _ _ _ | .cloneResp _ _ _ _ _ => 2
  | .reward _ | .rewardAck => 3
  | _ => 0

/-- KIND of a packet (R192). -/
def PktBody.kind : PktBody → Nat
  | .heartbeat _ => 0x01
  | .podArrive _ | .podComplete _ => 0x03
  | .pullReq _ _ => 0x10
  | .pullResp _ _ _ => 0x11
  | .cloneReq _ _ _ => 0x20
  | .cloneResp _ _ _ _ _ => 0x21
  | .reward _ => 0x30
  | .rewardAck => 0x31
  | .unknown k => k.toNat
  | _ => 0x02

/-- MTYPE and content of a membership message (R252). -/
def PktBody.memMsg? : PktBody → Option (Nat × MemMsg)
  | .suspect m => some (1, m) | .withdraw m => some (2, m) | .prepare m => some (3, m) | .promise m => some (4, m)
  | .propose m => some (5, m) | .accept m => some (6, m) | .commit m => some (7, m) | .joined m => some (8, m) | .seal m => some (9, m)
  | _ => none

/-- The membership message of an MTYPE; others are unknown (R252). -/
def PktBody.ofMem (mtype : Nat) (m : MemMsg) : PktBody :=
  match mtype with
  | 1 => .suspect m | 2 => .withdraw m | 3 => .prepare m | 4 => .promise m | 5 => .propose m | 6 => .accept m | 7 => .commit m
  | 8 => .joined m | 9 => .seal m
  | _ => .unknown 2

/-! ### KSPEC (R176, R194, R250, R252, R266, R278) -/

/-- The 128 bits of KSPEC in the header: of a pull (DESIGN CHOICE, log entry 79), of a clone pull (R266) and of a reward (R278). -/
def PktBody.kspec : PktBody → Nat
  | .pullReq core line => packBits [(0, core), (16, line)]
  | .pullResp refused line _ => packBits [(16, line), (32, bit01 refused)]
  | .cloneReq st step fp => packBits [(0, st), (32, step.toNat), (64, if fp then 2 else 1)]
  | .cloneResp st step reason fp _ => packBits [(0, st), (32, step.toNat)] + (match fp with
    | some v => v.toNat * 2 ^ 64
    | none => reason.toNat * 2 ^ 72)
  | .reward m => packBits [(0, m.traj.toNat), (64, m.step.toNat), (80, m.flags.toNat), (96, m.reward.toNat)]
  | _ => 0

/-- The 256 bits that R194, R250 and R252 lay out for the kinds of class 0; they follow the header (DESIGN CHOICE, log entry 79). -/
def PktBody.control (b : PktBody) : Nat :=
  match b with
  | .heartbeat h => packBits [(96, h.seq.toNat), (132, h.state.toNat), (160, h.pdom.toNat), (192, h.step.toNat), (224, h.ckstep.toNat)]
  | .podArrive p => packBits [(0, p.wgid.toNat), (32, p.seq.toNat), (80, p.ctxid.toNat), (96, p.queue.toNat), (112, p.phase.toNat), (128, 1)]
  | .podComplete p => packBits [(0, p.wgid.toNat), (32, p.seq.toNat), (80, p.ctxid.toNat), (96, p.queue.toNat), (112, p.phase.toNat), (128, 2)]
  | b => match b.memMsg? with
    | some (t, m) => packBits [(128, t), (160, m.ballot.toNat), (192, m.subj.toNat), (224, m.newgen.toNat)]
    | none => 0

/-- Bytes of payload in one flit (R189). -/
def flitBytes : Nat := 244

/-- The bytes of a packet behind its 32-byte header: for class 0 the 256 bits of its layout, and a table in the further flits (R252); for
pulls and clone pulls the data. -/
def PktBody.bytes (b : PktBody) : List Byte :=
  match b with
  | .pullResp false _ data => data
  | .cloneResp _ _ _ _ data => data
  | b =>
    if b.cls = 0 then
      natBytes 32 b.control ++ (match b.memMsg?.bind fun m => m.2.table with
        | some t => List.replicate (flitBytes - 64) 0 ++ t.bytes
        | none => [])
    else []

/-- The flits of a packet (R189, R192). -/
def Packet.flits (p : Packet) : Nat := (32 + p.body.bytes.length + (flitBytes - 1)) / flitBytes

/-- The bytes of a packet: its header (R192), then what follows it. -/
def Packet.bytes (p : Packet) : List Byte :=
  natBytes 32 (packBits [(0, p.dst.toNat), (20, p.ddie), (24, p.body.kind), (32, p.src.toNat), (52, p.sdie), (64, p.gen.toNat),
    (96, p.txid.toNat), (112, p.flits % 2 ^ 16), (128, p.body.kspec)]) ++ p.body.bytes

/-- A packet's content from its header's KSPEC `k`, the 256 bits of a control packet `c`, and the bytes behind the header. -/
def PktBody.read (src : BitVec 20) (gen : Word) (kind k c : Nat) (rest : List Byte) : PktBody :=
  let w (v hi lo : Nat) : Word := BitVec.ofNat 32 (bitsOf v hi lo)
  let h (v hi lo : Nat) : BitVec 16 := BitVec.ofNat 16 (bitsOf v hi lo)
  match kind with
  | 0x01 => .heartbeat { src := src, ckstep := w c 255 224, step := w c 223 192, pdom := h c 175 160, state := BitVec.ofNat 4 (bitsOf c 135 132),
                         seq := w c 127 96 }
  | 0x02 => PktBody.ofMem (bitsOf c 135 128)
      { src := src, newgen := w c 255 224, subj := w c 223 192, ballot := w c 191 160, table := RankTable.ofBytes (rest.drop (flitBytes - 32)) }
  | 0x03 =>
    let p : PodPkt := { src := src, gen := gen, phase := h c 127 112, queue := h c 111 96, ctxid := h c 95 80, seq := w c 63 32, wgid := w c 31 0 }
    if bitsOf c 135 128 = 1 then .podArrive p else if bitsOf c 135 128 = 2 then .podComplete p else .unknown 3
  | 0x10 => .pullReq (bitsOf k 15 0) (bitsOf k 31 16)
  | 0x11 => .pullResp (bitsOf k 32 32 = 1) (bitsOf k 31 16) rest
  | 0x20 =>
    if bitsOf k 71 64 = 1 ∨ bitsOf k 71 64 = 2 then .cloneReq (bitsOf k 31 0) (w k 63 32) (bitsOf k 71 64 = 2) else .unknown 0x20
  | 0x21 =>
    let v := bitsOf k 127 64
    let reason := bitsOf v 15 8
    if rest ≠ [] then .cloneResp (bitsOf k 31 0) (w k 63 32) 0 none rest
    else if 1 ≤ reason ∧ reason ≤ 3 ∧ v = reason * 256 then .cloneResp (bitsOf k 31 0) (w k 63 32) (BitVec.ofNat 8 reason) none []
    else .cloneResp (bitsOf k 31 0) (w k 63 32) 0 (some (BitVec.ofNat 64 v)) []
  | 0x30 => .reward { traj := BitVec.ofNat 64 (bitsOf k 63 0), step := h k 79 64, flags := BitVec.ofNat 8 (bitsOf k 87 80), reward := w k 127 96, gen := gen }
  | 0x31 => .rewardAck
  | n => .unknown (BitVec.ofNat 8 n)

/-- A packet from its bytes (R192). -/
def Packet.ofBytes (bs : List Byte) : Packet :=
  let v := leNat (bs.take 32)
  let src := BitVec.ofNat 20 (bitsOf v 51 32)
  let gen := BitVec.ofNat 32 (bitsOf v 95 64)
  let rest := bs.drop 32
  { src := src, sdie := bitsOf v 55 52, dst := BitVec.ofNat 20 (bitsOf v 19 0), ddie := bitsOf v 23 20, gen := gen,
    txid := BitVec.ofNat 16 (bitsOf v 111 96), body := PktBody.read src gen (bitsOf v 31 24) (bitsOf v 255 128) (leNat (rest.take 32)) rest }

/-- NFLIT of the header at the beginning of a first flit's payload (R192). -/
def headerFlits (bs : List Byte) : Nat := bitsOf (leNat (bs.take 32)) 127 112

/-! ### Flits (R189) -/

/-- One byte of CRC-32C, lowest bit first. -/
def crc32cByte (acc b : Nat) : Nat :=
  (List.range 8).foldl (fun a _ => if a % 2 = 1 then (a / 2) ^^^ 0x82F63B78 else a / 2) (acc ^^^ b)

/-- The lowest `n` bytes of a number taken into CRC-32C one after the other. The match says only that the next byte's two numbers are known
before it: an evaluation then holds no chain of 252 bytes. -/
def crc32cFrom : Nat → Nat → Nat → Nat
  | 0, _, acc => acc
  | n + 1, v, acc =>
    match crc32cByte acc (v % 256), v / 256 with
    | 0, 0 => crc32cFrom n 0 0
    | 0, w + 1 => crc32cFrom n (w + 1) 0
    | a + 1, 0 => crc32cFrom n 0 (a + 1)
    | a + 1, w + 1 => crc32cFrom n (w + 1) (a + 1)

/-- CRC-32C of the `n` little-endian bytes of a number, with its usual start and final complement (R189; log entry 79). -/
def crc32c (n v : Nat) : Nat := crc32cFrom n v 0xFFFFFFFF ^^^ 0xFFFFFFFF

/-- A flit (R189): its type, class, sequence number, ACK, XOFF and payload, under its CRC. -/
def flitOf (ft cls : Nat) (seq ack : BitVec 16) (xoff : BitVec 4) (payload : List Byte) : BitVec 2048 :=
  let v := packBits [(0, ft), (4, cls), (8, seq.toNat), (24, ack.toNat), (44, xoff.toNat), (56, payload.length - 1), (64, leNat payload)]
  BitVec.ofNat 2048 (v + crc32c 252 v * 2 ^ 2016)

/-- Bits `[hi:lo]` of a flit. -/
def flitField (f : BitVec 2048) (hi lo : Nat) : Nat := bitsOf f.toNat hi lo

/-- Whether a flit's CRC holds (R189). -/
def flitCrcOk (f : BitVec 2048) : Bool := flitField f 2047 2016 == crc32c 252 (flitField f 2015 0)

/-- The bytes that a flit's PLEN says its payload uses, at most 244 (R189). -/
def flitPayload (f : BitVec 2048) : List Byte := natBytes (min flitBytes (flitField f 63 56 + 1)) (flitField f 2015 64)

end Sys2Proof
end

