-- ==== Sys2Proof/Machine/Adopt.lean ====
section
/-!
DEFINITION. Machine/Adopt.lean: packets sent on the fabric (R189 to R193), the rank table as bytes and as a job's view (R257,
R249), amber views read and rolled back (R264, R265), and the adoption of a staged table (R260).
-/

namespace Sys2Proof

open Machine

/-! ### The rank table (R249, R253, R256) -/

/-- The rank that a fabric address has in a table; a vacant entry names no package. -/
def RankTable.rankOf (t : RankTable) (fa : BitVec 20) : Option Nat := t.entries.findIdx? fun e => e.faddr == fa && e.state != 2

/-- The entry of a package in a table. -/
def RankTable.entryOf (t : RankTable) (fa : BitVec 20) : Option RankEntry := (t.rankOf fa).bind fun r => t.entries[r]?

/-- The addresses of the five leaders (R253). -/
def RankTable.leaderAddrs (t : RankTable) : List (BitVec 20) :=
  t.leaders.filterMap fun l => (t.entries[l.toNat]?).map (·.faddr)

/-- The other holders of a rank's SHARD, nearest in rank order first, the lower of two equally near (R249). -/
def RankTable.nearHolders (t : RankTable) (rank : Nat) : List Nat :=
  match t.entries[rank]? with
  | none => []
  | some me =>
    let n := t.entries.length
    (List.range n).flatMap fun d =>
      if d = 0 then [] else
      (([rank - d, rank + d].filter fun r => r < n && r != rank && (d ≤ rank || r != rank - d)).eraseDups).filter fun r =>
        match t.entries[r]? with
        | some e => e.shard == me.shard && e.state != 2
        | none => false

/-- The watch set of a rank (R249): its ring neighbours, up to 14 other holders of its SHARD, and, for a leader, the other
leaders. -/
def RankTable.watchSet (t : RankTable) (rank : Nat) : List Nat :=
  let n := t.entries.length
  let ring := if n ≤ 1 then [] else [(rank + n - 1) % n, (rank + 1) % n]
  let ls := t.leaders.map (·.toNat)
  let others := if ls.contains rank then ls.filter (· != rank) else []
  ((ring ++ (t.nearHolders rank).take 14 ++ others).eraseDups).filter fun r =>
    match t.entries[r]? with
    | some e => e.state != 2
    | none => false

/-- The ranks that watch a rank (R249). -/
def RankTable.watchers (t : RankTable) (rank : Nat) : Nat :=
  ((List.range t.entries.length).filter fun r => ((t.entries[r]?).any fun e => e.state != 2) && (t.watchSet r).contains rank).length

/-- Whether a leader accepts a table (R256). A vacant rank names no package, which none can watch. -/
def RankTable.acceptable (t : RankTable) : Bool :=
  let pd (l : BitVec 16) : Option (BitVec 16) := (t.entries[l.toNat]?).map (·.pdom)
  let live := t.entries.filter fun e => e.state != 2
  t.leaders.length == 5 && t.leaders.all (fun l => (pd l).isSome) && (t.leaders.map pd).Nodup &&
  ((List.range t.entries.length).all fun r => ((t.entries[r]?).any fun e => e.state == 2) || 3 ≤ t.watchers r) &&
  (t.risk || live.all fun e => live.any fun f => f.shard == e.shard && f.pdom != e.pdom) &&
  t.resv == 0 && t.entries.all fun e => e.resv == 0

end Sys2Proof

namespace Sys2Proof.Machine

/-! ### CRC-64/ECMA-182 (R257, R268, R297) -/

/-- One byte of the CRC, highest bit first. -/
def crcByte (acc : DWord) (b : Byte) : DWord :=
  (List.range 8).foldl (fun a _ => if a.getLsbD 63 then (a <<< 1) ^^^ 0x42F0E1EBA9EA3693 else a <<< 1) (acc ^^^ (b.setWidth 64 <<< 56))

/-- CRC-64/ECMA-182 of bytes. -/
def crc64 (bs : List Byte) : DWord := bs.foldl crcByte 0

/-! ### Sending packets (R190 to R192) -/

/-- What classes 1, 2 and 3 may send, in flits, each time the share is dealt (R191). -/
def fullShare : List Nat := [4, 2, 1]

/-- A fabric port before link training. Both ends number data flits from 0 (log entry 20). -/
def Port.init (n : Nat) : Port :=
  { num := n, up := false, seqTx := 0, ackRx := 0xFFFF, replay := [], lastRx := 0xFFFF, nacks := 0, xoff := 0, xoffOut := 0, held := [],
    queued := [], share := fullShare, parts := [], counts := List.replicate 6 0 }

/-- A fabric port. -/
def State.port (s : State) (n : Nat) : Port := (s.ports.find? (·.num == n)).getD (Port.init n)

/-- Replaces a port. -/
def State.setPort (s : State) (p : Port) : State := { s with ports := upsertBy Port.num p s.ports }

/-- Count `i` of R193 goes up by a number. -/
def Port.countBy (p : Port) (i n : Nat) : Port := { p with counts := p.counts.set i (satAdd (p.counts.getD i 0) n) }

/-- Count `i` of R193 goes up by one. -/
def Port.countUp (p : Port) (i : Nat) : Port := p.countBy i 1

/-- The receiver's reservation for a class, in flits (R191). -/
def reservation (cls : Nat) : Nat :=
  match cls with
  | 0 => 256
  | 3 => 512
  | _ => 2048

/-- Flits of a class that a port keeps: of packets that are arriving, and of held ones (R191, R193). -/
def Port.kept (p : Port) (cls : Nat) : Nat :=
  ((p.parts.filter (·.cls == cls)).map (·.got)).sum + ((p.held.filter fun h => h.1.body.cls == cls).map fun h => h.1.flits).sum

/-- A class is halted when its free flits fall to H, and goes on when they reach H + 32 (R191). -/
def Port.pressure (p : Port) : Port :=
  let h := (Config.roundTrip p.num).val
  let halt (k : Nat) : Bool :=
    let free := reservation k - p.kept k
    free ≤ h || (p.xoffOut.getLsbD k && free < h + 32)
  { p with xoffOut := BitVec.ofNat 4 (packBits ((List.range 4).map fun k => (k, bit01 (halt k)))) }

/-- A flit as it leaves: every flit reports ACK, and the classes that this end halts (R189 to R191). -/
def Port.flit (p : Port) (ft cls : Nat) (seq : BitVec 16) (data : List Byte) : OutMsg := .flit p.num (flitOf ft cls seq p.lastRx p.xoffOut data)

/-- The class whose flit leaves next: control first; then of the classes with packets that are not halted the lowest that has a share left,
the share being dealt again when none has (R191; log entry 20). `true` says that it is dealt again. -/
def Port.nextClass (p : Port) : Option (Nat × Bool) :=
  let ready (k : Nat) : Bool := !p.xoff.getLsbD k && p.queued.any fun q => q.1.body.cls == k
  let left (k : Nat) : Bool := ready k && p.share.getD (k - 1) 0 != 0
  if ready 0 then some (0, false)
  else match ([1, 2, 3].find? left) with
    | some k => some (k, false)
    | none => ([1, 2, 3].find? ready).map fun k => (k, true)

/-- Flits leave a port while the replay buffer of 512 has room and a class may send (R190, R191). -/
def pumpFlits : Nat → Port → Port × List OutMsg
  | 0, p => (p, [])
  | n + 1, p =>
    match p.nextClass with
    | none => (p, [])
    | some (k, dealt) =>
      match p.queued.find? fun q => q.1.body.cls == k with
      | none => (p, [])
      | some (pkt, sent) =>
        let f : TxFlit := { seq := p.seqTx, ft := if sent = 0 then 1 else 2, cls := k, data := (pkt.bytes.drop (flitBytes * sent)).take flitBytes }
        let share := if dealt then fullShare else p.share
        let queued := if pkt.flits ≤ sent + 1 then p.queued.erase (pkt, sent)
          else p.queued.map fun q => if q = (pkt, sent) then (pkt, sent + 1) else q
        let q := { p with seqTx := p.seqTx + 1, replay := p.replay ++ [f], queued := queued,
                          share := if k = 0 then p.share else share.set (k - 1) (share.getD (k - 1) 0 - 1) }
        let r := pumpFlits n q
        (r.1, p.flit f.ft k f.seq f.data :: r.2)

/-- What a port has to send leaves, as far as it may. -/
def State.pump (s : State) (n : Nat) : State :=
  let p := s.port n
  let r := pumpFlits (512 - p.replay.length) p
  { s.setPort r.1 with outbox := s.outbox ++ r.2 }

/-- The port that carries a route: the routed one, the die's other one, or any that is up (R190). -/
def State.usePort (s : State) (n : Nat) : Option Nat :=
  if (s.port n).up then some n
  else if (s.port (if n % 2 = 0 then n + 1 else n - 1)).up then some (if n % 2 = 0 then n + 1 else n - 1)
  else (s.ports.find? (·.up)).map (·.num)

/-- A packet is to leave through a port (R190, R191). -/
def State.sendOn (s : State) (n : Nat) (k : Packet) : State :=
  let p := s.port n
  (s.setPort { p with queued := p.queued ++ [(k, 0)] }).pump n

/-- A packet is sent from a die's fabric engine: by the routing table, or dropped and counted without a route (R192); its flits leave in
their turn (R190, R191). DESIGN CHOICE: with a route but no port of the package up, the packet is dropped and counted as unroutable too
(log entry 20). -/
def State.send (s : State) (die : Nat) (k : Packet) : State :=
  match s.routes.find? fun r => r.1 == die && r.2.1 == k.dst with
  | none => s.setPort ((s.port (2 * die)).countUp 4)
  | some r =>
    match s.usePort r.2.2 with
    | none => s.setPort ((s.port r.2.2).countUp 4)
    | some n => s.sendOn n k

/-- An idle flit leaves a port: it carries ACK and XOFF (R189 to R191). -/
def State.sendIdle (s : State) (n : Nat) : State := { s with outbox := s.outbox ++ [(s.port n).flit 0 0 0 []] }

/-- A port whose flits have been kept or let go: where that changes a class's XOFF bit, the other end is told (R191). -/
def State.regulate (s : State) (n : Nat) : State :=
  let p := s.port n
  let q := p.pressure
  if q.xoffOut = p.xoffOut then s else if p.up then (s.setPort q).sendIdle n else s.setPort q

/-- A fabric engine's next transaction identifier (R192). -/
def State.takeTxid (s : State) (die : Nat) : BitVec 16 × State :=
  let d := s.die die
  (d.txid, s.setDie { d with txid := d.txid + 1 })

/-- A packet of this package. -/
def State.packetTo (s : State) (sdie : Nat) (dst : BitVec 20) (ddie : Nat) (txid : BitVec 16) (body : PktBody) : Packet :=
  { src := s.faddr, sdie := sdie, dst := dst, ddie := ddie, gen := s.mgen, txid := txid, body := body }

/-! ### The rank table (R256, R257) -/

/-- Whether generation `a` is newer than `b` (R258). -/
def newer (a b : Word) : Bool := let d := (a - b).toNat; 1 ≤ d && d < 2 ^ 31

/-- The watches that a table gives a package, with miss counts 0; a suspicion of a peer that keeps its rank still stands (R249, R251). -/
def State.newWatches (s : State) (t : RankTable) : List Watch :=
  match t.rankOf s.faddr with
  | none => []
  | some r => (t.watchSet r).mapIdx fun k p =>
      let now := s.cycle (k % 16)
      let fa := ((t.entries[p]?).map (·.faddr)).getD 0
      { rank := p, faddr := fa, miss := 0, lastAt := now, sentAt := now,
        suspected := s.watches.any fun w => w.suspected && w.rank == p && w.faddr == fa }

/-- A leader's state before any message (R253). -/
def Leader.init (index : Nat) (committed : Word) : Leader :=
  { index := index, committed := committed, promised := 0, accepted := none, suspicions := [], losses := [], ballot := 0, promises := [],
    proposed := none, accepts := [], roundAt := 0, heard := [], sealed := 0, seenBallot := 0 }

/-- The leader state of a package under a table: kept by a leader that stays one, new for one that becomes one (R253). -/
def State.leaderUnder (s : State) (t : RankTable) : Option Leader :=
  match (t.rankOf s.faddr).bind fun r => t.leaders.findIdx? fun l => l.toNat == r with
  | none => none
  | some i =>
    match s.leader with
    | some l => some { l with index := i, committed := t.gen }
    | none => some (Leader.init i t.gen)

/-! ### Amber views (R264, R265) -/

/-- Whether view step `v` is at or after `st`, modulo 2^32. -/
def viewFrom (st v : Word) : Bool := (v - st).toNat < 2 ^ 31

/-- The pre-image that a page of the shadow pool holds (R263). -/
def State.imageBytes (s : State) (slot : Nat) : List Byte :=
  match s.poolPages.find? (·.1 == slot) with
  | some p => memBytes s.mem p.2 8192
  | none => List.replicate 8192 0

/-- A page read through view(`st`): its bytes, `now` when no view holds an image, or refused where the earliest view that decides
marks it dropped (R264). -/
def State.viewPage (s : State) (st : Word) (idx : Nat) (now : List Byte) : Option (List Byte) :=
  match (s.views.reverse.filter fun v => viewFrom st v.step).findSome? fun v =>
      if v.dropped.contains idx then some none
      else (v.images.find? fun im => im.1 == idx).map fun im => some (s.imageBytes im.2) with
  | some r => r
  | none => some now

/-- The pages that rolling back to a step must pull from other holders (R265). -/
def State.droppedFrom (s : State) (st : Word) : List Nat :=
  ((s.views.filter fun v => viewFrom st v.step).flatMap (·.dropped)).eraseDups

/-- Shard pages per stripe of 1 MiB. -/
def stripePages : Nat := 128

/-- ROLLING BACK to a step (R265): pre-images newest view first, then pages pulled from another holder; views above the step
close, and its own view opens again empty. -/
def State.rollBack (s : State) (st : Word) : State :=
  let pages := s.shardPages
  let vs := s.views.filter fun v => viewFrom st v.step
  let put (t : State) (i : Nat) (bs : List Byte) : State :=
    match pages.find? (·.1 == i) with
    | some p => t.writeMem p.2 bs
    | none => t
  let s1 := vs.foldl (fun t v => v.images.foldl (fun u im => put u im.1 (s.imageBytes im.2)) t) s
  let s2 := (s.droppedFrom st).foldl (fun t i =>
    match s.stripes.find? fun x => x.idx == i / stripePages && x.verified with
    | some x => put t i ((x.data.drop (8192 * (i % stripePages))).take 8192)
    | none => t) s1
  { s2 with views := { step := st, images := [], dropped := [] } :: s2.views.filter fun v => viewFrom v.step st && v.step != st,
            stripes := [] }

/-- Bytes of the shard (R247). -/
def State.shardLen (s : State) : Nat :=
  match s.memBlock with
  | some b => b.shard.foldl (fun k r => k + r.len) 0
  | none => 0

/-- The surviving holders of this package's SHARD in a table, in rank order (R268). -/
def State.holders (s : State) (t : RankTable) : List (BitVec 20) :=
  match t.entryOf s.faddr with
  | none => []
  | some me => (t.entries.filter fun e => e.shard == me.shard && e.state == 0 && e.faddr != s.faddr).map (·.faddr)

/-- A clone request to the holder at a position (R266, R268). -/
def State.askClone (s : State) (t : RankTable) (idx pos : Nat) (fp : Bool) : State :=
  match (s.holders t)[pos]? with
  | none => s
  | some h =>
    let (tx, s1) := s.takeTxid 0
    s1.send 0 (s1.packetTo 0 h 0 tx (.cloneReq idx t.step fp))

/-- A stripe whose pull begins, with the positions that have refused it. -/
def Stripe.start (idx : Nat) (refused : List (Nat × BitVec 8)) : Stripe :=
  { idx := idx, refused := refused, first := none, differs := false, second := none, third := none, verified := false, lost := false,
    data := [] }

/-- The positions that serve a stripe of `n` holders, in their order: donor, verifier, third. Stripe i begins at position i mod D, and those that
have refused are passed over (R268). -/
def Stripe.order (x : Stripe) (n : Nat) : List Nat :=
  ((List.range n).map fun k => (x.idx + k) % n).filter fun p => !(x.refused.any fun r => r.1 == p)

/-- The donor's position (R268). -/
def Stripe.donor? (x : Stripe) (n : Nat) : Option Nat := (x.order n).head?

/-- The verifier's position; one holder is both (R268). -/
def Stripe.verifier? (x : Stripe) (n : Nat) : Option Nat := (x.order n)[1]? <|> (x.order n).head?

/-- The third position (R269). DESIGN CHOICE: D counts the holders that have not refused the stripe, so that with fewer than three of them a
mismatch is a loss (log entry 91). -/
def Stripe.third? (x : Stripe) (n : Nat) : Option Nat := (x.order n)[2]?

/-- The donor is asked for a stripe's data (R268). -/
def State.askDonor (s : State) (t : RankTable) (x : Stripe) : State :=
  match x.donor? (s.holders t).length with
  | some p => s.askClone t x.idx p false
  | none => s

/-- The stripes that a package has to pull: a filling spare all of its shard, a survivor those that hold dropped pages (R262, R265). -/
def State.wantedStripes (s : State) (t : RankTable) : List Nat :=
  let all := List.range (s.shardLen / 2 ^ 20)
  if s.memState = .spareFilling then all
  else
    let gone := (s.droppedFrom t.step).map (· / stripePages)
    all.filter fun i => gone.contains i

/-! ### Membership messages of this package -/

/-- The event by which a packet that was held, or that has been received, is processed at its package. -/
def packetEvent (p : Packet) : Option Instr :=
  match p.body with
  | .heartbeat h => some (.heartbeatReceive h)
  | .suspect m => some (.suspect m) | .withdraw m => some (.withdraw m) | .prepare m => some (.prepare m)
  | .promise m => some (.promise m) | .propose m => some (.propose m) | .accept m => some (.accept m)
  | .commit m => some (.commit m) | .joined m => some (.joined m) | .seal m => some (.sealStep m.subj)
  | .podArrive q => some (.podBarrierArrive q) | .podComplete q => some (.podBarrierComplete q)
  | .pullReq core line => some (.pullRequest ⟨p.src, p.sdie⟩ p.gen p.txid core line)
  | .pullResp refused _ data => some (.pullResponse ⟨p.ddie, p.txid⟩ refused data)
  | .cloneReq st step fp => some (.cloneRequest ⟨p.src, p.sdie⟩ p.gen p.txid st step fp)
  | .cloneResp st _ reason fp data => some (.cloneResponse p.src st reason fp data)
  | .reward m => some (.rewardMessage p.ddie true m)
  | .rewardAck => some (.rewardAcknowledgement ⟨p.ddie, p.txid⟩)
  | .unknown _ => none

/-- A membership message of this package. -/
def State.memMsg (s : State) (newgen subj ballot : Word) (table : Option RankTable) : MemMsg :=
  { src := s.faddr, newgen := newgen, subj := subj, ballot := ballot, table := table }

/-- A turn that happens at once. -/
def State.atOnce (s : State) (e : Instr) : State := { s with agenda := { dt := 0, what := .event e } :: s.agenda }

/-- A membership message to an address: one to this package is processed here. -/
def State.tell (s : State) (die : Nat) (dst : BitVec 20) (b : PktBody) : State :=
  let k := s.packetTo die dst 0 0 b
  if dst = s.faddr then
    match packetEvent k with
    | some e => s.atOnce e
    | none => s
  else s.send die k

/-- A membership message to all of some addresses. -/
def State.tellAll (s : State) (die : Nat) (dsts : List (BitVec 20)) (b : PktBody) : State := dsts.foldl (fun t d => t.tell die d b) s

/-- The leaders of the adopted table (R253). -/
def State.leaderAddrs (s : State) : List (BitVec 20) := match s.adopted with
  | some t => t.leaderAddrs
  | none => []

/-- Replaces a stripe. -/
def State.setStripe (s : State) (x : Stripe) : State :=
  { s with stripes := s.stripes.map fun (y : Stripe) => if y.idx = x.idx then x else y }

/-- A stripe is lost: the leaders are told, by a SUSPECT of the own rank (R267; log entry 80). Under a table with FALLBACK it is
lost already. -/
def State.loseStripe (s : State) (t : RankTable) (x : Stripe) : State :=
  let s1 := s.setStripe { x with lost := true }
  if t.fallback then s1
  else s1.tellAll 0 s.leaderAddrs (.suspect (s.memMsg 0 (BitVec.ofNat 32 ((t.rankOf s.faddr).getD 0)) 0 none))

/-- Further stripes are requested, lowest first, while fewer than 64 are outstanding (R268). One of a shard of which no holder survives is
lost (R267). -/
def fillMore : Nat → State → RankTable → State
  | 0, s, _ => s
  | n + 1, s, t =>
    match (s.wantedStripes t).find? fun i => !(s.stripes.any fun x => x.idx == i) with
    | none => s
    | some i =>
      if (s.stripes.filter fun x => !x.verified && !x.lost).length < 64 then
        let x := Stripe.start i []
        let s1 : State := { s with stripes := s.stripes ++ [x] }
        fillMore n (if s.holders t = [] then s1.loseStripe t x else s1.askDonor t x) t
      else s

/-! ### Adoption (R260) -/

/-- A port at an adoption: what it holds for the generation is taken out, in the order it came; what is older than it is dropped and counted
as stale (R193, R258). -/
def Port.release (p : Port) (gen : Word) : Port :=
  let old (h : Packet × Nat) : Bool := h.1.gen != gen && !newer h.1.gen gen
  { p with held := p.held.filter fun h => newer h.1.gen gen }.countBy 0 (p.held.filter old).length

/-- A join unit at an adoption, in the same way; what is older is counted as of a stale generation (R279). -/
def JoinUnit.release (u : JoinUnit) (gen : Word) : JoinUnit :=
  let old (o : Orphan) : Bool := o.msg.gen != gen && !newer o.msg.gen gen
  { u with hold := u.hold.filter fun o => newer o.msg.gen gen }.count 10 (u.hold.filter old).length

/-- What was held for a generation is processed in the order in which it came (R193, R279). -/
def State.releaseHeld (s : State) (gen : Word) : State :=
  let pkts := s.ports.flatMap fun p => (p.held.filter fun h => h.1.gen == gen).map (·.1)
  let msgs := s.joins.flatMap fun u => (u.hold.filter fun o => o.msg.gen == gen).map fun o => Instr.rewardMessage u.die true o.msg
  let s1 : State := { s with
    ports := s.ports.map (Port.release · gen), joins := s.joins.map (JoinUnit.release · gen),
    agenda := s.agenda ++ (pkts.filterMap packetEvent ++ msgs).map fun e => { dt := 0, what := .event e } }
  (s.ports.map (·.num)).foldl State.regulate s1

/-- The adopted table is written to TABLEBUF through the membership context, where it translates (R257). -/
def State.writeTable (s : State) (t : RankTable) : Except VaFail State :=
  match s.memBlock with
  | none => .ok s
  | some b =>
    match s.ctx? b.ctx with
    | none => .ok s
    | some x => s.vaWrite .front 0 x b.tablebuf t.bytes

/-- ADOPTION of a table (R260): $MGEN, STEPDONE and $PKGRANK follow it, the watch set is new (R251), held STEPDONE writes are
decided again (R248) and what was held for the generation is processed (R193). -/
def State.adopt (s : State) (t : RankTable) : State :=
  let s1 : State :=
    { s with adopted := some t, staged := none, mgen := t.gen, stepdone := t.step, pkgRank := BitVec.ofNat 32 ((t.rankOf s.faddr).getD 0),
             watches := s.newWatches t, leader := s.leaderUnder t, lastLeaders := t.leaderAddrs }
  (drainHeld s1 s1.heldWrites).releaseHeld t.gen

end Sys2Proof.Machine
end

