-- ==== Sys2Proof/Machine/Float.lean ====
section
/-!
DEFINITION. Machine/Float.lean: the floating-point instructions (R73 to R92, R363, R383, R384, R386 to R388, R454).
-/

namespace Sys2Proof.Machine

/-- The draw of element `i`: the lane's draw, or for element 1 the same rotated right by 16 (R363). -/
def drawOf (u : Word) (i : Nat) : Word := if i = 0 then u else u.rotateRight 16

/-- A word whose elements are computed one by one, with their flags ORed (R363). -/
def fpElems (t : Typ) (op : Nat → Nat × BitVec 6) : Word × BitVec 6 :=
  let es := (List.range (elemsPerWord t)).map op
  (packElems (elemBits t) (es.map (·.1)), es.foldl (fun acc e => acc ||| e.2) 0)

/-- The exact value of element `i` of a word (R73). -/
def fpElem (t : Typ) (x : Word) (i : Nat) : FVal := fpVal (fmtOf t) (elemAt (elemBits t) x.toNat i)

/-- A rounded element from an exact value and its invalid flag (R383). -/
def roundElem (f : Fields) (u : Word) (i : Nat) (v : FVal × BitVec 6) : Nat × BitVec 6 :=
  let r := roundArith (fmtOf f.typ) f.rnd (drawOf u i) v.1
  (r.1, v.2 ||| r.2)

/-- A two-source arithmetic instruction (R383). -/
def fpOut2 (f : Fields) (s : State) (op : FVal → FVal → FVal × BitVec 6) : Out :=
  withMe s fun c =>
    let a := s.src c f f.oa
    let b := s.src c f f.ob
    roundedOut s c f [a, b] fun u l =>
      fpElems f.typ fun i => roundElem f u i (op (fpElem f.typ (a.lane l) i) (fpElem f.typ (b.lane l) i))

/-- FADD (R383). -/
def execFadd (f : Fields) (s : State) : Out := fpOut2 f s (fpAdd f.rnd)

/-- FSUB (R383). -/
def execFsub (f : Fields) (s : State) : Out := fpOut2 f s fun a b => fpAdd f.rnd a b.negate

/-- FMUL (R383). -/
def execFmul (f : Fields) (s : State) : Out := fpOut2 f s fpMul

/-- FFMA: one rounding of the product and the addend (R383). -/
def execFfma (f : Fields) (s : State) : Out :=
  withMe s fun c =>
    let a := s.src c f f.oa
    let b := s.src c f f.ob
    let d := s.src c f f.oc
    roundedOut s c f [a, b, d] fun u l =>
      fpElems f.typ fun i =>
        roundElem f u i (fpFma f.rnd [(fpElem f.typ (a.lane l) i, fpElem f.typ (b.lane l) i)] (fpElem f.typ (d.lane l) i))

/-- XFMA2: two products and an F32 addend, rounded once to F32 (R454). -/
def execXfma2 (f : Fields) (s : State) : Out :=
  withMe s fun c =>
    let a := s.src c f f.oa
    let b := s.src c f f.ob
    let d := s.src c f f.oc
    roundedOut s c f [a, b, d] fun u l =>
      let v := fpFma f.rnd [(fpElem f.typ (a.lane l) 0, fpElem f.typ (b.lane l) 0), (fpElem f.typ (a.lane l) 1, fpElem f.typ (b.lane l) 1)]
        (fpVal f32 (d.lane l).toNat)
      let r := roundArith f32 f.rnd u v.1
      (BitVec.ofNat 32 r.1, v.2 ||| r.2)

/-- The comparison of FCMP's SUB (R384). -/
def fcmpHolds (sub : BitVec 4) (a b : FVal) : Bool :=
  let un := a.isNan || b.isNan
  let r := fpCmp a b
  match sub.toNat with
  | 0 => !un && r == 0
  | 1 => un || r != 0
  | 2 => !un && decide (r < 0)
  | 3 => !un && decide (r ≤ 0)
  | 4 => !un && decide (0 < r)
  | 5 => !un && decide (0 ≤ r)
  | 6 => un
  | _ => !un

/-- FCMP (R384). -/
def execFcmp (f : Fields) (s : State) : Out :=
  withMe s fun c =>
    let a := s.src c f f.oa
    let b := s.src c f f.ob
    finish s (c.putTruth (c.writeMask f) f.od [a, b] fun l =>
      fcmpHolds f.sub (fpVal f32 (a.lane l).toNat) (fpVal f32 (b.lane l).toNat))

/-- FMAX and FMIN (R386). -/
def fpPick (f : Fields) (s : State) (wantMax : Bool) : Out :=
  withMe s fun c =>
    let a := s.src c f f.oa
    let b := s.src c f f.ob
    let n := elemBits f.typ
    vecOut s c f [a, b] none fun l =>
      (fpElems f.typ fun i => (fpMinMax (fmtOf f.typ) wantMax (elemAt n (a.lane l).toNat i) (elemAt n (b.lane l).toNat i), 0)).1

/-- FMAX (R386). -/
def execFmax (f : Fields) (s : State) : Out := fpPick f s true

/-- FMIN (R386). -/
def execFmin (f : Fields) (s : State) : Out := fpPick f s false

/-- An element rounded to an integral value of its own type; a zero keeps the operand's sign (R387). -/
def fpIntegral (t : Typ) (rnd : Rnd) (bits : Nat) : Nat :=
  let m := fmtOf t
  match fpVal m bits with
  | .nan => m.nanBits
  | .inf neg => m.signBit neg + m.infBits
  | .fin neg mag e =>
    let n := (roundInt rnd neg mag e).1.natAbs
    (roundArith m .rne 0 (.fin neg n 0)).1

/-- FRND (R387). -/
def execFrnd (f : Fields) (s : State) : Out :=
  withMe s fun c =>
    let a := s.src c f f.oa
    vecOut s c f [a] none fun l =>
      (fpElems f.typ fun i => (fpIntegral f.typ f.rnd (elemAt (elemBits f.typ) (a.lane l).toNat i), 0)).1

/-- FSFN (R388). -/
def execFsfn (f : Fields) (s : State) : Out :=
  withMe s fun c =>
    let a := s.src c f f.oa
    flaggedOut s c f [a] none fun l => fsfn f.sub (a.lane l)

end Sys2Proof.Machine
end

