-- ==== Sys2Proof/Machine/Memory.lean ====
section
/-!
DEFINITION. Machine/Memory.lean: lane loads, stores, atomics, reductions and prefetches, page requests, cache control and
fences (R96 to R136, R342 to R344, R366, R385, R404 to R406, R426, R430, R433, R446).
-/

namespace Sys2Proof.Machine

/-! ### Shared pieces -/

/-- Lanes died of a consumed error: the launch completes degraded (R236). -/
def State.noteDead (s : State) (c : Cohort) : State :=
  match s.launch? c.launch with
  | some l => s.setLaunch { l with degraded := true }
  | none => s

/-- Lanes of an Indigo cohort die in its twin too, at the same instruction (R296): at once where the twin has run it, else when it
runs it. What they have written since, and not performed, is given up. -/
def State.killTwin (s : State) (c : Cohort) (dead : Mask) : State :=
  match c.twin.bind s.cohort? with
  | none => s
  | some t =>
    if dead = 0 then s
    else
      let u := t.giveUp dead c.steps
      if u.steps ≤ c.steps then s.setCohort { u with dying := u.dying ||| dead } else s.settleCohort (u.kill (dead &&& ~~~u.dead) c.here.pc)

/-- A memory instruction completes, and the lanes that consumed an uncorrectable error die (R236). -/
def finishKill (s : State) (c : Cohort) (dead : Mask) : Out :=
  if dead = 0 then finish s c
  else .next (((s.noteDead c).killTwin c dead).settleCohort (c.advance.kill dead c.here.pc))

/-- FR of the HINT field (R106). -/
def hintFR (f : Fields) : Bool := f.hint.getLsbD 3
/-- NL1 of the HINT field (R106). -/
def hintNL1 (f : Fields) : Bool := f.hint.getLsbD 2

/-- L2P of the HINT field (R106). -/
def hintL2 (f : Fields) : BitVec 2 := f.hint.extractLsb' 0 2

/-- The access size of LD and ST by SUB (R404, R446). -/
def accSize (sub : BitVec 4) : Nat :=
  match sub.toNat with
  | 0 => 4
  | 1 => 8
  | 2 => 1
  | _ => 2

/-- The size of an ATOM or RED access: 4 bytes (R342). -/
def atomSize : Nat := 4

/-- The lines of tile memory that a lane touches: its core line when it lies in the tile window. -/
def tileLine? (core : Nat) (r : Xlat) : Option Nat :=
  match r with
  | .ok key _ _ true => some ((key - tileKey core 0) / 128)
  | _ => none

/-- Whether a lane access of tile memory waits on the range scoreboard (R112). -/
def State.plansBlocked (s : State) (c : Cohort) (ps : List LanePlan) (load : Bool) : Bool :=
  ps.any fun p => match tileLine? c.core p.out with
    | some n => s.boardBlocks c.core n load
    | none => false

/-- Whether an address lies in the tile window of a context. -/
def inTileWindow (x : Ctx) (va : DWord) : Bool := inWindow x.twe x.tw (2 ^ 20) va.toNat

/-- Whether a lane of a mask addresses the tile window. -/
def anyTile (x : Ctx) (m : Mask) (va : Nat → DWord) : Bool := (laneList m).any fun l => inTileWindow x (va l)

/-- Whether an access of the membership page must wait behind a held STEPDONE write (R248). -/
def State.pageHeld (s : State) (ps : List LanePlan) : Bool :=
  !s.heldWrites.isEmpty && ps.any fun p => match p.out with
    | .ok key _ _ _ => inRegs key && 0x4000 ≤ regOff key && regOff key < 0x5000
    | _ => false

/-- Whether a cohort's atomic stands between its first read and its last write of a word among some bytes (R125, R142). -/
def Cohort.takes (d : Cohort) (key n : Nat) : Bool :=
  ((d.rmw.map (·.words)).getD [] ++ d.windows.flatMap (·.words)).any fun k => k < key + n && key < k + 4

/-- Whether a word lies between the read and the write of another cohort's atomic on a device page: no other device access to it is
performed (R142). -/
def State.wordTaken (s : State) (cid key n : Nat) : Bool := s.cohorts.any fun d => d.cid != cid && d.takes key n

/-- Whether an engine's or the front end's access must wait for such a word. -/
def State.wordHeld (s : State) (key n : Nat) : Bool := s.cohorts.any fun d => d.takes key n

/-- The same for a run of bytes. -/
def State.vaTaken (s : State) (p : XPort) (x : Ctx) (va n : Nat) : Bool :=
  match s.vaPieces p 0 x .store (pagePieces (n / 8192 + 2) va n) with
  | .ok ps => ps.any fun q => s.wordHeld q.2.2.key q.2.1
  | .error _ => false

/-- Whether a core's combining buffer holds bytes of such a word. -/
def State.wcTaken (s : State) (core : Nat) : Bool := (s.core core).wc.any fun w => s.wordHeld (128 * w.line) 128

/-- Whether a lane of a plan must wait for such a word. -/
def State.plansTaken (s : State) (c : Cohort) (n : Nat) (ps : List LanePlan) : Bool :=
  ps.any fun p => match p.out with
    | .ok key mt _ _ => s.wordTaken c.cid key n || (mt == 1 && s.wcTaken c.core)
    | _ => false

/-- A release by a cohort: its Indigo windows and its held register writes come first, and its core's combining buffer is
drained (R131, R108, R297). -/
def releasing (s : State) (c : Cohort) (k : State → Cohort → Out) : Out :=
  if s.holdsWrite c.cid || s.wcTaken c.core then waitHere s c
  else indigoClose s c fun d => k (s.release d.core) d

/-- Whether a lane's page is of type SO, which makes an access ordered (R136). -/
def planSO (p : LanePlan) : Bool :=
  match p.out with
  | .ok _ mt _ _ => mt == 3
  | _ => false

/-- Whether a lane's page is of type DV. -/
def planDV (p : LanePlan) : Bool :=
  match p.out with
  | .ok _ mt _ _ => mt == 2
  | _ => false

/-- Where a held beat would be performed. -/
def State.beatKey (s : State) (c : Cohort) (x : Ctx) (b : Beat) : Option Nat :=
  match s.xlat (.core c.core) c.core x .store b.va with
  | .ok key _ _ false => some key
  | _ => none

/-- Whether held beats of a cohort touch bytes at a key (R129). -/
def State.heldOver (s : State) (c : Cohort) (x : Ctx) (key n : Nat) : Bool :=
  (c.windows.flatMap (·.held)).any fun b => (s.beatKey c x b).any fun k => k < key + n && key < k + b.size

/-- Whether held beats of a cohort touch a lane's bytes through another virtual address, where the lane's own view would miss them
(R129). -/
def State.heldAlias (s : State) (c : Cohort) (x : Ctx) (n : Nat) (p : LanePlan) : Bool :=
  match p.out with
  | .ok key _ _ false => (c.windows.flatMap (·.held)).any fun b => (s.beatKey c x b).any fun k =>
      k < key + n && key < k + b.size && (b.va.toNat : Int) - k != (p.va.toNat : Int) - key
  | _ => false

/-- Whether an Indigo cohort's held writes must be performed before a load of its own: held reductions, writes that the load reads
through an alias, and, for a device page, every held write (R129, R136, R297). -/
def State.loadHeld (s : State) (c : Cohort) (x : Ctx) (n : Nat) (ps : List LanePlan) : Bool :=
  c.role != .single &&
    (c.windows.any (fun w => w.held.any fun b => b.kind != 0) || ps.any (fun p => s.heldAlias c x n p || planDV p || planSO p) && c.windows != [])

/-! ### LD (R404 to R406) -/

/-- One lane's load: its number, whether it consumed an uncorrectable error, and the state after it. A fresh load leaves no older copy in
L1: `.fr` and a WC page drop the line (R105, R107), `.hnl1` and the other device types bring it up to date (R127). -/
def State.loadLane (s : State) (c : Cohort) (f : Fields) (n : Nat) (p : LanePlan) : Nat × Bool × State :=
  match p.out with
  | .ok key mt _ tile =>
    if inRegs key then (s.hostRead (regOff key) n, false, s)
    else
      let weak := mt = 0 ∧ tile = false ∧ hintFR f = false ∧ hintNL1 f = false
      let s0 := if tile then s
        else if hintFR f || mt == 1 then s.l1Drop c.core (key / 128)
        else if hintNL1 f || mt != 0 then s.l1Renew c.core (key / 128) else s
      let inL1 := decide weak && ((s0.core c.core).l1Data (key / 128)).isSome
      let s1 := if inL1 || tile then s0 else s0.noteLine key mt (hintL2 f)
      if inL1 = false ∧ s1.poisoned key n = true then (0, true, s1)
      else
        let fill := decide weak && (inL1 || !s1.poisoned (key / 128 * 128) 128)
        let r := s1.loadKey c.core key n fill
        (if tile then r.1 else c.overlay p.va n r.1, false, r.2)
  | _ => (0, false, s)

/-- The lanes of a load in ascending order: numbers by lane, the lanes that die, and the state after them. -/
def State.loadLanes (s : State) (c : Cohort) (f : Fields) (n : Nat) : List LanePlan → List (Nat × Nat) × Mask × State
  | [] => ([], 0, s)
  | p :: ps =>
    let (v, bad, s1) := s.loadLane c f n p
    let (vs, dead, s2) := State.loadLanes s1 c f n ps
    ((p.lane, v) :: vs, (if bad then dead ||| BitVec.twoPow 64 p.lane else dead), s2)

/-- The value of a lane in a list of lane values; 0 for a lane that has none. -/
def laneVal (vs : List (Nat × Nat)) (l : Nat) : Nat := ((vs.find? fun v => v.1 == l).map (·.2)).getD 0

/-- A loaded number as it is written (R404). -/
def extended (f : Fields) (n v : Nat) : DWord :=
  if 2 ≤ f.sub.toNat then (BitVec.ofInt 32 (if f.typ = .s32 then signedOf (8 * n) v else (v : Int))).setWidth 64 else BitVec.ofNat 64 v

/-- Whether rule 8 of R60 accepts a lane's page: type N or a window, resident or not. -/
def rule8 (p : LanePlan) : Bool :=
  match p.out with
  | .ok _ mt _ _ => mt == 0
  | .nonres mt => mt == 0
  | _ => false

/-- The destination and residency predicate of a load or of an atomic with a return, and its end. -/
def loadDone (f : Fields) (s : State) (c : Cohort) (m : Mask) (uniform wide : Bool) (vals : Nat → DWord) (nonres dead : Mask) : Out :=
  let lo (l : Nat) := DWord.lo (vals l)
  let hi (l : Nat) := DWord.hi (vals l)
  let sh (d : Cohort) (w : Nat → Word) : VReg := if uniform then .u (w (elect m)) else d.general w
  let c1 := match f.od with
    | .none => c
    | od =>
      let d := c.putVec m (opndIndex od) lo (sh c lo)
      if wide then d.putVec m (opndIndex od + 1) hi (sh d hi) else d
  finishKill s (c1.putPredOpt m f.oe nonres) dead

/-- What a primary forwards of a load: a lane's value, or none where its page was not resident (R296). -/
def forwardVals (m nonres : Mask) (vals : Nat → DWord) : List (Option DWord) :=
  (List.range 64).map fun l => if m.getLsbD l && !nonres.getLsbD l then some (vals l) else none

/-- The requesting cohort's next access ends the pins of its pages (R120). -/
def State.unpinAll (s : State) (c : Cohort) (ps : List LanePlan) : State := ps.foldl (fun t p => t.unpin c p.va.toNat) s

/-- The line that a lane touches outside tile memory leaves the core's L1 (R105). -/
def State.dropPlan (s : State) (c : Cohort) (p : LanePlan) : State :=
  match p.out with
  | .ok key _ _ false => s.l1Drop c.core (key / 128)
  | _ => s

/-- Whether a load drops the line of a lane from L1 (R105, R107). -/
def loadDrops (f : Fields) (p : LanePlan) : Bool :=
  match p.out with
  | .ok _ mt _ tile => !tile && (hintFR f || mt == 1)
  | _ => false

/-- LD (R404 to R406). -/
def execLd (f : Fields) (s : State) : Out :=
  withMe s fun c => withCtx s c fun x =>
    let m := c.writeMask f
    if m = 0 then finish s c
    else
      let n := accSize f.sub
      let va := c.ea f f.oa f.ob
      let ps := s.planLanes c x .load n m va
      let st := s.touchPlans c x ps
      if ps.any LanePlan.faults then .next (st.raisePlans c n ps)
      else if s.plansBlocked c ps true || s.pageHeld ps || s.plansTaken c n ps then waitHere s c
      else if s.loadHeld c x n ps then indigoClose s c fun d => waitHere s d
      else
        let uniform := c.baseU f.oa && ps.all rule8
        let own (k : List (Nat × Nat) × Mask × State) : Nat → DWord := fun l => extended f n (laneVal k.1 l)
        let wide := f.sub == 1
        match c.fwdIn with
        | .waits => waitHere s c
        | .own =>
          let r := (st.unpinAll c ps).loadLanes c f n ps
          let nonres := nonresMask ps
          let g := r.2.2.fwdGive c (forwardVals m nonres (own r)) r.2.1
          loadDone f g.1 g.2 m uniform wide (own r) nonres r.2.1
        | .given vals lost =>
          -- its own tile window is read by the secondary itself
          let tile := ps.filter fun p => inTileWindow x p.va
          let fresh := (ps.filter (loadDrops f)).foldl (fun t p => t.dropPlan c p) (st.unpinAll c ps)
          let r := fresh.loadLanes c f n tile
          let isTile (l : Nat) : Bool := tile.any fun p => p.lane == l
          let v (l : Nat) : DWord := if isTile l then own r l else (vals.getD l none).getD 0
          let nonres := maskOf fun l => m.getLsbD l && !isTile l && (vals.getD l none).isNone && !lost.getLsbD l
          loadDone f r.2.2 c.fwdTaken m uniform wide v nonres (r.2.1 ||| (lost &&& m))

/-! ### ST (R446, R447) -/

/-- A store is performed at its home, or enters the combining buffer of the core (R107, R108, R114). -/
def State.storeHome (s : State) (core : Nat) (owner : Nat × Nat) (rel : Bool) (n : Nat) (r : Xlat) (v : Nat) (pol : BitVec 2) : State :=
  match r with
  | .ok key mt _ tile =>
    if tile then s.storeNat key n v
    else if inRegs key then (s.dirty r).hostWrite (some owner.2) (regOff key) n v
    else
      let s1 := (s.noteLine key mt pol).dirty r
      if mt = 1 ∧ rel = false then s1.storeWc core owner key (natBytes n v) else s1.storeNat key n v
  | _ => s

/-- One lane's store (R105, R107, R108, R114). -/
def State.storeLane (s : State) (c : Cohort) (rel : Bool) (n : Nat) (pol : BitVec 2) (p : LanePlan) (v : Nat) : State :=
  (s.dropPlan c p).storeHome c.core (c.launch, c.cid) rel n p.out v pol

/-- The beat of a lane's write at an instruction of its cohort. -/
def LanePlan.beat (p : LanePlan) (kind n : Nat) (scope : Scope) (v : Nat) (pol : BitVec 2) (rel : Bool) (at_ : Nat) : Beat :=
  { va := p.va, size := n, data := BitVec.ofNat 256 v, kind := kind, scope := scope, lane := p.lane, pol := pol, rel := rel, at_ := at_ }

/-- Whether a lane's access leaves its core: it passed, and it is not of tile memory. -/
def LanePlan.leaves (p : LanePlan) : Bool :=
  match p.out with
  | .ok _ _ _ tile => !tile
  | _ => false

/-- The stores of an instruction's lanes in ascending order, so that the highest lane's byte stands (R125). In an Indigo pair tile memory
is written at once, and any other write becomes a beat (R296, R297). -/
def storeLanes (s : State) (c : Cohort) (rel : Bool) (scope : Scope) (n : Nat) (pol : BitVec 2) (val : Nat → Nat) (ps : List LanePlan) :
    State × Cohort :=
  let now := if c.role = .single then ps else ps.filter fun p => !p.leaves
  let out := if c.role = .single then [] else ps.filter LanePlan.leaves
  (out.foldl (fun t p => t.dropPlan c p) (now.foldl (fun t p => t.storeLane c rel n pol p (val p.lane)) s),
   { c with windows := out.foldl (fun ws p => addBeat ws c.winDone (p.beat 0 n scope (val p.lane) pol rel c.steps)) c.windows })

/-- The residency of a secondary's lanes is its primary's (R296): the lanes of `nonres` are not performed, and the others are, whatever the
tables hold by then. -/
def agreed (c : Cohort) (x : Ctx) (nonres : Mask) (ps : List LanePlan) : List LanePlan :=
  if c.role ≠ .secondary then ps
  else ps.map fun p =>
    if inTileWindow x p.va then p
    else if nonres.getLsbD p.lane then { p with out := .nonres 0 }
    else match p.out with
      | .nonres _ => { p with out := .ok (2 ^ 60) 0 none false }
      | _ => p

/-- A release's own beats close their window too, so that the release is performed (R297). -/
def closeIf (rel : Bool) (c : Cohort) : Cohort := if rel && c.role != .single then { c with windows := closeWindows c.windows } else c

/-- ST (R446, R447). -/
def execSt (f : Fields) (s : State) : Out :=
  withMe s fun c => withCtx s c fun x =>
    let m := c.writeMask f
    if m = 0 then finish s c
    else
      let n := accSize f.sub
      let va := c.ea f f.oa f.ob
      if c.hmode && anyTile x m va then raiseR s c 12 7
      else
        let ps := s.planLanes c x .store n m va
        let st := s.touchPlans c x ps
        if ps.any LanePlan.faults then .next (st.raisePlans c n ps)
        else if s.plansBlocked c ps false || s.plansTaken c n ps then waitHere s c
        else
          let rel := f.ord == .release || ps.any planSO
          let go (t : State) (d : Cohort) : Out :=
            let val (l : Nat) : Nat :=
              if f.sub = 1 then (lane64 (d.src64 f f.oc) l).toNat else (((s.src d f f.oc).lane l).toNat) % 2 ^ (8 * n)
            outsideValue ((t.touchPlans d x ps).unpinAll d ps) d (nonresMask ps) fun t d nonres =>
              let r := storeLanes t d rel f.scp n (hintL2 f) val (agreed d x nonres ps)
              finish r.1 (closeIf rel (r.2.putPredOpt m f.oe nonres))
          if rel then releasing s c go else go s c

/-! ### ATOM and RED (R342 to R344, R433) -/

/-- The new value of an atomic (R342): SUB 0 add, 1 min, 2 max, 3 and, 4 or, 5 xor, 6 exchange, 8 F32 add. -/
def atomicNew (sub : Nat) (t : Typ) (old v : Word) : Word :=
  match sub with
  | 0 => old + v
  | 1 => if exact32 t old ≤ exact32 t v then old else v
  | 2 => if exact32 t v ≤ exact32 t old then old else v
  | 3 => old &&& v
  | 4 => old ||| v
  | 5 => old ^^^ v
  | 6 => v
  | _ => BitVec.ofNat 32 (roundArith f32 .rne 0 (fpAdd .rne (fpVal f32 old.toNat) (fpVal f32 v.toNat)).1).1

/-- An atomic's write at its home: its new value, or nothing for a `.cas` whose comparison fails (R342, R343). -/
def State.atomWrite (s : State) (sub : Nat) (t : Typ) (r : Xlat) (old cmp v : Word) : State :=
  if sub = 7 then (if old = cmp then (s.dirty r).storeNat r.key 4 v.toNat else s)
  else (s.dirty r).storeNat r.key 4 (atomicNew sub t old v).toNat

/-- The atomic access of a word: the value it read, whether it consumed an uncorrectable error, and the state after it. -/
def State.atomHome (s : State) (sub : Nat) (t : Typ) (r : Xlat) (cmp v : Word) (pol : BitVec 2) : Word × Bool × State :=
  match r with
  | .ok key mt _ tile =>
    let s1 := if tile then s else s.noteLine key mt pol
    if s1.poisoned key 4 then (0, true, s1)
    else
      let old := BitVec.ofNat 32 (memNat s1.mem key 4)
      (old, false, s1.atomWrite sub t r old cmp v)
  | _ => (0, false, s)

/-- A word of a host page of type DV, whose atomic is a CXL.io read and then a write (R142). -/
def Xlat.twoStep : Xlat → Bool
  | .ok key mt _ _ => mt == 2 && hostBase ≤ key && key < 2 ^ 52
  | _ => false

/-- No lane of an atomic performed yet. -/
def Rmw.start : Rmw := { done := [], dead := 0, read := none, asked := false }

/-- The operands of an atomic instruction: SUB, type, policy, and each lane's comparison and value. -/
structure AtomOp where
  sub : Nat
  typ : Typ
  pol : BitVec 2
  cmp : Nat → Word
  val : Nat → Word

/-- The atomics of an instruction's lanes in ascending order (R125), from where they stand; `true` when all are performed. A device word
of the host is read in one turn and written in the next (R142). -/
def State.rmwLanes (c : Cohort) (o : AtomOp) : List LanePlan → State → Rmw → Rmw × Bool × State
  | [], s, r => (r, true, s)
  | p :: ps, s, r =>
    if r.done.any (·.1 == p.lane) then State.rmwLanes c o ps s r
    else
      match p.out with
      | .ok key _ _ _ =>
        let s1 := s.dropPlan c p
        if p.out.twoStep && !s1.poisoned key 4 then
          match r.read with
          | some (_, old) =>
            State.rmwLanes c o ps (s1.atomWrite o.sub o.typ p.out old (o.cmp p.lane) (o.val p.lane))
              { r with done := r.done ++ [(p.lane, old.toNat)], read := none }
          | none => ({ r with read := some (key, BitVec.ofNat 32 (memNat s1.mem key 4)) }, false, s1)
        else
          let (old, bad, s2) := s1.atomHome o.sub o.typ p.out (o.cmp p.lane) (o.val p.lane) o.pol
          State.rmwLanes c o ps s2 { r with done := r.done ++ [(p.lane, old.toNat)], dead := if bad then r.dead ||| BitVec.twoPow 64 p.lane else r.dead }
      | _ => State.rmwLanes c o ps s r

/-- The words that the lanes of an atomic act on, where one of them takes two steps. -/
def planWords (ps : List LanePlan) : List Nat :=
  if ps.any fun p => p.out.twoStep then ps.filterMap fun p => match p.out with
    | .ok key _ _ _ => some key
    | _ => none
  else []

/-- The lanes of an atomic are performed as far as they go: the cohort waits in it, or `k` gets what was read and what died. -/
def atomGo (s : State) (c : Cohort) (o : AtomOp) (ps : List LanePlan) (k : State → Cohort → List (Nat × Nat) → Mask → Out) : Out :=
  let r := State.rmwLanes c o ps s (c.rmw.getD { Rmw.start with words := planWords ps })
  if r.2.1 then k r.2.2 { c with rmw := none } r.1.done r.1.dead else waitHere r.2.2 { c with rmw := some r.1 }

/-- The beats of an atomic with a return: performed, each gives its lane's old value (R297). -/
def AtomOp.beats (o : AtomOp) (scope : Scope) (at_ : Nat) (ps : List LanePlan) : List Beat :=
  (ps.filter LanePlan.leaves).map fun p =>
    { p.beat 512 4 scope (o.val p.lane).toNat o.pol false at_ with op := o.sub + 16 * o.typ.code.toNat, cmp := o.cmp p.lane }

/-- An atomic of an Indigo cohort (R296, R297): the lanes of its own tile memory are performed at once; the others are beats, which are
performed once both twins have hashed them, and the cohort waits until then. `k` gets what was read, what died, and the lanes whose pages
were not resident. -/
def atomIndigo (s : State) (c : Cohort) (x : Ctx) (o : AtomOp) (scope : Scope) (ps : List LanePlan)
    (k : State → Cohort → List (Nat × Nat) → Mask → Mask → Out) : Out :=
  match c.rmw with
  | none => outsideValue s c (nonresMask ps) fun s c nonres =>
    let qs := agreed c x nonres ps
    let r := State.rmwLanes c o (qs.filter fun p => !p.leaves) s .start
    let s1 := (qs.filter LanePlan.leaves).foldl (fun t p => t.dropPlan c p) r.2.2
    let bs := o.beats scope c.steps qs
    if bs = [] then k s1 c r.1.done r.1.dead nonres
    else waitHere s1 { c with rmw := some { r.1 with asked := true, nonres := nonres }, windows := closeWindows (addBeats c.windows c.winDone bs) }
  | some r => if c.windows = [] then k s { c with rmw := none } r.done r.dead r.nonres else waitHere s c

/-- ATOM (R342 to R344). -/
def execAtom (f : Fields) (s : State) : Out :=
  withMe s fun c => withCtx s c fun x =>
    let m := c.writeMask f
    if m = 0 then finish s c
    else
      let va := c.ea f f.oa f.ob
      if c.hmode && anyTile x m va then raiseR s c 12 7
      else
        let ps := s.planLanes c x .atomic atomSize m va
        let st := s.touchPlans c x ps
        if ps.any LanePlan.faults then .next (st.raisePlans c atomSize ps)
        else if s.plansBlocked c ps false || s.plansTaken c atomSize ps then waitHere s c
        else
          let sub := f.sub.toNat
          let rel := f.ord == .release || f.ord == .acqRel || ps.any planSO
          let pair := c.src64 f f.oc
          let o : AtomOp := { sub := sub, typ := f.typ, pol := hintL2 f, cmp := fun l => if sub = 7 then pair.1.lane l else 0,
                              val := fun l => if sub = 7 then pair.2.lane l else (s.src c f f.oc).lane l }
          let own (t : State) (d : Cohort) (done : List (Nat × Nat)) (dead nonres : Mask) : Out :=
            let old (l : Nat) : DWord := BitVec.ofNat 64 (laneVal done l)
            let g := t.fwdGive d (forwardVals m nonres old) dead
            loadDone f g.1 g.2 m false false old nonres dead
          let go (t : State) (d : Cohort) : Out :=
            let t1 := (t.touchPlans d x ps).unpinAll d ps
            match d.role with
            | .single => atomGo t1 d o ps fun t d done dead => own t d done dead (nonresMask ps)
            | .primary => atomIndigo t1 d x o f.scp ps own
            | .secondary => atomIndigo (t.unpinAll d ps) d x o f.scp ps fun t d done dead nonres =>
              match d.fwdIn with
              | .given vals lost =>
                let isTile (l : Nat) : Bool := done.any fun e => e.1 == l
                let old (l : Nat) : DWord := if isTile l then BitVec.ofNat 64 (laneVal done l) else (vals.getD l none).getD 0
                loadDone f t d.fwdTaken m false false old nonres (dead ||| (lost &&& m))
              | _ => waitHere t { d with rmw := some { Rmw.start with done := done, dead := dead, asked := true, nonres := nonres } }
          if c.rmw.isSome then go s c else if rel then releasing s c go else indigoClose s c fun d => go s d

/-- RED (R433): reductions in ascending lane order; in an Indigo pair those that leave the core are beats. -/
def execRed (f : Fields) (s : State) : Out :=
  withMe s fun c => withCtx s c fun x =>
    let m := c.writeMask f
    if m = 0 then finish s c
    else
      let va := c.ea f f.oa f.ob
      if c.hmode && anyTile x m va then raiseR s c 12 7
      else
        let ps := s.planLanes c x .atomic atomSize m va
        let st := s.touchPlans c x ps
        if ps.any LanePlan.faults then .next (st.raisePlans c atomSize ps)
        else if s.plansBlocked c ps false || s.plansTaken c atomSize ps then waitHere s c
        else
          let rel := f.ord == .release || ps.any planSO
          let o : AtomOp := { sub := f.sub.toNat, typ := f.typ, pol := hintL2 f, cmp := fun _ => 0, val := fun l => (s.src c f f.oc).lane l }
          let go (t : State) (d : Cohort) : Out :=
            outsideValue ((t.touchPlans d x ps).unpinAll d ps) d (nonresMask ps) fun t d nonres =>
              let qs := agreed d x nonres ps
              let out := if d.role = .single then [] else qs.filter LanePlan.leaves
              let now := if d.role = .single then qs else qs.filter fun p => !p.leaves
              let bs := out.map fun p => p.beat (1 + o.sub + 16 * f.typ.code.toNat) 4 f.scp (o.val p.lane).toNat o.pol rel d.steps
              atomGo (out.foldl (fun u p => u.dropPlan d p) t) d o now fun u e _ dead =>
                let e1 := { e with windows := addBeats e.windows e.winDone bs }
                finishKill u (closeIf rel (e1.putPredOpt m f.oe nonres)) dead
          if c.rmw.isSome then go s c else if rel then releasing s c go else go s c

/-! ### PREF (R430) -/

/-- The prefetch of one lane: a line of type N or of a vault fills L1 unless NL1 is set. -/
def State.prefLane (s : State) (c : Cohort) (x : Ctx) (f : Fields) (p : LanePlan) : State :=
  match p.out with
  | .ok key mt _ tile =>
    if tile then s
    else if mt ≠ 0 then s.touch (.core c.core) x p.va p.out
    else
      let s1 := (s.touch (.core c.core) x p.va p.out).noteLine key mt (hintL2 f)
      let line := key / 128
      if hintNL1 f || s1.poisoned (line * 128) 128 then s1
      else
        let data := ((s1.core c.core).l1Data line).getD (memBytes s1.mem (line * 128) 128)
        s1.setCore ((s1.core c.core).l1Put line data)
  | _ => s

/-- PREF (R430). -/
def execPref (f : Fields) (s : State) : Out :=
  withMe s fun c => withCtx s c fun x =>
    let m := c.writeMask f
    if m = 0 then finish s c
    else
      let ps := s.planLanes c x .load 1 m (c.ea f f.oa f.ob)
      if ps.any LanePlan.faults then .next ((s.touchPlans c x ps).raisePlans c 1 ps)
      else outsideValue ((ps.foldl (fun t p => t.prefLane c x f p) s).unpinAll c ps) c (nonresMask ps) fun s c nonres =>
        finish s (c.putPredOpt m f.oe nonres)

/-! ### PGREQ (R120, R216, R426) -/

/-- What becomes of a page: resident, refused, in error, or still to come. -/
inductive PageFate where
  | resident | refused | pending
  | poisoned (addr : Nat)
deriving DecidableEq, Repr

/-- The fate of a page for a cohort (R426). -/
def State.pageFate (s : State) (c : Cohort) (x : Ctx) (va : Nat) : PageFate :=
  match s.walk (.core c.core) x va with
  | .leaf _ true => .resident
  | .bad => .refused
  | .poisoned a => .poisoned a
  | .leaf _ false => match s.pageReq? c.ctx (some c.cid) va with
    | some r => if r.status = 2 then .refused else .pending
    | none => .pending

/-- The lanes whose addresses PGREQ refuses: bits [63:53], or an unbacked offset of a window (R426). -/
def pgreqBad (x : Ctx) (va : DWord) : Nat :=
  let a := va.toNat
  if 2 ^ 53 ≤ a then 1
  else if inWindow x.twe x.tw (2 ^ 20) a then (if a - x.tw < 786432 then 0 else 2)
  else if inWindow x.vwe x.vw (2 ^ 35) a then
    (if (a - x.vw) / 2 ^ 26 < 384 ∧ (a - x.vw) % 2 ^ 26 < 40 * 2 ^ 20 then 0 else 2)
  else 0

/-- The distinct pages outside both windows that the lanes of a mask address, by lane (R120, R426). -/
def State.pgreqPages (s : State) (x : Ctx) (m : Mask) (va : Nat → DWord) : List Nat :=
  ((laneList m).filterMap fun l =>
    let a := (va l).toNat
    if inWindow x.twe x.tw (2 ^ 20) a || inWindow x.vwe x.vw (2 ^ 35) a then none else some (s.pageBase x.ctxid a)).eraseDups

/-- A group 4 cause of PGREQ: the lanes that fail for the lowest failing lane's reason are in the mask (R234). -/
def raisePgreq (s : State) (c : Cohort) (x : Ctx) (m : Mask) (va : Nat → DWord) : Out :=
  let bad := (laneList m).filter fun l => pgreqBad x (va l) ≠ 0
  let l0 := bad.head?.getD 0
  let lanes := maskOf fun l => m.getLsbD l && pgreqBad x (va l) != 0
  let recs := (List.range c.width).map fun l =>
    if m.getLsbD l then
      { addr := va l, pc := c.here.pc, reason := pgreqBad x (va l), lgsz := 0, cause := if pgreqBad x (va l) = 0 then 0 else 4,
        state := if pgreqBad x (va l) = 0 then 2 else 1 }
    else LaneRec.zero
  raiseOut s c 4 (lanes.setWidth 96 ||| BitVec.ofNat 96 ((l0 + pgreqBad x (va l0) * 256) * 2 ^ 64)) recs

/-- A free index of a die's wait table of 65,536 entries (R216). -/
def State.freeWait (s : State) (d : Nat) : Option Nat :=
  let used := (s.waitTable.filter (·.die == d)).map (·.index)
  (List.range (used.length + 1)).find? fun i => i < 65536 && !used.contains i

/-- A split instruction takes a wait-table entry and writes its handle (R216); an Indigo secondary takes its primary's (R296). -/
def splitOut (s : State) (c : Cohort) (f : Fields) (kind : Nat) (op : SplitOp) (done : Option Word) : Out :=
  let put (s : State) (c : Cohort) (h : DWord) : Out := finish s (c.putUniformOpt f.od (DWord.lo h))
  if c.role = .secondary then outsideValue s c 0 put
  else match s.freeWait (dieOf c.core) with
    | none => waitHere s c
    | some i =>
      let e : WaitEntry := { die := dieOf c.core, index := i, op := op, cid := c.cid, ctx := c.ctx, seq := s.fresh,
                             done := done.map fun v => (v, s.cycle (dieOf c.core)), parked := false }
      outsideValue { s with waitTable := s.waitTable ++ [e], fresh := s.fresh + 1 } c (BitVec.ofNat 64 (kind * 2 ^ 28 + i)) put

/-- PGREQ and PGREQ.split (R426, R427). An Indigo secondary asks for nothing and takes its primary's outcome (R296). -/
def pgreqOut (f : Fields) (s : State) (split : Bool) : Out :=
  withMe s fun c => withCtx s c fun x =>
    let m := c.writeMask f
    if m = 0 then finish s c
    else
      let va := c.ea f f.oa f.ob
      let outcome (s : State) (c : Cohort) (mask : DWord) : Out := finish s (c.putPredOpt m f.od mask)
      if (laneList m).any fun l => pgreqBad x (va l) != 0 then raisePgreq s c x m va
      else if c.role = .secondary then (if split then splitOut s c f 1 (.pages []) none else outsideValue s c 0 outcome)
      else
        let pages := s.pgreqPages x m va
        let fates := pages.map fun p => (p, s.pageFate c x p)
        match fates.findSome? fun p => match p.2 with
          | .poisoned a => some a
          | _ => none with
        | some a => raiseOut s c 13 (hwDetail (s.unitOfKey a).1 2 (s.unitOfKey a).2) (c.plainRecs 0 13 2)
        | none =>
          let asked := (fates.filter fun p => p.2 == .pending).foldl (fun t p => t.askPin c.ctx c.cid p.1) s
          let pending := fates.any fun p => p.2 == .pending
          let refused (p : Nat) : Bool := fates.any fun q => q.1 == p && q.2 == .refused
          if split then
            splitOut asked c f 1 (.pages pages) (if pending then none else some (if pages.any refused then 1 else 0))
          else if pending then waitHere asked c
          else
            let s1 := pages.foldl (fun t p => t.dropReq c.ctx (some c.cid) p) s
            outsideValue s1 c (maskOf fun l => m.getLsbD l && refused (s.pageBase c.ctx (va l).toNat)) outcome

/-- PGREQ (R426). -/
def execPgreq (f : Fields) (s : State) : Out := pgreqOut f s false

/-- PGREQ.split (R426, R427). -/
def execPgreqSplit (f : Fields) (s : State) : Out := pgreqOut f s true

/-! ### CCTL (R366, R367) -/

/-- Whether a core lies in the instance of a scope that contains another core; `.wg` acts as `.core` (R366). -/
def coreInScope (scope : Scope) (a b : Nat) : Bool :=
  match scope with
  | .wg | .core => a == b
  | .quad => quadOf a == quadOf b
  | .die => dieOf a == dieOf b
  | .pkg | .pod => true

/-- The TLB entries that stay when a range of a context is invalidated; no range means every entry of the context (R366). -/
def tlbKeep (ctx : BitVec 16) (range : Option (Nat × Nat)) (e : TlbEntry) : Bool :=
  if e.ctx ≠ ctx then true
  else match range with
    | none => false
    | some (a, n) => if n = 0 then !(e.va ≤ a && a < e.va + e.size) else e.va + e.size ≤ a || a + n ≤ e.va

/-- The walk-cache entries that stay. -/
def walkKeep (ctx : BitVec 16) (range : Option (Nat × Nat)) (e : WalkEntry) : Bool :=
  if e.ctx ≠ ctx then true
  else match range with
    | none => false
    | some (a, n) => if n = 0 then !(e.va ≤ a && a < e.va + e.size) else e.va + e.size ≤ a || a + n ≤ e.va

/-- The combining buffers of the cores that a test selects are written (R108). -/
def State.drainWhere (s : State) (inC : Nat → Bool) : State :=
  s.cores.foldl (fun t k => if inC k.core && k.wc != [] then t.drainWc k.core else t) s

/-- The buffered words that stay when translations are removed: those that lie on no page of them (R324). -/
def ibufKeep (ctx : BitVec 16) (gone : List TlbEntry) (e : IbufEntry) : Bool :=
  e.ctx != ctx || gone.all fun g => e.va + 20 ≤ g.va || g.va + g.size ≤ e.va

/-- Translations of a context leave every structure of the cores, quads and dies that a test selects, and the buffered words fetched
through them leave the instruction buffers (R324); stores that combining buffers hold were translated before and are performed first
(R116). -/
def State.invalidate (s0 : State) (ctx : BitVec 16) (range : Option (Nat × Nat)) (inC inQ inD : Nat → Bool) : State :=
  let s := s0.drainWhere inC
  let gone (k : CoreState) : List TlbEntry :=
    ((if inC k.core then k.tlb else []) ++ (if inQ (quadOf k.core) then (s.quad (quadOf k.core)).tlb else [])).filter fun e => !tlbKeep ctx range e
  { s with
    cores := s.cores.map fun k =>
      let d := { k with ibuf := k.ibuf.filter (ibufKeep ctx (gone k)) }
      if inC k.core then { d with tlb := k.tlb.filter (tlbKeep ctx range) } else d,
    quads := s.quads.map fun q => if inQ q.quad then
      { q with tlb := q.tlb.filter (tlbKeep ctx range), walk := q.walk.filter (walkKeep ctx range) } else q,
    dies := s.dies.map fun d => if inD d.die then { d with walk := d.walk.filter (tlbKeep ctx range) } else d }

/-- The page that holds an address of a context: its base and size; 8 KiB where there is no leaf. -/
def State.pageOf (s : State) (ctx : BitVec 16) (va : Nat) : Nat × Nat :=
  match (s.ctx? ctx).map fun x => walkLevels s ctx [] va [0, 1, 2, 3] x.root with
  | some (.leaf e _) => (e.va, e.size)
  | _ => (va / 8192 * 8192, 8192)

/-- Whether a range meets the pages of some bytes: an invalidation removes the translation of a whole page (R116, R366). -/
def State.meetsPages (s : State) (ctx : BitVec 16) (range : Option (Nat × Nat)) (va n : Nat) : Bool :=
  match range with
  | none => true
  | some (a, k) => [va, va + n - 1].any fun v =>
      let p := s.pageOf ctx v
      a < p.1 + p.2 && p.1 < a + max k 1

/-- Whether accesses that a context has translated through a range are still to be performed, in the cores that a test selects: the counters
of jobs, the objects of collectives, held beats, and an atomic between its halves. An invalidation completes after them (R116); of a
stopped context nothing is in flight, since a stop ends the translations of its jobs (R362), but for a handler's own beats. -/
def State.translated (s : State) (ctx : BitVec 16) (range : Option (Nat × Nat)) (inC : Nat → Bool) : Bool :=
  let held (ws : List StoreWindow) : Bool := ws.any fun w => w.held.any fun b => s.meetsPages ctx range b.va.toNat b.size
  let still := s.halted ctx
  s.jobs.any (fun j => !still && j.ctx == ctx && inC j.core && ((j.ctrVa != 0 && j.held && s.meetsPages ctx range j.ctrVa.toNat 8) || held j.windows)) ||
  s.colls.any (fun (k : Coll) => !still && k.ctx == ctx && inC k.core && k.held && (s.job? k.id).isSome && s.meetsPages ctx range k.objVa.toNat 32) ||
  s.cohorts.any fun d => (!still || d.hmode) && d.ctx == ctx && inC d.core && (held d.windows || d.rmw.any fun r => r.words != [])

/-- Whether a quad or a die meets the instance of a scope that contains a core. -/
def quadMeets (scope : Scope) (core q : Nat) : Bool :=
  match scope with
  | .wg | .core | .quad => quadOf core == q
  | .die => dieOf core == q / 24
  | .pkg | .pod => true
/-- The same for dies. -/
def dieMeets (scope : Scope) (core d : Nat) : Bool :=
  match scope with
  | .pkg | .pod => true
  | _ => dieOf core == d

/-- CCTL (R366, R367). -/
def execCctl (f : Fields) (s : State) : Out :=
  withMe s fun c =>
    let m := c.writeMask f
    if m = 0 then finish s c
    else
      let inC (k : Nat) : Bool := coreInScope f.scp c.core k
      match f.sub.toNat with
      | 0 => finish { s with cores := s.cores.map fun k => if inC k.core then { k with l1 := [] } else k } c
      | 1 =>
        if s.cores.any fun k => inC k.core && s.wcTaken k.core then waitHere s c
        else
        let range := match f.oa with
          | .none => none
          | o => some ((c.addrElected f o m).toNat, (s.atElected c f f.ob m).toNat)
        let s1 := s.invalidate c.ctx range inC (quadMeets f.scp c.core) (dieMeets f.scp c.core)
        let own := { s1 with jobs := [], colls := [], cohorts := s1.cohorts.filter (·.cid == c.cid) }.translated c.ctx range fun _ => true
        if own then indigoClose s1 c fun d => finish s1 d
        else if s1.translated c.ctx range inC then waitHere s1 c
        else finish s1 c
      | _ => finish { s with cores := s.cores.map fun k => if inC k.core then { k with ibuf := [] } else k } c

/-! ### FENCE (R385) -/

/-- FENCE: any fence drains the core's combining buffer (R108, R136); the cohort's held register writes are performed before a release
completes (R248). -/
def execFence (f : Fields) (s : State) : Out :=
  withMe s fun c =>
    if c.writeMask f = 0 then finish s c
    else if f.ord = .acquire then (if s.wcTaken c.core then waitHere s c else indigoClose s c fun d => finish (s.release d.core) d)
    else releasing s c fun t d => finish t d

end Sys2Proof.Machine
end

