-- ==== Sys2Proof/Machine/Rows.lean ====
section
/-!
DEFINITION. Machine/Rows.lean: where general registers live (R56 to R59). A cohort's G registers hold rows of their slot's
pool or are spilled. Before an instruction its spilled sources obtain rows; after it, what it wrote does (R57, R58). The words of
a spilled register stay readable, because spilling changes only timing (R58); its bytes are written to the spill area where that
area translates.
-/

namespace Sys2Proof.Machine

/-- Rows of a slot's pool (R27). -/
def poolRows : Nat := 1024

/-- The cohorts of a cohort's slot. -/
def State.slotMates (s : State) (c : Cohort) : List Cohort :=
  s.cohorts.filter fun d => d.core == c.core && d.place / 12 == c.place / 12

/-- Free rows of a cohort's slot. -/
def State.freeRows (s : State) (c : Cohort) : Nat := poolRows - (s.slotMates c).foldl (fun k d => k + d.rows.length) 0

/-- headroom(c) of R57. -/
def State.headroom (s : State) (c : Cohort) : Nat :=
  (s.slotMates c).foldl (fun k d => if d.cid = c.cid then k else k + (d.budget - d.rows.length)) 0

/-- The least recently written row that is not pinned; ties to the lower register number (R57). -/
def Cohort.oldestRow (c : Cohort) (pinned : List Nat) : Option (Nat × Nat) :=
  bestBy (fun (a b : Nat × Nat) => if a.2 ≠ b.2 then a.2 < b.2 else a.1 < b.1) (c.rows.filter fun r => !pinned.contains r.1)

/-- The spill area's bytes of a register, written where the area translates (R56, R58); an Indigo secondary writes none
(R296). -/
def State.writeSpill (s : State) (c : Cohort) (off : Nat) (words : List Word) : State :=
  if c.role = .secondary then s else
  match s.ctx? c.ctx with
  | none => s
  | some x =>
    let va := c.spill + BitVec.ofNat 64 off
    match s.xlat (.core c.core) c.core x .store va with
    | .ok key mt leaf tile =>
      ((s.touch (.core c.core) x va (.ok key mt leaf tile)).dirty (.ok key mt leaf tile)).store key (words.flatMap fun w => natBytes 4 w.toNat)
    | _ => s

/-- A cohort's register is marked spilled, without a row, and its 64 words are put at their place in the spill area: a row that is
spilled, or a write that goes around (R57, R58). -/
def State.spillRow (s : State) (cid i : Nat) : State :=
  match s.cohort? cid with
  | none => s
  | some c =>
    let words := match c.reg i with
      | .g ws => ws ++ List.replicate (64 - ws.length) 0
      | r => (List.range 64).map r.lane
    let c' := { c with rows := c.rows.filter fun r => r.1 != i, spilled := if c.spilled.contains i then c.spilled else i :: c.spilled }
    (s.setCohort c').writeSpill c (256 * i) words

/-- A cohort's register takes a row, written at this cycle. -/
def State.takeRow (s : State) (cid i now : Nat) : State :=
  match s.cohort? cid with
  | none => s
  | some c => s.setCohort { c with rows := (i, now) :: c.rows.filter (fun r => r.1 != i), spilled := c.spilled.filter (· != i) }

/-- obtain_row of R57 for register `i` of a cohort: after a write of it, or for a read, which may come from the spill area. `pinned`
are the registers of the cohort's own instruction. -/
def State.obtainRow (s : State) (cid i : Nat) (write : Bool) (pinned : List Nat) : State :=
  match s.cohort? cid with
  | none => s
  | some c =>
    let now := s.cycle (dieOf c.core)
    if 0 < s.freeRows c ∧ (c.rows.length < c.budget ∨ s.headroom c < s.freeRows c) then s.takeRow cid i now
    else
      let pins (d : Cohort) : List Nat := if d.cid = cid then pinned else d.pinnedRegs
      let rich := (s.slotMates c).filter fun d => d.budget < d.rows.length && (d.oldestRow (pins d)).isSome
      let victim := bestBy (fun (a b : Cohort) =>
        let ea := a.rows.length - a.budget
        let eb := b.rows.length - b.budget
        if ea ≠ eb then eb < ea else if a.prio ≠ b.prio then a.prio < b.prio else b.older a) rich
      match (if c.rows.length < c.budget then victim else none) with
      | some v =>
        match v.oldestRow (pins v) with
        | some (r, _) => (s.spillRow v.cid r).takeRow cid i now
        | none => s
      | none =>
        match c.oldestRow pinned with
        | some (r, _) => (s.spillRow cid r).takeRow cid i now
        | none => if write then s.spillRow cid i else s

/-- The registers an operand names: one, or a pair. -/
def opndRegs : Opnd → List Nat
  | .v i => [i.toNat]
  | .pair i => [i.toNat, i.toNat + 1]
  | _ => []

/-- Whether an MMA takes its A operand from the latch and does not read the registers (R145). -/
def Cohort.latched (c : Cohort) (f : Fields) : Bool := c.latch == some (BitVec.ofNat 8 (opndIndex f.oa))

/-- The registers an instruction of a cohort reads and the registers it writes (R57). MMA and EPI.rec only read their OD pair, the bank's
handle and selector or the record's address (R143, R376); RWR's OD is a register of its target (R437). -/
def regTraffic (i : Instr) (c : Cohort) : List Nat × List Nat :=
  match i.parts with
  | none => ([], [])
  | some (opc, f) =>
    let base := opndRegs f.ob ++ opndRegs f.oc ++ opndRegs f.oe
    let od := opndRegs f.od
    let range (o : Opnd) (k : Nat) : List Nat := match o with
      | .v x => (List.range k).map (x.toNat + ·)
      | _ => []
    match opc.toNat with
    | 0xA8 => (od ++ (if c.latched f then [] else opndRegs f.oa) ++ base, [])
    | 0xAD => if f.sub.getLsbD 1 then (od ++ opndRegs f.oa ++ base, []) else (opndRegs f.oa ++ base ++ range f.oc 5, od)
    | 0xC4 => (opndRegs f.oa ++ base, [])
    | n =>
      let more := if n = 0xA0 ∨ n = 0xA1 ∨ n = 0xA2 then range f.ob 5
        else if n = 0xD0 then range f.ob 8
        else if n = 0x43 then od
        else if n = 0x08 then range f.ob (bitsOf f.imm.toNat 4 0) ++ range f.oc (bitsOf f.imm.toNat 12 8) else []
      (opndRegs f.oa ++ base ++ more, od)

/-- A register that has been written is settled: a G register is written to its row, which it obtains first if it has none, or
around it; a U or A register gives up its row and its spilled words (R57 to R59). -/
def State.settleReg (s : State) (cid i : Nat) (pinned : List Nat) : State :=
  match s.cohort? cid with
  | none => s
  | some c =>
    match c.reg i with
    | .g _ =>
      if c.rows.any fun r => r.1 == i then s.takeRow cid i (s.cycle (dieOf c.core))
      else s.obtainRow cid i true pinned
    | _ => s.setCohort { c with rows := c.rows.filter fun r => r.1 != i, spilled := c.spilled.filter (· != i) }

/-- A cohort's registers after a restore: rows are obtained in ascending register number, and a register that gets none lies in
the spill area (R68). -/
def State.settleAll (s : State) (cid : Nat) : State :=
  match s.cohort? cid with
  | none => s
  | some c =>
    ((List.range c.nreg).filter fun i => !(c.reg i).isU).foldl (fun t i => t.settleReg cid i [])
      (s.setCohort { c with rows := [], spilled := [] })

/-- The register for which a cohort waited has been written by another unit: it gives up its row (R59). -/
def State.settleOpnd (s : State) (c : Cohort) : State :=
  match c.wait with
  | .banks o | .learner o _ => (opndRegs o).foldl (fun t i => t.settleReg c.cid i c.pinnedRegs) s
  | _ => s

/-- The bytes of stack entries that lie in the stack spill area (R36). -/
def stackWords (e : StackEntry) : List Word := [e.pc, DWord.lo e.mask, DWord.hi e.mask, e.outer]

/-- Stack entries newly spilled are written to the stack spill area, directly after the register spill area (R36). -/
def State.settleStack (s : State) (cid : Nat) (before : Nat) : State :=
  match s.cohort? cid with
  | none => s
  | some c =>
    if c.nSpill ≤ before then s
    else
      let es := ((c.stack.reverse.take c.nSpill).drop before).mapIdx fun k e => (before + k, e)
      es.foldl (fun t p => t.writeSpill c (256 * c.nreg + 16 * p.1) (stackWords p.2)) s

/-- The registers an instruction names, in ascending order. -/
def namedRegs (i : Instr) (c : Cohort) : List Nat :=
  let t := regTraffic i c
  (List.range c.nreg).filter fun k => t.1.contains k || t.2.contains k

/-- The write mask of an instruction's fields (R319). -/
def instrMask (i : Instr) (c : Cohort) : Mask :=
  match i.parts with
  | some (_, f) => c.writeMask f
  | none => 0

/-- Before an instruction of a cohort: each spilled register that it reads, or writes under a partial mask, is refilled (R58). -/
def State.collect (s : State) (i : Instr) (c : Cohort) : State :=
  let t := regTraffic i c
  let partly := c.full (instrMask i c) = false
  let all := namedRegs i c
  (all.filter fun k => t.1.contains k || partly).foldl (fun u k =>
    if (u.cohort? c.cid).any fun d => d.spilled.contains k then u.obtainRow c.cid k false all else u) s

/-- After an instruction of a cohort that is done: what it wrote is settled in ascending register number (R57), and its stack
(R36). `c` is the cohort as it was before. An instruction whose write mask is empty has written no register (log entry 11). -/
def State.settleRows (s : State) (i : Instr) (c : Cohort) : State :=
  let all := namedRegs i c
  let wr := if instrMask i c = 0 then [] else all.filter (regTraffic i c).2.contains
  (wr.foldl (fun t k => t.settleReg c.cid k all) s).settleStack c.cid c.nSpill

end Sys2Proof.Machine
end

