-- ==== Sys2Proof/Machine/Sync.lean ====
section
/-!
DEFINITION. Machine/Sync.lean: barrier objects and BAR (R180, R181, R339, R340, R346 to R349, R360, R194), the baton and the
accumulator banks (R150 to R153), counters and split handles (R375), remote register writes (R219, R345, R437, R438), tile
registers and full bits (R146, R448, R451), LREL (R213, R410), CFENCE (R260, R368) and PARK (R215 to R217, R424).
-/

namespace Sys2Proof.Machine

/-- A cause of group 11 raised at issue for a value read in the elected lane, with its address in that lane's record (R234,
R339). -/
def raiseAsync (s : State) (c : Cohort) (l reason lgsz : Nat) (addr : DWord) : Out :=
  raiseOut s c 11 (BitVec.ofNat 96 (reason * 2 ^ 64)) (c.electedRecs l 11 reason (lgField lgsz) addr)

/-- Group 13 for uncorrectable data that several lanes would share or an engine consumes (R234, R236). -/
def raiseHw (s : State) (c : Cohort) (reason key : Nat) : Out :=
  raiseOut s c 13 (hwDetail (s.unitOfKey key).1 reason (s.unitOfKey key).2) (c.plainRecs 0 13 reason)

/-! ### Barrier objects (R180, R339) -/

/-- EXPECT of an object. -/
def objExpect (o : Nat) : Nat := bitsOf o 15 0
/-- PEND of an object. -/
def objPend (o : Nat) : Nat := bitsOf o 31 16
/-- PHASE of an object. -/
def objPhase (o : Nat) : Nat := bitsOf o 47 32

/-- An object made of its fields (R180). -/
def objMake (expect pend phase scope status map gen : Nat) : Nat :=
  packBits [(0, expect), (16, pend), (32, phase), (48, scope), (56, status), (64, map), (128, gen)]

/-- An object with PHASE, PEND, STATUS and GEN replaced; every other bit is kept. -/
def objSet (o phase pend status gen : Nat) : Nat :=
  packBits [(0, bitsOf o 15 0), (16, pend), (32, phase), (48, bitsOf o 55 48), (56, status), (58, bitsOf o 63 58), (64, bitsOf o 127 64),
    (128, gen), (160, bitsOf o 255 160)]

/-- An arrival on an object (R340): PEND goes down, and at 0 the phase completes. -/
def objArrive (o : Nat) (gen : Word) : Nat :=
  let p := (objPend o + 65535) % 65536
  if p = 0 then objSet o ((objPhase o + 1) % 65536) (objExpect o) 0 gen.toNat
  else objSet o (objPhase o) p (bitsOf o 57 56) (bitsOf o 159 128)

/-- What an access of a barrier object does: whether it writes it, whether its line leaves L1, as at an ARRIVE, BARINIT or BWAIT (R105), and
whether it reads it. -/
structure ObjUse where
  writes : Bool
  drop : Bool
  reads : Bool

/-- The checks of R339 for the object at an address; `k` gets the translation that passed. An object that is read and holds uncorrectable
data raises group 13, reason 5. -/
def reachObject (s0 : State) (c : Cohort) (x : Ctx) (use : ObjUse) (l : Nat) (va : DWord) (k : State → Xlat → Out) : Out :=
  let r := s0.xlat (.core c.core) c.core x .load va
  let s := if 2 ^ 53 ≤ va.toNat ∨ va.toNat % 32 ≠ 0 then s0 else s0.noteXlat (.core c.core) x va r
  let fail (g r : Nat) : Out := .next (s.raiseElected c l g r 5 va)
  let typed (mt : BitVec 2) (go : Unit → Out) : Out :=
    if mt ≠ 0 then raiseAsync s c l 6 5 va
    else if use.writes then
      match s.xlat (.core c.core) c.core x .store va with
      | .fault g n => fail g n
      | _ => go ()
    else go ()
  if 2 ^ 53 ≤ va.toNat then fail 4 1
  else if va.toNat % 32 ≠ 0 then fail 3 0
  else match r with
    | .fault g n => fail g n
    | .poisoned a => raiseHw s c 2 a
    | .nonres mt => typed mt fun _ =>
      match s.pageReq? c.ctx (some c.cid) va.toNat with
      | some q => if q.status = 2 then raiseAsync (s.dropReq c.ctx (some c.cid) va.toNat) c l 2 5 va else waitHere s c
      | none => waitPage s c va.toNat
    | .ok key mt _ tile => typed mt fun _ =>
      let st := (s0.touch (.core c.core) x va r).unpin c va.toNat
      if use.writes && s.wordTaken c.cid key 32 then waitHere s c
      else if use.reads && st.poisoned key 32 then raiseHw st c 5 key
      else k (if tile then st else (if use.drop then st.l1Drop c.core (key / 128) else st).noteLine key mt 0) r

/-- A secondary's core drops the line of the object that its primary reaches (R105, R296). -/
def State.dropObject (s : State) (c : Cohort) (x : Ctx) (va : DWord) : State :=
  match s.xlat (.core c.core) c.core x .load va with
  | .ok key _ _ false => s.l1Drop c.core (key / 128)
  | _ => s

/-- ARRIVE (R340). In an Indigo pair the primary arrives and its token is forwarded (R296). -/
def execArrive (f : Fields) (s : State) : Out :=
  withMe s fun c => withCtx s c fun x =>
    let m := c.writeMask f
    if m = 0 then finish s c
    else if c.role = .secondary then
      indigoClose s c fun c => outsideValue (s.dropObject c x (c.addrElected f f.oa m)) c 0 fun s c v =>
        finish s (c.putUniformOpt f.od (DWord.lo v))
    else
      let va := c.addrElected f f.oa m
      reachObject s c x ⟨true, true, true⟩ (elect m) va fun s r =>
          let o := memNat s.mem r.key 32
          if objExpect o = 0 then raiseAsync s c (elect m) 6 5 va
          else releasing s c fun s c =>
            outsideValue ((s.dirty r).storeNat r.key 32 (objArrive o s.mgen)) c (BitVec.ofNat 64 (objPhase o)) fun s c v =>
              finish s (c.putUniformOpt f.od (DWord.lo v))

/-- BARINIT (R349). -/
def execBarinit (f : Fields) (s : State) : Out :=
  withMe s fun c => withCtx s c fun x =>
    let m := c.writeMask f
    if m = 0 then finish s c
    else
      let n := (s.atElected c f f.ob m).toNat
      let va := c.addrElected f f.oa m
      reachObject s c x ⟨true, true, false⟩ (elect m) va fun s r =>
        if n = 0 ∨ 65535 < n then raiseAsync s c (elect m) 6 5 va
        else indigoClose s c fun c =>
          let s1 := if c.role = .secondary then s else (s.dirty r).storeNat r.key 32 (objMake n n 0 f.scp.code.toNat 0 0 0)
          finish s1 c

/-- BWAIT (R360): the object is read fresh until its phase has passed the token. -/
def execBwait (f : Fields) (s : State) : Out :=
  withMe s fun c => withCtx s c fun x =>
    let m := c.writeMask f
    if m = 0 then finish s c
    else
      let done (s : State) (c : Cohort) (v : DWord) : Out := finish s (c.putPredOpt m f.od (if v.getLsbD 0 then m else 0))
      if c.role = .secondary then indigoClose s c fun c => outsideValue (s.dropObject c x (c.addrElected f f.oa m)) c 0 done
      else
        let t := (s.atElected c f f.ob m).toNat % 65536
        reachObject s c x ⟨false, true, true⟩ (elect m) (c.addrElected f f.oa m) fun s r =>
            let o := memNat s.mem r.key 32
            let d := (objPhase o + 65536 - t) % 65536
            if 1 ≤ d ∧ d < 2 ^ 15 then indigoClose s c fun c => outsideValue s c (BitVec.ofNat 64 (bitsOf o 57 56)) done
            else waitHere s c

/-! ### BAR at `.pod` (R194, R346 to R348) -/

/-- The identity of a pod-barrier instance: context, queue, packet SEQ and $WGID (R194). -/
def State.podKey (s : State) (c : Cohort) : BitVec 16 × Nat × Word × Word :=
  match s.launchOf c with
  | some l => (c.ctx, l.queue, l.seq, c.wgid)
  | none => (c.ctx, 0, 0, c.wgid)

/-- The participants of a pod barrier: the entries of the current table in this package's POD (R346). -/
def State.podRanks (s : State) : List RankEntry :=
  match s.adopted with
  | none => []
  | some t =>
    match t.entryOf s.faddr with
    | none => []
    | some me => t.entries.filter fun e => e.pod == me.pod

/-- A pod-barrier instance that exists or a new one. -/
def State.podBar (s : State) (k : BitVec 16 × Nat × Word × Word) : PodBar :=
  (s.podBars.find? fun b => b.ctx == k.1 && b.queue == k.2.1 && b.seq == k.2.2.1 && b.wgid == k.2.2.2).getD
    { ctx := k.1, queue := k.2.1, seq := k.2.2.1, wgid := k.2.2.2, arrived := [], sentAt := none, done := 0 }

/-- Replaces a pod-barrier instance. -/
def State.setPodBar (s : State) (b : PodBar) : State :=
  { s with podBars := b :: s.podBars.filter fun d => !(d.ctx == b.ctx && d.queue == b.queue && d.seq == b.seq && d.wgid == b.wgid) }

/-- The packet fields of an instance in a phase (R194). -/
def State.podPkt (s : State) (b : PodBar) (phase : BitVec 16) : PodPkt :=
  { src := s.faddr, gen := s.mgen, phase := phase, queue := BitVec.ofNat 16 b.queue, ctxid := b.ctx, seq := b.seq, wgid := b.wgid }

/-- The BAR.pod of a workgroup completes in this package (R347): each of its cohorts goes on. -/
def State.podDone (s : State) (b : PodBar) (abort : Bool) : State :=
  let mine (c : Cohort) : Bool := c.atBar .pod && s.podKey c == (b.ctx, b.queue, b.seq, b.wgid)
  let go (c : Cohort) : Cohort := { c.barDone abort with podPhase := if abort then c.podPhase else c.podPhase + 1 }
  let s1 := { s with cohorts := s.cohorts.map fun c => if mine c then go c else c }
  s1.setPodBar { b with sentAt := none }

/-- An arrival of one package at the root (R194): the P-th of a phase completes it everywhere. -/
def State.podCount (s : State) (die : Nat) (b : PodBar) (src : BitVec 20) (phase : BitVec 16) : State :=
  let ps := s.podRanks
  let arr := if b.arrived.contains (src, phase) then b.arrived else (src, phase) :: b.arrived
  if (arr.filter fun a => a.2 == phase).length < max 1 ps.length then s.setPodBar { b with arrived := arr }
  else
    let b' : PodBar := { b with arrived := arr.filter fun a => a.2 != phase, done := phase.toNat + 1 }
    let s1 := (s.setPodBar b').podDone b' false
    (ps.filter fun e => e.faddr != s.faddr).foldl (fun t e => t.send die (t.packetTo die e.faddr 0 0 (.podComplete (t.podPkt b phase)))) s1

/-- When every cohort of a workgroup has an arrival standing and every participant is active, ARRIVE goes to the root, or is
counted there (R194, R348). -/
def State.podTry (s : State) (c : Cohort) : State :=
  let mates := s.cohorts.filter fun d => d.launch == c.launch && d.wgid == c.wgid
  let ps := s.podRanks
  let b := s.podBar (s.podKey c)
  let phase := BitVec.ofNat 16 c.podPhase
  let die := dieOf c.core
  if !(mates.all fun d => d.atBar .pod) || ps.any (fun e => e.state != 0) || b.sentAt.isSome then s
  else match ps.head? with
    | none => s.podCount die b s.faddr phase
    | some root =>
      if root.faddr = s.faddr then s.podCount die b s.faddr phase
      else (s.setPodBar { b with sentAt := some (s.cycle die) }).send die (s.packetTo die root.faddr 0 0 (.podArrive (s.podPkt b phase)))

/-- Pod barriers are tried again, as after a rank becomes active or a participant has exited (R346, R348, R262): once for each
workgroup, by the first of its cohorts. -/
def State.podTryAll (s : State) : State :=
  (s.cohorts.filter fun c => c.atBar .pod && !(s.cohorts.any fun d => d.wg == c.wg && d.chid.toNat < c.chid.toNat)).foldl
    (fun t c => t.podTry c) s

/-- A stop or a save withdraws the arrival of a cohort's workgroup: the root forgets its own, and another package sends ARRIVE anew
when the workgroup stands again; the root ignores one it has counted (R194, R334, R347). -/
def State.podWithdraw (s : State) (c : Cohort) : State :=
  let b := s.podBar (s.podKey c)
  s.setPodBar { b with sentAt := none, arrived := b.arrived.filter fun a => a != (s.faddr, BitVec.ofNat 16 c.podPhase) }

/-- BAR (R346, R347): the cohort stands an arrival, and the phase completes when every participant has one. -/
def execBar (f : Fields) (s : State) : Out :=
  withMe s fun c =>
    let m := c.writeMask f
    let qg := match s.launchOf c with
      | some l => l.kern.qg
      | none => false
    if f.scp = .quad ∧ qg = false then raiseWord s c 0xC0 f 1 9 0xFF
    else if m = 0 then finish s c
    else releasing s c fun s c =>
      let d := { c with wait := .bar f.scp f.od m }
      let s1 := s.setCohort d
      .next (if f.scp = .pod then s1.podTry d else s1.barCheck f.scp d)

/-! ### The baton (R153, R354, R358) -/

/-- BTAKE (R358): a free baton is taken at once; otherwise the cohort waits for it. -/
def execBtake (f : Fields) (s : State) : Out :=
  withMe s fun c =>
    if c.writeMask f = 0 then finish s c
    else if s.holdsBaton c then raiseR s c 10 9
    else match (s.core c.core).baton with
      | none => finish (s.setCore { s.core c.core with baton := some c.cid }) c
      | some _ => waitFor s c .baton

/-- BPASS (R354): the baton is handed on and the A-operand latch is dropped. -/
def execBpass (f : Fields) (s : State) : Out :=
  withMe s fun c =>
    if c.writeMask f = 0 then finish s c
    else if s.holdsBaton c then finish (s.passBaton c.core) { c with latch := none }
    else raiseR s c 10 10

/-! ### Accumulator banks (R150 to R152, R335 to R337) -/

/-- The handle of a grant (R150). -/
def handleOf (n : Nat) (serial : BitVec 16) : Word := BitVec.ofNat 32 (n + serial.toNat * 64)

/-- A waiting ACCALLOC receives its handle and completes (R335). -/
def Cohort.granted (c : Cohort) (h : Word) : Cohort :=
  match c.wait with
  | .banks od => ({ c with handle := some h, accReq := 0 }.putUniformOpt od h).complete
  | _ => { c with handle := some h, accReq := 0 }

/-- The n lowest free banks go to a cohort, set to +0, under a new serial (R150). -/
def CoreState.grant (k : CoreState) (cid n : Nat) : CoreState :=
  let free := (List.range 32).filter fun b => ((k.banks[b]?).map fun x => x.owner.isNone).getD false
  let given := free.take n
  { k with serial := k.serial + 1, banks := k.banks.mapIdx fun b x => if given.contains b then { owner := some cid, freed := false, vals := [] } else x }

/-- Requests at the head of a core's bank queue are granted while their banks are free (R150). -/
def grantLoop : Nat → State → Nat → State
  | 0, s, _ => s
  | fuel + 1, s, core =>
    let k := s.core core
    match k.bankQ with
    | [] => s
    | (cid, n) :: rest =>
      if (k.banks.filter fun b => b.owner.isNone).length < n then s
      else
        let k' := ({ k with bankQ := rest }).grant cid n
        let s1 := s.setCore k'
        grantLoop fuel (match s1.cohort? cid with
          | some c => (s1.setCohort (c.granted (handleOf n k'.serial))).settleOpnd c
          | none => s1) core

/-- Requests of a core are served as far as banks are free (R150). -/
def State.grantBanks (s : State) (core : Nat) : State := grantLoop ((s.core core).bankQ.length) s core

/-- ACCALLOC (R335). -/
def execAccalloc (f : Fields) (s : State) : Out :=
  withMe s fun c =>
    let m := c.writeMask f
    if m = 0 then finish s c
    else
      let n := (s.atElected c f f.oa m).toNat
      let k := s.core c.core
      if n = 0 ∨ 32 < n then raiseR s c 10 3
      else if c.handle.isSome ∨ k.bankQ.any (fun q => q.1 == c.cid) then raiseR s c 10 2
      else
        let s1 := (s.setCore { k with bankQ := k.bankQ ++ [(c.cid, n)] }).setCohort { c with wait := .banks f.od, waitSeq := s.fresh }
        .next ({ s1 with fresh := s1.fresh + 1 }.grantBanks c.core)

/-- Whether a register holds a cohort's current handle (R151). -/
def Cohort.handleOk (c : Cohort) (i : Nat) : Bool :=
  match c.reg i, c.handle with
  | .u h, some k => h == k
  | _, _ => false

/-- ACCFREE (R152, R337): the allocation ends, and banks that nothing touches return and are offered at once. -/
def execAccfree (f : Fields) (s : State) : Out :=
  withMe s fun c =>
    if c.writeMask f = 0 then finish s c
    else if c.handleOk (opndIndex f.oa) = false then raiseR s c 10 4
    else
      let d := ({ c with handle := none }).complete
      .next (((s.freeBanks c).setCohort d).grantBanks c.core)

/-! ### Counters and split handles (R375) -/

/-- The value that resumption writes for a counter (R375). -/
def counterValue (v : DWord) : Word := BitVec.ofNat 32 (bitsOf v.toNat 63 63 * 2 ^ 31 + bitsOf v.toNat 30 0)

/-- CWAIT and CWAIT.split (R375). -/
def cwaitOut (f : Fields) (s : State) (split : Bool) : Out :=
  withMe s fun c => withCtx s c fun x =>
    let m := c.writeMask f
    if m = 0 then finish s c
    else
      let va := c.addrElected f f.oa m
      let l := elect m
      let want : DWord := (s.atElected c f f.ob m).setWidth 64
      if va.toNat % 8 ≠ 0 then .next (s.raiseElected c l 3 0 3 va)
      else
        let r := s.xlat (.core c.core) c.core x .load va
        let s0 := s.touch (.core c.core) x va r
        match r with
        | .fault g n => .next (s0.raiseElected c l g n 3 va)
        | .poisoned a => raiseHw s0 c 2 a
        | .nonres _ => waitPage s0 c va.toNat
        | .ok key mt _ tile =>
          let s1 := (if tile then s0 else (s0.noteLine key mt 0).l1Renew c.core (key / 128)).unpin c va.toNat
          if c.role != .single && s.heldOver c x key 8 then indigoClose s c fun d => waitHere s d
          else if split then splitOut s1 c f 2 (.counter key va want f.scp) none
          else if c.role = .secondary then outsideValue s1 c 0 fun s c _ => finish s c
          else if inRegs key = false ∧ s0.poisoned key 8 = true then raiseHw s0 c 5 key
          else
            let v := BitVec.ofNat 64 (if inRegs key then s1.hostRead (regOff key) 8 else memNat s1.mem key 8)
            if v.toNat < want.toNat then waitHere s1 c else outsideValue s1 c v fun s c _ => finish s c

/-- CWAIT (R375). -/
def execCwait (f : Fields) (s : State) : Out := cwaitOut f s false

/-- CWAIT.split (R375). -/
def execCwaitSplit (f : Fields) (s : State) : Out := cwaitOut f s true

/-! ### Remote register writes (R219, R345, R437) -/

/-- AWAITC (R345). -/
def execAwaitc (f : Fields) (s : State) : Out :=
  withMe s fun c =>
    let k := s.atElected c f f.oa (c.writeMask f)
    if (c.arrive - k).toNat < 2 ^ 31 then finish s c else waitHere s c

/-- RWR and RWR.vec (R437): the landing is on its way once the release is done; a saved target makes the sender wait. -/
def rwrOut (f : Fields) (s : State) (vec : Bool) : Out :=
  withMe s fun c =>
    let m := c.writeMask f
    if (s.launchOf c).all (fun l => !l.kern.qg) then raiseWord s c 0xC4 f 1 9 0xFF
    else if m = 0 then finish s c
    else
      let pos := (s.atElected c f f.ob m).toNat
      let chid := (s.atElected c f f.oc m).toNat
      if 3 < pos ∨ c.nch.toNat ≤ chid then .next (s.raiseElected c (elect m) 4 8 0 0)
      else
        let wgid := c.wgid.toNat / 4 * 4 + pos
        let val : VReg := if vec then s.src c f f.oa else .u (s.atElected c f f.oa m)
        if s.saved.any fun v => v.wg.launch == c.launch && v.wg.wgid == wgid then waitHere s c
        else releasing s c fun s c =>
          match s.cohorts.find? fun d => d.launch == c.launch && d.wgid.toNat == wgid && d.chid.toNat == chid with
          | none => finish s c
          | some d => finish { s with landings := s.landings ++ [{ sender := c.cid, target := d.cid, reg := opndIndex f.od, val := val }] } c

/-- RWR (R437). -/
def execRwr (f : Fields) (s : State) : Out := rwrOut f s false

/-- RWR.vec (R437). -/
def execRwrVec (f : Fields) (s : State) : Out := rwrOut f s true

/-- Whether an instruction of the target that has issued and is not complete reads or writes a register, so that a landing waits for it
(R438). -/
def Cohort.holdsReg (c : Cohort) (i : Nat) : Bool := c.pinnedRegs.contains i

/-- A landing takes effect (R65, R438): the target register in every lane that is not dead, and $ARRIVE. -/
def Cohort.land (c : Cohort) (g : Landing) : Cohort :=
  let v := match g.val with
    | .g ws => c.general fun l => ws.getD l 0
    | u => u
  { c.setReg g.reg v with arrive := c.arrive + 1 }

/-! ### Tile registers and full bits (R146, R448, R451) -/

/-- LBASE of a descriptor. -/
def descBase (d : Word) : Nat := bitsOf d.toNat 12 0
/-- Number of lines of a descriptor's window. -/
def descLines (d : Word) : Nat := bitsOf d.toNat 18 13 + 1
/-- ILV of a descriptor. -/
def descIlv (d : Word) : Nat := bitsOf d.toNat 20 19
/-- SOFF of a descriptor. -/
def descSoff (d : Word) : Nat := bitsOf d.toNat 31 21

/-- First core line and lines of the region of a cohort's workgroup (R28). -/
def State.regionOf (s : State) (c : Cohort) : Nat × Nat :=
  match s.wg? c.wg with
  | some w => (w.block * 64, w.blocks * 64)
  | none => (0, 0)

/-- The descriptor of a tile register, if it is set. -/
def Cohort.tileOf (c : Cohort) (o : Opnd) : Option Word :=
  match o with
  | .t i => c.tiles.getD i.toNat none
  | _ => none

/-- TWIN (R451). -/
def execTwin (f : Fields) (s : State) : Out :=
  withMe s fun c =>
    let m := c.writeMask f
    if m = 0 then finish s c
    else
      let d := s.atElected c f f.oa m
      if (s.regionOf c).2 < descBase d + descLines d then .next (s.raiseElected c (elect m) 4 7 0 0)
      else finish s { c with tiles := c.tiles.set (opndIndex f.od) (some d) }

/-- Lines become full in a core (R109). -/
def CoreState.setFull (k : CoreState) (lines : List Nat) : CoreState :=
  { k with full := lines.foldl (fun acc n => upsertBy id n acc) k.full }

/-- Lines become empty in a core (R109). -/
def CoreState.setEmpty (k : CoreState) (lines : List Nat) : CoreState := { k with full := k.full.filter fun n => !lines.contains n }

/-- TMARK (R448): it waits for the range scoreboard; `.full` is a release at `.pod`. -/
def execTmark (f : Fields) (s : State) : Out :=
  withMe s fun c =>
    let m := c.writeMask f
    if m = 0 then finish s c
    else
      let first := (s.atElected c f f.ob m).toNat
      let k := (s.atElected c f f.oc m).toNat
      if k = 0 then finish s c
      else match c.tileOf f.oa with
        | none => raiseR s c 11 3
        | some d =>
          if descLines d < first + k then raiseR s c 11 3
          else
            let lo := (s.regionOf c).1 + descBase d + first
            let lines := (List.range k).map (lo + ·)
            if lines.any fun n => s.boardBlocks c.core n false then waitHere s c
            else if f.sub = 0 then releasing s c fun s c => finish (s.setCore ((s.core c.core).setFull lines)) c
            else finish (s.setCore ((s.core c.core).setEmpty lines)) c

/-- LREL (R213, R410): a release at `.pkg`, after which the cohort counts as released. -/
def execLrel (_f : Fields) (s : State) : Out := withMe s fun c => releasing s c fun t d => finish t { d with lrel := true }

/-! ### CFENCE (R260, R368) -/

/-- Whether a COLL or an RCOPY of any context has neither completed nor aborted on this package (R260). -/
def State.collsOpen (s : State) : Bool :=
  s.colls.any (fun (k : Coll) => (s.job? k.id).isSome || (!k.ready && !k.aborted)) || s.jobs.any fun j => j.kind == .rcopy

/-- A survivor still lacks a stripe that its rollback needs (R265). Where no holder is left to serve it, the shard is lost, and a table with
FALLBACK takes the staged one's place (R267). -/
def State.lacksStripe (s : State) (t : RankTable) : Bool :=
  !t.fallback && (s.wantedStripes t).any fun i => !(s.stripes.any fun x => x.idx == i && x.verified)

/-- CFENCE (R260): it waits for collectives, adopts a staged table after rolling back to its step, writes the table out (R257), and compares
generations. DESIGN CHOICE: where a page of TABLEBUF cannot be accessed or made resident, it adopts without that write, as the other adoptions
do (log entry 91). -/
def execCfence (f : Fields) (s : State) : Out :=
  withMe s fun c =>
    let m := c.writeMask f
    let done (s : State) (c : Cohort) : Out :=
      let want := s.atElected c f f.oa m
      outsideValue s c (s.mgen.setWidth 64) fun s c v => finish s (c.putPredOpt m f.od (if DWord.lo v = want then 0 else m))
    if c.role = .secondary then indigoClose s c fun c => done s c
    else if s.collsOpen then waitHere s c
    else releasing s c fun s c =>
      match s.staged with
      | none => done s c
      | some t =>
        if s.lacksStripe t then waitHere (fillMore 64 s t) c
        else
          let s1 := s.rollBack t.step
          match s1.writeTable t with
          | .error (.nonres va) =>
            match s.memBlock with
            | some b =>
              if (s.pageReq? b.ctx none va).any fun q => q.status == 2 then done ((s1.dropReq b.ctx none va).adopt t) c
              else waitHere (s.askPage b.ctx none va) c
            | none => done (s1.adopt t) c
          | .error _ => done (s1.adopt t) c
          | .ok s2 => done (s2.adopt t) c

/-! ### PARK (R215 to R217, R424) -/

/-- The registers that a PARK lists, range 1 before range 2 (R217). -/
def parkList (f : Fields) : List Nat :=
  let run (o : Opnd) (k : Nat) : List Nat := match o with
    | .v i => (List.range k).map (i.toNat + ·)
    | _ => []
  run f.ob (bitsOf f.imm.toNat 4 0) ++ run f.oc (bitsOf f.imm.toNat 12 8)

/-- The wait-table entry that a U handle names for a cohort, if it has not been parked on (R215, R216). -/
def State.parkEntry (s : State) (c : Cohort) (h : Word) : Option WaitEntry :=
  let kind := bitsOf h.toNat 31 28
  s.waitTable.find? fun e => e.die == dieOf c.core && e.index == bitsOf h.toNat 15 0 && e.cid == c.cid && !e.parked &&
    bitsOf h.toNat 27 16 == 0 && kind == (match e.op with
      | .pages _ => 1
      | .counter _ _ _ _ => 2
      | .learner => 3)

/-- The conditions of R215. -/
def State.parkOk (s : State) (c : Cohort) (f : Fields) (l : Launch) : Option WaitEntry :=
  let list := parkList f
  match c.reg (opndIndex f.oa) with
  | .u h =>
    if l.kern.task && (c.s0.isSome != c.s1.isSome) && c.stack.isEmpty && !s.holdsBaton c && c.handle.isNone && list.length ≤ 16 &&
        list.all (fun r => r < c.nreg) then s.parkEntry c h
    else none
  | _ => none

/-- A parked cohort's place, workgroup and rows are freed (R31, R217). -/
def State.leaveCore (s : State) (c : Cohort) : State :=
  { s with cohorts := s.cohorts.filter (fun d => d.cid != c.cid), wgs := s.wgs.filter fun w => w.id != c.wg }

/-- PARK (R424). -/
def execPark (f : Fields) (s : State) : Out :=
  withMe s fun c => withCtx s c fun x =>
    match s.launchOf c with
    | none => raiseR s c 12 3
    | some l =>
      match s.parkOk c f l with
      | none => raiseR s c 12 3
      | some e =>
        if s.holdsWrite c.cid || s.wcTaken c.core then waitHere s c
        else
          let res := match f.od with
            | .v i => some i.toNat
            | _ => none
          let h := (c.reg (opndIndex f.oa)).lane 0
          let bs := c.parkRecord (parkList f) h res l.queue l.seq l.kern.kdesc
          match s.vaWrite (.core c.core) c.core x c.spill.toNat bs with
          | .error (.nonres va) => waitPage s c va
          | .error (.fault g r va) => .next (s.raiseElected c (elect c.here.mask) g r 0 (BitVec.ofNat 64 va))
          | .error (.poisoned a) => raiseHw s c 2 a
          | .error (.data a) => raiseHw s c 5 a
          | .ok s1 =>
            -- the stores of the core's combining buffer come before what follows the park (R132)
            let s2 := (((s1.unpin c c.spill.toNat).release c.core).leaveCore c).recheckCore c.launch c.core
            .next { s2 with
              waitTable := s2.waitTable.map fun w => if w.die = e.die ∧ w.index = e.index then { w with parked := true } else w,
              parked := s2.parked ++ [{ die := e.die, index := e.index, addr := c.spill, ctx := c.ctx, launch := c.launch, core := c.core,
                                        wgid := c.wgid.toNat, wg := c.wg, cid := c.cid, lrel := c.lrel, podPhase := c.podPhase }] }

end Sys2Proof.Machine
end

