-- ==== Sys2Proof/Machine/Matrix.lean ====
section
/-!
DEFINITION. Machine/Matrix.lean: the matrix engine (R143 to R157, R411, R413 to R415, R419): MMA, batches, the matrix step of
R86 to R88, and the banks' return (R152).
-/

namespace Sys2Proof.Machine

/-! ### Tile memory as engines see it (R147) -/

/-- Where software byte `b` of core line `n` is stored within its line (R147). -/
def ilvByte (ilv n b : Nat) : Nat :=
  if ilv = 0 then b
  else
    let z := 8 * 2 ^ ilv
    ((b / z) ^^^ (n % (128 / z))) * z + b % z

/-- Byte `i` of a window that begins at a core line. -/
def State.tileByte (s : State) (core line0 ilv i : Nat) : Byte :=
  let n := line0 + i / 128
  memByte s.mem (tileKey core (128 * n + ilvByte ilv n (i % 128)))

/-- `w` bits from bit position `p` of a window; an element lies within one chunk. -/
def State.tileBits (s : State) (core line0 ilv p w : Nat) : Nat :=
  leNat ((List.range ((w + 7) / 8)).map fun i => s.tileByte core line0 ilv (p / 8 + i)) / 2 ^ (p % 8) % 2 ^ w

/-- Writes one software byte of a window. -/
def State.putTileByte (s : State) (core line0 ilv i : Nat) (b : Byte) : State :=
  let n := line0 + i / 128
  s.store (tileKey core (128 * n + ilvByte ilv n (i % 128))) [b]

/-- Whether every line of a list is full in a core (R110). -/
def State.linesFull (s : State) (core : Nat) (lines : List Nat) : Bool := lines.all fun n => (s.core core).full.contains n

/-- Whether a byte of a line of tile memory is poisoned (R300). -/
def State.lineBad (s : State) (core n : Nat) : Bool := s.poisoned (tileKey core (128 * n)) 128

/-! ### MMA (R413, R414) -/

/-- The depth of a matrix step (R86). -/
def stepDepth : Typ → Nat
  | .bf16 | .f16 => 4
  | .e2m1 | .mxe2m1 => 16
  | _ => 8

/-- Whether a type is microscaled. -/
def isMx : Typ → Bool
  | .mxe4m3 | .mxe5m2 | .mxe2m1 | .mxs8 => true
  | _ => false

/-- The window lines that step `st` needs (R148). -/
def stepLines (tr : Bool) (st : Nat) : List Nat :=
  if tr then (List.range 32).map (st / 16 * 32 + ·) else [2 * st, 2 * st + 1]

/-- The byte of the scale area where a step's column codes begin (R149). -/
def scaleByte (t : Typ) (st : Nat) : Nat := 32 * (st * stepDepth t / 32)

/-- The core lines that an MMA reads (R138, R148, R149). -/
def Mma.lines (m : Mma) : List Nat :=
  (stepLines m.tr m.step).map (m.line0 + ·) ++
    (if isMx m.typA then [m.line0 + m.soff + scaleByte m.typA m.step / 128] else [])

/-- The physical banks of a cohort's allocation in ascending order (R151). -/
def State.banksOf (s : State) (c : Cohort) : List Nat :=
  (List.range 32).filter fun b => (((s.core c.core).banks[b]?).map fun x => x.owner == some c.cid && !x.freed).getD false

/-- The types of A and B: SUB 2 and 3 pair E4M3 with E5M2 (R413). -/
def mmaTypes (f : Fields) : Typ × Typ :=
  if f.sub.getLsbD 1 then (f.typ, if f.typ = .e4m3 then .e5m2 else .e4m3) else (f.typ, f.typ)

/-- MMA (R414): the checks in order, then acceptance with its operands captured. -/
def execMma (f : Fields) (s : State) : Out :=
  withMe s fun c =>
    let m := c.writeMask f
    let l := elect m
    let sel := opndIndex f.od
    let x := bitsOf ((c.reg (sel + 1)).lane l).toNat 4 0
    let st := (s.atElected c f f.oc m).toNat
    let tr := f.sub.getLsbD 0
    if m = 0 then finish s c
    else if s.holdsBaton c = false then raiseR s c 10 1
    else if c.handleOk sel = false then raiseR s c 10 4
    else match (s.banksOf c)[x]? with
      | none => raiseR s c 10 5
      | some bank =>
        match c.tileOf f.ob with
        | none => raiseR s c 10 6
        | some d =>
          let t := mmaTypes f
          if (stepLines tr st).any fun n => descLines d ≤ n then raiseR s c 10 7
          else if isMx f.typ ∧ descSoff d = 0 then raiseR s c 10 8
          else if isMx f.typ ∧ (s.regionOf c).2 ≤ descBase d + descSoff d + (scaleByte f.typ st + 31) / 128 then
            .next (s.raiseElected c l 4 10 0 0)
          else
            let k := s.core c.core
            if 64 ≤ k.mmaQ.length || s.holdsWrite c.cid then waitHere s c
            else indigoClose s c fun c =>
              let a := opndIndex f.oa
              let acc : Mma :=
                { seq := s.fresh, cid := c.cid, wg := c.wg, ctx := c.ctx, batch := none, bank := bank, typA := t.1, typB := t.2, tr := tr,
                  step := st, lanes := m, aVals := (List.range 64).map fun i => lane64 (c.reg a, c.reg (a + 1)) i,
                  aScales := if isMx f.typ then (List.range 64).map fun i => bitsOf ((s.src c f f.oe).lane i).toNat 7 0 else [],
                  line0 := (s.regionOf c).1 + descBase d, ilv := descIlv d, soff := descSoff d, place := c.place, pc := c.here.pc,
                  pre := k.wc.map (·.line) }
              finish { s.setCore { k with mmaQ := k.mmaQ ++ [acc] } with fresh := s.fresh + 1 }
                { c with latch := if f.ru then some (BitVec.ofNat 8 a) else none }

/-! ### Batches (R156, R157) -/

/-- The closed batches of a cohort that are not complete: they complete in order (R156). -/
def State.openBatches (s : State) (c : Cohort) : List (BitVec 16) :=
  c.closed.dropWhile fun b => !((s.core c.core).mmaQ.any fun m => m.cid == c.cid && m.batch == some b)

/-- MBATCH (R411): the open batch is closed under the next number; a 17th incomplete batch waits. -/
def execMbatch (f : Fields) (s : State) : Out :=
  withMe s fun c =>
    if c.writeMask f = 0 then finish s c
    else
      let pending := s.openBatches c
      if 16 ≤ pending.length then waitHere s c
      else
        let n := c.lastBatch + 1
        let k := s.core c.core
        let q := k.mmaQ.map fun m => if m.cid = c.cid ∧ m.batch = none then { m with batch := some n } else m
        finish (s.setCore { k with mmaQ := q }) ({ c with lastBatch := n, closed := pending ++ [n] }.putUniformOpt f.od (n.setWidth 32))

/-- MWAIT (R157, R419): it waits until every closed batch up to `n` is complete. -/
def execMwait (f : Fields) (s : State) : Out :=
  withMe s fun c =>
    let m := c.writeMask f
    if m = 0 then finish s c
    else
      let n : BitVec 16 := (s.atElected c f f.oa m).setWidth 16
      let ahead := (n - c.lastBatch).toNat
      if 1 ≤ ahead ∧ ahead < 2 ^ 15 then raiseR s c 10 11
      else if (s.openBatches c).any fun b => (n - b).toNat < 2 ^ 15 then waitHere s c
      else finish s { c with closed := s.openBatches c }

/-! ### The matrix step (R86 to R88, R143) -/

/-- The exact product of an A and a B element with their scales; integer types multiply as integers (R86 to R88). -/
def mmaProduct (ta tb : Typ) (a b : Nat) (scale : Option Int) : FVal :=
  match scale with
  | none => .nan
  | some e =>
    let p : FVal :=
      if ta = .s8x4 ∨ ta = .mxs8 then
        let v := signedOf 8 a * signedOf 8 b
        .fin (v < 0) v.natAbs (if ta = .mxs8 then -12 else 0)
      else (fpMul (fpVal (fmtOf ta) a) (fpVal (fmtOf tb) b)).1
    match p with
    | .fin n mag x => .fin n mag (x + e)
    | q => q

/-- The value 1 exactly. -/
def oneVal : FVal := .fin false 1 0

/-- `step_sum` (R86, R87): the products and the accumulator summed exactly and rounded once to F32 by `.rne`. -/
def stepSum (c : Word) (ps : List FVal) : Word :=
  BitVec.ofNat 32 (roundArith f32 .rne 0 (fpFma .rne (ps.map fun p => (p, oneVal)) (fpVal f32 c.toNat)).1).1

/-- Element kk of column j of a step, as bits (R148). -/
def State.bElem (s : State) (core : Nat) (m : Mma) (kk j : Nat) : Nat :=
  let k := stepDepth m.typA
  let w := 64 / k
  if m.tr then s.tileBits core (m.line0 + m.step / 16 * 32 + j) m.ilv (64 * (m.step % 16) + kk * w) w
  else s.tileBits core (m.line0 + 2 * m.step) m.ilv (kk * (2048 / k) + j * w) w

/-- The scale exponent of row i and column j (R88); `none` for the NaN scale. -/
def State.mmaScale (s : State) (core : Nat) (m : Mma) (i j : Nat) : Option Int :=
  if isMx m.typA then
    let sa := m.aScales.getD i 0
    let sb := (s.tileByte core (m.line0 + m.soff) m.ilv (scaleByte m.typA m.step + j)).toNat
    if sa = 0xFF ∨ sb = 0xFF then none else some ((sa : Int) + sb - 254)
  else some 0

/-- The value of row i, column j of a bank. -/
def Bank.val (b : Bank) (i j : Nat) : Word := ((b.vals.find? fun v => v.1 == 32 * i + j).map (·.2)).getD 0

/-- A bank's values from a function, non-zero ones listed in ascending order. -/
def bankVals (val : Nat → Nat → Word) : List (Nat × Word) :=
  (List.range 2048).filterMap fun k => let v := val (k / 32) (k % 32); if v = 0 then none else some (k, v)

/-- A bank after a step (R143): rows outside the captured lanes keep their values. DESIGN CHOICE: a lane that dies after its MMA was accepted
still takes part in it (log entry 91). -/
def State.stepBank (s : State) (core : Nat) (m : Mma) (b : Bank) : Bank :=
  let k := stepDepth m.typA
  let w := 64 / k
  let cols := (List.range 32).map fun j => (List.range k).map fun kk => s.bElem core m kk j
  { b with vals := bankVals fun i j =>
      if m.lanes.getLsbD i then
        let a := (m.aVals.getD i 0).toNat
        let sc := s.mmaScale core m i j
        stepSum (b.val i j) (((cols.getD j []).mapIdx fun kk e => mmaProduct m.typA m.typB (a / 2 ^ (kk * w) % 2 ^ w) e sc))
      else b.val i j }

/-- Whether two footprint regions overlap (R138); tile regions are of one core, because jobs of one workgroup are. -/
def Region.meets : Region → Region → Bool
  | .mem a b, .mem c d => a ≤ d && c ≤ b
  | .tile a b, .tile c d => a ≤ d && c ≤ b
  | .bank a, .bank b => a == b
  | _, _ => false

/-- Whether a later command must wait for an earlier one (R139). -/
def edgeBetween (xr xw yr yw : List Region) : Bool :=
  let meet (p q : List Region) : Bool := p.any fun a => q.any fun b => a.meets b
  meet yr xw || meet yw xr || meet yw xw

/-- What an MMA reads and writes (R138). -/
def Mma.reads (m : Mma) : List Region := m.lines.map (fun n => .tile n n) ++ [.bank m.bank]

/-- Whether a job has accesses to perform: those of its traversal, or writes held in store windows (R139, R297). -/
def Job.unfinished (j : Job) : Bool := j.status != 3 || j.windows != []

/-- Whether an earlier job of the workgroup holds an MMA back (R139, R156). -/
def State.mmaBlocked (s : State) (m : Mma) : Bool :=
  s.jobs.any fun j => j.wg == m.wg && j.id < m.seq && j.unfinished && edgeBetween j.reads j.writes m.reads [.bank m.bank]

/-- The MMA that a core's engine performs next: the oldest of a context that is not halted (R155). -/
def State.nextMma (s : State) (core : Nat) : Option Mma := (s.core core).mmaQ.find? fun m => !s.halted m.ctx

/-- Whether that MMA can be performed now: its lines are full, no earlier command holds it, and the stores that its core combined before
it are performed (R110, R137, R139). -/
def State.mmaReady (s : State) (core : Nat) (m : Mma) : Bool :=
  s.linesFull core m.lines && !s.mmaBlocked m && !((s.core core).wc.any fun w => m.pre.contains w.line)

/-- MATRIX_STEP: a core's engine performs its next accepted MMA, when its lines are full and nothing earlier holds it (R143,
R155). An uncorrectable error in a line or bank it reads stops its context (R234, R300, R302); a step whose replay mismatches too is not
written (R162). -/
def execMatrixStep (core : Nat) (s : State) : Out :=
  match s.nextMma core with
  | none => .next s
  | some m =>
    if s.mmaReady core m = false then .next s
    else match m.lines.find? (s.lineBad core) with
      | some _ => .next (s.jobCause m.cid m.ctx 13 (hwDetail (0xE000 + 2) 5 core) m.pc)
      | none =>
        if s.upsets.contains (.bank core m.bank) then .next (s.jobCause m.cid m.ctx 13 (hwDetail (0xE000 + 3) 5 core) m.pc)
        else if s.replayBad 2 core then .next (s.engineReplay 2 core m.ctx m.cid m.pc)
        else
        let s := s.replayed (BitVec.ofNat 16 (2 * 8192 + core)) (dieOf core)
        let k := s.core core
        .next (s.setCore { k with mmaQ := k.mmaQ.filter (fun q => q.seq != m.seq),
                                  banks := k.banks.mapIdx fun b x => if b = m.bank then s.stepBank core m x else x })

/-! ### Banks that return (R150, R152) -/

/-- BANK_GRANT: the head requests of a core's bank queue are granted while enough banks are free (R150). -/
def execBankGrant (core : Nat) (s : State) : Out := .next (s.grantBanks core)

/-- BANK_RETURN: a bank whose allocation has ended returns once nothing accepted touches it, and is offered to the queue in the
same cycle (R152). -/
def execBankReturn (core bank : Nat) (s : State) : Out :=
  let k := s.core core
  match k.banks[bank]? with
  | some b =>
    if b.freed ∧ s.bankBusy core bank = false then
      .next ((s.setCore { k with banks := k.banks.set bank { owner := none, freed := false, vals := [] } }).grantBanks core)
    else .next s
  | none => .next s

end Sys2Proof.Machine
end

