-- ==== Sys2Proof/Machine/Engine.lean ====
section
/-!
DEFINITION. Machine/Engine.lean: the copy interface and the epilogue engine (R111, R121, R137 to R140, R158 to R179, R371,
R378 to R380, R393, R431, R439) and the issue of COLL (R182 to R184, R370): acceptance of a job, the lines it moves, its
pauses, and its completion.
-/

namespace Sys2Proof.Machine

/-! ### Tensor layout records (R167, R168) -/

/-- Bits of one element of a record's TYPE (R167). -/
def recBits : Typ → Nat
  | .s16x2 | .u16x2 | .s8x4 | .u8x4 => 32
  | t => elemBits t

/-- Word Dk of a record. -/
def recWord (bs : List Byte) (k : Nat) : Nat := leNat ((bs.drop (8 * k)).take 8)

/-- The reserved bits of each record word (R167). -/
def recReserved : List (Nat × Nat) :=
  [(0, 0xFF00000000000000), (1, 0xFFFFC080), (4, 0xFFFFFFFF00000000), (5, 0xFFFF000000000000), (6, 0xFFFF000000000000),
   (7, 0xFFFF000000000000), (8, 0xFFFF000000000000), (10, 0xFFFFFFFF00000000), (11, 0xFFFFFFFFFFFFFFFF)]

/-- The word that holds EXT of a dimension. -/
def extWord (d : Nat) : Nat := 2 + d / 2
/-- The word that holds BOX of a dimension. -/
def boxWord (d : Nat) : Nat := if d < 4 then 9 else 10

/-- A record's fields (R167). -/
def recOf (bs : List Byte) : TRecord :=
  let d := recWord bs
  { base := bitsOf (d 0) 55 0, typ := Typ.ofCode (BitVec.ofNat 4 (bitsOf (d 1) 3 0)), rank := bitsOf (d 1) 6 4 + 1,
    fill := bitsOf (d 1) 9 8, fillv := BitVec.ofNat 32 (bitsOf (d 1) 63 32), ilv := bitsOf (d 1) 13 10,
    exts := (List.range 5).map fun k => bitsOf (d (extWord k)) (32 * (k % 2) + 31) (32 * (k % 2)),
    strides := (List.range 5).map fun k => if k = 0 then 0 else bitsOf (d (4 + k)) 47 0,
    boxes := (List.range 5).map fun k => bitsOf (d (boxWord k)) (16 * (k % 4) + 15) (16 * (k % 4)),
    pitch := bitsOf (d 10) 31 16 }

/-- Whether a type has a NaN (R168). -/
def typHasNan : Typ → Bool
  | .f32 | .bf16 | .f16 | .e4m3 | .e5m2 | .mxe4m3 | .mxe5m2 => true
  | _ => false

/-- The record word of the first condition of R168 that a record breaks, in the order listed; `rows` for GATHER and
SCATTER. -/
def recReject (rows : Bool) (bs : List Byte) : Option Nat :=
  let t := recOf bs
  let bits := recBits t.typ
  let ext (d : Nat) := t.exts.getD d 0
  let box (d : Nat) := t.boxes.getD d 0
  let stride (d : Nat) := t.strides.getD d 0
  let used := (List.range 5).filter (· < t.rank)
  let unused := (List.range 5).filter (t.rank ≤ ·)
  let dim (bad : Nat → Nat → Bool) (badStride : Nat → Bool) (d : Nat) : Option Nat :=
    if bad (ext d) d then some (extWord d)
    else if bad (box d) d then some (boxWord d)
    else if badStride d then some (4 + d) else none
  let when (b : Bool) (k : Nat) : Option Nat := if b then some k else none
  ((recReserved.find? fun r => recWord bs r.1 &&& r.2 != 0).map (·.1)) <|>
  when (2 ^ 53 ≤ t.base || (8 ≤ bits && t.base % (bits / 8) != 0)) 0 <|>
  when (5 < t.rank) 1 <|>
  used.findSome? (dim (fun v _ => v == 0) fun d => d != 0 && stride d % 16 != 0) <|>
  unused.findSome? (dim (fun v _ => v != 0) fun d => stride d != 0) <|>
  when (3 < t.ilv || (t.fill == 2 && !typHasNan t.typ) ||
    (if t.fill = 1 then 2 ^ bits ≤ t.fillv.toNat else t.fillv != 0)) 1 <|>
  when (bits == 4 && ext 0 % 2 != 0) 2 <|>
  when (bits == 4 && box 0 % 2 != 0) 9 <|>
  when (t.pitch != 0 && (t.pitch < (box 0 * bits + 1023) / 1024 || 64 < t.pitch)) 10 <|>
  when (rows && t.rank < 2) 1 <|>
  (if rows then used.findSome? (fun d => if d != 0 && box d != 1 then some (boxWord d) else none) else none)

/-- The address of an element and its nibble (R169), in 64 bits. -/
def TRecord.addr (t : TRecord) (xs : List Int) : Nat :=
  let x (d : Nat) : Int := xs.getD d 0
  let off : Int := x 0 * recBits t.typ / 8 +
    ((List.range 5).filter (fun d => 0 < d && d < t.rank)).foldl (fun acc d => acc + x d * (t.strides.getD d 0 : Nat)) 0
  (((t.base : Int) + off) % (2 ^ 64 : Nat)).toNat

/-- Whether coordinates lie in range (R169). -/
def TRecord.inRange (t : TRecord) (xs : List Int) : Bool :=
  ((List.range 5).filter (· < t.rank)).all fun d => 0 ≤ xs.getD d 0 && xs.getD d 0 < (t.exts.getD d 0 : Nat)

/-- Coordinates clamped to the tensor (R170). -/
def TRecord.clamp (t : TRecord) (xs : List Int) : List Int :=
  xs.mapIdx fun d x => if d < t.rank then max 0 (min x ((t.exts.getD d 0 : Nat) - 1)) else x

/-- What a read out of range delivers, but for edge-replicate (R170). -/
def TRecord.fillBits (t : TRecord) : Nat :=
  match t.fill with
  | 1 => t.fillv.toNat
  | 2 => (fmtOf t.typ).nanBits
  | _ => 0

/-- Box rows of a record: BOX1 × … × BOX4 over its dimensions (R171). -/
def TRecord.boxRows (t : TRecord) : Nat :=
  ((List.range 5).filter fun d => 0 < d && d < t.rank).foldl (fun n d => n * t.boxes.getD d 1) 1

/-- The coordinates of element i0 of row q of a box traversal (R169, R171). -/
def TRecord.boxCoords (t : TRecord) (c : List Int) (i0 q : Nat) : List Int :=
  let b (d : Nat) : Nat := if d < t.rank then max 1 (t.boxes.getD d 1) else 1
  let i : List Nat := [i0, q % b 1, q / b 1 % b 2, q / (b 1 * b 2) % b 3, q / (b 1 * b 2 * b 3) % b 4]
  (List.range 5).map fun d => c.getD d 0 + (i.getD d 0 : Nat)

/-- The bit of the tile side at which an element begins (R171). -/
def TRecord.tileBit (t : TRecord) (i0 q : Nat) : Nat :=
  let bits := recBits t.typ
  if t.pitch = 0 then (q * t.boxes.getD 0 0 + i0) * bits else q * 1024 * t.pitch + i0 * bits

/-- The bytes that a number of rows needs on the tile side (R171). -/
def TRecord.tileBytes (t : TRecord) (rows : Nat) : Nat :=
  if rows = 0 then 0 else (t.tileBit (t.boxes.getD 0 0) (rows - 1) + 7) / 8

/-- The window lines that hold at least one element (R171). -/
def TRecord.tileLines (t : TRecord) (rows : Nat) : List Nat :=
  let rowLines := (t.boxes.getD 0 0 * recBits t.typ + 1023) / 1024
  if t.pitch = 0 then List.range ((t.tileBytes rows + 127) / 128)
  else (List.range rows).flatMap fun q => (List.range rowLines).map (q * t.pitch + ·)

/-! ### Footprints (R138) -/

/-- A byte range as regions: the part of it that falls in the tile window as tile lines, the rest as memory in whole lines (R111,
R138). -/
def regionsAt (x : Ctx) (lo hi : Nat) : List Region :=
  let mem (a b : Nat) : List Region := if a ≤ b then [.mem (a / 128 * 128) (b / 128 * 128 + 127)] else []
  let top := x.tw + 2 ^ 20
  if x.twe = false ∨ hi < x.tw ∨ top ≤ lo then mem lo hi
  else .tile ((max lo x.tw - x.tw) / 128) ((min hi (top - 1) - x.tw) / 128) ::
    ((if lo < x.tw then mem lo (x.tw - 1) else []) ++ if top ≤ hi then mem top hi else [])

/-- The regions of a box, cut to the tensor (R138). -/
def TRecord.boxRegions (t : TRecord) (x : Ctx) (c : List Int) : List Region :=
  let lo := t.clamp c
  let hi := t.clamp ((List.range 5).map fun d => c.getD d 0 + (t.boxes.getD d 0 : Nat) - 1)
  regionsAt x (t.addr lo) (t.addr hi + (recBits t.typ + 7) / 8 - 1)

/-- The regions of a whole tensor (R138). -/
def TRecord.wholeRegions (t : TRecord) (x : Ctx) : List Region :=
  regionsAt x t.base (t.addr ((List.range 5).map fun d => ((t.exts.getD d 0 : Nat) : Int) - 1) + (recBits t.typ + 7) / 8 - 1)

/-- The lines of a list of regions that lie in tile memory. -/
def tileLinesOf (rs : List Region) : List Nat := rs.flatMap fun r => match r with
  | .tile lo hi => [lo, hi]
  | _ => []

/-! ### Addresses of a command (R166) -/

/-- The first address of a command that fails: alignments in order, then bits [63:53]. Each is given with log2 of its
alignment. -/
def badAddress (as : List (DWord × Nat)) : Option (DWord × Nat × Nat × Nat) :=
  match as.find? fun a => a.1.toNat % 2 ^ a.2 != 0 with
  | some a => some (a.1, 3, 0, a.2)
  | none => (as.find? fun a => 2 ^ 53 ≤ a.1.toNat).map fun a => (a.1, 4, 1, a.2)

/-- Whether a run of bytes has stores waiting in a core's combining buffer (R137). -/
def State.combining (s : State) (core : Nat) (x : Ctx) (va n : Nat) : Bool :=
  match s.vaPieces (.die (dieOf core)) core x .load (pagePieces (n / 8192 + 2) va n) with
  | .ok ps => (s.core core).wc.any fun w => ps.any fun q => q.2.2.key < w.line * 128 + 128 && w.line * 128 < q.2.2.key + q.2.1
  | .error _ => false

/-- The engine reads a record fresh at acceptance (R166, R167). -/
def readRecord (s : State) (c : Cohort) (x : Ctx) (l : Nat) (va : DWord) (k : State → List Byte → Out) : Out :=
  let p : XPort := .die (dieOf c.core)
  if s.combining c.core x va.toNat 96 then waitHere s c
  else
    let st := s.vaTouch p c.core x .load (pagePieces 2 va.toNat 96)
    match s.vaRead p c.core x va.toNat 96 with
    | .error (.nonres a) => waitPage st c a
    | .error (.fault _ _ a) => raiseAsync st c l 1 6 (BitVec.ofNat 64 a)
    | .error (.poisoned a) => raiseHw st c 2 a
    | .error (.data a) => raiseHw st c 5 a
    | .ok (bs, t) => k (t.unpinRun c va.toNat 96) bs

/-- The engine translates the counter at acceptance (R174); `k` gets its place and the address of its leaf, which gets DF when the counter is
written (R114). -/
def reachCounter (s0 : State) (c : Cohort) (x : Ctx) (l : Nat) (va : DWord) (k : State → Nat × Option Nat → Out) : Out :=
  let r := s0.xlat (.die (dieOf c.core)) c.core x .store va
  let s := s0.noteXlat (.die (dieOf c.core)) x va r
  match r with
  | .fault _ _ => raiseAsync s c l 5 3 va
  | .poisoned a => raiseHw s c 2 a
  | .nonres mt => if mt ≠ 0 then raiseAsync s c l 5 3 va else waitPage s c va.toNat
  | .ok key mt leaf _ =>
    if mt ≠ 0 then raiseAsync s c l 5 3 va
    else k ((s0.touch (.die (dieOf c.core)) x va r).unpin c va.toNat) (key, leaf.map (·.leaf))

/-! ### Acceptance (R109, R111, R139) -/

/-- A job of a cohort before its kind's own fields. -/
def Job.start (s : State) (c : Cohort) (kind : JobKind) (opc : BitVec 8) (f : Fields) : Job :=
  { id := s.fresh, kind := kind, cid := c.cid, core := c.core, place := c.place, wg := c.wg, launch := c.launch, ctx := c.ctx,
    pc := c.here.pc, opc := opc, recAddr := 0, line0 := 0, nlines := 0, ilv := 0, soff := 0, trec := none, coords := [], indexes := [],
    idxVa := 0, off := 0, ctrVa := 0, ctrPa := 0, scope := f.scp, epi := none, srcRank := 0, srcCore := 0, srcLine := 0, reads := [],
    writes := [], next := 0, total := 0, satSeen := false, status := 0, pausedAt := 0, pol := hintL2 f,
    pre := (s.core c.core).wc.map (·.line), landed := [], seqNo := c.jobSeq, role := c.role, windows := [], winDone := 0, mate := c.twin }

/-- Whether all 32 entries of a core's range scoreboard are taken (R111). -/
def State.boardFull (s : State) (core : Nat) : Bool := 32 ≤ (s.core core).board.length

/-- A job is accepted: it takes a scoreboard entry over the tile lines it touches (R111), its destination lines are cleared
(R109), and the instruction completes. -/
def acceptJob (s : State) (c : Cohort) (j : Job) (lines : List Nat) (writes : Bool) (clear : List Nat) : Out :=
  if lines ≠ [] ∧ s.boardFull c.core = true then waitHere s c
  else
    let k := s.core c.core
    let entry : List SbEntry :=
      match lines with
      | [] => []
      | n :: ns => [{ job := j.id, lo := ns.foldl min n, hi := ns.foldl max n, write := writes }]
    let s1 := s.setCore ({ k with board := k.board ++ entry }.setEmpty clear)
    finish { s1 with jobs := s1.jobs ++ [j], fresh := s1.fresh + 1 } { c with jobSeq := c.jobSeq + 1 }

/-- A tensor record that R168 or a command's own check refuses: group 2, reason 6, with the record's word, recorded in the elected
lane with the record's address (R234, R459). -/
def raiseRecord (s : State) (c : Cohort) (opc : BitVec 8) (f : Fields) (l word : Nat) (va : DWord) : Out :=
  let w0 := (joinWord (f.raw opc)).setWidth 32
  raiseOut s c 2 (BitVec.ofNat 96 (w0.toNat + (6 + word * 256) * 2 ^ 64)) (c.electedRecs l 2 6 (lgField 6) va)

/-- The five coordinates in the elected lane (R164). -/
def coordsOf (c : Cohort) (o : Opnd) (l : Nat) : List Int :=
  (List.range 5).map fun k => ((c.reg (opndIndex o + k)).lane l).toInt

/-- The core line on which an element of a tensor falls, where it lies in the tile window (R109). -/
def TRecord.windowLine (t : TRecord) (x : Ctx) (xs : List Int) : Option Nat :=
  let a := t.addr xs
  if t.inRange xs && inWindow x.twe x.tw 786432 a then some ((a - x.tw) / 128) else none

/-- The core lines in the tile window that a traversal of `total` elements writes (R109). -/
def TRecord.windowLines (t : TRecord) (x : Ctx) (coords : Nat → List Int) (total : Nat) : List Nat :=
  ((List.range total).filterMap fun n => t.windowLine x (coords n)).eraseDups

/-- COPY, GATHER and SCATTER (R371, R393, R439). -/
def tensorCommand (kind : JobKind) (opc : BitVec 8) (f : Fields) (s : State) : Out :=
  withMe s fun c => withCtx s c fun x =>
    let m := c.writeMask f
    let l := elect m
    let ra := c.addrElected f f.oa m
    let ca := c.addrElected f f.oc m
    let rows := kind == .gather || kind == .scatter
    let ia := c.addrElected f f.oe m
    if m = 0 then finish s c
    else match badAddress ([(ra, 6), (ca, 3)] ++ if rows then [(ia, 2)] else []) with
      | some (va, g, r, n) => .next (s.raiseElected c l g r n va)
      | none =>
        match c.tileOf f.od with
        | none => raiseR s c 11 3
        | some d =>
          if s.holdsWrite c.cid then waitHere s c
          else indigoClose s c fun c =>
            readRecord s c x l ra fun s bs =>
              match recReject rows bs with
              | some k => raiseRecord s c opc f l k ra
              | none =>
                let t := recOf bs
                let count := if rows then bitsOf f.imm.toNat 12 0 else t.boxRows
                if descLines d * 128 < t.tileBytes count then raiseR s c 11 3
                else if t.ilv ≠ descIlv d then raiseR s c 11 4
                else reachCounter s c x l ca fun s key =>
                  let line0 := (s.regionOf c).1 + descBase d
                  let lines := (t.tileLines count).map (line0 + ·)
                  let lo := lines.foldl min (line0 + 64)
                  let hi := lines.foldl max line0
                  let coords := coordsOf c f.ob l
                  let tile : Region := .tile lo hi
                  let idx : List Region := if rows then regionsAt x ia.toNat (ia.toNat + 4 * count - 1) else []
                  let mem := if rows then t.wholeRegions x else t.boxRegions x coords
                  let load := kind == .copyLd || kind == .gather
                  let reads := if load then idx ++ mem else tile :: idx
                  let writes := if load then [tile] else mem
                  let total := count * t.boxes.getD 0 0
                  let out := if kind = .copySt then
                      t.windowLines x (fun n => t.boxCoords coords (n % t.boxes.getD 0 1) (n / t.boxes.getD 0 1)) total
                    else []
                  let j := { Job.start s c kind opc f with
                    recAddr := ra, line0 := line0, nlines := descLines d, ilv := t.ilv, trec := some t, coords := coords,
                    idxVa := if rows then ia.toNat else 0, ctrVa := ca, ctrPa := key.1, ctrLeaf := key.2, reads := reads, writes := writes, total := total }
                  acceptJob s c j (lines ++ tileLinesOf (reads ++ writes)) (load || tileLinesOf mem != [])
                    (if load then lines else out)

/-- COPY (R371): SUB 0 to tile memory, SUB 1 from it. -/
def execCopy (f : Fields) (s : State) : Out := tensorCommand (if f.sub = 0 then .copyLd else .copySt) 0xA0 f s

/-- GATHER (R393). -/
def execGather (f : Fields) (s : State) : Out := tensorCommand .gather 0xA1 f s

/-- SCATTER (R439). -/
def execScatter (f : Fields) (s : State) : Out := tensorCommand .scatter 0xA2 f s

/-! ### EPI (R158, R159, R378 to R380) -/

/-- The bytes of an output row in tile memory (R159). -/
def epiRowBytes (t : Typ) : Nat := 4 * elemBits t

/-- Rows per line of the output (R159). -/
def epiLineRows (t : Typ) : Nat := max 1 (128 / epiRowBytes t)

/-- EPI and EPI.rec, checked in the order of R379. -/
def epiCommand (f : Fields) (s : State) (toRec : Bool) : Out :=
  withMe s fun c => withCtx s c fun x =>
    let m := c.writeMask f
    let l := elect m
    let sel := opndIndex f.oa
    let ctl := ((c.reg (sel + 1)).lane l).toNat
    let hasBias := bitsOf ctl 5 5 = 1
    let bline := bitsOf ctl 15 10
    let ca := c.addrElected f f.oe m
    let ra := c.addrElected f f.od m
    let dest := if toRec then none else c.tileOf f.od
    let bias := if hasBias then c.tileOf (.t (BitVec.ofNat 4 (bitsOf ctl 9 6))) else none
    let region := s.regionOf c
    if m = 0 then finish s c
    else if c.handleOk sel = false then raiseR s c 10 4
    else match (s.banksOf c)[bitsOf ctl 4 0]? with
      | none => raiseR s c 10 5
      | some bank =>
        if (toRec = false ∧ dest = none) ∨ (hasBias ∧ bias = none) then raiseR s c 10 6
        else
          let dLines := (dest.map descLines).getD 0
          let dBase := region.1 + (dest.map descBase).getD 0
          let soff := (dest.map descSoff).getD 0
          let mx := isMx f.typ
          let bytes := c.width * epiRowBytes f.typ
          if (toRec = false ∧ dLines * 128 < bytes) ∨ (hasBias ∧ (bias.map descLines).getD 0 ≤ bline) then raiseR s c 10 7
          else if toRec = false ∧ mx ∧ soff = 0 then raiseR s c 10 8
          else if toRec = false ∧ mx ∧ region.2 ≤ (dest.map descBase).getD 0 + soff then .next (s.raiseElected c l 4 10 0 0)
          else match badAddress ((if toRec then [(ra, 6)] else []) ++ [(ca, 3)]) with
            | some (va, g, r, n) => .next (s.raiseElected c l g r n va)
            | none =>
              if s.holdsWrite c.cid then waitHere s c
              else indigoClose s c fun c =>
                let biasLine := bias.map fun b => region.1 + descBase b + bline
                let e : EpiOps :=
                  { bank := bank, alpha := (List.range c.width).map fun i => if c.dead.getLsbD i then 0x3F800000 else (s.src c f f.ob).lane i,
                    bias := biasLine, biasIlv := (bias.map descIlv).getD 0, typ := f.typ, rnd := f.rnd, sat := f.sat,
                    zero := f.sub.getLsbD 0, rows := c.width }
                let bankR : List Region := [.bank bank]
                let biasR : List Region := match biasLine with
                  | some n => [.tile n n]
                  | none => []
                let zeroW : List Region := if e.zero then bankR else []
                let job (s : State) (key : Nat × Option Nat) : Job := { Job.start s c (if toRec then .epiRec else .epiTile) 0xAD f with
                  recAddr := if toRec then ra else 0, ctrVa := ca, ctrPa := key.1, ctrLeaf := key.2, epi := some e, reads := bankR ++ biasR }
                if toRec then
                  readRecord s c x l ra fun s bs =>
                    match recReject false bs with
                    | some k => raiseRecord s c 0xAD f l k ra
                    | none =>
                      let t := recOf bs
                      if t.typ ≠ f.typ then raiseRecord s c 0xAD f l 1 ra
                      else reachCounter s c x l ca fun s key =>
                        let coords := coordsOf c f.oc l
                        let mem := { t with boxes := [32, c.width, 1, 1, 1] }.boxRegions x coords
                        let out := t.windowLines x (fun n => (coords.set 0 (coords.getD 0 0 + (n % 32 : Nat))).set 1 (coords.getD 1 0 + (n / 32 : Nat)))
                          (32 * c.width)
                        acceptJob s c { job s key with trec := some t, coords := coords, writes := mem ++ zeroW, total := 32 * c.width }
                          (tileLinesOf (biasR ++ mem)) (tileLinesOf mem != []) out
                else
                  reachCounter s c x l ca fun s key =>
                    let lines := (List.range ((bytes + 127) / 128)).map (dBase + ·)
                    let all := lines ++ if mx then [dBase + soff] else []
                    acceptJob s c { job s key with line0 := dBase, nlines := dLines, ilv := (dest.map descIlv).getD 0, soff := if mx then soff else 0,
                                                   writes := all.map (fun n => .tile n n) ++ zeroW, total := c.width }
                      (all ++ tileLinesOf biasR) true all

/-- EPI to a tile register (R378). -/
def execEpi (f : Fields) (s : State) : Out := epiCommand f s false

/-- EPI through a tensor layout record (R378, R380). -/
def execEpiRec (f : Fields) (s : State) : Out := epiCommand f s true

/-! ### RCOPY (R175 to R179, R431) and COLL (R183, R184, R370) -/

/-- Whether a cohort is the communication cohort of its launch's kernel; `none` without `.comm` (R182). -/
def State.isComm (s : State) (c : Cohort) : Option Bool :=
  match s.launchOf c with
  | none => none
  | some l => l.kern.comm.map fun j => c.chid.toNat == j

/-- Whether a rank lies in the current table (R175); a pull from a vacant one waits (R262). A package without a table is alone at its rank. -/
def State.rankPresent (s : State) (r : Nat) : Bool :=
  match s.adopted with
  | none => r == s.pkgRank.toNat
  | some t => (t.entries[r]?).isSome

/-- RCOPY (R431). -/
def execRcopy (f : Fields) (s : State) : Out :=
  withMe s fun c => withCtx s c fun x =>
    let m := c.writeMask f
    let l := elect m
    let ca := c.addrElected f f.oc m
    let src := bitsOf f.imm.toNat 12 0
    let n := bitsOf f.imm.toNat 18 13 + 1
    if m = 0 then finish s c
    else if s.isComm c ≠ some true then raiseR s c 11 8
    else match badAddress [(ca, 3)] with
      | some (va, g, r, k) => .next (s.raiseElected c l g r k va)
      | none =>
        match c.tileOf f.od with
        | none => raiseR s c 11 3
        | some d =>
          let line0 := (s.regionOf c).1 + descBase d
          if descLines d < n then raiseR s c 11 3
          else if descIlv d ≠ 0 ∧ src % 8 ≠ line0 % 8 then raiseR s c 11 4
          else if s.holdsWrite c.cid then waitHere s c
          else reachCounter s c x l ca fun s key =>
            let rank := (s.atElected c f f.oa m).toNat
            let core := (s.atElected c f f.ob m).toNat
            if s.rankPresent rank = false ∨ 1536 ≤ core ∨ 6144 < src + n then raiseR s c 11 7
            else
              let lines := (List.range n).map (line0 + ·)
              -- a job of the workgroup writes tile memory of its own core only, so other cores' lines make no edge (R138)
              let own : List Region := if rank = s.pkgRank.toNat ∧ core = c.core then [.tile src (src + n - 1)] else []
              acceptJob s c { Job.start s c .rcopy 0xA3 f with
                line0 := line0, nlines := n, ctrVa := ca, ctrPa := key.1, ctrLeaf := key.2, srcRank := rank, srcCore := core, srcLine := src,
                reads := own, writes := [.tile line0 (line0 + n - 1)], total := n } (lines ++ tileLinesOf own) true lines

/-- COLL (R184, R370): each issue counts once; the communication cohort's gives the operands. Stores that the core combines at any
issue come before the collective's accesses (R137). -/
def execColl (f : Fields) (s : State) : Out :=
  withMe s fun c => withCtx s c fun x =>
    let m := c.writeMask f
    let count (s : State) (c : Cohort) (mk : Coll → Coll) : Coll :=
      let co := (s.colls.find? fun (k : Coll) => k.wg == c.wg && k.index == c.colls).getD
        { id := s.fresh, launch := c.launch, wg := c.wg, wgid := c.wgid.toNat, ctx := c.ctx, index := c.colls, sub := 0, typ := .u32, red := 0,
          alg := 0, group := 0, root := 0, objVa := 0, objPa := 0, core := c.core, line0 := 0, nlines := 0, issued := [],
          ready := false, started := false, pc := 0, cid := c.cid }
      mk { co with issued := c.cid :: co.issued }
    -- one that has ended is kept until its last cohort has issued it (R184, R187)
    let put (s : State) (co : Coll) : State :=
      let spent := co.ready && (s.job? co.id).isNone && (s.wg? co.wg).all fun w => w.live + w.gone.length ≤ co.issued.length
      { s with colls := (s.colls.filter fun (k : Coll) => !(k.wg == co.wg && k.index == co.index)) ++ (if spent then [] else [co]), fresh := s.fresh + 1 }
    if m = 0 then finish s c
    else match s.isComm c with
      | none => raiseR s c 11 8
      | some false =>
        if s.holdsWrite c.cid then waitHere s c
        else indigoClose s c fun c =>
          let co := count s c id
          let wait (j : Job) : Job := if co.ready ∧ j.id = co.id then { j with pre := j.pre ++ (s.core c.core).wc.map (·.line) } else j
          finish (put { s with jobs := s.jobs.map wait } co) { c with colls := c.colls + 1 }
      | some true =>
        match c.tileOf f.od with
        | none => raiseR s c 11 3
        | some d =>
          let va := c.addrElected f f.oa m
          if s.holdsWrite c.cid then waitHere s c
          else indigoClose s c fun c => reachObject s c x ⟨true, false, false⟩ (elect m) va fun s r =>
            let line0 := (s.regionOf c).1 + descBase d
            let n := descLines d
            let tile : Region := .tile line0 (line0 + n - 1)
            let j := { Job.start s c .collStep 0xA4 f with line0 := line0, nlines := n, ilv := descIlv d, reads := [tile], writes := [tile] }
            let imm := f.imm.toNat
            let co := count s c fun k =>
              { k with id := j.id, sub := f.sub.toNat, typ := f.typ, red := bitsOf imm 1 0, alg := bitsOf imm 3 2,
                       group := bitsOf imm 7 4, root := bitsOf imm 31 8, objVa := va, objPa := r.key, objLeaf := r.leaf?, held := true, core := c.core, line0 := line0,
                       nlines := n, ready := true, pc := c.here.pc, cid := c.cid, ilv := descIlv d }
            finish (put { s with jobs := s.jobs ++ [j] } co) { c with colls := c.colls + 1, jobSeq := c.jobSeq + 1 }

end Sys2Proof.Machine
end

