-- ==== Sys2Proof/Machine/Moves.lean ====
section
/-!
DEFINITION. Machine/Moves.lean: moves, selects, conversions and predicate logic (R372 to R374, R416, R428, R440).
-/

namespace Sys2Proof.Machine

/-- A register's value as it is copied: a G copy holds zero in dead lanes (R62). -/
def Cohort.copied (c : Cohort) (v : VReg) : VReg :=
  match v with
  | .g _ => c.general v.lane
  | _ => v

/-- MOV: a full write takes the source's tag (R416, R60 rule 11); `.w64` follows rule 3. -/
def execMov (f : Fields) (s : State) : Out :=
  withMe s fun c =>
    let m := c.writeMask f
    if f.sub = 1 then
      let a := c.src64 f f.oa
      finish s (c.putLanes64 m f.od [a.1, a.2] (lane64 a))
    else
      let a := s.src c f f.oa
      finish s (c.putVec m (opndIndex f.od) a.lane (c.copied a))

/-- SEL: U only when both sources are U and the predicate holds one value across M (R440, R60 rule 12). -/
def execSel (f : Fields) (s : State) : Out :=
  withMe s fun c =>
    let m := c.writeMask f
    let a := s.src c f f.oa
    let b := s.src c f f.ob
    let p := c.predOf f.oc
    let lane (l : Nat) : Word := if p.getLsbD l then a.lane l else b.lane l
    let one := p &&& m == 0 || p &&& m == m
    let shape := if a.isU && b.isU && one then .u (lane (elect m)) else c.general lane
    finish s (c.putVec m (opndIndex f.od) lane shape)

/-- PLOP (R428). -/
def execPlop (f : Fields) (s : State) : Out :=
  withMe s fun c =>
    let m := c.writeMask f
    let x := c.predOf f.oa
    let y := c.predOf f.ob
    let bits : Mask :=
      match f.sub.toNat with
      | 0 => x &&& y
      | 1 => x ||| y
      | 2 => x ^^^ y
      | 3 => x &&& ~~~y
      | _ =>
        let a := s.src c f f.oa
        maskOf fun l => a.lane l != 0
    finish s (c.putPredOpt m f.od bits)

/-! ### Conversions (R372) -/

/-- Whether every value of a floating-point type is a value of another: "the same or wider" (R77, R372; log entry 12). -/
def widens (s t : Typ) : Bool := (fmtOf s).ew ≤ (fmtOf t).ew && (fmtOf s).mw ≤ (fmtOf t).mw

/-- A floating-point value as an integer of a type (R78). -/
def floatToInt (t : Typ) (rnd : Rnd) (sat : Bool) (v : FVal) : Nat × BitVec 6 :=
  let bad : BitVec 6 := if sat then flagSAT else flagNV
  match v with
  | .nan => (0, bad)
  | .inf neg => (wrapInt (elemBits t) (if neg then intMin t else intMax t), bad)
  | .fin neg mag e =>
    let r := roundInt rnd neg mag e
    if r.1 < intMin t then (wrapInt (elemBits t) (intMin t), bad)
    else if intMax t < r.1 then (wrapInt (elemBits t) (intMax t), bad)
    else (wrapInt (elemBits t) r.1, if r.2 then flagNX else 0)

/-- One element of type `s` converted to type `t` (R372). -/
def convertElem (s t : Typ) (rnd : Rnd) (sat : Bool) (u : Word) (x : Nat) : Nat × BitVec 6 :=
  if typInteger s then
    let v := intVal s x
    if typInteger t then iclamp t sat v
    else roundConv (fmtOf t) rnd sat false u (.fin (v < 0) v.natAbs 0)
  else
    let v := fpVal (fmtOf s) x
    if typInteger t then floatToInt t rnd sat v
    else roundConv (fmtOf t) rnd sat (widens s t) u v

/-- The element number that a CVT's immediate gives (R372). -/
def immIndex : Opnd → Nat
  | .imm d => d.toNat
  | _ => 0

/-- CVT: one element of OA to element 0 of OD; the rest of the word is zero (R373). -/
def execCvt (f : Fields) (s : State) : Out :=
  withMe s fun c =>
    let a := s.src c f f.oa
    let st := Typ.ofCode f.sub
    let i := immIndex f.ob
    roundedOut s c f [a] fun u l =>
      let r := convertElem st f.typ f.rnd f.sat u (elemAt (elemBits st) (a.lane l).toNat i)
      (BitVec.ofNat 32 (r.1 % 2 ^ elemBits f.typ), r.2)

/-- The source type of a CVTPK (R374). -/
def packSource (t : Typ) : Typ :=
  match t with
  | .s16x2 | .s8x4 => .s32
  | .u16x2 | .u8x4 => .u32
  | _ => .f32

/-- CVTPK: elements 2q and 2q + 1 of OD from OA and OB, the others kept (R374). -/
def execCvtpk (f : Fields) (s : State) : Out :=
  withMe s fun c =>
    let a := s.src c f f.oa
    let b := s.src c f f.ob
    let d := c.reg (opndIndex f.od)
    let st := packSource f.typ
    let q := f.sub.toNat
    roundedOut s c f [d, a, b] fun u l =>
      let x := convertElem st f.typ f.rnd f.sat (drawOf u 0) (a.lane l).toNat
      let y := convertElem st f.typ f.rnd f.sat (drawOf u 1) (b.lane l).toNat
      let es := ((elemsOf f.typ (d.lane l)).set (2 * q) x.1).set (2 * q + 1) y.1
      (packElems (elemBits f.typ) es, x.2 ||| y.2)

end Sys2Proof.Machine
end

