-- ==== Sys2Proof/Machine/Jobs.lean ====
section
/-!
DEFINITION. Machine/Jobs.lean: engine jobs as they run (R121, R137 to R140, R158, R169 to R178, R195, R229, R296, R297):
LINE_LANDS moves the elements of one line, JOB_RESUME continues a paused job, and JOB_COMPLETE counts a finished one.
-/

namespace Sys2Proof.Machine

/-! ### When a job may move -/

/-- Whether a job must wait for an earlier command of its workgroup, or for stores that its core still combines (R137,
R139). -/
def State.jobBlocked (s : State) (j : Job) : Bool :=
  (s.jobs.any fun i => i.wg == j.wg && i.id < j.id && i.unfinished && edgeBetween i.reads i.writes j.reads j.writes) ||
  ((s.core j.core).mmaQ.any fun m => m.wg == j.wg && m.seq < j.id && edgeBetween m.reads [.bank m.bank] j.reads j.writes) ||
  ((s.core j.core).wc.any fun w => j.pre.contains w.line)

/-- The job of an Indigo twin that pairs with a job (R296, R297). -/
def State.twinJob (s : State) (j : Job) : Option Job :=
  j.mate.bind fun t => s.jobs.find? fun i => i.cid == t && i.seqNo == j.seqNo

/-! ### Failures of a running job (R121, R195) -/

/-- The detail of a group 11 cause raised while a job runs: the element or row reached, and the reason (R234). -/
def jobDetail (j : Job) (reason : Nat) : BitVec 96 :=
  let i := if j.kind = .epiRec then j.next / 32 else j.next
  BitVec.ofNat 96 (i % 2 ^ 32 + reason * 2 ^ 64)

/-- A running job cannot reach an element: it pauses on a page with P = 0, or stops its context (R121, R195). -/
def State.jobFail (s : State) (j : Job) (f : VaFail) : State :=
  let s1 := s.setJob j
  match f with
  | .nonres va =>
    match s.pageReq? j.ctx none va with
    | some r =>
      if r.status = 2 then (s1.dropReq j.ctx none va).jobCause j.cid j.ctx 11 (jobDetail j 2) j.pc
      else s1.setJob { j with status := 1, pausedAt := s.pageBase j.ctx va }
    | none => (s1.askPage j.ctx none va).setJob { j with status := 1, pausedAt := s.pageBase j.ctx va }
  | .fault _ _ _ => s1.jobCause j.cid j.ctx 11 (jobDetail j 1) j.pc
  | .poisoned a => s1.jobCause j.cid j.ctx 13 (hwDetail (s.unitOfKey a).1 2 (s.unitOfKey a).2) j.pc
  | .data a => s1.jobCause j.cid j.ctx 13 (hwDetail (s.unitOfKey a).1 5 (s.unitOfKey a).2) j.pc

/-- One step of a job: the state and the job after it, or the state in which it stands still. -/
abbrev JobStep := Except State (State × Job)

/-! ### Elements (R169, R170, R147) -/

/-- The key of an element: in the tile window the record's interleave applies (R169, R147). -/
def recKey (t : TRecord) (key : Nat) (tile : Bool) : Nat :=
  if tile then
    let n := key % 2 ^ 20 / 128
    key - key % 128 + ilvByte t.ilv n (key % 128)
  else key

/-- An element's translation by its job's die (R117). -/
def State.elemXlat (s : State) (x : Ctx) (j : Job) (acc : Acc) (va : Nat) : Except VaFail Xlat :=
  match s.xlat (.die (dieOf j.core)) j.core x acc (BitVec.ofNat 64 va) with
  | .nonres _ => .error (.nonres va)
  | .fault g r => .error (.fault g r va)
  | .poisoned a => .error (.poisoned a)
  | r => .ok r

/-- What that translation touches (R114, R115). -/
def State.elemTouch (s : State) (x : Ctx) (j : Job) (acc : Acc) (va : Nat) : State :=
  s.touch (.die (dieOf j.core)) x (BitVec.ofNat 64 va) (s.xlat (.die (dieOf j.core)) j.core x acc (BitVec.ofNat 64 va))

/-- `n` bytes read by an engine at a virtual address, fresh (R127). -/
def State.engineRead (s : State) (x : Ctx) (j : Job) (t : TRecord) (va n : Nat) : JobStep ⊕ (Nat × State) :=
  let st := s.elemTouch x j .load va
  match s.elemXlat x j .load va with
  | .error f => .inl (.error (st.jobFail j f))
  | .ok r =>
    let tile := (tileLine? j.core r).isSome
    let key := recKey t r.key tile
    if tile && !(s.core j.core).full.contains ((key - tileKey j.core 0) / 128) then .inl (.error (s.setJob j))
    else if inRegs key then .inr (s.hostRead (regOff key) n, st)
    else if st.poisoned key n then .inl (.error (st.jobFail j (.data key)))
    else .inr (memNat st.mem key n, st.noteLine key r.mt j.pol)

/-- An element read through the record, filled or clamped out of range (R170). -/
def State.readElem (s : State) (x : Ctx) (j : Job) (t : TRecord) (xs : List Int) : JobStep ⊕ (Nat × State) :=
  if t.inRange xs = false ∧ t.fill ≠ 3 then .inr (t.fillBits, s)
  else
    let ys := if t.inRange xs then xs else t.clamp xs
    let bits := recBits t.typ
    match s.engineRead x j t (t.addr ys) ((bits + 7) / 8) with
    | .inl e => .inl e
    | .inr (v, s1) => .inr (if bits = 4 then v / 16 ^ (ys.getD 0 0 % 2).toNat % 16 else v, s1)

/-- A byte with one nibble replaced. -/
def putNibble (old v hi : Nat) : Nat := if hi = 0 then old / 16 * 16 + v % 16 else old % 16 + v % 16 * 16

/-- An engine's write of an element and the beat before it as one beat, where it follows on and they stay within 32 bytes (R297). -/
def Beat.join (p b : Beat) : Option Beat :=
  if p.kind = 0 ∧ b.kind = 0 ∧ p.va.toNat + p.size = b.va.toNat ∧ p.size + b.size ≤ 32 then
    some { p with size := p.size + b.size, data := p.data ||| (b.data <<< (8 * p.size)) }
  else
    let nibs := p.nib + p.nibs
    if p.kind = 1024 ∧ b.kind = 1024 ∧ 2 * p.va.toNat + nibs = 2 * b.va.toNat + b.nib ∧ nibs + b.nibs ≤ 64 then
      some { p with size := (nibs + b.nibs + 1) / 2, nibs := p.nibs + b.nibs, data := p.data ||| (b.data >>> (4 * b.nib) <<< (4 * nibs)) }
    else none

/-- An engine's write joins its stream: the last beat takes it while it can, and a window closes with the 256th beat at its end (R297). -/
def addEngineBeat (ws : List StoreWindow) (done : Nat) (b : Beat) : List StoreWindow :=
  match ws.getLast? with
  | some w =>
    match w.closed, w.beats.getLast? with
    | false, some p =>
      match p.join b with
      | some q => ws.dropLast ++ [{ w with beats := w.beats.dropLast ++ [q], closed := 256 ≤ w.beats.length && q.size == 32 }]
      | none =>
        if 256 ≤ w.beats.length then ws.dropLast ++ [{ w with closed := true }, { num := w.num + 1, closed := false, beats := [b] }]
        else ws.dropLast ++ [{ w with beats := w.beats ++ [b] }]
    | _, _ => addBeat ws done b
  | none => addBeat ws done b

/-- An element written through the record, skipped out of range (R170). In an Indigo pair a write to memory is a beat (R297). A word that an
atomic holds is waited for (R142). -/
def State.writeElem (s : State) (x : Ctx) (j : Job) (t : TRecord) (xs : List Int) (v : Nat) : JobStep :=
  if t.inRange xs = false then .ok (s, j)
  else
    let bits := recBits t.typ
    let n := (bits + 7) / 8
    let va := t.addr xs
    let hi := (xs.getD 0 0 % 2).toNat
    let st := s.elemTouch x j .store va
    match s.elemXlat x j .store va with
    | .error f => .error (st.jobFail j f)
    | .ok r =>
      let tile := (tileLine? j.core r).isSome
      let key := recKey t r.key tile
      let s1 := (st.noteLine key r.mt j.pol).dirty r
      if j.role ≠ .single ∧ tile = false then
        let b : Beat := { va := BitVec.ofNat 64 va, size := n, data := BitVec.ofNat 256 v, kind := 0, scope := j.scope, pol := j.pol, rel := true }
        let b' : Beat := if bits = 4 then { b with kind := 1024, nib := hi, nibs := 1, data := BitVec.ofNat 256 (v % 16 * 16 ^ hi) } else b
        .ok (st, { j with windows := addEngineBeat j.windows j.winDone b' })
      else if s.wordHeld key n then .error (s.setJob j)
      else if inRegs key then .ok (s1.hostWrite none (regOff key) n v, j)
      else .ok (s1.storeNat key n (if bits = 4 then putNibble (memNat s1.mem key 1) v hi else v), j)

/-! ### COPY.ld and GATHER: memory to tile memory (R172, R173) -/

/-- An element's bits put on the tile side (R171). -/
def State.putTileElem (s : State) (core line0 ilv bit bits v : Nat) : State :=
  if bits = 4 then
    s.putTileByte core line0 ilv (bit / 8) (BitVec.ofNat 8 (putNibble (s.tileByte core line0 ilv (bit / 8)).toNat v (bit / 4 % 2)))
  else
    (List.range (bits / 8)).foldl (fun u i => u.putTileByte core line0 ilv (bit / 8 + i) (BitVec.ofNat 8 (v / 256 ^ i))) s

/-- The row index of an element of GATHER or SCATTER, read from the index list when its row begins (R173). A secondary's job takes what
lies outside its tile window from its primary's (R296). -/
def State.rowIndex (s : State) (x : Ctx) (j : Job) (t : TRecord) (q : Nat) : JobStep :=
  if (j.kind ≠ .gather ∧ j.kind ≠ .scatter) ∨ q < j.indexes.length then .ok (s, j)
  else if j.role = .secondary ∧ inWindow x.twe x.tw (2 ^ 20) (j.idxVa + 4 * q) = false then
    match (s.twinJob j).bind fun i => i.indexes[q]? with
    | some v => .ok (s, { j with indexes := j.indexes ++ [v] })
    | none => .error (s.setJob j)
  else match s.engineRead x j { t with ilv := 0 } (j.idxVa + 4 * q) 4 with
    | .inl e => e
    | .inr (v, s1) => .ok (s1, { j with indexes := j.indexes ++ [signedOf 32 v] })

/-- The coordinates of an element of a job (R169, R173). -/
def Job.coordsAt (j : Job) (t : TRecord) (n : Nat) : List Int :=
  let b := max 1 (t.boxes.getD 0 1)
  if j.kind = .gather ∨ j.kind = .scatter then
    (j.coords.set 0 (j.coords.getD 0 0 + (n % b : Nat))).set 1 (j.indexes.getD (n / b) 0)
  else t.boxCoords j.coords (n % b) (n / b)

/-- The coordinates of an element of any job that writes through a record: an EPI.rec writes 32 columns of each row (R380). -/
def Job.elemAt (j : Job) (t : TRecord) (n : Nat) : List Int :=
  if j.kind = .epiRec then (j.coords.set 0 (j.coords.getD 0 0 + (n % 32 : Nat))).set 1 (j.coords.getD 1 0 + (n / 32 : Nat))
  else j.coordsAt t n

/-- Element `n` of a COPY.st or EPI.rec has landed: a line of the tile window is full once no later element falls on it (R109). -/
def State.landElem (s : State) (x : Ctx) (j : Job) (t : TRecord) (n : Nat) : State :=
  if j.kind ≠ .copySt ∧ j.kind ≠ .epiRec then s
  else match t.windowLine x (j.elemAt t n) with
    | none => s
    | some line =>
      if (List.range (j.total - n - 1)).any fun k => t.windowLine x (j.elemAt t (n + 1 + k)) == some line then s
      else s.setCore ((s.core j.core).setFull [line])

/-- The bit on the tile side of an element of a job. -/
def Job.bitAt (t : TRecord) (n : Nat) : Nat :=
  let b := max 1 (t.boxes.getD 0 1)
  t.tileBit (n % b) (n / b)

/-- What the twin's job gets of an element that a primary's has read as `v`: the same, or what its own tile window holds where the element, or
the index of its row, lies there (R296). -/
def twinElem (x : Ctx) (t : TRecord) (j i : Job) (v : Nat) (s : State) : Except State (Nat × State × Job) :=
  let q := j.next / max 1 (t.boxes.getD 0 1)
  let i1 := { i with next := j.next }
  match (if (j.kind == .gather) && inWindow x.twe x.tw (2 ^ 20) (i.idxVa + 4 * q) then s.rowIndex x i1 t q
      else .ok (s, { i1 with indexes := j.indexes }) : JobStep) with
  | .error e => .error e
  | .ok (s1, i2) =>
    let xs := i2.coordsAt t i2.next
    if inWindow x.twe x.tw (2 ^ 20) (t.addr (if t.inRange xs then xs else t.clamp xs)) then
      match s1.readElem x i2 t xs with
      | .inl (.error e) => .error e
      | .inl (.ok r) => .error r.1
      | .inr (w, s2) => .ok (w, s2, i2)
    else .ok (v, s1, i2)

/-- An element lands in a load job's window; the line is zeroed before its first element (R171). -/
def State.landBits (s : State) (t : TRecord) (j : Job) (line v : Nat) : State :=
  let first := j.next = 0 ∨ Job.bitAt t (j.next - 1) / 1024 ≠ line
  let z := if first then s.store (tileKey j.core (128 * (j.line0 + line))) (List.replicate 128 0) else s
  z.putTileElem j.core j.line0 j.ilv (Job.bitAt t j.next) (recBits t.typ) v

/-- The elements of one tile line land, in traversal order, in an Indigo pair on both sides (R171, R296). -/
def loadElems (x : Ctx) (t : TRecord) (line : Nat) : Nat → State → Job → Option Job → Except State (State × Job × Option Job)
  | 0, s, j, tw => .ok (s, j, tw)
  | fuel + 1, s, j, tw =>
    let keep (u : State) : State := match tw with
      | some i => u.setJob i
      | none => u
    if j.total ≤ j.next ∨ Job.bitAt t j.next / 1024 ≠ line then .ok (s, j, tw)
    else match s.rowIndex x j t (j.next / max 1 (t.boxes.getD 0 1)) with
      | .error e => .error (keep e)
      | .ok (s1, j1) =>
        match s1.readElem x j1 t (j1.coordsAt t j1.next) with
        | .inl (.error e) => .error (keep e)
        | .inl (.ok r) => .error (keep r.1)
        | .inr (v, s2) =>
          let on (j : Job) : Job := { j with next := j.next + 1 }
          match tw with
          | none => loadElems x t line fuel (s2.landBits t j1 line v) (on j1) none
          | some i =>
            match twinElem x t j1 i v s2 with
            | .error e => .error (e.setJob j)
            | .ok (w, s3, i1) => loadElems x t line fuel ((s3.landBits t j1 line v).landBits t i1 line w) (on j1) (some (on i1))

/-- A job's tile memory accesses are done: its scoreboard entry is freed (R111). -/
def State.freeBoard (s : State) (core id : Nat) : State :=
  let k := s.core core
  s.setCore { k with board := k.board.filter fun e => e.job != id }

/-- A job has performed all its accesses. -/
def State.jobDone (s : State) (j : Job) : State :=
  (s.freeBoard j.core j.id).setJob { j with status := 3, windows := closeWindows j.windows }

/-- One line of a COPY.ld or GATHER. -/
def State.loadLine (s : State) (x : Ctx) (j : Job) (t : TRecord) : State :=
  let twin := if j.role = .primary then s.twinJob j else none
  if j.role = .secondary ∨ (j.role = .primary ∧ twin = none) ∨ (twin.any fun i => s.jobBlocked i) then s
  else
    let line := Job.bitAt t j.next / 1024
    match loadElems x t line (j.total + 1 - j.next) s j twin with
    | .error e => e
    | .ok (s1, j1, tw) =>
      let full (u : State) (i : Job) : State :=
        let u1 := u.setCore ((u.core i.core).setFull [i.line0 + line])
        if i.total ≤ i.next then u1.jobDone i else u1.setJob i
      match tw with
      | some i => full (full s1 j1) i
      | none => full s1 j1

/-! ### COPY.st and SCATTER: tile memory to memory (R172, R173) -/

/-- The elements of one tile line are written through the record, in traversal order. -/
def storeElems (x : Ctx) (t : TRecord) (line : Nat) : Nat → State → Job → JobStep
  | 0, s, j => .ok (s, j)
  | fuel + 1, s, j =>
    let bit := Job.bitAt t j.next
    if j.total ≤ j.next ∨ bit / 1024 ≠ line then .ok (s, j)
    else match s.rowIndex x j t (j.next / max 1 (t.boxes.getD 0 1)) with
      | .error e => .error e
      | .ok (s1, j1) =>
        let v := s1.tileBits j1.core j1.line0 j1.ilv bit (recBits t.typ)
        match s1.writeElem x j1 t (j1.coordsAt t j1.next) v with
        | .error e => .error e
        | .ok (s2, j2) => storeElems x t line fuel (s2.landElem x j2 t j2.next) { j2 with next := j2.next + 1 }

/-- One line of a COPY.st or SCATTER: the engine reads it when it is full (R172). -/
def State.storeLine (s : State) (x : Ctx) (j : Job) (t : TRecord) : State :=
  let line := Job.bitAt t j.next / 1024
  if s.linesFull j.core [j.line0 + line] = false then s
  else if s.lineBad j.core (j.line0 + line) then s.jobFail j (.data (tileKey j.core (128 * (j.line0 + line))))
  else match storeElems x t line (j.total + 1 - j.next) s j with
    | .error e => e
    | .ok (s1, j1) => if j1.total ≤ j1.next then s1.jobDone j1 else s1.setJob j1

/-! ### EPI (R94, R158, R159, R380) -/

/-- y[j] of a row: the bank's value scaled, with the bias fused in, rounded once to F32 (R158). -/
def epiValue (b : Word) (alpha : Word) (bias : Option Word) : Word :=
  let x := fpVal f32 b.toNat
  let a := fpVal f32 alpha.toNat
  let v := match bias with
    | some z => (fpFma .rne [(x, a)] (fpVal f32 z.toNat)).1
    | none => (fpMul x a).1
  BitVec.ofNat 32 (roundArith f32 .rne 0 v).1

/-- A row's output: the scale code, the element bits and whether SAT is recorded (R158, R94, R95). DESIGN CHOICE: a clamp of a form without MX
(R77, R78) records it too (log entry 91). -/
def epiRow (e : EpiOps) (bank : Bank) (bias : Option (List Word)) (i : Nat) : Nat × List Nat × Bool :=
  let ys := (List.range 32).map fun k => epiValue (bank.val i k) (e.alpha.getD i 0) (bias.map fun b => b.getD k 0)
  if isMx e.typ then mxQuantise e.typ e.rnd ys
  else
    let rs := ys.map fun y => if e.typ = .f32 then (y.toNat, (0 : BitVec 6)) else convertElem .f32 e.typ e.rnd e.sat 0 y.toNat
    (0, rs.map (·.1), rs.any fun r => r.2.getLsbD 0)

/-- The bias values of an EPI, read from its line (R158). -/
def State.epiBias (s : State) (j : Job) (e : EpiOps) : Option (List Word) :=
  e.bias.map fun n => (List.range 32).map fun k => BitVec.ofNat 32 (s.tileBits j.core n e.biasIlv (32 * k) 32)

/-- The rows of one output line are written to tile memory with their scale codes (R159). -/
def State.epiTileRows (s : State) (j : Job) (e : EpiOps) (bank : Bank) (bias : Option (List Word)) : State × Job :=
  let w := elemBits e.typ
  let k := epiLineRows e.typ
  (List.range k).foldl (fun (p : State × Job) _ =>
    let i := p.2.next
    if e.rows ≤ i then p
    else
      let r := epiRow e bank bias i
      let s1 := (List.range (epiRowBytes e.typ)).foldl (fun u b =>
        let bits := if w = 4 then r.2.1.getD (2 * b) 0 % 16 + r.2.1.getD (2 * b + 1) 0 % 16 * 16
          else r.2.1.getD (8 * b / w) 0 / 256 ^ (b % (w / 8))
        u.putTileByte j.core j.line0 j.ilv (i * epiRowBytes e.typ + b) (BitVec.ofNat 8 bits)) p.1
      let s2 := if j.soff = 0 then s1 else
        let z := if i = 0 then s1.store (tileKey j.core (128 * (j.line0 + j.soff))) (List.replicate 128 0) else s1
        z.putTileByte j.core (j.line0 + j.soff) j.ilv i (BitVec.ofNat 8 r.1)
      (s2, { p.2 with next := i + 1, satSeen := p.2.satSeen || r.2.2 })) (s, j)

/-- The elements of one row of an EPI.rec from where it stands (R380). -/
def epiRecElems (x : Ctx) (t : TRecord) (e : EpiOps) (row : Nat × List Nat × Bool) : Nat → State → Job → JobStep
  | 0, s, j => .ok (s, j)
  | fuel + 1, s, j =>
    let k := j.next % 32
    match s.writeElem x j t (j.elemAt t j.next) (row.2.1.getD k 0) with
    | .error e => .error e
    | .ok (s0, j1) =>
      let s1 := s0.landElem x j1 t j1.next
      let j2 := { j1 with next := j1.next + 1, satSeen := j1.satSeen || row.2.2 }
      if k = 31 then .ok (s1, j2) else epiRecElems x t e row fuel s1 j2

/-- The end of an EPI: `.z` sets its bank to +0 (R158). -/
def State.epiEnd (s : State) (j : Job) (e : EpiOps) : State :=
  let k := s.core j.core
  let s1 := if e.zero then s.setCore { k with banks := k.banks.mapIdx fun b v => if b = e.bank then { v with vals := [] } else v } else s
  s1.jobDone j

/-- One line of an EPI: the rows of a tile line, or one row through a record. It waits for the bias line (R172). -/
def State.epiLine (s : State) (x : Ctx) (j : Job) (e : EpiOps) : State :=
  let biasLines := e.bias.toList
  let bank := ((s.core j.core).banks[e.bank]?).getD { owner := none, freed := false, vals := [] }
  if s.linesFull j.core biasLines = false then s
  else match biasLines.find? (s.lineBad j.core) with
    | some n => s.jobFail j (.data (tileKey j.core (128 * n)))
    | none =>
      let bias := s.epiBias j e
      match j.trec with
      | some t =>
        match epiRecElems x t e (epiRow e bank bias (j.next / 32)) 32 s j with
        | .error u => u
        | .ok (s1, j1) => if j1.total ≤ j1.next then s1.epiEnd j1 e else s1.setJob j1
      | none =>
        let line := j.line0 + j.next / epiLineRows e.typ
        let r := s.epiTileRows j e bank bias
        let last := r.2.total ≤ r.2.next
        let lines := line :: if last ∧ j.soff ≠ 0 then [j.line0 + j.soff] else []
        let s1 := r.1.setCore ((r.1.core j.core).setFull lines)
        if last then s1.epiEnd r.2 e else s1.setJob r.2

/-! ### RCOPY (R175 to R178) -/

/-- Whether a line lies in the tile region of a workgroup resident on a core; every registered context is of the job
(R176). -/
def State.servesLine (s : State) (core line : Nat) : Bool :=
  s.wgs.any fun w => w.core == core && w.block * 64 ≤ line && line < (w.block + w.blocks) * 64

/-- A line lands in an RCOPY's window as it was stored at its source, and becomes full (R109, R175). -/
def State.landOne (s : State) (j : Job) (i : Nat) (data : List Byte) : State :=
  let n := j.line0 + i
  let s1 := s.store (tileKey j.core (128 * n)) data
  let s2 := s1.setCore ((s1.core j.core).setFull [n])
  let j1 := { j with landed := i :: j.landed, next := j.next + 1 }
  if j1.total ≤ j1.landed.length then s2.jobDone j1 else s2.setJob j1

/-- A line lands in an RCOPY's window, and in that of its Indigo twin (R296). -/
def State.landLine (s : State) (j : Job) (i : Nat) (data : List Byte) : State :=
  let s1 := s.landOne j i data
  match if j.role = .primary then s.twinJob j else none with
  | some t => s1.landOne t i data
  | none => s1

/-- One step of an RCOPY: from this package a full line lands; from another, a pull goes out for each line without one
(R175, R176). A secondary's lines are its primary's (R296). -/
def State.rcopyLine (s : State) (j : Job) : State :=
  let todo := (List.range j.total).filter fun i => !j.landed.contains i
  if j.role = .secondary then s
  else if j.srcRank = s.pkgRank.toNat then
    match todo.find? fun i => !s.servesLine j.srcCore (j.srcLine + i) with
    | some i => s.jobCause j.cid j.ctx 11 (BitVec.ofNat 96 (i + 7 * 2 ^ 64)) j.pc
    | none =>
      match todo.find? fun i => s.linesFull j.srcCore [j.srcLine + i] with
      | none => s
      | some i =>
        if s.lineBad j.srcCore (j.srcLine + i) then s.jobFail j (.data (tileKey j.srcCore (128 * (j.srcLine + i))))
        else s.landLine j i (memBytes s.mem (tileKey j.srcCore (128 * (j.srcLine + i))) 128)
  else
    match s.adopted.bind fun t => t.entries[j.srcRank]? with
    | none => s
    | some e =>
      let die := dieOf j.core
      -- a pull from a rank that is filling or vacant waits (R262)
      if e.state ≠ 0 then s else
      (todo.filter fun i => !(s.pulls.any fun p => p.job == j.id && p.line == i)).foldl (fun u i =>
        let (tx, v) := u.takeTxid die
        let p : Pull := { txid := ⟨die, tx⟩, job := j.id, line := i, rank := j.srcRank, sent := u.cycle die }
        ({ v with pulls := v.pulls ++ [p] }).send die
          (v.packetTo die e.faddr (j.srcCore / 96) tx (.pullReq j.srcCore (j.srcLine + i)))) s

/-! ### Copy lists of a bundle (R209) -/

/-- A unit of 128 bytes of a copy list: the next entry is read when it begins; `indexes` holds its source, destination and
length. -/
def State.copyListStep (s : State) (x : Ctx) (j : Job) : State :=
  let unit (s : State) (j : Job) (src dst len : Nat) : State :=
    match s.vaRead .front 0 x (src + j.off) 128 with
    | .error f => s.jobFail j f
    | .ok (bs, s1) =>
      if s1.vaTaken .front x (dst + j.off) 128 then s
      else match s1.vaWrite .front 0 x (dst + j.off) bs with
      | .error f => s.jobFail j f
      | .ok s2 =>
        let off := j.off + 128
        if off < len then s2.setJob { j with off := off }
        else
          let j1 := { j with off := 0, indexes := [], next := j.next + 1 }
          if j1.total ≤ j1.next then s2.jobDone j1 else s2.setJob j1
  match j.indexes with
  | [a, b, n] => unit s j a.toNat b.toNat n.toNat
  | _ =>
    match s.vaRead .front 0 x (j.idxVa + 32 * j.next) 32 with
    | .error f => s.jobFail j f
    | .ok (bs, s1) =>
      let n := recWord bs 2
      let j1 := { j with indexes := [(recWord bs 0 : Nat), (recWord bs 1 : Nat), (n : Nat)] }
      if n = 0 then
        let j2 := { j with next := j.next + 1 }
        if j2.total ≤ j2.next then s1.jobDone j2 else s1.setJob j2
      else unit s1 j1 (recWord bs 0) (recWord bs 1) n

/-! ### The walk ahead (R117) -/

/-- The first page of each element from the `n`-th on, in traversal order, at most 64 of them; rows whose index is not read yet are not
known. `pages` are those found, latest first. -/
def aheadPages (s : State) (j : Job) (t : TRecord) : Nat → Nat → List Nat → List Nat
  | 0, _, pages => pages
  | fuel + 1, n, pages =>
    let rows := j.kind == .gather || j.kind == .scatter
    if j.total ≤ n ∨ 64 ≤ pages.length ∨ (rows ∧ j.indexes.length ≤ n / max 1 (t.boxes.getD 0 1)) then pages
    else
      let xs := j.elemAt t n
      let va := s.pageBase j.ctx (t.addr xs)
      aheadPages s j t fuel (n + 1) (if t.inRange xs && !pages.contains va then va :: pages else pages)

/-- The walk-ahead TLB of a job's die follows its traversal. A walk that finds no page with P = 1 records nothing, and AF and DF stay
(R114, R117). -/
def State.walkAhead (s : State) (x : Ctx) (id : Nat) : State :=
  match s.job? id with
  | none => s
  | some j =>
    match j.status, j.trec with
    | 0, some t =>
      let d := dieOf j.core
      (aheadPages s j t (j.total - j.next) j.next []).reverse.foldl (fun u va =>
        if inWindow x.twe x.tw (2 ^ 20) va || inWindow x.vwe x.vw (2 ^ 35) va then u
        else match u.walk (.die d) x va with
          | .leaf e true => u.keepTranslation (.die d) x va e
          | _ => u) s
    | _, _ => s

/-! ### The events -/

/-- Whether a job is a core's copy interface's: COPY, GATHER, SCATTER or RCOPY (R293). -/
def Job.copies (j : Job) : Bool := j.trec.isSome || j.kind == .rcopy

/-- What stops a line of a job before it moves: an operation of its unit whose replay mismatches too, or an error of the bank it reads
(R162, R293, R302). -/
def State.lineFails (s : State) (j : Job) : Option State :=
  let unit (k : Nat) : Option State := if s.replayBad k j.core then some (s.engineReplay k j.core j.ctx j.cid j.pc) else none
  match j.epi with
  | some e =>
    if s.upsets.contains (.bank j.core e.bank) then some (s.jobCause j.cid j.ctx 13 (hwDetail (0xE000 + 3) 5 j.core) j.pc) else unit 3
  | none => if j.copies then unit 4 else none

/-- A line that moves uses its engine's adders: a mismatch whose replay checks correctly is counted (R293, R299). -/
def State.lineReplayed (s : State) (j : Job) : State :=
  if j.epi.isSome then s.replayed (BitVec.ofNat 16 (3 * 8192 + j.core)) (dieOf j.core)
  else if j.copies then s.replayed (BitVec.ofNat 16 (4 * 8192 + j.core)) (dieOf j.core) else s

/-- LINE_LANDS: a running job of a context that is not halted moves one line, once no earlier command holds it (R139,
R229). -/
def execLineLands (job : Nat) (s : State) : Out :=
  match s.job? job with
  | none => .next s
  | some j =>
    if s.halted j.ctx || j.status != 0 || s.jobBlocked j then .next s
    else match s.ctx? j.ctx with
      | none => .next s
      | some x =>
        match if s.upsets = [] then none else s.lineFails j with
        | some t => .next t
        | none =>
        let s := s.lineReplayed j
        match j.kind, j.trec, j.epi with
        | .rcopy, _, _ => .next (s.rcopyLine j)
        | .copyList, _, _ => .next (s.copyListStep x j)
        | .collStep, _, _ => .next s
        | .copyLd, some t, _ | .gather, some t, _ => .next ((s.loadLine x j t).walkAhead x job)
        | .copySt, some t, _ | .scatter, some t, _ => .next ((s.storeLine x j t).walkAhead x job)
        | _, _, some e => .next ((s.epiLine x j e).walkAhead x job)
        | _, _, _ => .next s

/-- JOB_RESUME: the page of a paused job has been decided: the job continues at its element, or stops its context when the
page cannot be made resident (R121, R195). -/
def execJobResume (job : Nat) (s : State) : Out :=
  match s.job? job with
  | none => .next s
  | some j =>
    if j.status ≠ 1 ∨ s.halted j.ctx then .next s
    else
      let go := { j with status := 0 }
      match s.pageReq? j.ctx none j.pausedAt with
      | none => .next (s.setJob go)
      | some r =>
        if r.status = 0 then .next s
        else
          let s1 := (s.dropReq j.ctx none j.pausedAt).setJob go
          if r.status = 1 then .next s1 else .next (s1.jobCause j.cid j.ctx 11 (jobDetail j 2) j.pc)

/-- The counter that a split handle names, where its page lies now (R116, R216, R375). `pa` is where it lay at the issue. -/
def State.counterNow (s : State) (k : BitVec 16) (pa : Nat) (va : DWord) : DWord :=
  let home := (s.ctx? k).bind fun x => (s.pageHome x (va.toNat / 8192 * 8192)).map (· + va.toNat % 8192)
  let key := if 2 ^ 52 ≤ pa then pa else home.getD pa
  BitVec.ofNat 64 (if inRegs key then s.hostRead (regOff key) 8 else memNat s.mem key 8)

/-- Counters of split handles are read again; a handle whose counter has reached its value completes in this cycle (R216, R375). -/
def State.pollCounters (s : State) : State :=
  { s with waitTable := s.waitTable.map fun e =>
      match e.op, e.done with
      | .counter pa va v _, none =>
        let now := s.counterNow e.ctx pa va
        if now.toNat < v.toNat then e else { e with done := some (counterValue now, s.cycle e.die) }
      | _, _ => e }

/-- A counter is increased by one, with bit 63 set on an abort, in one operation; its leaf gets DF (R114, R140, R179). -/
def State.countAt (s : State) (key : Nat) (leaf : Option Nat) (abort : Bool) : State :=
  let old := BitVec.ofNat 64 (memNat s.mem key 8)
  let v := (if abort then old ||| 0x8000000000000000 else old) + 1
  let s1 := match leaf with
    | some l => s.setLeaf l 0x40
    | none => s
  ((s1.noteLine key 0 0).storeNat key 8 v.toNat).pollCounters

/-- Where an engine writes for a job or a collective when it ends: as the address was translated at acceptance, or, since a stop has ended
that translation (R362), as its die translates it now; otherwise the state after the page is asked for, or after the cause that it raises
(DEDUCED, log entry 96). `cause` is what a refused access raises. -/
def State.endPlace (s : State) (j : Job) (held : Bool) (va : DWord) (key : Nat) (leaf : Option Nat) (cause : Nat) :
    Except State (State × Nat × Option Nat) :=
  match held, s.ctx? j.ctx with
  | true, _ => .ok (s, key, leaf)
  | false, none => .error s
  | false, some x =>
    let p : XPort := .die (dieOf j.core)
    let r := s.xlat p j.core x .store va
    let st := s.touch p x va r
    let refuse (n : Nat) : Except State (State × Nat × Option Nat) := .error (st.jobCause j.cid j.ctx 11 (jobDetail j n) j.pc)
    match r with
    | .ok k mt e _ => if mt ≠ 0 then refuse cause else .ok (st, k, e.map (·.leaf))
    | .nonres mt =>
      if mt ≠ 0 then refuse cause
      else match s.pageReq? j.ctx none va.toNat with
        | some q => if q.status = 2 then .error ((st.dropReq j.ctx none va.toNat).jobCause j.cid j.ctx 11 (jobDetail j 2) j.pc) else .error st
        | none => .error (st.askPage j.ctx none va.toNat)
    | .fault _ _ => refuse cause
    | .poisoned a => .error (st.jobCause j.cid j.ctx 13 (hwDetail (s.unitOfKey a).1 2 (s.unitOfKey a).2) j.pc)

/-- Where a job's counter lies when it ends (R174). -/
def State.counterPlace (s : State) (j : Job) : Except State (State × Nat × Option Nat) := s.endPlace j j.held j.ctrVa j.ctrPa j.ctrLeaf 5

/-- A job that is aborted counts too, with bit 63 (R179). -/
def State.abortJob (s : State) (j : Job) : State :=
  match s.counterPlace j with
  | .ok (t, key, leaf) => t.countAt key leaf true
  | .error _ => s

/-- SAT recorded by an EPI reaches $VSTAT of its cohort, resident or saved, before its completion is signalled (R95, R163). -/
def State.giveSat (s : State) (j : Job) : State :=
  let put (c : Cohort) : Cohort := if c.cid = j.cid then { c with vstat := setFlags c.vstat flagSAT } else c
  if j.satSeen then
    { s with cohorts := s.cohorts.map put, saved := s.saved.map fun (v : SavedWg) => { v with cohorts := v.cohorts.map put } }
  else s

/-- A job that has performed every access ends: its counter goes up once (R140). An Indigo job ends with its twin, and the
primary's counts (R296). -/
def execJobComplete (job : Nat) (s : State) : Out :=
  match s.job? job with
  | none => .next s
  | some j =>
    if j.status ≠ 3 ∨ s.halted j.ctx ∨ j.windows ≠ [] ∨ j.role = .secondary then .next s
    else if j.kind = .copyList ∨ j.kind = .collStep then .next { s with jobs := s.jobs.filter fun i => i.id != job }
    else
      let twin := if j.role = .primary then s.twinJob j else none
      if j.role = .primary ∧ (twin.all fun i => i.status != 3 || i.windows != []) then .next s
      else match s.counterPlace j with
      | .error t => .next t
      | .ok (t, key, leaf) =>
        if s.wordHeld key 8 then .next s
        else if t.poisoned key 8 then .next (t.jobFail j (.data key))
        else
        let s1 := t.giveSat j
        let s2 := match twin with
          | some i => s1.giveSat i
          | none => s1
        let gone := job :: (twin.map (·.id)).toList
        .next ({ s2 with jobs := s2.jobs.filter fun i => !gone.contains i.id }.countAt key leaf false)

end Sys2Proof.Machine
end

