-- ==== Sys2Proof/Machine/Beats.lean ====
section
/-!
DEFINITION. Machine/Beats.lean: the beats of an Indigo pair's store windows as they are performed (R297, R125, R142).
-/

namespace Sys2Proof.Machine

/-- A write by a cohort drops the line from its core's L1; an engine's, which its die translates, drops none (R105, R117). -/
def XPort.drop (p : XPort) (s : State) (r : Xlat) : State :=
  match p, r with
  | .core k, .ok key _ _ false => s.l1Drop k (key / 128)
  | _, _ => s

/-- Some bytes of a beat are performed at one page. -/
def writePiece (p : XPort) (x : Ctx) (core : Nat) (owner : Nat × Nat) (b : Beat) (s : State) (va : DWord) (n v : Nat) : State :=
  let r := s.xlat p core x .store va
  (p.drop s r).storeHome core owner b.rel n r v b.pol

/-- A plain write of a beat: at once where it lies in one page, else byte by byte (R297). -/
def writeBeat (p : XPort) (x : Ctx) (core : Nat) (owner : Nat × Nat) (b : Beat) (s : State) : State :=
  if b.va.toNat % 8192 + b.size ≤ 8192 then writePiece p x core owner b s b.va b.size b.data.toNat
  else (List.range b.size).foldl (fun t i =>
    writePiece p x core owner b t (b.va + BitVec.ofNat 64 i) 1 ((b.data >>> (8 * i)).setWidth 8 : Byte).toNat) s

/-- A write of 4-bit elements: each byte keeps the nibble that is not written. -/
def nibbleBeat (p : XPort) (x : Ctx) (core : Nat) (owner : Nat × Nat) (b : Beat) (s : State) : State :=
  (List.range b.size).foldl (fun t i =>
    let va := b.va + BitVec.ofNat 64 i
    match t.xlat p core x .store va with
    | .ok key _ _ _ =>
      let put (old h : Nat) : Nat := if b.nib ≤ 2 * i + h ∧ 2 * i + h < b.nib + b.nibs then
        putNibble old ((b.data >>> (4 * (2 * i + h))).setWidth 4 : BitVec 4).toNat h else old
      writePiece p x core owner b t va 1 (put (put (memNat t.mem key 1) 0) 1)
    | _ => t) s

/-- The operation of an atomic beat, and its type. -/
def Beat.sub (b : Beat) : Nat × Typ :=
  let op := if b.kind = 512 then b.op else b.kind - 1
  (op % 16, Typ.ofCode (BitVec.ofNat 4 (op / 16)))

/-- Whether a beat is an atomic. -/
def Beat.atomic (b : Beat) : Bool := b.kind != 0 && b.kind ≤ 512

/-- What an atomic beat has read reaches its cohort: one with a return gives its lane's old value to the cohort that waits in it; the lane of
one without that consumes an error dies in both twins (R236, R297). -/
def beatRead (cid : Nat) (b : Beat) (old : Word) (bad : Bool) (t : State) : State :=
  let lost : Mask := if bad then BitVec.twoPow 64 b.lane else 0
  match t.cohort? cid with
  | none => t
  | some c =>
    if b.kind = 512 then
      t.setCohort { c with rmw := c.rmw.map fun r => { r with done := r.done ++ [(b.lane, old.toNat)], dead := r.dead ||| lost } }
    else if bad then ((t.noteDead c).killTwin c lost).settleCohort (c.kill (lost &&& ~~~c.dead) c.here.pc)
    else t

/-- An atomic of a beat in one operation. -/
def atomBeat (p : XPort) (x : Ctx) (core : Nat) (owner : Nat × Nat) (b : Beat) (s : State) : State :=
  let r := s.xlat p core x .atomic b.va
  let (old, bad, t) := (p.drop s r).atomHome b.sub.1 b.sub.2 r b.cmp (b.data.setWidth 32) b.pol
  beatRead owner.2 b old bad t

/-- A beat is performed (R297): a plain write, an atomic, or 4-bit elements within their bytes. -/
def performBeat (p : XPort) (x : Ctx) (core : Nat) (owner : Nat × Nat) (s : State) (b : Beat) : State :=
  if b.kind = 0 then writeBeat p x core owner b s
  else if b.kind ≤ 512 then atomBeat p x core owner b s
  else nibbleBeat p x core owner b s

/-- The words that the atomics of an instruction, as its first beats of a list, act on. -/
def beatWords (s : State) (x : Ctx) (core : Nat) : List Beat → List Nat
  | [] => []
  | b :: bs =>
    let key (c : Beat) : Option Nat := match s.xlat (.core core) core x .atomic c.va with
      | .ok k _ _ _ => some k
      | _ => none
    (b :: bs.takeWhile (·.next)).filterMap key

/-- Whether another cohort's atomic holds up the beats of an instruction (R142). -/
def beatsTaken (s : State) (x : Ctx) (core cid : Nat) : List Beat → Bool
  | [] => false
  | b :: bs =>
    if b.atomic then (beatWords s x core (b :: bs)).any fun k => s.wordTaken cid k 4
    else (List.range b.size).any fun i => match s.xlat (.core core) core x .store (b.va + BitVec.ofNat 64 i) with
      | .ok k _ _ _ => s.wordTaken cid k 1
      | _ => false

/-- The beats of a matched window are performed in order, as far as they go: what is left, the word that its first beat has read and the words
that it holds, and the state. An atomic on a device word of the host is read in one turn and written in the next (R142). -/
def performBeats (x : Ctx) (core : Nat) (owner : Nat × Nat) (read : Option Word) : List Beat → State → List Beat × Option Word × List Nat × State
  | [], s => ([], none, [], s)
  | b :: bs, s =>
    let p : XPort := .core core
    let r := s.xlat p core x .atomic b.va
    if read.isNone ∧ b.next = false ∧ beatsTaken s x core owner.2 (b :: bs) then (b :: bs, none, [], s)
    else if b.atomic && r.twoStep && !s.poisoned r.key 4 then
      match read with
      | none => (b :: bs, some (BitVec.ofNat 32 (memNat s.mem r.key 4)), beatWords s x core (b :: bs), s)
      | some old => performBeats x core owner none bs
          (beatRead owner.2 b old false ((p.drop s r).atomWrite b.sub.1 b.sub.2 r old b.cmp (b.data.setWidth 32)))
    else performBeats x core owner none bs (performBeat p x core owner s b)

/-- The beats that a matched window performs, and the windows after it: the last atomics of an instruction whose others lie in the next
window wait for them, so that no other agent's write falls between (R125). -/
def performable (w : StoreWindow) (ws : List StoreWindow) : List Beat × List StoreWindow :=
  match ws with
  | [] => (w.held, [])
  | n :: rest =>
    if (n.beats.head?).any (·.next) then
      let cut := w.held.length - ((w.held.reverse.takeWhile (·.next)).length + 1)
      (w.held.take cut, { n with carried := w.held.drop cut } :: rest)
    else (w.held, n :: rest)

/-- A cohort that has ended leaves once its last window is done (R134, R297). -/
def State.leaveEnded (s : State) (cid : Nat) : State :=
  match s.cohort? cid with
  | some c => if c.ended && c.windows == [] then ((s.retire c).grantBanks c.core).podTryAll else s
  | none => s

/-- The matched window at the head of a primary's stream is performed as far as it goes (R297). -/
def State.performWindow (s : State) (x : Ctx) (c : Cohort) (w : StoreWindow) (ws : List StoreWindow) : State :=
  let r := performBeats x c.core (c.launch, c.cid) w.read w.held (s.setCohort { c with windows := { w with matched := true, beats := [], carried := [] } :: ws })
  let left : StoreWindow := { w with matched := true, carried := [], beats := r.1, read := r.2.1, words := r.2.2.1 }
  match r.2.2.2.cohort? c.cid with
  | some d => (r.2.2.2.setCohort { d with windows := if r.1 = [] then d.windows.drop 1 else left :: d.windows.drop 1 }).leaveEnded c.cid
  | none => r.2.2.2

/-- What is left of a cohort's matched window, and the beats of it that wait for the next one, are performed: the cohort's context is
destroyed, and earlier windows stand (R297). `fuel` bounds the turns that device words take (R142). -/
def State.flushWindow (x : Ctx) (cid : Nat) : Nat → State → State
  | 0, s => s
  | fuel + 1, s =>
    match s.cohort? cid with
    | none => s
    | some c =>
      match c.windows with
      | [] => s
      | w :: ws =>
        if w.matched then State.flushWindow x cid fuel (s.performWindow x c w ws)
        else if w.carried = [] then s
        else State.flushWindow x cid fuel (s.performWindow x c { w with matched := true, beats := [] } ws)

end Sys2Proof.Machine
end

