-- ==== Sys2Proof/Machine/Reward.lean ====
section
/-!
DEFINITION. Machine/Reward.lean: the reward join units (R272 to R291, R377, R408, R409, R436): appends and closes, rewards and
their time-outs, release with the advantage scan, and the learner queue.
-/

namespace Sys2Proof.Machine

/-! ### Trajectories (R272) -/

/-- Home package of a trajectory. -/
def trajHaddr (t : DWord) : BitVec 20 := BitVec.ofNat 20 (bitsOf t.toNat 63 44)
/-- Home die of a trajectory. -/
def trajHdie (t : DWord) : Nat := bitsOf t.toNat 43 40
/-- Actor stream of a trajectory: all but its INDEX. -/
def trajStream (t : DWord) : Nat := bitsOf t.toNat 63 24
/-- INDEX of a trajectory. -/
def trajIndex (t : DWord) : Nat := bitsOf t.toNat 23 0

/-! ### The join table (R276, R277, R279, R280) -/

/-- Whether an entry is OPEN or CLOSED. -/
def JoinEntry.live (e : JoinEntry) : Bool := e.state == .open_ || e.state == .closed

/-- The OPEN or CLOSED entry of a trajectory. -/
def JoinUnit.liveEntry (u : JoinUnit) (traj : DWord) : Option JoinEntry := u.entries.find? fun e => e.traj == traj && e.live

/-- Replaces or adds an entry. -/
def JoinUnit.putEntry (u : JoinUnit) (e : JoinEntry) : JoinUnit := { u with entries := upsertBy JoinEntry.idx e u.entries }

/-- An entry returns to FREE. -/
def JoinUnit.freeEntry (u : JoinUnit) (idx : Nat) : JoinUnit := { u with entries := u.entries.filter fun e => e.idx != idx }

/-- A new entry at the lowest FREE number (R276). -/
def JoinUnit.openEntry (u : JoinUnit) (traj : DWord) (now : Nat) : Option JoinEntry :=
  (((List.range (u.entries.length + 1)).find? fun i => i < u.nent && !(u.entries.any fun e => e.idx == i))).map fun i =>
    { idx := i, state := .open_, traj := traj, count := 0, opened := now, boot := 0, version := 0, terminal := false, len := 0,
      rewards := [], cut := none, joinedAt := 0 }

/-- F32 addition by `.rne` (R80). -/
def rnAdd (a b : Word) : Word := BitVec.ofNat 32 (roundArith f32 .rne 0 (fpAdd .rne (fpVal f32 a.toNat) (fpVal f32 b.toNat)).1).1

/-- F32 fused multiply and add by `.rne`. -/
def rnFma (a b c : Word) : Word :=
  BitVec.ofNat 32 (roundArith f32 .rne 0 (fpFma .rne [(fpVal f32 a.toNat, fpVal f32 b.toNat)] (fpVal f32 c.toNat)).1).1

/-- F32 multiplication by `.rne`. -/
def rnMul (a b : Word) : Word := BitVec.ofNat 32 (roundArith f32 .rne 0 (fpMul (fpVal f32 a.toNat) (fpVal f32 b.toNat)).1).1

/-- One reward applied to the table: joined, added, a duplicate or a bad step; `none` when it matches no step (R279). -/
def JoinUnit.joinOne (u : JoinUnit) (m : RewardMsg) : Option JoinUnit :=
  match u.liveEntry m.traj with
  | none => none
  | some e =>
    let t := m.step.toNat
    if t < e.count then
      match e.rewards.find? fun r => r.1 == t with
      | none => some (u.putEntry { e with rewards := (t, m.reward) :: e.rewards })
      | some r =>
        if m.flags.getLsbD 0 then
          some (u.putEntry { e with rewards := e.rewards.map fun q => if q.1 = t then (t, rnAdd r.2 m.reward) else q })
        else some (u.count 1 1)
    else if e.state = .closed then some (u.count 2 1)
    else none

/-- A CLOSED entry whose steps are all rewarded becomes JOINED, complete (R280). -/
def JoinUnit.complete (u : JoinUnit) (traj : DWord) (now : Nat) : JoinUnit :=
  match u.liveEntry traj with
  | some e =>
    if e.state = .closed ∧ e.rewards.length = e.len then
      u.putEntry { e with state := .joined, cut := none, joinedAt := now }
    else u
  | none => u

/-- The orphans of a trajectory applied in arrival order (R279). -/
def applyOrphans (traj : DWord) : List Orphan → JoinUnit → JoinUnit × List Orphan
  | [], u => (u, [])
  | o :: os, u =>
    if o.msg.traj = traj then
      match u.joinOne o.msg with
      | some v => applyOrphans traj os v
      | none => let r := applyOrphans traj os u; (r.1, o :: r.2)
    else let r := applyOrphans traj os u; (r.1, o :: r.2)

/-- What follows an append or a close: the matching orphans, then completion (R279, R280). -/
def JoinUnit.settle (u : JoinUnit) (traj : DWord) (now : Nat) : JoinUnit :=
  let r := applyOrphans traj u.orphans u
  { r.1 with orphans := r.2 }.complete traj now

/-! ### The episode store (R274) -/

/-- Address of a step slot. -/
def JoinUnit.slotVa (u : JoinUnit) (idx t : Nat) : Nat := u.store + idx * 262144 + 64 * t

/-- What a store access of the unit gives: done, a page to wait for, or a fault that drops the episode (R274). -/
inductive StoreOut (α : Type) where
  | ok (a : α)
  | wait (s : State)
  | fault (s : State)

/-- A failed access judged (R274): a page with P = 0 is asked for; one that cannot be made resident, or any other condition of
R118, is a store fault. The refusal stands until the unit's work is done, so that it finds the page refused at each access. -/
def State.storeFail {α : Type} (s : State) (u : JoinUnit) (f : VaFail) : StoreOut α :=
  match f with
  | .nonres va =>
    match s.pageReq? u.ctx none va with
    | some r => if r.status = 2 then .fault s else .wait s
    | none => .wait (s.askPage u.ctx none va)
  | _ => .fault s

/-- The refusals of the episode store's pages are forgotten once the work that met them is done. -/
def State.dropRefused (s : State) (u : JoinUnit) : State :=
  { s with pageReqs := s.pageReqs.filter fun r => !(r.ctx == u.ctx && r.cid.isNone && r.status == 2 && r.va < u.store + 262144 * u.nent &&
      u.store < r.va + (s.pageOf u.ctx r.va).2) }

/-- The unit writes bytes of a step slot. -/
def State.unitWrite (s : State) (u : JoinUnit) (va : Nat) (bs : List Byte) : StoreOut State :=
  match s.ctx? u.ctx with
  | none => .fault s
  | some x =>
    match s.vaWrite .front 0 x va bs with
    | .ok t => .ok t
    | .error f => s.storeFail u f

/-! ### EPAPP and EPEND (R276, R277, R288, R377) -/

/-- One lane's append; true when it is refused (R276). -/
def State.appendLane (s : State) (d : Nat) (traj : DWord) (words : List Word) : StoreOut (State × Bool) :=
  let u := s.join d
  let now := s.cycle d
  let target := match u.liveEntry traj with
    | some (e : JoinEntry) => if e.state = JoinState.open_ ∧ e.count < 4096 then some e else none
    | none => u.openEntry traj now
  match target with
  | none => .ok (s.setJoin (u.count 7 1), true)
  | some e =>
    let bs := words.flatMap wordBytes ++ List.replicate 16 0 ++ natBytes 8 traj.toNat ++ List.replicate 8 0
    match s.unitWrite u (u.slotVa e.idx e.count) bs with
    | .wait t => .wait t
    | .fault t => .ok (t.setJoin ((u.freeEntry e.idx).count 6 1), false)
    | .ok t => .ok (t.setJoin ((u.putEntry { e with count := e.count + 1 }).settle traj now), false)

/-- The lanes of an EPAPP in ascending order, with the refused ones. -/
def appendLanes (d : Nat) (traj : Nat → DWord) (words : Nat → List Word) : List Nat → State → StoreOut (State × Mask)
  | [], s => .ok (s, 0)
  | l :: ls, s =>
    match s.appendLane d (traj l) (words l) with
    | .wait t => .wait t
    | .fault t => .fault t
    | .ok (t, bad) =>
      match appendLanes d traj words ls t with
      | .ok (v, m) => .ok (v, if bad then m ||| BitVec.twoPow 64 l else m)
      | r => r

/-- One lane's close; true when it is refused (R277). -/
def State.closeLane (s : State) (d : Nat) (traj : DWord) (boot version : Word) (terminal : Bool) : State × Bool :=
  let u := s.join d
  match u.liveEntry traj with
  | some e =>
    if e.state = .open_ ∧ 0 < e.count then
      let e' : JoinEntry := { e with state := .closed, len := e.count, boot := boot, version := version, terminal := terminal }
      (s.setJoin ((u.putEntry e').settle traj (s.cycle d)), false)
    else (s.setJoin (u.count 7 1), true)
  | none => (s.setJoin (u.count 7 1), true)

/-- The lanes of an EPEND in ascending order, with the refused ones. -/
def closeLanes (d : Nat) (lane : Nat → DWord × Word × Word × Bool) : List Nat → State → State × Mask
  | [], s => (s, 0)
  | l :: ls, s =>
    let a := lane l
    let r := s.closeLane d a.1 a.2.1 a.2.2.1 a.2.2.2
    let v := closeLanes d lane ls r.1
    (v.1, if r.2 then v.2 ||| BitVec.twoPow 64 l else v.2)

/-- The checks of EPAPP and EPEND: an accepted join block (reason 11), then the home of every lane (reason 10). -/
def homeChecked (s : State) (c : Cohort) (m : Mask) (traj : Nat → DWord) (k : Unit → Out) : Out :=
  let d := dieOf c.core
  if (s.join d).accepted = false then raiseR s c 11 11
  else if (laneList m).any fun l => trajHaddr (traj l) != s.faddr || trajHdie (traj l) != d then raiseR s c 11 10
  else k ()

/-- EPAPP (R276, R377). A secondary appends nothing and receives its primary's refused lanes (R296). -/
def execEpapp (f : Fields) (s : State) : Out :=
  withMe s fun c =>
    let m := c.writeMask f
    let b := opndIndex f.ob
    if m = 0 then finish s c
    else
      let traj (l : Nat) := lane64 (c.src64 f f.oa) l
      let put (s : State) (c : Cohort) (bad : DWord) : Out := finish s (c.putPredOpt m f.od bad)
      homeChecked s c m traj fun _ =>
        if c.role = .secondary then outsideValue s c 0 put
        else match appendLanes (dieOf c.core) traj (fun l => (List.range 8).map fun i => (c.reg (b + i)).lane l) (laneList m) s with
          | .wait t | .fault t => waitHere { s with pageReqs := t.pageReqs } c
          | .ok (t, bad) => outsideValue (t.dropRefused (t.join (dieOf c.core))) c bad put

/-- EPEND (R277, R377): a release at `.die`. -/
def execEpend (f : Fields) (s : State) : Out :=
  withMe s fun c =>
    let m := c.writeMask f
    if m = 0 then finish s c
    else
      let traj (l : Nat) := lane64 (c.src64 f f.oa) l
      let put (s : State) (c : Cohort) (bad : DWord) : Out := finish s (c.putPredOpt m f.od bad)
      homeChecked s c m traj fun _ =>
        if c.role = .secondary then outsideValue s c 0 put
        else releasing s c fun s c =>
          let r := closeLanes (dieOf c.core) (fun l => (traj l, (s.src c f f.ob).lane l, (s.src c f f.oc).lane l, (c.predOf f.oe).getLsbD l))
            (laneList m) s
          outsideValue r.1 c r.2 put

/-! ### Reward messages (R278, R279) -/

/-- A reward that has passed the generation check: reserved flags and steps from 4,096 up are dropped (R278), the rest are matched (R279). -/
def JoinUnit.take (u : JoinUnit) (m : RewardMsg) (now : Nat) : JoinUnit :=
  if m.flags >>> 1 ≠ 0 then u.count 9 1
  else if 4096 ≤ m.step.toNat then u.count 2 1
  else match u.joinOne m with
    | some v => v.complete m.traj now
    | none => if 8192 ≤ u.orphans.length then u.count 0 1 else { u with orphans := u.orphans ++ [{ msg := m, at_ := now }] }

/-- A reward message reaches its home die (R279, R273): one that came through no port is checked against the adopted
generation here. A package that has been removed joins none: it is dropped as stale (R291). -/
def State.rewardArrive (s : State) (d : Nat) (fromPort : Bool) (m : RewardMsg) : State :=
  let u := s.join d
  let now := s.cycle d
  if u.accepted = false then s.setJoin (u.count 0 1)
  else if s.memState = .expelled then s.setJoin (u.count 10 1)
  else if fromPort ∨ m.gen = s.mgen then s.setJoin (u.take m now)
  else if newer m.gen s.mgen then
    if 256 ≤ u.hold.length then s.setJoin (u.count 11 1) else s.setJoin { u with hold := u.hold ++ [{ msg := m, at_ := now }] }
  else s.setJoin (u.count 10 1)

/-- A message leaves a die for its home: in this package directly, else as a packet whose answer is awaited (R278). -/
def State.sendReward (s : State) (d : Nat) (m : RewardMsg) : State :=
  if trajHaddr m.traj = s.faddr then s.rewardArrive (trajHdie m.traj) false m
  else
    let (tx, s0) := s.takeTxid d
    let t : State := { s0 with rewardTx := s0.rewardTx ++ [{ txid := ⟨d, tx⟩, sent := s.cycle d }] }
    t.send d { s.packetTo d (trajHaddr m.traj) (trajHdie m.traj) tx (.reward m) with gen := m.gen }

/-- RWDSEND (R278, R436). -/
def execRwdsend (f : Fields) (s : State) : Out :=
  withMe s fun c =>
    let m := c.writeMask f
    let d := dieOf c.core
    if m = 0 then finish s c
    else if (s.join d).accepted = false then raiseR s c 11 11
    else if c.role = .secondary then finish s c
    else
      let msg (l : Nat) : RewardMsg :=
        let t := ((s.src c f f.ob).lane l).toNat
        { traj := lane64 (c.src64 f f.oa) l, step := BitVec.ofNat 16 (min t 0xFFFF), flags := if f.imm.getLsbD 0 then 1 else 0,
          reward := (s.src c f f.oc).lane l, gen := s.mgen : RewardMsg }
      finish ((laneList m).foldl (fun t l => t.sendReward d (msg l)) s) c

/-- REWARD_MESSAGE: a message arrives at its home die (R279). -/
def execRewardMessage (die : Nat) (fromPort : Bool) (m : RewardMsg) (s : State) : Out := .next (s.rewardArrive die fromPort m)

/-- REWARD_ACKNOWLEDGEMENT: the answer to a die's reward packet, the oldest of that transaction (R278). -/
def execRewardAcknowledgement (txid : TxId) (s : State) : Out :=
  .next { s with rewardTx := s.rewardTx.eraseP fun t => t.txid == txid }

/-- REWARD_UNACKNOWLEDGED: each packet of a transaction without an answer within 2^20 cycles is counted once (R278). -/
def execRewardUnacknowledged (txid : TxId) (s : State) : Out :=
  let late (t : RewardTx) : Bool := t.txid == txid && t.sent + 2 ^ 20 ≤ s.cycle txid.die
  let n := (s.rewardTx.filter late).length
  if n = 0 then .next s
  else .next ({ s with rewardTx := s.rewardTx.filter fun t => !late t }.setJoin ((s.join txid.die).count 8 n))

/-- REWARD_HOLD_TIMEOUT: messages held for 2^24 cycles are dropped (R279). -/
def execRewardHoldTimeout (die : Nat) (s : State) : Out :=
  let u := s.join die
  let old (o : Orphan) : Bool := o.at_ + 2 ^ 24 ≤ s.cycle die
  .next (s.setJoin ({ u with hold := u.hold.filter fun o => !old o }.count 11 (u.hold.filter old).length))

/-- ORPHAN_TIMEOUT: orphans of age ORPHTO × 1,024 cycles are dropped (R279). -/
def execOrphanTimeout (die : Nat) (s : State) : Out :=
  let u := s.join die
  let old (o : Orphan) : Bool := o.at_ + u.orphto * 1024 ≤ s.cycle die
  if u.accepted then .next (s.setJoin ({ u with orphans := u.orphans.filter fun o => !old o }.count 0 (u.orphans.filter old).length))
  else .next s

/-- JOIN_TIMEOUT of an entry (R280). -/
def execJoinTimeout (die entry : Nat) (s : State) : Out :=
  let u := s.join die
  match u.entries.find? fun e => e.idx == entry with
  | none => .next s
  | some e =>
    if u.jointo = 0 ∨ e.live = false ∨ s.cycle die < e.opened + u.jointo * 1024 then .next s
    else
      let run := ((List.range e.len).takeWhile fun t => e.rewards.any fun r => r.1 == t).length
      if e.state = .closed ∧ u.trunc = true ∧ 0 < run then
        let e' : JoinEntry := { e with state := .joined, cut := some (run - 1), joinedAt := s.cycle die }
        .next (s.setJoin ((u.putEntry e').count 4 1))
      else .next (s.setJoin ((u.freeEntry entry).count 3 1))

/-! ### Release (R282 to R285) -/

/-- Released length of an episode (R282). -/
def JoinEntry.released (e : JoinEntry) : Nat := match e.cut with
  | some k => k + 1
  | none => e.len

/-- The descriptor of an episode (R282, R286). -/
def JoinEntry.descriptor (e : JoinEntry) : Word :=
  let kind := if e.released < e.len then 2 else if e.terminal then 0 else 1
  BitVec.ofNat 32 (e.idx + (e.released - 1) * 2 ^ 16 + kind * 2 ^ 28)

/-- Whether a JOINED episode waits for no earlier one of its stream (R283). -/
def JoinUnit.eligible (u : JoinUnit) (e : JoinEntry) : Bool :=
  e.state == .joined && !(u.entries.any fun o => (o.live || o.state == .joined) && trajStream o.traj == trajStream e.traj &&
    trajIndex o.traj < trajIndex e.traj)

/-- The episode released next (R283). -/
def JoinUnit.nextRelease (u : JoinUnit) : Option JoinEntry :=
  bestBy (fun (a b : JoinEntry) => a.joinedAt < b.joinedAt || (a.joinedAt == b.joinedAt && a.idx < b.idx)) (u.entries.filter u.eligible)

/-- The advantages and returns of steps, last first (R285): each with its step, reward, A and R. -/
def scan (u : JoinUnit) (v r : Nat → Word) : Nat → Word → Word → List (Nat × Word × Word × Word)
  | 0, _, _ => []
  | t + 1, vn, a =>
    let delta := rnAdd (rnFma u.gamma vn (r t)) (v t ^^^ 0x80000000)
    let a' := rnFma u.c a delta
    (t, r t, a', rnAdd a' (v t)) :: scan u v r t (v t) a'

/-- V of a step as stored. -/
def State.storedV (s : State) (u : JoinUnit) (x : Ctx) (idx t : Nat) : Except VaFail Word :=
  match s.vaRead .front 0 x (u.slotVa idx t) 4 with
  | .ok (bs, _) => .ok (BitVec.ofNat 32 (leNat bs))
  | .error f => .error f

/-- V of steps 0 to n − 1, or the first access that fails. -/
def State.storedVs (s : State) (u : JoinUnit) (x : Ctx) (idx : Nat) : Nat → Except VaFail (List Word)
  | 0 => .ok []
  | n + 1 =>
    match s.storedVs u x idx n with
    | .error f => .error f
    | .ok vs => match s.storedV u x idx n with
      | .ok v => .ok (vs ++ [v])
      | .error f => .error f

/-- The scan's writes of r, A, R and the version (R285). -/
def writeScan (u : JoinUnit) (e : JoinEntry) : List (Nat × Word × Word × Word) → State → StoreOut State
  | [], s => .ok s
  | p :: ps, s =>
    match s.unitWrite u (u.slotVa e.idx p.1 + 32) (wordBytes p.2.1 ++ wordBytes p.2.2.1 ++ wordBytes p.2.2.2) with
    | .ok t =>
      match t.unitWrite u (u.slotVa e.idx p.1 + 56) (wordBytes e.version) with
      | .ok v => writeScan u e ps v
      | r => r
    | r => r

/-- The descriptors of a die go to its waiting takers, oldest first (R286, R409). -/
def deliverLoop : Nat → State → Nat → State
  | 0, s, _ => s
  | fuel + 1, s, d =>
    let u := s.join d
    match u.queue with
    | [] => s
    | desc :: rest =>
      let blocking := (s.cohorts.filterMap fun c => match c.wait with
        | .learner _ _ => if dieOf c.core = d ∧ c.stopped = false then some (c.waitSeq, c.cid, (none : Option Nat)) else none
        | _ => none)
      let split := s.waitTable.filterMap fun e => match e.op, e.done with
        | .learner, none => if e.die = d then some (e.seq, e.cid, some e.index) else none
        | _, _ => none
      let idx := bitsOf desc.toNat 14 0
      let u' : JoinUnit := { u with queue := rest, entries := u.entries.map fun e => if e.idx = idx then { e with state := .taken } else e }
      match bestBy (fun (a b : Nat × Nat × Option Nat) => a.1 < b.1) (blocking ++ split) with
      | none => s
      | some (_, _, some i) =>
        deliverLoop fuel ({ s with waitTable := s.waitTable.map fun (e : WaitEntry) =>
            if e.die = d ∧ e.index = i then { e with done := some (desc, s.cycle d) } else e }.setJoin u') d
      | some (_, k, none) =>
        match s.cohort? k with
        | none => s
        | some c =>
          match c.wait with
          | .learner od _ =>
            let g := s.fwdGive c [some (desc.setWidth 64)] 0
            deliverLoop fuel (((g.1.setCohort (g.2.putUniformOpt od desc).complete).settleOpnd c).setJoin u') d
          | _ => s

/-- Descriptors are delivered as far as there are takers. -/
def State.deliver (s : State) (d : Nat) : State := deliverLoop ((s.join d).queue.length) s d

/-- The $LQVER that a die's join unit uses: one written in this cycle counts from the next (R417). -/
def State.unitLqver (s : State) (die : Nat) : Word :=
  let d := s.die die
  match d.lqWrite with
  | some (t, _, old) => if t = s.cycle die then old else d.lqver
  | none => d.lqver

/-- EPISODE_RELEASE: the next eligible episode is released, or dropped as stale (R283 to R285); takers are served after the releases of the
cycle (R281). -/
def execEpisodeRelease (die : Nat) (s : State) : Out :=
  let u := s.join die
  if 4096 ≤ u.queue.length then .next s
  else match u.nextRelease, s.ctx? u.ctx with
    | some e, some x =>
      let d := (s.unitLqver die - e.version).toNat
      if u.smax + 1 ≤ d ∧ d < 2 ^ 31 then .next (s.setJoin ((u.freeEntry e.idx).count 5 1))
      else
        let n := e.released
        match s.storedVs u x e.idx (if n < e.len then n + 1 else n) with
        | .error (.data k) => .next (s.stopContext u.ctx 13 (hwDetail (s.unitOfKey k).1 5 (s.unitOfKey k).2) true)
        | .error f =>
          match (s.storeFail u f : StoreOut State) with
          | .wait t | .ok t => .next t
          | .fault t => .next ((t.setJoin ((u.freeEntry e.idx).count 6 1)).dropRefused u)
        | .ok vs =>
          let v (t : Nat) : Word := vs.getD t 0
          let r (t : Nat) : Word := ((e.rewards.find? fun q => q.1 == t).map (·.2)).getD 0
          let last : Word := if n < e.len then v n else if e.terminal then 0 else e.boot
          match writeScan u e (scan u v r n last 0) s with
          | .wait t => .next { s with pageReqs := t.pageReqs }
          | .fault t => .next ((t.setJoin ((u.freeEntry e.idx).count 6 1)).dropRefused u)
          | .ok t => .next (t.setJoin { u.putEntry { e with state := .queued } with queue := u.queue ++ [e.descriptor] })
    | _, _ => .next s

/-! ### LQTAKE and LQDONE (R286, R287, R408, R409) -/

/-- The checks shared by the forms of LQTAKE; `k` runs where a join block is accepted. -/
def lqtakeOut (f : Fields) (s : State) (k : Cohort → Mask → Out) : Out :=
  withMe s fun c =>
    let m := c.writeMask f
    if m = 0 then finish s c
    else if (s.join (dieOf c.core)).accepted = false then raiseR s c 11 11
    else k c m

/-- LQTAKE (R409): it joins its die's takers, and completes when a descriptor reaches it. -/
def execLqtake (f : Fields) (s : State) : Out :=
  lqtakeOut f s fun c m =>
    if c.role = .secondary then outsideValue s c 0 fun s c v => finish s (c.putUniformOpt f.od (DWord.lo v))
    else .next ({ s.setCohort { c with wait := .learner f.od m, waitSeq := s.fresh } with fresh := s.fresh + 1 }.deliver (dieOf c.core))

/-- LQTAKE.split (R409, R216): the handle's completion value is a descriptor. -/
def execLqtakeSplit (f : Fields) (s : State) : Out :=
  lqtakeOut f s fun c _ => onNextState (splitOut s c f 3 .learner none) fun t => t.deliver (dieOf c.core)
where
  /-- A next state with a function applied. -/
  onNextState (o : Out) (k : State → State) : Out :=
    match o with
    | .next t => .next (k t)
    | r => r

/-- Whether any taker of a die waits (R409). -/
def State.takerWaits (s : State) (d : Nat) : Bool :=
  (s.cohorts.any fun c => dieOf c.core == d && (match c.wait with
    | .learner _ _ => true
    | _ => false)) ||
  s.waitTable.any fun e => e.die == d && (match e.op, e.done with
    | .learner, none => true
    | _, _ => false)

/-- LQTAKE.try (R409): bit 32 of the forwarded value says that a descriptor was taken. -/
def execLqtakeTry (f : Fields) (s : State) : Out :=
  lqtakeOut f s fun c m =>
    let put (s : State) (c : Cohort) (v : DWord) : Out :=
      if v.getLsbD 32 then finish s ((c.putUniformOpt f.od (DWord.lo v)).putPredOpt m f.oe m)
      else finish s (c.putPredOpt m f.oe 0)
    let d := dieOf c.core
    let u := s.join d
    if c.role = .secondary then outsideValue s c 0 put
    else match u.queue with
      | desc :: rest =>
        if s.takerWaits d then outsideValue s c 0 put
        else
          let idx := bitsOf desc.toNat 14 0
          outsideValue (s.setJoin { u with queue := rest, entries := u.entries.map fun e => if e.idx = idx then { e with state := .taken } else e })
            c (desc.setWidth 64 ||| 0x100000000) put
      | [] => outsideValue s c 0 put

/-- LQDONE (R287, R408): a release at `.die`, after which the entry is FREE. An Indigo secondary frees nothing and follows its primary
(R296). -/
def execLqdone (f : Fields) (s : State) : Out :=
  withMe s fun c =>
    let m := c.writeMask f
    let d := dieOf c.core
    let u := s.join d
    if m = 0 then finish s c
    else if u.accepted = false then raiseR s c 11 11
    else if c.role = .secondary then releasing s c fun s c => outsideValue s c 0 fun s c _ => finish s c
    else
      let i := bitsOf (s.atElected c f f.oa m).toNat 14 0
      if u.nent ≤ i ∨ !(u.entries.any fun e => e.idx == i && e.state == .taken) then raiseR s c 11 12
      else releasing s c fun s c => outsideValue (s.setJoin ((s.join d).freeEntry i)) c 0 fun s c _ => finish s c

end Sys2Proof.Machine
end

