-- ==== Sys2Proof/Machine/Pages.lean ====
section
/-!
DEFINITION. Machine/Pages.lean: making pages resident, eviction and pins (R120 to R123, R480), and the front end's own
accesses through a context's translation (R201, R203, R231).
-/

namespace Sys2Proof.Machine

/-- A handler of die 0 collects an effect in its private buffer (R222). -/
def State.fwNote (s : State) (e : FwEffect) : State :=
  let x := s.die 0
  s.setDie { x with buffer := x.buffer ++ [e] }

/-- No event. -/
def noEvent : FwEvent → Bool := fun _ => false

/-! ### Ranges and frames (R122, R480) -/

/-- The lowest free run of a size in a context's pool, aligned to it (R480; log entry 16). -/
def Ctx.freeFrame (x : Ctx) (size : Nat) : Option Nat :=
  let first := (x.rpool + size - 1) / size * size
  ((List.range (x.rpoolLen / size + 1)).map (first + size * ·)).find? fun f =>
    f + size ≤ x.rpool + x.rpoolLen && x.resident.all fun p => f + size ≤ p.frame || p.frame + p.size ≤ f

/-- The resident pages of a range of a context. -/
def Ctx.inRange (x : Ctx) (va len : Nat) : List ResPage := x.resident.filter fun p => p.range == va && p.len == len

/-- Bytes copied with their poison (R300). -/
def State.copyBytes (s : State) (src dst n : Nat) : State :=
  let bad := (s.poison.filter fun p => src ≤ p && p < src + n).map fun p => p - src + dst
  let s1 := s.writeMem dst (memBytes s.mem src n)
  { s1 with poison := s1.poison ++ bad }

/-! ### Eviction (R122, R123) -/

/-- The next listed use of a range: the least position, in its queue, of a queued packet that lists it; `none` is
farthest. DESIGN CHOICE: positions in different queues compare as numbers, each the place among the packets of its queue that are not done,
and the least counts (log entry 91). -/
def State.nextUse (s : State) (k : BitVec 16) (va len : Nat) : Option Nat :=
  ((s.queues.map fun q =>
    let ps := s.packets.filter fun p => p.queue == q.num && !p.done
    ps.findIdx? fun p => !p.started && s.launches.any fun l => l.queue == p.queue && l.seq == p.seq && l.ctx == k && !l.started &&
      l.ranges.any fun r => r.va == va && r.len == len).filterMap id).foldl (fun (a : Option Nat) n => some (min (a.getD n) n)) none

/-- Whether a launch that executes lists a range, or a page of it is pinned: it is not evicted (R120, R122). -/
def State.heldRange (s : State) (x : Ctx) (va len : Nat) : Bool :=
  ((s.liveLaunches x.ctxid).any fun l => l.started && l.ranges.any fun r => r.va < va + len && va < r.va + r.len) ||
  x.pinned.any fun p => va ≤ p.1 && p.1 < va + len

/-- The leaves with P = 1 of a run of pages. -/
def State.leavesOf (s : State) (x : Ctx) : Nat → Nat → Nat → List TlbEntry
  | 0, _, _ => []
  | fuel + 1, va, stop =>
    if stop ≤ va then []
    else match walkLevels s x.ctxid [] va [0, 1, 2, 3] x.root with
    | .leaf e p => (if p then [e] else []) ++ State.leavesOf s x fuel (max (va + 8192) (e.va + e.size)) stop
    | _ => State.leavesOf s x fuel (va + 8192) stop

/-- Whether range `a` is evicted before range `b` (R122). -/
def State.evictsFirst (s : State) (x : Ctx) (a b : Nat × Nat) : Bool :=
  let ua := s.nextUse x.ctxid a.1 a.2
  let ub := s.nextUse x.ctxid b.1 b.2
  let dirty (r : Nat × Nat) := ((s.leavesOf x (r.2 / 8192 + 1) r.1 (r.1 + r.2)).filter fun e => pteBits (memNat s.mem e.leaf 8) 6 6 == 1).length
  if ua ≠ ub then (match ua, ub with
    | none, _ => true
    | some _, none => false
    | some m, some n => n < m)
  else if dirty a ≠ dirty b then dirty a < dirty b
  else a.1 < b.1

/-- A page's contents go back to its host address if it is dirty, and its DF is cleared (R123). -/
def State.copyBack (s : State) (e : TlbEntry) (host : Nat) : State :=
  let v := memNat s.mem e.leaf 8
  if pteBits v 6 6 = 1 then (s.copyBytes e.frame (hostPa host) e.size).writeMem e.leaf (natBytes 8 (v - 64)) else s

/-- A range is evicted (R123): P is cleared in every leaf of it, the range is invalidated at `.pkg`, its dirty pages are copied back, and
its frames return to the pool. `base` is its backing host address. -/
def State.evictRange (s : State) (x : Ctx) (va len base : Nat) : State :=
  let es := s.leavesOf x (len / 8192 + 1) va (va + len)
  let clear (t : State) (e : TlbEntry) : State :=
    let bs := natBytes 8 (memNat t.mem e.leaf 8 - 4)
    (t.writeMem e.leaf bs).fwNote (.write e.leaf bs)
  let s1 := es.foldl clear s
  let s2 := s1.invalidate x.ctxid (some (va, len)) (fun _ => true) (fun _ => true) fun _ => true
  let s3 := es.foldl (fun t e => t.copyBack e (base + (e.va - va))) s2
  s3.setCtx { x with resident := x.resident.filter fun p => !(p.range == va && p.len == len) }

/-- The backing host address of a range of which pages are resident (R480). -/
def Ctx.rangeHost (x : Ctx) (va len : Nat) : Nat :=
  match (x.inRange va len).head? with
  | some p => p.host - (p.va - va)
  | none => 0

/-- What becomes of a page that is to be made resident. -/
inductive Residency where
  /-- resident, in this state -/
  | done (s : State)
  /-- it cannot be made resident; ranges evicted for it stay evicted -/
  | refused (s : State)
  /-- the front end waits for an executing launch to complete (R122) -/
  | busy (s : State)

/-- Frames are found for a page, ranges being evicted as needed (R122, R480). -/
def takeFrame : Nat → State → BitVec 16 → Nat → Residency ⊕ (Nat × State)
  | 0, s, _, _ => .inl (.refused s)
  | fuel + 1, s, k, size =>
    match s.ctx? k with
    | none => .inl (.refused s)
    | some x =>
      match x.freeFrame size with
      | some f => .inr (f, s)
      | none =>
        let ranges := (x.resident.map fun p => (p.range, p.len)).eraseDups
        match bestBy (s.evictsFirst x) (ranges.filter fun r => !s.heldRange x r.1 r.2) with
        | some r =>
          -- accesses translated before are performed before the eviction goes on (R123)
          if s.translated k (some r) fun _ => true then .inl (.busy s) else takeFrame fuel (s.evictRange x r.1 r.2 (x.rangeHost r.1 r.2)) k size
        | none =>
          -- a pool that could hold the page with everything evicted waits; a smaller one refuses
          if ranges ≠ [] ∧ ({ x with resident := [] }.freeFrame size).isSome then .inl (.busy s) else .inl (.refused s)

/-- MAKING A PAGE RESIDENT (R480): a frame from the pool, the page's bytes from its backing host address, then one write of
the leaf. A page whose leaf has P = 1 is resident already. -/
def State.makeResident (s : State) (k : BitVec 16) (va : Nat) : Residency :=
  match s.ctx? k with
  | none => .refused s
  | some x =>
    match walkLevels s k [] va [0, 1, 2, 3] x.root with
    | .leaf e true => if e.size = 0 then .refused s else .done s
    | .leaf e false =>
      match s.rangeOf k e.va e.size with
      | none => .refused s
      | some r =>
        let host := r.host + (e.va - r.va)
        if x.rpoolLen = 0 ∨ 2 ^ 50 < host + e.size then .refused s
        else match takeFrame (x.resident.length + 2) s k e.size with
          | .inl out => out
          | .inr (f, s1) =>
            let s2 := s1.copyBytes (hostPa host) f e.size
            let old := memNat s2.mem e.leaf 8
            let leaf := old / 2 ^ 52 * 2 ^ 52 + f + pteBits old 4 0 + (1 - pteBits old 2 2) * 4
            let s3 := (s2.writeMem e.leaf (natBytes 8 leaf)).fwNote (.write e.leaf (natBytes 8 leaf))
            match s3.ctx? k with
            | none => .refused s
            | some y =>
              .done (s3.setCtx { y with resident := { va := e.va, size := e.size, frame := f, host := host, range := r.va, len := r.len } :: y.resident })
    | _ => .refused s

/-! ### Firmware (R221, R222) -/

/-- The lock key "mailbox" (R309), apart from every queue number. -/
def mailKey : Nat := 1024

/-- The lock key of an event: a queue, the mailbox, or none (R221, R309). -/
def FwEvent.key : FwEvent → Option Nat
  | .notify q _ => some q
  | .completion q _ => some q
  | .joinZero q _ _ => some q
  | .mailbox _ => some mailKey
  | _ => none

/-- Whether a running event keeps another of a key from being dispatched; events without a key exclude none (R221). -/
def DieState.keyTaken (d : DieState) (key : Option Nat) : Bool := key.isSome && d.fw.any fun c => c.running.key == key

/-- Whether a firmware core of a die is in service (R224). -/
def State.fwInService (s : State) (d core : Nat) : Bool := (s.unitRec (BitVec.ofNat 16 (6 * 8192 + 12 * d + core))).state == 0

/-- The idle firmware core with the lowest number (R221). -/
def State.fwIdle (s : State) (d : Nat) : Option Nat :=
  (List.range 12).find? fun n => s.fwInService d n && !((s.die d).fw.any fun c => c.core == n)

/-- The events that the hardware queue holds: 1,024 entries, with those that run, which leave it at their commit (R221, R222). -/
def DieState.queued (d : DieState) : List FwEvent := d.events.take (1024 - d.fw.length)

/-- The oldest event of the queue whose key no running event holds (R221). -/
def DieState.dispatchable (d : DieState) : Option FwEvent := d.queued.find? fun e => !d.keyTaken e.key

/-- Whether the front end of a die can handle an event now: a core runs it, or it is dispatched, because it is the oldest that can be and a
core is idle (R221). An event that is not queued arises in this turn, behind all that are. -/
def State.fwMay (s : State) (d : Nat) (key : Option Nat) (hit : FwEvent → Bool) : Bool :=
  let x := s.die d
  x.fw.any (fun c => hit c.running) || ((s.fwIdle d).isSome && !x.keyTaken key && x.dispatchable.all hit)

/-- A handler commits: its event leaves the queue or the core that runs it, and its effects are journalled, 32 to a record; the record
committed last is kept (R222; log entry 44). The effects themselves are in the state. -/
def State.fwCommit (s : State) (d : Nat) (hit : FwEvent → Bool) : State :=
  let x := s.die d
  if x.buffer = [] ∧ !(x.events.any hit) ∧ !(x.fw.any fun c => hit c.running) then s
  else
    let n := (x.buffer.length - 1) / 32 * 32
    let fresh (u : Upset) : Bool := x.buffer = [] || !(u == .journalCopy d 0 || u == .journalCopy d 1)
    ({ s with upsets := s.upsets.filter fresh } : State).setDie { x with
                      events := x.events.filter (fun e => !hit e), fw := x.fw.filter (fun c => !hit c.running), buffer := [],
                      journal := if x.buffer = [] then x.journal else x.buffer.drop n }

/-- An event whose handler must wait gives its core up and goes to the end of the queue, ahead of the later ones of its key (DESIGN CHOICE, log
entry 93: R221 says nothing of a handler that waits). -/
def State.fwRequeue (s : State) (d : Nat) (hit : FwEvent → Bool) : State :=
  let x := s.die d
  let back := ((x.fw.map (·.running)).filter hit) ++ x.events.filter hit
  if back = [] then s
  else
    let keys := back.filterMap FwEvent.key
    let follows (e : FwEvent) : Bool := !hit e && e.key.any keys.contains
    s.setDie { x with fw := x.fw.filter (fun c => !hit c.running),
                      events := x.events.filter (fun e => !hit e && !follows e) ++ back ++ x.events.filter follows }

/-! ### Requests and pins (R120, R216, R426) -/

/-- Whether an address lies on a page with P = 1. -/
def State.isResident (s : State) (k : BitVec 16) (va : Nat) : Bool :=
  match s.ctx? k with
  | none => false
  | some x => match walkLevels s k [] va [0, 1, 2, 3] x.root with
    | .leaf _ true => true
    | _ => false

/-- Split page requests whose pages have all been decided complete, with 1 where one was refused (R216, R426). -/
def State.settlePages (s : State) : State :=
  s.waitTable.foldl (fun t e =>
    match e.op, e.done with
    | .pages vas, none =>
      let refused (va : Nat) : Bool := match s.pageReq? e.ctx (some e.cid) va with
        | some r => r.status == 2
        | none => !s.isResident e.ctx va
      if vas.all fun va => s.isResident e.ctx va || refused va then
        let w : Word := if vas.any refused then 1 else 0
        { t with waitTable := t.waitTable.map (fun v => if v.die = e.die ∧ v.index = e.index then { v with done := some (w, s.cycle v.die) } else v),
                 pageReqs := t.pageReqs.filter fun r => !(r.cid == some e.cid && r.status == 2 && vas.contains r.va) }
      else t
    | _, _ => t) s

/-- PAGE_MAKE_RESIDENT: the front end makes a requested page resident, or finds that it cannot (R480); the page is pinned for
the cohorts that asked by PGREQ (R120). -/
def execPageMakeResident (ctx : BitVec 16) (va : Nat) (s : State) : Out :=
  let base := s.pageBase ctx va
  let hit (r : PageReq) : Bool := r.ctx == ctx && r.va == base
  let mine (e : FwEvent) : Bool := e == .pageRequest ctx base || e == .eviction ctx base
  if (s.pageReqs.any fun r => hit r && r.status == 0) = false then .next (s.fwCommit 0 mine)
  else if s.fwMay 0 none mine = false then .next s
  else match s.makeResident ctx va with
    | .busy t => .next ((t.fwCommit 0 noEvent).fwRequeue 0 mine)
    | .refused t =>
      .next (({ t with pageReqs := t.pageReqs.map fun r => if hit r then { r with status := 2 } else r }.settlePages).fwCommit 0 mine)
    | .done t =>
      let pins := (t.pageReqs.filter fun r => hit r && r.pin).filterMap fun r => r.cid.map fun c => (r.va, c, t.cycle 0)
      let t1 := match t.ctx? ctx with
        | some x => t.setCtx { x with pinned := x.pinned ++ pins }
        | none => t
      .next (({ t1 with pageReqs := t1.pageReqs.filter fun r => !hit r }.settlePages).fwCommit 0 mine)

/-- PAGE_PIN_EXPIRY: pins of a page end 2^20 cycles after it was made resident (R120). -/
def execPagePinExpiry (ctx : BitVec 16) (va : Nat) (s : State) : Out :=
  match s.ctx? ctx with
  | none => .next s
  | some x => .next (s.setCtx { x with pinned := x.pinned.filter fun p => !(p.1 == s.pageBase ctx va && p.2.2 + 2 ^ 20 ≤ s.cycle 0) })

/-! ### The front end's accesses (R201, R203, R231) -/

/-- The front end consumes uncorrectable data of a context: the context stops with group 13, reason 5, and their source (R300, R302). -/
def State.feStop (s : State) (k : BitVec 16) (a : Nat) : State :=
  s.stopContext k 13 (hwDetail (s.unitOfKey a).1 5 (s.unitOfKey a).2) true

/-- What stands of a handler that does not commit: the stop of a context whose data it consumed. -/
def State.stoppedBy (s t : State) : Option State :=
  let rose (x : Ctx) : Option Ctx := (t.ctx? x.ctxid).bind fun y => if y.halt && !x.halt then some y else none
  if s.ctxs.any fun x => (rose x).isSome then
    some { s with
      cohorts := t.cohorts, saved := t.saved,
      ctxs := s.ctxs.map fun x => match rose x with
        | some y => { y with resident := x.resident, pinned := x.pinned }
        | none => x }
  else none

/-- Why the front end cannot access a run of bytes: it must wait, or its context has stopped over them; or the address fails. -/
inductive FeFail where
  | busy (s : State)
  | bad (va : Nat)

/-- Every page of a run of bytes is made resident (R201). -/
def feResident (k : BitVec 16) (x : Ctx) (acc : Acc) : List (Nat × Nat) → State → Except FeFail State
  | [], s => .ok s
  | (va, _) :: rest, s =>
    match s.xlat .front 0 x acc (BitVec.ofNat 64 va) with
    | .ok _ _ _ _ => feResident k x acc rest s
    | .nonres _ =>
      match s.makeResident k va with
      | .done t => feResident k x acc rest t
      | .busy t => .error (.busy t)
      | .refused _ => .error (.bad va)
    | _ => .error (.bad va)

/-- Bytes read by the front end through a context. -/
def State.feRead (s : State) (k : BitVec 16) (va n : Nat) : Except FeFail (List Byte × State) :=
  match s.ctx? k with
  | none => .error (.bad va)
  | some x =>
    match feResident k x .load (pagePieces (n / 8192 + 2) va n) s with
    | .error e => .error e
    | .ok t =>
      match t.vaRead .front 0 ((t.ctx? k).getD x) va n with
      | .ok r => .ok r
      | .error (.fault _ _ a) | .error (.nonres a) => .error (.bad a)
      | .error (.poisoned a) | .error (.data a) =>
        .error (.busy ((t.vaTouch .front 0 ((t.ctx? k).getD x) .load (pagePieces (n / 8192 + 2) va n)).feStop k a))

/-- Bytes written by the front end through a context, outside its journal. -/
def State.feStore (s : State) (k : BitVec 16) (va : Nat) (bs : List Byte) : Except FeFail State :=
  match s.ctx? k with
  | none => .error (.bad va)
  | some x =>
    match feResident k x .store (pagePieces (bs.length / 8192 + 2) va bs.length) s with
    | .error e => .error e
    | .ok t =>
      if t.vaTaken .front x va bs.length then .error (.busy t)
      else match t.vaWrite .front 0 ((t.ctx? k).getD x) va bs with
      | .ok u => .ok u
      | .error (.fault _ _ a) | .error (.nonres a) => .error (.bad a)
      | .error (.poisoned a) | .error (.data a) => .error (.busy (s.feStop k a))

/-- Bytes written through a context are effects of the handler's journal, page by page (R222). -/
def noteWrites (k : BitVec 16) : List (Nat × Nat) → List Byte → State → State
  | [], _, s => s
  | (va, n) :: ps, bs, s =>
    noteWrites k ps (bs.drop n) (match (s.ctx? k).map fun x => s.xlat .front 0 x .store (BitVec.ofNat 64 va) with
      | some (.ok key _ _ _) => if inRegs key then s else s.fwNote (.write key (bs.take n))
      | _ => s)

/-- Bytes written by a handler through a context (R222). -/
def State.feWrite (s : State) (k : BitVec 16) (va : Nat) (bs : List Byte) : Except FeFail State :=
  match s.feStore k va bs with
  | .error e => .error e
  | .ok t => .ok (noteWrites k (pagePieces (bs.length / 8192 + 2) va bs.length) bs t)

end Sys2Proof.Machine
end

