-- ==== Sys2Proof/Machine/Launch.lean ====
section
/-!
DEFINITION. Machine/Launch.lean: queues, packets and launches (R196 to R214): the checks of a packet, acceptance, start and
completion, error records and signals, bundles, and EXIT with its successor launches (R381, R382).
-/

namespace Sys2Proof.Machine

/-- What the front end finds when it checks: it waits for frames, it refuses with a code and a detail, or it goes on. -/
inductive Checked (α : Type) where
  | wait (s : State)
  | bad (code detail : Nat) (s : State)
  | good (a : α) (s : State)

/-- Bits of a word of a packet (R198, R202). -/
def wordBits (ws : List DWord) (k hi lo : Nat) : Nat := bitsOf (ws.getD k 0).toNat hi lo

/-! ### A handler's outcome (R222) -/

/-- The outcome of the front end's work: it commits, or, where it must wait for frames, it will begin again, and nothing it did stands but a
stop (R222). -/
def feOut (s : State) (hit : FwEvent → Bool) (r : Except State State) : Out :=
  match r with
  | .ok t => .next (t.fwCommit 0 hit)
  | .error t => .next (((s.stoppedBy t).getD s).fwRequeue 0 hit)

/-- Whether an event is a notify of a queue. -/
def isNotify (q : Nat) : FwEvent → Bool
  | .notify k _ => k == q
  | _ => false

/-- Whether an event is the completion of a packet. -/
def isCompletion (q : Nat) (seq : Word) (e : FwEvent) : Bool := e == .completion q seq

/-! ### Error records and signals (R206, R208) -/

/-- The 32 bytes of an error record (R206). -/
def errorBytes (seq : Word) (code detail count : Nat) : List Byte :=
  natBytes 32 (packBits [(0, seq.toNat), (32, code), (64, detail % 2 ^ 64), (128, count)])

/-- An error of a queue: its count goes up and the record is written; `true` if it was. A record that cannot be written stays unwritten, and
the queue breaks (R201, R206). -/
def State.errTry (s : State) (queue : Nat) (seq : Word) (code detail : Nat) : Except State (State × Bool) :=
  match s.queue? queue with
  | none => .ok (s, true)
  | some q =>
    let n := satAdd q.errors.toNat 1
    let s1 := s.setQueue { q with errors := BitVec.ofNat 32 n }
    match s1.feWrite q.ctx q.errrec (errorBytes seq code detail n) with
    | .ok t => .ok (t, true)
    | .error (.busy t) => .error t
    | .error (.bad _) => .ok (s1.setQueue { q with errors := BitVec.ofNat 32 n, broken := true, widx := none }, false)

/-- An error of a queue, whether or not its record could be written. -/
def State.errRecord (s : State) (queue : Nat) (seq : Word) (code detail : Nat) : Except State State :=
  match s.errTry queue seq code detail with
  | .ok t => .ok t.1
  | .error t => .error t

/-- A queue breaks with an error: the record holds the sequence number (R201, R206, R223). -/
def State.breakQueue (s : State) (queue : Nat) (seq : Word) (code detail : Nat) : Except State State :=
  match s.queue? queue with
  | none => .ok s
  | some q => (s.setQueue { q with broken := true, widx := none }).errRecord queue seq code detail

/-- A signal goes down by 1 as an atomic at its home; 0 names none, and one that cannot be reached is left (R208; log
entry 17). -/
def State.signalDec (s : State) (k : BitVec 16) (va : Nat) : Except State State :=
  if va = 0 ∨ va % 8 ≠ 0 then .ok s
  else match s.feRead k va 8 with
    | .error (.busy t) => .error t
    | .error (.bad _) => .ok s
    | .ok (bs, s1) =>
      match s1.feStore k va (natBytes 8 ((leNat bs + 2 ^ 64 - 1) % 2 ^ 64)) with
      | .ok t => .ok t
      | .error (.busy t) => .error t
      | .error (.bad _) => .ok s1

/-! ### The table of packets (R201, R208, R223) -/

/-- Replaces a packet. -/
def State.setPacket (s : State) (p : PacketEntry) : State :=
  { s with packets := s.packets.map fun q => if q.queue = p.queue ∧ q.seq = p.seq then p else q }

/-- Packets that are done leave the table, but for those that a later packet may still look at (R211, R213). -/
def State.prunePackets (s : State) : State :=
  { s with packets := s.packets.filter fun p =>
      !p.done || (s.queues.any fun q => q.num == p.queue && q.lastSeq == some p.seq) ||
      s.packets.any fun r => r.queue == p.queue && !r.done && r.prev == some p.seq }

/-- A packet completes: its DONE bit is set and its signal goes down in one step (R208), and its launches leave. -/
def State.completePacket (s : State) (p : PacketEntry) : Except State State :=
  match s.signalDec p.ctx p.signal with
  | .error t => .error t
  | .ok s1 =>
    let s2 := (s1.setPacket { p with done := true, started := true }).fwNote (.done p.queue p.seq)
    .ok { s2 with launches := s2.launches.filter fun l => !(l.queue == p.queue && l.seq == p.seq) }.prunePackets

/-- A packet is refused: the error record, then completion (R206). Where the record cannot be written the queue breaks, and the packet is
not completed (R201, R206). -/
def State.refusePacket (s : State) (p : PacketEntry) (code detail : Nat) : Except State State :=
  match s.errTry p.queue p.seq code detail with
  | .error t => .error t
  | .ok (s1, true) => s1.completePacket { p with refused := true }
  | .ok (s1, false) => .ok (s1.setPacket { p with refused := true })

/-- An upset of a copy of a packet's entry in its queue table (R223). -/
def PacketEntry.copyBad (p : PacketEntry) (copy : Nat) : Upset := .tableCopy p.queue p.seq copy

/-- What an entry whose copies are both uncorrectable leaves in the error record: the highest accepted SEQ and the lowest SEQ without DONE
(R223). -/
def State.lostDetail (s : State) (q : Queue) : Nat :=
  let open_ := (s.packets.filter fun p => p.queue == q.num && !p.done).map (·.seq)
  let high := q.next - 1
  let low := (bestBy (fun (a b : Word) => (high - b).toNat < (high - a).toNat) open_).getD q.next
  high.toNat + low.toNat * 2 ^ 32

/-- A packet's entry is read from its queue table: `some` state in which it can be used, a bad copy being written again from the other; or
`none`, with what follows: both copies are lost, and the queue breaks with code 9 (R223). -/
def State.readEntry (s : State) (p : PacketEntry) : Option State × Except State State :=
  let bad (i : Nat) : Bool := s.upsets.contains (p.copyBad i)
  if bad 0 && bad 1 then
    (none, match s.queue? p.queue with
      | none => .ok s
      | some q => if q.broken then .ok s else s.breakQueue p.queue p.seq 9 (s.lostDetail q))
  else (some { s with upsets := s.upsets.filter fun u => !(u == p.copyBad 0 || u == p.copyBad 1) }, .ok s)

/-- An event of the front end about a packet, on its entry as it is read (R223). -/
def withEntry (s : State) (queue : Nat) (seq : Word) (hit : FwEvent → Bool) (k : State → PacketEntry → Out) : Out :=
  match s.packet? queue seq with
  | none => .next (s.fwCommit 0 hit)
  | some p =>
    if p.done then .next (s.fwCommit 0 hit)
    else match s.readEntry p with
      | (some t, _) => k t p
      | (none, r) => feOut s hit r

/-! ### Kernel descriptors and range lists (R203, R205) -/

/-- A descriptor's fields (R203). -/
def kernelOf (kdesc : Nat) (v : Nat) : Kernel :=
  { kdesc := BitVec.ofNat 64 kdesc, code := BitVec.ofNat 64 (bitsOf v 52 0), entry := BitVec.ofNat 32 (bitsOf v 95 64),
    cohort := bitsOf v 135 128, wgsize := bitsOf v 140 136, regs := bitsOf v 152 144, rows := bitsOf v 161 153,
    tmem := (bitsOf v 181 162 + 8191) / 8192 * 8192, prio := BitVec.ofNat 4 (bitsOf v 185 182),
    comm := if bitsOf v 190 190 = 1 then some (bitsOf v 189 186) else none, qg := bitsOf v 191 191 = 1, task := bitsOf v 192 192 = 1,
    indigo := bitsOf v 193 193 = 1 }

/-- Whether a descriptor has a reserved bit set (R203). -/
def kernelReserved (v : Nat) : Bool :=
  bitsOf v 511 194 != 0 || bitsOf v 143 141 != 0 || bitsOf v 127 96 != 0 || bitsOf v 63 53 != 0

/-- The limits of R21, R182 and R295 on a kernel. -/
def Kernel.ok (k : Kernel) (rawTmem : Nat) : Bool :=
  [8, 16, 32, 64].contains k.cohort && 1 ≤ k.wgsize && k.wgsize ≤ 16 && k.wgsize * k.cohort ≤ 1024 && 1 ≤ k.regs && k.regs ≤ 256 &&
  k.rows ≤ k.regs && rawTmem ≤ 786432 && !(k.task && (k.wgsize != 1 || rawTmem != 0 || k.qg)) &&
  (match k.comm with
   | some j => j < k.wgsize
   | none => true) &&
  !(k.indigo && (k.task || k.qg || k.comm.isSome))

/-- The kernel that KDESC names, checked in the order of R206. -/
def State.readKernel (s : State) (k : BitVec 16) (kdesc : Nat) : Checked Kernel :=
  if kdesc % 64 ≠ 0 then .bad 4 kdesc s
  else match s.feRead k kdesc 64 with
    | .error (.busy t) => .wait t
    | .error (.bad _) => .bad 4 kdesc s
    | .ok (bs, t) =>
      let v := leNat bs
      if kernelReserved v then .bad 3 kdesc t
      else if (kernelOf kdesc v).ok (bitsOf v 181 162) = false then .bad 4 kdesc t
      else .good (kernelOf kdesc v) t

/-- The entries of a range list from an address: up to 256, ended by LEN = 0 (R205). The first malformed or unreadable entry is
refused with its address. DESIGN CHOICE: R205 does not say whether the ending entry may stand after 256 others, nor whether its other fields
are judged; it may, and they are not (log entry 85). -/
def readRanges (k : BitVec 16) : Nat → Nat → State → Checked (List Range)
  | 0, va, s => .bad 11 va s
  | n + 1, va, s =>
    match s.feRead k va 32 with
    | .error (.busy t) => .wait t
    | .error (.bad _) => .bad 11 va s
    | .ok (bs, t) =>
      let v := leNat bs
      let r : Range := { va := bitsOf v 52 0, len := bitsOf v 127 64, host := bitsOf v 191 128 }
      if r.len = 0 then .good [] t
      else if n = 0 ∨ bitsOf v 255 192 ≠ 0 ∨ bitsOf v 63 53 ≠ 0 ∨ r.va % 8192 ≠ 0 ∨ r.len % 8192 ≠ 0 ∨ r.host % 8192 ≠ 0 then .bad 11 va t
      else match readRanges k n (va + 32) t with
        | .good rs u => .good (r :: rs) u
        | x => x

/-- The range list that RLIST names; 0 names none (R202, R205). -/
def State.rangeList (s : State) (k : BitVec 16) (va : Nat) : Checked (List Range) :=
  if va = 0 then .good [] s else if va % 32 ≠ 0 then .bad 11 va s else readRanges k 257 va s

/-! ### Checking a launch (R202, R206) -/

/-- The byte offset of the first word among W1 to W7 with a reserved bit set (R202). -/
def launchReserved (ws : List DWord) : Option Nat :=
  if wordBits ws 1 63 53 ≠ 0 then some 8
  else if wordBits ws 3 63 53 ≠ 0 then some 24
  else if ws.getD 7 0 ≠ 0 then some 56
  else none

/-- Steps 3 to 10 of R206 on W1 to W7. -/
def State.checkLaunch (s : State) (k : BitVec 16) (ws : List DWord) : Checked LaunchSpec :=
  match launchReserved ws with
  | some off => .bad 3 off s
  | none =>
    if ((s.ctx? k).bind (·.trap)).isNone then .bad 7 0 s
    else match s.readKernel k (ws.getD 1 0).toNat with
      | .wait t => .wait t
      | .bad code d t => .bad code d t
      | .good kern t =>
        let nwg := wordBits ws 3 31 0
        if nwg = 0 ∨ (kern.qg ∧ nwg % 4 ≠ 0) then .bad 5 24 t
        else if wordBits ws 3 47 32 = 0 then .bad 6 24 t
        else match t.rangeList k (ws.getD 6 0).toNat with
          | .wait u => .wait u
          | .bad code d u => .bad code d u
          | .good rs u =>
            .good { kern := kern, args := ws.getD 2 0, nwg := nwg, mask := wordBits ws 3 47 32,
                    prio := if wordBits ws 3 52 52 = 1 then BitVec.ofNat 4 (wordBits ws 3 51 48) else kern.prio,
                    spill := ws.getD 4 0, signal := (ws.getD 5 0).toNat, ranges := rs } u

/-- The workgroups that each die of DIEMASK takes (R204): with D dies and n workgroups, or n ÷ 4 quad groups taken whole,
number i goes to the (floor(i × D ÷ n) + 1)-th lowest. -/
def dieShares (mask nwg : Nat) (qg : Bool) : List DieShare :=
  let dies := (List.range 16).filter fun d => mask.testBit d
  let n := if qg then nwg / 4 else nwg
  let u := if qg then 4 else 1
  let first (k : Nat) : Nat := u * ((k * n + dies.length - 1) / dies.length)
  (dies.mapIdx fun k d => { die := d, next := first k, stop := first (k + 1), passed := 0, target := none : DieShare }).filter
    fun h => h.next < h.stop

/-- The launch that a specification asks for. -/
def LaunchSpec.launch (x : LaunchSpec) (id queue : Nat) (seq : Word) (ctx : BitVec 16) (started : Bool) (pred : Option Word)
    (spawner : Option Nat) : Launch :=
  { id := id, queue := queue, seq := seq, ctx := ctx, kern := x.kern, args := x.args, nwg := x.nwg, prio := x.prio, spill := x.spill,
    signal := x.signal, ranges := x.ranges, shares := dieShares x.mask x.nwg x.kern.qg, exited := 0, started := started,
    successor := spawner.isSome, pred := pred, spawner := spawner, degraded := false, complete := false }

/-- A launch is listed. -/
def State.addLaunch (s : State) (mk : Nat → Launch) : State := { s with launches := s.launches ++ [mk s.fresh], fresh := s.fresh + 1 }

/-! ### The blocks of a bundle (R206, R209) -/

/-- The entries of a copy list are well formed: each length is a multiple of 128 and each last word is 0 (R209). -/
def copyListOk (k : BitVec 16) : Nat → Nat → State → Checked Unit
  | 0, _, s => .good () s
  | n + 1, va, s =>
    match s.feRead k va 32 with
    | .error (.busy t) => .wait t
    | .error (.bad _) => .bad 10 va s
    | .ok (bs, t) => if recWord bs 2 % 128 ≠ 0 ∨ recWord bs 3 ≠ 0 then .bad 10 va t else copyListOk k n (va + 32) t

/-- The entries of a collective program are well formed (R210). -/
def progOk (k : BitVec 16) : Nat → Nat → State → Checked Unit
  | 0, _, s => .good () s
  | n + 1, va, s =>
    match s.feRead k va 32 with
    | .error (.busy t) => .wait t
    | .error (.bad _) => .bad 10 va s
    | .ok (bs, t) =>
      if recWord bs 1 % 256 ≠ 0 ∨ recWord bs 2 = 0 ∨ recWord bs 2 % 256 ≠ 0 then .bad 10 va t else progOk k n (va + 32) t

/-- One sub-launch block is read and checked (R209). -/
def State.checkBlock (s : State) (k : BitVec 16) (va : Nat) : Checked SubLaunch :=
  if va % 64 ≠ 0 then .bad 10 va s
  else match s.feRead k va 64 with
    | .error (.busy t) => .wait t
    | .error (.bad _) => .bad 10 va s
    | .ok (bs, t) =>
      let ws := (List.range 8).map fun i => BitVec.ofNat 64 (recWord bs i)
      let w (i : Nat) : Nat := recWord bs i
      if w 0 / 256 ≠ 0 then .bad 10 va t
      else if w 0 = 1 then
        if w 5 ≠ 0 then .bad 10 va t
        else match t.checkLaunch k ws with
          | .wait u => .wait u
          | .bad _ _ u => .bad 10 va u
          | .good x u => .good (.grid x) u
      else if w 0 = 2 then
        if w 2 = 0 ∨ 65536 < w 2 then .bad 10 va t
        else match copyListOk k (w 2) (w 1) t with
          | .wait u => .wait u
          | .bad _ _ u => .bad 10 va u
          | .good _ u => .good (.copies (w 1) (w 2)) u
      else if w 0 = 3 then
        if w 2 = 0 ∨ 256 < w 2 ∨ w 3 / 2 ^ 32 ≠ 0 then .bad 10 va t
        else match progOk k (w 2) (w 1) t with
          | .wait u => .wait u
          | .bad _ _ u => .bad 10 va u
          | .good _ u => .good (.prog (w 1) (w 2) (BitVec.ofNat 32 (w 3))) u
      else .bad 10 va t

/-- Sub-launch blocks are checked in order; the first failure refuses the bundle (R206, R209). -/
def checkBlocks (k : BitVec 16) : List Nat → State → Checked (List SubLaunch)
  | [], s => .good [] s
  | va :: vas, s =>
    match s.checkBlock k va with
    | .wait t => .wait t
    | .bad c d t => .bad c d t
    | .good b t =>
      match checkBlocks k vas t with
      | .wait u => .wait u
      | .bad c d u => .bad c d u
      | .good bs u => .good (b :: bs) u

/-- Whether a checked sub-launch is a grid. -/
def SubLaunch.isGrid : SubLaunch → Bool
  | .grid _ => true
  | _ => false

/-! ### Acceptance (R201, R206, R207) -/

/-- A queue's packets that are not done. -/
def State.unfinished (s : State) (q : Nat) : Nat := (s.packets.filter fun p => p.queue == q && !p.done).length

/-- The byte offset of the first reserved word, or INVAL range, that a NOP, an INVAL or a BUNDLE breaks (R202, R209). -/
def packetReserved (ws : List DWord) (type : Nat) : Option Nat :=
  ((List.range 8).find? fun k =>
    if k = 0 then false
    else if type = 4 then k ≠ 5 ∧ ws.getD k 0 ≠ 0
    else if type = 2 then 6 ≤ k ∧ ws.getD k 0 ≠ 0
    else ((k = 4 ∨ 6 ≤ k) ∧ ws.getD k 0 ≠ 0) ∨ (k = 2 ∧ (ws.getD 2 0).toNat % 8192 ≠ 0) ∨
      (k = 3 ∧ ws.getD 3 0 ≠ 3 ∧ ws.getD 3 0 ≠ 4)).map (8 * ·)

/-! ### Start (R211) -/

/-- Whether every earlier packet of a packet's queue has completed. -/
def State.earlierDone (s : State) (p : PacketEntry) : Bool :=
  s.packets.all fun r => r.queue != p.queue || r.done || r.seq == p.seq || 2 ^ 31 ≤ (p.seq - r.seq).toNat

/-- Whether every workgroup of a launch has been placed. -/
def Launch.placed (l : Launch) : Bool := l.shares.all fun h => h.stop ≤ h.next

/-- Whether a packet may start (R211). -/
def State.mayStart (s : State) (p : PacketEntry) : Bool :=
  let h := (p.words.getD 0 0).toNat
  !p.started && !p.refused && !p.done &&
  (bitsOf h 1 1 == 0 || s.earlierDone p ||
    (bitsOf h 2 2 == 1 && (p.type == 1 || p.type == 2) && (match p.prev.bind (s.packet? p.queue) with
      | some r => r.started && !r.refused && r.grids &&
          (s.launches.filter fun l => l.queue == r.queue && l.seq == r.seq && !l.successor).all Launch.placed
      | none => false)))

/-! ### The packet as it is accepted (R201, R206) -/

/-- The addresses of a BUNDLE's blocks, in W1 to W4 order (R209). -/
def PacketEntry.blocks (p : PacketEntry) : List Nat := ((List.range 4).map fun k => (p.words.getD (k + 1) 0).toNat).filter (· ≠ 0)

/-- A BUNDLE's blocks are checked at its acceptance; it is refused with code 10, or its sub-launches are kept for its start (R206, R209). DESIGN
CHOICE: a bundle that names no block gives detail 0 (log entry 82). -/
def State.judgeBundle (s : State) (p : PacketEntry) : Except State State :=
  if p.blocks = [] then s.refusePacket p 10 0
  else match checkBlocks p.ctx p.blocks s with
    | .wait t => .error t
    | .bad code d t => t.refusePacket p code d
    | .good bs t => .ok (t.setPacket { p with subs := bs, grids := bs.any SubLaunch.isGrid })

/-- The checks of an accepted packet in the order of R206, and what follows from them. -/
def State.judgePacket (s : State) (p : PacketEntry) : Except State State :=
  let h := (p.words.getD 0 0).toNat
  let type := p.type
  if type < 1 ∨ 4 < type then s.refusePacket p 2 0
  else if bitsOf h 31 16 ≠ 0 ∨ bitsOf h 7 3 ≠ 0 ∨ (bitsOf h 2 2 = 1 ∧ bitsOf h 1 1 = 0) then s.refusePacket p 3 0
  else if type = 1 then
    match s.checkLaunch p.ctx p.words with
    | .wait t => .error t
    | .bad code d t => t.refusePacket p code d
    | .good x t => .ok (t.addLaunch fun id => x.launch id p.queue p.seq p.ctx false p.prev none)
  else match packetReserved p.words type with
    | some off => s.refusePacket p 3 off
    | none =>
      if type = 2 then s.judgeBundle p
      else if type = 4 ∧ s.mayStart p ∧ s.halted p.ctx = false then s.completePacket p else .ok s

/-- A packet whose header matches E is copied into the table, ACCIDX takes E, and it is judged (R201). -/
def State.takePacket (s : State) (q : Queue) (slot : Nat) : Except State State :=
  match s.feRead q.ctx slot 64 with
  | .error (.busy t) => .error t
  | .error (.bad a) => s.breakQueue q.num q.next 14 a
  | .ok (bs, s1) =>
    let e := q.next + 1
    match s1.feWrite q.ctx q.accidx (natBytes 8 e.toNat) with
    | .error (.busy t) => .error t
    | .error (.bad a) => s1.breakQueue q.num q.next 14 a
    | .ok s2 =>
      let ws := (List.range 8).map fun k => BitVec.ofNat 64 (recWord bs k)
      let p : PacketEntry :=
        { queue := q.num, seq := q.next, words := ws, started := false, refused := false, done := false, signal := (ws.getD 5 0).toNat,
          ctx := q.ctx, prev := q.lastSeq, copies := [], grids := bitsOf (ws.getD 0 0).toNat 15 8 = 1, subs := [] }
      let s3 := { s2.setQueue { q with next := e, lastSeq := some q.next } with
        packets := s2.packets ++ [p], upsets := s2.upsets.filter fun u => !(u == p.copyBad 0 || u == p.copyBad 1) }
      (s3.fwNote (.entry p.queue p.seq)).judgePacket p

/-- PACKET_ACCEPT: the front end reads the header of slot E and accepts the packet, waits for the next notify, or breaks the
queue (R201). -/
def execPacketAccept (queue : Nat) (s : State) : Out :=
  match s.queue? queue with
  | none => .next (s.fwCommit 0 (isNotify queue))
  | some q =>
    let size := 2 ^ (q.logsz + 4)
    let ahead := ((q.widx.getD q.next) - q.next).toNat
    if s.fwMay 0 (some queue) (isNotify queue) = false then .next s
    else if q.broken ∨ ahead = 0 ∨ size < ahead ∨ 256 ≤ s.unfinished queue then .next (s.fwCommit 0 (isNotify queue))
    else
      let slot := q.ring + 64 * (q.next.toNat % size)
      feOut s (isNotify queue) <|
        match s.feRead q.ctx slot 8 with
        | .error (.busy t) => .error t
        | .error (.bad a) => s.breakQueue queue q.next 14 a
        | .ok (bs, s1) =>
          let h := leNat bs
          let seq := BitVec.ofNat 32 (bitsOf h 63 32)
          if h % 2 = 1 ∧ seq = q.next then s1.takePacket q slot
          else if h % 2 = 0 ∨ seq = q.next - BitVec.ofNat 32 size then .ok (s1.setQueue { q with widx := none })
          else s1.breakQueue queue q.next 1 h

/-! ### Start of LAUNCH and INVAL (R202, R204) -/

/-- LAUNCH: the packet starts, and its launch is offered for placement (R204, R211). -/
def execLaunch (queue : Nat) (seq : Word) (s : State) : Out :=
  withEntry s queue seq noEvent fun s p =>
    if p.type ≠ 1 ∨ s.mayStart p = false then .next s
    else
      let s1 := s.setPacket { p with started := true }
      .next { s1 with launches := s1.launches.map fun (l : Launch) => if l.queue = queue ∧ l.seq = seq ∧ l.successor = false then { l with started := true } else l }

/-- INVAL: the invalidation of R116 at die 0 or the whole package; the packet completes once the accesses translated before are performed
(R116, R202, R207). A stopped context holds its packets. -/
def execInval (queue : Nat) (seq : Word) (s : State) : Out :=
  withEntry s queue seq noEvent fun s p =>
    if p.type ≠ 3 ∨ s.mayStart p = false ∨ s.halted p.ctx = true then .next s
    else
      let a := (p.words.getD 1 0).toNat
      let n := (p.words.getD 2 0).toNat
      let all := wordBits p.words 3 2 0 = 4
      let inC (k : Nat) : Bool := all || dieOf k == 0
      let s1 := if n = 0 then s else s.invalidate p.ctx (some (a, n)) inC (fun q => all || q / 24 == 0) fun d => all || d == 0
      if n ≠ 0 ∧ s1.translated p.ctx (some (a, n)) inC then .next s1 else feOut s1 noEvent (s1.completePacket p)

/-! ### Bundles (R209) -/

/-- The job that performs a copy list on die 0's copy engines (R209). -/
def copyListJob (id : Nat) (k : BitVec 16) (list count : Nat) : Job :=
  { id := id, kind := .copyList, cid := id, core := 0, place := 0, wg := id, launch := id, ctx := k, pc := 0, opc := 0xA0, recAddr := 0,
    line0 := 0, nlines := 0, ilv := 0, soff := 0, trec := none, coords := [], indexes := [], idxVa := list, off := 0, ctrVa := 0,
    ctrPa := 0, scope := .pkg, epi := none, srcRank := 0, srcCore := 0, srcLine := 0, reads := [], writes := [], next := 0,
    total := count, satSeen := false, status := 0, pausedAt := 0, pre := [], pol := 0, landed := [], seqNo := 0, role := .single, windows := [],
    winDone := 0, mate := none }

/-- One checked sub-launch starts. -/
def State.startSub (s : State) (p : PacketEntry) (b : SubLaunch) : State :=
  match b with
  | .grid x => s.addLaunch fun id => x.launch id p.queue p.seq p.ctx true p.prev none
  | .copies list count =>
    let t := { s with jobs := s.jobs ++ [copyListJob s.fresh p.ctx list count], fresh := s.fresh + 1 }
    match t.packet? p.queue p.seq with
    | some q => t.setPacket { q with copies := s.fresh :: q.copies }
    | none => t
  | .prog list count tag =>
    { s with progs := s.progs ++ [{ id := s.fresh, queue := p.queue, seq := p.seq, ctx := p.ctx, list := BitVec.ofNat 64 list, count := count,
                                    tag := tag, next := 0 }], fresh := s.fresh + 1 }

/-- BUNDLE: its sub-launches start in one event (R209). A stopped context holds its packets (R207). -/
def execBundle (queue : Nat) (seq : Word) (s : State) : Out :=
  withEntry s queue seq noEvent fun s p =>
    if p.type ≠ 2 ∨ s.mayStart p = false ∨ s.halted p.ctx = true then .next s
    else .next ((p.subs.foldl (fun u b => u.startSub p b) (s.setPacket { p with started := true })).fwCommit 0 noEvent)

/-! ### Completion (R207, R208) -/

/-- Whether every write of a launch's cohorts and jobs has been performed (R207). -/
def State.writesDone (s : State) (l : Launch) : Bool :=
  !(s.jobs.any fun j => j.launch == l.id) && !(s.cores.any fun k => k.wc.any fun w => w.owners.any fun o => o.1 == l.id)

/-- Whether a launch has run to its end: every workgroup has exited, its writes are performed, and the launches it spawned are
complete (R207). -/
def State.launchEnded (s : State) (l : Launch) : Bool :=
  let joins := (s.die 0).events ++ (s.die 0).fw.map (·.running)
  l.started && !l.complete && l.nwg ≤ l.exited && s.writesDone l && (s.launches.all fun m => m.spawner != some l.id || m.complete) &&
    !(joins.any fun e => match e with
      | .joinZero _ id _ => id == l.id
      | _ => false)

/-- Launches of a packet that have ended are marked, the latest first; a successor's own signal goes down (R207, R214). -/
def endLaunches (queue : Nat) (seq : Word) : List Nat → State → Except State State
  | [], s => .ok s
  | id :: ids, s =>
    match s.launch? id with
    | none => endLaunches queue seq ids s
    | some l =>
      if s.launchEnded l = false then endLaunches queue seq ids s
      else
        let s1 := s.setLaunch { l with complete := true }
        match (if l.successor then s1.signalDec l.ctx l.signal else .ok s1) with
        | .error t => .error t
        | .ok t => endLaunches queue seq ids t

/-- What is left to do for a packet whose launches have been looked at: it completes once its launches, copy lists and programs have, with
code 12 where a lane died (R206, R207, R236). -/
def State.endPacket (s : State) (p : PacketEntry) : Except State State :=
  let ls := s.launches.filter fun l => l.queue == p.queue && l.seq == p.seq
  if ls.all (·.complete) && !(s.jobs.any fun j => p.copies.contains j.id) && !(s.progs.any fun g => g.queue == p.queue && g.seq == p.seq) then
    if ls.any (·.degraded) then
      match s.errTry p.queue p.seq 12 0 with
      | .error t => .error t
      | .ok (t, true) => t.completePacket p
      -- the queue is broken, and completes no packet by this error (R201, R206)
      | .ok (t, false) => .ok (t.setPacket { p with refused := true })
    else s.completePacket p
  else .ok s

/-- PACKET_COMPLETE: launches of a started LAUNCH or BUNDLE that have ended are marked, and the packet completes once all its
launches, copy lists and programs have; a NOP completes once it may start (R206, R207, R211, R236). A context that is stopped holds its
packets. -/
def execPacketComplete (queue : Nat) (seq : Word) (s : State) : Out :=
  let hit := isCompletion queue seq
  withEntry s queue seq hit fun s p =>
    if s.halted p.ctx ∨ p.refused ∨ s.fwMay 0 (some queue) hit = false then .next s
    else if p.type = 4 then (if s.mayStart p then feOut s hit (s.completePacket p) else .next s)
    else if p.started = false then .next s
    else
      let mine (l : Launch) : Bool := l.queue == queue && l.seq == seq
      feOut s hit <|
        match endLaunches queue seq (((s.launches.filter mine).map (·.id)).reverse) s with
        | .error t => .error t
        | .ok t => t.endPacket p

/-! ### EXIT (R381, R382, R214) -/

/-- A launch block that EXIT names: the checks of R382, in the order of the operands. -/
def checkBlockAddrs (s : State) (c : Cohort) (x : Ctx) (l : Nat) : List DWord → (List Nat → Out) → Out
  | [], k => k []
  | va :: vas, k =>
    if 2 ^ 53 ≤ va.toNat then .next (s.raiseElected c l 4 1 2 va)
    else if va.toNat % 64 ≠ 0 then .next (s.raiseElected c l 3 0 2 va)
    else match s.xlat (.core c.core) c.core x .atomic va with
      | .fault g r => .next (s.raiseElected c l g r 2 va)
      | .poisoned a => raiseHw s c 2 a
      | .nonres _ => waitPage s c va.toNat
      | .ok key _ _ _ =>
        if s.poisoned key 4 then raiseHw s c 5 key
        else checkBlockAddrs (s.unpin c va.toNat) c x l vas fun ks => k (key :: ks)

/-- The successor that a block asks for is checked and starts, or is refused against the spawning packet (R214). DESIGN CHOICE: of a block
whose words cannot be read, code 4 is recorded, and no signal goes down (log entry 83). -/
def State.startSuccessor (s : State) (l : Launch) (va : Nat) : Except State State :=
  match s.feRead l.ctx va 64 with
  | .error (.busy t) => .error t
  | .error (.bad _) => s.errRecord l.queue l.seq 4 va
  | .ok (bs, t) =>
    match t.checkLaunch l.ctx ((List.range 8).map fun i => BitVec.ofNat 64 (recWord bs i)) with
    | .wait u => .error u
    | .bad code _ u =>
      match u.errRecord l.queue l.seq code va with
      | .error v => .error v
      | .ok v => v.signalDec l.ctx (recWord bs 5)
    | .good y u => .ok (u.addLaunch fun id => y.launch id l.queue l.seq l.ctx true none (some l.id))

/-- A JOIN has reached 0: the front end starts the successor, in this turn if it can take the event up now (R214, R221). -/
def State.joinZero (s : State) (l : Launch) (va : DWord) : Except State State :=
  let e : FwEvent := .joinZero l.queue l.id va
  if s.fwMay 0 (some l.queue) (· == e) then s.startSuccessor l va.toNat else .ok (s.postEvent 0 e)

/-- One decrement of a JOIN (R214). -/
def State.joinDec (s : State) (core : Nat) (x : Ctx) (l : Launch) (va : DWord) (key : Nat) : Except State State :=
  let v := memNat s.mem key 4
  if v = 0 then s.errRecord l.queue l.seq 8 va.toNat
  else
    let r := s.xlat (.core core) core x .atomic va
    let s1 := (((((s.l1Drop core (key / 128)).noteLine key r.mt 0).touch (.core core) x va r)).dirty r).storeNat key 4 (v - 1)
    if v = 1 then s1.joinZero l va else .ok s1

/-- The decrements of an EXIT in operand order. -/
def joinDecs (core : Nat) (x : Ctx) (l : Launch) : List (DWord × Nat) → State → Except State State
  | [], s => .ok s
  | (va, key) :: rest, s =>
    match s.joinDec core x l va key with
    | .error t => .error t
    | .ok t => joinDecs core x l rest t

/-- The lanes of a mask end in the issuing slot; the others go on (R381). -/
def Cohort.endLanes (c : Cohort) (m : Mask) : Cohort :=
  let left := c.here.mask &&& ~~~m
  (c.setSlot c.issuer (liveSlot (c.here.pc + 1) left)) |> fun d => { d with lastS := c.issuer, wait := .none }

/-- EXIT (R381): every check precedes every effect; a secondary performs no decrement (R296). -/
def execExit (f : Fields) (s : State) : Out :=
  withMe s fun c => withCtx s c fun x =>
    let m := c.writeMask f
    let leave (s : State) (c : Cohort) : Out := .next ((s.settleCohort (c.endLanes m)).grantBanks c.core)
    let blocks := (([f.oa, f.ob, f.oc, f.oe].filter (· ≠ .none)).map fun o => c.addrElected f o m)
    if m = 0 then finish s c
    else if blocks = [] ∨ c.role = .secondary then indigoClose s c fun c => leave s c
    else checkBlockAddrs s c x (elect m) blocks fun keys =>
      releasing s c fun s c =>
        match s.launchOf c with
        | none => leave s c
        | some l =>
          if keys.any fun k => s.wordTaken c.cid k 4 then waitHere s c
          else match joinDecs c.core x l (blocks.zip keys) s with
          | .error t => match s.stoppedBy t with
            | some u => .next u
            | none => waitHere s c
          | .ok t => leave (t.fwCommit 0 noEvent) c

end Sys2Proof.Machine
end

