-- ==== Sys2Proof/Machine/Place.lean ====
section
/-!
DEFINITION. Machine/Place.lean: placing workgroups (R23 to R31, R295), reservations (R30), pre-emption and restore (R243 to
R246, R163), continuations (R218) and remote register writes that land (R65, R438), and the events of the slots' selection
(R42, R43, R45) and of the combining buffer (R108).
-/

namespace Sys2Proof.Machine

/-! ### Admission (R24, R27, R28) -/

/-- Cohorts per slot position in a dealing (R24). -/
def dealWidth (k : Kernel) : Nat := 64 / k.cohort

/-- The slot of cohort `j` of a workgroup under a rotation pointer (R24). -/
def dealSlot (k : Kernel) (p j : Nat) : Nat := (p + j / dealWidth k) % 4

/-- The cohorts resident on a slot of a core. -/
def State.onSlot (s : State) (core slot : Nat) : List Cohort := s.cohorts.filter fun c => c.core == core && c.place / 12 == slot

/-- Mapping blocks of a cohort (R27). -/
def mapBlocks (n : Nat) : Nat := (n + 15) / 16

/-- What is taken on a core without some workgroups: used to try a pre-emption (R243). `seats` are the cohort places with their row
budgets and register counts, those of exited cohorts of resident workgroups among them (R31). -/
structure CoreLoad where
  seats : List (Nat × Nat × Nat)
  regions : List (Nat × Nat)

/-- The load of a core less some workgroups. -/
def State.loadOf (s : State) (core : Nat) (less : List Nat) : CoreLoad :=
  { seats := ((s.cohorts.filter fun c => c.core == core && !less.contains c.wg).map fun c => (c.place, c.budget, c.nreg)) ++
      (s.wgs.filter fun w => w.core == core && !less.contains w.id).flatMap (·.gone),
    regions := (s.wgs.filter fun w => w.core == core && !less.contains w.id && w.blocks != 0).map fun w => (w.block, w.blocks) }

/-- The three conditions of R27 on every slot that a workgroup would use. -/
def CoreLoad.fits (x : CoreLoad) (k : Kernel) (p : Nat) : Bool :=
  (List.range 4).all fun t =>
    let n := ((List.range k.wgsize).filter fun j => dealSlot k p j == t).length
    let here := x.seats.filter fun c => c.1 / 12 == t
    n == 0 || (here.length + n ≤ 12 && here.foldl (fun a c => a + c.2.1) 0 + n * k.rows ≤ 1024 &&
      here.foldl (fun a c => a + mapBlocks c.2.2) 0 + n * mapBlocks k.regs ≤ 128)

/-- Blocks of tile memory that a kernel's workgroup needs. -/
def Kernel.blocks (k : Kernel) : Nat := k.tmem / 8192

/-- The lowest run of `n` free blocks among 96 (R28). -/
def freeRun (used : List (Nat × Nat)) (n : Nat) : Option Nat :=
  if n = 0 then some 0
  else (List.range (97 - n)).find? fun b => used.all fun r => b + n ≤ r.1 || r.1 + r.2 ≤ b

/-- The length of the longest free run of blocks (R30). -/
def longestRun (used : List (Nat × Nat)) : Nat :=
  ((List.range 97).filter fun n => (freeRun used n).isSome).foldl max 0

/-- The blocks that a reservation keeps from a workgroup: a head may use its own window, and no other workgroup may, a saved one of
the same launch included (R30). -/
def State.reservedFrom (s : State) (core launch : Nat) (head : Bool) : List (Nat × Nat) :=
  match (s.core core).reserve with
  | some (l, b, n) => if head && l == launch then [] else [(b, n)]
  | none => []

/-- The first block of the region that a core gives a launch's workgroup, its head or another, when it admits it (R27, R28). -/
def State.admits (s : State) (core : Nat) (l : Launch) (head : Bool) (less : List Nat) : Option Nat :=
  let x := s.loadOf core less
  if s.coreFenced core || !x.fits l.kern (s.core core).rot then none
  else freeRun (x.regions ++ s.reservedFrom core l.id head) l.kern.blocks

/-! ### Choosing a core (R29, R295) -/

/-- Resident cohorts of a core. DESIGN CHOICE: a cohort that has exited is not one, though its workgroup keeps the place until it retires (R29,
R31; log entry 91). -/
def State.residents (s : State) (core : Nat) : Nat := (s.cohorts.filter fun c => c.core == core).length

/-- The package cores of a die. -/
def dieCores (d : Nat) : List Nat := (List.range 96).map (96 * d + ·)

/-- The admitting core with the fewest resident cohorts, ties to the lowest, with its first block (R29). -/
def State.bestCore (s : State) (l : Launch) (head : Bool) (cores : List Nat) : Option (Nat × Nat) :=
  bestBy (fun (a b : Nat × Nat) =>
    let x := s.residents a.1
    let y := s.residents b.1
    x < y || (x == y && a.1 < b.1)) (cores.filterMap fun c => (s.admits c l head []).map fun b => (c, b))

/-- The four cores of a quad of a die, with a block on each, when all admit (R25). -/
def State.quadAdmits (s : State) (l : Launch) (cores : List Nat) : Option (List (Nat × Nat)) :=
  let xs := cores.filterMap fun c => (s.admits c l true []).map fun b => (c, b)
  if xs.length = 4 then some xs else none

/-- The cores of quad `q` of a die. -/
def quadCores (d q : Nat) : List Nat := (List.range 4).map fun i => 96 * d + 4 * q + i

/-- Where the head of a launch goes on a die: one core, four of a quad, or the two of an Indigo pair; with the first block on
each (R29, R295). -/
def State.findPlace (s : State) (l : Launch) (d : Nat) : Option (List (Nat × Nat)) :=
  if l.kern.qg then
    bestBy (fun (a b : List (Nat × Nat)) =>
      let load (x : List (Nat × Nat)) := x.foldl (fun n p => n + s.residents p.1) 0
      let first (x : List (Nat × Nat)) := (x.head?.map (·.1)).getD 0
      load a < load b || (load a == load b && first a < first b))
      ((List.range 24).filterMap fun q => s.quadAdmits l (quadCores d q))
  else match s.bestCore l true (dieCores d) with
    | none => none
    | some p =>
      if l.kern.indigo then
        match s.bestCore l true ((dieCores d).filter fun c => quadOf c != quadOf p.1) with
        | some q => some [p, q]
        | none => none
      else some [p]

/-! ### Placing (R23, R24, R31, R204) -/

/-- The values a cohort's registers and control state take at launch (R32, R204). -/
def Cohort.launched (cid launch wg core place width nreg budget : Nat) (ctx : BitVec 16) (wgid chid nch : Word) (spill code args : DWord)
    (entry : Word) (prio : BitVec 4) (index since : Nat) : Cohort :=
  { cid := cid, launch := launch, wg := wg, ctx := ctx, core := core, place := place, width := width, nreg := nreg, budget := budget,
    wgid := wgid, chid := chid, nch := nch, spill := spill, code := code,
    regs := ((List.replicate nreg (VReg.u 0)).set 0 (.u (DWord.lo args))).set 1 (.u (DWord.hi args)),
    preds := List.replicate 7 0, tiles := List.replicate 16 none,
    s0 := some { pc := entry, mask := lanesMask width }, s1 := none, j := noneJ, stack := [], nSpill := 0, lastS := false,
    prio := prio, dead := 0, vstat := 0, arrive := 0, srseed := BitVec.ofNat 64 ((index + 1) * 0x6A09E667F3BCC909),
    cause := 0, caused0 := 0, caused1 := 0, caused2 := 0, epc := 0, pend := 0, pendInfo := [], hmode := false, kctl := none, traps := false,
    laneRecs := [], raised := false, jobSide := false, stopped := false, handle := none, bheld := false, bwt := false, accReq := 0, lastBatch := 0, closed := [],
    latch := none, rows := [], spilled := [], busy := [], ends := false, left := none, merged := false, wait := .none, kept := .none, starve := 0, yieldUntil := none, since := since, lrel := false,
    colls := 0, podPhase := 0, waitSeq := 0, role := .single, twin := none, fwdCount := 0, fwd := [], windows := [], winDone := 0, jobSeq := 0,
    rmw := none, steps := 0, dying := 0 }

/-- Tile memory of a run of lines is zero, and its lines are empty (R109). -/
def State.clearTile (s : State) (core lo n : Nat) : State :=
  let a := tileKey core (128 * lo)
  let b := a + 128 * n
  let k := s.core core
  { s.setCore { k with full := k.full.filter fun x => x < lo || lo + n ≤ x } with
    mem := s.mem.filter fun c => c.1 < a || b ≤ c.1,
    poison := s.poison.filter fun p => p < a || b ≤ p }

/-- The lowest free index of a slot; the places of exited cohorts are free only with their workgroup's last (R31). -/
def State.freeIndex (s : State) (core slot : Nat) : Nat :=
  ((List.range 12).find? fun i => !((s.loadOf core []).seats.any fun c => c.1 == 12 * slot + i)).getD 0

/-- Cohorts of a workgroup become resident in one cycle, each on its slot (R23, R24). -/
def State.seat (s : State) (core p : Nat) (k : Kernel) (mk : Nat → Nat → Cohort) : State :=
  (List.range k.wgsize).foldl (fun t j =>
    let slot := dealSlot k p j
    { t with cohorts := t.cohorts ++ [mk j (12 * slot + t.freeIndex core slot)] }) s

/-- After a placement of a context on a core: its rotation pointer (R24), and when the context was last placed there (R243). -/
def State.rotate (s : State) (core : Nat) (k : Kernel) (ctx : BitVec 16) : State :=
  let c := s.core core
  s.setCore { c with rot := (c.rot + (k.wgsize + dealWidth k - 1) / dealWidth k) % 4,
                     lastPlaced := (ctx, s.cycle (dieOf core)) :: c.lastPlaced.filter (·.1 != ctx) }

/-- A new workgroup of a launch is placed on a core (R23, R28, R204). Its cohorts are named from `s.fresh` on. -/
def State.placeWg (s : State) (l : Launch) (wgid core block : Nat) (role : IndigoRole) (twin : Option (Nat × Nat)) : State :=
  let k := l.kern
  let id := s.fresh
  let now := s.cycle (dieOf core)
  let p := (s.core core).rot
  let w : Wg := { id := id, launch := l.id, wgid := wgid, core := core, block := block, blocks := k.blocks, live := k.wgsize, placedAt := now,
                  gone := [], preempt := none, spared := [], role := role, twin := twin.map (·.1) }
  let mk (j place : Nat) : Cohort :=
    let x := wgid * k.wgsize + j
    let c := Cohort.launched (id + 1 + j) l.id id core place k.cohort k.regs k.rows l.ctx (BitVec.ofNat 32 wgid) (BitVec.ofNat 32 j)
      (BitVec.ofNat 32 k.wgsize) (l.spill + BitVec.ofNat 64 (x * (256 * k.regs + 4096))) k.code l.args k.entry l.prio x now
    { c with role := role, twin := twin.map fun t => t.2 + j }
  let s1 := s.clearTile core (64 * block) (64 * k.blocks)
  let s2 := (s1.seat core p k mk).rotate core k l.ctx
  { s2 with wgs := s2.wgs ++ [w], fresh := s.fresh + 1 + k.wgsize }

/-- The head workgroup, quad group or Indigo pair of a launch is placed where a search found room. -/
def State.placeAt (s : State) (l : Launch) (wgid : Nat) (at_ : List (Nat × Nat)) : State :=
  match l.kern.indigo, at_ with
  | true, [p, q] =>
    let a := s.fresh
    let b := a + 1 + l.kern.wgsize
    (s.placeWg l wgid p.1 p.2 .primary (some (b, b + 1))).placeWg l wgid q.1 q.2 .secondary (some (a, a + 1))
  | _, _ => (at_.mapIdx fun i p => (i, p)).foldl (fun t ip => t.placeWg l (wgid + ip.1) ip.2.1 ip.2.2 .single none) s

/-- Units that a launch places at a time: workgroups per placement (R25). -/
def Launch.unit (l : Launch) : Nat := if l.kern.qg then 4 else 1

/-- The share of a launch on a die. -/
def Launch.share (l : Launch) (d : Nat) : Option DieShare := l.shares.find? fun h => h.die == d && h.next < h.stop

/-- Replaces a die's share. -/
def Launch.setShare (l : Launch) (h : DieShare) : Launch := { l with shares := l.shares.map fun g => if g.die = h.die then h else g }

/-- Whether a die's front end may place work of a launch now: it has started, its context is not halted, and compute is
released (R211, R226, R304). -/
def State.mayPlace (s : State) (l : Launch) : Bool := l.started && !s.halted l.ctx && s.released && s.powered

/-- The launches with a head on a die, holders of a reservation first, then in order (R29, R31). -/
def State.heads (s : State) (d : Nat) : List (Launch × DieShare) :=
  let hs := (s.launches.filter s.mayPlace).filterMap fun l => (l.share d).map fun h => (l, h)
  let holds (x : Launch × DieShare) : Bool := s.cores.any fun k => dieOf k.core == d && (match k.reserve with
    | some (id, _, _) => id == x.1.id
    | none => false)
  hs.filter holds ++ hs.filter fun x => !holds x

/-! ### Passed heads and reservations (R30) -/

/-- Whether a core, or any core of a quad, holds a reservation. -/
def State.reserved (s : State) (cores : List Nat) : Bool := cores.any fun c => (s.core c).reserve.isSome

/-- The places a head can target: cores, or quads, of a die; each as the list of its cores. -/
def targetGroups (l : Launch) (d : Nat) : List (Nat × List Nat) :=
  if l.kern.qg then (List.range 24).map fun q => (24 * d + q, quadCores d q) else (dieCores d).map fun c => (c, [c])

/-- The cores of a named target. -/
def targetCores (l : Launch) (t : Nat) : List Nat := if l.kern.qg then quadCores (t / 24) (t % 24) else [t]

/-- Whether a head fails only on tile memory: some place would admit it without its region (R30). -/
def State.failsOnTile (s : State) (l : Launch) (d : Nat) : Bool :=
  let bare : Launch := { l with kern := { l.kern with tmem := 0 } }
  l.kern.blocks != 0 && (s.findPlace l d).isNone && (s.findPlace bare d).isSome

/-- The target of a head: the place whose longest free run is longest, ties to the lowest; the shortest of its four for a quad
(R30). -/
def State.nameTarget (s : State) (l : Launch) (d : Nat) (excl : Bool) : Option Nat :=
  let gs := (targetGroups l d).filter fun g => (!excl || !s.reserved g.2) && !(g.2.any s.coreFenced)
  let run (g : Nat × List Nat) : Nat := g.2.foldl (fun n c => min n (longestRun (s.loadOf c []).regions)) 96
  (bestBy (fun (a b : Nat × List Nat) => run b < run a || (run a == run b && a.1 < b.1)) gs).map (·.1)

/-- Heads of a die that fail only on tile memory name their targets (R30). -/
def State.nameTargets (s : State) (d : Nat) : State :=
  (s.heads d).foldl (fun t x =>
    match x.2.target with
    | some _ => t
    | none =>
      if t.failsOnTile x.1 d then
        t.setLaunch (x.1.setShare { x.2 with target := t.nameTarget x.1 d false, passed := 0 })
      else t) s

/-- A placement on some cores is counted by the heads whose target it falls on (R30). -/
def State.countPassed (s : State) (d : Nat) (cores : List Nat) (but : Nat) : State :=
  { s with launches := s.launches.map fun l =>
      if l.id = but then l
      else match l.share d with
        | none => l
        | some h =>
          match h.target with
          | none => l
          | some t => if (targetCores l t).any cores.contains then l.setShare { h with passed := h.passed + 1 } else l }

/-- A launch's reservations on a die end (R30). -/
def State.endReservation (s : State) (d launch : Nat) : State :=
  { s with cores := s.cores.map fun k =>
      if dieOf k.core = d then (match k.reserve with
        | some (l, _, _) => if l = launch then { k with reserve := none } else k
        | none => k)
      else k }

/-- The window of `n` blocks that holds the fewest allocated blocks, ties to the lowest address (R30). -/
def reserveWindow (used : List (Nat × Nat)) (n : Nat) : Nat :=
  let taken (b : Nat) : Nat := ((List.range n).filter fun i => used.any fun r => r.1 ≤ b + i && b + i < r.1 + r.2).length
  (bestBy (fun (a b : Nat) => taken a < taken b || (taken a == taken b && a < b)) (List.range (97 - n))).getD 0

/-- RESERVATION: a head that four placements have passed reserves a window on its target; when the target is reserved already it
names the next one (R30). DESIGN CHOICE: R30 does not say whether the passed count goes on there; it starts again at 0 (log entry 18). -/
def execReservation (die : Nat) (s : State) : Out :=
  match (s.heads die).find? fun x => 4 ≤ x.2.passed && x.2.target.isSome && !(s.cores.any fun k => (match k.reserve with
      | some (id, _, _) => id == x.1.id && dieOf k.core == die
      | none => false)) with
  | none => .next s
  | some (l, h) =>
    let cores := targetCores l (h.target.getD 0)
    if s.reserved cores then .next (s.setLaunch (l.setShare { h with target := s.nameTarget l die true, passed := 0 }))
    else .next (cores.foldl (fun t c =>
      t.setCore { t.core c with reserve := some (l.id, reserveWindow (t.loadOf c []).regions l.kern.blocks, l.kern.blocks) }) s)

/-! ### Choosing victims (R243) -/

/-- The size of a context record with its bank images, as saved (R70, R163, R245). -/
def State.savedSize (s : State) (c : Cohort) : Nat := (c.record.length + 63) / 64 * 64 + 8192 * (s.banksOf c).length

/-- The size of the save record of a workgroup (R245). -/
def State.saveSize (s : State) (w : Wg) : Nat :=
  let map := (w.blocks * 8 + 63) / 64 * 64
  64 + (s.cohorts.filter fun c => c.wg == w.id).foldl (fun n c => n + s.savedSize c) 0 + w.blocks * 8192 + map

/-- The lowest free place of a size in a context's save area (R245). -/
def Ctx.savePlace (x : Ctx) (n : Nat) : Option Nat :=
  match x.trap with
  | none => none
  | some t =>
    (0 :: x.saves.map fun v => v.2.1 + v.2.2).filter (fun off => off + n ≤ t.savelen.toNat &&
      x.saves.all fun v => off + n ≤ v.2.1 || v.2.1 + v.2.2 ≤ off) |> bestBy (fun (a b : Nat) => a < b)

/-- The last placement of a context on a core (R243). -/
def State.lastPlaced (s : State) (core : Nat) (k : BitVec 16) : Option Nat := ((s.core core).lastPlaced.find? (·.1 == k)).map (·.2)

/-- The contexts that have used their time slice on a core, the incoming one and stopped ones apart (R243). -/
def State.sliceUsed (s : State) (core : Nat) (incoming : BitVec 16) : List Ctx :=
  s.ctxs.filter fun x => x.ctxid != incoming && !x.halt && (match x.trap, s.lastPlaced core x.ctxid with
    | some t, some n => t.tslice != 0 && n + t.tslice.toNat * 1024 ≤ s.cycle (dieOf core)
    | _, _ => false)

/-- The workgroups of a context on a core in the order in which they are taken: those of its cohorts by ascending $PRIO, then
youngest first (R243). -/
def State.victimOrder (s : State) (core : Nat) (k : BitVec 16) (barred : Nat → Bool) : List Nat :=
  let cs := s.cohorts.filter fun c => c.core == core && c.ctx == k && !barred c.wg
  let rank := cs.foldl (fun (acc : List Cohort) c =>
    let (before, after) := (acc.filter fun d => d.prio < c.prio || (d.prio == c.prio && !d.older c && d.cid != c.cid), acc.filter fun d =>
      !(d.prio < c.prio || (d.prio == c.prio && !d.older c && d.cid != c.cid)))
    before ++ [c] ++ after) []
  (rank.map (·.wg)).eraseDups

/-- Workgroups with the other halves of their Indigo pairs, which leave together (R295). -/
def State.withTwins (s : State) (vs : List Nat) : List Nat := vs ++ vs.filterMap fun v => (s.wg? v).bind (·.twin)

/-- A context's save area after it has taken the records of some workgroups; none when a record does not fit (R243, R245). -/
def State.takeSaves (s : State) : List Nat → Ctx → Option Ctx
  | [], x => some x
  | v :: vs, x =>
    match s.wg? v with
    | none => s.takeSaves vs x
    | some w =>
      let n := s.saveSize w
      match x.savePlace n with
      | none => none
      | some off => s.takeSaves vs { x with saves := x.saves ++ [(v, off, n)] }

/-- The workgroups of a context whose pre-emption is under way. -/
def State.leaving (s : State) (k : BitVec 16) : List Nat :=
  (s.wgs.filter fun w => w.preempt.isSome && (s.launch? w.launch).any fun l => l.ctx == k).map (·.id)

/-- The least number of a context's victims, in order, whose going admits a launch's head on a core; none when its save area cannot
hold their records beside those of the workgroups that already leave (R243). -/
def State.victimsOf (s : State) (core : Nat) (l : Launch) (x : Ctx) (order : List Nat) : Option (List Nat) :=
  match ((List.range (order.length + 1)).map order.take).find? fun vs => (s.admits core l true vs).isSome with
  | some vs => if (s.takeSaves (s.leaving x.ctxid ++ s.withTwins vs) x).isSome then some vs else none
  | none => none

/-- The victims on a core for a placement, a launch and its first workgroup: none when the head is admitted, or those of the first
context that suffices (R243; DESIGN CHOICE, log entry 91: of several contexts that have used their slice, the one registered first). A workgroup that is leaving, or that stayed for this placement before, is not chosen (R244). -/
def State.victimsOn (s : State) (core : Nat) (l : Launch) (first : Nat) : Option (List Nat) :=
  if (s.admits core l true []).isSome then some []
  else
    let barred (wg : Nat) : Bool := (s.wg? wg).any fun w => w.preempt.isSome || w.spared.contains (l.id, first)
    ((s.sliceUsed core l.ctx).filterMap fun x => s.victimsOf core l x (s.victimOrder core x.ctxid barred)).find? (· ≠ [])

/-- Victims for the head of a launch on a die: on the lowest core, quad or pair of cores where they suffice (R243; log
entry 18). -/
def State.chooseVictims (s : State) (l : Launch) (d first : Nat) : List Nat :=
  let on (cores : List Nat) : Option (List Nat) :=
    let vs := cores.map fun c => s.victimsOn c l first
    if vs.all (·.isSome) then some ((vs.filterMap id).flatten) else none
  if l.kern.qg then ((List.range 24).findSome? fun q => on (quadCores d q)).getD []
  else if l.kern.indigo then
    ((dieCores d).findSome? fun c => ((dieCores d).filter fun e => quadOf e != quadOf c).findSome? fun e => on [c, e]).getD []
  else ((dieCores d).findSome? fun c => on [c]).getD []

/-- A cohort's waiting instruction is abandoned, to be issued afresh: it leaves its queue, a BAR arrival is withdrawn, and the header's
fields say what it waited for (R334, R390, R421). -/
def State.abandon (s : State) (c : Cohort) : State :=
  let k := s.core c.core
  let req : Nat := ((k.bankQ.find? fun q => q.1 == c.cid).map (·.2)).getD c.accReq
  let s1 := s.setCore { k with bankQ := k.bankQ.filter fun q => q.1 != c.cid }
  let s2 := if c.atBar .pod then s1.podWithdraw c else s1
  s2.setCohort { c with accReq := req, bwt := c.bwt || c.wait == .baton || c.wait == .batonAgain,
                        wait := if c.wait = .batonAgain then .batonAgain else .none,
                        left := if c.inWait then some c.issuer else c.left }

/-- A cohort whose pre-emption is requested leaves its queue, and keeps what it waited for, should its workgroup stay (R244). -/
def State.suspend (s : State) (c : Cohort) : State :=
  let t := s.abandon c
  match t.cohort? c.cid with
  | some d => t.setCohort { d with kept := c.wait }
  | none => t

/-- A request of a core's bank queue returns to its place in the order of issue (R150, R244). -/
def State.requeue (s : State) (c : Cohort) (n : Nat) : State :=
  let k := s.core c.core
  let before (q : Nat × Nat) : Bool := (s.cohort? q.1).any fun d => d.waitSeq < c.waitSeq
  s.setCore { k with bankQ := k.bankQ.takeWhile before ++ [(c.cid, n)] ++ k.bankQ.dropWhile before }

/-- A cohort whose workgroup stays goes on as if the event had never come: it waits again for what it waited for (R244). -/
def State.unsuspend (s : State) (c : Cohort) : State :=
  let d := { c with wait := if c.kept = .none then c.wait else c.kept, kept := .none, accReq := 0, bwt := false, left := none }
  let s1 := s.setCohort d
  match d.wait with
  | .banks _ => (s1.requeue d c.accReq).grantBanks d.core
  | .baton | .batonAgain => s1.offerBaton d.core
  | .bar sc _ _ => if sc = .pod then s1.podTry d else s1.barCheck sc d
  | .learner _ _ => s1.deliver (dieOf d.core)
  | _ => s1

/-- Workgroups are asked to leave for a placement; an Indigo pair goes together (R244, R295). -/
def State.requestSaves (s : State) (vs : List Nat) (l : Launch) (first : Nat) : State :=
  let all := s.withTwins vs
  let ask (w : Wg) : Wg := if all.contains w.id then { w with preempt := some (s.cycle (dieOf w.core), l.id, first) } else w
  let s1 := { s with wgs := s.wgs.map ask }
  (s1.cohorts.filter fun c => all.contains c.wg).foldl (fun t c => t.suspend c) s1

/-- Whether a pre-emption for a launch is under way on a die. -/
def State.saving (s : State) (l : Launch) (d : Nat) : Bool :=
  s.wgs.any fun w => dieOf w.core == d && w.preempt.any fun p => p.2.1 == l.id

/-- WORKGROUP_PLACEMENT: the first head that some place of its die admits is placed (R29 to R31); when none is, the front end
pre-empts for the first head for which victims suffice (R243). -/
def execWorkgroupPlacement (die : Nat) (s : State) : Out :=
  let s := s.nameTargets die
  match (s.heads die).findSome? fun x => (s.findPlace x.1 die).map fun p => (x, p) with
  | some ((l, h), p) =>
    let s1 := s.setLaunch (l.setShare { h with next := h.next + l.unit, passed := 0, target := none })
    let s2 := (s1.placeAt l h.next p).endReservation die l.id
    .next (s2.countPassed die (p.map (·.1)) l.id)
  | none =>
    match (s.heads die).findSome? fun x =>
      if s.saving x.1 die then none
      else match s.chooseVictims x.1 die x.2.next with
        | [] => none
        | vs => some (vs, x) with
    | some (vs, l, h) => .next (s.requestSaves vs l h.next)
    | none => .next s

/-! ### Saving (R244, R245, R163) -/

/-- The cohort as its save record shows it: the group 16 event with the incoming context, and $EPC (R227, R234). -/
def Cohort.preemptedBy (c : Cohort) (incoming : BitVec 16) : Cohort :=
  { c with cause := 16, caused0 := incoming.setWidth 32, caused1 := 0, caused2 := 0, epc := c.stopPc }

/-- The 8,192 bytes of a bank's image: row-major from row 0 (R163). -/
def Bank.image (b : Bank) : List Byte := (List.range 2048).flatMap fun k => wordBytes (b.val (k / 32) (k % 32))

/-- The bank whose image it is (R163). -/
def Bank.ofImage (owner : Nat) (bs : List Byte) : Bank :=
  let ws := (List.range 2048).map fun k => (k, (BitVec.ofNat 32 (leNat ((bs.drop (4 * k)).take 4)) : Word))
  { owner := some owner, freed := false, vals := ws.filter fun v => v.2 != 0 }

/-- The save record of a workgroup (R245). -/
def State.saveRecord (s : State) (w : Wg) (l : Launch) (incoming : BitVec 16) : List Byte :=
  let cs := (List.range l.kern.wgsize).filterMap fun j => s.cohorts.find? fun c => c.wg == w.id && c.chid.toNat == j
  let head := natBytes 64 (packBits [(0, l.ctx.toNat), (16, l.queue), (32, l.seq.toNat), (64, l.kern.kdesc.toNat), (128, w.wgid),
    (160, l.kern.wgsize), (165, w.blocks * 8192), (185, w.core), (201, bit01 l.kern.qg)])
  let shown (c : Cohort) : Cohort := { c.preemptedBy incoming with bheld := s.holdsBaton c }
  let banks (c : Cohort) : List Byte := (s.banksOf c).flatMap fun b => (((s.core c.core).banks[b]?).map Bank.image).getD []
  let lines := (List.range (64 * w.blocks)).map (64 * w.block + ·)
  let bits := lines.mapIdx fun i n => (i, bit01 ((s.core w.core).full.contains n))
  head ++ (cs.flatMap fun c => pad64 (shown c).record ++ banks c) ++
    memBytes s.mem (tileKey w.core (8192 * w.block)) (8192 * w.blocks) ++ pad64 (natBytes (8 * w.blocks) (packBits bits))

/-- Whether a victim has drained: its MMAs are performed, no EPI touches its banks, and no job its region (R163, R244). -/
def State.drained (s : State) (w : Wg) : Bool :=
  let lo := 64 * w.block
  let hi := 64 * (w.block + w.blocks)
  !((s.core w.core).mmaQ.any fun m => m.wg == w.id) &&
  !((s.core w.core).board.any fun e => e.lo < hi && lo ≤ e.hi) &&
  !(s.cohorts.any fun c => c.wg == w.id && c.rmw.isSome) &&
  !(s.jobs.any fun j => j.wg == w.id && (j.epi.isSome || tileLinesOf (j.reads ++ j.writes) != []))

/-- The workgroups saved together: an Indigo pair, or one (R295). -/
def State.pairOf (s : State) (w : Wg) : List Wg := w :: (w.twin.bind s.wg?).toList

/-- Landings on their way to a workgroup take effect before it is saved (R219). -/
def State.landFor (s : State) (wg : Nat) : State :=
  let mine (g : Landing) : Bool := (s.cohort? g.target).any fun c => c.wg == wg
  let s1 := (s.landings.filter mine).foldl (fun t g =>
    match t.cohort? g.target with
    | some c => (t.setCohort (c.land g)).settleReg c.cid g.reg c.pinnedRegs
    | none => t) s
  { s1 with landings := s.landings.filter fun g => !mine g }

/-- A saved workgroup leaves its core: a held baton passes, and its places, banks and region are free (R31, R163). -/
def State.takeOff (s : State) (w : Wg) (id : Nat) (qg : Bool) : State :=
  let cs := s.cohorts.filter fun c => c.wg == w.id
  let k := s.core w.core
  let held (c : Cohort) : Cohort :=
    { c with kept := .none, bheld := c.bheld || k.baton == some c.cid, wait := if k.baton = some c.cid then .batonAgain else c.wait }
  let v : SavedWg :=
    { id := id, wg := { w with preempt := none }, cohorts := cs.map held,
      banks := cs.map fun c => (c.cid, (s.banksOf c).map fun b => ((k.banks[b]?).map (·.vals)).getD []),
      tile := [], full := [], quadGroup := qg, die := dieOf w.core }
  let s1 := cs.foldl (fun t c => (if t.holdsBaton c then t.passBaton c.core else t).freeBanks c) s
  let s2 := s1.clearTile w.core (64 * w.block) (64 * w.blocks)
  { s2 with cohorts := s2.cohorts.filter (fun c => c.wg != w.id), wgs := s2.wgs.filter (fun x => x.id != w.id), saved := s2.saved ++ [v] }

/-- A victim stays: it goes on as if the event had never come, and is not chosen again for the same placement (R244). -/
def State.spare (s : State) (w : Wg) : State :=
  let all := (s.pairOf w).map (·.id)
  let stay (x : Wg) : Wg :=
    if all.contains x.id then { x with preempt := none, spared := x.spared ++ (x.preempt.map (·.2)).toList } else x
  let s1 := { s with wgs := s.wgs.map stay }
  (s1.cohorts.filter fun c => all.contains c.wg).foldl (fun t c => match t.cohort? c.cid with
    | some d => t.unsuspend d
    | none => t) s1

/-- Save records are written for some workgroups, or what stops that. -/
def writeSaves (l : Launch) (incoming : BitVec 16) : List Wg → State → Except FeFail State
  | [], s => .ok s
  | w :: ws, s =>
    match s.ctx? l.ctx with
    | none => .error (.bad 0)
    | some x =>
      let bs := s.saveRecord w l incoming
      match x.trap, x.savePlace bs.length with
      | some t, some off =>
        match s.feWrite l.ctx (t.savea.toNat + off) bs with
        | .error e => .error e
        | .ok s1 =>
          match s1.ctx? l.ctx with
          | none => .error (.bad 0)
          | some y => writeSaves l incoming ws (s1.setCtx { y with saves := y.saves ++ [(w.id, off, bs.length)] })
      | _, _ => .error (.bad 0)

/-- PREEMPTION_SAVE: a drained victim is saved and leaves its core, after the stores in its combining buffer are performed (R132); one
whose record cannot be written, that has not drained in 8,192 cycles, or whose stop was lost to another event, stays (R238, R244, R245). The
cohorts of an Indigo pair stop at one instruction, and their store windows close there and are performed first (R295, R297). -/
def execPreemptionSave (wg : Nat) (s : State) : Out :=
  match s.wg? wg with
  | none => .next s
  | some w =>
    match w.preempt, s.launch? w.launch with
    | some (at_, for_, _), some l =>
      let ws := s.pairOf w
      let mine (c : Cohort) : Bool := ws.any fun v => v.id == c.wg
      let cs := s.cohorts.filter mine
      if s.halted l.ctx then .next s
      else if at_ + 8192 ≤ s.cycle (dieOf w.core) ∨ cs.any (fun c => c.pend.getLsbD 16) = true then .next (s.spare w)
      else if cs.any fun c => (c.twin.bind s.cohort?).any fun t => t.steps != c.steps then .next s
      else if cs.any fun c => c.windows != [] then
        .next { s with cohorts := s.cohorts.map fun c => if mine c then { c with windows := closeWindows c.windows } else c }
      else if !(ws.all s.drained) || ws.any fun v => s.wcTaken v.core then .next s
      else
        let incoming := ((s.launch? for_).map (·.ctx)).getD 0
        let s1 := ws.foldl (fun t v => (t.release v.core).landFor v.id) s
        match writeSaves l incoming ws s1 with
        | .error (.busy t) => .next t
        | .error (.bad _) => .next (s.spare w)
        | .ok t =>
          let u := ws.foldl (fun (u : State) v => u.takeOff v v.id l.kern.qg) t
          .next (ws.foldl (fun (u : State) v => u.grantBanks v.core) u)
    | _, _ => .next s

/-- PREEMPTION_TIMEOUT: a victim that has not drained within 8,192 cycles of its request stays (R244). -/
def execPreemptionTimeout (wg : Nat) (s : State) : Out :=
  match s.wg? wg with
  | none => .next s
  | some w =>
    match w.preempt with
    | some (at_, _) => if at_ + 8192 ≤ s.cycle (dieOf w.core) then .next (s.spare w) else .next s
    | none => .next s

/-! ### Restoring (R246, R68, R163) -/

/-- A saved cohort rebuilt from its record (R68): registers, predicates and control state come from the record, and $CAUSE and
$EPC are as before the save. `none` when a tag code is 11. -/
def Cohort.afterSave (c : Cohort) (bs : List Byte) : Option Cohort :=
  (c.restoreFrom bs).map fun d => { d with epc := c.epc }

/-- A cohort with a pending event takes the first as it arose, before its next instruction: the halt line rises for it, as it would have, but
for a pre-emption, which stops no context (R226, R231, R234, R238). -/
def State.takePending (s : State) (c : Cohort) : State :=
  match c.nextPending with
  | none => s
  | some (e, d) =>
    let t := d.takeCause e
    if e.group = 16 then s.setCohort { t with raised := false }
    else (s.setCohort t).halt c.ctx (BitVec.ofNat 5 e.group) (if e.outside then 0xFFFF else BitVec.ofNat 16 c.core)
      (if e.pc.isNone then 0 else t.epc)

/-- A place and new banks for each cohort of a restored workgroup, in $CHID order, and its record (R68, R163). DESIGN CHOICE: the handle keeps its
value (R163), and R150 does not say whether the banks taken for it count as a grant; the allocation serial stays (log entry 89). -/
def restoreCohorts (w : Wg) (l : Launch) (p now : Nat) (move : Bool) : List (Cohort × Nat) → List Byte → State → State
  | [], _, s => s
  | (c, nb) :: cs, bs, s =>
    let slot := dealSlot l.kern p c.chid.toNat
    let size := (c.record.length + 63) / 64 * 64
    let place := 12 * slot + s.freeIndex w.core slot
    let base := { c with core := w.core, place := place, since := now, rows := [], spilled := [], latch := none, accReq := 0, bwt := false,
                         left := none, waitSeq := s.fresh }
    let k := s.core w.core
    let free := ((List.range 32).filter fun b => ((k.banks[b]?).map fun x => x.owner.isNone).getD false).take nb
    let banks := (free.mapIdx fun i b => (i, b)).foldl (fun (acc : List Bank) ib =>
      acc.set ib.2 (Bank.ofImage c.cid ((bs.drop (size + 8192 * ib.1)).take 8192))) k.banks
    let s1 := s.setCore { k with banks := banks, l1 := if move then [] else k.l1 }
    let s2 := match base.afterSave bs with
      | some d =>
        let t := { s1 with cohorts := s1.cohorts ++ [d], fresh := s1.fresh + 1 }
        let u := t.settleAll d.cid
        u.takePending ((u.cohort? d.cid).getD d)
      | none => { s1 with cohorts := s1.cohorts ++ [base], fresh := s1.fresh + 1 }.raiseReason base 12 5
    restoreCohorts w l p now move cs (bs.drop (size + 8192 * nb)) s2

/-- The exited cohorts of a workgroup that returns take their places again, which stay taken until its last cohort exits (R27, R31). -/
def State.seatGone (s : State) (w : Wg) (k : Kernel) (p : Nat) (chids : List Nat) : State :=
  chids.foldl (fun t j =>
    let slot := dealSlot k p j
    match t.wg? w.id with
    | some v => t.setWg { v with gone := v.gone ++ [(12 * slot + t.freeIndex w.core slot, k.rows, k.regs)] }
    | none => t) s

/-- A saved workgroup is put back on a core from its record (R246). -/
def State.putBack (s : State) (v : SavedWg) (l : Launch) (core block : Nat) (bs : List Byte) : State :=
  let p := (s.core core).rot
  let now := s.cycle (dieOf core)
  let w : Wg := { v.wg with core := core, block := block, placedAt := now, live := v.cohorts.length, gone := [] }
  let cs := (List.range l.kern.wgsize).filterMap fun j => v.cohorts.find? fun c => c.chid.toNat == j
  let nbanks (c : Cohort) : Nat := ((v.banks.find? fun b => b.1 == c.cid).map (·.2.length)).getD 0
  let body := (cs.map fun c => (c.record.length + 63) / 64 * 64 + 8192 * nbanks c).foldl (· + ·) 64
  let tile := (bs.drop body).take (8192 * w.blocks)
  let map := leNat ((bs.drop (body + 8192 * w.blocks)).take (8 * w.blocks))
  let s1 := (s.clearTile core (64 * block) (64 * w.blocks)).writeMem (tileKey core (8192 * block)) tile
  let s2 := s1.setCore ((s1.core core).setFull ((List.range (64 * w.blocks)).filterMap fun i =>
    if map.testBit i then some (64 * block + i) else none))
  let s3 := restoreCohorts w l p now (core != v.wg.core) (cs.map fun c => (c, nbanks c)) (bs.drop 64) { s2 with wgs := s2.wgs ++ [w] }
  let left := (List.range l.kern.wgsize).filter fun j => !(cs.any fun c => c.chid.toNat == j)
  let s4 := ((s3.seatGone w l.kern p left).rotate core l.kern l.ctx).offerBaton core
  let s5 := match s4.ctx? l.ctx with
    | some x => s4.setCtx { x with saves := x.saves.filter fun r => r.1 != v.wg.id }
    | none => s4
  let s6 := { s5 with saved := s5.saved.filter fun x => x.id != v.id }
  if core = v.wg.core then s6 else s6.recheckCore l.id v.wg.core

/-- Where a saved workgroup may go: its own core for a quad group, else R29 on its die, with banks free for its images (R246). -/
def State.restorePlace (s : State) (v : SavedWg) (l : Launch) (cores : List Nat) : Option (Nat × Nat) :=
  let need := (v.banks.map (·.2.length)).foldl (· + ·) 0
  let ok (c : Nat) : Bool := need == 0 ||
    ((s.core c).bankQ == [] && need ≤ ((s.core c).banks.filter fun b => b.owner.isNone).length)
  s.bestCore l false ((if v.quadGroup then [v.wg.core] else cores).filter ok)

/-- The bytes of a save record. -/
def State.readSave (s : State) (v : SavedWg) (k : BitVec 16) : Except FeFail (List Byte × State) :=
  match s.ctx? k with
  | none => .error (.bad 0)
  | some x =>
    match x.trap, x.saves.find? fun r => r.1 == v.wg.id with
    | some t, some r => s.feRead k (t.savea.toNat + r.2.1) r.2.2
    | _, _ => .error (.bad 0)

/-- WORKGROUP_RESTORE: a saved workgroup, or an Indigo pair, returns to a core of its die that admits it (R246, R295). DESIGN CHOICE: R30
counts placements and does not say whether this is one; neither it nor a resumed continuation counts (log entry 18). -/
def execWorkgroupRestore (saved : Nat) (s : State) : Out :=
  match s.saved.find? fun v => v.id == saved with
  | none => .next s
  | some v0 =>
    -- of a pair the primary's place is chosen first, whichever half the event names
    let v := if v0.wg.role = .secondary then (s.saved.find? fun y => some y.wg.id == v0.wg.twin).getD v0 else v0
    match s.launch? v.wg.launch with
    | none => .next s
    | some l =>
      if s.mayPlace l = false then .next s
      else match s.restorePlace v l (dieCores v.die), s.readSave v l.ctx with
        | some (core, block), .ok (bs, s1) =>
          match v.wg.twin with
          | none => .next (s1.putBack v l core block bs)
          | some t =>
            match s.saved.find? fun y => y.wg.id == t with
            | none => .next s
            | some y =>
              match s1.restorePlace y l ((dieCores v.die).filter fun c => quadOf c != quadOf core), s1.readSave y l.ctx with
              | some (core2, block2), .ok (bs2, s2) => .next ((s2.putBack v l core block bs).putBack y l core2 block2 bs2)
              | _, _ => .next s1
        | _, _ => .next s

/-! ### Continuations (R218, R26) -/

/-- The parked continuations of a die whose handles are complete, in order: the order of completion, then the lower index
(R218). -/
def State.resumable (s : State) (d : Nat) : Option (Parked × WaitEntry) :=
  let xs := s.parked.filterMap fun p =>
    if p.die ≠ d ∨ s.halted p.ctx then none
    else (s.waitTable.find? fun e => e.die == d && e.index == p.index && e.done.isSome).map fun e => (p, e)
  bestBy (fun (a b : Parked × WaitEntry) =>
    let x := (a.2.done.map (·.2)).getD 0
    let y := (b.2.done.map (·.2)).getD 0
    x < y || (x == y && a.2.index < b.2.index)) xs

/-- A continuation resumes on a core (R218): a move to another core invalidates its L1 (R128). DESIGN CHOICE: its record holds no batch, so that
the last batch is 0 and none is closed (R156, R217; log entry 91). -/
def State.unpark (s : State) (p : Parked) (e : WaitEntry) (l : Launch) (core : Nat) (bs : List Byte) : State :=
  let k := s.core core
  let slot := dealSlot l.kern k.rot 0
  let now := s.cycle (dieOf core)
  let base := { Cohort.launched p.cid l.id p.wg core (12 * slot + s.freeIndex core slot) l.kern.cohort l.kern.regs l.kern.rows l.ctx
      (BitVec.ofNat 32 p.wgid) 0 1 p.addr l.kern.code 0 l.kern.entry l.prio 0 now with lrel := p.lrel, podPhase := p.podPhase }
  let w : Wg := { id := p.wg, launch := l.id, wgid := p.wgid, core := core, block := 0, blocks := 0, live := 1, placedAt := now, gone := [], preempt := none,
                  spared := [], role := .single, twin := none }
  let s1 := s.setCore { k with l1 := if core = p.core then k.l1 else [] }
  let s2 : State := { s1.rotate core l.kern l.ctx with
    wgs := s1.wgs ++ [w], parked := s1.parked.filter fun q => q.cid != p.cid,
    waitTable := s1.waitTable.filter fun x => !(x.die == e.die && x.index == e.index) }
  match base.unparkFrom bs ((e.done.map (·.1)).getD 0) with
  | some d =>
    let t := { s2 with cohorts := s2.cohorts ++ [d] }
    let u := t.settleAll d.cid
    u.settleCohort ((u.cohort? d.cid).getD d)
  | none => { s2 with cohorts := s2.cohorts ++ [base] }.raiseReason base 12 5

/-- CONTINUATION_RESUME: the first continuation of a die whose handle is complete resumes on the core that R27 admits it to and
R29 chooses (R218, R26). Its record is read as the front end reads. -/
def execContinuationResume (die : Nat) (s : State) : Out :=
  match s.resumable die with
  | none => .next s
  | some (p, e) =>
    match s.launch? p.launch with
    | none => .next s
    | some l =>
      match s.bestCore l false (dieCores die), s.feRead l.ctx p.addr.toNat 192 with
      | some (core, _), .ok (bs, s1) =>
        let h := leNat (bs.take 128)
        let n := bitsOf h 180 176
        let size := ((List.range n).map fun i => bodySize (bitsOf h (193 + 2 * i) (192 + 2 * i))).foldl (· + ·) 0
        match s1.feRead l.ctx (p.addr.toNat + 192) size with
        | .ok (more, s2) => .next (s2.unpark p e l core (bs ++ more))
        | .error (.busy t) => .next t
        | .error (.bad _) => .next s1
      | _, .error (.busy t) => .next t
      | _, _ => .next s

/-! ### Remote register writes (R65, R438) -/

/-- RWR_LANDING: the oldest landing of a sender takes effect between two instructions of its target, once no instruction of the
target that uses the register is in progress; one for a target that has exited is discarded (R219, R438). -/
def execRwrLanding (sender : Nat) (s : State) : Out :=
  match s.landings.find? fun g => g.sender == sender with
  | none => .next s
  | some g =>
    let rest := { s with landings := s.landings.erase g }
    match s.cohort? g.target with
    | none => if s.saved.any fun v => v.cohorts.any fun c => c.cid == g.target then .next s else .next rest
    | some c =>
      if c.holdsReg g.reg || s.halted c.ctx then .next s
      else .next ((rest.setCohort (c.land g)).settleReg c.cid g.reg c.pinnedRegs)

/-! ### Selection and buffers (R42, R43, R45, R108) -/

/-- COMBINING_FLUSH: lines of a core's buffer that no store has written for 256 cycles are written (R108). -/
def execCombiningFlush (core : Nat) (s : State) : Out :=
  let k := s.core core
  let old (w : WcLine) : Bool := w.last + 256 ≤ s.cycle (dieOf core) && !s.wordHeld (128 * w.line) 128
  .next ((k.wc.filter old).foldl (fun t w => t.writeWc w) (s.setCore { k with wc := k.wc.filter fun w => !old w }))

/-- STARVATION_QUALIFY: a ready cohort whose count has reached 4,084 issues ahead of every cohort that does not qualify: its turn
comes next (R42). -/
def execStarvationQualify (cid : Nat) (s : State) : Out :=
  match s.cohort? cid with
  | none => .next s
  | some c =>
    if 4084 ≤ c.starve ∧ (c.wait = .none ∨ c.wait = .retry) ∧ c.stopped = false then .next { s with agenda := { dt := 0, what := .issue cid } :: s.agenda }
    else .next s

/-- YIELD_EXPIRY: a yielding cohort regains its rank after 16 cycles of its slot (R43). -/
def execYieldExpiry (cid : Nat) (s : State) : Out :=
  match s.cohort? cid with
  | none => .next s
  | some c =>
    match c.yieldUntil with
    | some t => if t ≤ s.cycle (dieOf c.core) then .next (s.setCohort { c with yieldUntil := none }) else .next s
    | none => .next s

/-- The pinned reads of a core's slots that have not been granted after some cycles: each bank grants one a cycle, in list order (R45). -/
def servePins (elapsed : Nat) : List PinEntry → List PinEntry → List PinEntry
  | _, [] => []
  | seen, p :: ps =>
    let ahead := (seen.filter fun q => q.slot == p.slot && q.bank == p.bank).length
    if ahead < elapsed then servePins elapsed (seen ++ [p]) ps else p :: servePins elapsed (seen ++ [p]) ps

/-- The cohort whose read a bank grants among those that contend for it: the first pinned one, else the oldest (R45). -/
def State.bankGrants (s : State) (core slot bank : Nat) (pins : List PinEntry) (cids : List Nat) : Option Nat :=
  match pins.find? fun p => p.slot == slot && p.bank == bank && cids.contains p.cid with
  | some p => some p.cid
  | none => (bestBy Cohort.older ((s.onSlot core slot).filter fun c => cids.contains c.cid)).map (·.cid)

/-- READ_PIN: a read that has lost its bank in 3 consecutive cycles is pinned behind the reads pinned before it, and among those
pinned in one cycle by age (R45). The collector holds 4 instructions of a slot, and an instruction reads at most 12 rows; a read that
its bank grants ahead of every other cohort of the slot has not lost. -/
def execReadPin (core slot bank cid losses : Nat) (s : State) : Out :=
  let k := s.core core
  let now := s.cycle (dieOf core)
  let live := servePins (now - k.pinsAt) [] k.pins
  let holders := ((live.filter fun p => p.slot == slot && p.cid != cid).map (·.cid)).eraseDups
  let mine := (live.filter fun p => p.slot == slot && p.cid == cid).length
  let wins := s.bankGrants core slot bank live ((s.onSlot core slot).map (·.cid)) == some cid
  if losses < 3 ∨ 4 ≤ holders.length ∨ 12 ≤ mine ∨ wins then .next (s.setCore { k with pins := live, pinsAt := now })
  else
    let older (p : PinEntry) : Bool := p.at_ < now || (match s.cohort? p.cid, s.cohort? cid with
      | some a, some b => !b.older a
      | _, _ => true)
    .next (s.setCore { k with
      pins := live.takeWhile older ++ [{ slot := slot, bank := bank, cid := cid, at_ := now }] ++ live.dropWhile older, pinsAt := now })

end Sys2Proof.Machine
end

