-- ==== Sys2Proof/Machine/Halt.lean ====
section
/-!
DEFINITION. Machine/Halt.lean: stopping a context (R226 to R232), entering its handler (R239), events that reach every cohort of
a context (R238), resuming (R242) and destroying it (R207, R309).
-/

namespace Sys2Proof.Machine

/-! ### COHORT_STOP and ENGINE_STOP (R227, R229, R334, R359) -/

/-- A cohort stops: its waiting instruction is abandoned, a held baton passes with BHELD set, the A-operand latch is dropped, and a
cohort that raised nothing keeps $CAUSE and takes $EPC; an event pending from an earlier stop is taken now, with its detail (R145,
R227, R238, R334, R359). The control state that it takes $EPC from is that of before the abandoned instruction. -/
def State.stopCohort (s : State) (c : Cohort) : State :=
  let s1 := s.abandon c
  let held := s1.holdsBaton c
  let s2 := if held then s1.passBaton c.core else s1
  match s2.cohort? c.cid with
  | none => s2
  | some d =>
    let e :=
      if d.raised then d
      else match d.nextPending with
        | some (v, p) => p.takeCause v
        | none => { d with epc := d.stopPc, laneRecs := [] }
    s2.setCohort { e with stopped := true, kept := .none, latch := none, bheld := held || d.bheld }

/-- Whether an atomic of a cohort is part done and can be finished: not one that an Indigo pair will never compare, because the context
cannot go on or the twin has stopped (R142, R227, R297). -/
def State.midAtomic (s : State) (c : Cohort) (x : Ctx) : Bool :=
  match c.rmw with
  | none => false
  | some r => !(r.asked && (x.noResume || (c.twin.bind s.cohort?).all (·.stopped)))

/-- Whether a cohort waits in a FENCE or a CCTL, for whose accesses a stop waits, and which can end: not one whose store windows an Indigo pair
will never compare (R227, R297, R362). -/
def State.midFence (s : State) (c : Cohort) (x : Ctx) : Bool :=
  c.mustEnd && !(c.role != .single && (x.noResume || (c.twin.bind s.cohort?).all (·.stopped)))

/-- COHORT_STOP: a cohort that sees its context's halt line stops at the instruction boundary (R227); one that has left its handler by
TRET waits for the line to fall (R241). -/
def execCohortStop (cid : Nat) (s : State) : Out :=
  match s.cohort? cid with
  | none => .next s
  | some c =>
    match s.ctx? c.ctx with
    | none => .next s
    | some x => if x.halt && !c.stopped && !x.inHandler && !s.midAtomic c x && !s.midFence c x then .next (s.stopCohort c) else .next s

/-- ENGINE_STOP: the engines that hold work of a halted context stop; each unit of work in progress is whole (R229). -/
def execEngineStop (ctx : BitVec 16) (s : State) : Out :=
  match s.ctx? ctx with
  | none => .next s
  | some x => if x.halt then .next (s.setCtx { x with enginesStopped := true }) else .next s

/-! ### Engine stop records (R230) -/

/-- An engine stop record of 256 bytes (R230): STOPC equals HALTC, because no unit of work is in progress between steps. -/
def engineRecord (k : BitVec 16) (unit kind nent haltc body : Nat) : List Byte :=
  natBytes 256 (packBits [(0, k.toNat), (16, unit), (32, kind), (40, nent), (256, haltc), (320, haltc), (512, body)])

/-- The matrix engine's entries: accepted MMAs in order (R230). -/
def matrixBody (ms : List Mma) : Nat := packBits (ms.mapIdx fun i m => (16 * i, m.step + m.bank * 32 + m.place * 1024))

/-- One job's entry of 384 bits (R230). -/
def jobEntry (j : Job) : Nat :=
  let i := if j.kind = .epiRec then j.next / 32 else j.next
  packBits [(0, j.recAddr.toNat % 2 ^ 53), (64, j.ctrVa.toNat), (128, i % 2 ^ 32), (160, j.pc.toNat), (192, j.place), (198, j.opc.toNat)]

/-- Whether a job is the copy interface's (KIND 2) or the epilogue engine's (KIND 3). -/
def JobKind.engine : JobKind → Nat
  | .epiTile | .epiRec => 3
  | .collStep => 4
  | _ => 2

/-- The engine stop records of a context, in ascending KIND and then UNIT, each with its own die's count (R230, R231). -/
def State.engineRecords (s : State) (k : BitVec 16) (haltAt : List Nat) : List (List Byte) :=
  let haltc (d : Nat) : Nat := haltAt.getD d 0
  let cores := (List.range 1536).filter fun c => s.cores.any (·.core == c) || s.jobs.any (·.core == c)
  let mm := cores.filterMap fun c =>
    let ms := (s.core c).mmaQ.filter fun m => m.ctx == k
    if ms = [] then none else some (engineRecord k c 1 ms.length (haltc (dieOf c)) (matrixBody ms))
  let jobs (kind : Nat) := cores.filterMap fun c =>
    let js := (s.jobs.filter fun j => j.ctx == k && j.core == c && j.kind.engine == kind).take 4
    if js = [] then none else some (engineRecord k c kind js.length (haltc (dieOf c)) (packBits (js.mapIdx fun i j => (384 * i, jobEntry j))))
  let fab := (List.range 16).filterMap fun d =>
    let pulls := (s.pulls.filter fun p => (s.job? p.job).any fun j => j.ctx == k && dieOf j.core == d).length
    let colls := (s.colls.filter fun c => c.ctx == k && c.started && (s.job? c.id).isSome && dieOf c.core == d).length
    let held := ((s.ports.filter fun p => p.num / 2 == d).flatMap (·.held)).length
    if pulls = 0 ∧ colls = 0 then none else some (engineRecord k d 4 1 (haltc d) (packBits [(0, pulls), (32, colls), (64, held)]))
  mm ++ jobs 2 ++ jobs 3 ++ fab

/-! ### The stop area (R231, R239) -/

/-- Records written one after another from an offset: how many, the offset reached, and the state; a record that would pass
STOPLEN or meets a page that cannot be written ends the list. -/
def writeRecords (k : BitVec 16) (base len : Nat) : List (List Byte) → Nat → State → Except State (Nat × Nat × State)
  | [], off, s => .ok (0, off, s)
  | bs :: rest, off, s =>
    if len < off + bs.length then .ok (0, off, s)
    else match s.feWrite k (base + off) bs with
      | .error (.busy t) => .error t
      | .error (.bad _) => .ok (0, off, s)
      | .ok t =>
        match writeRecords k base len rest (off + bs.length) t with
        | .error u => .error u
        | .ok (n, o, u) => .ok (n + 1, o, u)

/-- The resident cohorts of a context in ascending core, slot and place (R231). -/
def State.stopOrder (s : State) (k : BitVec 16) : List Cohort :=
  (s.cohorts.filter fun c => c.ctx == k).foldl (fun (acc : List Cohort) c =>
    let lt (d : Cohort) : Bool := d.core < c.core || (d.core == c.core && d.place < c.place)
    acc.filter lt ++ [c] ++ acc.filter fun d => !lt d) []

/-- Whether every cohort whose $CAUSE this stop set may enter the handler (R239). -/
def Ctx.handles (x : Ctx) (raisers : List Cohort) : Bool :=
  match x.trap with
  | none => false
  | some t => raisers != [] && !x.double && raisers.all fun c => !c.jobSide && !c.hmode && t.hmask.getLsbD c.cause.toNat

/-- The stop summary (R231). -/
def stopSummary (x : Ctx) (handler trunc : Bool) (ncoh neng engoff : Nat) : List Byte :=
  natBytes 64 (packBits [(0, x.firstCause.toNat), (32, bit01 trunc), (33, bit01 handler), (34, bit01 x.double), (40, x.stopNum.toNat),
    (64, x.ctxid.toNat), (80, x.firstCore.toNat), (96, x.firstPc.toNat), (128, ncoh), (160, neng), (192, engoff)])

/-- The cohorts that raised the stop enter handler mode (R239). -/
def State.enterHandlers (s : State) (k : BitVec 16) : State :=
  match s.ctx? k with
  | none => s
  | some x =>
    match x.trap with
    | none => s
    | some t =>
      let enter (c : Cohort) : Cohort := { c.enterHandler t.hentry with stopped := false, wait := .none }
      { s.setCtx { x with inHandler := true } with
        cohorts := s.cohorts.map fun c => if c.ctx == k && c.raised then enter c else c }

/-- STOP_AREA_WRITE: when every unit of a halted context has stopped, the front end of die 0 writes the cohort and engine
records and last the summary, and the cohorts that raised the stop enter the handler when all of them qualify (R231, R239). -/
def execStopAreaWrite (ctx : BitVec 16) (s : State) : Out :=
  match s.ctx? ctx with
  | none => .next s
  | some x =>
    let cs := s.stopOrder ctx
    if !x.halt || x.stopWritten || x.inHandler || !x.enginesStopped || !(cs.all (·.stopped)) then .next s
    else
      match x.trap with
      | none => .next (s.setCtx { x with stopWritten := true, stopRecs := [] })
      | some t =>
        let base := t.stopa.toNat
        let len := t.stoplen.toNat
        let recs := cs.map Cohort.stopRecord
        let engs := s.engineRecords ctx x.haltAt
        match writeRecords ctx base len recs 64 s with
        | .error u => .next u
        | .ok (n, off, s1) =>
          match (if n < recs.length then .ok (0, off, s1) else writeRecords ctx base len engs off s1) with
          | .error u => .next u
          | .ok (m, _, s2) =>
            let trunc : Bool := n < recs.length || m < engs.length
            let go := x.handles (cs.filter (·.raised))
            let offs := ((recs.take n).foldl (fun (p : List (Nat × Nat) × Nat) r => (p.1 ++ [(p.2, r.length)], p.2 + r.length)) ([], 64)).1
            let kept := (cs.zip offs).map fun q => (q.1.cid, q.2.1, q.2.2)
            let mark (u : State) : State := match u.ctx? ctx with
              | some y => u.setCtx { y with stopWritten := true, stopRecs := kept }
              | none => u
            if len < 64 then .next (mark s2)
            else match s2.feWrite ctx base (stopSummary x (go || x.double) trunc n m off) with
              | .error (.busy u) => .next u
              | .error (.bad _) => .next (mark s2)
              | .ok u => .next (if go then (mark u).enterHandlers ctx else mark u)

/-! ### Events that reach every cohort of a context (R234, R238) -/

/-! ### RESUME (R242) -/

/-- The groups after which a context can only be destroyed (R242). -/
def finalGroups : List Nat := [7, 13, 15, 18]

/-- Whether a stopped context may be resumed (R242). -/
def State.mayResume (s : State) (x : Ctx) : Bool :=
  let bad (c : Cohort) : Bool := finalGroups.any fun g => c.cause.toNat == g || c.pend.getLsbD g
  x.halt && x.stopWritten && !x.inHandler && !x.noResume && !(s.cohorts.any fun c => c.ctx == x.ctxid && bad c) &&
  !(s.saved.any fun v => v.cohorts.any fun c => c.ctx == x.ctxid && bad c)

/-- Cohorts restored from their records in the stop area: those restored, and those whose record held a tag code of 11 (R242, R68). -/
def restoreStopped (k : BitVec 16) (base : Nat) : List (Nat × Nat × Nat) → State → Except State (List Nat × List Nat × State)
  | [], s => .ok ([], [], s)
  | (cid, off, len) :: rest, s =>
    match s.cohort? cid with
    | none => restoreStopped k base rest s
    | some c =>
      match s.feRead k (base + off) len with
      | .error (.busy t) => .error t
      | .error (.bad _) => restoreStopped k base rest s
      | .ok (bs, t) =>
        match c.restoreFrom bs with
        | some d =>
          match restoreStopped k base rest (t.setCohort d) with
          | .error u => .error u
          | .ok (good, bad, u) => .ok (cid :: good, bad, u)
        | none =>
          match restoreStopped k base rest t with
          | .error u => .error u
          | .ok (good, bad, u) => .ok (good, cid :: bad, u)

/-- A restored cohort goes on: its G registers obtain rows, and R34 applies to the control state that the runtime may have edited (R34,
R68, R242). -/
def State.resumeCohort (s : State) (cid : Nat) : State :=
  let t := s.settleAll cid
  match t.cohort? cid with
  | some c => t.settleCohort c
  | none => t

/-- A resume: the cohorts are restored, the halt line falls, and what was found or pending is taken before the next instruction
(R242, R238). -/
def State.resumeCtx (s : State) (x : Ctx) : Except State State :=
  let base := match x.trap with
    | some t => t.stopa.toNat
    | none => 0
  match restoreStopped x.ctxid base x.stopRecs s with
  | .error t => .error t
  | .ok (good, bad, t) =>
    let t1 := good.foldl (fun u cid => u.resumeCohort cid) (t.haltFall x.ctxid)
    let t2 := bad.foldl (fun u cid => match u.cohort? cid with
      | some c => u.raiseReason c 12 5
      | none => u) t1
    .ok ((t2.cohorts.filter fun c => c.ctx == x.ctxid && c.pend != 0).foldl (fun u c => u.takePending ((u.cohort? c.cid).getD c)) t2).podTryAll

/-! ### Destroying a context (R207, R309) -/

/-- What the front end could do at once, or the state as it was. -/
def orBefore (s : State) (r : Except State State) : State :=
  match r with
  | .ok t => t
  | .error _ => s

/-- A packet of a destroyed context completes at once with code 15, with the successors it spawned (R207). An entry whose copies are both lost
names no signal (R223). -/
def State.destroyPacket (s : State) (p : PacketEntry) : State :=
  let own := (s.launches.filter fun l => l.queue == p.queue && l.seq == p.seq && l.successor && !l.complete).map (·.signal)
  let s1 := own.foldl (fun t va => orBefore t (t.signalDec p.ctx va)) s
  let s2 := orBefore s1 (s1.errRecord p.queue p.seq 15 0)
  match s2.readEntry p with
  | (some u, _) => orBefore (u.setPacket { p with done := true, started := true }) (u.completePacket p)
  | (none, r) => (orBefore s2 r).setPacket { p with done := true, started := true }

/-- What a context does leaves the package: cohorts, workgroups, banks, jobs, translations and requests (R155, R336). DESIGN CHOICE: a
reservation for one of its launches ends with it (R30; log entry 91). -/
def State.removeCtx (s0 : State) (k : BitVec 16) : State :=
  let s : State := match s0.ctx? k with
    | some x => (s0.cohorts.filter fun c => c.ctx == k).foldl (fun (t : State) c => State.flushWindow x c.cid 1024 t) s0
    | none => s0
  let cids := (s.cohorts.filter fun c => c.ctx == k).map (·.cid)
  let wgids := (s.wgs.filter fun w => (s.cohorts.any fun c => c.wg == w.id && c.ctx == k) || (s.launch? w.launch).any fun l => l.ctx == k)
  let jids := (s.jobs.filter fun j => j.ctx == k).map (·.id)
  let core (x : CoreState) : CoreState :=
    { x with
      banks := x.banks.map fun (b : Bank) => if b.owner.any cids.contains then { owner := none, freed := false, vals := [] } else b,
      bankQ := x.bankQ.filter fun q => !cids.contains q.1,
      mmaQ := x.mmaQ.filter fun m => m.ctx != k,
      board := x.board.filter fun e => !jids.contains e.job,
      tlb := x.tlb.filter fun e => e.ctx != k,
      ibuf := x.ibuf.filter fun e => e.ctx != k,
      reserve := if x.reserve.any fun r => (s.launch? r.1).any fun l => l.ctx == k then none else x.reserve,
      baton := if x.baton.any cids.contains then none else x.baton }
  let s1 : State := { s with
    cores := s.cores.map core,
    quads := s.quads.map fun (q : QuadState) => { q with tlb := q.tlb.filter (fun e => e.ctx != k), walk := q.walk.filter fun e => e.ctx != k },
    dies := s.dies.map fun (d : DieState) => { d with walk := d.walk.filter fun e => e.ctx != k },
    cohorts := s.cohorts.filter (fun c => c.ctx != k),
    wgs := s.wgs.filter (fun w => !(wgids.any fun v => v.id == w.id)),
    saved := s.saved.filter (fun v => !(v.cohorts.any fun c => c.ctx == k)),
    parked := s.parked.filter (fun p => p.ctx != k),
    landings := s.landings.filter (fun g => !cids.contains g.target),
    waitTable := s.waitTable.filter (fun e => e.ctx != k),
    pageReqs := s.pageReqs.filter (fun r => r.ctx != k),
    jobs := s.jobs.filter (fun j => j.ctx != k),
    pulls := s.pulls.filter (fun p => !jids.contains p.job),
    colls := s.colls.filter (fun (c : Coll) => c.ctx != k),
    progs := s.progs.filter (fun g => g.ctx != k),
    podBars := s.podBars.filter (fun b => b.ctx != k) }
  (s.cores.map (·.core)).foldl (fun t c => (t.offerBaton c).grantBanks c) s1

/-- A context is destroyed (R207, R309): its work goes, its packets complete at once (no launch of it executes any more, so that none of
its pages is held), its queues break, and it is registered no longer. -/
def State.destroyCtx (s : State) (k : BitVec 16) : State :=
  let s1 := s.removeCtx k
  let s2 : State := { s1 with
    launches := s1.launches.map fun (l : Launch) => if l.ctx = k then { l with started := false } else l,
    ctxs := s1.ctxs.map fun (x : Ctx) => if x.ctxid = k then { x with pinned := [] } else x }
  let s3 := ((s2.packets.filter fun p => p.ctx == k && !p.done).foldl State.destroyPacket s2).fwCommit 0 noEvent
  { s3 with
    queues := s3.queues.map fun (q : Queue) => if q.ctx = k then { q with broken := true, widx := none } else q,
    launches := s3.launches.filter (fun l => l.ctx != k),
    ctxs := s3.ctxs.filter (fun x => x.ctxid != k) }

end Sys2Proof.Machine
end

