-- ==== Sys2Proof/Machine/Fabric.lean ====
section
/-!
DEFINITION. Machine/Fabric.lean: collectives (R182 to R187, R210), pulls (R175 to R179), flits and ports (R189 to R193) and the
pod barrier's packets (R194, R348).
-/

namespace Sys2Proof.Machine

/-! ### Groups and folds (R184 to R186) -/

/-- The ranks of a rank-table group with their entries, in rank order; a package without a table is alone in group 0 (R184). -/
def State.groupRanks (s : State) (g : Nat) : List (Nat × RankEntry) :=
  match s.adopted with
  | none =>
    if g = 0 then
      [(s.pkgRank.toNat, { groups := 1, shard := 0, pdom := s.pdom, pod := 0, state := 0, faddr := s.faddr, resv := 0 : RankEntry })]
    else []
  | some t => (t.entries.mapIdx fun r e => (r, e)).filter fun p => p.2.groups.getLsbD g

/-- This package's position in a group. -/
def State.position (s : State) (g : Nat) : Option Nat := (s.groupRanks g).findIdx? fun p => p.2.faddr == s.faddr && p.2.state != 2

/-- Whether every rank of a group is active (R262). -/
def State.groupActive (s : State) (g : Nat) : Bool := (s.groupRanks g).all fun p => p.2.state == 0

/-- ⊕ on one element (R186): RED 0 sum, 1 maximum, 2 minimum. -/
def collFold (t : Typ) (red x y : Nat) : Nat :=
  let f := fmtOf t
  if t = .f32 ∨ t = .u32 ∨ t = .s32 then
    (foldLane t (if red = 0 then 0 else if red = 1 then 2 else 1) (BitVec.ofNat 32 x) (BitVec.ofNat 32 y)).1.toNat
  else if red = 0 then (roundArith f .rne 0 (fpAdd .rne (fpVal f x) (fpVal f y)).1).1
  else fpMinMax f (red == 1) x y

/-- The algorithm of a collective of `n` units (R186): ALG, or the automatic choice, whose tree limit is `small`. -/
def collAlg (alg n p small : Nat) : Nat := if alg ≠ 0 then alg else if n ≤ small then 2 else if p ≤ 256 then 1 else 3

/-- One level of a tree: adjacent survivors combine, and an odd last one passes up. -/
def treeLevel (f : Nat → Nat → Nat) : List Nat → List Nat
  | a :: b :: rest => f a b :: treeLevel f rest
  | xs => xs

/-- A tree's levels until one value is left. -/
def treeFold (f : Nat → Nat → Nat) : Nat → List Nat → Nat
  | 0, xs => xs.headD 0
  | n + 1, xs => if xs.length ≤ 1 then xs.headD 0 else treeFold f n (treeLevel f xs)

/-- Values folded from the left. -/
def leftFold (f : Nat → Nat → Nat) : List Nat → Nat
  | [] => 0
  | x :: xs => xs.foldl f x

/-- A list cut into blocks of 16. -/
def blocks16 : Nat → List Nat → List (List Nat)
  | 0, _ => []
  | n + 1, xs => if xs = [] then [] else xs.take 16 :: blocks16 n (xs.drop 16)

/-- The fold of the P contributions to one element, by position, for a chunk that starts at position `s` (R186). -/
def foldAll (alg s : Nat) (f : Nat → Nat → Nat) (xs : List Nat) : Nat :=
  if alg = 2 then treeFold f xs.length xs
  else if alg = 3 then leftFold f ((blocks16 xs.length xs).map (leftFold f))
  else leftFold f (xs.drop s ++ xs.take s)

/-- What a collective makes of the contributions: the final bytes of a chunk (R185). `xs` are the chunk's bytes by position. -/
def chunkFinal (sub : Nat) (t : Typ) (red alg root c : Nat) (xs : List (List Byte)) : List Byte :=
  let p := xs.length
  if sub = 2 then xs.getD (c % p) []
  else if sub = 3 then xs.getD root []
  else
    let w := elemBits t / 8
    let n := (xs.headD []).length / w
    (List.range n).flatMap fun i =>
      natBytes w (foldAll alg (c % p) (collFold t red) (xs.map fun b => leNat ((b.drop (i * w)).take w)))

/-- A tree's values after `k` levels. -/
def treeAfter (f : Nat → Nat → Nat) : Nat → List Nat → List Nat
  | 0, xs => xs
  | k + 1, xs => treeAfter f k (treeLevel f xs)

/-- What a partial chunk of position `me` may hold in one element: the prefixes of its fold order that include the own contribution and
another, and are not the whole fold (R186). A tree's prefixes are its levels, and a two-level fold's those within the own block and then
those of whole blocks (DEDUCED, log entry 19). -/
def partials (alg s me : Nat) (f : Nat → Nat → Nat) (xs : List Nat) : List Nat :=
  let p := xs.length
  let runs (at_ : Nat) (ys : List Nat) (whole : Bool) : List Nat :=
    ((List.range (ys.length + 1)).filter fun n => at_ < n && 2 ≤ n && (n < ys.length || !whole)).map fun n => leftFold f (ys.take n)
  if alg = 2 then
    ((List.range p).filter fun k => 1 ≤ k && 2 ^ k < p && me / 2 ^ k * 2 ^ k + 1 < p).map fun k => (treeAfter f k xs).getD (me / 2 ^ k) 0
  else if alg = 3 then
    let bs := blocks16 p xs
    runs (me % 16) (bs.getD (me / 16) []) (bs.length ≤ 1) ++
      (if bs.length ≤ 1 then [] else runs (me / 16) (bs.map (leftFold f)) true)
  else runs ((me + p - s % p) % p) (xs.drop s ++ xs.take s) true

/-- The bytes of a partial chunk; `none` where no proper prefix includes the own contribution. -/
def chunkPartial (id : Nat) (t : Typ) (red alg me c : Nat) (xs : List (List Byte)) : Option (List Byte) :=
  let w := elemBits t / 8
  let n := (xs.headD []).length / w
  let at_ (i : Nat) : List Nat := partials alg (c % xs.length) me (collFold t red) (xs.map fun b => leNat ((b.drop (i * w)).take w))
  let k := (at_ 0).length
  if k = 0 then none else some ((List.range n).flatMap fun i => natBytes w ((at_ i).getD (Config.collPrefix id c % k) 0))

/-- A chunk that an abort, or the end of a `.rscat`, leaves in the state it has reached: its code and bytes (R185 to R187). `xs` are its
bytes by position. -/
def chunkReached (id sub : Nat) (t : Typ) (red alg root me c : Nat) (xs : List (List Byte)) : Nat × List Byte :=
  let own := xs.getD me []
  let whole := (2, chunkFinal sub t red alg root c xs)
  match (Config.collReach id c).toNat with
  | 2 => whole
  | 1 => if 2 ≤ sub then (0, own) else match chunkPartial id t red alg me c xs with
    | some bs => (1, bs)
    | none => whole
  | _ => (0, own)

/-- A collective's outcome on a package, chunk by chunk: codes and bytes. -/
def collOutcome (id sub : Nat) (t : Typ) (red alg root me : Nat) (abort : Bool) (chunks : List (List (List Byte))) : List (Nat × List Byte) :=
  chunks.mapIdx fun c xs =>
    if abort ∨ (sub = 1 ∧ c % xs.length ≠ me) then chunkReached id sub t red alg root me c xs else (2, chunkFinal sub t red alg root c xs)

/-- The windows of all positions, where those of the other packages have not come here (log entry 19). -/
def windowsOf (id p me : Nat) (own : List Byte) : List (List Byte) :=
  (List.range p).map fun k => if k = me then own else own.mapIdx fun i _ => Config.collPeer id k i

/-- MAP from chunk codes: 11 for chunks that do not exist (R186). -/
def mapOf (codes : List Nat) : Nat := packBits ((List.range 32).map fun c => (2 * c, codes.getD c 3))

/-- Bytes cut into chunks of `z`. -/
def cutBytes : Nat → Nat → List Byte → List (List Byte)
  | 0, _, _ => []
  | n + 1, z, bs => if bs = [] then [] else bs.take z :: cutBytes n z (bs.drop z)

/-- The chunks of every position: chunk by chunk, the bytes by position. -/
def chunksByPos (z : Nat) (all : List (List Byte)) : List (List (List Byte)) :=
  let cut := all.map (cutBytes 64 z)
  (List.range ((cut.headD []).length)).map fun c => cut.map fun x => x.getD c []

/-! ### COLL (R184 to R187) -/

/-- The window of a collective as software sees its bytes (R147). -/
def State.collWindow (s : State) (k : Coll) : List Byte := (List.range (128 * k.nlines)).map fun i => s.tileByte k.core k.line0 k.ilv i

/-- The bytes of a window are written. -/
def State.putWindow (s : State) (k : Coll) (bs : List Byte) : State :=
  (bs.mapIdx fun i b => (i, b)).foldl (fun t ib => t.putTileByte k.core k.line0 k.ilv ib.1 ib.2) s

/-- The window's core lines. -/
def Coll.lines (k : Coll) : List Nat := (List.range k.nlines).map (k.line0 + ·)

/-- Cohorts of the workgroup of a collective, which each issue it (R184). -/
def State.collSize (s : State) (k : Coll) : Nat := ((s.launch? k.launch).map (·.kern.wgsize)).getD 1

/-- A collective has ended: its step of the footprint order ends too (R139). One that some cohort has still to issue, after an abort, is kept
until it has (R184, R187). -/
def State.dropColl (s : State) (k : Coll) : State :=
  { s with colls := if s.collSize k ≤ k.issued.length then s.colls.filter fun (x : Coll) => x.id != k.id else s.colls,
           jobs := s.jobs.filter fun j => j.id != k.id }

/-- An object with its MAP replaced (R185). -/
def collMap (o map : Nat) : Nat := packBits [(0, bitsOf o 63 0), (64, map), (128, bitsOf o 255 128)]

/-- The object of a collective after it (R185, R187): MAP, then an arrival, or on an abort STATUS 01 and the end of the phase
whatever PEND holds. -/
def collObject (o map : Nat) (gen : Word) (abort : Bool) : Nat :=
  let m := collMap o map
  if abort then objSet m ((objPhase m + 1) % 65536) (objExpect m) 1 gen.toNat else objArrive m gen

/-- The outcome of a collective in its window, whose lines are full (R185). -/
def State.landColl (s : State) (k : Coll) (out : List (Nat × List Byte)) : State :=
  let s1 := s.putWindow k (out.flatMap (·.2))
  s1.setCore ((s1.core k.core).setFull k.lines)

/-- A collective ends on this package with an outcome per chunk. It arrives on its object as ARRIVE would: DEDUCED, an object with EXPECT 0
gets its MAP and no arrival, and the context stops with group 11, reason 6 (R181, R185; log entry 97). Where the object can no longer be
reached, an abort leaves it as it is, and a completion waits for its page or stops the context (log entry 96). -/
def State.endColl (s : State) (k : Coll) (out : List (Nat × List Byte)) (abort : Bool) : State :=
  match s.job? k.id with
  | none => s
  | some j =>
    match s.endPlace j k.held k.objVa k.objPa k.objLeaf 1 with
    | .error t => if abort then (s.landColl k out).dropColl k else t
    | .ok (t, key, leaf) =>
      if !abort && s.wordHeld key 32 then s
      else if t.poisoned key 32 then ((t.landColl k out).dropColl k).jobFail j (.data key)
      else
        let t1 := ((match leaf with
          | some l => t.setLeaf l 0x40
          | none => t).noteLine key 0 0).landColl k out
        let o := memNat t1.mem key 32
        let map := mapOf (out.map (·.1))
        if !abort && objExpect o == 0 then
          ((t1.storeNat key 32 (collMap o map)).dropColl k).jobCause j.cid j.ctx 11 (BitVec.ofNat 96 (6 * 2 ^ 64)) j.pc
        else (t1.storeNat key 32 (collObject o map s.mgen abort)).dropColl k

/-- A collective aborts: every chunk stays whole in the state it has reached (R187); one that has not started, or lies outside its group, is
as it was. -/
def State.abortColl (s : State) (k : Coll) : State :=
  let own := s.collWindow k
  let n := (s.groupRanks k.group).length
  match s.position k.group with
  | some me =>
    if k.started then
      s.endColl k (collOutcome k.id k.sub k.typ k.red (collAlg k.alg k.nlines n 8) k.root me true (chunksByPos 256 (windowsOf k.id n me own))) true
    else s.endColl k ((cutBytes 64 256 own).map fun b => (0, b)) true
  | none => s.endColl k ((cutBytes 64 256 own).map fun b => (0, b)) true

/-- Whether a collective breaks R184 on this package alone: it lies outside the group, or names a ROOT that does not exist. -/
def State.collMisfit (s : State) (k : Coll) : Bool :=
  (s.position k.group).isNone || (k.sub == 3 && (s.groupRanks k.group).length ≤ k.root)

/-- A mismatch: the participant aborts, and its context stops with group 11, reason 9 (R184). -/
def State.collMismatch (s : State) (k : Coll) : State :=
  (s.abortColl k).jobCause k.cid k.ctx 11 (BitVec.ofNat 96 (9 * 2 ^ 64)) k.pc

/-- A collective ends with the contributions of the other positions, given in position order (R185). -/
def State.finishColl (s : State) (k : Coll) (me : Nat) (peers : List (List Byte)) : State :=
  let all := peers.take me ++ [s.collWindow k] ++ peers.drop me
  let alg := collAlg k.alg k.nlines all.length 8
  s.endColl k (collOutcome k.id k.sub k.typ k.red alg k.root me false (chunksByPos 256 all)) false

/-- COLLECTIVE_START: a collective starts on this package once its last cohort has issued it, every window line is full, no
earlier command holds it (R139) and every rank of the group is active (R184, R262). Alone, it completes at its start; one that was aborted
before the communication cohort issued it aborts (R187). -/
def execCollectiveStart (coll : Nat) (s : State) : Out :=
  match s.colls.find? fun (k : Coll) => k.id == coll, s.job? coll with
  | some k, some j =>
    let alone := (s.groupRanks k.group).length = 1
    if s.halted k.ctx then .next s
    else if k.aborted then .next (s.abortColl k)
    else if (k.started && !alone) || !k.ready || k.issued.length < s.collSize k || s.jobBlocked j || !s.linesFull k.core k.lines then .next s
    else if s.collMisfit k then .next (s.collMismatch k)
    else if s.groupActive k.group = false then .next s
    else match k.lines.find? (s.lineBad k.core) with
      | some n => .next (s.jobFail j (.data (tileKey k.core (128 * n))))
      | none =>
        let s1 := { s with colls := s.colls.map fun (x : Coll) => if x.id = coll then { x with started := true } else x }
        if alone then .next (s1.finishColl k 0 []) else .next s1
  | _, _ => .next s

/-- COLLECTIVE_COMPLETE: a started collective ends. `peers` are the other participants' windows in position order; `mismatch` says
that the participants differ (R184). -/
def execCollectiveComplete (coll : Nat) (peers : List (List Byte)) (mismatch : Bool) (s : State) : Out :=
  match s.colls.find? fun (k : Coll) => k.id == coll with
  | none => .next s
  | some k =>
    if k.started = false ∨ s.halted k.ctx then .next s
    else if mismatch then .next (s.collMismatch k)
    else match s.position k.group with
      | none => .next (s.collMismatch k)
      | some me =>
        if peers.length + 1 = (s.groupRanks k.group).length ∧ peers.all (fun b => b.length == 128 * k.nlines) = true then
          .next (s.finishColl k me peers)
        else .next s

/-! ### Collective programs (R210) -/

/-- A step's fields (R209). -/
structure ProgStep where
  imm  : Nat
  sub  : Nat
  typ  : Typ
  buf  : Nat
  len  : Nat
deriving DecidableEq, Repr

/-- The fields of a 32-byte entry (R209). -/
def progStepOf (bs : List Byte) : ProgStep :=
  let w := recWord bs 0
  { imm := bitsOf w 31 0, sub := bitsOf w 35 32, typ := Typ.ofCode (BitVec.ofNat 4 (bitsOf w 39 36)), buf := recWord bs 1, len := recWord bs 2 }

/-- Whether a step's operation is one that COLL accepts (R183). DESIGN CHOICE: R209 refuses a bundle for a bad length or buffer, and names no
outcome for an entry whose SUB, TYP, RED or ROOT COLL would refuse; its step aborts with code 13 as a mismatch does (log entry 84). -/
def ProgStep.ok (p : ProgStep) : Bool :=
  let red := bitsOf p.imm 1 0
  p.sub ≤ 3 && red != 3 && (p.sub ≤ 1 || red == 0) && (p.sub == 3 || bitsOf p.imm 31 8 == 0) &&
  (2 ≤ p.sub || [Typ.u32, .s32, .f32, .f16, .bf16].contains p.typ)

/-- The end of a program's step: its MAP goes to word 3 of its entry, and on an abort the rest is not run and the bundle's error
record takes code 13 (R210). -/
def State.progEnd (s : State) (g : CollProg) (abort : Bool) (codes : List Nat) : Except State State :=
  let ended (t : State) : State := { t with progs := t.progs.filter fun x => x.id != g.id }
  match s.feWrite g.ctx (g.list.toNat + 32 * g.next + 24) (natBytes 8 (mapOf codes)) with
  | .error (.busy t) => .error t
  | .error (.bad _) => (ended s).errRecord g.queue g.seq 13 0
  | .ok t =>
    if abort then (ended t).errRecord g.queue g.seq 13 0
    else if g.count ≤ g.next + 1 then .ok (ended t)
    else .ok { t with progs := t.progs.map fun (x : CollProg) => if x.id = g.id then { x with next := g.next + 1 } else x }

/-- The chunks of a step's buffer, by the windows of all positions; `z` bytes each (R210). -/
def ProgStep.chunks (p : ProgStep) (all : List (List Byte)) : List (List (List Byte)) := chunksByPos (256 * ((p.len + 8191) / 8192)) all

/-- The outcome of a step of `n` positions (R210). -/
def ProgStep.outcome (p : ProgStep) (id n me : Nat) (abort : Bool) (all : List (List Byte)) : List (Nat × List Byte) :=
  collOutcome id p.sub p.typ (bitsOf p.imm 1 0) (collAlg (bitsOf p.imm 3 2) p.len n 1024) (bitsOf p.imm 31 8) me abort (p.chunks all)

/-- A step of a program aborts: its chunks stay as they are or as they have become (R187, R210). -/
def State.progAbort (s : State) (g : CollProg) (p : ProgStep) : Except State State :=
  match s.feRead g.ctx p.buf p.len with
  | .error (.busy t) => .error t
  | .error (.bad _) => s.progEnd g true []
  | .ok (own, t) =>
    let n := (s.groupRanks (bitsOf p.imm 7 4)).length
    match s.position (bitsOf p.imm 7 4), p.ok with
    | some me, true =>
      let out := p.outcome (g.id + g.next) n me true (windowsOf (g.id + g.next) n me own)
      match t.feWrite g.ctx p.buf (out.flatMap (·.2)) with
      | .error (.busy u) => .error u
      | .error (.bad _) => t.progEnd g true []
      | .ok u => u.progEnd g true (out.map (·.1))
    | _, _ => t.progEnd g true ((p.chunks [own]).map fun _ => 0)

/-- The step at which a program stands aborts, with the reading of its entry (R210). DESIGN CHOICE: where the entry, the buffer or the MAP
word cannot be accessed while the program runs, it ends with code 13 (log entry 91). -/
def State.progStop (s : State) (g : CollProg) : Except State State :=
  match s.feRead g.ctx (g.list.toNat + 32 * g.next) 32 with
  | .error (.busy t) => .error t
  | .error (.bad _) => s.progEnd g true []
  | .ok (bs, t) => t.progAbort g (progStepOf bs)

/-- The end of a step whose participants have all come (R210). -/
def State.progFinish (s : State) (g : CollProg) (p : ProgStep) (me : Nat) (peers : List (List Byte)) : Except State State :=
  match s.feRead g.ctx p.buf p.len with
  | .error (.busy t) => .error t
  | .error (.bad _) => s.progAbort g p
  | .ok (own, t) =>
    let all := peers.take me ++ [own] ++ peers.drop me
    let out := p.outcome (g.id + g.next) all.length me false all
    match t.feWrite g.ctx p.buf (out.flatMap (·.2)) with
    | .error (.busy u) => .error u
    | .error (.bad _) => t.progAbort g p
    | .ok u => u.progEnd g false (out.map (·.1))

/-- COLL_PROGRAM_STEP: the next step of a program of die 0's fabric engine, once every participant has reached it (R210). -/
def execCollProgramStep (prog : Nat) (peers : List (List Byte)) (mismatch : Bool) (s : State) : Out :=
  match s.progs.find? fun g => g.id == prog with
  | none => .next s
  | some g =>
    if s.halted g.ctx then .next s
    else if g.dead then feOut s noEvent (s.progStop g)
    else match s.feRead g.ctx (g.list.toNat + 32 * g.next) 32 with
      | .error (.busy t) => .next t
      | .error (.bad _) => feOut s noEvent (s.progEnd g true [])
      | .ok (bs, s1) =>
        let p := progStepOf bs
        let grp := bitsOf p.imm 7 4
        let ranks := s1.groupRanks grp
        match s1.position grp with
        | none => feOut s noEvent (s1.progAbort g p)
        | some me =>
          if mismatch ∨ p.ok = false ∨ (p.sub = 3 ∧ ranks.length ≤ bitsOf p.imm 31 8) then feOut s noEvent (s1.progAbort g p)
          else if s1.groupActive grp = false ∨ peers.length + 1 ≠ ranks.length ∨ peers.all (fun b => b.length == p.len) = false then .next s1
          else feOut s noEvent (s1.progFinish g p me peers)

/-! ### Pulls (R175 to R179) -/

/-- Whether a fabric address belongs to the job of this package's contexts (R176). -/
def State.inJob (s : State) (fa : BitVec 20) : Bool :=
  fa == s.faddr || (match s.adopted with
    | some t => (t.rankOf fa).isSome
    | none => false)

/-- An answer to a pull, to the die that asked. -/
def State.answerPull (s : State) (p : PullServe) (refused : Bool) (data : List Byte) : State :=
  { s with serves := s.serves.filter fun q => q.id != p.id }.send (dieOf p.core)
    (s.packetTo (dieOf p.core) p.src.addr p.src.die p.txid (.pullResp refused p.line data))

/-- PULL_REQUEST: a request of the adopted generation reaches the source, which refuses a line that no workgroup of the job owns,
or waits for it to be full (R176). -/
def execPullRequest (src : Sender) (gen : Word) (txid : BitVec 16) (core line : Nat) (s : State) : Out :=
  if gen ≠ s.mgen then .next s
  else
    let p : PullServe := { id := s.fresh, src := src, gen := gen, txid := txid, core := core, line := line }
    let s1 := { s with fresh := s.fresh + 1 }
    if s.inJob src.addr && s.servesLine core line then .next { s1 with serves := s1.serves ++ [p] }
    else .next (s1.answerPull p true [])

/-- PULL_LINE_READ: a waiting request is answered by one read of its whole line once that is full (R176); an uncorrectable error
there stops the context that owns the line (R234). -/
def execPullLineRead (pull : Nat) (s : State) : Out :=
  match s.serves.find? fun p => p.id == pull with
  | none => .next s
  | some p =>
    if s.servesLine p.core p.line = false then .next (s.answerPull p true [])
    else if s.linesFull p.core [p.line] = false then .next s
    else if s.lineBad p.core p.line then
      let owner := (s.wgs.find? fun w => w.core == p.core && w.block * 64 ≤ p.line && p.line < (w.block + w.blocks) * 64).bind fun w => s.launch? w.launch
      match owner with
      | some l => .next ({ s with serves := s.serves.filter fun q => q.id != pull }.stopContext l.ctx 13 (hwDetail (0xE000 + 2) 5 p.core) true)
      | none => .next s
    else .next (s.answerPull p false (memBytes s.mem (tileKey p.core (128 * p.line)) 128))

/-- PULL_RESPONSE: the answer to an outstanding request of a die lands its line, or stops the context with group 11, reason 7; one to a
request that has been reissued is discarded (R176, R178). -/
def execPullResponse (txid : TxId) (refused : Bool) (data : Line) (s : State) : Out :=
  match s.pulls.find? fun p => p.txid == txid with
  | none => .next s
  | some p =>
    let s1 := { s with pulls := s.pulls.filter fun q => q.txid != txid }
    match s.job? p.job with
    | none => .next s1
    | some j =>
      if s.halted j.ctx then .next s
      else if refused then .next (s1.jobCause j.cid j.ctx 11 (BitVec.ofNat 96 (p.line + 7 * 2 ^ 64)) j.pc)
      else if j.landed.contains p.line then .next s1
      else .next (s1.landLine j p.line (data.take 128 ++ List.replicate (128 - data.length) 0))

/-- PULL_REISSUE: a request unanswered for 2^20 cycles is sent again under a new transaction (R178). -/
def execPullReissue (txid : TxId) (s : State) : Out :=
  match s.pulls.find? fun p => p.txid == txid with
  | none => .next s
  | some p =>
    match s.job? p.job, s.adopted.bind fun t => t.entries[p.rank]? with
    | some j, some e =>
      if s.cycle txid.die < p.sent + 2 ^ 20 ∨ s.halted j.ctx then .next s
      else
        let (tx, s0) := s.takeTxid txid.die
        let q : Pull := { p with txid := ⟨txid.die, tx⟩, sent := s.cycle txid.die }
        let s1 := { s0 with pulls := s0.pulls.map fun (r : Pull) => if r.txid = txid then q else r }
        .next (s1.send txid.die (s1.packetTo txid.die e.faddr (j.srcCore / 96) tx (.pullReq j.srcCore (j.srcLine + p.line))))
    | _, _ => .next s

/-- An RCOPY in flight aborts: landed lines stay full, and bit 63 of its counter is set as it goes up (R179). -/
def State.abortRcopy (s : State) (j : Job) : State :=
  let s1 := s.freeBoard j.core j.id
  { s1 with jobs := s1.jobs.filter (fun i => i.id != j.id), pulls := s1.pulls.filter fun p => p.job != j.id }.abortJob j

/-! ### The pod barrier (R194, R348) -/

/-- The instance that a packet names. -/
def podPktKey (p : PodPkt) : BitVec 16 × Nat × Word × Word := (p.ctxid, p.queue.toNat, p.seq, p.wgid)

/-- Whether the root has completed a phase. -/
def PodBar.past (b : PodBar) (phase : BitVec 16) : Bool :=
  let d := (BitVec.ofNat 16 b.done - phase).toNat
  1 ≤ d && d < 2 ^ 15

/-- Other-dropped packets are counted (R193). -/
def State.dropOther (s : State) : State := s.setPort ((s.port 0).countUp 5)

/-- POD_BARRIER_ARRIVE: the root counts an arrival; one for a phase that is complete gets COMPLETE again, and one already counted
is ignored (R194). -/
def execPodBarrierArrive (p : PodPkt) (s : State) : Out :=
  if p.gen ≠ s.mgen then .next s.dropOther
  else
    let b := s.podBar (podPktKey p)
    if b.past p.phase then .next (s.send 0 (s.packetTo 0 p.src 0 0 (.podComplete (s.podPkt b p.phase))))
    else .next (s.podCount 0 b p.src p.phase)

/-- POD_BARRIER_COMPLETE: the package's waiting BAR.pod of that phase completes (R194). -/
def execPodBarrierComplete (p : PodPkt) (s : State) : Out :=
  if p.gen ≠ s.mgen then .next s.dropOther
  else
    let b := s.podBar (podPktKey p)
    let mine (c : Cohort) : Bool := s.podKey c == podPktKey p
    let cs := s.cohorts.filter mine
    if b.sentAt.isSome && cs != [] && cs.all (fun c => c.atBar .pod && BitVec.ofNat 16 c.podPhase == p.phase) then .next (s.podDone b false)
    else .next s

/-- POD_BARRIER_RESEND: no COMPLETE has come within 2^20 cycles (R194). -/
def execPodBarrierResend (cid : Nat) (s : State) : Out :=
  match s.cohort? cid with
  | none => .next s
  | some c =>
    let b := s.podBar (s.podKey c)
    let die := dieOf c.core
    match b.sentAt, s.podRanks.head? with
    | some t, some root =>
      if c.atBar .pod ∧ t + 2 ^ 20 ≤ s.cycle die then
        .next ((s.setPodBar { b with sentAt := some (s.cycle die) }).send die
          (s.packetTo die root.faddr 0 0 (.podArrive (s.podPkt b (BitVec.ofNat 16 c.podPhase)))))
      else .next s
    | _, _ => .next s

/-- Staging a generation discards the arrivals of every pod barrier and ends those that wait, with 1 (R348). -/
def State.abortPods (s : State) : State :=
  let waiting := s.cohorts.filter fun c => c.atBar .pod
  let s1 := waiting.foldl (fun t c => t.podDone (t.podBar (t.podKey c)) true) s
  { s1 with podBars := s1.podBars.map fun (b : PodBar) => { b with arrived := [], sentAt := none } }

/-! ### Flits (R189 to R193) -/

/-- An ACK covers every flit up to it (R190). -/
def Port.applyAck (p : Port) (ack : BitVec 16) : Port :=
  match p.replay.findIdx? (·.seq == ack) with
  | some i => { p with replay := p.replay.drop (i + 1), ackRx := ack, nacks := 0 }
  | none => p

/-- A packet is received at a port by the package that it names, or goes on along its route (R192, R193). -/
def State.receive (s : State) (n : Nat) (k : Packet) : State :=
  let p := s.port n
  let ev (t : State) : State :=
    match packetEvent k with
    | some e => { t with agenda := { dt := 0, what := .event e } :: t.agenda }
    | none => t
  let answered (t : State) : State :=
    match k.body with
    | .reward _ => t.send k.ddie (t.packetTo k.ddie k.src k.sdie k.txid .rewardAck)
    | _ => t
  if k.dst ≠ s.faddr then s.send (n / 2) k
  else match k.body with
    | .heartbeat h => ev { s with heardOn := (h.src, n) :: s.heardOn.filter fun p => p.1 != h.src }
    | .unknown _ => s.setPort (p.countUp 5)
    | .podArrive _ | .podComplete _ => if k.gen = s.mgen then ev s else s.setPort (p.countUp 5)
    | body =>
      if body.cls = 0 ∨ k.gen = s.mgen then answered (ev s)
      else if newer k.gen s.mgen then
        if 256 ≤ p.held.length then s.setPort (p.countUp 1) else answered (s.setPort { p with held := p.held ++ [(k, s.cycle (n / 2))] })
      else s.setPort (p.countUp 0)

/-- A data flit joins its packet: the first flit begins one, whose header says how many it has; a continuation without a first flit is
dropped. The packet comes out when it is whole (R189, R192). -/
def Port.takeFlit (p : Port) (first : Bool) (cls : Nat) (data : List Byte) : Option Packet × Port :=
  let others := p.parts.filter (·.cls != cls)
  let part : Option RxPart :=
    if first then some { cls := cls, nflit := headerFlits data, got := 1, data := data }
    else (p.parts.find? (·.cls == cls)).map fun (x : RxPart) => { x with got := x.got + 1, data := x.data ++ data }
  match part with
  | none => (none, p)
  | some x =>
    if x.nflit ≤ x.got then (some (Packet.ofBytes x.data), { p with parts := others }.pressure)
    else (none, { p with parts := x :: others }.pressure)

/-- A port fails: what waits there, and what has left it in part, moves to another (R190). -/
def State.failPort (s : State) (n : Nat) : State :=
  let p := s.port n
  let s1 := s.setPort { p with up := false, replay := [], queued := [], parts := [], nacks := 0, xoff := 0 }
  p.queued.foldl (fun t k => t.send (n / 2) k.1) s1

/-- A flit in order is taken, and what the port has to send leaves; where that is nothing, an idle flit carries the ACK (R190). -/
def State.takeData (s : State) (n : Nat) (p : Port) (first : Bool) (cls : Nat) (seq : BitVec 16) (data : List Byte) : State :=
  let (k, q) := { p with lastRx := seq }.takeFlit first cls data
  let s1 := match k with
    | some k => (s.setPort q).receive n k
    | none => s.setPort q
  let s2 := (s1.setPort (s1.port n).pressure).pump n
  if s2.outbox.length = s.outbox.length then s2.sendIdle n else s2

/-- A NACK leaves a port (R190). -/
def State.sendNack (s : State) (n : Nat) : State := { s with outbox := s.outbox ++ [(s.port n).flit 3 0 0 []] }

/-- The flits that are not acknowledged leave again, with the ACK and XOFF of now, and are counted (R190, R193). -/
def State.replayFlits (s : State) (n : Nat) : State :=
  let p := s.port n
  { s.setPort (p.countBy 3 p.replay.length) with outbox := s.outbox ++ p.replay.map fun f => p.flit f.ft f.cls f.seq f.data }

/-- FLIT_RECEIVE: a flit with a bad CRC or a reserved FT is discarded, the first with a NACK; ACK, XOFF and SEQ of any other take
effect. A gap is answered with NACK, and a NACK makes the sender replay every flit that it has not acknowledged, or fail its port at
the 32nd (R189, R190). -/
def execFlitReceive (port : Nat) (flit : BitVec 2048) (s : State) : Out :=
  let p := s.port port
  let ft := flitField flit 3 0
  if p.up = false then .next s
  else if flitCrcOk flit = false then .next ((s.setPort (p.countUp 2)).sendNack port)
  else if 4 ≤ ft then .next s
  else
    let p1 := { p.applyAck (BitVec.ofNat 16 (flitField flit 39 24)) with xoff := BitVec.ofNat 4 (flitField flit 47 44) }
    if ft = 0 then .next ((s.setPort p1).pump port)
    else if ft = 3 then
      let s1 := s.setPort { p1 with nacks := p1.nacks + 1 }
      .next (if 32 ≤ p1.nacks + 1 then s1.failPort port else (s1.replayFlits port).pump port)
    else
      let seq := BitVec.ofNat 16 (flitField flit 23 8)
      let d := (seq - p.lastRx).toNat
      if d = 1 then .next (s.takeData port p1 (ft = 1) (flitField flit 5 4) seq (flitPayload flit))
      else if 2 ≤ d ∧ d < 2 ^ 15 then .next ((s.setPort p1).sendNack port)
      else .next ((s.setPort p1).pump port)

/-- PORT_FAIL: after 32 NACKs without an acknowledgement, or a loss of link, a port fails (R190). -/
def execPortFail (port : Nat) (linkLoss : Bool) (s : State) : Out :=
  if (s.port port).up = false ∨ (linkLoss = false ∧ (s.port port).nacks < 32) then .next s else .next (s.failPort port)

/-- HELD_PACKET_TIMEOUT: packets held for 2^24 cycles are dropped and counted (R193). -/
def execHeldPacketTimeout (port : Nat) (s : State) : Out :=
  let p := s.port port
  let old (h : Packet × Nat) : Bool := h.2 + 2 ^ 24 ≤ s.cycle (port / 2)
  .next ((s.setPort ({ p with held := p.held.filter fun h => !old h }.countBy 1 (p.held.filter old).length)).regulate port)

end Sys2Proof.Machine
end

