-- ==== Sys2Proof/Machine/Membership.lean ====
section
/-!
DEFINITION. Machine/Membership.lean: heartbeats and suspicion (R249 to R251), the leaders (R252 to R256), commits, spares and seals
(R258 to R263), clone pulls (R266 to R269), and a table registered by the runtime.
-/

namespace Sys2Proof.Machine

/-! ### Heartbeats (R249 to R251) -/

/-- The interval of heartbeats in cycles (R250). -/
def hbInterval : Nat := 8500000

/-- STATE of a heartbeat (R250). A joined spare is still filling to the others. -/
def MemState.code : MemState → BitVec 4
  | .idle | .member => 0
  | .failed => 1
  | .spareReady => 2
  | .spareFilling | .spareJoined => 3
  | .expelled => 4

/-- The heartbeat that the package sends (R250). -/
def State.heartbeat (s : State) : Heartbeat :=
  { src := s.faddr, ckstep := s.ckpt, step := s.stepdone, pdom := s.pdom,
    state := if s.failed && s.memState != .expelled then 1 else s.memState.code, seq := s.hbSeq }

/-- The watches of a package that sends heartbeats to some leaders only. -/
def State.watchLeaders (s : State) (leaders : List (BitVec 20)) : List Watch :=
  leaders.mapIdx fun k fa =>
    { rank := 0, faddr := fa, miss := 0, lastAt := s.cycle (k % 16), sentAt := s.cycle (k % 16), suspected := false }

/-- Spares, expelled and failed packages send to the leaders only, as the table adopted last names them (R250, R305). -/
def State.leaderWatches (s : State) : List Watch := s.watchLeaders s.lastLeaders

/-- A heartbeat leaves for an address: by its route, or, in the safe talkative state, through every port that trained (R305). -/
def State.sendHeartbeat (s : State) (die : Nat) (dst : BitVec 20) : State :=
  let k := s.packetTo die dst 0 0 (.heartbeat s.heartbeat)
  let s1 : State := { s with hbSeq := s.hbSeq + 1 }
  if s.memState = .failed then (s.ports.filter (·.up)).foldl (fun t p => t.sendOn p.num k) s1
  else s1.send die k

/-- HEARTBEAT_SEND: the interval to a watched peer, or to a leader, has passed (R250). -/
def execHeartbeatSend (peer : Nat) (s : State) : Out :=
  match s.watches[peer]? with
  | none => .next s
  | some w =>
    if s.memState = .idle ∨ s.cycle (peer % 16) < w.sentAt + hbInterval then .next s
    else .next ({ s with watches := s.watches.set peer { w with sentAt := s.cycle (peer % 16) } }.sendHeartbeat (peer % 16) w.faddr)

/-- An event that has to wait for frames is tried again. -/
def State.again (s : State) (e : Instr) : State := { s with later := s.later ++ [e] }

/-- A watched peer is suspected: SUSPECT goes to all five leaders, once (R251). -/
def State.suspectPeer (s : State) (peer : Nat) (w : Watch) : State :=
  if w.suspected then { s with watches := s.watches.set peer w }
  else { s with watches := s.watches.set peer { w with suspected := true } }.tellAll (peer % 16) s.leaderAddrs
    (.suspect (s.memMsg 0 (BitVec.ofNat 32 w.rank) 0 none))

/-- HEARTBEAT_MISS: an interval without a heartbeat from a watched peer; at 20 the peer is suspected (R251). -/
def execHeartbeatMiss (peer : Nat) (s : State) : Out :=
  match s.watches[peer]? with
  | none => .next s
  | some w =>
    if s.memState ≠ .member ∨ s.cycle (peer % 16) < w.lastAt + hbInterval then .next s
    else
      let w' := { w with miss := w.miss + 1, lastAt := w.lastAt + hbInterval }
      .next (if 20 ≤ w'.miss then s.suspectPeer peer w' else { s with watches := s.watches.set peer w' })

/-! ### Leaders (R253, R254) -/

/-- The table that the package knows as committed: the staged one, or the adopted one. -/
def State.committedTable (s : State) : Option RankTable := s.staged <|> s.adopted

/-- Whether an address is a leader of the adopted table (R253). -/
def State.isLeader (s : State) (fa : BitVec 20) : Bool := s.leaderAddrs.contains fa

/-- Distinct watchers that suspect a rank (R253). -/
def Leader.counts (l : Leader) (rank : Nat) : Nat := (l.suspicions.filter fun x => x.1 == rank).length

/-- Whether a leader acts as coordinator: it holds no standing suspicion of a lower-indexed leader of the adopted table `t` (R253, R254). -/
def Leader.coordinates (l : Leader) (t : RankTable) : Bool :=
  (t.leaders.take l.index).all fun r => !(l.suspicions.any fun x => x.1 == r.toNat)

/-- The ranks that a proposal removes: three independent suspicions each (R254). -/
def Leader.removed (l : Leader) (t : RankTable) : List Nat := (List.range t.entries.length).filter fun r => 3 ≤ l.counts r

/-- What a leader has heard from a package (R250): STEP, CKSTEP, PDOM, STATE and the cycle. -/
def Leader.report (l : Leader) (fa : BitVec 20) : Option (Word × Word × BitVec 16 × BitVec 4 × Nat) :=
  (l.heard.find? fun h => h.1 == fa).map (·.2)

/-- The spares whose heartbeats are current, that hold no rank: address and PDOM (R261). Current means heard within the 20 intervals
of R251 (log entry 24). -/
def State.spares (s : State) (l : Leader) (t : RankTable) : List (BitVec 20 × BitVec 16) :=
  (l.heard.filter fun h => h.2.2.2.2.1 == 2 && s.cycle 0 < h.2.2.2.2.2 + 20 * hbInterval && (t.rankOf h.1).isNone).map fun h => (h.1, h.2.2.2.1)

/-- The lowest FADDR of some spares. -/
def lowestSpare (xs : List (BitVec 20 × BitVec 16)) : Option (BitVec 20 × BitVec 16) := bestBy (fun a b => a.1 < b.1) xs

/-- The spare for a rank, by the tiers of R261; `held` are the surviving holders' PDOMs. -/
def pickSpare (e : RankEntry) (held : List (BitVec 16)) (xs : List (BitVec 20 × BitVec 16)) : Option (BitVec 20 × BitVec 16) :=
  let near := xs.filter fun x => Config.podOf x.1 == e.pod
  let pods := xs.map fun x => Config.podOf x.1
  let low := bestBy (fun (a b : BitVec 4) => a < b) pods
  lowestSpare (near.filter fun x => !held.contains x.2) <|> lowestSpare near <|> lowestSpare (xs.filter fun x => some (Config.podOf x.1) == low)

/-- A value that lies no later than all others, modulo 2^32. -/
def lowestStep : List Word → Option Word
  | [] => none
  | x :: xs => match lowestStep xs with
    | none => some x
    | some y => some (if viewFrom x y then x else y)

/-- The entries of a new table: each rank to fill takes a spare with STATE 1, or STATE 2 without one (R256, R261). -/
def fillRanks (gone : List Nat) (old : List RankEntry) : List Nat → List (BitVec 20 × BitVec 16) → List RankEntry → List RankEntry
  | [], _, es => es
  | x :: xs, sp, es =>
    match old[x]? with
    | none => fillRanks gone old xs sp es
    | some e =>
      let held := (old.mapIdx fun r h => (r, h)).filterMap fun p =>
        if p.2.shard = e.shard ∧ p.2.state ≠ 2 ∧ !gone.contains p.1 then some p.2.pdom else none
      match pickSpare e held sp with
      | some k => fillRanks gone old xs (sp.filter fun y => y.1 != k.1)
          (es.set x { e with faddr := k.1, pdom := k.2, pod := Config.podOf k.1, state := 1 })
      | none => fillRanks gone old xs sp (es.set x { e with state := 2 })

/-- The leaders of a new table: an expelled one is replaced by the lowest member rank whose PDOM differs from every remaining
leader's (R256). -/
def newLeaders (gone : List Nat) (es : List RankEntry) : List (BitVec 16) → List (BitVec 16) → List (BitVec 16)
  | [], done => done
  | l :: rest, done =>
    let pd (r : Nat) : BitVec 16 := ((es[r]?).map (·.pdom)).getD 0
    if gone.contains l.toNat then
      let others := (done ++ rest.filter fun r => !gone.contains r.toNat).map fun r => pd r.toNat
      let pick := (List.range es.length).find? fun r =>
        !gone.contains r && ((es[r]?).any fun e => e.state == 0) && !others.contains (pd r)
      newLeaders gone es rest (done ++ [match pick with
        | some r => BitVec.ofNat 16 r
        | none => l])
    else newLeaders gone es rest (done ++ [l])

/-- The table that a coordinator builds for an expulsion, a new spare or a lost shard (R254, R256, R264, R267). DESIGN CHOICE: R254 removes
every rank that has three suspicions "at that moment"; the model takes the moment at which the promises reach a majority and the table is
built, so that a withdrawal since the round began counts (log entry 86). -/
def State.newTable (s : State) (l : Leader) (t : RankTable) : RankTable :=
  let gone := l.removed t
  let vacant := (List.range t.entries.length).filter fun r => (t.entries[r]?).any fun e => e.state == 2
  let es := fillRanks gone t.entries ((List.range t.entries.length).filter fun r => gone.contains r || vacant.contains r) (s.spares l t) t.entries
  let survivors := (t.entries.mapIdx fun r e => (r, e)).filterMap fun p => if p.2.state = 0 ∧ !gone.contains p.1 then some p.2 else none
  let said := survivors.filterMap fun e =>
    if e.faddr = s.faddr then some (s.stepdone, s.ckpt) else (l.report e.faddr).map fun h => (h.1, h.2.1)
  let lost := es.any fun e => l.losses.contains e.shard || (e.state != 0 && !(survivors.any fun v => v.shard == e.shard))
  let t1 : RankTable :=
    { t with gen := l.committed + 1, entries := es, leaders := newLeaders gone es t.leaders [],
             step := (lowestStep (said.map (·.1))).getD s.stepdone, fallback := lost,
             ckstep := if lost then (lowestStep (said.map (·.2))).getD s.ckpt else 0 }
  { t1 with digest := crc64 t1.entryBytes }

/-- The other leaders of the adopted table (R253). -/
def State.otherLeaders (s : State) : List (BitVec 20) := s.leaderAddrs.filter fun a => a != s.faddr

/-- A round of the coordinator begins with a ballot above every ballot it has seen (R252, R254). -/
def State.startRound (s : State) (l : Leader) : State :=
  let ballot := BitVec.ofNat 32 ((l.seenBallot.toNat / 8 + 1) * 8 + l.index)
  let own : Option (Word × RankTable) := l.accepted.bind fun (a : Word × RankTable) => if newer a.2.gen l.committed then some a else none
  let l' : Leader := { l with ballot := ballot, promised := ballot, seenBallot := ballot, promises := [(s.faddr, own)], proposed := none,
                              accepts := [], roundAt := s.cycle 0 }
  { s with leader := some l' }.tellAll 0 s.otherLeaders (.prepare (s.memMsg (l.committed + 1) 0 ballot none))

/-- Whether a coordinator has something to propose: a rank to remove, a spare for a vacant rank, or a lost shard (R254, R261, R267). -/
def State.mustPropose (s : State) (l : Leader) (t : RankTable) : Bool :=
  s.adopted.any l.coordinates && (l.losses != [] || l.removed t != [] || ((t.entries.any fun e => e.state == 2) && s.spares l t != []))

/-- A coordinator without a round in progress begins one when it has something to propose (R254). -/
def State.coordinate (s : State) : State :=
  match s.leader, s.committedTable with
  | some l, some t => if l.ballot = 0 && s.mustPropose l t then s.startRound l else s
  | _, _ => s

/-- The shard of which a package has reported the loss: it names its own rank, which no watcher does. DESIGN CHOICE: R267 has the leaders
commit a table with FALLBACK, and gives the package that finds the loss no message to tell them (log entry 80). -/
def lossReport (t : RankTable) (m : MemMsg) : Option (BitVec 20) :=
  (t.entries[m.subj.toNat]?).bind fun e => if e.faddr = m.src then some e.shard else none

/-- SUSPECT: a leader records a member's suspicion, and as coordinator acts on three (R253, R254); a report that a shard is lost leads to a
table with FALLBACK (R267). -/
def execSuspect (m : MemMsg) (s : State) : Out :=
  match s.leader, s.committedTable with
  | some l, some t =>
    let x := (m.subj.toNat, m.src)
    match lossReport t m with
    | some shard => .next { s with leader := some { l with losses := (shard :: l.losses).eraseDups } }.coordinate
    | none =>
    if (t.rankOf m.src).isNone ∨ l.suspicions.contains x then .next s
    else .next { s with leader := some { l with suspicions := l.suspicions ++ [x] } }.coordinate
  | _, _ => .next s

/-- WITHDRAW: a watcher's standing suspicion goes (R251, R253). -/
def execWithdraw (m : MemMsg) (s : State) : Out :=
  match s.leader with
  | some l => .next { s with leader := some { l with suspicions := l.suspicions.filter fun (x : Nat × BitVec 20) => x != (m.subj.toNat, m.src) } }
  | none => .next s

/-- The higher of two ballots. -/
def maxBallot (a b : Word) : Word := if a.toNat < b.toNat then b else a

/-- PREPARE: a leader answers PROMISE to a ballot above its promise, with the accepted proposal that is newer than its committed
generation; SUBJ carries that proposal's ballot (R254; log entry 25). DEDUCED: a PREPARE for a generation that it has committed already is
ignored, since two tables with one NEWGEN are never both committed (log entry 94). -/
def execPrepare (m : MemMsg) (s : State) : Out :=
  match s.leader with
  | none => .next s
  | some l =>
    let l1 := { l with seenBallot := maxBallot l.seenBallot m.ballot }
    if newer m.newgen l.committed ∧ l.promised.toNat < m.ballot.toNat then
      let own : Option (Word × RankTable) := l.accepted.bind fun (a : Word × RankTable) => if newer a.2.gen l.committed then some a else none
      .next ({ s with leader := some { l1 with promised := m.ballot } }.tell 0 m.src
        (.promise (s.memMsg (l.committed + 1) ((own.map Prod.fst).getD 0) m.ballot (own.map Prod.snd))))
    else .next { s with leader := some l1 }

/-- A table is committed: COMMIT goes to every package of the old table, every spare named in the new one and the leaders
(R254). -/
def State.commitTable (s : State) (l : Leader) (old t : RankTable) : State :=
  let live (x : RankTable) : List (BitVec 20) := (x.entries.filter fun e => e.state != 2).map (·.faddr)
  let l' : Leader := { l with ballot := 0, promises := [], proposed := none, accepts := [] }
  { s with leader := some l' }.tellAll 0 ((live old ++ live t ++ s.leaderAddrs).eraseDups) (.commit (s.memMsg t.gen 0 l.ballot (some t)))

/-- A coordinator commits once three leaders, itself counted, have accepted (R254). -/
def State.tryCommit (s : State) : State :=
  match s.leader, s.committedTable with
  | some l, some old =>
    match l.proposed with
    | some t => if 3 ≤ l.accepts.length then s.commitTable l old t else s
    | none => s
  | _, _ => s

/-- The proposal of a majority's promises: the reported table of the highest ballot, else a new one (R254). -/
def State.proposal (s : State) (l : Leader) (t : RankTable) : RankTable :=
  match bestBy (fun (a b : Word × RankTable) => b.1.toNat < a.1.toNat) (l.promises.filterMap (·.2)) with
  | some a => a.2
  | none => s.newTable l t

/-- PROMISE: the coordinator collects promises, and proposes on a majority (R254). -/
def execPromise (m : MemMsg) (s : State) : Out :=
  match s.leader, s.committedTable with
  | some l, some t =>
    if m.ballot ≠ l.ballot ∨ l.ballot = 0 ∨ l.proposed.isSome ∨ s.isLeader m.src = false ∨ l.promises.any (fun p => p.1 == m.src) = true then .next s
    else
      let l1 := { l with promises := l.promises ++ [(m.src, m.table.map fun x => (m.subj, x))] }
      if l1.promises.length < 3 then .next { s with leader := some l1 }
      else
        let new := s.proposal l1 t
        let own := new.acceptable && l1.promised.toNat ≤ l1.ballot.toNat
        let l2 : Leader := { l1 with proposed := some new, accepted := if own then some (l1.ballot, new) else l1.accepted,
                                     accepts := if own then [s.faddr] else [] }
        .next ({ s with leader := some l2 }.tellAll 0 s.otherLeaders (.propose (s.memMsg new.gen 0 l1.ballot (some new)))).tryCommit
  | _, _ => .next s

/-- PROPOSE: a leader accepts an acceptable table whose ballot is at least its promise (R254, R256), and whose generation it has not committed
yet (log entry 94). -/
def execPropose (m : MemMsg) (s : State) : Out :=
  match s.leader, m.table with
  | some l, some t =>
    let l1 := { l with seenBallot := maxBallot l.seenBallot m.ballot }
    if newer t.gen l.committed ∧ l.promised.toNat ≤ m.ballot.toNat ∧ t.acceptable then
      .next ({ s with leader := some { l1 with promised := m.ballot, accepted := some (m.ballot, t) } }.tell 0 m.src
        (.accept (s.memMsg t.gen 0 m.ballot none)))
    else .next { s with leader := some l1 }
  | _, _ => .next s

/-- ACCEPT: the coordinator collects accepts, and commits on a majority (R254). -/
def execAccept (m : MemMsg) (s : State) : Out :=
  match s.leader with
  | some l =>
    if m.ballot ≠ l.ballot ∨ l.proposed.isNone ∨ s.isLeader m.src = false ∨ l.accepts.contains m.src then .next s
    else .next { s with leader := some { l with accepts := l.accepts ++ [m.src] } }.tryCommit
  | none => .next s

/-- PROPOSAL_RETRY: a coordinator whose round has not come to a commit within 2^20 cycles begins the next (R254). -/
def execProposalRetry (s : State) : Out :=
  match s.leader, s.committedTable with
  | some l, some t =>
    if l.ballot = 0 ∨ s.cycle 0 < l.roundAt + 2 ^ 20 then .next s
    else if s.mustPropose l t || l.proposed.isSome then .next (s.startRound l)
    else .next { s with leader := some { l with ballot := 0, promises := [], proposed := none, accepts := [] } }
  | _, _ => .next s

/-! ### Seals (R248, R263) -/

/-- The step that every member has reported, to this leader's knowledge (R263). -/
def State.reachedStep (s : State) (l : Leader) (t : RankTable) : Option Word :=
  let ms := t.entries.filter fun e => e.state == 0
  let said := ms.map fun e => if e.faddr = s.faddr then some s.stepdone else (l.report e.faddr).map (·.1)
  if said.all Option.isSome then lowestStep (said.filterMap id) else none

/-- A leader sends SEAL for a step once every member has reported it (R263). -/
def State.sealStep (s : State) : State :=
  match s.leader, s.adopted with
  | some l, some t =>
    match s.reachedStep l t with
    | none => s
    | some v =>
      if newer v l.sealed then
        { s with leader := some { l with sealed := v } }.tellAll 0 ((t.entries.filter fun (e : RankEntry) => e.state == 0).map RankEntry.faddr)
          (.seal (s.memMsg t.gen v 0 none))
      else s
  | _, _ => s

/-- SEAL: views of lower boundaries close, their pool pages are free, and a held STEPDONE write is decided (R248, R263). -/
def execSealStep (step : Word) (s : State) : Out :=
  let best := match s.sealed with
    | some t => if newer step t then step else t
    | none => step
  let s1 : State := { s with sealed := some best, views := s.views.filter fun v => viewFrom step v.step }
  .next (drainHeld s1 s1.heldWrites)

/-- What a leader notes of a heartbeat. -/
def State.hear (s : State) (h : Heartbeat) : State :=
  match s.leader with
  | none => s
  | some l =>
    let x := (h.src, h.step, h.ckstep, h.pdom, h.state, s.cycle 0)
    { s with leader := some { l with heard := x :: l.heard.filter fun y => y.1 != h.src } }.sealStep.coordinate

/-- HEARTBEAT_RECEIVE: the watcher's count, SUSPECT for STATE 1, WITHDRAW after a SUSPECT (R251); a leader's reports (R261, R263); a
module in the safe talkative state answers, through the port by which it came (R305). -/
def execHeartbeatReceive (h : Heartbeat) (s : State) : Out :=
  if s.memState = .failed then
    match s.heardOn.find? fun p => p.1 == h.src with
    | some (_, n) => .next ({ s with hbSeq := s.hbSeq + 1 }.sendOn n (s.packetTo (n / 2) h.src 0 0 (.heartbeat s.heartbeat)))
    | none => .next s
  else
    let s1 := if s.memState ≠ .member then s else
      match s.watches.findIdx? fun w => w.faddr == h.src with
      | none => s
      | some k =>
        match s.watches[k]? with
        | none => s
        | some w =>
          let w1 := { w with lastAt := s.cycle (k % 16) }
          if h.state = 0 then
            let t : State := { s with watches := s.watches.set k { w1 with miss := 0, suspected := false } }
            if w.suspected ∧ (s.staged.all fun g => (g.rankOf h.src).isSome) = true then t.tellAll (k % 16) s.leaderAddrs (.withdraw (s.memMsg 0 (BitVec.ofNat 32 w.rank) 0 none)) else t
          else if h.state = 1 then s.suspectPeer k w1
          else { s with watches := s.watches.set k w1 }
    .next (s1.hear h)

/-! ### COMMIT (R258, R259, R262, R271) -/

/-- A collective program in flight aborts at staging; where its pages are not here, its writes follow in its next steps (R187, R210). -/
def State.abortProg (s : State) (g : CollProg) : State :=
  let d : CollProg := { g with dead := true }
  let s1 : State := { s with progs := s.progs.map fun (x : CollProg) => if x.id = g.id then d else x }
  match s1.progStop d with
  | .ok t => t.fwCommit 0 noEvent
  | .error _ => s1

/-- Collectives, pulls, programs and pod barriers in flight abort (R179, R187, R210, R348). -/
def State.abortAll (s : State) : State :=
  let open_ (k : Coll) : Bool := !k.ready
  let s0 := { s with colls := s.colls.map fun (k : Coll) => if open_ k then { k with aborted := true } else k }
  let s1 := (s.colls.filter fun k => !open_ k).foldl (fun t k => t.abortColl k) s0
  let s2 := (s.jobs.filter fun j => j.kind == .rcopy && j.status != 3).foldl (fun t j => t.abortRcopy j) s1
  let s3 := s.progs.foldl (fun t g => t.abortProg g) s2
  s3.abortPods

/-- A leader notes a commit: its committed generation, which suspicions still stand, and that a lost shard has been answered for (R253, R254,
R267). -/
def State.noteCommit (s : State) (old t : RankTable) : State :=
  match s.leader with
  | none => s
  | some l =>
    let same (r : Nat) : Bool := (old.entries[r]?).map (·.faddr) == (t.entries[r]?).map (·.faddr) && ((t.entries[r]?).any fun e => e.state != 2)
    { s with leader := some { l with
        committed := t.gen, losses := if t.fallback then [] else l.losses, ballot := 0, promises := [], proposed := none, accepts := [],
        suspicions := l.suspicions.filter fun x => same x.1 && (t.rankOf x.2).isSome } }

/-- The package's part in a job ends: nothing is sealed, and it keeps no view (R248, R263). -/
def State.leaveJob (s : State) : State := { s with staged := none, sealed := none, views := [], stripes := [], leader := none }

/-- Removal (R259, R291): group 18 in every context, and the reward tables are emptied. -/
def State.expel (s : State) (gen : Word) : State :=
  let s1 := s.abortAll
  let detail : BitVec 96 := BitVec.ofNat 96 (gen.toNat + s.mgen.toNat * 2 ^ 32)
  let s2 := (s1.ctxs.map (·.ctxid)).foldl (fun t k => t.stopContext k 18 detail true) s1
  let empty (u : JoinUnit) : JoinUnit := { u with entries := [], orphans := [], queue := [] }
  { s2.leaveJob with joins := s2.joins.map empty, memState := .expelled, watches := s2.leaderWatches }

/-- A spare returns to ready: what it filled is discarded, and it holds generation 0 (R262). DESIGN CHOICE: $PKGRANK stays as it is, because
R262 gives it no value and R12 lets it change at an adoption only (log entry 87). -/
def State.toReady (s : State) : State :=
  { s.leaveJob with adopted := none, mgen := 0, memState := .spareReady, watches := s.leaderWatches }

/-- Number of stripes of the shard (R247). -/
def State.stripeCount (s : State) : Nat := s.shardLen / 2 ^ 20

/-- A spare whose stripes are all verified has joined: JOINED for its rank goes to the leaders (R262, R269). -/
def State.fillDone (s : State) (t : RankTable) : State :=
  if s.memState = .spareFilling ∧ s.stripes.length = s.stripeCount ∧ s.stripes.all (·.verified) = true then
    { s with memState := .spareJoined }.tellAll 0 t.leaderAddrs (.joined (s.memMsg t.gen s.pkgRank 0 none))
  else s

/-- A spare adopts a table at once (R262): it runs no kernel, so its STEPDONE is set when it becomes a member. -/
def State.spareAdopt (s : State) (t : RankTable) : State :=
  let s1 := s.adopt t
  { s1 with stepdone := s.stepdone, memState := .spareFilling, leader := none, watches := s1.leaderWatches }

/-- The adopted table goes to TABLEBUF through the membership block's context (R257). -/
def State.tableOut (s : State) (t : RankTable) : Except State State :=
  match s.memBlock with
  | none => .ok s
  | some b =>
    match s.feWrite b.ctx b.tablebuf t.bytes with
    | .ok u => .ok u
    | .error (.busy u) => .error u
    | .error (.bad _) => .ok s

/-- The rank that names this package in a table with STATE 1. -/
def State.namedAt (s : State) (t : RankTable) : Option Nat :=
  match t.rankOf s.faddr with
  | some r => if (t.entries[r]?).any fun e => e.state == 1 then some r else none
  | none => none

/-- A rank becomes active in a table, whose digest follows (R257, R262). -/
def activateRank (t : RankTable) (rank : Nat) : RankTable :=
  let t1 : RankTable := { t with entries := t.entries.mapIdx fun r e => if r = rank ∧ e.state = 1 then { e with state := 0 } else e }
  { t1 with digest := crc64 t1.entryBytes }

/-- Whether a table names a package at a rank that it has yet to join (R262). -/
def toJoin (t : RankTable) (x : Nat) (fa : BitVec 20) : Bool := (t.entries[x]?).any fun e => e.faddr == fa && e.state == 1

/-- A table in which a package has joined at a rank: its entry there is active (R262). -/
def joinIn (x : Nat) (fa : BitVec 20) (t : RankTable) : RankTable := if toJoin t x fa then activateRank t x else t

/-- A new table in which the packages that have joined at their ranks are active (R262). -/
def carryJoined (old t : RankTable) : RankTable :=
  (List.range t.entries.length).foldl (fun u r => match old.entries[r]? with
    | some e => if e.state = 0 then joinIn r e.faddr u else u
    | none => u) t

/-- STAGING (R258): collectives and pulls in flight abort, and a refill for an older table's step is given up. -/
def State.stage (s : State) (t : RankTable) : State :=
  let s1 := s.abortAll
  let old := (s.committedTable).getD t
  { s1 with staged := some (carryJoined old t), memState := .member, stripes := [] }.noteCommit old t

/-- COMMIT of a table that is newer than the adopted and the staged one (R258): a member stages it, or is expelled when it is
absent; a spare starts, keeps or ends its fill (R262, R271). -/
def execCommit (m : MemMsg) (s : State) : Out :=
  match m.table with
  | none => .next s
  | some t =>
    let isNewer : Bool := newer m.newgen s.mgen && (match s.staged with
      | some u => newer m.newgen u.gen
      | none => true)
    if isNewer = false then .next s
    else match s.memState with
      | .idle | .member =>
        if (t.rankOf s.faddr).isNone then
          .next (if s.memState = .member then s.expel m.newgen else s)
        else .next (s.stage t)
      | .spareReady =>
        match s.namedAt t with
        | none => .next s
        | some _ =>
          match (s.tableOut t) with
          | .error u => .next (u.again (.commit m))
          | .ok u => .next ((fillMore 64 { u.spareAdopt t with stripes := [] } t).fillDone t)
      | .spareFilling =>
        if (t.entries[s.pkgRank.toNat]?).any fun e => e.faddr == s.faddr && e.state != 2 then
          match s.tableOut t with
          | .error u => .next (u.again (.commit m))
          | .ok u =>
            let u1 := u.spareAdopt t
            let u2 : State := { u1 with stripes := u1.stripes.map fun (x : Stripe) => if x.verified then x else Stripe.start x.idx [] }
            let u3 := (u2.stripes.filter fun x => !x.verified).foldl (fun v x => v.askDonor t x) u2
            .next ((fillMore 64 u3 t).fillDone t)
        else .next s.toReady
      | .failed | .spareJoined | .expelled => .next s

/-- The package that has joined at a rank, by the tables that this one knows: the rank's in the table of the message's generation, or the
sender, where a newer table has taken that one's place and names it there (R262). -/
def State.joiner (s : State) (m : MemMsg) : Option (BitVec 20) :=
  let x := m.subj.toNat
  let tables := [s.adopted, s.staged].filterMap id
  ((tables.find? fun t => t.gen == m.newgen).bind fun t => (t.entries[x]?).map (·.faddr)) <|>
    (if tables.any fun t => (t.entries[x]?).any fun e => e.faddr == m.src then some m.src else none)


/-- JOINED: a leader that hears it from the spare relays it, under each generation that it concerns; every package then makes the rank active, in its tables and in
TABLEBUF, and the spare itself becomes a member with STEPDONE = S (R262). -/
def execJoined (m : MemMsg) (s : State) : Out :=
  let x := m.subj.toNat
  match s.adopted, s.joiner m with
  | some t, some fa =>
    let tables := t :: s.staged.toList
    let own : Bool := fa == m.src && s.leader.isSome && tables.any fun g => toJoin g x fa
    let peers := (tables.flatMap fun g => (g.entries.filter fun e => e.state != 2 && e.faddr != s.faddr).map (·.faddr)).eraseDups
    if !(s.isLeader m.src || own) ∨ (s.memState ≠ .member ∧ s.memState ≠ .spareJoined ∧ s.memState ≠ .spareFilling) then .next s
    else
      let t' := joinIn x fa t
      match (if t' = t then .ok s else s.tableOut t') with
      | .error u => .next (u.again (.joined m))
      | .ok u =>
        let u1 : State := { u with adopted := some t', staged := u.staged.map (joinIn x fa) }
        let u2 := if own then
            (tables.filter fun g => toJoin g x fa).foldl (fun (v : State) g => v.tellAll 0 peers (.joined (s.memMsg g.gen m.subj 0 none))) u1
          else u1
        let mine := u2.memState = .spareJoined ∧ fa = s.faddr
        let u3 : State := if mine then { u2 with memState := .member, stepdone := t.step, watches := u2.newWatches t', leader := u2.leaderUnder t' } else u2
        .next u3.podTryAll
  | _, _ => .next s

/-! ### Clone pulls (R264 to R269) -/

/-- The fingerprint of a stripe (R268). -/
def fingerprint (bs : List Byte) : DWord :=
  crc64 ((List.range 16).flatMap fun k => natBytes 8 (crc64 ((bs.drop (65536 * k)).take 65536)).toNat)

/-- The virtual pages of a stripe: index in the shard and address (R247). -/
def State.stripePagesOf (s : State) (i : Nat) : List (Nat × Nat) :=
  match s.memBlock with
  | none => []
  | some b =>
    let vas := b.shard.flatMap fun r => (List.range (r.len / 8192)).map fun k => r.va + 8192 * k
    ((vas.mapIdx fun k va => (k, va)).drop (stripePages * i)).take stripePages

/-- A stripe read page by page through view(`st`); a dropped page, or one that cannot be read, refuses it (R264, R266). -/
def readStripe (k : BitVec 16) (st : Word) : List (Nat × Nat) → State → Checked (List Byte)
  | [], s => .good [] s
  | p :: ps, s =>
    match s.feRead k p.2 8192 with
    | .error (.busy t) => .wait t
    | .error (.bad _) => .bad 2 0 s
    | .ok (bs, t) =>
      match t.viewPage st p.1 bs with
      | none => .bad 2 0 t
      | some img =>
        match readStripe k st ps t with
        | .good rest u => .good (img ++ rest) u
        | x => x

/-- CLONE_REQUEST: a donor answers from view(S), or refuses with a reason (R264, R266). -/
def execCloneRequest (src : Sender) (gen : Word) (txid : BitVec 16) (stripe : Nat) (step : Word) (fp : Bool) (s : State) : Out :=
  let reply (u : State) (reason : BitVec 8) (f : Option DWord) (data : List Byte) : Out :=
    .next (u.send 0 (u.packetTo 0 src.addr src.die txid (.cloneResp stripe step reason f data)))
  if gen ≠ s.mgen then .next s
  else match s.memBlock with
    | none => reply s 1 none []
    | some b =>
      if !(s.views.any fun v => v.step == step) then reply s 1 none []
      else if s.stripeCount ≤ stripe then reply s 3 none []
      else match readStripe b.ctx step (s.stripePagesOf stripe) s with
        | .wait t => .next (t.again (.cloneRequest src gen txid stripe step fp))
        | .bad _ _ t => reply t 2 none []
        | .good bs t => if fp then reply t 0 (some (fingerprint bs)) [] else reply t 0 none bs

/-- The bytes of a verified stripe go to a spare's shard, page by page (R268). -/
def writeStripe (k : BitVec 16) : List (Nat × Nat) → List Byte → State → Except State State
  | [], _, s => .ok s
  | p :: ps, bs, s =>
    match s.feWrite k p.2 (bs.take 8192) with
    | .error (.busy t) => .error t
    | .error (.bad _) => writeStripe k ps (bs.drop 8192) s
    | .ok t => writeStripe k ps (bs.drop 8192) t

/-- A stripe is verified with these bytes; a spare writes them and goes on with its fill, a survivor keeps them for its rollback
(R265, R269). -/
def State.verify (s : State) (t : RankTable) (x : Stripe) (bs : List Byte) : Except State State :=
  let done (u : State) (keep : List Byte) : State :=
    fillMore 1 (u.setStripe { Stripe.start x.idx x.refused with verified := true, data := keep }) t
  if s.memState = .spareFilling then
    match s.memBlock with
    | none => .ok ((done s []).fillDone t)
    | some b =>
      match writeStripe b.ctx (s.stripePagesOf x.idx) bs s with
      | .error u => .error u
      | .ok u => .ok ((done u []).fillDone t)
  else .ok (done s bs)

/-- What the third fingerprint decides after a mismatch: a value that two of the three sources hold is verified (R269). -/
def State.decideStripe (s : State) (t : RankTable) (x : Stripe) : Except State State :=
  match x.first, x.second, x.third with
  | some a, some b, some f =>
    let (fa, fb) := (fingerprint a, fingerprint b)
    if fb = f ∨ fb = fa then s.verify t x b
    else if fa = f then s.verify t x a
    else .ok (s.loseStripe t x)
  | _, _, _ => .ok (s.setStripe x)

/-- A holder refuses a stripe, which moves to the next position (R268): a verifier's part moves alone, any other begins the stripe again. When
every holder has refused it for a dropped page, it is lost (R267); when all have refused, but not all for that, it begins again with all of
them (DESIGN CHOICE, log entry 80). -/
def State.refuseStripe (s : State) (t : RankTable) (x : Stripe) (pos : Nat) (reason : BitVec 8) : State :=
  let n := (s.holders t).length
  let gone := x.refused ++ [(pos, reason)]
  let again (rs : List (Nat × BitVec 8)) : State :=
    let y := Stripe.start x.idx rs
    (s.setStripe y).askDonor t y
  if (x.order n).contains pos = false then s
  else if n ≤ gone.length then (if gone.all fun r => r.2 == 2 then s.loseStripe t { x with refused := gone } else again [])
  else if x.first.isSome ∧ x.differs = false ∧ x.donor? n ≠ some pos then
    let y := { x with refused := gone }
    match y.verifier? n with
    | some v => (s.setStripe y).askClone t x.idx v true
    | none => s.setStripe y
  else again gone

/-- A stripe's answer from the holder at a position is processed (R268, R269). -/
def State.stripeAnswer (s : State) (t : RankTable) (x : Stripe) (pos : Nat) (reason : BitVec 8) (fp : Option DWord) (data : List Byte) :
    Except State State :=
  let n := (s.holders t).length
  if x.verified || x.lost then .ok s
  else if reason ≠ 0 then .ok (s.refuseStripe t x pos reason)
  else match fp, x.first with
    | none, none =>
      if x.donor? n = some pos then
        let y := { x with first := some data }
        .ok (match y.verifier? n with
          | some v => (s.setStripe y).askClone t x.idx v true
          | none => s.setStripe y)
      else .ok s
    | none, some _ => if x.differs ∧ x.second.isNone ∧ x.verifier? n = some pos then s.decideStripe t { x with second := some data } else .ok s
    | some f, some a =>
      if x.differs then
        if x.third.isNone ∧ x.third? n = some pos then s.decideStripe t { x with third := some f } else .ok s
      else if x.verifier? n ≠ some pos then .ok s
      else if f = fingerprint a then s.verify t x a
      else match x.third? n with
        | none => .ok (s.loseStripe t x)
        | some p => .ok (((s.setStripe { x with differs := true }).askClone t x.idx pos false).askClone t x.idx p true)
    | some _, none => .ok s

/-- CLONE_RESPONSE: a stripe or a fingerprint reaches the package that asked for it (R268, R269). -/
def execCloneResponse (src : BitVec 20) (stripe : Nat) (reason : BitVec 8) (fp : Option DWord) (data : List Byte) (s : State) : Out :=
  match (if s.memState = .spareFilling then s.adopted else s.staged), s.stripes.find? fun x => x.idx == stripe with
  | some t, some x =>
    match (s.holders t).findIdx? fun h => h == src with
    | none => .next s
    | some pos =>
      match s.stripeAnswer t x pos reason fp data with
      | .ok u => .next u
      | .error u => .next (u.again (.cloneResponse src stripe reason fp data))
  | _, _ => .next s

/-! ### RANK_TABLE_REGISTRATION (R256, R258, R259) -/

/-- RANK_TABLE_REGISTRATION: the runtime hands a package a table. One that R256 refuses is refused. A package that the table names and that
is in no job takes it as the job's; a member that it names stages it when it is newer, as it would a committed one, because only CFENCE
adopts on a member (R12, R260); a spare learns the leaders' addresses from it (log entry 26). -/
def execRankTableRegistration (t : RankTable) (s : State) : Out :=
  if t.acceptable = false then .next s
  else match s.memState with
    | .idle | .expelled =>
      if (t.rankOf s.faddr).isNone then .next s
      else match s.tableOut t with
        | .error u => .next (u.again (.rankTableRegistration t))
        | .ok u => .next ({ u.leaveJob with memState := .member }.adopt t)
    | .member =>
      if (t.rankOf s.faddr).isSome ∧ newer t.gen s.mgen = true ∧ (s.staged.all fun g => newer t.gen g.gen) = true then .next (s.stage t) else .next s
    | .spareReady => .next { s with watches := s.watchLeaders t.leaderAddrs }
    | .failed | .spareFilling | .spareJoined => .next s

end Sys2Proof.Machine
end

