-- ==== Sys2Proof/Machine/Mailbox.lean ====
section
/-!
DEFINITION. Machine/Mailbox.lean: the mailbox's commands (R309) with what they register (R196, R197, R225, R247, R273, R261), and
writes to die 0's register space and to the routing tables (R192, R200, R248, R278, R308).
-/

namespace Sys2Proof.Machine

/-! ### Running a command (R305, R309) -/

/-- What a command ends with: a state and its status, with the detail of a refusal; or a wait for frames. -/
inductive MailOut where
  | wait (s : State)
  | ended (s : State) (status detail : Nat)

/-- A command that is done. -/
def MailOut.done (s : State) : MailOut := .ended s 0 0
/-- A refusal with its detail (R309). -/
def MailOut.refuse (s : State) (detail : Nat) : MailOut := .ended s 1 detail

/-- The mailbox as a carrier sees it: its own CMD and RESULT, and the one payload (R309). -/
def State.mailOf (s : State) (i3c : Bool) : Mailbox :=
  if i3c then { s.mailbox with cmd := s.i3c.cmd, result := s.i3c.result } else s.mailbox

/-- Replaces the mailbox as a carrier sees it. -/
def State.setMail (s : State) (i3c : Bool) (b : Mailbox) : State :=
  if i3c then { s with i3c := ⟨b.cmd, b.result⟩, mailbox := { s.mailbox with payload := b.payload } } else { s with mailbox := b }

/-- CMD with GO set for an opcode and a tag (R309). -/
def cmdWord (opc : Nat) (tag : BitVec 16) : DWord := BitVec.ofNat 64 (2 ^ 63 + tag.toNat * 2 ^ 32 + opc)

/-- A word of the payload (R309). -/
def Mailbox.word (b : Mailbox) (k : Nat) : Nat := memNat b.payload (8 * k) 8

/-- Words of the payload as one number. -/
def Mailbox.words (b : Mailbox) (k n : Nat) : Nat := memNat b.payload (8 * k) (8 * n)

/-- The command as the front end finds it: the carrier's payload and CMD are written; while GO = 1 another CMD is ignored (R309). -/
def State.openMail (s : State) (m : MailCmd) (opc : Nat) : Option State :=
  let b := s.mailOf m.i3c
  if b.cmd.getLsbD 63 ∧ b.cmd ≠ cmdWord opc m.tag then none
  else
    let pay := (m.payload.mapIdx fun i w => (i, w)).foldl (fun (p : List Host.Cell) iw => memPut p (8 * iw.1) 8 iw.2.toNat) b.payload
    some (s.setMail m.i3c { b with cmd := cmdWord opc m.tag, payload := pay })

/-- RESULT is written and GO cleared (R309). -/
def State.closeMail (s : State) (m : MailCmd) (opc status detail : Nat) : State :=
  let b := s.mailOf m.i3c
  let v : DWord := BitVec.ofNat 64 (status + detail % 2 ^ 32 * 2 ^ 32)
  ((s.setMail m.i3c { b with cmd := cmdWord opc m.tag &&& 0x7FFFFFFFFFFFFFFF, result := v }).fwNote (.result m.i3c v)).fwCommit 0
    fun e => e == .mailbox m.i3c

/-- Whether the front end can run a carrier's command now: in arrival order, one at a time (R221, R309). Before release the boot firmware
answers (R305). -/
def State.mailMay (s : State) (i3c : Bool) : Bool := !s.released || s.fwMay 0 (some mailKey) (· == .mailbox i3c)

/-- A command that has been written waits in the event queue (R221, R309). -/
def State.mailWaits (s t : State) (i3c : Bool) : State :=
  if (s.mailOf i3c).cmd.getLsbD 63 then t else t.postEvent 0 (.mailbox i3c)

/-- A mailbox command (R309): before compute is released only the commands of R305 run, any other ends with status 2. The host needs
its link; the I3C target is alive in every case (R305, R312). -/
def mailRun (s : State) (m : MailCmd) (opc : Nat) (early : Bool) (k : State → Mailbox → MailOut) : Out :=
  if m.i3c = false ∧ s.cxlUp = false then .next s
  else match s.openMail m opc with
    | none => .next s
    | some s1 =>
      if s1.mailMay m.i3c = false then .next (s.mailWaits s1 m.i3c)
      else if early = false ∧ s1.released = false then .next (s1.closeMail m opc 2 0)
      else match k s1 (s1.mailOf m.i3c) with
        | .wait t => .next ((s.mailWaits ((s1.stoppedBy t).getD s1) m.i3c).fwRequeue 0 (· == .mailbox m.i3c))
        | .ended t status detail => .next (t.closeMail m opc status detail)

/-- A scalar operand: a payload word with no bit above its value; otherwise the command is refused with the word's offset (R309). -/
def scalar (s : State) (b : Mailbox) (word bits : Nat) (k : Nat → MailOut) : MailOut :=
  if b.word word < 2 ^ bits then k (b.word word) else .refuse s word

/-- A scalar that names a registered context; one that names none is refused with code 7 (R206, R309). -/
def ctxScalar (s : State) (b : Mailbox) (word : Nat) (k : Ctx → MailOut) : MailOut :=
  scalar s b word 16 fun v =>
    match s.ctx? (BitVec.ofNat 16 v) with
    | some x => k x
    | none => .refuse s 7

/-- Bytes returned in the payload (R309). -/
def State.mailPut (s : State) (m : MailCmd) (off n v : Nat) : State :=
  let b := s.mailOf m.i3c
  s.setMail m.i3c { b with payload := memPut b.payload off n v }

/-- Whether any of some bit ranges `(hi, lo)` of a number is set. -/
def anySet (v : Nat) (rs : List (Nat × Nat)) : Bool := rs.any fun r => bitsOf v r.1 r.2 != 0

/-! ### STATUS, OCHRERD and UNFENCE (R292, R298, R299, R309) -/

/-- The units of the fence record in ascending identifier order (R298, R309). -/
def State.fences (s : State) : List UnitRec :=
  (s.units.filter fun u => u.state != 0).foldl (fun (acc : List UnitRec) u =>
    acc.filter (fun v => v.unit < u.unit) ++ [u] ++ acc.filter fun v => !(v.unit < u.unit)) []

/-- STATUS: BOOTSTAT, the number of units in the fence record and their entries (R309). -/
def execStatus (m : MailCmd) (s : State) : Out :=
  mailRun s m 1 true fun s _ =>
    let fs := s.fences
    let s1 := (s.mailPut m 0 8 s.bootstat.toNat).mailPut m 8 4 fs.length
    .done (((fs.take 1004).mapIdx fun i u => (i, u)).foldl (fun (t : State) iu =>
      t.mailPut m (16 + 4 * iu.1) 4 (iu.2.unit.toNat + iu.2.state * 2 ^ 16)) s1)

/-- The 32 bytes of a report (R299). -/
def UnitRec.image (r : UnitRec) : Nat :=
  packBits [(0, r.unit.toNat), (32, r.last), (34, r.state), (40, r.mism), (64, r.fail), (96, r.pass), (128, r.lastC)]

/-- OCHRERD: a unit's report (R299, R309). -/
def execOchrerd (m : MailCmd) (s : State) : Out :=
  mailRun s m 10 true fun s b =>
    scalar s b 0 16 fun u =>
      if unitExists u then .done (s.mailPut m 0 32 (s.unitRec (BitVec.ofNat 16 u)).image) else .refuse s 0

/-- UNFENCE: a fenced unit that has passed two consecutive tests returns to service (R298). -/
def execUnfence (m : MailCmd) (s : State) : Out :=
  mailRun s m 11 false fun s b =>
    scalar s b 0 16 fun u =>
      let r := s.unitRec (BitVec.ofNat 16 u)
      if r.state = 1 ∧ 2 ≤ r.passRow then .done (s.setUnit { r with state := 0 }) else .refuse s 0

/-! ### REGCTX (R98, R197, R225) -/

/-- Whether a context descriptor is refused (R98, R197). -/
def State.descriptorBad (s : State) (ctxva v : Nat) : Bool :=
  let tw := bitsOf v 116 84 * 2 ^ 20
  let vw := bitsOf v 180 163 * 2 ^ 35
  let pool := bitsOf v 319 256
  let len := bitsOf v 383 320
  anySet v [(511, 384), (255, 208), (191, 181), (162, 129), (127, 117), (83, 65), (63, 52), (12, 0)] ||
  (bitsOf v 64 64 == 1 && bitsOf v 128 128 == 1 && tw < vw + 2 ^ 35 && vw < tw + 2 ^ 20) ||
  pool % 8192 != 0 || len % 8192 != 0 || (len != 0 && 2 ^ 41 < pool + len) ||
  ctxva % 64 != 0 || 2 ^ 53 ≤ ctxva ||
  s.ctxs.any fun x => x.ctxid.toNat == bitsOf v 207 192 || x.ctxva.toNat == ctxva ||
    (len != 0 && x.rpoolLen != 0 && pool < x.rpool + x.rpoolLen && x.rpool < pool + len)

/-- The cause groups that HMASK may hold: 1 to 6 and 8 to 11 (R225). -/
def hmaskAllowed : Word := 0x00000F7E

/-- Whether a trap block is refused (R225). -/
def trapBad (t : Nat) : Bool :=
  anySet t [(511, 480), (383, 373), (255, 245), (127, 117), (63, 16)] ||
  (BitVec.ofNat 32 (bitsOf t 447 416) &&& ~~~hmaskAllowed) != 0 ||
  bitsOf t 372 320 % 64 != 0 || bitsOf t 244 192 % 64 != 0 || bitsOf t 116 64 % 64 != 0

/-- A trap block's fields (R225). -/
def trapOf (t : Nat) : TrapBlock :=
  { tslice := BitVec.ofNat 32 (bitsOf t 479 448), hmask := BitVec.ofNat 32 (bitsOf t 447 416), hentry := BitVec.ofNat 32 (bitsOf t 415 384),
    hcode := BitVec.ofNat 64 (bitsOf t 372 320), savelen := BitVec.ofNat 64 (bitsOf t 319 256), savea := BitVec.ofNat 64 (bitsOf t 244 192),
    stoplen := BitVec.ofNat 64 (bitsOf t 191 128), stopa := BitVec.ofNat 64 (bitsOf t 116 64) }

/-- A context as its descriptor registers it (R98, R197). -/
def ctxOf (ctxva v : Nat) (trap : Option TrapBlock) : Ctx :=
  { ctxid := BitVec.ofNat 16 (bitsOf v 207 192), ctxva := BitVec.ofNat 64 ctxva, root := bitsOf v 51 13 * 8192,
    twe := bitsOf v 64 64 == 1, tw := bitsOf v 116 84 * 2 ^ 20, vwe := bitsOf v 128 128 == 1, vw := bitsOf v 180 163 * 2 ^ 35,
    rpool := bitsOf v 319 256, rpoolLen := bitsOf v 383 320, trap := trap, halt := false, haltAt := [], enginesStopped := false,
    stopWritten := false, stopRecs := [], inHandler := false, double := false, stopNum := 0, firstCause := 0, firstCore := 0, firstPc := 0,
    saves := [], resident := [], pinned := [], noResume := false }

/-- REGCTX: a context and its trap block. A refused trap block alone leaves the context without one (R225; log entry 27). -/
def execRegctx (m : MailCmd) (s : State) : Out :=
  mailRun s m 2 false fun s b =>
    let ctxva := b.word 0
    let v := b.words 1 8
    let t := b.words 9 8
    if s.descriptorBad ctxva v ∨ bitsOf t 15 0 ≠ bitsOf v 207 192 then .refuse s 7
    else if trapBad t then .refuse { s with ctxs := s.ctxs ++ [ctxOf ctxva v none] } 7
    else .done { s with ctxs := s.ctxs ++ [ctxOf ctxva v (some (trapOf t))] }

/-! ### REGQ (R196) -/

/-- Whether a queue descriptor is refused with code 3 (R196). -/
def queueBad (v : Nat) : Bool :=
  anySet v [(511, 309), (223, 196), (191, 181), (127, 117), (63, 53)] || 12 < bitsOf v 195 192 ||
  bitsOf v 52 0 % 64 != 0 || bitsOf v 116 64 % 8 != 0 || bitsOf v 180 128 % 32 != 0 || bitsOf v 308 256 % 64 != 0

/-- The entries of a queue leave its table: it is registered anew, and starts with none (R201). -/
def State.clearTable (s : State) (num : Nat) : State :=
  { s with packets := s.packets.filter (·.queue != num),
           upsets := s.upsets.filter fun u => match u with
             | .tableCopy q _ _ => q != num
             | _ => true }

/-- REGQ: a queue under a number; one registered again starts with no recorded WIDX and with no entry (R196, R200, R201; log entry 93). -/
def execRegq (m : MailCmd) (s : State) : Out :=
  mailRun s m 3 false fun s b =>
    scalar s b 0 10 fun num =>
      let v := b.words 1 8
      if queueBad v then .refuse s 3
      else match s.ctxs.find? fun x => x.ctxva.toNat == bitsOf v 308 256 with
        | none => .refuse s 7
        | some x =>
          let q : Queue :=
            { num := num, ctx := x.ctxid, ring := bitsOf v 52 0, accidx := bitsOf v 116 64, errrec := bitsOf v 180 128, logsz := bitsOf v 195 192,
              next := BitVec.ofNat 32 (bitsOf v 255 224), widx := none, broken := false, errors := 0, lastSeq := none }
          let s1 := s.clearTable num
          .done { s1 with queues := upsertBy Queue.num q s1.queues }

/-! ### REGMEM, REGJOIN and REGSPARE (R247, R261, R273) -/

/-- REGMEM: the membership block. Its shard list is read through the context; STEPDONE and CKPT then read 0 (R247, R248). -/
def execRegmem (m : MailCmd) (s : State) : Out :=
  mailRun s m 4 false fun s b =>
    ctxScalar s b 0 fun x =>
      let v := b.words 1 4
      let pool := bitsOf v 116 64
      let len := bitsOf v 191 128
      let buf := bitsOf v 244 192
      let list := bitsOf v 52 0
      if anySet v [(255, 245), (127, 117), (63, 53)] || list % 32 != 0 || pool % 8192 != 0 || len % 8192 != 0 || buf % 64 != 0 then .refuse s 3
      else match readRanges x.ctxid 257 list s with
        | .wait t => .wait t
        | .bad _ _ t => .refuse t 11
        | .good rs t =>
          if rs.any fun r => r.host != 0 || r.len % 2 ^ 20 != 0 then .refuse t 11
          else
            .done { t with memBlock := some { ctx := x.ctxid, shardl := list, pool := pool, poolLen := len, tablebuf := buf, shard := rs },
                           stepdone := 0, ckpt := 0, sealed := none, views := [], stripes := [] }

/-- Whether an F32 lies in [0, 1]; NaN does not (R273). -/
def unitInterval (w : Word) : Bool := w == 0x80000000 || w.toNat ≤ 0x3F800000

/-- Whether a join block is refused for itself (R273). -/
def joinBad (v : Nat) : Bool :=
  anySet v [(119, 113), (111, 111), (95, 53)] || bitsOf v 52 0 % 8192 != 0 || bitsOf v 159 128 == 0 ||
  !unitInterval (BitVec.ofNat 32 (bitsOf v 223 192)) || !unitInterval (BitVec.ofNat 32 (bitsOf v 255 224))

/-- REGJOIN: a die's reward join unit and c = RN(γ·λ) (R273). -/
def execRegjoin (m : MailCmd) (s : State) : Out :=
  mailRun s m 5 false fun s b =>
    scalar s b 0 4 fun die =>
      ctxScalar s b 1 fun x =>
        let v := b.words 2 4
        let u := s.join die
        if joinBad v || u.entries != [] then .refuse s 3
        else
          let gamma := BitVec.ofNat 32 (bitsOf v 223 192)
          let lambda := BitVec.ofNat 32 (bitsOf v 255 224)
          .done (s.setJoin { u with
            accepted := true, ctx := x.ctxid, store := bitsOf v 52 0, nent := bitsOf v 110 96 + 1, trunc := bitsOf v 112 112 == 1,
            smax := bitsOf v 127 120, orphto := bitsOf v 159 128, jointo := bitsOf v 191 160, gamma := gamma, lambda := lambda,
            c := rnMul gamma lambda })

/-- REGSPARE: the module becomes a ready spare with generation 0; a package that holds a rank is refused (R259, R261). -/
def execRegspare (m : MailCmd) (s : State) : Out :=
  mailRun s m 6 false fun s _ =>
    match s.memState with
    | .idle | .expelled | .spareReady => if s.failed then .refuse s 0 else .done s.toReady
    | .member | .failed | .spareFilling | .spareJoined => .refuse s 0

/-! ### RESUME, DESTROY and HALT (R207, R234, R242) -/

/-- RESUME: a stopped context goes on; while it is still stopping, or a handler runs, it is not ready (R242). -/
def execResume (m : MailCmd) (s : State) : Out :=
  mailRun s m 7 false fun s b =>
    ctxScalar s b 0 fun x =>
      if s.mayResume x then
        match s.resumeCtx x with
        | .ok t => .done t
        | .error t => .wait t
      else if x.halt && (!x.stopWritten || x.inHandler) then .ended s 2 0
      else .refuse s 0

/-- DESTROY (R207, R309). -/
def execDestroy (m : MailCmd) (s : State) : Out :=
  mailRun s m 8 false fun s b =>
    ctxScalar s b 0 fun x =>
      .done (s.destroyCtx x.ctxid)

/-- HALT: group 17 with the request's tag (R234, R309). -/
def execHalt (m : MailCmd) (s : State) : Out :=
  mailRun s m 9 false fun s b => ctxScalar s b 0 fun x => .done (s.stopContext x.ctxid 17 (m.tag.setWidth 96) false)

/-! ### COUNTERS (R193, R289, R309) -/

/-- COUNTERS: the six counts of a die's two ports, then its reward join unit's (R309). -/
def execCounters (m : MailCmd) (s : State) : Out :=
  mailRun s m 12 false fun s b =>
    scalar s b 0 4 fun die =>
      let counts := (s.port (2 * die)).counts ++ (s.port (2 * die + 1)).counts ++ (s.join die).counts
      .done ((counts.mapIdx fun i n => (i, n)).foldl (fun (t : State) p => t.mailPut m (4 * p.1) 4 p.2) s)

/-! ### Writes to the register space (R200, R248, R278, R308) -/

/-- The host reaches the register space while its link is up (R305, R312). -/
def hostReach (s : State) (t : State) : Out := if s.cxlUp then .next t else .next s

/-- NOTIFY_WRITE (R200). -/
def execNotifyWrite (queue : Nat) (value : DWord) (s : State) : Out := hostReach s (s.notify queue value)

/-- STEPDONE_WRITE (R248). -/
def execStepdoneWrite (value : DWord) (s : State) : Out := hostReach s (s.memPageWrite none 0 value)

/-- CKPT_WRITE (R248). -/
def execCkptWrite (value : DWord) (s : State) : Out := hostReach s (s.memPageWrite none 8 value)

/-- REWARD_PAGE_WRITE: an aligned write of 32 bytes is a reward message; any other, or one with a bit above GEN, is counted as
malformed (R278). -/
def execRewardPageWrite (offset : Nat) (bytes : List Byte) (s : State) : Out :=
  let v := leNat bytes
  if bytes.length ≠ 32 ∨ offset % 32 ≠ 0 ∨ 4096 ≤ offset ∨ bitsOf v 255 160 ≠ 0 then hostReach s (s.setJoin ((s.join 0).count 9 1))
  else
    let m : RewardMsg :=
      { traj := BitVec.ofNat 64 (bitsOf v 63 0), step := BitVec.ofNat 16 (bitsOf v 79 64), flags := BitVec.ofNat 8 (bitsOf v 87 80),
        reward := BitVec.ofNat 32 (bitsOf v 127 96), gen := BitVec.ofNat 32 (bitsOf v 159 128) }
    hostReach s (s.sendReward 0 m)

/-- UNLISTED_REGISTER_WRITE: ignored (R3, R308), but for the host's own writes of the mailbox's words, which take effect as R309 says: so an
opcode that is not listed ends with status 3. -/
def execUnlistedRegisterWrite (offset : Nat) (bytes : List Byte) (s : State) : Out :=
  if 0x1000 ≤ offset ∧ offset + bytes.length ≤ 0x2000 then hostReach s (s.hostWrite none offset bytes.length (leNat bytes)) else .next s

/-- ROUTING_TABLE_WRITE: the port by which a die's fabric engine reaches an address (R192). -/
def execRoutingTableWrite (die : Nat) (faddr : BitVec 20) (port : Nat) (s : State) : Out :=
  .next { s with routes := (die, faddr, port) :: s.routes.filter fun r => !(r.1 == die && r.2.1 == faddr) }

end Sys2Proof.Machine
end

