-- ==== Sys2Proof/Machine/Defence.lean ====
section
/-!
DEFINITION. Machine/Defence.lean: the silent-error defence (R292 to R302), the front end's firmware (R221 to R224), temperature and
telemetry (R311, R312), power-up (R304 to R306, R310), and the host's CXL accesses (R102, R307).
-/

namespace Sys2Proof.Machine

/-! ### Indigo windows (R297) -/

/-- The bytes of a beat as they are hashed: address, size and data (R297; log entry 29). The size of 4-bit elements is that of the bytes they
lie in. -/
def Beat.bytes (b : Beat) : List Byte := natBytes 8 b.va.toNat ++ natBytes 1 b.size ++ natBytes b.size b.data.toNat

/-- The hash of a window (R297). -/
def StoreWindow.hash (w : StoreWindow) : DWord := crc64 (w.beats.flatMap Beat.bytes)

/-- A window that both twins have closed, as the heads of their lists; then what is left of them. -/
def readyPair (ws vs : List StoreWindow) : Option (StoreWindow × StoreWindow × List StoreWindow × List StoreWindow) :=
  match ws, vs with
  | w :: ws', v :: vs' => if w.closed ∧ v.closed ∧ w.num = v.num then some (w, v, ws', vs') else none
  | _, _ => none

/-- The detail of a window mismatch: its number and the secondary's package core index (R234, R297). -/
def windowDetail (num core : Nat) : BitVec 96 := BitVec.ofNat 96 (num % 2 ^ 32 + core * 2 ^ 32)

/-- The next window of a primary cohort's own stream: performed on a match; a mismatch withholds it and stops the context with group 15,
and the beats of the window before it, which has matched, are performed (R231, R297). -/
def State.cohortWindow (s : State) (x : Ctx) (c : Cohort) (twin : Option Cohort) : Option State :=
  match c.windows.head? with
  | none => none
  | some h =>
    if h.matched then some (s.performWindow x c h (c.windows.drop 1))
    else twin.bind fun t => (readyPair c.windows t.windows).map fun (w, v, ws, vs) =>
      if w.hash = v.hash then
        let p := performable w ws
        let s1 := (s.setCohort { t with windows := (performable v vs).2, winDone := w.num + 1 }).leaveEnded t.cid
        s1.performWindow x { c with winDone := w.num + 1 } { w with carried := [], beats := p.1 } p.2
      else
        let s1 := s.setCohort { c with windows := { w with carried := [] } :: ws }
        (w.carried.foldl (performBeat (.core c.core) x c.core (c.launch, c.cid)) s1).causeAside c.cid c.ctx 15 (windowDetail w.num t.core)
          (BitVec.ofNat 16 c.core) c.stopPc false

/-- The next window of the jobs of a primary cohort, oldest job first; the cohort itself may have gone (R134, R140, R297). -/
def State.jobWindow (s : State) (cid : Nat) : Option State :=
  (s.jobs.filter fun j => j.cid == cid && j.role == .primary).findSome? fun j =>
    match s.twinJob j, s.ctx? j.ctx with
    | some i, some x =>
      match readyPair j.windows i.windows with
      | none => none
      | some (w, v, ws, vs) =>
        if w.hash = v.hash then
          if w.held.any fun b => beatsTaken s x j.core s.fresh [b] then none
          else
            let s1 := (s.setJob { j with windows := ws, winDone := w.num + 1 }).setJob { i with windows := vs, winDone := w.num + 1 }
            some (w.held.foldl (performBeat (.die (dieOf j.core)) x j.core (j.launch, j.cid)) s1)
        else some (s.jobCause j.cid j.ctx 15 (windowDetail w.num i.core) j.pc)
    | _, _ => none

/-- INDIGO_WINDOW_COMPARE: a window of a cohort, or of one of its jobs, that both twins have hashed is performed on a match, or stops the
context (R297). -/
def execIndigoWindowCompare (cid : Nat) (s : State) : Out :=
  let own : Option State :=
    match s.cohort? cid with
    | none => none
    | some c =>
      match c.role, s.ctx? c.ctx with
      | .primary, some x => s.cohortWindow x c (c.twin.bind s.cohort?)
      | _, _ => none
  .next ((own <|> s.jobWindow cid).getD s)

/-! ### Fences and Ochre tests (R292, R294, R298, R299) -/

/-- The die of a unit of kinds 0 to 6 (R292). -/
def unitDie (u : BitVec 16) : Nat :=
  let i := u.toNat % 8192
  match u.toNat / 8192 with
  | 0 | 1 => i / 384
  | 2 | 3 | 4 => i / 96
  | 5 => i / 48
  | 6 => i / 12
  | _ => 0

/-- Whether Ochre tests run on a unit: kinds 0 to 4, and firmware cores (R298). -/
def testable (u : BitVec 16) : Bool := unitExists u.toNat && (u.toNat / 8192 ≤ 4 || u.toNat / 8192 == 6)

/-- The contexts with work resident on a die. -/
def State.dieContexts (s : State) (d : Nat) : List (BitVec 16) :=
  ((s.cohorts.filter fun c => dieOf c.core == d).map (·.ctx) ++ (s.jobs.filter fun j => dieOf j.core == d).map (·.ctx)).eraseDups

/-- The package reports itself present but failed (R224, R301). -/
def State.reportFailed (s : State) : State := { s with failed := true }

/-- When the last firmware core of a die is fenced, the die's contexts stop with group 13, reason 4 (R224, R234). -/
def State.checkFirmware (s : State) (u : BitVec 16) : State :=
  let d := unitDie u
  if u.toNat / 8192 = 6 ∧ ((List.range 12).any (s.fwInService d)) = false then
    ((s.dieContexts d).foldl (fun t k => t.stopContext k 13 (hwDetail u.toNat 4 0) true) s).reportFailed
  else s

/-- Whether the last 16 correct replays of a unit lie within 2^24 cycles of its die's counter (R294). -/
def UnitRec.replaysOften (r : UnitRec) : Bool :=
  match r.recent with
  | last :: rest => rest.length == 15 && (rest.getLast?).any fun first => last < first + 2 ^ 24
  | [] => false

/-- REPLAY_RATE_FENCE: a unit that has replayed 16 times within 2^24 cycles of its die, each time correctly, is fenced; its work drains, and
a test of it is scheduled (R294). -/
def execReplayRateFence (unit : BitVec 16) (s : State) : Out :=
  let r := s.unitRec unit
  if unitExists unit.toNat = false ∨ r.replaysOften = false then .next s
  else .next ((s.setUnit { r with recent := [], state := max 1 r.state, scheduled := true, passRow := 0 }).checkFirmware unit)

/-- Whether a unit does nothing now (R298). -/
def State.unitIdle (s : State) (u : BitVec 16) : Bool :=
  let i := u.toNat % 8192
  match u.toNat / 8192 with
  | 0 | 1 => (s.onSlot (i / 4) (i % 4)).isEmpty
  | 2 => (s.core i).mmaQ.isEmpty
  | 3 => !(s.jobs.any fun j => j.core == i && j.kind.engine == 3)
  | 4 => !(s.jobs.any fun j => j.core == i && j.kind.engine == 2)
  | 6 => !((s.die (i / 12)).fw.any fun c => c.core == i % 12)
  | _ => false

/-- Whether a unit has done nothing for 2^20 cycles of its die's counter (R298). A unit that has never worked has been idle since reset. -/
def State.longIdle (s : State) (u : BitVec 16) : Bool :=
  s.unitIdle u && ((s.worked.find? fun w => w.1 == u.toNat).map (·.2)).getD 0 + 2 ^ 20 ≤ s.cycle (unitDie u)

/-- OCHRE_TEST: a test of an idle unit begins: a scheduled one, or one no sooner than 2^30 cycles after the last (R298). -/
def execOchreTest (unit : BitVec 16) (s : State) : Out :=
  let r := s.unitRec unit
  let now := s.cycle (unitDie unit)
  if testable unit = false ∨ r.state = 2 ∨ r.testing.isSome ∨ s.longIdle unit = false ∨
      (r.scheduled = false ∧ r.last ≠ 0 ∧ now < r.lastC + 2 ^ 30) then .next s
  else .next (s.setUnit { r with testing := some now, scheduled := false })

/-- A report after a test that passed or failed; a fourth failure in a row, or one after a reload, bars the unit until power-up
(R298, R299). -/
def UnitRec.tested (r : UnitRec) (now : Nat) (pass reload : Bool) : UnitRec :=
  if pass then { r with testing := none, lastC := now, last := 1, pass := satAdd r.pass 1, passRow := r.passRow + 1, failRow := 0 }
  else { r with testing := none, lastC := now, last := 2, fail := satAdd r.fail 1, passRow := 0, failRow := r.failRow + 1,
                state := if reload ∨ 4 ≤ r.failRow + 1 then 2 else max 1 r.state }

/-- OCHRE_TEST_COMPLETE: a test ends; a failing unit is fenced, and the test of one for which work arrives, or has arrived, is abandoned
(R298). -/
def execOchreTestComplete (unit : BitVec 16) (pass workArrived : Bool) (s : State) : Out :=
  let r := s.unitRec unit
  let now := s.cycle (unitDie unit)
  if r.testing.isNone then .next s
  else if workArrived || !s.unitIdle unit then .next (s.setUnit { r with testing := none, lastC := now, last := 3 })
  else .next ((s.setUnit (r.tested now pass false)).checkFirmware unit)

/-! ### L2 ways and slices (R301) -/

/-- Lines that a slice holds no longer: those of its sets beyond the ways that are left, the least recently used first (R301). -/
def State.trimL2 (s : State) (home : Nat × Nat × Nat) : State :=
  let ways := (s.l2Set home.1 home.2.1 home.2.2).ways
  let mine (x : L2Line) : Bool := s.homeOf (128 * x.line) == some home
  let keep := (s.l2.filter mine).take ways
  { s with l2 := s.l2.filter fun x => !mine x || keep.contains x }

/-- A slice retires; the last of a die stops the die's contexts with group 13, reason 5 (R301). Its lines are written back, and pass to
the next slice when they are used again, which changes no value. -/
def State.retireSlice (s : State) (die slice : Nat) : State :=
  let d := s.die die
  if d.retired.contains slice then s
  else
    let s0 := { s with l2 := s.l2.filter fun x => (s.homeOf (128 * x.line)).all fun (h : Nat × Nat × Nat) => !(h.1 == die && h.2.1 == slice) }
    let s1 := s0.setDie { d with retired := d.retired ++ [slice] }
    if d.retired.length = 47 then
      ((s.dieContexts die).foldl (fun t k => t.stopContext k 13 (hwDetail (5 * 8192 + 48 * die + slice) 5 0) true) s1).reportFailed
    else s1

/-- WAY_DISABLE: the corrected errors of a way have reached 4; the way is disabled in its set, and a set with fewer than two ways
retires its slice (R301). -/
def execWayDisable (die slice set way : Nat) (s : State) : Out :=
  let x := s.l2Set die slice set
  let x' : L2Set := { x with disabled := x.disabled ||| BitVec.twoPow 16 way, counts := x.counts.set way 4 }
  let s1 := s.setL2Set x'
  .next (if x'.ways < 2 then s1.retireSlice die slice else s1.trimL2 (die, slice, set))

/-! ### The front end's firmware (R221 to R224) -/

/-- Events whose hardware source has them ready and has not posted them: packets whose work has ended, and requests for pages (R221). -/
def State.dueFirmware (s : State) (die : Nat) : List FwEvent :=
  if die ≠ 0 then []
  else
    let d := s.die 0
    let ended (p : PacketEntry) : Bool :=
      let ls := s.launches.filter fun l => l.queue == p.queue && l.seq == p.seq
      p.started && !p.done && !p.refused && p.type != 3 && !s.halted p.ctx &&
        ((ls != [] && ls.all fun l => l.complete || s.launchEnded l) || ls == [] && !(s.jobs.any fun j => p.copies.contains j.id)) &&
        !(s.progs.any fun g => g.queue == p.queue && g.seq == p.seq)
    let wants (r : PageReq) : FwEvent :=
      match (s.ctx? r.ctx).map fun x => (x.freeFrame 8192).isSome with
      | some false => .eviction r.ctx r.va
      | _ => .pageRequest r.ctx r.va
    let all := (s.packets.filter ended).map (fun p => FwEvent.completion p.queue p.seq) ++ (s.pageReqs.filter fun r => r.status == 0).map wants
    all.eraseDups.filter fun e => !(d.events.contains e || d.fw.any fun c => c.running == e)

/-- FIRMWARE_EVENT: sources post what they have, and the oldest event of the queue whose key no running event holds goes to the idle core
with the lowest number (R221). Its effects come about in the event it names, whose commit ends it (R222); the start of a successor
follows at once (R214), and an error report needs nothing more (R294). -/
def execFirmwareEvent (die : Nat) (s : State) : Out :=
  let s := (s.dueFirmware die).foldl (fun t e => t.postEvent die e) s
  let d := s.die die
  match d.dispatchable, s.fwIdle die with
  | some e, some n =>
    let s1 := s.setDie { d with events := d.events.erase e, fw := d.fw ++ [{ core := n, running := e }] }
    (match e with
     | .joinZero _ id va =>
       match s1.launch? id with
       | some l => (match s1.startSuccessor l va.toNat with
         | .ok t => .next (t.fwCommit 0 (· == e))
         | .error t => .next (((s.stoppedBy t).getD s).fwRequeue 0 (· == e)))
       | none => .next (s1.fwCommit 0 (· == e))
     | .errorReport _ => .next (s1.fwCommit die (· == e))
     | _ => .next s1)
  | _, _ => .next s

/-- FIRMWARE_CORE_ERROR: the core's lock is revoked and its event returns to the head of the queue; the core reloads and passes a
test, or stays fenced (R224, R298). -/
def execFirmwareCoreError (die core : Nat) (testPass : Bool) (s : State) : Out :=
  let d := s.die die
  let back := (d.fw.filter fun c => c.core == core).map (·.running)
  let u := BitVec.ofNat 16 (6 * 8192 + 12 * die + core)
  let s1 := s.setDie { d with events := back ++ d.events, fw := d.fw.filter fun c => c.core != core }
  .next ((s1.setUnit ((s1.unitRec u).tested (s.cycle die) testPass true)).checkFirmware u)

/-- A committed effect is applied: bytes and results are written again; an entry stands in its table, and a completion whose DONE bit is set
changes nothing (R208, R222). -/
def State.applyEffect (s : State) (e : FwEffect) : State :=
  match e with
  | .write key bs => s.writeMem key bs
  | .done _ _ | .entry _ _ => s
  | .result i3c v => s.setMail i3c { s.mailOf i3c with result := v }

/-- FRONT_END_RESET: what was not committed is gone, the journal is applied again, the event queue is rebuilt, so that what ran without a
commit runs again, and every entry of die 0's queue tables is read from its copies (R222, R223, R224). A journal record lies in two vaults: it
is lost only with both copies (R302). -/
def execFrontEndReset (die : Nat) (s : State) : Out :=
  let d := s.die die
  let s1 := (s.setDie { d with events := d.fw.map (·.running) ++ d.events, fw := [], buffer := [] })
  let lost := s.upsets.contains (.journalCopy die 0) && s.upsets.contains (.journalCopy die 1)
  let s2 := if lost then s1 else d.journal.foldl State.applyEffect s1
  if die ≠ 0 then .next s2
  else .next (((s2.packets.filter fun p => !p.done).foldl (fun t p =>
    match t.readEntry p with
    | (some u, _) => u
    | (none, r) => orBefore t r) s2).fwCommit 0 noEvent)

/-! ### Temperature and telemetry (R311, R312) -/

/-- THERMAL_THROTTLE: a die passes 105 °C (R312). -/
def execThermalThrottle (die tempC : Nat) (s : State) : Out :=
  if 105 < tempC then .next (s.setDie { s.die die with throttled := true }) else .next s

/-- THROTTLE_END: it falls below 100 °C (R312). -/
def execThrottleEnd (die tempC : Nat) (s : State) : Out :=
  if tempC < 100 then .next (s.setDie { s.die die with throttled := false }) else .next s

/-- The power stages turn off once every context has stopped; only the I3C target stays alive (R312). -/
def State.powerOff (s : State) : State :=
  if s.ctxs.all fun x => x.stopWritten then
    { s with powered := false, released := false, cxlUp := false, ports := s.ports.map fun p => { p with up := false } }
  else s

/-- OVER_TEMPERATURE_SHUTDOWN: above 115 °C every context stops with group 13, reason 6, and when all have stopped the power stages turn off
(R312). -/
def execOverTemperatureShutdown (die tempC : Nat) (s : State) : Out :=
  if s.shutdown then .next s.powerOff
  else if tempC ≤ 115 then .next s
  else
    let s1 := (s.ctxs.map (·.ctxid)).foldl (fun t k => t.stopContext k 13 (hwDetail (0xE000 + 9) 6 die) true) s
    .next ({ s1 with shutdown := true }).powerOff

/-- TELEMETRY_REPORT over I3C, once per 2^20 cycles of die 0's counter (R311). -/
def execTelemetryReport (powerW inletC outletC junctionC : Nat) (s : State) : Out :=
  if s.cycle 0 / 2 ^ 20 ≤ s.reports then .next s
  else .next { s with outbox := s.outbox ++ [.telemetry powerW inletC outletC junctionC], reports := s.cycle 0 / 2 ^ 20 }

/-! ### Power-up (R304 to R306, R310) -/

/-- BOOTSTAT's fields (R306). -/
def bootstatOf (pdom : BitVec 16) (die code stage : Nat) (safe : Bool) : DWord :=
  BitVec.ofNat 64 (packBits [(3, bit01 safe), (4, stage), (16, code), (24, die), (32, pdom.toNat)])

/-- Stage 2 on the fence record (R298, R304): a unit that waits for this test is fenced when it passes; a unit that fails is fenced. Of a
report only STATE is kept over a reset (R299). -/
def selfTest (failed : List (BitVec 16)) (us : List UnitRec) : List UnitRec :=
  let old := us.map fun (u : UnitRec) =>
    { UnitRec.init u.unit with state := if failed.contains u.unit then max 1 u.state else if u.state = 2 then 1 else u.state }
  (failed.filter fun f => !(us.any fun u => u.unit == f)).foldl (fun acc f => upsertBy (fun x => x.unit.toNat) { UnitRec.init f with state := 1 } acc) old

/-- The first stage that fails, with its code and die (R304). -/
def bootFailure (b : BootInfo) (us : List UnitRec) : Option (Nat × Nat × Nat) :=
  let noFw := (List.range 16).find? fun d => (List.range 12).all fun k =>
    us.any fun u => u.unit == BitVec.ofNat 16 (6 * 8192 + 12 * d + k) && u.state != 0
  if b.signatureOk = false then some (1, 1, 0xFF)
  else if b.versionOk = false then some (1, 2, 0xFF)
  else match noFw, b.badBoundary.head?, b.badStacks.head? with
    | some d, _, _ => some (2, 3, d)
    | none, some d, _ => some (2, 3, d)
    | none, none, some k => some (3, 4, k / 2)
    | none, none, none =>
      if b.portsUp = [] then some (4, 5, 0xFF) else if b.cxlUp = false then some (5, 6, 0xFF) else none

/-- What a module keeps over a reset: host memory, its address, the fence record, the way bitmaps, and the last leaders
(R298, R301, R305). -/
def State.kept (s : State) : State :=
  let host (a : Nat) : Bool := hostBase ≤ a && a < 2 ^ 52
  { State.reset with
    mem := s.mem.filter fun c => host c.1, poison := s.poison.filter host, faddr := s.faddr, units := s.units.map fun u => { UnitRec.init u.unit with state := u.state }, l2sets := s.l2sets,
    dies := (s.dies.filter fun d => d.retired != []).map fun d => { DieState.init d.die with retired := d.retired },
    lastLeaders := s.lastLeaders, agenda := s.agenda, fresh := s.fresh, outbox := s.outbox }

/-- MODULE_RESET: the five stages of power-up, after which compute is released, or the module is in the safe talkative state
(R304, R305, R306, R310). -/
def execModuleReset (b : BootInfo) (s : State) : Out :=
  let ready (fail : Option (Nat × Nat × Nat)) (n : Nat) : Bool := match fail with
    | some f => n < f.1
    | none => true
  let us := selfTest b.failedUnits s.kept.units
  let fail := bootFailure b us
  let s1 : State :=
    { s.kept with
      pdom := b.pdom, cxlUp := b.cxlUp,
      units := if ready fail 1 then us else s.kept.units,
      ports := if ready fail 3 then b.portsUp.map fun n => { Port.init n with up := true } else [] }
  match fail with
  | none => .next { s1 with released := true, bootstat := bootstatOf b.pdom 0xFF 0 6 false }
  | some (stage, code, die) =>
    .next { s1 with bootstat := bootstatOf b.pdom die code stage true, memState := .failed, watches := s1.leaderWatches }

/-! ### The host's CXL accesses (R102, R307) -/

/-- CXL_MEM_ACCESS: the host reads or writes HBM through the HDM decoder (R100, R307). Data whose code fails on the way are discarded
(R303). -/
def execCxlMemAccess (pa size : Nat) (write : Option (List Byte)) (s : State) : Out :=
  if s.cxlUp = false ∨ s.released = false then .next s
  else match write with
    | some bs => if pa + bs.length ≤ 2 ^ 41 then .next (s.store pa bs) else .next s
    | none =>
      if 2 ^ 41 < pa + size then .next s
      else .next { s with outbox := s.outbox ++ [if s.poisoned pa size then .dataLost else .cxlData (memBytes s.mem pa size)] }

/-- CXL_CACHE_SNOOP: the host asks for a line of its memory by number: die 0's L2 answers for a line that it holds, and gives it up to a
host write (R102). -/
def execCxlCacheSnoop (lineAddr : Nat) (write : Option Line) (s : State) : Out :=
  let pa := hostPa (128 * lineAddr)
  if 2 ^ 52 < pa + 128 ∨ s.cxlUp = false then .next s
  else
    let held := s.inL2 pa
    let s1 : State := if held then { s with outbox := s.outbox ++ [if s.poisoned pa 128 then .dataLost else .snoopData (memBytes s.mem pa 128)] } else s
    match write with
    | none => .next s1
    | some d => .next { s1.writeMem pa (d.take 128) with l2 := s1.l2.filter fun y => y.line != pa / 128 }

/-- SPDM_REQUEST: measurements and the keys of link IDE, over DOE (R305, R307). -/
def execSpdmRequest (code : Byte) (block : Nat) (s : State) : Out :=
  let record := s.fences.map fun (u : UnitRec) => (u.unit.toNat, u.state)
  if s.cxlUp then .next { s with outbox := s.outbox ++ [.spdm code (Config.spdmDigest block Config.manifestDigest Config.fusedVersion record)] }
  else .next s

end Sys2Proof.Machine
end

