-- ==== Sys2Proof/Machine/Dispatch.lean ====
section
/-!
DEFINITION. Machine/Dispatch.lean: each instruction and event to its meaning.
-/

namespace Sys2Proof.Machine

open Sys2Proof

def exec (i : Instr) (s : State) : Host.Outcome State Fault Refusal :=
  match i with
  | .accalloc f => Sys2Proof.Machine.execAccalloc f s
  | .accfree f => Sys2Proof.Machine.execAccfree f s
  | .and f => Sys2Proof.Machine.execAnd f s
  | .andn f => Sys2Proof.Machine.execAndn f s
  | .arrive f => Sys2Proof.Machine.execArrive f s
  | .assert f => Sys2Proof.Machine.execAssert f s
  | .atom f => Sys2Proof.Machine.execAtom f s
  | .awaitc f => Sys2Proof.Machine.execAwaitc f s
  | .bar f => Sys2Proof.Machine.execBar f s
  | .barinit f => Sys2Proof.Machine.execBarinit f s
  | .bcast f => Sys2Proof.Machine.execBcast f s
  | .bfi f => Sys2Proof.Machine.execBfi f s
  | .bfx f => Sys2Proof.Machine.execBfx f s
  | .bkpt f => Sys2Proof.Machine.execBkpt f s
  | .bpass f => Sys2Proof.Machine.execBpass f s
  | .bra f => Sys2Proof.Machine.execBra f s
  | .brev f => Sys2Proof.Machine.execBrev f s
  | .btake f => Sys2Proof.Machine.execBtake f s
  | .bwait f => Sys2Proof.Machine.execBwait f s
  | .call f => Sys2Proof.Machine.execCall f s
  | .callInd f => Sys2Proof.Machine.execCallInd f s
  | .cctl f => Sys2Proof.Machine.execCctl f s
  | .cfence f => Sys2Proof.Machine.execCfence f s
  | .clz f => Sys2Proof.Machine.execClz f s
  | .coll f => Sys2Proof.Machine.execColl f s
  | .copy f => Sys2Proof.Machine.execCopy f s
  | .cvt f => Sys2Proof.Machine.execCvt f s
  | .cvtpk f => Sys2Proof.Machine.execCvtpk f s
  | .cwait f => Sys2Proof.Machine.execCwait f s
  | .cwaitSplit f => Sys2Proof.Machine.execCwaitSplit f s
  | .epapp f => Sys2Proof.Machine.execEpapp f s
  | .epend f => Sys2Proof.Machine.execEpend f s
  | .epi f => Sys2Proof.Machine.execEpi f s
  | .epiRec f => Sys2Proof.Machine.execEpiRec f s
  | .exit f => Sys2Proof.Machine.execExit f s
  | .fadd f => Sys2Proof.Machine.execFadd f s
  | .fsub f => Sys2Proof.Machine.execFsub f s
  | .fmul f => Sys2Proof.Machine.execFmul f s
  | .ffma f => Sys2Proof.Machine.execFfma f s
  | .fcmp f => Sys2Proof.Machine.execFcmp f s
  | .fence f => Sys2Proof.Machine.execFence f s
  | .fmax f => Sys2Proof.Machine.execFmax f s
  | .fmin f => Sys2Proof.Machine.execFmin f s
  | .frnd f => Sys2Proof.Machine.execFrnd f s
  | .fsfn f => Sys2Proof.Machine.execFsfn f s
  | .gate f => Sys2Proof.Machine.execGate f s
  | .gather f => Sys2Proof.Machine.execGather f s
  | .iabs f => Sys2Proof.Machine.execIabs f s
  | .iadd f => Sys2Proof.Machine.execIadd f s
  | .isub f => Sys2Proof.Machine.execIsub f s
  | .iaddmin f => Sys2Proof.Machine.execIaddmin f s
  | .icmp f => Sys2Proof.Machine.execIcmp f s
  | .idp2 f => Sys2Proof.Machine.execIdp2 f s
  | .idp4 f => Sys2Proof.Machine.execIdp4 f s
  | .imad f => Sys2Proof.Machine.execImad f s
  | .imax f => Sys2Proof.Machine.execImax f s
  | .imin f => Sys2Proof.Machine.execImin f s
  | .imul f => Sys2Proof.Machine.execImul f s
  | .imulh f => Sys2Proof.Machine.execImulh f s
  | .jmp f => Sys2Proof.Machine.execJmp f s
  | .jmpInd f => Sys2Proof.Machine.execJmpInd f s
  | .ld f => Sys2Proof.Machine.execLd f s
  | .lea f => Sys2Proof.Machine.execLea f s
  | .lqdone f => Sys2Proof.Machine.execLqdone f s
  | .lqtake f => Sys2Proof.Machine.execLqtake f s
  | .lqtakeSplit f => Sys2Proof.Machine.execLqtakeSplit f s
  | .lqtakeTry f => Sys2Proof.Machine.execLqtakeTry f s
  | .lrel f => Sys2Proof.Machine.execLrel f s
  | .mbatch f => Sys2Proof.Machine.execMbatch f s
  | .mfs f => Sys2Proof.Machine.execMfs f s
  | .mma f => Sys2Proof.Machine.execMma f s
  | .mov f => Sys2Proof.Machine.execMov f s
  | .mts f => Sys2Proof.Machine.execMts f s
  | .mwait f => Sys2Proof.Machine.execMwait f s
  | .nop f => Sys2Proof.Machine.execNop f s
  | .not f => Sys2Proof.Machine.execNot f s
  | .or f => Sys2Proof.Machine.execOr f s
  | .xor f => Sys2Proof.Machine.execXor f s
  | .park f => Sys2Proof.Machine.execPark f s
  | .pgreq f => Sys2Proof.Machine.execPgreq f s
  | .pgreqSplit f => Sys2Proof.Machine.execPgreqSplit f s
  | .plop f => Sys2Proof.Machine.execPlop f s
  | .popc f => Sys2Proof.Machine.execPopc f s
  | .pref f => Sys2Proof.Machine.execPref f s
  | .rcopy f => Sys2Proof.Machine.execRcopy f s
  | .red f => Sys2Proof.Machine.execRed f s
  | .redl f => Sys2Proof.Machine.execRedl f s
  | .scanl f => Sys2Proof.Machine.execScanl f s
  | .ret f => Sys2Proof.Machine.execRet f s
  | .rwdsend f => Sys2Proof.Machine.execRwdsend f s
  | .rwr f => Sys2Proof.Machine.execRwr f s
  | .rwrVec f => Sys2Proof.Machine.execRwrVec f s
  | .scatter f => Sys2Proof.Machine.execScatter f s
  | .sel f => Sys2Proof.Machine.execSel f s
  | .shfl f => Sys2Proof.Machine.execShfl f s
  | .slide f => Sys2Proof.Machine.execSlide f s
  | .swzx f => Sys2Proof.Machine.execSwzx f s
  | .shl f => Sys2Proof.Machine.execShl f s
  | .shr f => Sys2Proof.Machine.execShr f s
  | .shra f => Sys2Proof.Machine.execShra f s
  | .shrrn f => Sys2Proof.Machine.execShrrn f s
  | .st f => Sys2Proof.Machine.execSt f s
  | .tmark f => Sys2Proof.Machine.execTmark f s
  | .trap f => Sys2Proof.Machine.execTrap f s
  | .tret f => Sys2Proof.Machine.execTret f s
  | .twin f => Sys2Proof.Machine.execTwin f s
  | .vexp f => Sys2Proof.Machine.execVexp f s
  | .vshape f => Sys2Proof.Machine.execVshape f s
  | .vsqz f => Sys2Proof.Machine.execVsqz f s
  | .vote f => Sys2Proof.Machine.execVote f s
  | .xfma2 f => Sys2Proof.Machine.execXfma2 f s
  | .yield f => Sys2Proof.Machine.execYield f s
  | .status m => Sys2Proof.Machine.execStatus m s
  | .regctx m => Sys2Proof.Machine.execRegctx m s
  | .regq m => Sys2Proof.Machine.execRegq m s
  | .regmem m => Sys2Proof.Machine.execRegmem m s
  | .regjoin m => Sys2Proof.Machine.execRegjoin m s
  | .regspare m => Sys2Proof.Machine.execRegspare m s
  | .resume m => Sys2Proof.Machine.execResume m s
  | .destroy m => Sys2Proof.Machine.execDestroy m s
  | .halt m => Sys2Proof.Machine.execHalt m s
  | .ochrerd m => Sys2Proof.Machine.execOchrerd m s
  | .unfence m => Sys2Proof.Machine.execUnfence m s
  | .counters m => Sys2Proof.Machine.execCounters m s
  | .notifyWrite queue value => Sys2Proof.Machine.execNotifyWrite queue value s
  | .stepdoneWrite value => Sys2Proof.Machine.execStepdoneWrite value s
  | .ckptWrite value => Sys2Proof.Machine.execCkptWrite value s
  | .rewardPageWrite offset bytes => Sys2Proof.Machine.execRewardPageWrite offset bytes s
  | .unlistedRegisterWrite offset bytes => Sys2Proof.Machine.execUnlistedRegisterWrite offset bytes s
  | .packetAccept queue => Sys2Proof.Machine.execPacketAccept queue s
  | .launch queue seq => Sys2Proof.Machine.execLaunch queue seq s
  | .bundle queue seq => Sys2Proof.Machine.execBundle queue seq s
  | .inval queue seq => Sys2Proof.Machine.execInval queue seq s
  | .collProgramStep prog peers mismatch => Sys2Proof.Machine.execCollProgramStep prog peers mismatch s
  | .packetComplete queue seq => Sys2Proof.Machine.execPacketComplete queue seq s
  | .workgroupPlacement die => Sys2Proof.Machine.execWorkgroupPlacement die s
  | .reservation die => Sys2Proof.Machine.execReservation die s
  | .preemptionSave wg => Sys2Proof.Machine.execPreemptionSave wg s
  | .preemptionTimeout wg => Sys2Proof.Machine.execPreemptionTimeout wg s
  | .workgroupRestore saved => Sys2Proof.Machine.execWorkgroupRestore saved s
  | .continuationResume die => Sys2Proof.Machine.execContinuationResume die s
  | .rwrLanding sender => Sys2Proof.Machine.execRwrLanding sender s
  | .bankGrant core => Sys2Proof.Machine.execBankGrant core s
  | .bankReturn core bank => Sys2Proof.Machine.execBankReturn core bank s
  | .matrixStep core => Sys2Proof.Machine.execMatrixStep core s
  | .jobComplete job => Sys2Proof.Machine.execJobComplete job s
  | .jobResume job => Sys2Proof.Machine.execJobResume job s
  | .pageMakeResident ctx va => Sys2Proof.Machine.execPageMakeResident ctx va s
  | .pagePinExpiry ctx va => Sys2Proof.Machine.execPagePinExpiry ctx va s
  | .combiningFlush core => Sys2Proof.Machine.execCombiningFlush core s
  | .starvationQualify cid => Sys2Proof.Machine.execStarvationQualify cid s
  | .yieldExpiry cid => Sys2Proof.Machine.execYieldExpiry cid s
  | .readPin core slot bank cid losses => Sys2Proof.Machine.execReadPin core slot bank cid losses s
  | .collectiveStart coll => Sys2Proof.Machine.execCollectiveStart coll s
  | .collectiveComplete coll peers mismatch => Sys2Proof.Machine.execCollectiveComplete coll peers mismatch s
  | .pullRequest src gen txid core line => Sys2Proof.Machine.execPullRequest src gen txid core line s
  | .pullLineRead pull => Sys2Proof.Machine.execPullLineRead pull s
  | .pullResponse txid refused data => Sys2Proof.Machine.execPullResponse txid refused data s
  | .pullReissue txid => Sys2Proof.Machine.execPullReissue txid s
  | .flitReceive port flit => Sys2Proof.Machine.execFlitReceive port flit s
  | .portFail port linkLoss => Sys2Proof.Machine.execPortFail port linkLoss s
  | .heldPacketTimeout port => Sys2Proof.Machine.execHeldPacketTimeout port s
  | .podBarrierArrive p => Sys2Proof.Machine.execPodBarrierArrive p s
  | .podBarrierComplete p => Sys2Proof.Machine.execPodBarrierComplete p s
  | .podBarrierResend cid => Sys2Proof.Machine.execPodBarrierResend cid s
  | .heartbeatSend peer => Sys2Proof.Machine.execHeartbeatSend peer s
  | .heartbeatReceive h => Sys2Proof.Machine.execHeartbeatReceive h s
  | .heartbeatMiss peer => Sys2Proof.Machine.execHeartbeatMiss peer s
  | .suspect m => Sys2Proof.Machine.execSuspect m s
  | .withdraw m => Sys2Proof.Machine.execWithdraw m s
  | .prepare m => Sys2Proof.Machine.execPrepare m s
  | .promise m => Sys2Proof.Machine.execPromise m s
  | .propose m => Sys2Proof.Machine.execPropose m s
  | .accept m => Sys2Proof.Machine.execAccept m s
  | .proposalRetry => Sys2Proof.Machine.execProposalRetry s
  | .commit m => Sys2Proof.Machine.execCommit m s
  | .joined m => Sys2Proof.Machine.execJoined m s
  | .sealStep step => Sys2Proof.Machine.execSealStep step s
  | .cloneRequest src gen txid stripe step fingerprint => Sys2Proof.Machine.execCloneRequest src gen txid stripe step fingerprint s
  | .cloneResponse src stripe reason fingerprint data => Sys2Proof.Machine.execCloneResponse src stripe reason fingerprint data s
  | .rewardMessage die fromPort m => Sys2Proof.Machine.execRewardMessage die fromPort m s
  | .rewardAcknowledgement txid => Sys2Proof.Machine.execRewardAcknowledgement txid s
  | .rewardUnacknowledged txid => Sys2Proof.Machine.execRewardUnacknowledged txid s
  | .rewardHoldTimeout die => Sys2Proof.Machine.execRewardHoldTimeout die s
  | .orphanTimeout die => Sys2Proof.Machine.execOrphanTimeout die s
  | .joinTimeout die entry => Sys2Proof.Machine.execJoinTimeout die entry s
  | .episodeRelease die => Sys2Proof.Machine.execEpisodeRelease die s
  | .cohortStop cid => Sys2Proof.Machine.execCohortStop cid s
  | .engineStop ctx => Sys2Proof.Machine.execEngineStop ctx s
  | .stopAreaWrite ctx => Sys2Proof.Machine.execStopAreaWrite ctx s
  | .indigoWindowCompare cid => Sys2Proof.Machine.execIndigoWindowCompare cid s
  | .replayRateFence unit => Sys2Proof.Machine.execReplayRateFence unit s
  | .ochreTest unit => Sys2Proof.Machine.execOchreTest unit s
  | .ochreTestComplete unit pass workArrived => Sys2Proof.Machine.execOchreTestComplete unit pass workArrived s
  | .wayDisable die slice set way => Sys2Proof.Machine.execWayDisable die slice set way s
  | .firmwareCoreError die core testPass => Sys2Proof.Machine.execFirmwareCoreError die core testPass s
  | .firmwareEvent die => Sys2Proof.Machine.execFirmwareEvent die s
  | .frontEndReset die => Sys2Proof.Machine.execFrontEndReset die s
  | .thermalThrottle die tempC => Sys2Proof.Machine.execThermalThrottle die tempC s
  | .throttleEnd die tempC => Sys2Proof.Machine.execThrottleEnd die tempC s
  | .overTemperatureShutdown die tempC => Sys2Proof.Machine.execOverTemperatureShutdown die tempC s
  | .telemetryReport powerW inletC outletC junctionC => Sys2Proof.Machine.execTelemetryReport powerW inletC outletC junctionC s
  | .moduleReset b => Sys2Proof.Machine.execModuleReset b s
  | .lineLands job => Sys2Proof.Machine.execLineLands job s
  | .cxlMemAccess pa size write => Sys2Proof.Machine.execCxlMemAccess pa size write s
  | .cxlCacheSnoop lineAddr write => Sys2Proof.Machine.execCxlCacheSnoop lineAddr write s
  | .spdmRequest code block => Sys2Proof.Machine.execSpdmRequest code block s
  | .rankTableRegistration t => Sys2Proof.Machine.execRankTableRegistration t s
  | .routingTableWrite die faddr port => Sys2Proof.Machine.execRoutingTableWrite die faddr port s

end Sys2Proof.Machine
end

