-- ==== Sys2Proof/Machine/Issue.lean ====
section
/-!
DEFINITION. Machine/Issue.lean: one turn of a cohort: readiness and selection (R41 to R43), the fetch (R313, R118), the
decoder's refusals (R322, R323), handler mode's refusals (R240, R362, R390, R421), and what follows an instruction.
-/

namespace Sys2Proof.Machine

/-- Whether a die withholds issue in this cycle: a hot die does so on every other one (R312). -/
def State.withheld (s : State) (d : Nat) : Bool := (s.die d).throttled && s.cycle d % 2 == 1

/-- Whether a cohort has an instruction to finish before it stops or is saved: an atomic that is part done, a FENCE or a CCTL (R362), or, in
an Indigo pair, the one for which its twin waits, and before a save every one that its twin has done (R142, R227, R295, R297). -/
def State.owes (s : State) (c : Cohort) : Bool :=
  c.rmw.isSome || c.mustEnd || (c.twin.bind s.cohort?).any fun t =>
    ((t.rmw.isSome || t.mustEnd) && c.steps ≤ t.steps) || (s.preempted c && !t.hmode && c.steps < t.steps)

/-- The twins of an Indigo pair keep to the same instruction, so that a lane that dies in one dies in the other at that instruction (R296;
log entry 28). A handler runs on its own. -/
def State.keepsPace (s : State) (c : Cohort) : Bool :=
  c.hmode || (c.twin.bind s.cohort?).all fun t => t.hmode || c.steps ≤ t.steps

/-- What R41 asks of a cohort apart from its context: resident, not stopped or pre-empted, with a slot that does not wait at J
(R41, R244). A cohort whose instruction waits for a condition is asked too: its instruction is tried again. -/
def State.canIssue (s : State) (c : Cohort) : Bool :=
  (c.wait == .none || c.wait == .retry) && !c.stopped && c.issueSlot?.isSome && (!s.preempted c || s.owes c) && !s.withheld (dieOf c.core) &&
    s.keepsPace c

/-- Whether a cohort may issue: its context is not halted, or it runs the handler, or it has an instruction to finish (R41, R227). -/
def State.mayIssue (s : State) (c : Cohort) : Bool :=
  s.canIssue c &&
  (match s.ctx? c.ctx with
   | some x => !x.halt || (x.inHandler && c.hmode) || s.owes c
   | none => false)

/-- Whether a cohort still issues in the cycle in which its context's halt line rises: it sees the line from the next cycle on
(R226, R231), unless an instruction of its own has raised a cause. -/
def State.stillIssues (s : State) (c : Cohort) : Bool :=
  s.canIssue c && !(c.raised && !c.jobSide) && (s.ctx? c.ctx).any (·.haltsNow s.cycles)

/-- The slot of a cohort within the package: 4 × core + slot (R10). -/
def Cohort.slotKey (c : Cohort) : Nat := 4 * c.core + c.place / 12

/-- Whether a cohort qualifies by starvation (R42). -/
def Cohort.qualifies (c : Cohort) : Bool := 4084 ≤ c.starve

/-- Whether a `.yl` still ranks a cohort last (R43). -/
def State.yielded (s : State) (c : Cohort) : Bool :=
  match c.yieldUntil with
  | some t => s.cycle (dieOf c.core) < t
  | none => false

/-- Whether a slot selects cohort `a` ahead of `b` (R41 to R43). -/
def State.selects (s : State) (a b : Cohort) : Bool :=
  if a.qualifies ≠ b.qualifies then a.qualifies
  else if a.qualifies ∧ a.starve ≠ b.starve then b.starve < a.starve
  else if a.qualifies then a.older b
  else if s.yielded a ≠ s.yielded b then s.yielded b
  else a.ranksAbove b

/-- The detail of a decode refusal: W0, reason and operand field (R234). -/
def badDetail (w : IWord) (b : BadWord) : BitVec 96 :=
  BitVec.ofNat 96 ((w.setWidth 32).toNat + (b.reason + b.field * 256) * 2 ^ 64)

/-- Instructions that handler mode refuses with group 12, reason 7 (R240, R362, R390, R421). ST, ATOM and RED to the tile
window are refused by their own meanings. -/
def refusedInHandler : Instr → Bool
  | .bar _ | .barinit _ | .arrive _ | .bwait _ | .coll _ | .rcopy _ | .copy _ | .gather _ | .scatter _ | .epi _ | .epiRec _
  | .mma _ | .btake _ | .bpass _ | .accalloc _ | .accfree _ | .park _ | .exit _ | .rwr _ | .rwrVec _ | .awaitc _ | .gate _
  | .lrel _ | .cfence _ | .cwait _ | .cwaitSplit _ | .lqtake _ | .lqtakeSplit _ | .mwait _ | .pgreqSplit _ | .rwdsend _
  | .tmark _ => true
  | .cctl f => f.sub == 1 && f.scp == .pod
  | _ => false

/-- The yield bit of an instruction (R43, R455). -/
def yields : Instr → Bool
  | .yield _ => true
  | i => match i.parts with
    | some (_, f) => f.yl
    | none => false

/-- A fetch that fails: every lane of the fetching slot's mask is named, with the address (R234). -/
def State.raiseFetch (s : State) (c : Cohort) (va : DWord) (group reason : Nat) : State :=
  let m := c.here.mask
  let recs := (List.range c.width).map fun l =>
    if m.getLsbD l then { addr := va, pc := c.here.pc, reason := reason, state := 1, lgsz := 0, cause := group }
    else LaneRec.zero
  let detail : BitVec 96 :=
    if group = 5 then (va &&& 0x1FFFFFFFFFFFFF).setWidth 96
    else m.setWidth 96 ||| BitVec.ofNat 96 ((elect m + reason * 256) * 2 ^ 64)
  s.raise c group detail recs

/-- An instruction has been issued: the cohort's starvation count starts again, and a `.yl` ranks it last for 16 cycles (R42, R43). Only
another cohort's issue on the slot ends a yield sooner. The instructions of the kernel are counted for an Indigo pair (R296). -/
def State.noteIssue (s : State) (cid : Nat) (key : Nat) (yl : Bool) : State :=
  { s with cohorts := s.cohorts.map fun d =>
      if d.cid = cid then
        { d with starve := 0, steps := if d.twin.isNone || d.hmode then d.steps else d.steps + 1, yieldUntil := if yl then some (s.cycle (dieOf d.core) + 16) else d.yieldUntil }
      else if d.slotKey = key then { d with yieldUntil := none } else d }

/-- The outcome with a function applied to a next state. -/
def onNext (o : Out) (k : State → State) : Out :=
  match o with
  | .next t => .next (k t)
  | .fault r => .fault r
  | .refused r => .refused r

/-- Whether a cohort is to try its instruction again. -/
def State.retries (s : State) (cid : Nat) : Bool := (s.cohort? cid).any fun d => d.wait == .retry

/-- Whether a context stands still because of a cause: its halt line is up and no handler runs. -/
def State.standsStill (s : State) (k : BitVec 16) : Bool := (s.ctx? k).any fun x => x.halt && !x.inHandler

/-- Whether the instruction of a cohort, `c` before it and `d` after it, ended in a cause. -/
def Cohort.tookCause (c d : Cohort) : Bool :=
  d.pend != c.pend || (d.raised && !(c.raised && d.cause == c.cause && d.detail == c.detail && d.epc == c.epc))

/-- Whether the instruction that a cohort has just issued ended in a cause; in a handler, one leaves the context stopped (R240). -/
def State.faulted (s : State) (c : Cohort) : Bool :=
  ((s.cohort? c.cid).any c.tookCause) || (c.hmode && s.standsStill c.ctx)

/-- Whether an instruction waits before it issues, and holds no register while it does (R390, R411, R421). -/
def waitsAtIssue : Instr → Bool
  | .mma _ | .mbatch _ | .rwr _ | .rwrVec _ => true
  | _ => false

/-- Whether a stop or a save waits until an instruction has completed (R362). -/
def endsFirst : Instr → Bool
  | .fence _ | .cctl _ => true
  | _ => false

/-- The rows of an instruction: while its cohort waits in it they are pinned; when it is done, what it wrote is settled (R57,
R58). One that raised a cause has written nothing. -/
def State.rowsAfter (s : State) (i : Instr) (c : Cohort) : State :=
  match s.cohort? c.cid with
  | some d =>
    if d.wait ≠ .none then s.setCohort { d with busy := if waitsAtIssue i then [] else namedRegs i c, ends := endsFirst i }
    else if s.faulted c then s
    else s.settleRows i c
  | none => s

/-- What follows an instruction: its rows are settled or pinned. One that is to be tried again has not issued (R41); for any other,
issue counts (R42, R43), and a BAR.pod that an exit completes is tried (R346). -/
def State.afterIssue (i : Instr) (c : Cohort) (s : State) : State :=
  let s1 := s.rowsAfter i c
  if s.retries c.cid then s1 else (s1.noteIssue c.cid c.slotKey (yields i)).podTryAll

/-- Whether an instruction names $MGEN or $LQVER as an operand; MFS forwards them itself (R52, R296). -/
def readsShared (i : Instr) : Bool :=
  match i with
  | .mfs _ => false
  | i => match i.parts with
    | some (_, f) => [f.oa, f.ob, f.oc].any fun o => o == .s 0x0A || o == .s 0x12
    | none => false

/-- The machine with $MGEN, and $LQVER of a die, at given values. -/
def State.withShared (s : State) (d : Nat) (mgen lqver : Word) : State :=
  if (s.die d).lqver = lqver then { s with mgen := mgen } else ({ s with mgen := mgen }).setDie { s.die d with lqver := lqver }

/-- An instruction's meaning; in an Indigo pair a $MGEN or $LQVER operand is the primary's (R296). -/
def State.meaning (s : State) (c : Cohort) (i : Instr) : Out :=
  let begun (t : State) : Bool := (t.cohort? c.cid).any fun d => d.rmw.isSome
  if c.role = .single ∨ readsShared i = false ∨ c.rmw.isSome then exec i s
  else match c.fwdIn with
    | .waits => waitHere s c
    | .own =>
      match exec i s with
      | .next t =>
        if t.retries c.cid && !begun t then .next t
        else
          let g := s.fwdGive c [some (Word.pair s.mgen (s.die (dieOf c.core)).lqver)] 0
          exec i (g.1.setCohort g.2)
      | o => o
    | .given vals _ =>
      let v := (vals.getD 0 none).getD 0
      let d := dieOf c.core
      match exec i ((s.setCohort c.fwdTaken).withShared d (DWord.lo v) (DWord.hi v)) with
      | .next t =>
        let back := t.withShared d s.mgen (s.die d).lqver
        .next (match back.cohort? c.cid with
          | some e => if t.retries c.cid && !begun t then back.setCohort { e with fwd := c.fwd, fwdCount := c.fwdCount } else back
          | none => back)
      | o => o

/-! ### Errors that an instruction meets (R236, R293, R294; log entry 78) -/

/-- Whether an instruction uses an adder, a multiplier or a shifter of its slot's paths, which a check guards (R293). VOTE.count adds. -/
def checkedOp (opc : BitVec 8) (f : Fields) : Bool :=
  let n := opc.toNat
  (n == 0x74 && f.sub == 3) || (0x20 ≤ n && n ≤ 0x2D) || (0x35 ≤ n && n ≤ 0x3B) || n == 0x42 || n == 0x43 || (0x50 ≤ n && n ≤ 0x59) || n == 0x75 || n == 0x76 ||
    (0x80 ≤ n && n ≤ 0x85)

/-- Whether the class of an instruction permits a U or A result without a memory access or a cohort-wide effect: arithmetic and logic, the
cross-lane operations and MFS (R44, R60). -/
def scalarClass (n : Nat) : Bool := (0x20 ≤ n && n ≤ 0x59) || (0x70 ≤ n && n ≤ 0x78) || n == 0xE0

/-- Whether an instruction issued on the scalar path: its class permits a U or A result, its write was full, and what it wrote is U
or A (R44). `c` is its cohort before it and `d` after it. -/
def scalarPath (i : Instr) (c d : Cohort) : Bool :=
  match i.parts with
  | none => false
  | some (opc, f) =>
    scalarClass opc.toNat && c.full (c.writeMask f) && opndRegs f.od != [] &&
      (opndRegs f.od).all fun k => match d.reg k with
        | .g _ => false
        | _ => true

/-- The unit of a slot's scalar or vector path (R292). -/
def Cohort.pathUnit (c : Cohort) (scalar : Bool) : BitVec 16 := BitVec.ofNat 16 ((if scalar then 0 else 8192) + c.slotKey)

/-- The lanes whose words an instruction reads of its OA register, where they are not those of its write mask: a cross-lane read's sources
(R350, R441), and every lane that is not dead for VSQZ, VEXP and a full-vector send (R64, R437). -/
def State.oaLanes (s : State) (c : Cohort) (i : Instr) : Option Mask :=
  let m := instrMask i c
  let live := if m = 0 then 0 else lanesMask c.width &&& ~~~c.dead
  let read (src : Nat → Option Nat) : Mask := maskOf fun k => c.validLane k && (laneList m).any fun l => src l == some k
  match i with
  | .shfl f => some (read (s.shflSrc c f))
  | .slide f => some (read (s.slideSrc c f))
  | .swzx f => some (read (swzxSrc f))
  | .bcast f => some (read fun _ => some (s.atElected c f f.ob m).toNat)
  | .vsqz _ | .vexp _ | .rwrVec _ => some live
  | _ => none

/-- The lanes whose words of the rows that an instruction reads are bad: the lane that a word belongs to dies (R236, R302; log entry 78). -/
def State.badLanes (s : State) (c : Cohort) (i : Instr) : Mask :=
  let m := instrMask i c
  let rd := (regTraffic i c).1
  let oa := match i.parts with
    | some (_, f) => opndRegs f.oa
    | none => []
  let reads (k l : Nat) : Bool := match s.oaLanes c i with
    | some a => if oa.contains k then a.getLsbD l else m.getLsbD l
    | none => m.getLsbD l
  maskOf fun l => rd.any fun k => s.upsets.contains (.rowWord c.cid k l) && !(c.reg k).compact && reads k l

/-- The detail of a shared value that an instruction would read and that holds an uncorrectable error: the compact entry of a U or A
register, or the A-operand latch (R236, R302). -/
def State.badShared (s : State) (c : Cohort) (i : Instr) : Option (BitVec 96) :=
  if (regTraffic i c).1.any fun k => s.upsets.contains (.compact c.cid k) && (c.reg k).compact then some (hwDetail (0xE000 + 1) 3 c.core)
  else match i with
  | .mma f =>
    if s.upsets.contains (.latch c.core) && c.latched f then some (hwDetail (0xE000 + 4) 3 c.core)
    else none
  | _ => none

/-- A register that has been written holds no error any more. -/
def State.rewritten (s : State) (i : Instr) (c : Cohort) : State :=
  let wr := (regTraffic i c).2
  { s with upsets := s.upsets.filter fun u => match u with
    | .compact k r => k != c.cid || !wr.contains r
    | .rowWord k r l => k != c.cid || !wr.contains r || !(instrMask i c).getLsbD l
    | _ => true }

/-- What an instruction's outcome becomes when its path fails: an operation whose replay mismatches too writes nothing (R294), and an
error of the scalar path raises group 13 (R236). A replay that checks correctly is counted (R293, R299). An instruction that waits, or
that has raised a cause, used no path. -/
def State.pathChecked (s : State) (i : Instr) (c : Cohort) (t : State) : State :=
  if t.retries c.cid || t.faulted c then t
  else
    let scalar := scalarPath i c ((t.cohort? c.cid).getD c)
    let unit := c.pathUnit scalar
    let checked := i.parts.any fun p => checkedOp p.1 p.2
    if checked && s.upsets.contains (.replay unit) then
      ((s.setCohort { c with lastS := c.issuer, wait := .none }).replayFails unit c.core c.ctx c.cid c.here.pc false)
    else if scalar && s.upsets.contains (.scalar c.slotKey) then s.raise c 13 (hwDetail c.slotKey 3 0) (c.plainRecs 0 13 3)
    else (if checked then t.replayed unit (dieOf c.core) else t).rewritten i c

/-- Lanes die before an instruction runs, and none of its slot is left: the instruction is not run, and in an Indigo pair it counts as
run, with the value that its twin forwards (R236, R296). -/
def State.skipDead (s : State) (c : Cohort) : State :=
  match c.twin.bind s.cohort? with
  | some t =>
    let d : Cohort := { c with steps := t.steps, fwdCount := t.fwdCount, fwd := c.fwd.filter fun (v : Forwarded) => t.fwdCount ≤ v.at_ }
    s.settleCohort (if c.steps < t.steps then d else c)
  | none => s.settleCohort c

/-- A decoded instruction runs: handler mode's refusals come first (R323); then its spilled sources are refilled (R58); lanes whose
words are bad die, and do not take part (R236); and its meaning follows. -/
def State.run (s : State) (c : Cohort) (i : Instr) : Out :=
  if c.hmode && refusedInHandler i then .next (s.raiseReason c 12 7)
  else
    let s1 := s.collect i c
    let c1 := (s1.cohort? c.cid).getD c
    if s1.upsets = [] ∧ c1.dying = 0 then onNext (s1.meaning c1 i) (State.afterIssue i c1)
    else match s1.badShared c1 i with
    | some d => .next (s1.raise c1 13 d (c1.plainRecs 0 13 3))
    | none =>
      let fresh := s1.badLanes c1 i
      let bad := (fresh ||| c1.dying) &&& ~~~c1.dead
      let c2 := { c1.kill bad c1.here.pc with dying := 0 }
      let s2 := (if bad = 0 then s1.setCohort c2 else (s1.setCohort c2).noteDead c1).killTwin c1 fresh
      if (c2.slot c1.issuer).isNone then .next (s2.skipDead c2).podTryAll
      else onNext (s2.meaning c2 i) fun t => State.afterIssue i c2 (s2.pathChecked i c2 t)

/-- A merge is complete before the cohort issues again: the stores of its sides that still wait in the combining buffer are
performed (R38). -/
def State.endMerge (s : State) (c : Cohort) : State :=
  if c.merged then (s.release c.core).setCohort { c with merged := false } else s

/-- Whether the stores of a merge's sides are still to be performed: an Indigo cohort's held beats, and lines that an atomic of another cohort
holds up (R38, R132, R142). -/
def State.mergeWaits (s : State) (c : Cohort) : Bool :=
  c.merged && (s.wcTaken c.core || c.role != .single && !c.hmode && c.windows != [])

/-- A cohort's turn: fetch, decode, run (R118, R322). `s.cur` is the cohort. -/
def State.issue (s : State) (c : Cohort) (x : Ctx) : Out :=
  if s.mergeWaits c then .next (s.setCohort { c with windows := closeWindows c.windows, wait := .retry, busy := [], ends := false })
  else
  let s := s.endMerge c
  let c := { c with merged := false }
  let va := codeAddr (c.codeBase x) c.here.pc
  match s.fetchWord c.core x va with
  | (.fault g r, s1) => .next (s1.raiseFetch c va g r)
  | (.nonres, s1) => .next (s1.raiseFetch c va 5 0)
  | (.poisoned a, s1) => .next (s1.raise c 13 (hwDetail (s.unitOfKey a).1 2 (s.unitOfKey a).2) (c.plainRecs 0 13 2))
  | (.data a, s1) => .next (s1.raise c 13 (hwDetail (s.unitOfKey a).1 5 (s.unitOfKey a).2) (c.plainRecs 0 13 5))
  | (.word w, s1) =>
    match decodeFor c.nreg w with
    | .error b => .next (s1.raise c b.group (badDetail w b) (c.plainRecs 0 b.group b.reason))
    | .ok i => s1.run c i

/-- Whether a cohort is ready in the sense of R41: it may issue, and an instruction that waited for a condition finds it true. -/
def State.ready (s : State) (c : Cohort) : Bool :=
  s.mayIssue c && (c.wait == .none ||
    (match s.ctx? c.ctx with
     | none => false
     | some x => match State.issue { s with cur := some c.cid } c x with
       | .next t => !t.retries c.cid
       | _ => true))

end Sys2Proof.Machine
end

