-- ==== Sys2Proof/Machine/Time.lean ====
section
/-!
DEFINITION. Machine/Time.lean: which turn comes next, the time that passes before it (R17, R41, R42), and the state that holds
a program for the host's questions (log entries 1 and 4).
-/

namespace Sys2Proof.Machine

/-! ### Turns of one cycle -/

/-- The instruction that a cohort would issue now. -/
def State.peek (s : State) (c : Cohort) : Option Instr :=
  match s.ctx? c.ctx with
  | none => none
  | some x =>
    match s.fetchWord c.core x (codeAddr (c.codeBase x) c.here.pc) with
    | (.word w, _) => (decodeFor c.nreg w).toOption
    | _ => none

/-- The place of a turn among those of its cycle: a BTAKE counts as waiting when a BPASS of its cycle hands the baton on (R153); a join
unit applies appends and rewards, then time-outs, then releases, then LQTAKE and LQDONE (R281); a wait that is satisfied in the cycle
of a stop or save completes first (R334). -/
def State.turnClass (s : State) (w : TurnWhat) : Nat :=
  match w with
  | .event (.orphanTimeout _) | .event (.joinTimeout _ _) => 2
  | .event (.episodeRelease _) => 3
  | .event (.cohortStop _) | .event (.engineStop _) | .event (.preemptionSave _) => 5
  | .event _ => 1
  | .issue k =>
    match (s.cohort? k).bind s.peek with
    | some (.btake _) => 0
    | some (.lqtake _) | some (.lqtakeSplit _) | some (.lqtakeTry _) | some (.lqdone _) => 4
    | _ => 1

/-- Which of two cohorts that issue in one cycle goes first, where the manual says it: BTAKEs of a core by rank (R153, R358); of a die's
LQTAKEs those that wait before any `.try`, and then by core (R286, R409); and the commands of a workgroup by $CHID (R139). -/
def State.issuesFirst (s : State) (cls : Nat) (a b : Cohort) : Bool :=
  let tries (c : Cohort) : Bool := match s.peek c with
    | some (.lqtakeTry _) => true
    | _ => false
  if cls = 0 then a.core == b.core && a.ranksAbove b
  else if cls = 4 then dieOf a.core == dieOf b.core && (if tries a ≠ tries b then tries b else a.core < b.core)
  else a.wg == b.wg && a.chid.toNat < b.chid.toNat

/-- The index of the turn that goes next: of the turns of the first one's cycle, the first of the least class, and ahead of it a cohort that
R139, R153, R286 or R409 puts first. -/
def State.pickIndex (s : State) (ts : List Turn) : Nat :=
  match ts with
  | [] => 0
  | [_] => 0
  | t :: ts =>
    let group := t :: ts.takeWhile (·.dt == 0)
    if group.length = 1 then 0
    else
      let keyed := group.mapIdx fun i u => (i, s.turnClass u.what, (match u.what with
        | .issue k => s.cohort? k
        | .event _ => none))
      match bestBy (fun (a b : Nat × Nat × Option Cohort) => a.2.1 < b.2.1 || (a.2.1 == b.2.1 && a.1 < b.1)) keyed with
      | none => 0
      | some p =>
        (keyed.foldl (fun (best : Nat × Nat × Option Cohort) q =>
          match q.2.2, best.2.2 with
          | some a, some b => if q.2.1 == best.2.1 && s.issuesFirst q.2.1 a b then q else best
          | _, _ => best) p).1

/-- The turns without the one at an index of their first cycle; the turns left of that cycle follow without delay. -/
def dropTurn (i : Nat) (ts : List Turn) : List Turn :=
  match i, ts with
  | _, [] => []
  | 0, _ :: rest => rest
  | i + 1, t :: rest => { t with dt := 0 } :: rest.eraseIdx i

/-! ### The next turn -/

/-- The mailbox command that waits in a carrier's CMD (R309). -/
def Mailbox.command (b : Mailbox) (i3c : Bool) : List Instr :=
  let m : MailCmd := { i3c := i3c, tag := b.cmd.extractLsb' 32 16, payload := [] }
  if b.cmd.getLsbD 63 = false then []
  else match (b.cmd.setWidth 8).toNat with
    | 1 => [.status m] | 2 => [.regctx m] | 3 => [.regq m] | 4 => [.regmem m] | 5 => [.regjoin m] | 6 => [.regspare m]
    | 7 => [.resume m] | 8 => [.destroy m] | 9 => [.halt m] | 10 => [.ochrerd m] | 11 => [.unfence m] | 12 => [.counters m]
    | _ => []

/-- The ways of a set whose count of corrected errors has reached 4, and that are not disabled yet (R301). -/
def wornWays (x : L2Set) : List Instr :=
  ((List.range 16).filter fun w => 4 ≤ x.counts.getD w 0 && !x.disabled.getLsbD w).map fun w => .wayDisable x.die x.slice x.set w

/-- The units on which Ochre tests run (R298). -/
def testUnits : List Nat :=
  [(0, 6144), (1, 6144), (2, 1536), (3, 1536), (4, 1536), (6, 192)].flatMap fun p => (List.range p.2).map (8192 * p.1 + ·)

/-- The Ochre tests that the front ends may begin, of every unit once 2^20 cycles have passed, those that work abandons, and the fences of
units that replayed too often (R294, R298). -/
def State.dueTests (s : State) : List Instr :=
  (if s.cycles.any (2 ^ 20 ≤ ·) then testUnits.map fun u => .ochreTest (BitVec.ofNat 16 u) else []) ++
  (s.units.filter fun u => u.testing.isSome && !s.unitIdle u.unit).map (fun u => .ochreTestComplete u.unit false true) ++
  (s.units.filter fun u => u.recent.length = 16).map fun u => .replayRateFence u.unit

/-- The telemetry report that is due, with the values that the sensors give (R311; log entry 92). -/
def State.dueTelemetry (s : State) : List Instr :=
  let v (k : Nat) : Nat := Config.telemetry (s.cycle 0) k
  if s.reports < s.cycle 0 / 2 ^ 20 then [.telemetryReport (v 0) (v 1) (v 2) (v 3)] else []

/-- The events that the state itself may bring about, without anything from outside: stops, firmware, packets, placement, engines,
pages, the fabric's and the join units' time-outs, heartbeats, and the comparison of windows. An event whose conditions do not hold
has no effect. -/
def State.inner (s : State) : List Instr :=
  let cohort (c : Cohort) : List Instr := [.cohortStop c.cid, .yieldExpiry c.cid, .podBarrierResend c.cid, .indigoWindowCompare c.cid]
  let ctx (x : Ctx) : List Instr := [.engineStop x.ctxid, .stopAreaWrite x.ctxid] ++ x.pinned.map fun p => .pagePinExpiry x.ctxid p.1
  let packet (p : PacketEntry) : List Instr :=
    [.launch p.queue p.seq, .bundle p.queue p.seq, .inval p.queue p.seq, .packetComplete p.queue p.seq]
  let place (d : Nat) : List Instr := [.workgroupPlacement d, .reservation d, .continuationResume d]
  let core (k : CoreState) : List Instr :=
    [.bankGrant k.core, .matrixStep k.core, .combiningFlush k.core] ++ (List.range 32).map fun b => .bankReturn k.core b
  let job (j : Job) : List Instr := [.lineLands j.id, .jobComplete j.id, .jobResume j.id] ++ if j.windows = [] then [] else [.indigoWindowCompare j.cid]
  let unit (u : JoinUnit) : List Instr :=
    [.rewardHoldTimeout u.die, .orphanTimeout u.die, .episodeRelease u.die] ++ u.entries.map fun e => .joinTimeout u.die e.idx
  let watch (k : Nat) : List Instr := [.heartbeatSend k, .heartbeatMiss k]
  let parts : List (List Instr) := [
    s.cohorts.flatMap cohort, s.ctxs.flatMap ctx, (s.dies.filter fun d => d.events != []).map (fun d => .firmwareEvent d.die),
    (s.mailOf false).command false, (s.mailOf true).command true, s.queues.map (fun q => .packetAccept q.num), s.packets.flatMap packet,
    s.progs.map (fun g => .collProgramStep g.id [] false),
    if s.launches = [] ∧ s.saved = [] ∧ s.parked = [] then [] else (List.range 16).flatMap place,
    s.wgs.flatMap (fun w => [.preemptionSave w.id, .preemptionTimeout w.id]), s.saved.map (fun v => .workgroupRestore v.id),
    s.landings.map (fun g => .rwrLanding g.sender), s.cores.flatMap core, s.jobs.flatMap job,
    s.pageReqs.map (fun r => .pageMakeResident r.ctx r.va),
    s.colls.flatMap (fun k => [.collectiveStart k.id, .collectiveComplete k.id [] false]), s.serves.map (fun p => .pullLineRead p.id),
    s.pulls.map (fun p => .pullReissue p.txid), s.ports.map (fun p => .heldPacketTimeout p.num),
    (List.range s.watches.length).flatMap watch, if s.leader.isSome then [.proposalRetry] else [],
    s.rewardTx.map (fun r => .rewardUnacknowledged r.txid), s.joins.flatMap unit,
    s.dueTests, s.dueTelemetry, if s.shutdown then [.overTemperatureShutdown 0 0] else [], s.l2sets.flatMap wornWays, s.later]
  parts.flatten

/-- Whether an event would change the machine. -/
def State.moves (s : State) (e : Instr) : Bool :=
  match exec e s with
  | .next t => t != s
  | _ => false

/-- The machine with every die's counter advanced. -/
def State.after (s : State) (dt : Nat) : State := { s with cycles := s.cycles.map (· + dt) }

/-- The turns of a cycle that the machine brings about itself, where nothing is prescribed (log entry 4): the events that are due in the
cycle that ends, and the waits that a stop of that cycle may find satisfied (R334); then, a cycle later, the cohort that each slot selects
(R41 to R43), and those whose instruction waits and is tried again. -/
def State.round (s : State) : List Turn :=
  let next := s.after 1
  let issue (c : Cohort) : Turn := { dt := 0, what := .issue c.cid }
  let events := if s.powered then (s.inner.filter s.moves).map fun e => ({ dt := 0, what := .event e } : Turn) else []
  let stopping := (s.cohorts.filter fun c => c.wait == .retry && s.stillIssues c && !s.mayIssue c).map issue
  let ready := next.cohorts.filter next.ready
  let chosen := ready.filter fun c => (bestBy next.selects (ready.filter (·.slotKey == c.slotKey))).any (·.cid == c.cid)
  let waiting := next.cohorts.filter fun c => c.wait == .retry && next.mayIssue c && !ready.any (·.cid == c.cid)
  events ++ stopping ++ (match (chosen ++ waiting).map issue with
    | [] => [{ dt := 1, what := .issue s.fresh }]
    | t :: ts => { t with dt := 1 } :: ts)

/-- What a join unit does by itself at a cycle of its own: an orphan's or an entry's time-out, or a release that is eligible, with the cycles
until then (R279, R280, R283). -/
def JoinUnit.alarms (u : JoinUnit) (now : Nat) : List (Nat × Instr) :=
  u.orphans.map (fun o => (o.at_ + u.orphto * 1024 - now, .orphanTimeout u.die)) ++
  (u.entries.filter fun e => e.live && u.jointo != 0).map (fun e => (e.opened + u.jointo * 1024 - now, .joinTimeout u.die e.idx)) ++
  (if u.nextRelease.isSome then [(0, .episodeRelease u.die)] else [])

/-- The first of those of all join units that would have an effect; of one cycle's, a time-out before a release (R281). -/
def State.alarm (s : State) : Option (Nat × Instr) :=
  bestBy (fun (a b : Nat × Instr) => a.1 < b.1 || (a.1 == b.1 && s.turnClass (.event a.2) < s.turnClass (.event b.2)))
    ((s.joins.flatMap fun u => u.alarms (s.cycle u.die)).filter fun a => (s.after a.1).moves a.2)

/-- The next turn, and the turns that are left: the agenda's, or where it is empty those of a round; a join unit's time-out or release comes
in its own cycle, ahead of the turns that R281 puts after it (log entry 4). -/
def State.plan (s : State) : Turn × List Turn :=
  match (match s.agenda with
    | [] => s.round
    | t :: ts => t :: ts) with
  | [] => ({ dt := 1, what := .issue s.fresh }, [])
  | t :: ts =>
    let i := s.pickIndex (t :: ts)
    let base : Turn := { ((t :: ts)[i]?).getD t with dt := t.dt }
    match s.alarm with
    | some (d, e) =>
      if s.powered ∧ (d < t.dt ∨ (d = t.dt ∧ s.turnClass (.event e) < s.turnClass base.what)) then
        ({ dt := d, what := .event e }, { t with dt := t.dt - d } :: ts)
      else (base, dropTurn i (t :: ts))
    | none => (base, dropTurn i (t :: ts))

/-- The next turn. -/
def State.nextTurn (s : State) : Turn := s.plan.1

/-- The bytes under one code word: 8 in tile memory and the vaults, 32 in HBM, host memory and L2 (R300, R302). -/
def codeWord (key : Nat) : List Nat :=
  let n := if 2 ^ 52 ≤ key ∨ (vaultBase ≤ key ∧ key < vaultBase + 2 ^ 36) then 8 else 32
  (List.range n).map fun i => key / n * n + i

/-- An error found by parity in an L1 line, a TLB, a walk cache or an instruction buffer: the entry is dropped, and fetched again when it is
used (R105, R302). Uncorrectable data are poisoned (R300), and an error that a code corrects is counted against its L2 set and way, up to 4
(R301), or counted for its structure (R302). Any other error stays until an access meets it. -/
def State.strike (s : State) (u : Upset) : State :=
  match u with
  | .l1Line core line => s.l1Drop core line
  | .tlbEntry core va =>
    let k := s.core core
    s.setCore { k with tlb := k.tlb.filter fun e => !(e.va ≤ va && va < e.va + e.size) }
  | .ibufWord core va =>
    let k := s.core core
    s.setCore { k with ibuf := k.ibuf.filter fun e => e.va != va }
  | .quadEntry quad va =>
    let q := s.quad quad
    s.setQuad { q with tlb := q.tlb.filter (fun e => !(e.va ≤ va && va < e.va + e.size)),
                       walk := q.walk.filter fun e => !(e.va ≤ va && va < e.va + e.size) }
  | .data key => if inRegs key then s else { s with poison := s.poison ++ (codeWord key).filter fun a => !s.poison.contains a }
  | .corrected die slice set way =>
    let x := s.l2Set die slice set
    s.setL2Set { x with counts := x.counts.set way (min 4 (x.counts.getD way 0 + 1)) }
  | .dieEntry die va =>
    let d := s.die die
    s.setDie { d with walk := d.walk.filter fun e => !(e.va ≤ va && va < e.va + e.size) }
  | .fixed c =>
    let n := ((s.fixes.find? fun p => p.1 == c).map (·.2)).getD 0
    { s with fixes := (c, n + 1) :: s.fixes.filter fun p => p.1 != c }
  | u => { s with upsets := s.upsets ++ [u] }

/-- The units that are at work (R298): the paths of a slot with cohorts, engines with commands, and firmware cores that run. -/
def State.atWork (s : State) : List Nat :=
  let paths (c : Cohort) : List Nat := [c.slotKey, 8192 + c.slotKey]
  let matrix := (s.cores.filter fun (k : CoreState) => k.mmaQ != []).map fun (k : CoreState) => 2 * 8192 + k.core
  let engine (j : Job) : Option Nat := if j.kind.engine = 3 then some (3 * 8192 + j.core) else if j.kind.engine = 2 then some (4 * 8192 + j.core) else none
  let firmware (d : DieState) : List Nat := d.fw.map fun c => 6 * 8192 + 12 * d.die + c.core
  (s.cohorts.flatMap paths ++ matrix ++ s.jobs.filterMap engine ++ s.dies.flatMap firmware).eraseDups

/-- When each unit was last at work, as time stands (R298). -/
def State.noteWork (s : State) : State :=
  { s with worked := s.atWork.foldl (fun ws u => upsertBy Prod.fst (u, s.cycle (unitDie (BitVec.ofNat 16 u))) ws) s.worked }

/-- The takers of every die's learner queue are served once the releases of the cycle are done: before an LQTAKE, before a stop, and before
time passes (R281, R334). -/
def State.serveTakers (s : State) (t : Turn) : State :=
  if s.joins = [] then s
  else if t.dt ≠ 0 ∨ 4 ≤ s.turnClass t.what then s.joins.foldl (fun u j => u.deliver j.die) s else s

/-- Each cohort that is ready in the cycles that pass is starved by them; one that issues starts again (R42). -/
def State.starved (s : State) (dt : Nat) : State :=
  if dt = 0 then s else { s with cohorts := s.cohorts.map fun c => if s.ready c then { c with starve := c.starve + dt } else c }

/-- What the turn before has left is seen to: descriptors go to their takers, split handles whose counters have reached their values complete
(R375), and what the front end wrote outside a handler of its own is committed (R222). Then time passes on every die, the agenda moves on, and errors occur. DESIGN CHOICE: the dies share no time base (R17, R18); in
the model all 16 counters start at 0 and advance by the same number in a turn (log entry 4). -/
def State.beginTurn (s : State) (t : Turn) : State :=
  let u := ((s.serveTakers t).pollCounters).fwCommit 0 noEvent
  let r : State := { u.after t.dt with
    agenda := s.plan.2,
    later := match t.what with
      | .event e => u.later.erase e
      | .issue _ => u.later,
    cur := none }
  t.upsets.foldl State.strike (r.starved t.dt).noteWork

/-- Events that come about without the power stages: those of the I3C target, and a reset (R312). -/
def withoutPower : Instr → Bool
  | .moduleReset _ | .telemetryReport _ _ _ _ => true
  | .status m | .regctx m | .regq m | .regmem m | .regjoin m | .regspare m | .resume m | .destroy m | .halt m | .ochrerd m | .unfence m
  | .counters m => m.i3c
  | _ => false

/-- A turn: a cohort issues if it may, or an event happens. -/
def State.turn (s : State) (w : TurnWhat) : Out :=
  match w with
  | .event e => if s.powered || withoutPower e then exec e s else .next s
  | .issue k =>
    match s.cohort? k with
    | none => .next s
    | some c =>
      match s.ctx? c.ctx with
      | none => .next s
      | some x => if s.powered && (s.mayIssue c || s.stillIssues c) then State.issue { s with cur := some k } c x else .next s

/-! ### The state for a program (log entry 1) -/

/-- The context of the placed program: one 8 MiB page at virtual 0, mapped onto physical 0, with every permission; the tile
window at 2^40 and the vault window at 2^41. -/
def progCtx : Ctx :=
  { ctxid := 1, ctxva := 0x40, root := 0x2000, twe := true, tw := 2 ^ 40, vwe := true, vw := 2 ^ 41, rpool := 0, rpoolLen := 0,
    trap := some { tslice := 0, hmask := 0, hentry := 0, hcode := 0, savea := 0, savelen := 0, stopa := 0, stoplen := 0 },
    halt := false, haltAt := [], enginesStopped := false, stopWritten := false, stopRecs := [], inHandler := false, double := false,
    stopNum := 0, firstCause := 0, firstCore := 0, firstPc := 0, saves := [], resident := [], pinned := [],
    noResume := false }

/-- The kernel of the placed program. -/
def progKernel : Kernel :=
  { kdesc := 0x8000, code := 0x10000, entry := 0, cohort := 64, wgsize := 1, regs := 256, rows := 0, tmem := 8192, prio := 0,
    comm := some 0, qg := false, task := false, indigo := false }

/-- The launch of the placed program. -/
def progLaunch : Launch :=
  { id := 0, queue := 0, seq := 0, ctx := 1, kern := progKernel, args := 0, nwg := 1, prio := 0, spill := 0x100000, signal := 0,
    ranges := [], shares := [], exited := 0, started := true, successor := false, pred := none, spawner := none, degraded := false, complete := false }

/-- The workgroup of the placed program: tile block 0 of core 0. -/
def progWg : Wg :=
  { id := 0, launch := 0, wgid := 0, core := 0, block := 0, blocks := 1, live := 1, placedAt := 0, gone := [], preempt := none, spared := [],
    role := .single, twin := none }

/-- The cohort of the placed program. -/
def progCohort : Cohort := Cohort.launched 0 0 0 0 0 64 256 0 1 0 0 1 0x100000 0x10000 0 0 0 0 0

/-- A program of one word placed for the next turn: page tables, code, context, launch, workgroup and cohort. -/
def State.placeProgram (s : State) (code : List Byte) : State :=
  let m := memPut (memPut (memPut s.mem 0x2000 8 0x4001) 0x4000 8 0x6001) 0x6000 8 0x1F
  { s with mem := memWrite m 0x10000 code, released := true, powered := true, ctxs := [progCtx], launches := [progLaunch], wgs := [progWg],
           cohorts := [progCohort], agenda := [{ dt := 0, what := .issue 0 }], fresh := 1 }

end Sys2Proof.Machine
end

