-- ==== Sys2Proof/Machine/Step.lean ====
section
/-!
DEFINITION. Machine/Step.lean: one step of the machine, and a state that is about to run a given instruction.
-/

namespace Sys2Proof.Machine

/-- One step: the next turn is taken from the agenda, or chosen when the agenda is empty, time passes, and it moves. -/
def step (s : State) : Host.Outcome State Fault Refusal :=
  let t := s.nextTurn
  (s.beginTurn t).turn t.what

/-- The machine about to run the instruction with these bits: a cohort of 64 lanes and 256 registers is resident in a
registered context whose page table maps its code, and the next turn is its issue (log entry 1). -/
def State.withFetchWord (s : State) (_nbits w : Nat) : State := s.placeProgram (leBytes 20 w)

end Sys2Proof.Machine
end

