-- ==== Sys2Proof/Safety.lean ====
section
/-!
DEFINITION. Safety.lean: the terms in which statements speak of the machine: what an instruction's write does to a cohort, lane
by lane, which values the lane instructions deliver, which bytes of memory an access touches, and the invariants.
-/

namespace Sys2Proof

/-- An instruction word of its five parcels, W0 lowest (R313). -/
def wordOf (w0 w1 w2 w3 w4 : Word) : IWord := w4 ++ w3 ++ w2 ++ w1 ++ w0

/-- The fields of an unguarded word with no operand and every control zero (R314). -/
def Fields.bare : Fields :=
  { sub := 0, typ := .u32, rnd := .rne, sat := false, ga := ⟨false, 7⟩, gb := ⟨false, 7⟩, gc := false, od := .none, oa := .none, ob := .none,
    oc := .none, oe := .none, hint := 0, la := 0, ru := false, yl := false, scp := .wg, ord := .relaxed, imm := 0 }

end Sys2Proof

namespace Sys2Proof.Machine

/-! ### What a write does to a cohort -/

/-- The value of an operand in a lane (R55, R316). -/
def State.opnd (s : State) (c : Cohort) (f : Fields) (o : Opnd) (l : Nat) : Word := (s.src c f o).lane l

/-- The 64-bit value of an operand in a lane (R316). -/
def Cohort.opnd64 (c : Cohort) (f : Fields) (o : Opnd) (l : Nat) : DWord := lane64 (c.src64 f o) l

/-- Only registers, and the A-operand latch that a register write drops (R145), differ between two cohorts. -/
def Cohort.onlyRegs (c d : Cohort) : Prop := d = { c with regs := d.regs, latch := d.latch } ∧ (d.latch = c.latch ∨ d.latch = none)

/-- Register `k` of `d` is that of `c` written under the mask `m` with a value per lane (R60, R61): every lane of the mask has its
value, every other lane that is not dead keeps its word. Lanes are those below the cohort's width. -/
def regWritten (c d : Cohort) (m : Mask) (k : Nat) (val : Nat → Word) : Prop :=
  (∀ l, l < c.width → m.getLsbD l = true → (d.reg k).lane l = val l) ∧
  (∀ l, l < c.width → l < 64 → m.getLsbD l = false → c.dead.getLsbD l = false → (d.reg k).lane l = (c.reg k).lane l)

/-- One register is written and nothing else of the cohort (R60, R145). -/
def vecWrite (c d : Cohort) (m : Mask) (k : Nat) (val : Nat → Word) : Prop :=
  c.onlyRegs d ∧ regWritten c d m k val ∧ ∀ n, n ≠ k → d.reg n = c.reg n

/-- A register pair is written and nothing else of the cohort (R49, R60). -/
def pairWrite (c d : Cohort) (m : Mask) (k : Nat) (val : Nat → DWord) : Prop :=
  c.onlyRegs d ∧ regWritten c d m k (fun l => DWord.lo (val l)) ∧ regWritten c d m (k + 1) (fun l => DWord.hi (val l)) ∧
  ∀ n, n ≠ k → n ≠ k + 1 → d.reg n = c.reg n

/-- The shape that a rule of R60 gives a full write: its tag, and for A the base and the stride (R55). -/
inductive Shape where
  | u
  | a (base stride : Word)
  | g
deriving DecidableEq, Repr

/-- A register has a shape. -/
def VReg.meets (r : VReg) : Shape → Prop
  | .u => ∃ x, r = .u x
  | .a b t => r = .a b t
  | .g => ∃ ws, r = .g ws

/-- The shape of a register. -/
def VReg.shape : VReg → Shape
  | .u _ => .u
  | .a b t => .a b t
  | .g _ => .g

/-- An affine result is U where its stride is 0 (R55). -/
def lineShape (p : Word × Word) : Shape := if p.2 = 0 then .u else .a p.1 p.2

/-- Rule 12 of R60, else rule 13: U when every source is U. -/
def uniformShape (srcs : List VReg) : Shape := if srcs.all VReg.isU then .u else .g

/-- A write mask is full when it holds every lane of the cohort that is not dead (R60). -/
def Cohort.fullMask (c : Cohort) (m : Mask) : Prop := ∀ l, l < c.width → l < 64 → c.dead.getLsbD l = false → m.getLsbD l = true

/-- The tag of a register that has been written under a mask: that of the rule when the write is full, else G; an empty write leaves it
as it was (R60, R61). -/
def tagWritten (c d : Cohort) (m : Mask) (k : Nat) (sh : Shape) : Prop :=
  (m = 0 → d.reg k = c.reg k) ∧ (m ≠ 0 → c.fullMask m → (d.reg k).meets sh) ∧ (m ≠ 0 → ¬ c.fullMask m → (d.reg k).meets .g)

/-- One predicate is written under a mask and nothing else of the cohort; a write of p7 is discarded (R50). -/
def predWrite (c d : Cohort) (m : Mask) (i : BitVec 3) (bit : Nat → Bool) : Prop :=
  d = { c with preds := d.preds } ∧
  (i = 7 → d = c) ∧
  (i ≠ 7 → ∀ l, l < 64 → (d.pred i).getLsbD l = if m.getLsbD l then bit l else (c.pred i).getLsbD l) ∧
  ∀ k, k ≠ i → d.pred k = c.pred k

/-- The sticky flags of the lanes of a mask are ORed into $VSTAT, whose other bits stay (R54, R81). -/
def flagsWritten (c d : Cohort) (m : Mask) (fl : Nat → BitVec 6) : Prop :=
  (∀ b, b < 6 → d.vstat.getLsbD b = (c.vstat.getLsbD b || (laneList m).any fun l => (fl l).getLsbD b)) ∧
  (∀ b, 6 ≤ b → d.vstat.getLsbD b = c.vstat.getLsbD b)

/-- No lane of a mask raises a flag whose trap enable is set in $VSTAT (R54): flag `b` has its enable in bit `b + 7`. -/
def untrapped (c : Cohort) (m : Mask) (fl : Nat → BitVec 6) : Prop :=
  ∀ l b, l ∈ laneList m → 1 ≤ b → b < 6 → c.vstat.getLsbD (b + 7) = true → (fl l).getLsbD b = false

/-! ### What the lane instructions deliver -/

/-- The value per lane of the instructions that write one register and no flag. -/
def plainResult : Instr → Option (Fields × (State → Cohort → Nat → Word))
  | .and f => some (f, fun s c l => s.opnd c f f.oa l &&& s.opnd c f f.ob l)
  | .andn f => some (f, fun s c l => s.opnd c f f.oa l &&& ~~~s.opnd c f f.ob l)
  | .or f => some (f, fun s c l => s.opnd c f f.oa l ||| s.opnd c f f.ob l)
  | .xor f => some (f, fun s c l => s.opnd c f f.oa l ^^^ s.opnd c f f.ob l)
  | .not f => some (f, fun s c l => ~~~s.opnd c f f.oa l)
  | .popc f => some (f, fun s c l => BitVec.ofNat 32 (popCount (s.opnd c f f.oa l)))
  | .clz f => some (f, fun s c l => BitVec.ofNat 32 (leadingZeros (s.opnd c f f.oa l)))
  | .brev f => some (f, fun s c l => bitReverse (s.opnd c f f.oa l))
  | .bfi f => some (f, fun s c l => bitInsert (s.opnd c f f.oa l) (s.opnd c f f.ob l) (s.opnd c f f.oc l) (s.opnd c f f.oe l))
  | .bfx f => some (f, fun s c l => bitExtract (f.typ == .s32) (s.opnd c f f.oa l) (s.opnd c f f.ob l) (s.opnd c f f.oc l))
  | .shr f => if f.sub = 1 then none else some (f, fun s c l => s.opnd c f f.oa l >>> ((s.opnd c f f.ob l).toNat % 32))
  | .shra f => some (f, fun s c l => (s.opnd c f f.oa l).sshiftRight ((s.opnd c f f.ob l).toNat % 32))
  | .imulh f => some (f, fun s c l => DWord.hi (BitVec.ofInt 64 (exact32 f.typ (s.opnd c f f.oa l) * exact32 f.typ (s.opnd c f f.ob l))))
  | .iaddmin f => some (f, fun s c l => BitVec.ofInt 32
      (min (max (intMin f.typ) (min (intMax f.typ) (exact32 f.typ (s.opnd c f f.oa l) + exact32 f.typ (s.opnd c f f.ob l))))
        (exact32 f.typ (s.opnd c f f.oc l))))
  | .mov f => if f.sub = 1 then none else some (f, fun s c l => s.opnd c f f.oa l)
  | .sel f => some (f, fun s c l => if (c.predOf f.oc).getLsbD l then s.opnd c f f.oa l else s.opnd c f f.ob l)
  | .fmax f => some (f, fun s c l => packElems (elemBits f.typ) ((List.range (elemsPerWord f.typ)).map fun i =>
      fpMinMax (fmtOf f.typ) true (elemAt (elemBits f.typ) (s.opnd c f f.oa l).toNat i) (elemAt (elemBits f.typ) (s.opnd c f f.ob l).toNat i)))
  | .fmin f => some (f, fun s c l => packElems (elemBits f.typ) ((List.range (elemsPerWord f.typ)).map fun i =>
      fpMinMax (fmtOf f.typ) false (elemAt (elemBits f.typ) (s.opnd c f f.oa l).toNat i) (elemAt (elemBits f.typ) (s.opnd c f f.ob l).toNat i)))
  | .frnd f => some (f, fun s c l => packElems (elemBits f.typ) ((List.range (elemsPerWord f.typ)).map fun i =>
      fpIntegral f.typ f.rnd (elemAt (elemBits f.typ) (s.opnd c f f.oa l).toNat i)))
  | .icmp f => match f.od with
      | .p _ => none
      | _ => some (f, fun s c l => if icmpHolds f.sub (exact32 f.typ (s.opnd c f f.oa l)) (exact32 f.typ (s.opnd c f f.ob l)) then 1 else 0)
  | .fcmp f => match f.od with
      | .p _ => none
      | _ => some (f, fun s c l => if fcmpHolds f.sub (fpVal f32 (s.opnd c f f.oa l).toNat) (fpVal f32 (s.opnd c f f.ob l).toNat) then 1 else 0)
  | .vote f => match f.od with
      | .p _ => none
      | _ =>
        if f.sub = 0 then some (f, fun _ c _ => if (laneList (c.writeMask f)).any fun k => (c.predOf f.oa).getLsbD k then 1 else 0)
        else if f.sub = 1 then some (f, fun _ c _ => if (laneList (c.writeMask f)).all fun k => (c.predOf f.oa).getLsbD k then 1 else 0)
        else if f.sub = 3 then some (f, fun _ c _ => BitVec.ofNat 32 ((laneList (c.writeMask f)).countP fun k => (c.predOf f.oa).getLsbD k))
        else none
  | _ => none

/-- The value per lane of the instructions that write one predicate and no flag (R384, R398, R428). -/
def predResult : Instr → Option (Fields × (State → Cohort → Nat → Bool))
  | .icmp f => match f.od with
      | .p _ => some (f, fun s c l => icmpHolds f.sub (exact32 f.typ (s.opnd c f f.oa l)) (exact32 f.typ (s.opnd c f f.ob l)))
      | _ => none
  | .fcmp f => match f.od with
      | .p _ => some (f, fun s c l => fcmpHolds f.sub (fpVal f32 (s.opnd c f f.oa l).toNat) (fpVal f32 (s.opnd c f f.ob l).toNat))
      | _ => none
  | .plop f => some (f, fun s c l =>
      if f.sub = 0 then (c.predOf f.oa).getLsbD l && (c.predOf f.ob).getLsbD l
      else if f.sub = 1 then (c.predOf f.oa).getLsbD l || (c.predOf f.ob).getLsbD l
      else if f.sub = 2 then (c.predOf f.oa).getLsbD l != (c.predOf f.ob).getLsbD l
      else if f.sub = 3 then (c.predOf f.oa).getLsbD l && !(c.predOf f.ob).getLsbD l
      else s.opnd c f f.oa l != 0)
  | .vote f => match f.od with
      | .p _ =>
        if f.sub = 0 then some (f, fun _ c _ => (laneList (c.writeMask f)).any fun k => (c.predOf f.oa).getLsbD k)
        else if f.sub = 1 then some (f, fun _ c _ => (laneList (c.writeMask f)).all fun k => (c.predOf f.oa).getLsbD k)
        else none
      | _ => none
  | _ => none

/-- The 64-bit value per lane of the instructions that write a register pair and no flag (R416, R444, R453). -/
def wideResult : Instr → Option (Fields × (State → Cohort → Nat → DWord))
  | .mov f => if f.sub = 1 then some (f, fun _ c l => c.opnd64 f f.oa l) else none
  | .shl f => if f.sub = 1 then some (f, fun s c l => c.opnd64 f f.oa l <<< ((s.opnd c f f.ob l).toNat % 64)) else none
  | .shr f => if f.sub = 1 then some (f, fun s c l => c.opnd64 f f.oa l >>> ((s.opnd c f f.ob l).toNat % 64)) else none
  | .vote f => if f.sub = 2 then some (f, fun _ c _ => c.predOf f.oa &&& c.writeMask f) else none
  | _ => none

/-- An exact integer delivered to a 32-bit element of a type: wrapped, or clamped with SAT (R72). -/
def narrowed (f : Fields) (v : Int) : Word × BitVec 6 := (BitVec.ofNat 32 (iclamp f.typ f.sat v).1, (iclamp f.typ f.sat v).2)

/-- The value and the flags per lane of the integer instructions that write one register, and of FSFN (R388 to R407, R444, R445). -/
def flaggedResult : Instr → Option (Fields × (State → Cohort → Nat → Word × BitVec 6))
  | .iadd f => if f.sub = 1 then none else some (f, fun s c l => elemwise f.typ f.sat (· + ·) (s.opnd c f f.oa l) (s.opnd c f f.ob l))
  | .isub f => if f.sub = 1 then none else some (f, fun s c l => elemwise f.typ f.sat (· - ·) (s.opnd c f f.oa l) (s.opnd c f f.ob l))
  | .imul f => some (f, fun s c l => elemwise f.typ f.sat (· * ·) (s.opnd c f f.oa l) (s.opnd c f f.ob l))
  | .imin f => some (f, fun s c l => elemwise f.typ f.sat min (s.opnd c f f.oa l) (s.opnd c f f.ob l))
  | .imax f => some (f, fun s c l => elemwise f.typ f.sat max (s.opnd c f f.oa l) (s.opnd c f f.ob l))
  | .iabs f => some (f, fun s c l => elemwise f.typ f.sat (fun x _ => (x.natAbs : Int)) (s.opnd c f f.oa l) (s.opnd c f f.oa l))
  | .imad f => if f.sub = 1 then none else some (f, fun s c l =>
      narrowed f (exact32 f.typ (s.opnd c f f.oa l) * exact32 f.typ (s.opnd c f f.ob l) + exact32 f.typ (s.opnd c f f.oc l)))
  | .lea f => if f.sub = 1 then none else some (f, fun s c l =>
      narrowed f (exact32 f.typ (s.opnd c f f.oa l) + exact32 f.typ (s.opnd c f f.ob l) * 2 ^ immNat f.oc))
  | .shl f => if f.sub = 1 then none else some (f, fun s c l =>
      narrowed f (exact32 f.typ (s.opnd c f f.oa l) * 2 ^ ((s.opnd c f f.ob l).toNat % 32)))
  | .idp2 f => some (f, fun s c l => narrowed { f with typ := .s32 } (dotExact .s16x2 (s.opnd c f f.oa l) (s.opnd c f f.ob l) + (s.opnd c f f.oc l).toInt))
  | .idp4 f => some (f, fun s c l => narrowed { f with typ := .s32 } (dotExact .s8x4 (s.opnd c f f.oa l) (s.opnd c f f.ob l) + (s.opnd c f f.oc l).toInt))
  | .shrrn f => some (f, fun s c l => shrrn f.typ f.sat (s.opnd c f f.oa l) (s.opnd c f f.ob l))
  | .fsfn f => some (f, fun s c l => fsfn f.sub (s.opnd c f f.oa l))
  | _ => none

/-- The exact integer per lane of the `.w64` integer instructions (R396, R400, R407). -/
def exactWide : Instr → Option (Fields × (State → Cohort → Nat → Int))
  | .iadd f => if f.sub = 1 then some (f, fun _ c l => exact64 f.typ (c.opnd64 f f.oa l) + exact64 f.typ (c.opnd64 f f.ob l)) else none
  | .isub f => if f.sub = 1 then some (f, fun _ c l => exact64 f.typ (c.opnd64 f f.oa l) - exact64 f.typ (c.opnd64 f f.ob l)) else none
  | .imad f => if f.sub = 1 then some (f, fun s c l =>
      exact32 f.typ (s.opnd c f f.oa l) * exact32 f.typ (s.opnd c f f.ob l) + exact64 f.typ (c.opnd64 f f.oc l)) else none
  | .lea f => if f.sub = 1 then some (f, fun s c l =>
      exact64 f.typ (c.opnd64 f f.oa l) + exact32 f.typ (s.opnd c f f.ob l) * 2 ^ immNat f.oc) else none
  | _ => none

/-- A word of floating-point elements rounded one by one from their exact values (R363, R383). -/
def fpWord (f : Fields) (u : Word) (op : Nat → FVal × BitVec 6) : Word × BitVec 6 :=
  fpElems f.typ fun i => roundElem f u i (op i)

/-- The value and the flags per lane of the rounding instructions, from the lane's draw (R83, R363, R372 to R374, R383, R454). -/
def roundedResult : Instr → Option (Fields × (State → Cohort → Word → Nat → Word × BitVec 6))
  | .fadd f => some (f, fun s c u l => fpWord f u fun i => fpAdd f.rnd (fpElem f.typ (s.opnd c f f.oa l) i) (fpElem f.typ (s.opnd c f f.ob l) i))
  | .fsub f => some (f, fun s c u l => fpWord f u fun i =>
      fpAdd f.rnd (fpElem f.typ (s.opnd c f f.oa l) i) (fpElem f.typ (s.opnd c f f.ob l) i).negate)
  | .fmul f => some (f, fun s c u l => fpWord f u fun i => fpMul (fpElem f.typ (s.opnd c f f.oa l) i) (fpElem f.typ (s.opnd c f f.ob l) i))
  | .ffma f => some (f, fun s c u l => fpWord f u fun i =>
      fpFma f.rnd [(fpElem f.typ (s.opnd c f f.oa l) i, fpElem f.typ (s.opnd c f f.ob l) i)] (fpElem f.typ (s.opnd c f f.oc l) i))
  | .xfma2 f => some (f, fun s c u l =>
      let e (o : Opnd) (i : Nat) : FVal := fpElem f.typ (s.opnd c f o l) i
      let v := fpFma f.rnd [(e f.oa 0, e f.ob 0), (e f.oa 1, e f.ob 1)] (fpVal f32 (s.opnd c f f.oc l).toNat)
      let r := roundArith f32 f.rnd u v.1
      (BitVec.ofNat 32 r.1, v.2 ||| r.2))
  | .cvt f => some (f, fun s c u l =>
      let st := Typ.ofCode f.sub
      let r := convertElem st f.typ f.rnd f.sat u (elemAt (elemBits st) (s.opnd c f f.oa l).toNat (immIndex f.ob))
      (BitVec.ofNat 32 (r.1 % 2 ^ elemBits f.typ), r.2))
  | .cvtpk f => some (f, fun s c u l =>
      let st := packSource f.typ
      let x := convertElem st f.typ f.rnd f.sat u (s.opnd c f f.oa l).toNat
      let y := convertElem st f.typ f.rnd f.sat (u.rotateRight 16) (s.opnd c f f.ob l).toNat
      (packElems (elemBits f.typ) (((elemsOf f.typ ((c.reg (opndIndex f.od)).lane l)).set (2 * f.sub.toNat) x.1).set (2 * f.sub.toNat + 1) y.1),
        x.2 ||| y.2))
  | _ => none

/-- The draw of a lane: under `.sr` the lane's step of the cohort's generator, else 0 (R83). -/
def Cohort.draw (c : Cohort) (f : Fields) (l : Nat) : Word := if f.rnd = .sr then (srDraws c.width c.srseed).1.getD l 0 else 0

/-- The generator's state after an instruction: under `.sr` it has made one step per lane of the width (R83). -/
def Cohort.seedAfter (c : Cohort) (f : Fields) : DWord := if f.rnd = .sr then (srDraws c.width c.srseed).2 else c.srseed

/-! ### The shapes of results (R60) -/

/-- The sources of an instruction that writes one register, in their shapes (R60, R374). -/
def sourceRegs (i : Instr) (s : State) (c : Cohort) : List VReg :=
  let of (f : Fields) (os : List Opnd) : List VReg := os.map (s.src c f)
  match i with
  | .not f | .popc f | .clz f | .brev f | .frnd f | .iabs f | .fsfn f | .cvt f => of f [f.oa]
  | .and f | .andn f | .or f | .xor f | .shr f | .shra f | .shl f | .imulh f | .fmax f | .fmin f | .icmp f | .fcmp f | .iadd f | .isub f
  | .imul f | .imin f | .imax f | .lea f | .shrrn f | .fadd f | .fsub f | .fmul f => of f [f.oa, f.ob]
  | .bfx f | .iaddmin f | .imad f | .idp2 f | .idp4 f | .ffma f | .xfma2 f => of f [f.oa, f.ob, f.oc]
  | .bfi f => of f [f.oa, f.ob, f.oc, f.oe]
  | .cvtpk f => c.reg (opndIndex f.od) :: of f [f.oa, f.ob]
  | _ => []

/-- Rules 5 to 7 of R60: base and stride, where the type is 32 bits wide and there is no `.sat` (R391). -/
def affineRule (i : Instr) (s : State) (c : Cohort) : Option (Word × Word) :=
  let plain (f : Fields) : Bool := (f.typ == .u32 || f.typ == .s32) && !f.sat
  let sums (f : Fields) (op : Word → Word → Word) : Option (Word × Word) :=
    match (s.src c f f.oa).line?, (s.src c f f.ob).line? with
    | some a, some b => some (op a.1 b.1, op a.2 b.2)
    | _, _ => none
  let times (a b : VReg) : Option (Word × Word) := match a, b with
    | .a x t, .u y | .u y, .a x t => some (x * y, t * y)
    | _, _ => none
  match i with
  | .iadd f => if plain f then sums f (· + ·) else none
  | .isub f => if plain f then sums f (· - ·) else none
  | .lea f => if plain f then sums f (fun x y => x + (y <<< immNat f.oc)) else none
  | .imul f => if plain f then times (s.src c f f.oa) (s.src c f f.ob) else none
  | .shl f => if plain f then (match s.src c f f.oa, s.src c f f.ob with
      | .a x t, .u n => some (x <<< (n.toNat % 32), t <<< (n.toNat % 32))
      | _, _ => none) else none
  | .imad f => if plain f then (match times (s.src c f f.oa) (s.src c f f.ob), (s.src c f f.oc).line? with
      | some p, some z => some (p.1 + z.1, p.2 + z.2)
      | _, _ => none) else none
  | _ => none

/-- The shape of a full write of one register without `.sr` (R60, rules 5 to 7 and 9 to 13, R416, R440). -/
def fullShape (i : Instr) (s : State) (c : Cohort) : Shape :=
  match i with
  | .mov f => (s.src c f f.oa).shape
  | .vote _ => .u
  | .sel f =>
    if (s.src c f f.oa).isU && (s.src c f f.ob).isU &&
      (c.predOf f.oc &&& c.writeMask f == 0 || c.predOf f.oc &&& c.writeMask f == c.writeMask f) then .u else .g
  | i => match affineRule i s c with
    | some p => lineShape p
    | none => uniformShape (sourceRegs i s c)

/-- The source halves of a 64-bit form (R60, rule 3). -/
def wideSources (i : Instr) (s : State) (c : Cohort) : List VReg :=
  let pair (f : Fields) (o : Opnd) : List VReg := [(c.src64 f o).1, (c.src64 f o).2]
  match i with
  | .mov f => pair f f.oa
  | .shl f | .shr f => pair f f.oa ++ [s.src c f f.ob]
  | .iadd f | .isub f => pair f f.oa ++ pair f f.ob
  | .imad f => [s.src c f f.oa, s.src c f f.ob] ++ pair f f.oc
  | .lea f => pair f f.oa ++ [s.src c f f.ob]
  | _ => []

/-- The tags of both halves of a pair that has been written (R60, rule 3). -/
def pairTags (c d : Cohort) (m : Mask) (k : Nat) (sh : Shape) : Prop := tagWritten c d m k sh ∧ tagWritten c d m (k + 1) sh

/-! ### The return from a handler -/

/-- An entry of the rebuilt control state joins those before it: one without lanes is dropped, one at the PC of another adds its lanes to
it (R241). -/
def joinEntry (es : List (Word × Mask)) (e : Word × Mask) : List (Word × Mask) :=
  if e.2 = 0 then es
  else if es.any (·.1 == e.1) then es.map fun x => if x.1 = e.1 then (x.1, x.2 ||| e.2) else x
  else es ++ [e]

/-- The entries that TRET resumes, in their order (R241). -/
def joinEntries (es : List (Word × Mask)) : List (Word × Mask) := es.foldl joinEntry []

/-- An entry as a slot. -/
def entrySlot (e : Word × Mask) : PcSlot := ⟨e.1, e.2⟩

/-! ### Cross-lane reads -/

/-- Whether a cross-lane instruction has a fill for the lanes that read no valid lane (R441). -/
def crossFills : Instr → Bool
  | .slide f => f.oc != .none
  | _ => false

/-- The shape of a full cross-lane write: that of a BCAST is U; of any other U when its source is U and every lane of the mask reads a valid
lane (R60, rules 9 and 10, R350, R443). -/
def crossShape (i : Instr) (s : State) (c : Cohort) (f : Fields) (src : State → Cohort → Nat → Option Nat) : Shape :=
  match i with
  | .bcast _ => .u
  | _ => if (s.src c f f.oa).isU && (laneList (c.writeMask f)).all fun l => (src s c l).any c.validLane then .u else .g

/-- The lane that a lane of a cross-lane instruction reads, if there is one to name (R350, R441, R442). -/
def crossSource : Instr → Option (Fields × (State → Cohort → Nat → Option Nat))
  | .shfl f => some (f, fun s c l => some (if f.sub = 1 then l ^^^ (s.opnd c f f.ob l).toNat else (s.opnd c f f.ob l).toNat))
  | .slide f => some (f, fun s c l =>
      let k := (s.opnd c f f.ob (elect (c.writeMask f))).toNat
      if f.sub = 1 then some (l + k) else if l < k then none else some (l - k))
  | .swzx f => some (f, fun _ _ l =>
      let g := 2 ^ ((f.imm >>> 24) &&& 3).toNat
      some (l / g * g + ((f.imm >>> (3 * (l % g))) &&& 7).toNat))
  | .bcast f => some (f, fun s c _ => some (s.opnd c f f.ob (elect (c.writeMask f))).toNat)
  | _ => none

/-- What a lane that reads no valid lane gets: SLIDE's fill where OC is named, else its old word (R441). -/
def crossFill (i : Instr) (s : State) (c : Cohort) (f : Fields) (l : Nat) : Word :=
  match i, f.oc with
  | .slide _, .none => (c.reg (opndIndex f.od)).lane l
  | .slide _, o => s.opnd c f o l
  | _, _ => (c.reg (opndIndex f.od)).lane l

/-- The words of a mask's lanes folded in ascending lane order (R434). -/
def foldWords (t : Typ) (op : Nat) : List Word → Word
  | [] => 0
  | x :: xs => xs.foldl (fun a y => (foldLane t op a y).1) x

/-- The flags of that fold, ORed (R434, R81). -/
def foldFlags (t : Typ) (op : Nat) : List Word → BitVec 6
  | [] => 0
  | x :: xs => (xs.foldl (fun (a : Word × BitVec 6) y => ((foldLane t op a.1 y).1, a.2 ||| (foldLane t op a.1 y).2)) (x, 0)).2

/-- The lanes of a mask below a lane, in ascending order. -/
def lanesBelow (m : Mask) (l : Nat) : List Nat := (laneList m).filter (· < l)

/-- The flags of the addition that a lane makes in a fold of a mask's words: none in the first lane (R434). -/
def foldStep (f : Fields) (op : Nat) (m : Mask) (val : Nat → Word) (l : Nat) : BitVec 6 :=
  match lanesBelow m l with
  | [] => 0
  | ls => (foldLane f.typ op (foldWords f.typ op (ls.map val)) (val l)).2

/-! ### Memory accesses -/

/-- The shape of a full load: U for a U address when every lane's page is of type N or in a window (R60, rules 3, 8 and 13). -/
def loadShape (c : Cohort) (f : Fields) (ps : List LanePlan) : Shape :=
  let near (p : LanePlan) : Bool := match p.out with
    | .ok _ mt _ _ | .nonres mt => mt == 0
    | _ => false
  if c.baseU f.oa && ps.all near then .u else .g

/-- The tags of what a load or an atomic with a return has written, if it names a destination (R60). -/
def accessTags (c d : Cohort) (m : Mask) (od : Opnd) (wide : Bool) (sh : Shape) : Prop :=
  od ≠ .none → tagWritten c d m (opndIndex od) sh ∧ (wide = true → tagWritten c d m (opndIndex od + 1) sh)

/-- The bytes that an access of `n` bytes with a translation covers. -/
def covers (r : Xlat) (n a : Nat) : Bool :=
  match r with
  | .ok key _ _ _ => key ≤ a && a < key + n
  | _ => false

/-- The bytes of the leaf entry that a translation went through, where the walker sets AF and DF (R114). -/
def coversLeaf (r : Xlat) (a : Nat) : Bool :=
  match r with
  | .ok _ _ (some e) _ => e.leaf == a
  | _ => false

/-- A lane of an access that goes through: its page is not resident, or it reaches naturally aligned memory outside the register space, with
no poisoned byte, through the given types only. -/
def laneReaches (s : State) (n : Nat) (types : List (BitVec 2)) (p : LanePlan) : Bool :=
  match p.out with
  | .ok key mt _ _ => !inRegs key && !s.poisoned key n && types.contains mt && key % n == 0
  | .nonres _ => true
  | _ => false

/-- Whether no access of a list touches a leaf entry that an access of the list goes through. -/
def leavesApart (n : Nat) (ps : List LanePlan) : Bool :=
  ps.all fun p => ps.all fun q => match q.out with
    | .ok _ _ (some e) _ => !covers p.out n e.leaf
    | _ => true

/-- A core's L1 holds none of the lines that lanes of a list reach. -/
def l1Apart (s : State) (core : Nat) (ps : List LanePlan) : Bool :=
  ps.all fun p => match p.out with
    | .ok key _ _ _ => ((s.core core).l1Data (key / 128)).isNone
    | _ => true

/-- Only what a lane access touches beside the bytes it is for: the A and D bits of leaf entries are in `mem`, which the statement
speaks of on its own; caches, combining buffers and translations (cores, quads), lines of L2, pins, amber views and poison. -/
def State.onlyAccess (s t : State) : Prop :=
  t = { s with mem := t.mem, poison := t.poison, cores := t.cores, quads := t.quads, l2 := t.l2, ctxs := t.ctxs, views := t.views }

/-- A store keeps no pre-image: no shard is registered, or no view is open (R263). -/
def State.plainStores (s : State) : Prop := s.memBlock = none ∨ s.views = []

/-- The bytes of a number laid over memory by the lanes of a store, one after the other (R125). -/
def storeFold (n : Nat) (val : Nat → Nat) : List LanePlan → List Host.Cell → List Host.Cell
  | [], m => m
  | p :: ps, m =>
    match p.out with
    | .ok key _ _ _ => storeFold n val ps (memPut m key n (val p.lane))
    | _ => storeFold n val ps m

/-- The read-modify-writes of the lanes of an atomic, one after the other: what each lane read, and memory after them (R125, R342).
A lane whose page is not resident reads 0 and writes nothing (R119). `new` gives the value written, or none. -/
def rmwFold (new : Nat → Word → Option Word) : List LanePlan → List Host.Cell → List (Nat × Word) × List Host.Cell
  | [], m => ([], m)
  | p :: ps, m =>
    match p.out with
    | .ok key _ _ _ =>
      let old := BitVec.ofNat 32 (memNat m key 4)
      let m1 := match new p.lane old with
        | some w => memPut m key 4 w.toNat
        | none => m
      let r := rmwFold new ps m1
      ((p.lane, old) :: r.1, r.2)
    | _ =>
      let r := rmwFold new ps m
      ((p.lane, 0) :: r.1, r.2)

/-- What an atomic writes for the value it read: SUB 7 swaps on equality (R342, R343). -/
def atomWrites (f : Fields) (cmp v : Nat → Word) (l : Nat) (old : Word) : Option Word :=
  if f.sub = 7 then (if old = cmp l then some (v l) else none) else some (atomicNew f.sub.toNat f.typ old (v l))

/-- The value that a lane of a load reads from memory `m` under its plan: 0 when its page is not resident (R119, R404). -/
def loadValue (f : Fields) (n : Nat) (m : List Host.Cell) (r : Xlat) : DWord :=
  match r with
  | .ok key _ _ _ => extended f n (memNat m key n)
  | _ => 0

/-- Whether a lane met a page with P = 0 (R119). -/
def lanePending (r : Xlat) : Bool :=
  match r with
  | .nonres _ => true
  | _ => false

/-- What a memory instruction writes to its cohort: the destination register, or a pair for `.w64`, when it names one, and the
residency predicate in the lanes of the write mask; nothing else (R119, R404). -/
def accessWrites (c d : Cohort) (f : Fields) (m : Mask) (od : Opnd) (wide : Bool) (val : Nat → DWord) (pending : Nat → Bool) : Prop :=
  d = { c with regs := d.regs, latch := d.latch, preds := d.preds } ∧ (d.latch = c.latch ∨ d.latch = none) ∧
  (od = .none → d.regs = c.regs) ∧
  (od ≠ .none → regWritten c d m (opndIndex od) (fun l => DWord.lo (val l)) ∧
    (wide = true → regWritten c d m (opndIndex od + 1) (fun l => DWord.hi (val l))) ∧
    ∀ n, n ≠ opndIndex od → (wide = true → n ≠ opndIndex od + 1) → d.reg n = c.reg n) ∧
  (∀ p, f.oe = .p p → p ≠ 7 → ∀ l, l < 64 → (d.pred p).getLsbD l = if m.getLsbD l then pending l else (c.pred p).getLsbD l) ∧
  (∀ p, (f.oe ≠ .p p ∨ p = 7) → d.pred p = c.pred p)

/-- Whether the registers and the predicate that a memory instruction names exist in a cohort. -/
def Cohort.holds (c : Cohort) (f : Fields) (od : Opnd) (wide : Bool) : Prop :=
  (od ≠ .none → opndIndex od + (if wide then 1 else 0) < c.regs.length) ∧ ∀ p, f.oe = .p p → p ≠ 7 → p.toNat < c.preds.length

/-- The access that a lane memory instruction makes: its kind and its size in bytes (R404, R446, R342, R430). -/
def accessOf : Instr → Option (Fields × Acc × Nat)
  | .ld f => some (f, .load, accSize f.sub)
  | .st f => some (f, .store, accSize f.sub)
  | .atom f => some (f, .atomic, 4)
  | .red f => some (f, .atomic, 4)
  | .pref f => some (f, .load, 1)
  | _ => none

/-- A function applied to the cores that a test selects. -/
def State.mapCores (s : State) (p : Nat → Bool) (g : CoreState → CoreState) : State :=
  { s with cores := s.cores.map fun k => if p k.core then g k else k }

/-- Whether a cohort may release at once: none of its register writes is held and its core's combining buffer is empty (R108, R248). -/
def State.canRelease (s : State) (c : Cohort) : Prop := s.holdsWrite c.cid = false ∧ (s.core c.core).wc = []

/-- An aligned object of 32 bytes at `va`, resident on a page of type N or in a window, at a key of memory that its leaf entry does not share
(R181, R339), and none of whose words stands between the halves of another cohort's atomic (R142). -/
def State.objectAt (s : State) (c : Cohort) (x : Ctx) (va : DWord) (key : Nat) : Prop :=
  va.toNat < 2 ^ 53 ∧ va.toNat % 32 = 0 ∧ s.wordTaken c.cid key 32 = false ∧
  ∃ leaf tile, s.xlat (.core c.core) c.core x .load va = .ok key 0 leaf tile ∧ ∀ e, leaf = some e → e.leaf < key ∨ key + 32 ≤ e.leaf

/-- Only bytes from `key` on, `n` of them, and the leaf entry of a translation may differ between two memories. -/
def onlyBytes (m m' : List Host.Cell) (key n : Nat) (r : Xlat) : Prop :=
  ∀ a, (a < key ∨ key + n ≤ a) → coversLeaf r a = false → memByte m' a = memByte m a

/-! ### Mailbox commands (R309) -/

/-- The front end takes up a command: its carrier is alive, no command is in progress there, no event of the mailbox's lock key comes before it,
and `t` is the machine with the command and its payload in the mailbox (R221, R305, R309, R312). -/
def State.mailOpen (s t : State) (m : MailCmd) (opc : Nat) : Prop :=
  (m.i3c = true ∨ s.cxlUp = true) ∧ (s.mailOf m.i3c).cmd.getLsbD 63 = false ∧ s.mailMay m.i3c = true ∧ s.openMail m opc = some t

/-- A command has ended: GO is clear and RESULT holds the status and the detail (R309). -/
def State.answered (t : State) (m : MailCmd) (opc status detail : Nat) : Prop :=
  (t.mailOf m.i3c).cmd = cmdWord opc m.tag &&& 0x7FFFFFFFFFFFFFFF ∧ (t.mailOf m.i3c).result = BitVec.ofNat 64 (status + detail * 2 ^ 32)

/-- Only the mailboxes, and the event queue and journal of die 0, differ; a record of the journal that is written anew has lost its errors (R222,
R302). -/
def State.onlyMail (s t : State) : Prop := t = { s with mailbox := t.mailbox, i3c := t.i3c, dies := t.dies, upsets := t.upsets }

/-- A number in the payload. -/
def State.payload (t : State) (m : MailCmd) (off n : Nat) : Nat := memNat (t.mailOf m.i3c).payload off n

/-! ### Packets of a queue (R198, R201) -/

/-- The packet in a queue's table that the 64 bytes of slot E make, as it is accepted (R201). -/
def Queue.packetOf (k : Queue) (bs : List Byte) : PacketEntry :=
  { queue := k.num, seq := k.next, words := (List.range 8).map fun i => BitVec.ofNat 64 (recWord bs i), started := false, refused := false,
    done := false, signal := (BitVec.ofNat 64 (recWord bs 5) : DWord).toNat, ctx := k.ctx, prev := k.lastSeq, copies := [],
    grids := bitsOf (BitVec.ofNat 64 (recWord bs 0) : DWord).toNat 15 8 = 1, subs := [] }

/-! ### Packets on the fabric (R190 to R192) -/

/-- A packet leaves a die through port `n` at once: the routing table leads to that port, it is up, nothing waits there, the packet's class is
not halted, and the replay buffer has room for all of its flits (R190 to R192). -/
def State.sendsAt (s : State) (die : Nat) (k : Packet) (n : Nat) : Prop :=
  (∃ r, s.routes.find? (fun r => r.1 == die && r.2.1 == k.dst) = some r ∧ s.usePort r.2.2 = some n) ∧ (s.port n).queued = [] ∧
  (s.port n).xoff.getLsbD k.body.cls = false ∧ (s.port n).replay.length + k.flits ≤ 512

/-- The flits of a packet as a port numbers them (R189, R190): the first of type 1, the others continuations. -/
def Port.flitsOf (p : Port) (k : Packet) : List TxFlit :=
  (List.range k.flits).map fun i => { seq := p.seqTx + BitVec.ofNat 16 i, ft := if i = 0 then 1 else 2, cls := k.body.cls,
                                      data := (k.bytes.drop (flitBytes * i)).take flitBytes }

/-- The messages in which a packet's flits leave a port: each reports the port's ACK and XOFF (R189 to R191). -/
def Port.leaves (p : Port) (k : Packet) : List OutMsg := (p.flitsOf k).map fun f => p.flit f.ft f.cls f.seq f.data

/-- Exactly these messages have left the package. -/
def State.sent (s t : State) (ms : List OutMsg) : Prop := t.outbox = s.outbox ++ ms

/-- Only the fabric ports and what has left them differ. -/
def State.onlyPorts (s t : State) : Prop := t = { s with ports := t.ports, outbox := t.outbox }

/-- Only ports, what has left them, and turns that process a message of this package to itself, differ. -/
def State.onlySends (s t : State) : Prop := t = { s with ports := t.ports, outbox := t.outbox, agenda := t.agenda }

/-! ### Invariants -/

/-- Memory is in its canonical form: keys strictly rising, no listed byte zero (log entry 2). -/
def State.memoryCanonical (s : State) : Prop := Memory.wf s.mem = true

end Sys2Proof.Machine
end

