-- ==== Sys2Proof/Certificates/Slice0/Obligations.lean ====
section
/-!
DEFINITION. Certificates/Slice0/Obligations.lean: the statements for the provers. Each says which rules of spec/ it formalises.
-/

open Sys2Proof Sys2Proof.Machine

/-! ### Encoding -/

/-- Every well-formed instruction that a word carries is what the decoder reads from its encoding (R314, R323): no bit is dropped. -/
def Obligations.DecodeInvertsEncode : Prop :=
  ∀ (i : Instr) (opc : BitVec 8) (f : Fields), i.parts = some (opc, f) → i.wf = true →
    ∃ w, encode i = some w ∧ decode w = .ok i

/-- Every word that the decoder accepts is the encoding of what it reads, which is well formed (R314, R323): two different words
are never one instruction. -/
def Obligations.EncodeInvertsDecode : Prop :=
  ∀ (w : IWord) (i : Instr), decode w = .ok i → encode i = some w ∧ i.wf = true

/-- Words that the manual writes out, of several families, and the instructions they are; then the manual's variants of its IADD word in a cohort
with 64 registers, and the check that refuses each: cause group, reason and operand field (R234, R314 to R325). -/
def Obligations.WordsDecode : Prop :=
  decode (wordOf 0x0B281020 0x00060005 0xE0008064 0x0000E000 0) =
    .ok (.iadd { Fields.bare with typ := .s32, sat := true, ga := ⟨false, 2⟩, gb := ⟨true, 3⟩, od := .v 5, oa := .v 6, ob := .imm 100 }) ∧
  decode (wordOf 0x07700080 0x000A0004 0xE0008040 0x30282002 0) =
    .ok (.ld { Fields.bare with od := .v 4, oa := .v 10, ob := .imm 0x40, oe := .p 2, hint := 8, la := 2, scp := .pkg, ord := .acquire }) ∧
  decode (wordOf 0x07700002 0x2001E000 0xE000E000 0x0000E000 0x001E000A) = .ok (.bra { Fields.bare with oa := .p 1, imm := 0x001E000A }) ∧
  decode (wordOf 0x0770000E 0x8035E000 0xE000E000 0x0000E000 0) = .ok (.tret { Fields.bare with oa := .imm 53 }) ∧
  decode (wordOf 0x077000E1 0x8009600B 0xE000E000 0x0000E000 0) = .ok (.mts { Fields.bare with od := .s 0x0B, oa := .imm 9 }) ∧
  decode (wordOf 0x077030A8 0xC014C008 0x80054003 0x0140E000 0) =
    .ok (.mma { Fields.bare with typ := .bf16, od := .pair 8, oa := .pair 20, ob := .t 3, oc := .imm 5, la := 4, ru := true }) ∧
  decodeFor 64 (wordOf 0x0B281020 0x00060005 0xE0008064 0x8000E000 0) = .error ⟨2, 1, 0xFF⟩ ∧
  decodeFor 64 (wordOf 0x0B281220 0x00060005 0xE0008064 0x0000E000 0) = .error ⟨1, 3, 0xFF⟩ ∧
  decodeFor 64 (wordOf 0x0B281220 0x00060005 0xE0008064 0x8000E000 0) = .error ⟨1, 3, 0xFF⟩ ∧
  decodeFor 64 (wordOf 0x0B281020 0x00060005 0xE0004001 0x0000E000 0) = .error ⟨1, 4, 2⟩ ∧
  decodeFor 64 (wordOf 0x0B281020 0x000600C8 0xE0008064 0x0000E000 0) = .error ⟨1, 5, 0⟩ ∧
  decodeFor 64 (wordOf 0x0B281020 0x00060005 0xE0018064 0x0000E000 0) = .error ⟨2, 1, 3⟩ ∧
  decodeFor 64 (wordOf 0x0B281020 0x00060005 0xE0008064 0x4000E000 0) = .error ⟨2, 4, 0xFF⟩ ∧
  decodeFor 64 (wordOf 0x0B291020 0x00060005 0xE0008064 0x0000E000 0) = .error ⟨2, 3, 0xFF⟩ ∧
  decodeFor 64 0 = .error ⟨1, 1, 0xFF⟩ ∧
  decodeFor 64 (wordOf 0x0B2810FF 0x00060005 0xE0008064 0x0000E000 0) = .error ⟨1, 2, 0xFF⟩

/-! ### Lane results -/

/-- Each instruction that writes one register and no flag completes, delivers its value in every lane of the write mask, and changes nothing else of
its cohort or of the machine; the register's tag is that of R60 (R55, R60, R61, R338, R351, R352, R357, R369, R384, R386, R387, R397, R398, R402,
R416, R423, R429, R440, R444, R453). Complete here: and, andn, or, xor, not, popc, clz, brev, bfi, bfx, shr, shra, imulh, iaddmin, mov, sel, fmax, fmin, frnd, and icmp, fcmp and vote with a
register destination. -/
def Obligations.PlainVectorResult : Prop :=
  ∀ (i : Instr) (s : State) (c : Cohort) (f : Fields) (val : State → Cohort → Nat → Word),
    plainResult i = some (f, val) → s.me? = some c → opndIndex f.od < c.regs.length →
    ∃ d : Cohort, exec i s = .next (s.setCohort d.complete) ∧ vecWrite c d (c.writeMask f) (opndIndex f.od) (val s c) ∧
      tagWritten c d (c.writeMask f) (opndIndex f.od) (fullShape i s c)

/-- Each instruction that writes a register pair and no flag does so (MOV, SHL, SHR with `.w64`, VOTE.ballot: R416, R444, R453); both halves are U when
every source half is U, else G (R60). Complete here: mov, shl, shr and vote, in the forms with 64 bits. -/
def Obligations.WideVectorResult : Prop :=
  ∀ (i : Instr) (s : State) (c : Cohort) (f : Fields) (val : State → Cohort → Nat → DWord),
    wideResult i = some (f, val) → s.me? = some c → opndIndex f.od + 1 < c.regs.length →
    ∃ d : Cohort, exec i s = .next (s.setCohort d.complete) ∧ pairWrite c d (c.writeMask f) (opndIndex f.od) (val s c) ∧
      pairTags c d (c.writeMask f) (opndIndex f.od) (uniformShape (wideSources i s c))

/-- Each integer instruction with flags, and FSFN, delivers its value in every lane of the write mask and ORs the lanes' flags into $VSTAT when none
of them is trapped; the register's tag is that of R60, affine where R391 allows it (R54, R60, R72, R81, R388 to R407, R444, R445). Complete here: iadd, isub, imul, imin, imax, iabs, imad, lea, shl, idp2, idp4,
shrrn, fsfn. -/
def Obligations.FlaggedVectorResult : Prop :=
  ∀ (i : Instr) (s : State) (c : Cohort) (f : Fields) (res : State → Cohort → Nat → Word × BitVec 6),
    flaggedResult i = some (f, res) → s.me? = some c → opndIndex f.od < c.regs.length →
    untrapped c (c.writeMask f) (fun l => (res s c l).2) →
    ∃ d : Cohort, exec i s = .next (s.setCohort d.complete) ∧
      vecWrite { c with vstat := d.vstat } d (c.writeMask f) (opndIndex f.od) (fun l => (res s c l).1) ∧
      tagWritten c d (c.writeMask f) (opndIndex f.od) (fullShape i s c) ∧ flagsWritten c d (c.writeMask f) (fun l => (res s c l).2)

/-- The `.w64` integer instructions deliver the exact integer narrowed to 64 bits in the lanes' pairs, tagged by rule 3 of R60 (R60, R72, R396, R400,
R407). Complete here: iadd, isub, imad, lea, with `.w64`. -/
def Obligations.WideIntegerResult : Prop :=
  ∀ (i : Instr) (s : State) (c : Cohort) (f : Fields) (val : State → Cohort → Nat → Int),
    exactWide i = some (f, val) → s.me? = some c → opndIndex f.od + 1 < c.regs.length →
    untrapped c (c.writeMask f) (fun l => (iclamp64 (f.typ == .s32) f.sat (val s c l)).2) →
    ∃ d : Cohort, exec i s = .next (s.setCohort d.complete) ∧
      pairWrite { c with vstat := d.vstat } d (c.writeMask f) (opndIndex f.od) (fun l => (iclamp64 (f.typ == .s32) f.sat (val s c l)).1) ∧
      pairTags c d (c.writeMask f) (opndIndex f.od) (uniformShape (wideSources i s c)) ∧
      flagsWritten c d (c.writeMask f) (fun l => (iclamp64 (f.typ == .s32) f.sat (val s c l)).2)

/-- Each rounding instruction delivers its rounded value with the lane's draw, ORs the flags into $VSTAT, and leaves the generator one step per lane
further under `.sr` and unchanged otherwise; the register is G under `.sr`, else tagged by R60 (R60, R81, R83, R363, R372 to R374, R383, R454).
Complete here: fadd, fsub, fmul, ffma, xfma2, cvt, cvtpk. -/
def Obligations.RoundedVectorResult : Prop :=
  ∀ (i : Instr) (s : State) (c : Cohort) (f : Fields) (res : State → Cohort → Word → Nat → Word × BitVec 6),
    roundedResult i = some (f, res) → s.me? = some c → opndIndex f.od < c.regs.length →
    untrapped c (c.writeMask f) (fun l => (res s c (c.draw f l) l).2) →
    ∃ d : Cohort, exec i s = .next (s.setCohort d.complete) ∧
      vecWrite { c with vstat := d.vstat, srseed := c.seedAfter f } d (c.writeMask f) (opndIndex f.od) (fun l => (res s c (c.draw f l) l).1) ∧
      tagWritten c d (c.writeMask f) (opndIndex f.od) (if f.rnd = .sr then .g else fullShape i s c) ∧
      flagsWritten c d (c.writeMask f) (fun l => (res s c (c.draw f l) l).2)

/-- An integer instruction, FSFN, a rounding instruction, REDL or SCANL of which a lane raises a flag whose trap enable is set takes cause group
6 in place of its result: the detail names the lanes that raised such a flag and the flags (R54, R234, R434). A lane of a SCANL raises the flags of its
own addition, and every lane of a REDL those of the whole fold. -/
def Obligations.EnabledFlagTraps : Prop :=
  ∀ (i : Instr) (s : State) (c : Cohort) (f : Fields) (fl : Nat → BitVec 6),
    ((∃ res, flaggedResult i = some (f, res) ∧ fl = fun l => (res s c l).2) ∨
      (∃ val, exactWide i = some (f, val) ∧ fl = fun l => (iclamp64 (f.typ == .s32) f.sat (val s c l)).2) ∨
      (∃ res, roundedResult i = some (f, res) ∧ fl = fun l => (res s c (c.draw f l) l).2) ∨
      (i = .redl f ∧ fl = fun _ => foldFlags f.typ f.sub.toNat ((laneList (c.writeMask f)).map (s.opnd c f f.oa))) ∨
      (i = .scanl f ∧ fl = foldStep f (if f.sub = 3 then 0 else f.sub.toNat) (c.writeMask f) (s.opnd c f f.oa))) →
    s.me? = some c → ¬ untrapped c (c.writeMask f) fl →
    ∃ (lanes : Mask) (flags : BitVec 5),
      exec i s = .next (s.raise c 6 (lanes.setWidth 96 ||| (flags.setWidth 96 <<< 64)) (c.plainRecs lanes 6 0)) ∧
      (∀ l, l < 64 → (lanes.getLsbD l = true ↔
        l ∈ laneList (c.writeMask f) ∧ ∃ b, 1 ≤ b ∧ b < 6 ∧ c.vstat.getLsbD (b + 7) = true ∧ (fl l).getLsbD b = true)) ∧
      (∀ b, b < 5 → (flags.getLsbD b = true ↔
        c.vstat.getLsbD (b + 8) = true ∧ ∃ l ∈ laneList (c.writeMask f), (fl l).getLsbD (b + 1) = true))

/-- ICMP, FCMP, PLOP and VOTE with a predicate destination complete, write it in the lanes of the write mask and change nothing else; a destination p7
takes nothing (R50, R384, R398, R428, R453). For PLOP the second part writes the five forms out: and, or, xor, and-not of two predicates, and the test
of a word against zero. Complete here: icmp, fcmp, plop, vote. -/
def Obligations.PredicateResult : Prop :=
  (∀ (i : Instr) (s : State) (c : Cohort) (f : Fields) (p : BitVec 3) (val : State → Cohort → Nat → Bool),
    predResult i = some (f, val) → s.me? = some c → f.od = .p p → (p ≠ 7 → p.toNat < c.preds.length) →
    ∃ d : Cohort, exec i s = .next (s.setCohort d.complete) ∧ predWrite c d (c.writeMask f) p (val s c)) ∧
  ∀ (s : State) (c : Cohort) (f : Fields) (p : BitVec 3), s.me? = some c → f.od = .p p → (p ≠ 7 → p.toNat < c.preds.length) →
    ∃ d : Cohort, exec (.plop f) s = .next (s.setCohort d.complete) ∧ d = { c with preds := d.preds } ∧ (p = 7 → d = c) ∧
      (∀ k, k ≠ p → d.pred k = c.pred k) ∧
      ∀ l, p ≠ 7 → l < 64 → (d.pred p).getLsbD l =
        if (c.writeMask f).getLsbD l = false then (c.pred p).getLsbD l
        else match f.sub.toNat with
          | 0 => (c.predOf f.oa).getLsbD l && (c.predOf f.ob).getLsbD l
          | 1 => (c.predOf f.oa).getLsbD l || (c.predOf f.ob).getLsbD l
          | 2 => (c.predOf f.oa).getLsbD l != (c.predOf f.ob).getLsbD l
          | 3 => (c.predOf f.oa).getLsbD l && !(c.predOf f.ob).getLsbD l
          | _ => s.opnd c f f.oa l != 0

/-- SHFL, SLIDE, SWZX and BCAST: a lane of the write mask whose source lane may be read takes that lane's word, and any other lane its fill or its old
word; the register's tag is that of R60, and stays where no lane is written (R60, R63, R350, R441 to R443). Complete here: shfl, slide, swzx, bcast. -/
def Obligations.CrossLaneResult : Prop :=
  ∀ (i : Instr) (s : State) (c : Cohort) (f : Fields) (src : State → Cohort → Nat → Option Nat),
    crossSource i = some (f, src) → s.me? = some c → opndIndex f.od < c.regs.length →
    ∃ d : Cohort, exec i s = .next (s.setCohort d.complete) ∧
      (vecWrite c d (c.writeMask f) (opndIndex f.od) fun l =>
        match src s c l with
        | some k => if c.validLane k then s.opnd c f f.oa k else crossFill i s c f l
        | none => crossFill i s c f l) ∧
      (crossFills i = false → ((laneList (c.writeMask f)).any fun l => (src s c l).any c.validLane) = false → d = c) ∧
      ((crossFills i = true ∨ ((laneList (c.writeMask f)).any fun l => (src s c l).any c.validLane) = true) →
        tagWritten c d (c.writeMask f) (opndIndex f.od) (crossShape i s c f src))

/-- REDL writes the fold of the lanes of the write mask, in ascending order, to each of them, and SCANL the fold of the lanes up to each, or below
each for `.addx`; REDL gives U under a full write and SCANL G; the flags of every addition, none of them trapped, go to $VSTAT (R60, R434). Complete here:
redl, scanl. -/
def Obligations.LaneFoldResult : Prop :=
  ∀ (s : State) (c : Cohort) (f : Fields), s.me? = some c → opndIndex f.od < c.regs.length →
    (untrapped c (c.writeMask f) (fun _ => foldFlags f.typ f.sub.toNat ((laneList (c.writeMask f)).map (s.opnd c f f.oa))) →
      ∃ d : Cohort, exec (.redl f) s = .next (s.setCohort d.complete) ∧
      vecWrite { c with vstat := d.vstat } d (c.writeMask f) (opndIndex f.od)
        (fun _ => foldWords f.typ f.sub.toNat ((laneList (c.writeMask f)).map (s.opnd c f f.oa))) ∧
      tagWritten c d (c.writeMask f) (opndIndex f.od) .u ∧
      flagsWritten c d (c.writeMask f) (fun _ => foldFlags f.typ f.sub.toNat ((laneList (c.writeMask f)).map (s.opnd c f f.oa)))) ∧
    (untrapped c (c.writeMask f) (foldStep f (if f.sub = 3 then 0 else f.sub.toNat) (c.writeMask f) (s.opnd c f f.oa)) →
      ∃ d : Cohort, exec (.scanl f) s = .next (s.setCohort d.complete) ∧
      vecWrite { c with vstat := d.vstat } d (c.writeMask f) (opndIndex f.od)
        (fun l => if f.sub = 3 then foldWords f.typ 0 ((lanesBelow (c.writeMask f) l).map (s.opnd c f f.oa))
          else foldWords f.typ f.sub.toNat ((lanesBelow (c.writeMask f) (l + 1)).map (s.opnd c f f.oa))) ∧
      tagWritten c d (c.writeMask f) (opndIndex f.od) .g ∧
      flagsWritten c d (c.writeMask f)
        (fun _ => foldFlags f.typ (if f.sub = 3 then 0 else f.sub.toNat) ((laneList (c.writeMask f)).map (s.opnd c f f.oa))))

/-- VSHAPE, VEXP and VSQZ with a lane in the write mask write the whole destination: VSHAPE the tag code of the source, VEXP its words as G, VSQZ a
shape that holds the words of the lanes that are not dead: U when they are equal or there is none, A with the base and the stride of the two lowest
such lanes when those are neighbours and every word lies on that line, else G; without a lane they change no register (R64, R452). Complete here: vshape,
vexp, vsqz. -/
def Obligations.ShapeInstructions : Prop :=
  ∀ (s : State) (c : Cohort) (f : Fields), s.me? = some c → opndIndex f.od < c.regs.length →
    (c.writeMask f = 0 → exec (.vshape f) s = .next (s.setCohort c.complete) ∧ exec (.vexp f) s = .next (s.setCohort c.complete) ∧
      exec (.vsqz f) s = .next (s.setCohort c.complete)) ∧
    (c.writeMask f ≠ 0 →
      (∃ d : Cohort, exec (.vshape f) s = .next (s.setCohort d.complete) ∧ c.onlyRegs d ∧ (∀ n, n ≠ opndIndex f.od → d.reg n = c.reg n) ∧
        d.reg (opndIndex f.od) = .u (BitVec.ofNat 32 (c.reg (opndIndex f.oa)).tag)) ∧
      (∃ (d : Cohort) (ws : List Word), exec (.vexp f) s = .next (s.setCohort d.complete) ∧ c.onlyRegs d ∧
        (∀ n, n ≠ opndIndex f.od → d.reg n = c.reg n) ∧ d.reg (opndIndex f.od) = .g ws ∧
        ∀ l, l < c.width → c.dead.getLsbD l = false → (d.reg (opndIndex f.od)).lane l = (c.reg (opndIndex f.oa)).lane l) ∧
      (∃ d : Cohort, exec (.vsqz f) s = .next (s.setCohort d.complete) ∧ c.onlyRegs d ∧ (∀ n, n ≠ opndIndex f.od → d.reg n = c.reg n) ∧
        (∀ l, l < c.width → c.dead.getLsbD l = false → (d.reg (opndIndex f.od)).lane l = (c.reg (opndIndex f.oa)).lane l) ∧
        ((∀ l k, l < c.width → k < c.width → c.dead.getLsbD l = false → c.dead.getLsbD k = false →
            (c.reg (opndIndex f.oa)).lane l = (c.reg (opndIndex f.oa)).lane k) → (d.reg (opndIndex f.od)).isU = true) ∧
        ((∀ l, l < c.width → c.dead.getLsbD l = true) → d.reg (opndIndex f.od) = .u 0) ∧
        ∀ l0 b t, l0 < c.width → c.dead.getLsbD l0 = false → (∀ l, l < l0 → c.dead.getLsbD l = true) →
          t = (c.reg (opndIndex f.oa)).lane (l0 + 1) - (c.reg (opndIndex f.oa)).lane l0 →
          b = (c.reg (opndIndex f.oa)).lane l0 - BitVec.ofNat 32 l0 * t →
          (¬ ∀ l, l < c.width → c.dead.getLsbD l = false → (c.reg (opndIndex f.oa)).lane l = (c.reg (opndIndex f.oa)).lane l0) →
          ((l0 + 1 < c.width ∧ c.dead.getLsbD (l0 + 1) = false ∧
              ∀ l, l < c.width → c.dead.getLsbD l = false → (c.reg (opndIndex f.oa)).lane l = b + BitVec.ofNat 32 l * t) →
            d.reg (opndIndex f.od) = .a b t) ∧
          ((¬ (l0 + 1 < c.width ∧ c.dead.getLsbD (l0 + 1) = false ∧
              ∀ l, l < c.width → c.dead.getLsbD l = false → (c.reg (opndIndex f.oa)).lane l = b + BitVec.ofNat 32 l * t)) →
            (d.reg (opndIndex f.od)).meets .g)))

/-- The bit functions bit by bit: BREV moves bit i to 31 − i, CLZ counts the zero bits above the highest set bit, BFI replaces the bits of a
field cut at bit 31 and keeps the others, BFX extracts such a field and extends it (R351, R352, R357, R369). -/
def Obligations.BitFunctions : Prop :=
  ∀ (a b p n : Word),
    (∀ i, i < 32 → (bitReverse a).getLsbD i = a.getLsbD (31 - i)) ∧
    (leadingZeros 0 = 32) ∧
    (a ≠ 0 → leadingZeros a < 32 ∧ a.getLsbD (31 - leadingZeros a) = true ∧ ∀ i, i < leadingZeros a → a.getLsbD (31 - i) = false) ∧
    (∀ i, i < 32 → (bitInsert a b p n).getLsbD i =
      if p.toNat % 32 ≤ i ∧ i < p.toNat % 32 + n.toNat % 64 then b.getLsbD (i - p.toNat % 32) else a.getLsbD i) ∧
    (∀ i, i < 32 → (bitExtract false a p n).getLsbD i =
      (decide (i < n.toNat % 64) && a.getLsbD (p.toNat % 32 + i))) ∧
    (∀ i, i < 32 → 0 < n.toNat % 64 → (bitExtract true a p n).getLsbD i =
      if i < n.toNat % 64 ∧ p.toNat % 32 + i < 32 then a.getLsbD (p.toNat % 32 + i)
      else a.getLsbD (min 31 (p.toNat % 32 + n.toNat % 64 - 1)))

/-! ### Control -/

/-- NOP, YIELD, JMP, JMP.ind, CALL, CALL.ind and RET: the issuing slot moves to the next instruction, to the target, or to the link, a call writes the
return PC under the join to the link pair of the issuing slot's lanes, which is U when they are all the lanes that are not dead, and an empty write mask
only moves on (R60, R364, R403, R422, R435, R455). Complete here: nop, yield, jmp, jmpInd, call, callInd, ret. -/
def Obligations.ControlTransfers : Prop :=
  ∀ (s : State) (c : Cohort) (f : Fields), s.me? = some c →
    exec (.nop f) s = .next (s.setCohort c.complete) ∧
    exec (.yield f) s = .next (s.setCohort c.complete) ∧
    (c.writeMask f = 0 → ∀ i ∈ [Instr.jmp f, .jmpInd f, .call f, .callInd f, .ret f, .trap f, .bkpt f, .tret f, .mts f], exec i s = .next (s.setCohort c.complete)) ∧
    (c.writeMask f ≠ 0 →
      exec (.jmp f) s = .next (s.settleCohort (c.goto (c.here.pc + f.imm))) ∧
      exec (.jmpInd f) s = .next (s.settleCohort (c.goto (s.opnd c f f.oa (elect (c.writeMask f))))) ∧
      (opndIndex f.od + 1 < c.regs.length →
        ∃ d : Cohort, pairWrite c d (c.here.mask &&& ~~~c.dead) (opndIndex f.od) (fun _ => Word.pair (c.here.pc + 1) c.j) ∧
          pairTags c d (c.here.mask &&& ~~~c.dead) (opndIndex f.od) .u ∧
          exec (.call f) s = .next (s.settleCohort (d.goto (c.here.pc + f.imm))) ∧
          exec (.callInd f) s = .next (s.settleCohort (d.goto (s.opnd c f f.oa (elect (c.writeMask f)))))) ∧
      (DWord.hi (c.opnd64 f f.oa (elect (c.writeMask f))) = c.j →
        exec (.ret f) s = .next (s.settleCohort (c.goto (DWord.lo (c.opnd64 f f.oa (elect (c.writeMask f))))))) ∧
      (DWord.hi (c.opnd64 f f.oa (elect (c.writeMask f))) ≠ c.j → exec (.ret f) s = .next (s.raiseReason c 12 2)))

/-- BRA: with no lane taken the slot moves on, with every lane taken it moves to the target, and otherwise the taken lanes go to the other slot, which
is pushed under J when it is live, and J becomes the join; a push that would make 288 entries raises group 12, reason 1 (R33, R36, R355, R356).
Completes here: bra. -/
def Obligations.BranchDiverges : Prop :=
  ∀ (s : State) (c : Cohort) (f : Fields) (t n : Mask) (tgt jn : Word), s.me? = some c →
    t = c.here.mask &&& c.guardMask f &&& c.predOf f.oa → n = c.here.mask &&& ~~~t →
    tgt = c.here.pc + (f.imm.setWidth 16).signExtend 32 → jn = c.here.pc + ((f.imm >>> 16).setWidth 16).signExtend 32 →
    (t = 0 → exec (.bra f) s = .next (s.setCohort c.complete)) ∧
    (t ≠ 0 → n = 0 → exec (.bra f) s = .next (s.settleCohort (c.goto tgt))) ∧
    (t ≠ 0 → n ≠ 0 → c.slot (!c.issuer) ≠ none → 287 ≤ c.stack.length → exec (.bra f) s = .next (s.raiseReason c 12 1)) ∧
    (t ≠ 0 → n ≠ 0 → (c.slot (!c.issuer) = none ∨ c.stack.length < 287) →
      ∃ d : Cohort, exec (.bra f) s = .next (s.settleCohort d) ∧
        d = { c with s0 := d.s0, s1 := d.s1, j := jn, stack := d.stack, nSpill := d.nSpill, lastS := c.issuer, wait := .none } ∧
        d.slot (!c.issuer) = some ⟨tgt, t⟩ ∧ d.slot c.issuer = some ⟨c.here.pc + 1, n⟩ ∧
        d.stack = match c.slot (!c.issuer) with
          | some y => ⟨y.pc, y.mask, c.j⟩ :: c.stack
          | none => c.stack)

/-- The procedure of R34 outside handler mode, round by round: a slot that stands at J does not issue; when some live slot stands elsewhere nothing
changes; when every live slot stands at J they merge there and the stack's top entry comes back in S1, or J becomes NONE when the stack is empty;
when no slot is live the top entry comes back in S0, or the cohort has ended; after each entry that comes back the procedure goes on. A merge is
noted, so that the stores of its sides are performed before the cohort issues again (R38). (How many entries lie in the spill area is R36's.) -/
def Obligations.SlotsReconverge : Prop :=
  ∀ (c : Cohort) (m : Mask), c.hmode = false → m = (c.s0.map (·.mask)).getD 0 ||| (c.s1.map (·.mask)).getD 0 →
    (∀ x p, c.slot x = some p → c.j ≠ noneJ → p.pc = c.j → c.slotReady x = false) ∧
    (∀ x p, c.slot x = some p → (c.j = noneJ ∨ p.pc ≠ c.j) → c.settle = c) ∧
    (c.s0 = none → c.s1 = none → c.stack = [] → c.settle = c ∧ c.ended = true) ∧
    (∀ e st, c.s0 = none → c.s1 = none → c.stack = e :: st → ∃ n : Nat,
      c.settle = Cohort.settle { c with s0 := liveSlot e.pc (e.mask &&& ~~~c.dead), j := e.outer, stack := st, nSpill := n }) ∧
    (c.j ≠ noneJ → (∃ x p, c.slot x = some p) → (∀ x p, c.slot x = some p → p.pc = c.j) →
      (c.stack = [] → c.settle = { c with s0 := some ⟨c.j, m⟩, s1 := none, j := noneJ, merged := true }) ∧
      (∀ e st, c.stack = e :: st → ∃ n : Nat, c.settle = Cohort.settle
        { c with s0 := some ⟨c.j, m⟩, s1 := liveSlot e.pc (e.mask &&& ~~~c.dead), j := e.outer, stack := st, nSpill := n, merged := true }))

/-- Which slot a cohort issues from (R35): with both able to issue, the one that did not issue last; with one, that one; and what the stack holds
does not enter into it. -/
def Obligations.SlotsAlternate : Prop :=
  ∀ (c : Cohort) (st : List StackEntry),
    (c.slotReady false = true → c.slotReady true = true → c.issueSlot? = some (!c.lastS)) ∧
    (∀ x, c.slotReady x = true → c.slotReady (!x) = false → c.issueSlot? = some x) ∧
    (c.slotReady false = false → c.slotReady true = false → c.issueSlot? = none) ∧
    (∀ x, c.issueSlot? = some x → ∃ p, c.slot x = some p ∧ (c.j = noneJ ∨ p.pc ≠ c.j)) ∧
    ({ c with stack := st } : Cohort).issueSlot? = c.issueSlot?

/-! ### Causes and the handler -/

/-- TAKING A CAUSE (R226, R231, R234, R238): for a cohort that has raised none in this stop, in a context that runs, $CAUSE, the 96-bit detail and
$EPC are written and the halt line rises; registers, predicates, flags and memory stay as they are, and so does every other cohort; a pre-emption that
began in this very cycle is lost to the stop, and becomes pending in the cohorts that have raised a cause. -/
def Obligations.CauseIsTaken : Prop :=
  ∀ (s : State) (c : Cohort) (x : Ctx) (group : Nat) (detail : BitVec 96) (recs : List LaneRec),
    s.cohort? c.cid = some c → s.ctx? c.ctx = some x → x.halt = false → (c.raised && !c.hmode) = false →
    ∃ (d : Cohort) (y : Ctx), (s.raise c group detail recs).cohort? c.cid = some d ∧ (s.raise c group detail recs).ctx? c.ctx = some y ∧
      d.cause = BitVec.ofNat 5 group ∧ d.caused0 = detail.setWidth 32 ∧ d.caused1 = (detail >>> 32).setWidth 32 ∧
      d.caused2 = (detail >>> 64).setWidth 32 ∧ d.epc = c.here.pc ∧
      d = { c with cause := d.cause, caused0 := d.caused0, caused1 := d.caused1, caused2 := d.caused2, epc := d.epc, laneRecs := recs,
                   raised := true, jobSide := false, lastS := c.issuer, wait := .none, pend := d.pend, pendInfo := d.pendInfo } ∧
      ((s.wg? c.wg).bind (·.preempt) = none → d.pend = c.pend ∧ d.pendInfo = c.pendInfo) ∧
      y.halt = true ∧ y.stopNum = x.stopNum + 1 ∧ y.firstCause = BitVec.ofNat 5 group ∧ y.firstPc = c.here.pc ∧
      y.firstCore = BitVec.ofNat 16 c.core ∧
      (s.raise c group detail recs).mem = s.mem ∧
      ∀ k, k ≠ c.cid → ((s.raise c group detail recs).cohort? k).isSome = (s.cohort? k).isSome ∧
        ∀ e, s.cohort? k = some e → ∃ e' : Cohort, (s.raise c group detail recs).cohort? k = some e' ∧ e' = { e with pend := e'.pend, pendInfo := e'.pendInfo } ∧
          ((e.raised = false ∨ (s.wg? e.wg).bind (·.preempt) = none) → e' = e)

/-- ASSERT, TRAP and BKPT: an ASSERT whose lanes all hold moves on; a failing one raises group 7 with the message pointer of its lowest failing lane,
TRAP group 8 and BKPT group 9, reason 1, with their codes (R341, R353, R449, R234). Complete here: assert (which moves on, or traps), trap and bkpt,
whose effect is the cause they take. -/
def Obligations.SoftwareCauses : Prop :=
  ∀ (s : State) (c : Cohort) (f : Fields), s.me? = some c →
    (c.writeMask f &&& ~~~c.predOf f.oa = 0 → exec (.assert f) s = .next (s.setCohort c.complete)) ∧
    (∀ bad, bad = c.writeMask f &&& ~~~c.predOf f.oa → bad ≠ 0 →
      exec (.assert f) s = .next (s.raise c 7
        (((if f.ob = .none then 0 else c.opnd64 f f.ob (elect bad) &&& 0x1FFFFFFFFFFFFF) : DWord).setWidth 96 ||| BitVec.ofNat 96 (elect bad * 2 ^ 53))
        (c.plainRecs bad 7 0))) ∧
    (c.writeMask f ≠ 0 →
      exec (.trap f) s = .next (s.raise c 8 ((if f.oa = .none then 0 else s.opnd c f f.oa 0 : Word).setWidth 96) (c.plainRecs 0 8 0)) ∧
      exec (.bkpt f) s = .next (s.raise c 9 ((if f.oa = .none then 0 else s.opnd c f f.oa 0 : Word).setWidth 96 ||| BitVec.ofNat 96 (2 ^ 64))
        (c.plainRecs 0 9 1)))

/-- ENTERING THE HANDLER (R239): the control state is kept, the trapped slot is the one that holds $EPC, S0 takes HENTRY with the lanes of the
live slots that are not dead, S1 is empty, J is NONE, and the stack stays in place. The slot that holds $EPC is the one that issued last, unless the
stop has abandoned an instruction in which the cohort waited. -/
def Obligations.HandlerIsEntered : Prop :=
  ∀ (c : Cohort) (hentry : Word) (m : Mask), m = ((c.s0.map (·.mask)).getD 0 ||| (c.s1.map (·.mask)).getD 0) &&& ~~~c.dead → m ≠ 0 →
    (c.enterHandler hentry).s0 = some ⟨hentry, m⟩ ∧ (c.enterHandler hentry).s1 = none ∧ (c.enterHandler hentry).j = noneJ ∧
    (c.enterHandler hentry).hmode = true ∧ (c.enterHandler hentry).traps = c.stopSlot ∧ (c.left = none → c.wait = .none → c.stopSlot = c.lastS) ∧
    (∀ x, c.left = some x → c.stopSlot = x) ∧
    (c.enterHandler hentry).stack = c.stack ∧ (c.enterHandler hentry).regs = c.regs ∧ (c.enterHandler hentry).preds = c.preds ∧
    ∃ k, (c.enterHandler hentry).kctl = some k ∧ k.s0 = c.s0 ∧ k.s1 = c.s1 ∧ k.j = c.j ∧ k.lastS = c.lastS ∧
      k.nStk + k.nSpill = c.onChip + c.nSpill ∧ k.act = ((c.slot c.stopSlot).map (·.mask)).getD 0 ∧ k.rmw = c.rmw

/-- TRET in handler mode with one live slot, no stack entry of the handler's own, and room on the stack, completes (R241, R450): HMODE, $CAUSE and the
detail are cleared, J is the kernel's, and the control state is rebuilt from the entries that still have lanes, in their order: the lanes left in
$ACTMASK at $EPC, the other slot at its place, and the other lanes of the trapped slot at the alternative PC (the operand, or $EPC + 1); an entry at the
PC of an earlier one joins it; the first two are the slots, and a third goes on the stack. Then R34 applies and the halt line falls with the last handler.
With two live slots, an entry of the handler's own left, or no room for the third, it raises group 12, reason 6. Completes here: tret. -/
def Obligations.HandlerReturns : Prop :=
  ∀ (s : State) (c : Cohort) (f : Fields) (k : KCtl) (x y : Option PcSlot) (alt : Word) (m1 m2 : Mask) (es : List (Word × Mask)), s.me? = some c →
    c.writeMask f ≠ 0 → c.hmode = true → c.kctl = some k → x = (if c.traps then k.s1 else k.s0) → y = (if c.traps then k.s0 else k.s1) →
    alt = (if f.oa = .none then c.epc + 1 else s.opnd c f f.oa (elect (c.writeMask f))) →
    m1 = k.act &&& (x.map (·.mask)).getD 0 &&& ~~~c.dead → m2 = (x.map (·.mask)).getD 0 &&& ~~~k.act &&& ~~~c.dead →
    es = joinEntries ([(c.epc, m1)] ++ (y.map fun q => (q.pc, q.mask &&& ~~~c.dead)).toList ++ [(alt, m2)]) →
    (((c.s0.isSome && c.s1.isSome) = true ∨ k.nStk + k.nSpill ≠ c.stack.length ∨ (es.length = 3 ∧ 287 ≤ c.stack.length)) →
      exec (.tret f) s = .next (s.raiseReason c 12 6)) ∧
    ((c.s0.isSome && c.s1.isSome) = false → k.nStk + k.nSpill = c.stack.length → (es.length < 3 ∨ c.stack.length < 287) →
      ∃ d : Cohort, exec (.tret f) s = .next ((s.settleCohort d).handlerDone c.ctx) ∧
        d.hmode = false ∧ d.kctl = none ∧ d.cause = 0 ∧ d.caused0 = 0 ∧ d.caused1 = 0 ∧ d.caused2 = 0 ∧ d.j = k.j ∧
        d.regs = c.regs ∧ d.preds = c.preds ∧ d.vstat = c.vstat ∧ d.epc = c.epc ∧ d.rmw = k.rmw ∧
        d.s0 = (es[0]?).map entrySlot ∧ d.s1 = (es[1]?).map entrySlot ∧
        d.stack = ((es[2]?).map fun e => (⟨e.1, e.2, k.j⟩ : StackEntry)).toList ++ c.stack)

/-- What only a handler may do, and what it may not: TRET, and a write of $ACTMASK or $EPC, outside handler mode raise group 12, reasons 8 and 4,
unless no lane is left, when they only move on; in handler mode the instructions that handler mode refuses, CCTL.tlb at `.pod` among them, raise group
12, reason 7, before their meaning, and so do ST, ATOM and RED of which a lane addresses the tile window (R240, R241, R319, R323, R362, R417, R421). -/
def Obligations.HandlerModeIsChecked : Prop :=
  ∀ (s : State) (c : Cohort) (f : Fields), s.me? = some c →
    (c.hmode = false → c.writeMask f ≠ 0 → exec (.tret f) s = .next (s.raiseReason c 12 8)) ∧
    (c.hmode = false → c.writeMask f ≠ 0 → (f.od = .s 0x0C ∨ f.od = .s 0x17) → exec (.mts f) s = .next (s.raiseReason c 12 4)) ∧
    (c.writeMask f = 0 → (∀ i ∈ [Instr.tret f, .mts f], exec i s = .next (s.setCohort c.complete)) ∧
      ∀ x, s.ctx? c.ctx = some x → ∀ i ∈ [Instr.st f, .atom f, .red f], exec i s = .next (s.setCohort c.complete)) ∧
    (c.hmode = true →
      (∀ i ∈ [Instr.bar f, .barinit f, .arrive f, .bwait f, .coll f, .rcopy f, .copy f, .gather f, .scatter f, .epi f, .epiRec f,
          .mma f, .btake f, .bpass f, .accalloc f, .accfree f, .park f, .exit f, .rwr f, .rwrVec f, .awaitc f, .gate f, .lrel f, .cfence f, .cwait f,
          .cwaitSplit f, .lqtake f, .lqtakeSplit f, .mwait f, .pgreqSplit f, .rwdsend f, .tmark f],
        s.run c i = .next (s.raiseReason c 12 7)) ∧
      (f.sub = 1 → f.scp = .pod → s.run c (.cctl f) = .next (s.raiseReason c 12 7)) ∧
      ∀ x, s.ctx? c.ctx = some x → c.writeMask f ≠ 0 → anyTile x (c.writeMask f) (c.ea f f.oa f.ob) = true →
        ∀ i ∈ [Instr.st f, .atom f, .red f], exec i s = .next (s.raiseReason c 12 7))

/-! ### Special registers -/

/-- MFS (R412, R52): a 64-bit register goes to a pair, any other to one register, in the lanes of the write mask, with the shape that R52 lists. (A
cohort of no Indigo pair; in a pair $CYCLE, $MGEN and $LQVER are the primary's.) What each register reads as is listed. Completes here: mfs. -/
def Obligations.SpecialRegisterReads : Prop :=
  ∀ (s : State) (c : Cohort) (f : Fields) (i : BitVec 9), s.me? = some c → c.role = .single → f.oa = .s i →
    opndIndex f.od + 1 < c.regs.length →
    (wideSpecial i.toNat = true →
      ∃ d : Cohort, exec (.mfs f) s = .next (s.setCohort d.complete) ∧ pairWrite c d (c.writeMask f) (opndIndex f.od) (fun _ => s.special64 c i.toNat) ∧
        pairTags c d (c.writeMask f) (opndIndex f.od) .u) ∧
    (wideSpecial i.toNat = false →
      ∃ d : Cohort, exec (.mfs f) s = .next (s.setCohort d.complete) ∧ vecWrite c d (c.writeMask f) (opndIndex f.od) (s.special c i.toNat).lane ∧
        tagWritten c d (c.writeMask f) (opndIndex f.od) (if i = 0 then .a 0 1 else .u)) ∧
    (∀ l, (s.special c 0x00).lane l = BitVec.ofNat 32 l ∧ (s.special c 0x01).lane l = BitVec.ofNat 32 c.width ∧ (s.special c 0x02).lane l = 64 ∧
      (s.special c 0x03).lane l = c.wgid ∧
      (s.special c 0x04).lane l = c.chid ∧ (s.special c 0x05).lane l = c.nch ∧ (s.special c 0x06).lane l = BitVec.ofNat 32 (c.core % 96) ∧
      (s.special c 0x07).lane l = BitVec.ofNat 32 (c.core % 96 / 4) ∧ (s.special c 0x08).lane l = BitVec.ofNat 32 (c.core / 96) ∧
      (s.special c 0x09).lane l = s.pkgRank ∧ (s.special c 0x0A).lane l = s.mgen ∧ (s.special c 0x0B).lane l = c.prio.setWidth 32 ∧
      (s.special c 0x0E).lane l = c.vstat ∧ (s.special c 0x0F).lane l = c.arrive ∧ (s.special c 0x12).lane l = (s.die (c.core / 96)).lqver ∧
      (s.special c 0x13).lane l = c.cause.setWidth 32 ∧ (s.special c 0x14).lane l = c.caused0 ∧ (s.special c 0x15).lane l = c.caused1 ∧
      (s.special c 0x16).lane l = c.caused2 ∧ (s.special c 0x17).lane l = c.epc) ∧
    s.special64 c 0x0D = c.dead ∧ s.special64 c 0x10 = BitVec.ofNat 64 (s.cycle (c.core / 96)) ∧ s.special64 c 0x11 = c.srseed ∧
    (c.hmode = false → s.special64 c 0x0C = c.here.mask) ∧ ∀ k, c.hmode = true → c.kctl = some k → s.special64 c 0x0C = k.act

/-- MTS (R417, R418): the elected lane's value goes to the one register it names and nothing else changes; of the writes of a die's $LQVER in one cycle
that of the highest core stands; a value with a reserved bit set raises group 2, reason 7, and writes nothing. (The operand field of that cause's detail is
the model's, log entry 36, and is not stated.) Completes here: mts. -/
def Obligations.SpecialRegisterWrites : Prop :=
  ∀ (s : State) (c : Cohort) (f : Fields) (v : Word) (w : DWord), s.me? = some c → c.writeMask f ≠ 0 →
    v = s.opnd c f f.oa (elect (c.writeMask f)) → w = c.opnd64 f f.oa (elect (c.writeMask f)) →
    (f.od = .s 0x0B → v &&& 0xFFFFFFF0 = 0 → exec (.mts f) s = .next (s.setCohort ({ c with prio := v.setWidth 4 } : Cohort).complete)) ∧
    (f.od = .s 0x0E → v &&& 0xFFFFE0C0 = 0 → exec (.mts f) s = .next (s.setCohort ({ c with vstat := v } : Cohort).complete)) ∧
    (f.od = .s 0x0F → exec (.mts f) s = .next (s.setCohort ({ c with arrive := v } : Cohort).complete)) ∧
    (f.od = .s 0x11 → exec (.mts f) s = .next (s.setCohort ({ c with srseed := w } : Cohort).complete)) ∧
    (f.od = .s 0x12 → c.role ≠ .secondary →
      ((∀ t k old, (s.die (c.core / 96)).lqWrite = some (t, k, old) → t = s.cycle (c.core / 96) → k ≤ c.core) →
        ∃ t : State, exec (.mts f) s = .next (t.setCohort c.complete) ∧ t = { s with dies := t.dies } ∧ (t.die (c.core / 96)).lqver = v ∧
          ∀ d, d ≠ c.core / 96 → t.die d = s.die d) ∧
      (∀ k old, (s.die (c.core / 96)).lqWrite = some (s.cycle (c.core / 96), k, old) → c.core < k → exec (.mts f) s = .next (s.setCohort c.complete))) ∧
    (f.od = .s 0x17 → c.hmode = true → exec (.mts f) s = .next (s.setCohort ({ c with epc := v } : Cohort).complete)) ∧
    (f.od = .s 0x0C → c.hmode = true → ∀ k p, c.kctl = some k → (if c.traps then k.s1 else k.s0) = some p →
      exec (.mts f) s = .next (s.setCohort ({ c with kctl := some { k with act := w &&& p.mask } } : Cohort).complete)) ∧
    ((f.od = .s 0x0B ∧ v &&& 0xFFFFFFF0 ≠ 0) ∨ (f.od = .s 0x0E ∧ v &&& 0xFFFFE0C0 ≠ 0) →
      ∃ detail, exec (.mts f) s = .next (s.raise c 2 detail (c.plainRecs 0 2 7)) ∧ (detail >>> 64).setWidth 8 = (0x07 : BitVec 8))

/-! ### Lane memory accesses -/

/-- LD whose lanes all go through (R104, R105, R119, R404 to R406): every lane of the write mask takes the little-endian number of its bytes, extended
as the form says, 0 where its page is not resident, which the residency predicate shows; no byte of memory changes but the A bits of the leaf entries
used; a full load is U where rules 3 and 8 of R60 say so, else G. (A cohort of no Indigo pair, with no word of the lanes between the two halves of
another's atomic.) The first part has no line of the lanes in the core's L1, or a hint that passes it by; in the second the line of the only lane is
there, and its bytes are what L1 holds, whatever memory does. Completes here: ld. -/
def Obligations.LoadResult : Prop :=
  (∀ (s : State) (c : Cohort) (x : Ctx) (f : Fields) (ps : List LanePlan), s.me? = some c → s.ctx? c.ctx = some x → c.role = .single →
    c.windows = [] → c.writeMask f ≠ 0 → ps = s.planLanes c x .load (accSize f.sub) (c.writeMask f) (c.ea f f.oa f.ob) →
    ps.all (laneReaches s (accSize f.sub) [0, 1, 2, 3]) = true → s.plansBlocked c ps true = false → s.plansTaken c (accSize f.sub) ps = false →
    (hintFR f = true ∨ hintNL1 f = true ∨ l1Apart s c.core ps = true) → c.holds f f.od (f.sub == 1) →
    ∃ (t : State) (d : Cohort), exec (.ld f) s = .next (t.setCohort d.complete) ∧ s.onlyAccess t ∧
      (∀ a, (ps.any fun p => coversLeaf p.out a) = false → memByte t.mem a = memByte s.mem a) ∧
      accessWrites c d f (c.writeMask f) f.od (f.sub == 1)
        (fun l => loadValue f (accSize f.sub) (s.touchPlans c x ps).mem (s.xlat (.core c.core) c.core x .load (c.ea f f.oa f.ob l)))
        (fun l => lanePending (s.xlat (.core c.core) c.core x .load (c.ea f f.oa f.ob l))) ∧
      accessTags c d (c.writeMask f) f.od (f.sub == 1) (loadShape c f ps)) ∧
  ∀ (s : State) (c : Cohort) (x : Ctx) (f : Fields) (p : LanePlan) (key : Nat) (leaf : Option TlbEntry) (line : Line), s.me? = some c →
    s.ctx? c.ctx = some x → c.role = .single → c.windows = [] → c.writeMask f ≠ 0 →
    s.planLanes c x .load (accSize f.sub) (c.writeMask f) (c.ea f f.oa f.ob) = [p] → p.out = .ok key 0 leaf false → inRegs key = false →
    s.plansTaken c (accSize f.sub) [p] = false →
    hintFR f = false → hintNL1 f = false → (s.core c.core).l1Data (key / 128) = some line → c.holds f f.od (f.sub == 1) →
    ∃ (t : State) (d : Cohort), exec (.ld f) s = .next (t.setCohort d.complete) ∧ s.onlyAccess t ∧
      (∀ a, coversLeaf p.out a = false → memByte t.mem a = memByte s.mem a) ∧
      accessWrites c d f (c.writeMask f) f.od (f.sub == 1)
        (fun _ => extended f (accSize f.sub) (leNat ((line.drop (key % 128)).take (accSize f.sub)))) (fun _ => false) ∧
      accessTags c d (c.writeMask f) f.od (f.sub == 1) (if c.baseU f.oa then .u else .g)

/-- ST whose lanes all go through (R107, R108, R119, R125, R446, R447): each resident lane's bytes are laid over memory in ascending lane order, so
that the highest lane's byte stands; every byte that no lane stores to stays, but for the A and D bits of the leaf entries used; no register changes.
(No store keeps a pre-image, and no word of the lanes stands between the halves of another's atomic.) The second part is a store of one lane to a WC page
that is no release: its bytes go to the combining buffer, and memory keeps its own. Completes here: st. -/
def Obligations.StoreResult : Prop :=
  (∀ (s : State) (c : Cohort) (x : Ctx) (f : Fields) (ps : List LanePlan) (rel : Bool), s.me? = some c → s.ctx? c.ctx = some x → c.role = .single →
    c.writeMask f ≠ 0 → (c.hmode && anyTile x (c.writeMask f) (c.ea f f.oa f.ob)) = false →
    ps = s.planLanes c x .store (accSize f.sub) (c.writeMask f) (c.ea f f.oa f.ob) → rel = (f.ord == .release || ps.any planSO) →
    ps.all (laneReaches s (accSize f.sub) (if rel then [0, 1, 2, 3] else [0, 2, 3])) = true → s.plansBlocked c ps false = false →
    s.plansTaken c (accSize f.sub) ps = false → s.plainStores → (rel = true → s.canRelease c) → c.holds f .none false →
    ∃ (t : State) (d : Cohort), exec (.st f) s = .next (t.setCohort d.complete) ∧ s.onlyAccess t ∧
      (∀ a, (ps.any fun p => coversLeaf p.out a) = false → memByte t.mem a =
        memByte (storeFold (accSize f.sub) (fun l => (if f.sub = 1 then (c.opnd64 f f.oc l).toNat else (s.opnd c f f.oc l).toNat) % 2 ^ (8 * accSize f.sub))
          ps s.mem) a) ∧
      (∀ a, (ps.any fun p => covers p.out (accSize f.sub) a || coversLeaf p.out a) = false → memByte t.mem a = memByte s.mem a) ∧
      accessWrites c d f (c.writeMask f) .none false (fun _ => 0)
        (fun l => lanePending (s.xlat (.core c.core) c.core x .store (c.ea f f.oa f.ob l)))) ∧
  ∀ (s : State) (c : Cohort) (x : Ctx) (f : Fields) (p : LanePlan) (key v : Nat) (leaf : Option TlbEntry), s.me? = some c → s.ctx? c.ctx = some x →
    c.role = .single → c.writeMask f ≠ 0 → s.planLanes c x .store (accSize f.sub) (c.writeMask f) (c.ea f f.oa f.ob) = [p] →
    p.out = .ok key 1 leaf false → inRegs key = false → f.ord ≠ .release → s.plansTaken c (accSize f.sub) [p] = false → (s.core c.core).wc.length < 8 →
    (∀ w ∈ (s.core c.core).wc, w.line = key / 128 → w.bytes.length + accSize f.sub < 128) → c.holds f .none false →
    v = (if f.sub = 1 then (c.opnd64 f f.oc p.lane).toNat else (s.opnd c f f.oc p.lane).toNat) →
    ∃ (t : State) (d : Cohort) (w : WcLine), exec (.st f) s = .next (t.setCohort d.complete) ∧ s.onlyAccess t ∧
      (∀ a, coversLeaf p.out a = false → memByte t.mem a = memByte s.mem a) ∧ w ∈ (t.core c.core).wc ∧ w.line = key / 128 ∧
      w.last = s.cycle (c.core / 96) ∧ (∀ i, i < accSize f.sub → (key % 128 + i, BitVec.ofNat 8 (v / 256 ^ i)) ∈ w.bytes) ∧
      accessWrites c d f (c.writeMask f) .none false (fun _ => 0) fun _ => false

/-- ATOM whose lanes all go through (R119, R125, R342 to R344): the lanes read and write their words one after the other in ascending order, each
takes the word it read, 0 where its page is not resident, into a G register (R60), and no byte outside those words changes but the A and D bits of the
leaf entries used. (No lane reaches a device word of the host, and no store keeps a pre-image.) The second part is one lane at such a word (R142): the read is one turn,
after which the cohort waits with what it read, and the write of the new value is the next, whatever a host store has put there in between. Completes
here: atom. -/
def Obligations.AtomicResult : Prop :=
  (∀ (s : State) (c : Cohort) (x : Ctx) (f : Fields) (ps : List LanePlan) (cmp v : Nat → Word), s.me? = some c → s.ctx? c.ctx = some x →
    c.role = .single → c.writeMask f ≠ 0 → (c.hmode && anyTile x (c.writeMask f) (c.ea f f.oa f.ob)) = false →
    ps = s.planLanes c x .atomic 4 (c.writeMask f) (c.ea f f.oa f.ob) →
    ps.all (laneReaches s 4 [0, 2, 3]) = true → ps.all (fun p => !p.out.twoStep) = true → s.plansBlocked c ps false = false →
    s.plansTaken c 4 ps = false → s.plainStores → c.rmw = none → leavesApart 4 ps = true →
    ((f.ord == .release || f.ord == .acqRel || ps.any planSO) = true → s.canRelease c) → c.holds f f.od false →
    (cmp = fun l => if f.sub = 7 then DWord.lo (c.opnd64 f f.oc l) else 0) →
    (v = fun l => if f.sub = 7 then DWord.hi (c.opnd64 f f.oc l) else s.opnd c f f.oc l) →
    ∃ (t : State) (d : Cohort), exec (.atom f) s = .next (t.setCohort d.complete) ∧ s.onlyAccess t ∧
      (∀ a, (ps.any fun p => coversLeaf p.out a) = false → memByte t.mem a = memByte (rmwFold (atomWrites f cmp v) ps s.mem).2 a) ∧
      (∀ a, (ps.any fun p => covers p.out 4 a || coversLeaf p.out a) = false → memByte t.mem a = memByte s.mem a) ∧
      accessWrites c d f (c.writeMask f) f.od false
        (fun l => (((rmwFold (atomWrites f cmp v) ps s.mem).1.find? fun p => p.1 == l).map fun p => p.2.setWidth 64).getD 0)
        (fun l => lanePending (s.xlat (.core c.core) c.core x .atomic (c.ea f f.oa f.ob l))) ∧
      accessTags c d (c.writeMask f) f.od false .g) ∧
  ∀ (s : State) (c : Cohort) (x : Ctx) (f : Fields) (p : LanePlan) (key : Nat) (leaf : Option TlbEntry) (cmp v : Word), s.me? = some c →
    s.ctx? c.ctx = some x → c.role = .single → c.writeMask f ≠ 0 → (c.hmode && anyTile x (c.writeMask f) (c.ea f f.oa f.ob)) = false →
    s.planLanes c x .atomic 4 (c.writeMask f) (c.ea f f.oa f.ob) = [p] → p.out = .ok key 2 leaf false → hostBase ≤ key → key < 2 ^ 52 →
    s.poisoned key 4 = false → s.plansTaken c 4 [p] = false → s.plainStores → f.ord ≠ .release → f.ord ≠ .acqRel → c.holds f f.od false →
    cmp = (if f.sub = 7 then DWord.lo (c.opnd64 f f.oc p.lane) else 0) →
    v = (if f.sub = 7 then DWord.hi (c.opnd64 f f.oc p.lane) else s.opnd c f f.oc p.lane) →
    (c.rmw = none → ∃ t : State, exec (.atom f) s = .next (t.setCohort
        { c with rmw := some { Rmw.start with read := some (key, BitVec.ofNat 32 (memNat t.mem key 4)), words := [key] }, wait := .retry }) ∧
      s.onlyAccess t ∧
      ∀ a, coversLeaf p.out a = false → memByte t.mem a = memByte s.mem a) ∧
    ∀ old k r, c.rmw = some r → r.read = some (k, old) → r.done = [] → r.dead = 0 →
      ∃ (t : State) (d : Cohort), exec (.atom f) s = .next (t.setCohort d.complete) ∧ s.onlyAccess t ∧ d.rmw = none ∧
      (∀ a, coversLeaf p.out a = false → memByte t.mem a = memByte (match atomWrites f (fun _ => cmp) (fun _ => v) p.lane old with
        | some w => memPut s.mem key 4 w.toNat
        | none => s.mem) a) ∧
      accessWrites { c with rmw := none } d f (c.writeMask f) f.od false (fun _ => old.setWidth 64) (fun _ => false) ∧
      accessTags c d (c.writeMask f) f.od false .g

/-- RED whose lanes all go through (R119, R125, R433): as ATOM without a returned value. Completes here: red. -/
def Obligations.ReductionResult : Prop :=
  ∀ (s : State) (c : Cohort) (x : Ctx) (f : Fields) (ps : List LanePlan), s.me? = some c → s.ctx? c.ctx = some x →
    c.role = .single → f.sub ≠ 7 → c.writeMask f ≠ 0 → (c.hmode && anyTile x (c.writeMask f) (c.ea f f.oa f.ob)) = false →
    ps = s.planLanes c x .atomic 4 (c.writeMask f) (c.ea f f.oa f.ob) →
    ps.all (laneReaches s 4 [0, 2, 3]) = true → ps.all (fun p => !p.out.twoStep) = true → s.plansBlocked c ps false = false →
    s.plansTaken c 4 ps = false → s.plainStores → c.rmw = none → leavesApart 4 ps = true →
    ((f.ord == .release || ps.any planSO) = true → s.canRelease c) → c.holds f .none false →
    ∃ (t : State) (d : Cohort), exec (.red f) s = .next (t.setCohort d.complete) ∧ s.onlyAccess t ∧
      (∀ a, (ps.any fun p => coversLeaf p.out a) = false →
        memByte t.mem a = memByte (rmwFold (atomWrites f (fun _ => 0) (s.opnd c f f.oc)) ps s.mem).2 a) ∧
      (∀ a, (ps.any fun p => covers p.out 4 a || coversLeaf p.out a) = false → memByte t.mem a = memByte s.mem a) ∧
      accessWrites c d f (c.writeMask f) .none false (fun _ => 0)
        (fun l => lanePending (s.xlat (.core c.core) c.core x .atomic (c.ea f f.oa f.ob l)))

/-- A lane memory instruction of which a lane faults (R96, R97, R405): $CAUSE takes the group of the lowest faulting lane, which is 4 for an address
with a bit of [63:53] set and 3 for a misaligned one, the context stops, and no register, no predicate and no byte of memory is written, but for
the A bits of the leaf entries that other lanes used. -/
def Obligations.FaultingAccessWritesNothing : Prop :=
  ∀ (i : Instr) (s : State) (c : Cohort) (x : Ctx) (f : Fields) (acc : Acc) (n : Nat) (ps : List LanePlan) (p : LanePlan),
    accessOf i = some (f, acc, n) → s.me? = some c → s.ctx? c.ctx = some x → x.halt = false → (c.raised && !c.hmode) = false → c.writeMask f ≠ 0 →
    (acc = .load ∨ (c.hmode && anyTile x (c.writeMask f) (c.ea f f.oa f.ob)) = false) →
    ps = s.planLanes c x acc n (c.writeMask f) (c.ea f f.oa f.ob) → ps.find? LanePlan.faults = some p →
    (2 ^ 53 ≤ p.va.toNat → p.group = 4 ∧ p.reason = 1) ∧ (p.va.toNat < 2 ^ 53 → p.va.toNat % n ≠ 0 → p.group = 3) ∧
    ∃ (t : State) (d : Cohort) (y : Ctx), exec i s = .next t ∧ t.cohort? c.cid = some d ∧ t.ctx? c.ctx = some y ∧ y.halt = true ∧
      d.cause = BitVec.ofNat 5 p.group ∧ d.epc = c.here.pc ∧ d.regs = c.regs ∧ d.preds = c.preds ∧
      (∀ a, (ps.any fun q => coversLeaf q.out a) = false → memByte t.mem a = memByte s.mem a)

/-- PREF, CCTL, FENCE and PGREQ (R108, R366, R385, R426, R430): PREF changes no byte but A bits and no register but its residency predicate; CCTL
empties the caches of the cores in its scope, and an invalidation completes when no access translated before is still to be performed there (R116); a
FENCE of any ordering leaves the core's combining buffer empty and moves on, one with a release once no register write of the cohort is held (where the
buffer holds no word that stands between the halves of an atomic: R142); PGREQ on resident pages clears its predicate in the lanes of the write mask. Complete here: pref, cctl, fence, pgreq. -/
def Obligations.MemoryHints : Prop :=
  ∀ (s : State) (c : Cohort) (x : Ctx) (f : Fields), s.me? = some c → s.ctx? c.ctx = some x → c.role = .single → c.writeMask f ≠ 0 →
    (∀ ps, ps = s.planLanes c x .load 1 (c.writeMask f) (c.ea f f.oa f.ob) → ps.any LanePlan.faults = false → c.holds f .none false →
      ∃ (t : State) (d : Cohort), exec (.pref f) s = .next (t.setCohort d.complete) ∧ s.onlyAccess t ∧
        (∀ a, (ps.any fun p => coversLeaf p.out a) = false → memByte t.mem a = memByte s.mem a) ∧
        accessWrites c d f (c.writeMask f) .none false (fun _ => 0)
          (fun l => lanePending (s.xlat (.core c.core) c.core x .load (c.ea f f.oa f.ob l)))) ∧
    (f.sub = 0 → exec (.cctl f) s = .next ((s.mapCores (coreInScope f.scp c.core) fun k => { k with l1 := [] }).setCohort c.complete)) ∧
    (f.sub = 2 → exec (.cctl f) s = .next ((s.mapCores (coreInScope f.scp c.core) fun k => { k with ibuf := [] }).setCohort c.complete)) ∧
    (f.sub = 1 → f.oa = .none → s.translated c.ctx none (coreInScope f.scp c.core) = false →
      (s.cores.any fun k => coreInScope f.scp c.core k.core && s.wcTaken k.core) = false → ∃ t : State, exec (.cctl f) s = .next (t.setCohort c.complete) ∧
      (∀ k ∈ t.cores, coreInScope f.scp c.core k.core = true → ∀ e ∈ k.tlb, e.ctx ≠ c.ctx) ∧
      (∀ q ∈ t.quads, quadMeets f.scp c.core q.quad = true → (∀ e ∈ q.tlb, e.ctx ≠ c.ctx) ∧ ∀ e ∈ q.walk, e.ctx ≠ c.ctx) ∧
      ∀ d ∈ t.dies, dieMeets f.scp c.core d.die = true → ∀ e ∈ d.walk, e.ctx ≠ c.ctx) ∧
    ((f.ord = .acquire ∨ s.holdsWrite c.cid = false) → s.wcTaken c.core = false → ∃ t : State, exec (.fence f) s = .next (t.setCohort c.complete) ∧ t = s.release c.core ∧
      (t.core c.core).wc = [] ∧ ((s.core c.core).wc = [] → t = s)) ∧
    (∀ p : BitVec 3, f.od = .p p → (p ≠ 7 → p.toNat < c.preds.length) → (∀ l ∈ laneList (c.writeMask f), pgreqBad x (c.ea f f.oa f.ob l) = 0) →
      (∀ va ∈ s.pgreqPages x (c.writeMask f) (c.ea f f.oa f.ob), s.pageFate c x va = .resident) →
      ∃ (t : State) (d : Cohort), exec (.pgreq f) s = .next (t.setCohort d.complete) ∧ t.mem = s.mem ∧
        t = { s with pageReqs := t.pageReqs } ∧ predWrite c d (c.writeMask f) p fun _ => false)

/-! ### Barriers, baton, banks, waits -/

/-- BARINIT, ARRIVE and BWAIT on a reachable object (R340, R349, R360): BARINIT lays a fresh object down, ARRIVE counts down and returns the phase it
arrived in, BWAIT goes on once the phase has passed its token and waits otherwise; no other byte changes but A and D bits of the leaf. (A cohort of no
Indigo pair that has nothing to drain; no store keeps a pre-image.) An arrival takes PEND down by one; the arrival that takes it to 0 moves PHASE on
by one modulo 2^16, sets PEND to EXPECT again, clears STATUS and records the generation. Complete here: barinit, arrive, bwait. -/
def Obligations.BarrierObjects : Prop :=
  (∀ (s : State) (c : Cohort) (x : Ctx) (f : Fields) (va : DWord) (key o : Nat), s.me? = some c → s.ctx? c.ctx = some x → c.role = .single →
    s.canRelease c → s.plainStores → c.writeMask f ≠ 0 → va = c.opnd64 f f.oa (elect (c.writeMask f)) → s.objectAt c x va key → o = memNat s.mem key 32 →
    ((∀ g r, s.xlat (.core c.core) c.core x .store va ≠ .fault g r) →
      (∀ n, n = (s.opnd c f f.ob (elect (c.writeMask f))).toNat → 1 ≤ n → n ≤ 65535 →
        ∃ t : State, exec (.barinit f) s = .next (t.setCohort c.complete) ∧ s.onlyAccess t ∧
          memNat t.mem key 32 = objMake n n 0 f.scp.code.toNat 0 0 0 ∧ onlyBytes s.mem t.mem key 32 (s.xlat (.core c.core) c.core x .load va)) ∧
      (s.poisoned key 32 = false → objExpect o ≠ 0 →
        ∃ t : State, exec (.arrive f) s = .next (t.setCohort (c.putUniformOpt f.od (BitVec.ofNat 32 (objPhase o))).complete) ∧ s.onlyAccess t ∧
          memNat t.mem key 32 = objArrive o s.mgen ∧ onlyBytes s.mem t.mem key 32 (s.xlat (.core c.core) c.core x .load va))) ∧
    (s.poisoned key 32 = false → ∀ d, d = (objPhase o + 65536 - (s.opnd c f f.ob (elect (c.writeMask f))).toNat % 65536) % 65536 →
      (1 ≤ d → d < 2 ^ 15 → ∃ t : State, exec (.bwait f) s =
          .next (t.setCohort (c.putPredOpt (c.writeMask f) f.od (if bitsOf o 57 56 % 2 = 1 then c.writeMask f else 0)).complete) ∧
        s.onlyAccess t ∧ onlyBytes s.mem t.mem key 0 (s.xlat (.core c.core) c.core x .load va)) ∧
      (d = 0 ∨ 2 ^ 15 ≤ d → ∃ t : State, exec (.bwait f) s = .next (t.setCohort { c with wait := .retry }) ∧
        s.onlyAccess t ∧ onlyBytes s.mem t.mem key 0 (s.xlat (.core c.core) c.core x .load va)))) ∧
  ∀ (o : Nat) (g : Word), o < 2 ^ 256 → objPend o ≠ 0 →
    objExpect (objArrive o g) = objExpect o ∧
    (objPend o ≠ 1 → objPend (objArrive o g) = objPend o - 1 ∧ objPhase (objArrive o g) = objPhase o) ∧
    (objPend o = 1 → objPend (objArrive o g) = objExpect o ∧ objPhase (objArrive o g) = (objPhase o + 1) % 65536 ∧
      bitsOf (objArrive o g) 57 56 = 0 ∧ bitsOf (objArrive o g) 159 128 = g.toNat) ∧
    (∀ lo, 64 ≤ lo → lo < 128 → bitsOf (objArrive o g) lo lo = bitsOf o lo lo)

/-- BAR at every scope (R346, R347, R348): the cohort stands an arrival; while a participant has none the cohort waits, and the last arrival lets
every participant go on with OD 0 in the lanes of its write mask. At `.pod`, while a cohort of the workgroup has none or a rank of the POD is not
active, the cohort waits; then ARRIVE goes to the root, the POD's lowest rank, or the root counts its own, and the last that it counts completes the phase
(R194). In a package without a table the workgroup's cohorts are the participants, which is the model's choice (log entry 98). Completes here: bar. -/
def Obligations.BarCompletes : Prop :=
  ∀ (s : State) (c d : Cohort) (f : Fields), s.me? = some c → s.canRelease c → c.role = .single → c.writeMask f ≠ 0 →
    (f.scp = .quad → (s.launchOf c).any (fun l => l.kern.qg) = true) → d = { c with wait := .bar f.scp f.od (c.writeMask f) } →
    (f.scp ≠ .pod →
      ((s.setCohort d).absentParticipant f.scp d = true ∨ (∃ e ∈ s.cohorts, e.cid ≠ c.cid ∧ sameInstance f.scp d e = true ∧ e.atBar f.scp = false) →
        exec (.bar f) s = .next (s.setCohort d)) ∧
      ((s.setCohort d).absentParticipant f.scp d = false → (∀ e ∈ s.cohorts, e.cid ≠ c.cid → sameInstance f.scp d e = true → e.atBar f.scp = true) →
        ∃ t : State, exec (.bar f) s = .next t ∧ t.cohort? c.cid = some (c.putPredOpt (c.writeMask f) f.od 0).complete ∧
          (∀ e ∈ s.cohorts, e.cid ≠ c.cid → sameInstance f.scp d e = true → e.barDone false ∈ t.cohorts) ∧
          (∀ e ∈ s.cohorts, e.cid ≠ c.cid → sameInstance f.scp d e = false → e ∈ t.cohorts) ∧
          t = { s with cohorts := t.cohorts })) ∧
    (f.scp = .pod → s.podRanks = [] → (s.podBar (s.podKey c)).arrived = [] → (s.podBar (s.podKey c)).sentAt = none →
      (∀ e ∈ s.cohorts, e.launch = c.launch → e.wgid = c.wgid → e.cid ≠ c.cid → e.atBar .pod = true) →
      ∃ t : State, exec (.bar f) s = .next t ∧
        t.cohort? c.cid = some { (c.putPredOpt (c.writeMask f) f.od 0).complete with podPhase := c.podPhase + 1 } ∧ t.mem = s.mem) ∧
    (∀ u b root rest die phase, f.scp = .pod → u = s.setCohort d → u.podRanks = root :: rest → b = u.podBar (u.podKey d) → die = c.core / 96 →
      phase = BitVec.ofNat 16 c.podPhase →
      (((∃ e ∈ s.cohorts, e.cid ≠ c.cid ∧ e.launch = c.launch ∧ e.wgid = c.wgid ∧ e.atBar .pod = false) ∨ (∃ e ∈ u.podRanks, e.state ≠ 0)) →
        exec (.bar f) s = .next u) ∧
      ((∀ e ∈ s.cohorts, e.cid ≠ c.cid → e.launch = c.launch → e.wgid = c.wgid → e.atBar .pod = true) → (∀ e ∈ u.podRanks, e.state = 0) → b.sentAt = none →
        (root.faddr ≠ s.faddr → exec (.bar f) s = .next ((u.setPodBar { b with sentAt := some (s.cycle die) }).send die
          (u.packetTo die root.faddr 0 0 (.podArrive (u.podPkt b phase))))) ∧
        (∀ arr, root.faddr = s.faddr → arr = (if b.arrived.contains (s.faddr, phase) then b.arrived else (s.faddr, phase) :: b.arrived) →
          ((arr.filter fun a => a.2 == phase).length < rest.length + 1 → exec (.bar f) s = .next (u.setPodBar { b with arrived := arr })) ∧
          (rest.length + 1 ≤ (arr.filter fun a => a.2 == phase).length → ∃ t : State, exec (.bar f) s = .next t ∧ t.mem = s.mem ∧
            t.cohort? c.cid = some { (c.putPredOpt (c.writeMask f) f.od 0).complete with podPhase := c.podPhase + 1 } ∧
            ∀ e ∈ s.cohorts, e.cid ≠ c.cid → e.launch = c.launch → e.wgid = c.wgid → e.ctx = c.ctx →
              { e.barDone false with podPhase := e.podPhase + 1 } ∈ t.cohorts))))

/-- BTAKE and BPASS (R153, R354, R358): a free baton is taken; a held one is waited for; the holder's BPASS drops the A-operand latch and gives the
baton to the waiting taker with the highest $PRIO, then the oldest, or frees it; a second BTAKE and a BPASS without the baton raise group 10. Complete
here: btake, bpass. -/
def Obligations.BatonMoves : Prop :=
  ∀ (s : State) (c : Cohort) (f : Fields), s.me? = some c → c.writeMask f ≠ 0 →
    ((s.core c.core).baton = none →
      exec (.btake f) s = .next ((s.setCore { s.core c.core with baton := some c.cid }).setCohort c.complete)) ∧
    (∀ k, (s.core c.core).baton = some k → k ≠ c.cid → exec (.btake f) s = .next (s.setCohort { c with wait := .baton })) ∧
    ((s.core c.core).baton = some c.cid → exec (.btake f) s = .next (s.raiseReason c 10 9)) ∧
    ((s.core c.core).baton ≠ some c.cid → exec (.bpass f) s = .next (s.raiseReason c 10 10)) ∧
    ((s.core c.core).baton = some c.cid → s.takers c.core = [] →
      exec (.bpass f) s = .next ((s.setCore { s.core c.core with baton := none }).setCohort ({ c with latch := none } : Cohort).complete)) ∧
    (∀ b, (s.core c.core).baton = some c.cid → bestBy Cohort.ranksAbove (s.takers c.core) = some b → b.cid ≠ c.cid →
      ∃ t : State, exec (.bpass f) s = .next (t.setCohort ({ c with latch := none } : Cohort).complete) ∧ (t.core c.core).baton = some b.cid ∧
        t.mem = s.mem)

/-- ACCALLOC and ACCFREE (R150, R152, R335, R337): with no other request waiting and enough free banks the n lowest free banks go to the cohort, set
to +0, under the next serial, and the handle is returned in a register, which then needs no row (R59); ACCFREE ends the allocation, and a bank returns
at once unless an accepted MMA or EPI still touches it. Complete here: accalloc, accfree. -/
def Obligations.BanksAreGranted : Prop :=
  ∀ (s : State) (c : Cohort) (f : Fields) (k : CoreState), s.me? = some c → c.writeMask f ≠ 0 → k = s.core c.core → k.bankQ = [] →
    (∀ n, n = (s.opnd c f f.oa (elect (c.writeMask f))).toNat → 1 ≤ n → n ≤ 32 → c.handle = none →
      n ≤ (k.banks.filter fun b => b.owner.isNone).length →
      ∃ (t : State) (d : Cohort), exec (.accalloc f) s = .next t ∧ t.mem = s.mem ∧ (t.core c.core).serial = k.serial + 1 ∧ t.cohort? c.cid = some d ∧
        d = { (({ c with handle := some (handleOf n (k.serial + 1)), accReq := 0, waitSeq := s.fresh } : Cohort).putUniformOpt f.od
          (handleOf n (k.serial + 1))).complete with rows := d.rows, spilled := d.spilled } ∧
        ∀ b, b < 32 → (t.core c.core).banks[b]? =
          if b ∈ ((List.range 32).filter fun i => ((k.banks[i]?).map fun y => y.owner.isNone).getD false).take n
          then (k.banks[b]?).map fun _ => { owner := some c.cid, freed := false, vals := [] } else k.banks[b]?) ∧
    (c.handleOk (opndIndex f.oa) = true →
      ∃ t : State, exec (.accfree f) s = .next t ∧ t.mem = s.mem ∧ t.cohort? c.cid = some ({ c with handle := none } : Cohort).complete ∧
        ∀ (b : Nat) (y : Bank), k.banks[b]? = some y → (t.core c.core).banks[b]? = some
          (if y.owner = some c.cid then (if s.bankBusy c.core b then { y with freed := true } else { owner := none, freed := false, vals := [] }) else y))

/-- AWAITC, CWAIT, CWAIT.split and PGREQ.split (R216, R345, R375, R426): each waits or goes on by its comparison; a split form takes the lowest free
entry of its die's wait table and writes its handle. (A cohort of no Indigo pair.) Complete here: awaitc, cwait, cwaitSplit, pgreqSplit. -/
def Obligations.CounterWaits : Prop :=
  ∀ (s : State) (c : Cohort) (x : Ctx) (f : Fields), s.me? = some c → s.ctx? c.ctx = some x → c.role = .single → c.writeMask f ≠ 0 →
    ((c.arrive - s.opnd c f f.oa (elect (c.writeMask f))).toNat < 2 ^ 31 → exec (.awaitc f) s = .next (s.setCohort c.complete)) ∧
    (2 ^ 31 ≤ (c.arrive - s.opnd c f f.oa (elect (c.writeMask f))).toNat → exec (.awaitc f) s = .next (s.setCohort { c with wait := .retry })) ∧
    (∀ (va : DWord) (key : Nat) (mt : BitVec 2) (leaf : Option TlbEntry) (tile : Bool), va = c.opnd64 f f.oa (elect (c.writeMask f)) → va.toNat % 8 = 0 →
      s.xlat (.core c.core) c.core x .load va = .ok key mt leaf tile →
      (inRegs key = false → s.poisoned key 8 = false → (∀ e, leaf = some e → e.leaf < key ∨ key + 8 ≤ e.leaf) →
        ((s.opnd c f f.ob (elect (c.writeMask f))).toNat ≤ memNat s.mem key 8 →
          ∃ t : State, exec (.cwait f) s = .next (t.setCohort c.complete) ∧ s.onlyAccess t ∧ onlyBytes s.mem t.mem key 0 (.ok key mt leaf tile)) ∧
        (memNat s.mem key 8 < (s.opnd c f f.ob (elect (c.writeMask f))).toNat →
          ∃ t : State, exec (.cwait f) s = .next (t.setCohort { c with wait := .retry }) ∧ s.onlyAccess t)) ∧
      (∀ i, s.freeWait (c.core / 96) = some i →
        ∃ (t : State) (e : WaitEntry), exec (.cwaitSplit f) s = .next (t.setCohort (c.putUniformOpt f.od (BitVec.ofNat 32 (2 * 2 ^ 28 + i))).complete) ∧
          t.waitTable = s.waitTable ++ [e] ∧ e.die = c.core / 96 ∧ e.index = i ∧ e.cid = c.cid ∧ e.done = none ∧
          e.op = .counter key va ((s.opnd c f f.ob (elect (c.writeMask f))).setWidth 64) f.scp ∧ onlyBytes s.mem t.mem key 0 (.ok key mt leaf tile))) ∧
    (∀ i, (∀ l ∈ laneList (c.writeMask f), pgreqBad x (c.ea f f.oa f.ob l) = 0) →
      (∀ va ∈ s.pgreqPages x (c.writeMask f) (c.ea f f.oa f.ob), s.pageFate c x va = .resident) → s.freeWait (c.core / 96) = some i →
      ∃ (t : State) (e : WaitEntry), exec (.pgreqSplit f) s = .next (t.setCohort (c.putUniformOpt f.od (BitVec.ofNat 32 (2 ^ 28 + i))).complete) ∧
        t.waitTable = s.waitTable ++ [e] ∧ e.index = i ∧ e.op = .pages (s.pgreqPages x (c.writeMask f) (c.ea f f.oa f.ob)) ∧
        (∃ q, e.done = some (0, q)) ∧ t.mem = s.mem)

/-- RWR and RWR.vec in a quad group (R219, R437): a landing for the cohort that the operands name is on its way, with the elected lane's word, or with
the whole register for RWR.vec, and the sender goes on; a position above 3 or a cohort number that the launch does not have raises group 4, reason 8;
outside a quad group both are refused with group 1, reason 9. Complete here: rwr, rwrVec. -/
def Obligations.RemoteWrites : Prop :=
  ∀ (s : State) (c : Cohort) (f : Fields) (l : Launch) (pos chid : Nat), s.me? = some c → s.launchOf c = some l →
    pos = (s.opnd c f f.ob (elect (c.writeMask f))).toNat → chid = (s.opnd c f f.oc (elect (c.writeMask f))).toNat →
    (l.kern.qg = false → ∀ i ∈ [Instr.rwr f, .rwrVec f], ∃ detail, exec i s = .next (s.raise c 1 detail (c.plainRecs 0 1 9))) ∧
    (l.kern.qg = true → c.writeMask f = 0 → ∀ i ∈ [Instr.rwr f, .rwrVec f], exec i s = .next (s.setCohort c.complete)) ∧
    (l.kern.qg = true → c.writeMask f ≠ 0 → (3 < pos ∨ c.nch.toNat ≤ chid) → ∀ i ∈ [Instr.rwr f, .rwrVec f],
      exec i s = .next (s.raiseElected c (elect (c.writeMask f)) 4 8 0 0)) ∧
    (l.kern.qg = true → c.writeMask f ≠ 0 → pos ≤ 3 → chid < c.nch.toNat → c.role = .single → s.canRelease c →
      (s.saved.any fun v => v.wg.launch == c.launch && v.wg.wgid == c.wgid.toNat / 4 * 4 + pos) = false →
      (∀ d, s.cohorts.find? (fun e => e.launch == c.launch && e.wgid.toNat == c.wgid.toNat / 4 * 4 + pos && e.chid.toNat == chid) = some d →
        exec (.rwr f) s = .next (({ s with landings := s.landings ++
          [{ sender := c.cid, target := d.cid, reg := opndIndex f.od, val := .u (s.opnd c f f.oa (elect (c.writeMask f))) }] } : State).setCohort c.complete) ∧
        exec (.rwrVec f) s = .next (({ s with landings := s.landings ++
          [{ sender := c.cid, target := d.cid, reg := opndIndex f.od, val := s.src c f f.oa }] } : State).setCohort c.complete)) ∧
      (s.cohorts.find? (fun e => e.launch == c.launch && e.wgid.toNat == c.wgid.toNat / 4 * 4 + pos && e.chid.toNat == chid) = none →
        exec (.rwr f) s = .next (s.setCohort c.complete) ∧ exec (.rwrVec f) s = .next (s.setCohort c.complete)))

/-- TWIN, TMARK, GATE and LREL (R109, R146, R213, R392, R410, R448, R451): a descriptor inside the region is set, one outside raises group 4, reason
7; TMARK makes exactly the named lines of the window full or empty; GATE waits while its predecessor has not released; LREL counts the cohort as
released. Complete here: twin, tmark, gate, lrel. -/
def Obligations.TilesAndLaunchOrder : Prop :=
  ∀ (s : State) (c : Cohort) (f : Fields), s.me? = some c → c.role = .single → s.canRelease c →
    (∀ d, c.writeMask f ≠ 0 → d = s.opnd c f f.oa (elect (c.writeMask f)) →
      (descBase d + descLines d ≤ (s.regionOf c).2 →
        exec (.twin f) s = .next (s.setCohort ({ c with tiles := c.tiles.set (opndIndex f.od) (some d) } : Cohort).complete)) ∧
      ((s.regionOf c).2 < descBase d + descLines d → exec (.twin f) s = .next (s.raiseElected c (elect (c.writeMask f)) 4 7 0 0))) ∧
    (∀ d first k, c.writeMask f ≠ 0 → first = (s.opnd c f f.ob (elect (c.writeMask f))).toNat → k = (s.opnd c f f.oc (elect (c.writeMask f))).toNat →
      0 < k → c.tileOf f.oa = some d → first + k ≤ descLines d →
      (∀ n, (s.regionOf c).1 + descBase d + first ≤ n → n < (s.regionOf c).1 + descBase d + first + k → s.boardBlocks c.core n false = false) →
      ∃ t : State, exec (.tmark f) s = .next (t.setCohort c.complete) ∧ t.mem = s.mem ∧
        ∀ n, n ∈ (t.core c.core).full ↔
          if (s.regionOf c).1 + descBase d + first ≤ n ∧ n < (s.regionOf c).1 + descBase d + first + k then f.sub = 0 else n ∈ (s.core c.core).full) ∧
    (((s.launchOf c).all s.gateOpen = true → exec (.gate f) s = .next (s.setCohort c.complete)) ∧
      ((s.launchOf c).all s.gateOpen = false → exec (.gate f) s = .next (s.setCohort { c with wait := .retry }))) ∧
    exec (.lrel f) s = .next (s.setCohort ({ c with lrel := true } : Cohort).complete)

/-- CFENCE (R260, R368): while a collective or an RCOPY is in flight it waits. Otherwise it completes: with no table staged it writes OD with whether
$MGEN differs from the generation named; with one staged, and no stripe still to pull for the rollback, the package rolls back to the table's step,
the table is written out, and it is the adopted one afterwards, with its generation and, where no write of the membership page is held, its step; OD
tells whether its generation differs from the one named. While a stripe lacks it waits, with the pulls asked for. Where the table cannot be written out it
adopts without that write (the model's choice: log entry 91). Completes here: cfence. -/
def Obligations.FenceAdopts : Prop :=
  ∀ (s : State) (c : Cohort) (f : Fields), s.me? = some c → c.role = .single → s.canRelease c →
    (s.collsOpen = true → exec (.cfence f) s = .next (s.setCohort { c with wait := .retry })) ∧
    (s.collsOpen = false → s.staged = none → exec (.cfence f) s = .next (s.setCohort (c.putPredOpt (c.writeMask f) f.od
      (if s.mgen = s.opnd c f f.oa (elect (c.writeMask f)) then 0 else c.writeMask f)).complete)) ∧
    (∀ t, s.collsOpen = false → s.staged = some t → s.lacksStripe t = true →
      exec (.cfence f) s = .next ((fillMore 64 s t).setCohort { c with wait := .retry })) ∧
    (∀ t e u, s.collsOpen = false → s.staged = some t → s.lacksStripe t = false → (s.rollBack t.step).writeTable t = .error e → (∀ va, e ≠ .nonres va) →
      u = (s.rollBack t.step).adopt t → exec (.cfence f) s = .next (u.setCohort (c.putPredOpt (c.writeMask f) f.od
        (if t.gen = u.opnd c f f.oa (elect (c.writeMask f)) then 0 else c.writeMask f)).complete)) ∧
    (∀ t s2, s.collsOpen = false → s.staged = some t → s.lacksStripe t = false → (s.rollBack t.step).writeTable t = .ok s2 →
      ∃ u : State, u = s2.adopt t ∧ exec (.cfence f) s = .next (u.setCohort (c.putPredOpt (c.writeMask f) f.od
          (if t.gen = u.opnd c f f.oa (elect (c.writeMask f)) then 0 else c.writeMask f)).complete) ∧
        u.mgen = t.gen ∧ u.adopted = some t ∧ u.staged = none ∧ u.pkgRank = BitVec.ofNat 32 ((t.rankOf s2.faddr).getD 0) ∧
        (s2.heldWrites = [] → u.stepdone = t.step) ∧ u.mem = s2.mem) ∧
    (∀ t, s.staged = some t → s.memBlock = none → s.views = [] → s.lacksStripe t = false ∧
      ∃ s2 : State, (s.rollBack t.step).writeTable t = .ok s2 ∧ s2.mem = s.mem ∧ s2.faddr = s.faddr ∧ s2.heldWrites = s.heldWrites)

/-- PARK and EXIT (R132, R215, R217, R381, R382, R424). PARK under the conditions of R215 writes the continuation record at the cohort's spill base,
then what the combining buffer holds, the cohort and its workgroup leave the core, and the handle is parked on; without them it raises group 12,
reason 3. EXIT ends the lanes of its write mask; a cohort with no lane and no stack entry left leaves; a JOIN that it names goes down by one first (R214).
The one that takes it to 0 starts the successor of the block, or, where its words do not pass, writes their error code against the spawning packet and takes
the block's own signal down; while the front end cannot take it up it is queued there (R221). A JOIN that is 0 stays so, with code 8.
Complete here: park, exit. -/
def Obligations.CohortsLeave : Prop :=
  ∀ (s : State) (c : Cohort) (x : Ctx) (f : Fields), s.me? = some c → s.ctx? c.ctx = some x →
    (∀ l, s.launchOf c = some l →
      (s.parkOk c f l = none → exec (.park f) s = .next (s.raiseReason c 12 3)) ∧
      (∀ e s1, s.parkOk c f l = some e → s.holdsWrite c.cid = false → s.wcTaken c.core = false →
        s.vaWrite (.core c.core) c.core x c.spill.toNat (c.parkRecord (parkList f) ((c.reg (opndIndex f.oa)).lane 0)
          (match f.od with
            | .v i => some i.toNat
            | _ => none) l.queue l.seq l.kern.kdesc) = .ok s1 →
        ∃ t : State, exec (.park f) s = .next t ∧ t.cohort? c.cid = none ∧ t.wg? c.wg = none ∧
          t.mem = ((s1.unpin c c.spill.toNat).release c.core).mem ∧
          (∃ p ∈ t.parked, p.cid = c.cid ∧ p.addr = c.spill ∧ p.die = e.die ∧ p.index = e.index ∧ p.launch = c.launch) ∧
          ∀ w ∈ t.waitTable, w.die = e.die → w.index = e.index → w.parked = true)) ∧
    (c.role = .single → c.writeMask f ≠ 0 → s.canRelease c → ∀ os, os = [f.oa, f.ob, f.oc, f.oe].filter (· ≠ .none) →
      (os = [] → exec (.exit f) s = .next ((s.settleCohort (c.endLanes (c.writeMask f))).grantBanks c.core)) ∧
      (c.endLanes (c.writeMask f)).slot c.issuer = liveSlot (c.here.pc + 1) (c.here.mask &&& ~~~c.writeMask f) ∧
      (c.endLanes (c.writeMask f)).slot (!c.issuer) = c.slot (!c.issuer) ∧
      (os = [] → c.slot (!c.issuer) = none → c.here.mask &&& ~~~c.writeMask f = 0 → c.stack = [] → c.hmode = false →
        ∃ t : State, exec (.exit f) s = .next t ∧ t.cohort? c.cid = none ∧ t.mem = s.mem) ∧
      (∀ (o : Opnd) (va : DWord) (key : Nat) (mt : BitVec 2) (leaf : Option TlbEntry) (tile : Bool) (l : Launch), os = [o] →
        va = c.opnd64 f o (elect (c.writeMask f)) →
        va.toNat < 2 ^ 53 → va.toNat % 64 = 0 → s.xlat (.core c.core) c.core x .atomic va = .ok key mt leaf tile → s.poisoned key 4 = false →
        s.launchOf c = some l → s.plainStores → s.wordTaken c.cid key 4 = false → (∀ e, leaf = some e → e.leaf < key ∨ key + 4 ≤ e.leaf) →
        ∀ leave : State → State, (leave = fun t => ((t.fwCommit 0 noEvent).settleCohort (c.endLanes (c.writeMask f))).grantBanks c.core) →
        (memNat s.mem key 4 ≠ 0 → ∃ t : State, s.onlyAccess t ∧ memNat t.mem key 4 = memNat s.mem key 4 - 1 ∧
          onlyBytes s.mem t.mem key 4 (.ok key mt leaf tile) ∧
          (2 ≤ memNat s.mem key 4 → exec (.exit f) s = .next (leave t)) ∧
          (memNat s.mem key 4 = 1 → t.fwMay 0 (some l.queue) (· == .joinZero l.queue l.id va) = false →
            exec (.exit f) s = .next (leave (t.postEvent 0 (.joinZero l.queue l.id va)))) ∧
          (∀ bs v ws, memNat s.mem key 4 = 1 → t.fwMay 0 (some l.queue) (· == .joinZero l.queue l.id va) = true → t.feRead l.ctx va.toNat 64 = .ok (bs, v) →
            ws = ((List.range 8).map fun i => BitVec.ofNat 64 (recWord bs i)) →
            (∀ y w, v.checkLaunch l.ctx ws = .good y w →
              exec (.exit f) s = .next (leave (w.addLaunch fun id => y.launch id l.queue l.seq l.ctx true none (some l.id)))) ∧
            (∀ code n w w1 w2, v.checkLaunch l.ctx ws = .bad code n w → w.errRecord l.queue l.seq code va.toNat = .ok w1 →
              w1.signalDec l.ctx (recWord bs 5) = .ok w2 → exec (.exit f) s = .next (leave w2)))) ∧
        (memNat s.mem key 4 = 0 → ∃ t : State, s.onlyAccess t ∧ t.mem = s.mem ∧
          ∀ u, t.errRecord l.queue l.seq 8 va.toNat = .ok u → exec (.exit f) s = .next (leave u))))

/-! ### The matrix engine, engine commands, reward instructions -/

/-- MMA, MBATCH and MWAIT (R144, R151, R155 to R157, R411, R413, R414, R419): an MMA of the baton's holder that names a bank of its allocation and
enough lines joins its core's queue with its operands captured; MBATCH closes the open batch under the next number; MWAIT goes on when every closed
batch it covers is complete, waits while one is not, and raises group 10, reason 11, for a batch not yet closed. Complete here: mma, mbatch, mwait. -/
def Obligations.MatrixInstructions : Prop :=
  ∀ (s : State) (c : Cohort) (f : Fields), s.me? = some c → c.writeMask f ≠ 0 →
    (∀ bank d, (s.core c.core).baton = some c.cid → c.handleOk (opndIndex f.od) = true →
      (s.banksOf c)[bitsOf ((c.reg (opndIndex f.od + 1)).lane (elect (c.writeMask f))).toNat 4 0]? = some bank → c.tileOf f.ob = some d →
      (∀ n ∈ stepLines (f.sub.getLsbD 0) (s.opnd c f f.oc (elect (c.writeMask f))).toNat, n < descLines d) →
      (isMx f.typ = true → descSoff d ≠ 0 ∧
        descBase d + descSoff d + (scaleByte f.typ (s.opnd c f f.oc (elect (c.writeMask f))).toNat + 31) / 128 < (s.regionOf c).2) →
      (s.core c.core).mmaQ.length < 64 → s.holdsWrite c.cid = false → (c.role = .single ∨ c.windows = []) →
      ∃ (t : State) (a : Mma), exec (.mma f) s =
          .next (t.setCohort ({ c with latch := if f.ru then some (BitVec.ofNat 8 (opndIndex f.oa)) else none } : Cohort).complete) ∧
        t = { s.setCore { s.core c.core with mmaQ := (s.core c.core).mmaQ ++ [a] } with fresh := s.fresh + 1 } ∧
        a.cid = c.cid ∧ a.bank = bank ∧ a.batch = none ∧ a.lanes = c.writeMask f ∧ (a.typA, a.typB) = mmaTypes f ∧
        a.step = (s.opnd c f f.oc (elect (c.writeMask f))).toNat ∧ a.tr = f.sub.getLsbD 0 ∧ a.line0 = (s.regionOf c).1 + descBase d ∧
        ∀ i, i < 64 → a.aVals[i]? = some (Word.pair ((c.reg (opndIndex f.oa)).lane i) ((c.reg (opndIndex f.oa + 1)).lane i))) ∧
    ((s.core c.core).baton ≠ some c.cid → exec (.mma f) s = .next (s.raiseReason c 10 1)) ∧
    ((s.openBatches c).length < 16 →
      ∃ t : State, exec (.mbatch f) s = .next (t.setCohort (({ c with lastBatch := c.lastBatch + 1, closed := s.openBatches c ++ [c.lastBatch + 1] } : Cohort).putUniformOpt
          f.od ((c.lastBatch + 1).setWidth 32)).complete) ∧ t.mem = s.mem ∧
        ∀ m ∈ (t.core c.core).mmaQ, m.cid = c.cid → m.batch ≠ none) ∧
    (∀ n : BitVec 16, n = (s.opnd c f f.oa (elect (c.writeMask f))).setWidth 16 →
      (1 ≤ (n - c.lastBatch).toNat → (n - c.lastBatch).toNat < 2 ^ 15 → exec (.mwait f) s = .next (s.raiseReason c 10 11)) ∧
      (((n - c.lastBatch).toNat = 0 ∨ 2 ^ 15 ≤ (n - c.lastBatch).toNat) →
        ((∃ b ∈ s.openBatches c, (n - b).toNat < 2 ^ 15) → exec (.mwait f) s = .next (s.setCohort { c with wait := .retry })) ∧
        ((∀ b ∈ s.openBatches c, 2 ^ 15 ≤ (n - b).toNat) →
          exec (.mwait f) s = .next (s.setCohort ({ c with closed := s.openBatches c } : Cohort).complete))))

/-- COPY, GATHER and SCATTER whose addresses, record, tile register and counter pass their checks are accepted as a job at the end of their core's
jobs, with the record copied and the counter translated, and the cohort moves on (R137, R166 to R174, R371, R393, R439). Complete here: copy, gather,
scatter. -/
def Obligations.TensorCommands : Prop :=
  ∀ (s s1 : State) (c : Cohort) (x : Ctx) (f : Fields) (i : Instr) (kind : JobKind) (rows : Bool) (ra ca ia : DWord) (d : Word) (bs : List Byte)
    (key count : Nat) (leaf : Option TlbEntry) (tile : Bool), s.me? = some c → s.ctx? c.ctx = some x → c.role = .single → s.holdsWrite c.cid = false →
    ((i = .copy f ∧ rows = false ∧ kind = if f.sub = 0 then .copyLd else .copySt) ∨ (i = .gather f ∧ rows = true ∧ kind = .gather) ∨
      (i = .scatter f ∧ rows = true ∧ kind = .scatter)) →
    c.writeMask f ≠ 0 → ra = c.opnd64 f f.oa (elect (c.writeMask f)) → ca = c.opnd64 f f.oc (elect (c.writeMask f)) →
    ia = c.opnd64 f f.oe (elect (c.writeMask f)) → ra.toNat % 64 = 0 → ra.toNat < 2 ^ 53 → ca.toNat % 8 = 0 → ca.toNat < 2 ^ 53 →
    (rows = true → ia.toNat % 4 = 0 ∧ ia.toNat < 2 ^ 53) → c.tileOf f.od = some d →
    s.combining c.core x ra.toNat 96 = false → s.vaRead (.die (c.core / 96)) c.core x ra.toNat 96 = .ok (bs, s1) → recReject rows bs = none →
    count = (if rows then bitsOf f.imm.toNat 12 0 else (recOf bs).boxRows) → (recOf bs).tileBytes count ≤ descLines d * 128 → (recOf bs).ilv = descIlv d →
    s1.xlat (.die (c.core / 96)) c.core x .store ca = .ok key 0 leaf tile → s.boardFull c.core = false →
    ∃ (t : State) (j : Job), exec i s = .next (t.setCohort ({ c with jobSeq := c.jobSeq + 1 } : Cohort).complete) ∧ t.jobs = s.jobs ++ [j] ∧
      j.kind = kind ∧ j.cid = c.cid ∧ j.wg = c.wg ∧ j.pc = c.here.pc ∧ j.recAddr = ra ∧ j.trec = some (recOf bs) ∧ j.ctrVa = ca ∧ j.ctrPa = key ∧
      j.line0 = (s.regionOf c).1 + descBase d ∧ j.nlines = descLines d ∧ j.total = count * (recOf bs).boxes.getD 0 0 ∧ j.status = 0 ∧ j.next = 0 ∧
      (rows = true → j.idxVa = ia.toNat) ∧
      ∀ k, k < 5 → j.coords[k]? = some ((c.reg (opndIndex f.ob + k)).lane (elect (c.writeMask f))).toInt

/-- RCOPY by the communication cohort, EPI to a tile register, and COLL (R158, R175, R184, R370, R378, R379, R431): each is accepted when its checks
pass; a COLL of another cohort of the workgroup only counts its issue. Complete here: rcopy, epi, epiRec, coll. -/
def Obligations.OtherCommands : Prop :=
  ∀ (s : State) (c : Cohort) (x : Ctx) (f : Fields) (d : Word), s.me? = some c → s.ctx? c.ctx = some x → c.role = .single → s.holdsWrite c.cid = false →
    c.writeMask f ≠ 0 →
    (∀ (ca : DWord) (key n : Nat) (leaf : Option TlbEntry) (tile : Bool), c.tileOf f.od = some d → s.isComm c = some true → ca = c.opnd64 f f.oc (elect (c.writeMask f)) →
      ca.toNat % 8 = 0 → n = bitsOf f.imm.toNat 18 13 + 1 → n ≤ descLines d → descIlv d = 0 →
      s.xlat (.die (c.core / 96)) c.core x .store ca = .ok key 0 leaf tile → s.rankPresent (s.opnd c f f.oa (elect (c.writeMask f))).toNat = true →
      (s.opnd c f f.ob (elect (c.writeMask f))).toNat < 1536 → bitsOf f.imm.toNat 12 0 + n ≤ 6144 → s.boardFull c.core = false →
      ∃ (t : State) (j : Job), exec (.rcopy f) s = .next (t.setCohort ({ c with jobSeq := c.jobSeq + 1 } : Cohort).complete) ∧ t.jobs = s.jobs ++ [j] ∧
        j.kind = .rcopy ∧ j.srcRank = (s.opnd c f f.oa (elect (c.writeMask f))).toNat ∧ j.srcCore = (s.opnd c f f.ob (elect (c.writeMask f))).toNat ∧
        j.srcLine = bitsOf f.imm.toNat 12 0 ∧ j.nlines = n ∧ j.line0 = (s.regionOf c).1 + descBase d ∧ j.ctrPa = key) ∧
    (∀ (ctl bank key : Nat) (ca : DWord) (leaf : Option TlbEntry) (tile : Bool), c.tileOf f.od = some d →
      ctl = ((c.reg (opndIndex f.oa + 1)).lane (elect (c.writeMask f))).toNat → bitsOf ctl 5 5 = 0 → c.handleOk (opndIndex f.oa) = true →
      (s.banksOf c)[bitsOf ctl 4 0]? = some bank → isMx f.typ = false → c.width * epiRowBytes f.typ ≤ descLines d * 128 →
      ca = c.opnd64 f f.oe (elect (c.writeMask f)) → ca.toNat % 8 = 0 → s.xlat (.die (c.core / 96)) c.core x .store ca = .ok key 0 leaf tile →
      s.boardFull c.core = false →
      ∃ (t : State) (j : Job) (e : EpiOps), exec (.epi f) s = .next (t.setCohort ({ c with jobSeq := c.jobSeq + 1 } : Cohort).complete) ∧
        t.jobs = s.jobs ++ [j] ∧ j.kind = .epiTile ∧ j.epi = some e ∧ e.bank = bank ∧ e.typ = f.typ ∧ e.rnd = f.rnd ∧ e.zero = f.sub.getLsbD 0 ∧
        e.rows = c.width ∧ e.bias = none ∧ j.line0 = (s.regionOf c).1 + descBase d ∧ j.ctrPa = key ∧ j.total = c.width) ∧
    (∀ (ctl bank key : Nat) (ca ra : DWord) (bs : List Byte) (s1 : State) (leaf : Option TlbEntry) (tile : Bool),
      ctl = ((c.reg (opndIndex f.oa + 1)).lane (elect (c.writeMask f))).toNat → bitsOf ctl 5 5 = 0 → c.handleOk (opndIndex f.oa) = true →
      (s.banksOf c)[bitsOf ctl 4 0]? = some bank → ra = c.opnd64 f f.od (elect (c.writeMask f)) → ca = c.opnd64 f f.oe (elect (c.writeMask f)) →
      ra.toNat % 64 = 0 → ra.toNat < 2 ^ 53 → ca.toNat % 8 = 0 → s.combining c.core x ra.toNat 96 = false →
      s.vaRead (.die (c.core / 96)) c.core x ra.toNat 96 = .ok (bs, s1) → recReject false bs = none → (recOf bs).typ = f.typ →
      s1.xlat (.die (c.core / 96)) c.core x .store ca = .ok key 0 leaf tile → s.boardFull c.core = false →
      ∃ (t : State) (j : Job) (e : EpiOps), exec (.epiRec f) s = .next (t.setCohort ({ c with jobSeq := c.jobSeq + 1 } : Cohort).complete) ∧
        t.jobs = s.jobs ++ [j] ∧ j.kind = .epiRec ∧ j.epi = some e ∧ e.bank = bank ∧ j.trec = some (recOf bs) ∧ j.recAddr = ra ∧ j.ctrPa = key ∧
        j.total = 32 * c.width) ∧
    (s.isComm c = some false → (s.colls.any fun k => k.wg == c.wg && k.index == c.colls) = false →
      ∃ (t : State) (k : Coll), exec (.coll f) s = .next (t.setCohort ({ c with colls := c.colls + 1 } : Cohort).complete) ∧ t.colls = s.colls ++ [k] ∧
        k.wg = c.wg ∧ k.index = c.colls ∧ k.issued = [c.cid] ∧ k.ready = false ∧ t.mem = s.mem) ∧
    (∀ va key, c.tileOf f.od = some d → s.isComm c = some true → va = c.opnd64 f f.oa (elect (c.writeMask f)) → s.objectAt c x va key →
      (∀ g r, s.xlat (.core c.core) c.core x .store va ≠ .fault g r) → (s.colls.any fun k => k.wg == c.wg && k.index == c.colls) = false →
      ∃ (t : State) (k : Coll), exec (.coll f) s = .next (t.setCohort ({ c with colls := c.colls + 1, jobSeq := c.jobSeq + 1 } : Cohort).complete) ∧
        t.colls = s.colls ++ [k] ∧ k.ready = true ∧ k.sub = f.sub.toNat ∧ k.typ = f.typ ∧ k.objVa = va ∧ k.objPa = key ∧ k.nlines = descLines d ∧
        k.line0 = (s.regionOf c).1 + descBase d ∧ k.issued = [c.cid])

/-- EPAPP, EPEND, RWDSEND and the forms of LQTAKE and LQDONE on a die with an accepted join block (R276 to R278, R286, R287, R377, R408, R409, R436):
appends and closes are applied lane by lane in ascending order and flag the refused lanes, one message per lane is sent, the oldest descriptor goes to
the taker, whose register then needs no row (R59), and a TAKEN entry becomes FREE. Without a join block each raises group 11, reason 11. Complete
here: epapp, epend, rwdsend, lqtake, lqtakeSplit, lqtakeTry, lqdone. -/
def Obligations.RewardInstructions : Prop :=
  ∀ (s : State) (c : Cohort) (f : Fields) (d : Nat) (traj : Nat → DWord), s.me? = some c → c.role = .single → c.writeMask f ≠ 0 → d = c.core / 96 →
    (traj = fun l => c.opnd64 f f.oa l) →
    ((s.join d).accepted = false → ∀ i ∈ [Instr.epapp f, .epend f, .rwdsend f, .lqtake f, .lqtakeSplit f, .lqtakeTry f, .lqdone f],
      exec i s = .next (s.raiseReason c 11 11)) ∧
    ((s.join d).accepted = true →
      ((∃ l ∈ laneList (c.writeMask f), trajHaddr (traj l) ≠ s.faddr ∨ trajHdie (traj l) ≠ d) →
        exec (.epapp f) s = .next (s.raiseReason c 11 10) ∧ exec (.epend f) s = .next (s.raiseReason c 11 10)) ∧
      ((∀ l ∈ laneList (c.writeMask f), trajHaddr (traj l) = s.faddr ∧ trajHdie (traj l) = d) →
        (∀ t bad, appendLanes d traj (fun l => (List.range 8).map fun i => (c.reg (opndIndex f.ob + i)).lane l) (laneList (c.writeMask f)) s = .ok (t, bad) →
          exec (.epapp f) s = .next ((t.dropRefused (t.join d)).setCohort (c.putPredOpt (c.writeMask f) f.od bad).complete)) ∧
        (s.canRelease c → ∀ r, r = closeLanes d (fun l => (traj l, s.opnd c f f.ob l, s.opnd c f f.oc l, (c.predOf f.oe).getLsbD l)) (laneList (c.writeMask f)) s →
          exec (.epend f) s = .next (r.1.setCohort (c.putPredOpt (c.writeMask f) f.od r.2).complete))) ∧
      (∃ msg : Nat → RewardMsg, (∀ l, (msg l).traj = traj l ∧ (msg l).reward = s.opnd c f f.oc l ∧ (msg l).gen = s.mgen ∧
            ((s.opnd c f f.ob l).toNat < 65536 → (msg l).step.toNat = (s.opnd c f f.ob l).toNat) ∧ ((msg l).flags = 0 ↔ f.imm.getLsbD 0 = false)) ∧
        exec (.rwdsend f) s = .next (((laneList (c.writeMask f)).foldl (fun t l => t.sendReward d (msg l)) s).setCohort c.complete)) ∧
      (∀ desc rest, (s.join d).queue = desc :: rest → s.takerWaits d = false →
        (c.stopped = false → ∃ (t : State) (e : Cohort), exec (.lqtake f) s = .next t ∧ (t.join d).queue = rest ∧ t.cohort? c.cid = some e ∧
          e = { (({ c with waitSeq := s.fresh } : Cohort).putUniformOpt f.od desc).complete with rows := e.rows, spilled := e.spilled } ∧
          ∀ e ∈ (t.join d).entries, e.idx = bitsOf desc.toNat 14 0 → e.state = .taken) ∧
        ∃ t : State, exec (.lqtakeTry f) s = .next (t.setCohort ((c.putUniformOpt f.od desc).putPredOpt (c.writeMask f) f.oe (c.writeMask f)).complete) ∧
          (t.join d).queue = rest ∧ ∀ e ∈ (t.join d).entries, e.idx = bitsOf desc.toNat 14 0 → e.state = .taken) ∧
      (((s.join d).queue = [] ∨ s.takerWaits d = true) → exec (.lqtakeTry f) s = .next (s.setCohort (c.putPredOpt (c.writeMask f) f.oe 0).complete)) ∧
      (∀ i, s.freeWait d = some i → ∃ (t : State) (e : WaitEntry) (g : Cohort), exec (.lqtakeSplit f) s = .next t ∧ e ∈ t.waitTable ∧ e.die = d ∧
        e.index = i ∧ e.op = .learner ∧ e.cid = c.cid ∧ t.cohort? c.cid = some g ∧
        g = { (c.putUniformOpt f.od (BitVec.ofNat 32 (3 * 2 ^ 28 + i))).complete with rows := g.rows, spilled := g.spilled, fwd := g.fwd }) ∧
      (∀ i, i = bitsOf (s.opnd c f f.oa (elect (c.writeMask f))).toNat 14 0 →
        (i < (s.join d).nent → (∃ e ∈ (s.join d).entries, e.idx = i ∧ e.state = .taken) → s.canRelease c →
          ∃ t : State, exec (.lqdone f) s = .next (t.setCohort c.complete) ∧ t.mem = s.mem ∧
            (t.join d).entries = (s.join d).entries.filter fun e => e.idx != i) ∧
        ((∀ e ∈ (s.join d).entries, e.idx = i → e.state ≠ .taken) → exec (.lqdone f) s = .next (s.raiseReason c 11 12))))


/-! ### A step -/

/-- A STEP RUNS THE DECODED INSTRUCTION: when the next turn is a cohort's and the cohort may issue, the bytes at its code address are fetched. A word
that the decoder refuses raises the refusal's cause; the instruction that any other decodes to runs as `exec` says on the state in which its
spilled sources have been refilled, after handler mode's check; then its rows are settled and its issue is counted, which changes no register,
predicate or PC of a cohort that stands at no BAR.pod. When the turn is an event, the step is that event's `exec` (R41, R57, R58, R240, R313, R322,
R323; how turns follow is log entry 4). A fetch that fails raises the cause of R118's row, the unit of a bad entry or word named as it was held before. Where an error has been injected (log entry 78), a shared value that the instruction would read and that is
bad raises group 13 instead (R236). The word fetched is the 20 bytes there, when the instruction buffer does not hold it, they lie in one page and
none of them is uncorrectable; a word with such a byte raises group 13 too (log entry 90). -/
def Obligations.StepRunsDecoded : Prop :=
  ∀ (s v : State) (t : Turn), s.nextTurn = t → v = s.beginTurn t →
    (∀ e, t.what = .event e → v.powered = true → step s = exec e v) ∧
    (∀ k c x u va, t.what = .issue k → v.powered = true → v.cohort? k = some c → v.ctx? c.ctx = some x → (v.mayIssue c || v.stillIssues c) = true →
      c.merged = false → u = { v with cur := some k } → va = codeAddr (c.codeBase x) c.here.pc →
      (∀ g r s1, u.fetchWord c.core x va = (.fault g r, s1) → step s = .next (s1.raiseFetch c va g r)) ∧
      (∀ s1, u.fetchWord c.core x va = (.nonres, s1) → step s = .next (s1.raiseFetch c va 5 0)) ∧
      (∀ a s1, u.fetchWord c.core x va = (.poisoned a, s1) →
        step s = .next (s1.raise c 13 (hwDetail (u.unitOfKey a).1 2 (u.unitOfKey a).2) (c.plainRecs 0 13 2))) ∧
      (∀ a s1, u.fetchWord c.core x va = (.data a, s1) →
        step s = .next (s1.raise c 13 (hwDetail (u.unitOfKey a).1 5 (u.unitOfKey a).2) (c.plainRecs 0 13 5))) ∧
      (∀ w s1, u.fetchWord c.core x va = (.word w, s1) →
        (∀ b, decodeFor c.nreg w = .error b → step s = .next (s1.raise c b.group (badDetail w b) (c.plainRecs 0 b.group b.reason))) ∧
        (∀ i, decodeFor c.nreg w = .ok i →
          (c.hmode = true → refusedInHandler i = true → step s = .next (s1.raiseReason c 12 7)) ∧
          (∀ s2 c2, (c.hmode = false ∨ refusedInHandler i = false) → s2 = s1.collect i c → c2 = (s2.cohort? c.cid).getD c →
            (s2.upsets = [] → c2.dying = 0 → (c2.role = .single ∨ readsShared i = false) → step s = onNext (exec i s2) (State.afterIssue i c2)) ∧
            (s2.upsets ≠ [] → ∀ d, s2.badShared c2 i = some d → step s = .next (s2.raise c2 13 d (c2.plainRecs 0 13 3))) ∧
            ((∀ d, s1.cohort? c.cid = some d → ∀ r ∈ namedRegs i c, r ∉ d.spilled) → s2 = s1)))) ∧
      (∀ key mt leaf tile, u.xlat (.core c.core) c.core x .fetch va = .ok key mt leaf tile →
        va.toNat / 8192 = (va.toNat + 19) / 8192 → (∃ r, u.xlat (.core c.core) c.core x .fetch (va + 19) = .ok r mt leaf tile) →
        (∀ e ∈ (u.core c.core).ibuf, e.ctx ≠ x.ctxid ∨ e.va ≠ va.toNat) → u.poisoned key 20 = false →
        (u.fetchWord c.core x va).1 = .word (BitVec.ofNat 160 (memNat u.mem key 20)))) ∧
    (∀ a rest, s.agenda = a :: rest → s.joins = [] → (∃ b ∈ s.agenda, t = { b with dt := a.dt }) ∧ ((∀ b, rest.head? = some b → b.dt ≠ 0) → t = a)) ∧
    (∀ i c k d, v.cohort? k = some d → d.atBar .pod = false → ∃ d' : Cohort, (v.afterIssue i c).cohort? k = some d' ∧
      d' = { d with rows := d'.rows, spilled := d'.spilled, busy := d'.busy, ends := d'.ends, starve := d'.starve, steps := d'.steps, yieldUntil := d'.yieldUntil })

/-- THE MACHINE ALWAYS GOES ON: a step of any state answers a next state, so that no instruction and no event ends a run (R226, R313: whatever
an instruction does, it completes, waits, or takes a cause). -/
def Obligations.StepAlwaysGoesOn : Prop := ∀ s : State, ∃ t : State, step s = .next t

/-- AN INVARIANT OF EVERY STEP: memory stays in its canonical form, whatever the turn does (log entry 2 names the form; R1 and R125 the
writes). -/
def Obligations.MemoryStaysCanonical : Prop :=
  ∀ s t : State, s.memoryCanonical → step s = .next t → t.memoryCanonical

/-- RESET (R304 to R306): compute is not released, no context, queue, launch or cohort is registered or resident, no suspicion, seal or step stands,
BOOTSTAT holds DIE = 0xFF and zero elsewhere, no byte of memory is listed, and memory has its canonical form. (The zeros of the registers that the
manual gives no value are log entry 9's.) -/
def Obligations.ResetState : Prop :=
  State.reset.memoryCanonical ∧ State.reset.mem = [] ∧ State.reset.released = false ∧ State.reset.bootstat = 0xFF000000 ∧
  State.reset.cohorts = [] ∧ State.reset.ctxs = [] ∧ State.reset.queues = [] ∧ State.reset.launches = [] ∧ State.reset.jobs = [] ∧
  State.reset.memState = .idle ∧ State.reset.adopted = none ∧ State.reset.mailbox = .reset ∧ (∀ k, State.reset.me? = none ∧ State.reset.cohort? k = none)

/-! ### Mailbox commands and the register space -/

/-- The mailbox commands (R193, R196 to R198, R206, R207, R225, R234, R242, R247, R248, R261, R273, R289, R298, R299, R305, R309): once taken up each
answers with its status, clears GO and has its effect; before compute is released all but STATUS and OCHRERD end with status 2. The model's readings, not
the manual's words (DEDUCED, log entries 68 and 69): that RESUME ends with status 2 and not 1 while a handler runs, that a refused REGSPARE has status 1 with
detail 0, and which codes a refused REGCTX, REGQ and REGJOIN give as their detail; that a queue registered again has no entry in its table any more (DESIGN
CHOICE, log entry 93). Complete here: status,
ochrerd, regctx, regq, regmem, regjoin, regspare, resume, destroy, halt, unfence, counters. -/
def Obligations.MailboxCommands : Prop :=
  ∀ (s : State) (m : MailCmd),
    (∀ t, s.mailOpen t m 1 → ∃ u : State, exec (.status m) s = .next u ∧ s.onlyMail u ∧ u.answered m 1 0 0 ∧
      u.payload m 0 8 = s.bootstat.toNat ∧ u.payload m 8 4 = s.fences.length % 2 ^ 32 ∧
      ∀ i r, i < 1004 → s.fences[i]? = some r → u.payload m (16 + 4 * i) 4 = (r.unit.toNat + r.state * 2 ^ 16) % 2 ^ 32) ∧
    (∀ t, s.mailOpen t m 10 → t.payload m 0 8 < 2 ^ 16 →
      (unitExists (t.payload m 0 8) = true → ∃ u : State, exec (.ochrerd m) s = .next u ∧ s.onlyMail u ∧ u.answered m 10 0 0 ∧
        u.payload m 0 32 = (s.unitRec (BitVec.ofNat 16 (t.payload m 0 8))).image % 2 ^ 256) ∧
      (unitExists (t.payload m 0 8) = false → ∃ u : State, exec (.ochrerd m) s = .next u ∧ s.onlyMail u ∧ u.answered m 10 1 0)) ∧
    (∀ p ∈ [(2, Instr.regctx m), (3, .regq m), (4, .regmem m), (5, .regjoin m), (6, .regspare m), (7, .resume m), (8, .destroy m), (9, .halt m),
        (11, .unfence m), (12, .counters m)], s.released = false → ∀ t, s.mailOpen t m p.1 →
      ∃ u : State, exec p.2 s = .next u ∧ s.onlyMail u ∧ u.answered m p.1 2 0) ∧
    (s.released = true →
      (∀ t r, s.mailOpen t m 11 → t.payload m 0 8 < 2 ^ 16 → r = s.unitRec (BitVec.ofNat 16 (t.payload m 0 8)) → r.state = 1 → 2 ≤ r.passRow →
        ∃ u : State, exec (.unfence m) s = .next u ∧ u.answered m 11 0 0 ∧ s.onlyMail { u with units := s.units } ∧
          (u.unitRec r.unit).state = 0 ∧ ∀ v, v ≠ r.unit → u.unitRec v = s.unitRec v) ∧
      (∀ t, s.mailOpen t m 2 →
        (s.descriptorBad (t.payload m 0 8) (t.payload m 8 64) = false → bitsOf (t.payload m 72 64) 15 0 = bitsOf (t.payload m 8 64) 207 192 →
          trapBad (t.payload m 72 64) = false → ∃ u : State, exec (.regctx m) s = .next u ∧ u.answered m 2 0 0 ∧ s.onlyMail { u with ctxs := s.ctxs } ∧
            u.ctxs = s.ctxs ++ [ctxOf (t.payload m 0 8) (t.payload m 8 64) (some (trapOf (t.payload m 72 64)))]) ∧
        (s.descriptorBad (t.payload m 0 8) (t.payload m 8 64) = true → ∃ u : State, exec (.regctx m) s = .next u ∧ s.onlyMail u ∧ u.answered m 2 1 7)) ∧
      (∀ t, s.mailOpen t m 3 → t.payload m 0 8 < 1024 →
        (queueBad (t.payload m 8 64) = true → ∃ u : State, exec (.regq m) s = .next u ∧ s.onlyMail u ∧ u.answered m 3 1 3) ∧
        (∀ x, queueBad (t.payload m 8 64) = false → s.ctxs.find? (fun y => y.ctxva.toNat == bitsOf (t.payload m 8 64) 308 256) = some x →
          ∃ (u : State) (q : Queue), exec (.regq m) s = .next u ∧ u.answered m 3 0 0 ∧
            s.onlyMail { u with queues := s.queues, packets := s.packets } ∧ u.packets = s.packets.filter (·.queue != t.payload m 0 8) ∧ u.queue? (t.payload m 0 8) = some q ∧ q.ctx = x.ctxid ∧ q.ring = bitsOf (t.payload m 8 64) 52 0 ∧ q.accidx = bitsOf (t.payload m 8 64) 116 64 ∧
            q.errrec = bitsOf (t.payload m 8 64) 180 128 ∧ q.logsz = bitsOf (t.payload m 8 64) 195 192 ∧
            q.next = BitVec.ofNat 32 (bitsOf (t.payload m 8 64) 255 224) ∧ q.widx = none ∧ q.broken = false)) ∧
      (∀ t x rs t1, s.mailOpen t m 4 → s.ctx? (BitVec.ofNat 16 (t.payload m 0 8)) = some x → t.payload m 0 8 < 2 ^ 16 →
        anySet (t.payload m 8 32) [(255, 245), (127, 117), (63, 53)] = false → bitsOf (t.payload m 8 32) 52 0 % 32 = 0 →
        bitsOf (t.payload m 8 32) 116 64 % 8192 = 0 → bitsOf (t.payload m 8 32) 191 128 % 8192 = 0 → bitsOf (t.payload m 8 32) 244 192 % 64 = 0 →
        readRanges x.ctxid 257 (bitsOf (t.payload m 8 32) 52 0) t = .good rs t1 → (rs.any fun r => r.host != 0 || r.len % 2 ^ 20 != 0) = false →
        ∃ (u : State) (b : MemBlock), exec (.regmem m) s = .next u ∧ u.answered m 4 0 0 ∧ u.memBlock = some b ∧ b.ctx = x.ctxid ∧ b.shard = rs ∧
          b.pool = bitsOf (t.payload m 8 32) 116 64 ∧ b.poolLen = bitsOf (t.payload m 8 32) 191 128 ∧ b.tablebuf = bitsOf (t.payload m 8 32) 244 192 ∧
          u.stepdone = 0 ∧ u.ckpt = 0 ∧ u.sealed = none ∧ u.views = [] ∧ u.mem = t1.mem) ∧
      (∀ t x v, s.mailOpen t m 5 → t.payload m 0 8 < 16 → t.payload m 8 8 < 2 ^ 16 → s.ctx? (BitVec.ofNat 16 (t.payload m 8 8)) = some x →
        v = t.payload m 16 32 →
        ((joinBad v = true ∨ (s.join (t.payload m 0 8)).entries ≠ []) → ∃ u : State, exec (.regjoin m) s = .next u ∧ s.onlyMail u ∧ u.answered m 5 1 3) ∧
        (joinBad v = false → (s.join (t.payload m 0 8)).entries = [] → ∃ (u : State) (j : JoinUnit), exec (.regjoin m) s = .next u ∧
          u.answered m 5 0 0 ∧ s.onlyMail { u with joins := s.joins } ∧ j = u.join (t.payload m 0 8) ∧ j.accepted = true ∧ j.ctx = x.ctxid ∧
          j.store = bitsOf v 52 0 ∧ j.nent = bitsOf v 110 96 + 1 ∧ j.smax = bitsOf v 127 120 ∧ j.orphto = bitsOf v 159 128 ∧
          j.jointo = bitsOf v 191 160 ∧ j.c = rnMul (BitVec.ofNat 32 (bitsOf v 223 192)) (BitVec.ofNat 32 (bitsOf v 255 224)))) ∧
      (∀ t, s.mailOpen t m 6 →
        (s.memState ∈ [MemState.idle, .expelled, .spareReady] → s.failed = false → ∃ u : State, exec (.regspare m) s = .next u ∧ u.answered m 6 0 0 ∧
          u.memState = .spareReady ∧ u.mgen = 0 ∧ u.adopted = none ∧ u.mem = s.mem ∧ u.cohorts = s.cohorts) ∧
        ((s.memState ∉ [MemState.idle, .expelled, .spareReady] ∨ s.failed = true) →
          ∃ u : State, exec (.regspare m) s = .next u ∧ s.onlyMail u ∧ u.answered m 6 1 0)) ∧
      (∀ t x, s.mailOpen t m 7 → t.payload m 0 8 < 2 ^ 16 → s.ctx? (BitVec.ofNat 16 (t.payload m 0 8)) = some x →
        (x.halt = true → (x.stopWritten = false ∨ x.inHandler = true) →
          ∃ u : State, exec (.resume m) s = .next u ∧ s.onlyMail u ∧ u.answered m 7 2 0) ∧
        (s.mayResume x = true → x.stopRecs = [] → (∀ c ∈ s.cohorts, c.ctx = x.ctxid → c.pend = 0) →
          ∃ (u : State) (y : Ctx), exec (.resume m) s = .next u ∧ u.answered m 7 0 0 ∧ u.ctx? x.ctxid = some y ∧ y.halt = false ∧ u.mem = s.mem ∧
            ∀ c ∈ u.cohorts, c.ctx = x.ctxid → c.stopped = false)) ∧
      (∀ t x, s.mailOpen t m 8 → t.payload m 0 8 < 2 ^ 16 → s.ctx? (BitVec.ofNat 16 (t.payload m 0 8)) = some x →
        (∀ p ∈ s.packets, p.ctx = x.ctxid → p.done = true) → (∀ c ∈ s.cohorts, c.ctx = x.ctxid → c.windows = []) →
        ∃ u : State, exec (.destroy m) s = .next u ∧ u.answered m 8 0 0 ∧ u.ctx? x.ctxid = none ∧ (∀ c ∈ u.cohorts, c.ctx ≠ x.ctxid) ∧
          (∀ j ∈ u.jobs, j.ctx ≠ x.ctxid) ∧ (∀ q ∈ u.queues, q.ctx = x.ctxid → q.broken = true) ∧ u.mem = s.mem) ∧
      (∀ t x, s.mailOpen t m 9 → t.payload m 0 8 < 2 ^ 16 → s.ctx? (BitVec.ofNat 16 (t.payload m 0 8)) = some x → x.halt = false →
        ∃ (u : State) (y : Ctx), exec (.halt m) s = .next u ∧ u.answered m 9 0 0 ∧ u.ctx? x.ctxid = some y ∧ y.halt = true ∧ y.firstCause = 17 ∧
          u.mem = s.mem ∧ (∀ c ∈ s.cohorts, c.ctx ≠ x.ctxid → c ∈ u.cohorts) ∧
          ∀ c ∈ s.cohorts, c.ctx = x.ctxid → (c.raised && !c.hmode) = false → ∃ d ∈ u.cohorts, d =
            { c with cause := 17, caused0 := m.tag.setWidth 32, caused1 := 0, caused2 := 0, epc := c.stopPc, laneRecs := [], raised := true,
                     jobSide := false, pend := d.pend, pendInfo := d.pendInfo } ∧
            (s.preempted c = false → d.pend = c.pend ∧ d.pendInfo = c.pendInfo)) ∧
      (∀ t d, s.mailOpen t m 12 → d = t.payload m 0 8 → d < 16 →
        ∃ u : State, exec (.counters m) s = .next u ∧ s.onlyMail u ∧ u.answered m 12 0 0 ∧
          ∀ i n, ((s.port (2 * d)).counts ++ (s.port (2 * d + 1)).counts ++ (s.join d).counts)[i]? = some n → u.payload m (4 * i) 4 = n % 2 ^ 32))

/-- Writes of the host to die 0's register space (R3, R200, R248, R278, R308): a notify inside its window is recorded and queued for the front end, a
step or a checkpoint is taken, held or ignored, a reward message goes to its home or is counted as malformed, and a write of an unlisted register
changes nothing; one of the mailbox's words takes effect as R309 says, so that an opcode which is not listed ends at once with status 3. A routing-table entry
replaces the one for its address (R192). Complete here: notifyWrite, stepdoneWrite, ckptWrite, rewardPageWrite,
unlistedRegisterWrite, routingTableWrite. -/
def Obligations.RegisterSpaceWrites : Prop :=
  ∀ (s : State) (v : DWord), s.cxlUp = true →
    (∀ q k, s.queue? q = some k → k.broken = false →
      (1 ≤ (DWord.lo v - k.next).toNat → (DWord.lo v - k.next).toNat ≤ 2 ^ (k.logsz + 4) → ∃ t : State, exec (.notifyWrite q v) s = .next t ∧
        t = { s with queues := t.queues, dies := t.dies } ∧ t.queue? q = some { k with widx := some (DWord.lo v) } ∧
        (t.die 0).events = (s.die 0).events ++ [.notify q (DWord.lo v)]) ∧
      ((DWord.lo v = k.next ∨ 2 ^ (k.logsz + 4) < (DWord.lo v - k.next).toNat) → exec (.notifyWrite q v) s = .next s)) ∧
    (s.heldWrites = [] →
      (DWord.lo v ≠ s.stepdone + 1 → exec (.stepdoneWrite v) s = .next s) ∧
      (DWord.lo v = s.stepdone + 1 → s.stepOpen (DWord.lo v) = true → exec (.stepdoneWrite v) s =
        .next { s with stepdone := DWord.lo v, views := { step := DWord.lo v, images := [], dropped := [] } :: s.views }) ∧
      (DWord.lo v = s.stepdone + 1 → s.stepOpen (DWord.lo v) = false → exec (.stepdoneWrite v) s = .next { s with heldWrites := [(none, 0, v)] }) ∧
      (1 ≤ (DWord.lo v - s.ckpt).toNat → (DWord.lo v - s.ckpt).toNat < 2 ^ 31 → (s.stepdone - DWord.lo v).toNat < 2 ^ 31 →
        exec (.ckptWrite v) s = .next { s with ckpt := DWord.lo v })) ∧
    (∀ off bytes, (bytes.length ≠ 32 ∨ off % 32 ≠ 0) → exec (.rewardPageWrite off bytes) s = .next (s.setJoin ((s.join 0).count 9 1))) ∧
    (∀ off bytes (m : RewardMsg), bytes.length = 32 → off % 32 = 0 → off < 4096 → bitsOf (leNat bytes) 255 160 = 0 →
      m.traj = BitVec.ofNat 64 (bitsOf (leNat bytes) 63 0) → m.step = BitVec.ofNat 16 (bitsOf (leNat bytes) 79 64) →
      m.flags = BitVec.ofNat 8 (bitsOf (leNat bytes) 87 80) → m.reward = BitVec.ofNat 32 (bitsOf (leNat bytes) 127 96) →
      m.gen = BitVec.ofNat 32 (bitsOf (leNat bytes) 159 128) → exec (.rewardPageWrite off bytes) s = .next (s.sendReward 0 m)) ∧
    (∀ off bytes, ¬ (0x1000 ≤ off ∧ off + bytes.length ≤ 0x2000) → exec (.unlistedRegisterWrite off bytes) s = .next s) ∧
    (∀ off bytes, 0x1000 ≤ off → off + bytes.length ≤ 0x2000 →
      exec (.unlistedRegisterWrite off bytes) s = .next (s.hostWrite none off bytes.length (leNat bytes))) ∧
    (∀ (bytes : List Byte) (w : DWord), bytes.length = 8 → w = BitVec.ofNat 64 (leNat bytes) → s.mailbox.cmd.getLsbD 63 = false → w.getLsbD 63 = true →
      (w.toNat % 256 = 0 ∨ 12 < w.toNat % 256) → exec (.unlistedRegisterWrite 0x1000 bytes) s =
        .next { s with mailbox := { s.mailbox with cmd := w &&& 0x0000FFFF000000FF, result := 3 } }) ∧
    (∀ die fa port, ∃ t : State, exec (.routingTableWrite die fa port) s = .next t ∧ t = { s with routes := t.routes } ∧
      t.routes.find? (fun r => r.1 == die && r.2.1 == fa) = some (die, fa, port) ∧
      ∀ d a, (d ≠ die ∨ a ≠ fa) → t.routes.find? (fun r => r.1 == d && r.2.1 == a) = s.routes.find? fun r => r.1 == d && r.2.1 == a)

/-! ### Packets, placement and engines -/

/-- The front end's packets (R201, R202, R204, R206 to R211, R223): a queue's next packet is accepted, with ACCIDX moved on, and a NOP that may start
completes, then or later; a LAUNCH is listed; the blocks of a BUNDLE are checked then; a LAUNCH, a BUNDLE or an INVAL that may start starts; a launch that has ended completes its packet; a
collective program of one participant goes on by a step; a bad copy of a packet's entry is written again from the other, and where both are lost the queue
breaks with code 9. They complete: PACKET_ACCEPT, LAUNCH, BUNDLE, INVAL, PACKET_COMPLETE and COLL_PROGRAM_STEP (packetAccept, launch, bundle, inval,
packetComplete, collProgramStep). -/
def Obligations.PacketsRun : Prop :=
  ∀ (s : State) (q : Nat),
    (∀ k bs ws s1 s2 s3 u, s.queue? q = some k → k.broken = false → 1 ≤ ((k.widx.getD k.next) - k.next).toNat →
      ((k.widx.getD k.next) - k.next).toNat ≤ 2 ^ (k.logsz + 4) → s.unfinished q < 256 → s.fwMay 0 (some q) (isNotify q) = true →
      s.feRead k.ctx (k.ring + 64 * (k.next.toNat % 2 ^ (k.logsz + 4))) 8 = .ok (bs, s1) → leNat bs % 2 = 1 →
      BitVec.ofNat 32 (bitsOf (leNat bs) 63 32) = k.next →
      s1.feRead k.ctx (k.ring + 64 * (k.next.toNat % 2 ^ (k.logsz + 4))) 64 = .ok (ws, s2) →
      s2.feWrite k.ctx k.accidx (natBytes 8 (k.next + 1).toNat) = .ok s3 →
      u = ({ s3.setQueue { k with next := k.next + 1, lastSeq := some k.next } with
        packets := s3.packets ++ [k.packetOf ws],
        upsets := s3.upsets.filter fun v => !(v == (k.packetOf ws).copyBad 0 || v == (k.packetOf ws).copyBad 1) } : State).fwNote (.entry q k.next) →
      bitsOf (recWord ws 0) 31 16 = 0 → bitsOf (recWord ws 0) 7 3 = 0 → (bitsOf (recWord ws 0) 2 2 = 1 → bitsOf (recWord ws 0) 1 1 = 1) →
      (bitsOf (recWord ws 0) 15 8 = 4 → (∀ i, 1 ≤ i → i < 8 → recWord ws i = 0) → u.halted k.ctx = false →
        ∃ (t : State) (p : PacketEntry), exec (.packetAccept q) s = .next t ∧ t.mem = s3.mem ∧
          t.queue? q = some { k with next := k.next + 1, lastSeq := some k.next } ∧ p ∈ t.packets ∧
          p = { k.packetOf ws with done := u.mayStart (k.packetOf ws), started := u.mayStart (k.packetOf ws) }) ∧
      (∀ x v, bitsOf (recWord ws 0) 15 8 = 1 → u.checkLaunch k.ctx (k.packetOf ws).words = .good x v →
        ∃ (t : State) (l : Launch), exec (.packetAccept q) s = .next t ∧ t.mem = v.mem ∧ t.launches = v.launches ++ [l] ∧ l.queue = q ∧ l.seq = k.next ∧
          l.ctx = k.ctx ∧ l.kern = x.kern ∧ l.nwg = x.nwg ∧ l.args = x.args ∧ l.spill = x.spill ∧ l.started = false ∧ l.successor = false) ∧
      (bitsOf (recWord ws 0) 15 8 = 2 → recWord ws 6 = 0 → recWord ws 7 = 0 → (k.packetOf ws).blocks ≠ [] →
        (∀ bs v, checkBlocks k.ctx (k.packetOf ws).blocks u = .good bs v → exec (.packetAccept q) s =
          .next ((v.setPacket { k.packetOf ws with subs := bs, grids := bs.any SubLaunch.isGrid }).fwCommit 0 (isNotify q))) ∧
        ∀ code d v w, checkBlocks k.ctx (k.packetOf ws).blocks u = .bad code d v → v.refusePacket (k.packetOf ws) code d = .ok w →
          exec (.packetAccept q) s = .next (w.fwCommit 0 (isNotify q)))) ∧
    (∀ seq p, s.packet? q seq = some p → p.done = false → s.mayStart p = true → (∀ i, i < 2 → p.copyBad i ∉ s.upsets) →
      (p.type = 1 → ∃ t : State, exec (.launch q seq) s = .next t ∧ t = { s with packets := t.packets, launches := t.launches } ∧
        t.packet? q seq = some { p with started := true } ∧
        ∀ l ∈ s.launches, (if l.queue = q ∧ l.seq = seq ∧ l.successor = false then { l with started := true } else l) ∈ t.launches) ∧
      (p.type = 2 → s.halted p.ctx = true → exec (.bundle q seq) s = .next s) ∧
      (p.type = 2 → s.halted p.ctx = false →
        ∃ (u : State) (r : PacketEntry), exec (.bundle q seq) s = .next u ∧ u.mem = s.mem ∧ u.packet? q seq = some r ∧ r.started = true ∧
          r.grids = p.grids ∧ (∀ l ∈ s.launches, l ∈ u.launches) ∧
          (∀ x, .grid x ∈ p.subs → ∃ l ∈ u.launches, l.queue = q ∧ l.seq = seq ∧ l.kern = x.kern ∧ l.nwg = x.nwg ∧ l.started = true) ∧
          (∀ list count, .copies list count ∈ p.subs → ∃ j ∈ u.jobs, j.kind = .copyList ∧ j.idxVa = list ∧ j.total = count ∧ j.id ∈ r.copies) ∧
          ∀ list count tag, .prog list count tag ∈ p.subs → ∃ g ∈ u.progs, g.queue = q ∧ g.seq = seq ∧ g.list = BitVec.ofNat 64 list ∧ g.count = count) ∧
      (∀ a n all s1, p.type = 3 → p.signal = 0 → s.halted p.ctx = false → a = (p.words.getD 1 0).toNat → n = (p.words.getD 2 0).toNat → 0 < n →
        all = decide (wordBits p.words 3 2 0 = 4) →
        s1 = s.invalidate p.ctx (some (a, n)) (fun k => all || dieOf k == 0) (fun z => all || z / 24 == 0) (fun d => all || d == 0) →
        ∃ t : State, exec (.inval q seq) s = .next t ∧ t.cohorts = s.cohorts ∧
          (s1.translated p.ctx (some (a, n)) (fun k => all || dieOf k == 0) = true → t = s1) ∧
          (s1.translated p.ctx (some (a, n)) (fun k => all || dieOf k == 0) = false → ∀ r ∈ t.packets, r.queue = q → r.seq = seq → r.done = true) ∧
          (∀ k ∈ t.cores, (all || dieOf k.core == 0) = true → ∀ e ∈ k.tlb, tlbKeep p.ctx (some (a, n)) e = true) ∧
          (∀ d ∈ t.dies, (all || d.die == 0) = true → ∀ e ∈ d.walk, tlbKeep p.ctx (some (a, n)) e = true)) ∧
      (∀ t1, p.type = 4 → p.refused = false → s.halted p.ctx = false → s.fwMay 0 (some q) (isCompletion q seq) = true → s.completePacket p = .ok t1 →
        exec (.packetComplete q seq) s = .next (t1.fwCommit 0 (isCompletion q seq)))) ∧
    (∀ seq p l t1, s.packet? q seq = some p → p.done = false → p.started = true → p.refused = false → p.type ≠ 4 → s.halted p.ctx = false →
      (∀ i, i < 2 → p.copyBad i ∉ s.upsets) → s.fwMay 0 (some q) (isCompletion q seq) = true →
      s.launches.filter (fun m => m.queue == q && m.seq == seq) = [l] → s.launch? l.id = some l → s.launchEnded l = true → l.successor = false →
      l.degraded = false → (∀ m ∈ s.launches, m.id = l.id → m = l) → (∀ j ∈ s.jobs, j.id ∉ p.copies) → (∀ g ∈ s.progs, g.queue ≠ q ∨ g.seq ≠ seq) →
      (s.setLaunch { l with complete := true }).signalDec p.ctx p.signal = .ok t1 →
      ∃ t : State, exec (.packetComplete q seq) s = .next t ∧ t.mem = t1.mem ∧ (∀ m ∈ t.launches, m.queue ≠ q ∨ m.seq ≠ seq) ∧
        ∀ r ∈ t.packets, r.queue = q → r.seq = seq → r.done = true) ∧
    (∀ seq p e, s.packet? q seq = some p → p.done = false → e ∈ [Instr.launch q seq, .bundle q seq, .inval q seq, .packetComplete q seq] →
      (∀ k t1, p.copyBad 0 ∈ s.upsets → p.copyBad 1 ∈ s.upsets → s.queue? q = some k → k.broken = false →
        s.breakQueue q seq 9 (s.lostDetail k) = .ok t1 → ∃ hit, exec e s = .next (t1.fwCommit 0 hit)) ∧
      ((p.copyBad 0 ∉ s.upsets ∨ p.copyBad 1 ∉ s.upsets) →
        exec e s = exec e { s with upsets := s.upsets.filter fun u => !(u == p.copyBad 0 || u == p.copyBad 1) })) ∧
    (∀ g bs s1 own s2 s3 s4 p e out, s.progs.find? (fun h => h.id == g.id) = some g → s.halted g.ctx = false → g.dead = false →
      s.feRead g.ctx (g.list.toNat + 32 * g.next) 32 = .ok (bs, s1) → p = progStepOf bs → p.ok = true →
      s1.groupRanks (bitsOf p.imm 7 4) = [e] → e.2.faddr = s1.faddr → e.2.state = 0 → (p.sub = 3 → bitsOf p.imm 31 8 = 0) →
      s1.feRead g.ctx p.buf p.len = .ok (own, s2) → out = p.outcome (g.id + g.next) 1 0 false [own] →
      s2.feWrite g.ctx p.buf (out.flatMap (·.2)) = .ok s3 →
      s3.feWrite g.ctx (g.list.toNat + 32 * g.next + 24) (natBytes 8 (mapOf (out.map (·.1)))) = .ok s4 →
      ∃ t : State, exec (.collProgramStep g.id [] false) s = .next t ∧ t = { s4 with progs := t.progs, dies := t.dies, upsets := t.upsets } ∧
        t.progs = if g.count ≤ g.next + 1 then s4.progs.filter (fun x => x.id != g.id)
          else s4.progs.map fun (x : CollProg) => if x.id = g.id then { x with next := g.next + 1 } else x)

/-- Placement, reservation, pre-emption, restore, continuations and remote writes that land (R23, R24, R28 to R31, R65, R109, R204, R218, R219, R243 to
R246, R438): a victim that cannot leave in time stays as if the event had never come. They complete: workgroupPlacement, reservation, preemptionSave,
preemptionTimeout, workgroupRestore, continuationResume, rwrLanding. -/
def Obligations.WorkgroupsMove : Prop :=
  ∀ (s : State) (die : Nat),
    (∀ u l h core block rest, u = s.nameTargets die → u.heads die = (l, h) :: rest → l.kern.qg = false → l.kern.indigo = false →
      u.findPlace l die = some [(core, block)] →
      ∃ (t : State) (w : Wg), exec (.workgroupPlacement die) s = .next t ∧ t.wgs = s.wgs ++ [w] ∧ w.launch = l.id ∧ w.wgid = h.next ∧ w.core = core ∧
        w.block = block ∧ w.blocks = l.kern.blocks ∧ w.live = l.kern.wgsize ∧ (∀ c ∈ s.cohorts, c ∈ t.cohorts) ∧
        (∀ j, j < l.kern.wgsize → ∃ c ∈ t.cohorts, c.wg = w.id ∧ c.launch = l.id ∧ c.ctx = l.ctx ∧ c.core = core ∧ c.chid = BitVec.ofNat 32 j ∧
          c.wgid = BitVec.ofNat 32 h.next ∧ c.nch = BitVec.ofNat 32 l.kern.wgsize ∧ c.width = l.kern.cohort ∧ c.code = l.kern.code ∧ c.prio = l.prio ∧
          c.s0 = some ⟨l.kern.entry, lanesMask l.kern.cohort⟩ ∧ c.s1 = none ∧ c.stack = [] ∧ c.vstat = 0 ∧ c.dead = 0 ∧
          c.spill = l.spill + BitVec.ofNat 64 ((h.next * l.kern.wgsize + j) * (256 * l.kern.regs + 4096)) ∧
          c.srseed = BitVec.ofNat 64 ((h.next * l.kern.wgsize + j + 1) * 0x6A09E667F3BCC909) ∧
          c.regs = ((List.replicate l.kern.regs (VReg.u 0)).set 0 (.u (DWord.lo l.args))).set 1 (.u (DWord.hi l.args))) ∧
        (∀ a, tileKey core (8192 * block) ≤ a → a < tileKey core (8192 * (block + l.kern.blocks)) → memByte t.mem a = 0) ∧
        (∀ a, (a < tileKey core (8192 * block) ∨ tileKey core (8192 * (block + l.kern.blocks)) ≤ a) → memByte t.mem a = memByte s.mem a) ∧
        ∀ n, 64 * block ≤ n → n < 64 * (block + l.kern.blocks) → n ∉ (t.core core).full) ∧
    (∀ l h k, s.heads die = [(l, h)] → 4 ≤ h.passed → h.target = some k → l.kern.qg = false → (∀ c ∈ s.cores, c.reserve = none) →
      ∃ t : State, exec (.reservation die) s = .next t ∧ t = { s with cores := t.cores } ∧
        t.core k = { s.core k with reserve := some (l.id, reserveWindow (s.loadOf k []).regions l.kern.blocks, l.kern.blocks) } ∧
        ∀ c, c ≠ k → t.core c = s.core c) ∧
    (∀ w v l first at_ t1, s.wg? w = some v → v.twin = none → v.preempt = some (at_, l, first) →
      (∀ m, s.launch? v.launch = some m → s.halted m.ctx = false →
        (at_ + 8192 ≤ s.cycle (dieOf v.core) ∨ ∃ c ∈ s.cohorts, c.wg = v.id ∧ c.pend.getLsbD 16 = true) →
        exec (.preemptionSave w) s = .next (s.spare v)) ∧
      (s.drained v = true → s.wcTaken v.core = false → s.cycle (dieOf v.core) < at_ + 8192 →
        (∀ c ∈ s.cohorts, c.wg = v.id → c.pend.getLsbD 16 = false ∧ c.windows = [] ∧ c.twin = none) →
        ∀ m, s.launch? v.launch = some m → s.halted m.ctx = false →
        writeSaves m (((s.launch? l).map (·.ctx)).getD 0) [v] ((s.release v.core).landFor v.id) = .ok t1 →
        ∃ (t : State) (r : SavedWg), exec (.preemptionSave w) s = .next t ∧ r ∈ t.saved ∧ r.id = v.id ∧ r.cohorts.map (·.cid) =
          (t1.cohorts.filter fun c => c.wg == v.id).map (·.cid) ∧ t.wg? v.id = none ∧ (∀ c ∈ t.cohorts, c.wg ≠ v.id) ∧
          ∀ a, (a < tileKey v.core (8192 * v.block) ∨ tileKey v.core (8192 * (v.block + v.blocks)) ≤ a) → memByte t.mem a = memByte t1.mem a) ∧
      (at_ + 8192 ≤ s.cycle (dieOf v.core) →
        ∃ t : State, exec (.preemptionTimeout w) s = .next t ∧ t = s.spare v ∧
          t.wg? w = some { v with preempt := none, spared := v.spared ++ [(l, first)] } ∧
          ((∀ c ∈ s.cohorts, c.wg = v.id → c.wait = .none ∧ c.kept = .none) → t = { s with wgs := t.wgs, cohorts := t.cohorts }))) ∧
    (∀ k v l core block bs s1, s.saved.find? (fun y => y.id == k) = some v → s.launch? v.wg.launch = some l → s.mayPlace l = true → v.wg.twin = none →
      s.restorePlace v l (dieCores v.die) = some (core, block) → s.readSave v l.ctx = .ok (bs, s1) → s1.wg? v.wg.id = none →
      ∃ t : State, exec (.workgroupRestore k) s = .next t ∧ (∀ y ∈ t.saved, y.id ≠ v.id) ∧
        t.cohorts.length = s1.cohorts.length +
          ((List.range l.kern.wgsize).filterMap fun j => v.cohorts.find? fun c => c.chid.toNat == j).length ∧
        ∃ w ∈ t.wgs, w.id = v.wg.id ∧ w.core = core ∧ w.block = block) ∧
    (∀ p e l core bs more s1 s2 size, s.resumable die = some (p, e) → s.launch? p.launch = some l →
      (∃ b, s.bestCore l false (dieCores die) = some (core, b)) → s.feRead l.ctx p.addr.toNat 192 = .ok (bs, s1) →
      size = ((List.range (bitsOf (leNat (bs.take 128)) 180 176)).map fun i =>
        bodySize (bitsOf (leNat (bs.take 128)) (193 + 2 * i) (192 + 2 * i))).foldl (· + ·) 0 →
      s1.feRead l.ctx (p.addr.toNat + 192) size = .ok (more, s2) →
      ∃ t : State, exec (.continuationResume die) s = .next t ∧ (∀ y ∈ t.parked, y.cid ≠ p.cid) ∧
        ∀ w ∈ t.waitTable, w.die = e.die → w.index ≠ e.index) ∧
    (∀ k g, s.landings.find? (fun y => y.sender == k) = some g →
      (∀ c, s.cohort? g.target = some c → c.holdsReg g.reg = false → s.halted c.ctx = false →
        ∃ (t : State) (d : Cohort), exec (.rwrLanding k) s = .next t ∧ t.landings = s.landings.erase g ∧ t.cohort? g.target = some d ∧
          d = { c.land g with rows := d.rows, spilled := d.spilled } ∧ ∀ n e, n ≠ g.target → s.cohort? n = some e →
            ∃ y : Cohort, t.cohort? n = some y ∧ y = { e with rows := y.rows, spilled := y.spilled }) ∧
      (s.cohort? g.target = none → (∀ v ∈ s.saved, ∀ c ∈ v.cohorts, c.cid ≠ g.target) →
        exec (.rwrLanding k) s = .next { s with landings := s.landings.erase g }))

/-- The engines' events (R110, R139, R140, R143, R150, R152, R162, R169 to R178, R86 to R88): a matrix step delivers step_sum in the captured lanes' rows of its
bank and leaves every other row; one whose replay mismatches too writes no bank, fences its engine and stops its context; a request for banks is granted, a
freed bank returns; a line of an RCOPY, a load or a store is moved whole, or not at all when its unit's replay mismatches; a paused job goes on or stops its
context; a finished job's counter goes up by one. (That SAT of an EPI reaches $VSTAT when the job completes is the model's reading: DEDUCED, log entry 48. The errors of
circuits by which a replay fails, or counts, come from outside a state's own events: DESIGN CHOICE, log entry 78.) They complete: matrixStep, bankGrant, bankReturn, lineLands, jobResume, jobComplete. -/
def Obligations.EngineEvents : Prop :=
  ∀ (s : State) (core : Nat),
    (∀ m, s.nextMma core = some m → s.mmaReady core m = true → m.lines.find? (s.lineBad core) = none → Upset.bank core m.bank ∉ s.upsets →
      (s.replayBad 2 core = true → core < 8192 → ∃ (t : State) (y : Ctx), exec (.matrixStep core) s = .next t ∧ t = s.engineReplay 2 core m.ctx m.cid m.pc ∧
        (t.core core).banks = (s.core core).banks ∧ (t.core core).mmaQ = (s.core core).mmaQ ∧ t.mem = s.mem ∧ t.coreFenced core = true ∧
        t.ctx? m.ctx = some y ∧ y.halt = true ∧ y.noResume = true) ∧
      (s.replayBad 2 core = false → ∃ t : State, exec (.matrixStep core) s = .next t ∧ t = { s with cores := t.cores, upsets := t.upsets, units := t.units } ∧
        (Upset.mismatch (BitVec.ofNat 16 (2 * 8192 + core)) ∉ s.upsets → t.upsets = s.upsets ∧ t.units = s.units) ∧
        (Upset.mismatch (BitVec.ofNat 16 (2 * 8192 + core)) ∈ s.upsets →
          (t.unitRec (BitVec.ofNat 16 (2 * 8192 + core))).mism = min 255 ((s.unitRec (BitVec.ofNat 16 (2 * 8192 + core))).mism + 1)) ∧
        (t.core core).mmaQ = (s.core core).mmaQ.filter (fun q => q.seq != m.seq) ∧
        (∀ n, n ≠ m.bank → (t.core core).banks[n]? = (s.core core).banks[n]?) ∧
        ∀ b, (s.core core).banks[m.bank]? = some b → ∃ b', (t.core core).banks[m.bank]? = some b' ∧ b'.owner = b.owner ∧
          ∀ i j, i < 64 → j < 32 → b'.val i j = if m.lanes.getLsbD i then
            stepSum (b.val i j) ((List.range (stepDepth m.typA)).map fun k => mmaProduct m.typA m.typB
              ((m.aVals.getD i 0).toNat / 2 ^ (k * (64 / stepDepth m.typA)) % 2 ^ (64 / stepDepth m.typA)) (s.bElem core m k j) (s.mmaScale core m i j))
            else b.val i j)) ∧
    (∀ cid n c od, (s.core core).bankQ = [(cid, n)] → n ≤ ((s.core core).banks.filter fun b => b.owner.isNone).length → s.cohort? cid = some c →
      c.wait = .banks od →
      ∃ (t : State) (d : Cohort), exec (.bankGrant core) s = .next t ∧ t.mem = s.mem ∧ (t.core core).bankQ = [] ∧
        (t.core core).serial = (s.core core).serial + 1 ∧ t.cohort? cid = some d ∧
        d = { c.granted (handleOf n ((s.core core).serial + 1)) with rows := d.rows, spilled := d.spilled }) ∧
    (∀ n b, (s.core core).banks[n]? = some b → b.freed = true → s.bankBusy core n = false → (s.core core).bankQ = [] →
      ∃ t : State, exec (.bankReturn core n) s = .next t ∧ t = { s with cores := t.cores } ∧
        t.core core = { s.core core with banks := (s.core core).banks.set n { owner := none, freed := false, vals := [] } }) ∧
    (∀ j x, s.job? j.id = some j → s.halted j.ctx = false → s.ctx? j.ctx = some x →
      (j.status = 0 → s.jobBlocked j = false → ∀ t, s.lineFails j = some t → exec (.lineLands j.id) s = .next t) ∧
      (∀ v, v = s.lineReplayed j → j.status = 0 → s.jobBlocked j = false → s.lineFails j = none → v = { s with upsets := v.upsets, units := v.units } ∧
        (j.kind = .rcopy → j.role = .secondary → exec (.lineLands j.id) s = .next v) ∧
        (j.kind = .rcopy → j.role ≠ .secondary → j.srcRank = s.pkgRank.toNat → j.total = 1 → j.landed = [] → s.servesLine j.srcCore j.srcLine = true →
          s.linesFull j.srcCore [j.srcLine] = true → s.lineBad j.srcCore j.srcLine = false →
          ∃ t : State, exec (.lineLands j.id) s = .next t ∧ t = v.landLine j 0 (memBytes s.mem (tileKey j.srcCore (128 * j.srcLine)) 128) ∧
            (j.role = .single → s.plainStores → j.line0 ∈ (t.core j.core).full ∧ v.onlyAccess { t with jobs := s.jobs } ∧
              (∀ k, k < 128 → memByte t.mem (tileKey j.core (128 * j.line0) + k) = memByte s.mem (tileKey j.srcCore (128 * j.srcLine) + k)) ∧
              ∀ a, (a < tileKey j.core (128 * j.line0) ∨ tileKey j.core (128 * j.line0) + 128 ≤ a) → memByte t.mem a = memByte s.mem a)) ∧
        (∀ r line s1 j1, (j.kind = .copyLd ∨ j.kind = .gather) → j.trec = some r → j.role = .single → line = Job.bitAt r j.next / 1024 →
          loadElems x r line (j.total + 1 - j.next) v j none = .ok (s1, j1, none) → (∃ i, s1.job? j.id = some i) →
          ∃ (t : State) (i : Job), exec (.lineLands j.id) s = .next t ∧ t.mem = s1.mem ∧ j.line0 + line ∈ (t.core j.core).full ∧ t.job? j.id = some i ∧
            i.next = j1.next ∧ i.status = if j1.total ≤ j1.next then 3 else j1.status) ∧
        (∀ r line s1 j1, (j.kind = .copySt ∨ j.kind = .scatter) → j.trec = some r → line = Job.bitAt r j.next / 1024 →
          s.linesFull j.core [j.line0 + line] = true → s.lineBad j.core (j.line0 + line) = false →
          storeElems x r line (j.total + 1 - j.next) v j = .ok (s1, j1) → (∃ i, s1.job? j.id = some i) →
          ∃ (t : State) (i : Job), exec (.lineLands j.id) s = .next t ∧ t.mem = s1.mem ∧ t.job? j.id = some i ∧
            i.next = j1.next ∧ i.status = if j1.total ≤ j1.next then 3 else j1.status)) ∧
      (j.status = 1 →
        (s.pageReq? j.ctx none j.pausedAt = none → exec (.jobResume j.id) s = .next (s.setJob { j with status := 0 })) ∧
        (∀ r, s.pageReq? j.ctx none j.pausedAt = some r → r.status = 2 →
          ∃ (t : State) (y : Ctx), exec (.jobResume j.id) s = .next t ∧ t.ctx? j.ctx = some y ∧ y.halt = true ∧ y.firstCause = 11 ∧ t.mem = s.mem)) ∧
      (j.status = 3 → j.windows = [] → j.role = .single → j.kind ≠ .copyList → j.kind ≠ .collStep → j.held = true → s.poisoned j.ctrPa 8 = false →
        s.wordHeld j.ctrPa 8 = false → (∀ l, j.ctrLeaf = some l → l < j.ctrPa ∨ j.ctrPa + 8 ≤ l) → s.plainStores →
        ∃ t : State, exec (.jobComplete j.id) s = .next t ∧ t.jobs = s.jobs.filter (fun i => i.id != j.id) ∧
          memNat t.mem j.ctrPa 8 = (memNat s.mem j.ctrPa 8 + 1) % 2 ^ 64 ∧
          (∀ l, j.ctrLeaf = some l → memByte t.mem l = memByte s.mem l ||| 0x40) ∧
          (∀ a, (a < j.ctrPa ∨ j.ctrPa + 8 ≤ a) → j.ctrLeaf ≠ some a → memByte t.mem a = memByte s.mem a) ∧
          ∀ c, s.cohort? j.cid = some c → t.cohort? j.cid = some (if j.satSeen then { c with vstat := setFlags c.vstat flagSAT } else c)))

/-- The slots' and the combining buffer's events, and pages (R42, R43, R45, R108, R120, R480): a starved cohort issues next, a yield ends after its time, a
read that lost its bank three times is pinned unless the collector is full or the bank grants it, and no pinned read is lost before its bank has had the cycles
to grant it; a line that no store has written for 256 cycles is written to memory, its bytes and no other, unless an atomic holds a word of it; a requested page that a
range lists and a free frame fits (the lowest of its pool: log entry 16) becomes resident: its bytes are its backing's, its leaf entry names the frame with P = 1, and its request is answered; a pin ends after 2^20 cycles. They
complete: starvationQualify, yieldExpiry, readPin, combiningFlush, pageMakeResident, pagePinExpiry. -/
def Obligations.BuffersAndPages : Prop :=
  ∀ (s : State),
    (∀ c, s.cohort? c.cid = some c →
      (4084 ≤ c.starve → (c.wait = .none ∨ c.wait = .retry) → c.stopped = false →
        exec (.starvationQualify c.cid) s = .next { s with agenda := { dt := 0, what := .issue c.cid } :: s.agenda }) ∧
      (∀ n, c.yieldUntil = some n → n ≤ s.cycle (dieOf c.core) → exec (.yieldExpiry c.cid) s = .next (s.setCohort { c with yieldUntil := none }))) ∧
    (∀ core slot bank cid losses live, live = servePins (s.cycle (dieOf core) - (s.core core).pinsAt) [] (s.core core).pins →
      ∃ t : State, exec (.readPin core slot bank cid losses) s = .next t ∧ t = { s with cores := t.cores } ∧
        t.core core = { s.core core with pins := (t.core core).pins, pinsAt := s.cycle (dieOf core) } ∧ (∀ p ∈ live, p ∈ (t.core core).pins) ∧
        (3 ≤ losses → (((live.filter fun p => p.slot == slot && p.cid != cid).map (·.cid)).eraseDups).length < 4 →
          (live.filter fun p => p.slot == slot && p.cid == cid).length < 12 →
          s.bankGrants core slot bank live ((s.onSlot core slot).map (·.cid)) ≠ some cid →
          ⟨slot, bank, cid, s.cycle (dieOf core)⟩ ∈ (t.core core).pins ∧ (t.core core).pins.length = live.length + 1) ∧
        ((losses < 3 ∨ s.bankGrants core slot bank live ((s.onSlot core slot).map (·.cid)) = some cid) → (t.core core).pins = live)) ∧
    (∀ core w, (s.core core).wc = [w] → (w.bytes.map Prod.fst).Nodup →
      (w.last + 256 ≤ s.cycle (dieOf core) → s.wordHeld (128 * w.line) 128 = false → s.plainStores → ∃ t : State, exec (.combiningFlush core) s = .next t ∧ (t.core core).wc = [] ∧ s.onlyAccess t ∧
        (∀ b ∈ w.bytes, memByte t.mem (w.line * 128 + b.1) = b.2) ∧
        ∀ a, (∀ b ∈ w.bytes, a ≠ w.line * 128 + b.1) → memByte t.mem a = memByte s.mem a) ∧
      ((s.cycle (dieOf core) < w.last + 256 ∨ s.wordHeld (128 * w.line) 128 = true) → ∃ t : State, exec (.combiningFlush core) s = .next t ∧ t.mem = s.mem ∧ (t.core core).wc = [w])) ∧
    ∀ (x : Ctx) (k : BitVec 16) (va : Nat), s.ctx? k = some x →
      (∀ e r f host, (∃ q ∈ s.pageReqs, q.ctx = k ∧ q.va = s.pageBase k va ∧ q.status = 0) →
        s.fwMay 0 none (fun v => v == .pageRequest k (s.pageBase k va) || v == .eviction k (s.pageBase k va)) = true → walkLevels s k [] va [0, 1, 2, 3] x.root = .leaf e false →
        s.rangeOf k e.va e.size = some r → host = r.host + (e.va - r.va) → x.rpoolLen ≠ 0 → host + e.size ≤ 2 ^ 50 → x.freeFrame e.size = some f →
        (e.leaf + 8 ≤ f ∨ f + e.size ≤ e.leaf) →
        ∃ t : State, exec (.pageMakeResident k va) s = .next t ∧ (∀ q ∈ t.pageReqs, q.ctx ≠ k ∨ q.va ≠ s.pageBase k va) ∧
          (∀ i, i < e.size → memByte t.mem (f + i) = memByte s.mem (hostPa host + i)) ∧
          memNat t.mem e.leaf 8 = (memNat s.mem e.leaf 8 / 2 ^ 52 * 2 ^ 52 + f + pteBits (memNat s.mem e.leaf 8) 4 0 +
            (1 - pteBits (memNat s.mem e.leaf 8) 2 2) * 4) % 2 ^ 64 ∧
          ∀ a, (a < f ∨ f + e.size ≤ a) → (a < e.leaf ∨ e.leaf + 8 ≤ a) → memByte t.mem a = memByte s.mem a) ∧
      (∃ (t : State) (y : Ctx), exec (.pagePinExpiry k va) s = .next t ∧ t = { s with ctxs := t.ctxs } ∧ t.ctx? k = some y ∧
        y = { x with pinned := y.pinned } ∧ ∀ p, p ∈ y.pinned ↔ p ∈ x.pinned ∧ ¬(p.1 = s.pageBase k va ∧ p.2.2 + 2 ^ 20 ≤ s.cycle 0))

/-! ### Collectives, pulls and the fabric -/

/-- Collectives and pulls (R175 to R179, R184 to R187): a collective that may start starts; alone, it ends with its window as it was, every chunk final
and one arrival at its object; a mismatch stops its context; a broadcast leaves the root's window. A pull is taken, refused or answered with its
line; an answer lands it; an unanswered request goes out again. They complete: collectiveStart, collectiveComplete, pullRequest, pullLineRead, pullResponse,
pullReissue. -/
def Obligations.CollectivesAndPulls : Prop :=
  ∀ (s : State),
    (∀ k j t, s.colls.find? (fun (x : Coll) => x.id == k.id) = some k → s.job? k.id = some j → k.started = false → k.ready = true →
      ((s.launch? k.launch).map (·.kern.wgsize)).getD 1 ≤ k.issued.length → s.halted k.ctx = false → s.jobBlocked j = false →
      s.linesFull k.core k.lines = true → s.collMisfit k = false → s.groupActive k.group = true → (∀ n ∈ k.lines, s.lineBad k.core n = false) →
      k.aborted = false → t = { s with colls := s.colls.map fun (x : Coll) => if x.id = k.id then { x with started := true } else x } →
      ((s.groupRanks k.group).length ≠ 1 → exec (.collectiveStart k.id) s = .next t) ∧
      ((s.groupRanks k.group).length = 1 → k.nlines ≤ 64 → k.ilv ≤ 3 →
        (k.sub = 2 ∨ k.sub = 3 ∨ k.typ ∈ [Typ.u32, .s32, .f32, .f16, .bf16]) → s.plainStores → k.held = true → s.wordHeld k.objPa 32 = false →
        s.poisoned k.objPa 32 = false → objExpect (memNat s.mem k.objPa 32) ≠ 0 → (∀ l, k.objLeaf = some l → l < k.objPa ∨ k.objPa + 32 ≤ l) →
        ∃ u : State, exec (.collectiveStart k.id) s = .next u ∧ (∀ n ∈ k.lines, n ∈ (u.core k.core).full) ∧ (∀ x ∈ u.colls, x.id ≠ k.id) ∧
          memNat u.mem k.objPa 32 = collObject (memNat s.mem k.objPa 32) (mapOf (List.replicate ((k.nlines + 1) / 2) 2)) s.mgen false % 2 ^ 256 ∧
          ∀ a, (a < k.objPa ∨ k.objPa + 32 ≤ a) → k.objLeaf ≠ some a → memByte u.mem a = memByte s.mem a)) ∧
    (∀ k j peers, s.colls.find? (fun (x : Coll) => x.id == k.id) = some k → s.job? k.id = some j → k.started = true → s.halted k.ctx = false →
      ((s.launch? k.launch).map (·.kern.wgsize)).getD 1 ≤ k.issued.length → k.held = true → s.poisoned k.objPa 32 = false →
      (∃ (u : State) (y : Ctx), exec (.collectiveComplete k.id peers true) s = .next u ∧ (∀ x ∈ u.colls, x.id ≠ k.id) ∧ u.ctx? k.ctx = some y ∧
        y.halt = true ∧ y.firstCause = 11) ∧
      (∀ me, s.position k.group = some me → peers.length + 1 = (s.groupRanks k.group).length → (∀ b ∈ peers, b.length = 128 * k.nlines) →
        k.sub = 3 → k.root < (s.groupRanks k.group).length → k.nlines ≤ 64 → k.ilv ≤ 3 →
        (k.objPa + 32 ≤ tileKey k.core (128 * k.line0) ∨ tileKey k.core (128 * (k.line0 + k.nlines)) ≤ k.objPa) → s.wordHeld k.objPa 32 = false →
        s.plainStores →
        ∃ u : State, exec (.collectiveComplete k.id peers false) s = .next u ∧ (∀ x ∈ u.colls, x.id ≠ k.id) ∧
          (∀ n ∈ k.lines, n ∈ (u.core k.core).full) ∧
          ∀ i, i < 128 * k.nlines →
            u.tileByte k.core k.line0 k.ilv i = ((peers.take me ++ [s.collWindow k] ++ peers.drop me).getD k.root []).getD i 0)) ∧
    (∀ src gen txid core line p, p = { id := s.fresh, src := src, gen := gen, txid := txid, core := core, line := line } →
      (gen ≠ s.mgen → exec (.pullRequest src gen txid core line) s = .next s) ∧
      (gen = s.mgen → s.inJob src.addr = true → s.servesLine core line = true →
        exec (.pullRequest src gen txid core line) s = .next { s with fresh := s.fresh + 1, serves := s.serves ++ [p] }) ∧
      (gen = s.mgen → (s.inJob src.addr && s.servesLine core line) = false →
        ∃ u : State, exec (.pullRequest src gen txid core line) s = .next u ∧ u.mem = s.mem ∧ (∀ q ∈ u.serves, q ∈ s.serves) ∧
          ∀ k n, k = s.packetTo (dieOf core) src.addr src.die txid (.pullResp true line []) → s.sendsAt (dieOf core) k n → s.sent u ((s.port n).leaves k))) ∧
    (∀ p, s.serves.find? (fun q => q.id == p.id) = some p → s.servesLine p.core p.line = true →
      (s.linesFull p.core [p.line] = false → exec (.pullLineRead p.id) s = .next s) ∧
      (s.linesFull p.core [p.line] = true → s.lineBad p.core p.line = false →
        ∃ u : State, exec (.pullLineRead p.id) s = .next u ∧ u.mem = s.mem ∧ (∀ q ∈ u.serves, q.id ≠ p.id) ∧
          ∀ k n, k = s.packetTo (dieOf p.core) p.src.addr p.src.die p.txid (.pullResp false p.line (memBytes s.mem (tileKey p.core (128 * p.line)) 128)) →
            s.sendsAt (dieOf p.core) k n → s.sent u ((s.port n).leaves k))) ∧
    (∀ p, s.serves.find? (fun q => q.id == p.id) = some p → s.servesLine p.core p.line = false →
      exec (.pullLineRead p.id) s = .next (s.answerPull p true [])) ∧
    (∀ p j data, s.pulls.find? (fun q => q.txid == p.txid) = some p → s.job? p.job = some j → s.halted j.ctx = false →
      (∃ (u : State) (y : Ctx), exec (.pullResponse p.txid true data) s = .next u ∧ u.ctx? j.ctx = some y ∧ y.halt = true ∧ y.firstCause = 11 ∧
        u.mem = s.mem) ∧
      (p.line ∉ j.landed → data.length = 128 → ∃ u : State, exec (.pullResponse p.txid false data) s = .next u ∧
        (∀ q ∈ u.pulls, q.txid ≠ p.txid) ∧ j.line0 + p.line ∈ (u.core j.core).full ∧
        (j.role = .single → s.plainStores → (∀ i, i < 128 → memByte u.mem (tileKey j.core (128 * (j.line0 + p.line)) + i) = data.getD i 0) ∧
          ∀ a, (a < tileKey j.core (128 * (j.line0 + p.line)) ∨ tileKey j.core (128 * (j.line0 + p.line)) + 128 ≤ a) →
            memByte u.mem a = memByte s.mem a)) ∧
      (∀ t e, s.adopted = some t → t.entries[p.rank]? = some e → p.sent + 2 ^ 20 ≤ s.cycle p.txid.die →
        ∃ u : State, exec (.pullReissue p.txid) s = .next u ∧ u.mem = s.mem ∧ (u.die p.txid.die).txid = (s.die p.txid.die).txid + 1 ∧
          u.pulls = s.pulls.map (fun r => if r.txid = p.txid then { p with txid := ⟨p.txid.die, (s.die p.txid.die).txid⟩, sent := s.cycle p.txid.die } else r) ∧
          ∀ k n, k = s.packetTo p.txid.die e.faddr (j.srcCore / 96) (s.die p.txid.die).txid (.pullReq j.srcCore (j.srcLine + p.line)) →
            s.sendsAt p.txid.die k n → s.sent u ((s.port n).leaves k)))

/-- Flits, ports and the pod barrier's packets (R189 to R194, R347): a flit reads back as it was made; one with a bad CRC or after a gap is answered with NACK;
one in order is taken, and a packet that it ends is processed, held or dropped by its generation, while an idle flit carries the ACK back; a NACK replays; a
port fails; held packets time out. A packet leaves in its flits by its route, or is counted without one. A pod barrier counts arrivals, answers again, completes
and resends. (The model's own: where KSPEC and a control packet's bits lie, log entries 63 and 79; the port counts and who is answered, log entry 81; an idle
flit after each flit that is accepted when nothing else leaves, and the port that counts a stale pod packet, log entry 95.) They complete: flitReceive,
portFail, heldPacketTimeout, podBarrierArrive, podBarrierComplete, podBarrierResend. -/
def Obligations.FabricEvents : Prop :=
  ∀ (s : State) (n : Nat) (p : Port), p = s.port n →
    (∀ ft cls seq ack xoff data f, ft < 16 → cls < 4 → 1 ≤ data.length → data.length ≤ flitBytes → f = flitOf ft cls seq ack xoff data →
      flitCrcOk f = true ∧ flitField f 3 0 = ft ∧ flitField f 5 4 = cls ∧ flitField f 23 8 = seq.toNat ∧ flitField f 39 24 = ack.toNat ∧
      flitField f 47 44 = xoff.toNat ∧ flitPayload f = data) ∧
    (∀ (f : BitVec 2048) (q : Port) ft seq, p.up = true → q = { p.applyAck (BitVec.ofNat 16 (flitField f 39 24)) with xoff := BitVec.ofNat 4 (flitField f 47 44) } →
      ft = flitField f 3 0 → seq = BitVec.ofNat 16 (flitField f 23 8) →
      (flitCrcOk f = false → ∃ u : State, exec (.flitReceive n f) s = .next u ∧ s.onlyPorts u ∧ s.sent u [p.flit 3 0 0 []] ∧ u.port n = p.countUp 2) ∧
      (flitCrcOk f = true → 4 ≤ ft → exec (.flitReceive n f) s = .next s) ∧
      (flitCrcOk f = true → p.queued = [] → (ft = 0 ∨ ((ft = 1 ∨ ft = 2) ∧ (seq = p.lastRx ∨ 2 ^ 15 ≤ (seq - p.lastRx).toNat))) →
        ∃ u : State, exec (.flitReceive n f) s = .next u ∧ s.onlyPorts u ∧ s.sent u [] ∧ u.port n = q) ∧
      (flitCrcOk f = true → (ft = 1 ∨ ft = 2) → 2 ≤ (seq - p.lastRx).toNat → (seq - p.lastRx).toNat < 2 ^ 15 →
        ∃ u : State, exec (.flitReceive n f) s = .next u ∧ s.onlyPorts u ∧ s.sent u [p.flit 3 0 0 []] ∧ u.port n = q) ∧
      (flitCrcOk f = true → ft = 3 → p.queued = [] → q.nacks + 1 < 32 → ∃ u : State, exec (.flitReceive n f) s = .next u ∧ s.onlyPorts u ∧
        s.sent u (q.replay.map fun x => p.flit x.ft x.cls x.seq x.data) ∧ (u.port n).nacks = q.nacks + 1 ∧ (u.port n).replay = q.replay) ∧
      (flitCrcOk f = true → ft = 3 → 32 ≤ q.nacks + 1 →
        exec (.flitReceive n f) s = .next ((s.setPort { q with nacks := q.nacks + 1 }).failPort n)) ∧
      (flitCrcOk f = true → (ft = 1 ∨ ft = 2) → seq = p.lastRx + 1 → p.queued = [] → ∀ o r,
        ({ q with lastRx := seq } : Port).takeFlit (ft = 1) (flitField f 5 4) (flitPayload f) = (o, r) →
        (o = none → ∃ u : State, exec (.flitReceive n f) s = .next u ∧ s.onlyPorts u ∧ s.sent u [(u.port n).flit 0 0 0 []] ∧ u.port n = r.pressure) ∧
        (∀ k, o = some k → k.dst = s.faddr → (∀ m, k.body ≠ .reward m) →
          (∀ e, packetEvent k = some e → k.gen = s.mgen → ∃ u : State, exec (.flitReceive n f) s = .next u ∧
            u.agenda = { dt := 0, what := .event e } :: s.agenda ∧ s.onlyPorts { u with agenda := s.agenda, heardOn := s.heardOn } ∧
            ((∀ h, k.body ≠ .heartbeat h) → u.heardOn = s.heardOn) ∧
            (∀ h, k.body = .heartbeat h → u.heardOn.find? (fun x => x.1 == h.src) = some (h.src, n)) ∧
            s.sent u [(u.port n).flit 0 0 0 []] ∧ u.port n = r.pressure) ∧
          (k.body.cls ≠ 0 → newer k.gen s.mgen = true → p.held.length < 256 → ∃ u : State, exec (.flitReceive n f) s = .next u ∧ s.onlyPorts u ∧
            s.sent u [(u.port n).flit 0 0 0 []] ∧ u.port n = ({ r with held := p.held ++ [(k, s.cycle (n / 2))] } : Port).pressure) ∧
          (k.body.cls ≠ 0 → k.gen ≠ s.mgen → newer k.gen s.mgen = false → ∃ u : State, exec (.flitReceive n f) s = .next u ∧ s.onlyPorts u ∧
            s.sent u [(u.port n).flit 0 0 0 []] ∧ u.port n = (r.countUp 0).pressure) ∧
          (∀ x, (k.body = .podArrive x ∨ k.body = .podComplete x) → k.gen ≠ s.mgen → ∃ u : State, exec (.flitReceive n f) s = .next u ∧ s.onlyPorts u ∧
            s.sent u [(u.port n).flit 0 0 0 []] ∧ u.port n = (r.countUp 5).pressure)))) ∧
    (∀ loss, p.up = true →
      (loss = false → p.nacks < 32 → exec (.portFail n loss) s = .next s) ∧
      ((loss = true ∨ 32 ≤ p.nacks) → exec (.portFail n loss) s = .next (s.failPort n) ∧
        (p.queued = [] → s.onlyPorts (s.failPort n) ∧ s.sent (s.failPort n) [] ∧
          (s.failPort n).port n = { p with up := false, replay := [], queued := [], parts := [], nacks := 0, xoff := 0 } ∧
          ∀ m, m ≠ n → (s.failPort n).port m = s.port m))) ∧
    (∃ u : State, exec (.heldPacketTimeout n) s = .next u ∧ s.onlyPorts u ∧
      (∀ h, h ∈ (u.port n).held ↔ h ∈ p.held ∧ s.cycle (n / 2) < h.2 + 2 ^ 24) ∧
      u.port n = { p with held := (u.port n).held, xoffOut := (u.port n).xoffOut,
                          counts := p.counts.set 1 (satAdd (p.counts.getD 1 0) (p.held.length - (u.port n).held.length)) }) ∧
    (∀ die k,
      (∀ m, s.sendsAt die k m → s.onlyPorts (s.send die k) ∧ s.sent (s.send die k) ((s.port m).leaves k) ∧
        ((s.send die k).port m).replay = (s.port m).replay ++ (s.port m).flitsOf k ∧ ∀ l, l ≠ m → (s.send die k).port l = s.port l) ∧
      (s.routes.find? (fun r => r.1 == die && r.2.1 == k.dst) = none → s.send die k = s.setPort ((s.port (2 * die)).countUp 4))) ∧
    (∀ (k : PodPkt) (b : PodBar), b = s.podBar (podPktKey k) →
      (k.gen ≠ s.mgen → ∀ e ∈ [Instr.podBarrierArrive k, .podBarrierComplete k], ∃ u : State, exec e s = .next u ∧ s.onlyPorts u ∧
        u.port 0 = (s.port 0).countUp 5) ∧
      (k.gen = s.mgen → b.past k.phase = true →
        exec (.podBarrierArrive k) s = .next (s.send 0 (s.packetTo 0 k.src 0 0 (.podComplete (s.podPkt b k.phase))))) ∧
      (∀ arr, k.gen = s.mgen → b.past k.phase = false →
        arr = (if b.arrived.contains (k.src, k.phase) then b.arrived else (k.src, k.phase) :: b.arrived) →
        ((arr.filter fun a => a.2 == k.phase).length < max 1 s.podRanks.length → ∃ u : State, exec (.podBarrierArrive k) s = .next u ∧
          u = { s with podBars := u.podBars } ∧ u.podBar (podPktKey k) = { b with arrived := arr }) ∧
        (max 1 s.podRanks.length ≤ (arr.filter fun a => a.2 == k.phase).length → ∃ u : State, exec (.podBarrierArrive k) s = .next u ∧
          (u.podBar (podPktKey k)).done = k.phase.toNat + 1 ∧
          ∀ c ∈ s.cohorts, c.atBar .pod = true → s.podKey c = podPktKey k → { c.barDone false with podPhase := c.podPhase + 1 } ∈ u.cohorts)) ∧
      (∀ cs, k.gen = s.mgen → b.sentAt.isSome = true → cs = s.cohorts.filter (fun c => s.podKey c == podPktKey k) → cs ≠ [] →
        (∀ c ∈ cs, c.atBar .pod = true ∧ BitVec.ofNat 16 c.podPhase = k.phase) →
        ∃ u : State, exec (.podBarrierComplete k) s = .next u ∧ (u.podBar (podPktKey k)).sentAt = none ∧
          u = { s with cohorts := u.cohorts, podBars := u.podBars } ∧ ∀ c ∈ cs, { c.barDone false with podPhase := c.podPhase + 1 } ∈ u.cohorts)) ∧
    ∀ c b t root, s.cohort? c.cid = some c → b = s.podBar (s.podKey c) → c.atBar .pod = true → b.sentAt = some t → t + 2 ^ 20 ≤ s.cycle (dieOf c.core) →
      s.podRanks.head? = some root →
      ∃ u : State, exec (.podBarrierResend c.cid) s = .next u ∧ s.onlyPorts { u with podBars := s.podBars } ∧
        u.podBar (s.podKey c) = { b with sentAt := some (s.cycle (dieOf c.core)) } ∧
        ∀ k m, k = s.packetTo (dieOf c.core) root.faddr 0 0 (.podArrive (s.podPkt b (BitVec.ofNat 16 c.podPhase))) → s.sendsAt (dieOf c.core) k m →
          s.sent u ((s.port m).leaves k)

/-! ### Membership -/

/-- Membership (R247 to R263, R266 to R269): heartbeats and misses, suspicion, the leaders' rounds, commits, joining, seals, clone pulls, and a table that
the runtime registers. Each message goes out by `send`, whose flits O56 states. (The registration is log entry 26's, the ballot that PROMISE carries log entry
25's, the report of a lost shard log entry 80's. That a vacant rank is not watched, and what a spare that has joined reports, are entries 64's and 65's; that a
donor page which cannot be read answers with reason 2, entry 67's; that $PKGRANK of a spare that returns to ready stays, entry 87's; that a leader takes no
PREPARE or PROPOSE for a generation it has committed, entry 94's.) They complete: heartbeatSend, heartbeatMiss, heartbeatReceive, suspect, withdraw, prepare, promise, propose,
accept, commit, joined, proposalRetry, sealStep, cloneRequest, cloneResponse, rankTableRegistration. -/
def Obligations.MembershipEvents : Prop :=
  ∀ (s : State),
    (∀ n w, s.watches[n]? = some w →
      (s.memState ≠ .idle → w.sentAt + hbInterval ≤ s.cycle (n % 16) →
        ∃ u : State, exec (.heartbeatSend n) s = .next u ∧ u.hbSeq = s.hbSeq + 1 ∧
          u.watches = s.watches.set n { w with sentAt := s.cycle (n % 16) } ∧ s.onlyPorts { u with hbSeq := s.hbSeq, watches := s.watches } ∧
          ∀ k m, s.memState ≠ .failed → k = s.packetTo (n % 16) w.faddr 0 0 (.heartbeat s.heartbeat) → s.sendsAt (n % 16) k m →
            s.sent u ((s.port m).leaves k)) ∧
      (s.memState = .member → w.lastAt + hbInterval ≤ s.cycle (n % 16) → ∀ w', w' = { w with miss := w.miss + 1, lastAt := w.lastAt + hbInterval } →
        ((w.miss + 1 < 20 ∨ w.suspected = true) → exec (.heartbeatMiss n) s = .next { s with watches := s.watches.set n w' }) ∧
        (20 ≤ w.miss + 1 → w.suspected = false → exec (.heartbeatMiss n) s =
          .next (({ s with watches := s.watches.set n { w' with suspected := true } } : State).tellAll (n % 16) s.leaderAddrs
            (.suspect (s.memMsg 0 (BitVec.ofNat 32 w.rank) 0 none)))))) ∧
    (∀ h : Heartbeat,
      (∀ n w, s.memState = .member → s.leader = none → s.watches.findIdx? (fun w => w.faddr == h.src) = some n → s.watches[n]? = some w →
        (h.state = 0 → ∀ t, t = { s with watches := s.watches.set n { w with lastAt := s.cycle (n % 16), miss := 0, suspected := false } } →
          ((w.suspected = false ∨ ∃ g, s.staged = some g ∧ g.rankOf h.src = none) → exec (.heartbeatReceive h) s = .next t) ∧
          (w.suspected = true → (∀ g, s.staged = some g → (g.rankOf h.src).isSome = true) → exec (.heartbeatReceive h) s =
            .next (t.tellAll (n % 16) s.leaderAddrs (.withdraw (s.memMsg 0 (BitVec.ofNat 32 w.rank) 0 none))))) ∧
        (h.state = 1 → exec (.heartbeatReceive h) s = .next (s.suspectPeer n { w with lastAt := s.cycle (n % 16) })) ∧
        (h.state ≠ 0 → h.state ≠ 1 → exec (.heartbeatReceive h) s =
          .next { s with watches := s.watches.set n { w with lastAt := s.cycle (n % 16) } })) ∧
      (∀ l, s.memState ≠ .failed → s.leader = some l → ∃ (u : State) (m : Leader), exec (.heartbeatReceive h) s = .next u ∧ u.leader = some m ∧
        m.report h.src = some (h.step, h.ckstep, h.pdom, h.state, s.cycle 0)) ∧
      (∀ p, s.memState = .failed → s.heardOn.find? (fun p => p.1 == h.src) = some p → exec (.heartbeatReceive h) s =
        .next (({ s with hbSeq := s.hbSeq + 1 } : State).sendOn p.2 (s.packetTo (p.2 / 2) h.src 0 0 (.heartbeat s.heartbeat))))) ∧
    (∀ l t (m : MemMsg), s.leader = some l → s.committedTable = some t →
      (lossReport t m = none → (t.rankOf m.src).isSome = true → (m.subj.toNat, m.src) ∉ l.suspicions → ∀ l1,
        l1 = { l with suspicions := l.suspicions ++ [(m.subj.toNat, m.src)] } →
        ((l.ballot ≠ 0 ∨ s.mustPropose l1 t = false) → exec (.suspect m) s = .next { s with leader := some l1 }) ∧
        (l.ballot = 0 → s.mustPropose l1 t = true → ∃ (u : State) (b : Word), exec (.suspect m) s = .next u ∧
          b = BitVec.ofNat 32 ((l.seenBallot.toNat / 8 + 1) * 8 + l.index) ∧
          (∃ l2 : Leader, u.leader = some l2 ∧ l2.ballot = b ∧ l2.promised = b ∧ l2.promises.length = 1 ∧ l2.proposed = none ∧
            l2.suspicions = l1.suspicions) ∧
          u = ({ s with leader := u.leader } : State).tellAll 0 s.otherLeaders (.prepare (s.memMsg (l.committed + 1) 0 b none)))) ∧
      (∀ shard, lossReport t m = some shard →
        exec (.suspect m) s = .next ({ s with leader := some { l with losses := (shard :: l.losses).eraseDups } } : State).coordinate) ∧
      (exec (.withdraw m) s = .next { s with leader := some { l with suspicions := l.suspicions.filter fun x => x != (m.subj.toNat, m.src) } }) ∧
      ((m.ballot.toNat ≤ l.promised.toNat ∨ newer m.newgen l.committed = false) → exec (.prepare m) s = .next { s with leader := some { l with seenBallot := maxBallot l.seenBallot m.ballot } }) ∧
      (l.promised.toNat < m.ballot.toNat → newer m.newgen l.committed = true → ∀ own, own = (l.accepted.bind fun a => if newer a.2.gen l.committed then some a else none) →
        exec (.prepare m) s =
          .next (({ s with leader := some { l with seenBallot := maxBallot l.seenBallot m.ballot, promised := m.ballot } } : State).tell 0 m.src
            (.promise (s.memMsg (l.committed + 1) ((own.map Prod.fst).getD 0) m.ballot (own.map Prod.snd))))) ∧
      (m.ballot = l.ballot → l.ballot ≠ 0 → l.proposed = none → m.src ∈ s.leaderAddrs → (∀ q ∈ l.promises, q.1 ≠ m.src) → ∀ l1,
        l1 = { l with promises := l.promises ++ [(m.src, m.table.map fun x => (m.subj, x))] } →
        (l1.promises.length < 3 → exec (.promise m) s = .next { s with leader := some l1 }) ∧
        (3 ≤ l1.promises.length → ∃ (u : State) (l2 : Leader), exec (.promise m) s = .next u ∧ u.leader = some l2 ∧
          l2.proposed = some (s.proposal l1 t) ∧ l2.ballot = l.ballot ∧ l2.promises = l1.promises ∧
          u = ({ s with leader := u.leader } : State).tellAll 0 s.otherLeaders
            (.propose (s.memMsg (s.proposal l1 t).gen 0 l.ballot (some (s.proposal l1 t)))))) ∧
      (∀ x, m.table = some x →
        (x.acceptable = true → newer x.gen l.committed = true → l.promised.toNat ≤ m.ballot.toNat → exec (.propose m) s =
          .next (({ s with leader := some { l with seenBallot := maxBallot l.seenBallot m.ballot, promised := m.ballot, accepted := some (m.ballot, x) } } : State).tell
            0 m.src (.accept (s.memMsg x.gen 0 m.ballot none)))) ∧
        ((x.acceptable = false ∨ newer x.gen l.committed = false ∨ m.ballot.toNat < l.promised.toNat) →
          exec (.propose m) s = .next { s with leader := some { l with seenBallot := maxBallot l.seenBallot m.ballot } })) ∧
      (m.ballot = l.ballot → m.src ∈ s.leaderAddrs → m.src ∉ l.accepts → ∀ x, l.proposed = some x →
        (l.accepts.length + 1 < 3 → exec (.accept m) s = .next { s with leader := some { l with accepts := l.accepts ++ [m.src] } }) ∧
        (3 ≤ l.accepts.length + 1 → ∃ u : State, exec (.accept m) s = .next u ∧
          u.leader = some { l with ballot := 0, promises := [], proposed := none, accepts := [] } ∧
          u = ({ s with leader := u.leader } : State).tellAll 0
            (((t.entries.filter fun e => e.state != 2).map (·.faddr) ++ (x.entries.filter fun e => e.state != 2).map (·.faddr) ++ s.leaderAddrs).eraseDups)
            (.commit (s.memMsg x.gen 0 l.ballot (some x))))) ∧
      (l.ballot ≠ 0 → l.roundAt + 2 ^ 20 ≤ s.cycle 0 →
        (s.mustPropose l t = false → l.proposed = none →
          exec .proposalRetry s = .next { s with leader := some { l with ballot := 0, promises := [], proposed := none, accepts := [] } }) ∧
        ((s.mustPropose l t = true ∨ l.proposed.isSome = true) → ∃ (u : State) (l2 : Leader), exec .proposalRetry s = .next u ∧
          u.leader = some l2 ∧ l2.roundAt = s.cycle 0 ∧ l2.proposed = none ∧ l2.ballot = BitVec.ofNat 32 ((l.seenBallot.toNat / 8 + 1) * 8 + l.index) ∧
          u = ({ s with leader := u.leader } : State).tellAll 0 s.otherLeaders (.prepare (s.memMsg (l.committed + 1) 0 l2.ballot none))))) ∧
    (∀ (m : MemMsg) t, m.table = some t →
      ((newer m.newgen s.mgen = false ∨ ∃ g, s.staged = some g ∧ newer m.newgen g.gen = false) → exec (.commit m) s = .next s) ∧
      (newer m.newgen s.mgen = true → (∀ g, s.staged = some g → newer m.newgen g.gen = true) →
        (s.memState = .member → (t.rankOf s.faddr).isSome = true → exec (.commit m) s = .next (s.stage t) ∧
          (s.colls = [] → s.progs = [] → (∀ j ∈ s.jobs, j.kind ≠ .rcopy) → ∃ u : State, u = s.stage t ∧
            u.staged = some (carryJoined (s.committedTable.getD t) t) ∧ u.mgen = s.mgen ∧
            u.adopted = s.adopted ∧ u.pkgRank = s.pkgRank ∧ u.memState = .member ∧ u.mem = s.mem)) ∧
        (s.memState = .member → t.rankOf s.faddr = none → exec (.commit m) s = .next (s.expel m.newgen) ∧
          (s.colls = [] → s.progs = [] → (∀ j ∈ s.jobs, j.kind ≠ .rcopy) → ∃ u : State, u = s.expel m.newgen ∧ u.memState = .expelled ∧ u.mem = s.mem ∧
            u.sealed = none ∧ u.views = [] ∧ u.leader = none ∧
            (∀ x ∈ u.ctxs, x.halt = true ∧ x.noResume = true) ∧ ∀ j ∈ u.joins, j.entries = [] ∧ j.orphans = [] ∧ j.queue = [])) ∧
        (∀ r v, s.memState = .spareReady → s.namedAt t = some r → s.tableOut t = .ok v →
          exec (.commit m) s = .next ((fillMore 64 { v.spareAdopt t with stripes := [] } t).fillDone t)) ∧
        (∀ r, s.memState = .spareReady → s.namedAt t = some r → s.memBlock = none → s.heldWrites = [] → ∃ u : State, exec (.commit m) s = .next u ∧
          u.adopted = some t ∧ u.mgen = t.gen ∧ u.pkgRank = BitVec.ofNat 32 ((t.rankOf s.faddr).getD 0) ∧ u.stepdone = s.stepdone ∧
          u.memState = .spareJoined) ∧
        (s.memState = .spareFilling → (∀ e, t.entries[s.pkgRank.toNat]? = some e → e.faddr ≠ s.faddr ∨ e.state = 2) → ∃ u : State, exec (.commit m) s = .next u ∧
          u.adopted = none ∧ u.mgen = 0 ∧ u.pkgRank = s.pkgRank ∧ u.sealed = none ∧ u.views = [] ∧ u.memState = .spareReady) ∧
        (s.memState ∈ [MemState.failed, .spareJoined, .expelled] → exec (.commit m) s = .next s))) ∧
    (∀ (m : MemMsg) t fa x, x = m.subj.toNat → s.adopted = some t → s.joiner m = some fa → s.memBlock = none →
      (m.src ∈ s.leaderAddrs → (s.memState = .member ∨ s.memState = .spareFilling) → ∃ u : State, exec (.joined m) s = .next u ∧
        u.adopted = some (joinIn x fa t) ∧ u.staged = s.staged.map (joinIn x fa) ∧ u.memState = s.memState ∧ u.mem = s.mem) ∧
      (m.src ∈ s.leaderAddrs → s.memState = .spareJoined → fa = s.faddr → ∃ u : State, exec (.joined m) s = .next u ∧
        u.adopted = some (joinIn x fa t) ∧ u.memState = .member ∧ u.stepdone = t.step ∧ u.mem = s.mem) ∧
      (m.src = fa → s.leader.isSome = true → s.memState = .member → (∃ e, t.entries[x]? = some e ∧ e.faddr = fa ∧ e.state = 1) → s.staged = none →
        exec (.joined m) s = .next (({ s with adopted := some (activateRank t x) } : State).tellAll 0
          ((t.entries.filter fun e => e.state != 2 && e.faddr != s.faddr).map (·.faddr)).eraseDups (.joined (s.memMsg t.gen m.subj 0 none))).podTryAll)) ∧
    (∀ step, s.heldWrites = [] → (∀ t, s.sealed = some t → newer step t = true) →
      exec (.sealStep step) s = .next { s with sealed := some step, views := s.views.filter fun v => viewFrom step v.step }) ∧
    (∀ (src : Sender) gen txid i step fp (ans : State → BitVec 8 → Option DWord → List Byte → State),
      (ans = fun u reason f data => u.send 0 (u.packetTo 0 src.addr src.die txid (.cloneResp i step reason f data))) →
      (gen ≠ s.mgen → exec (.cloneRequest src gen txid i step fp) s = .next s) ∧
      (gen = s.mgen → (s.memBlock = none ∨ ∀ v ∈ s.views, v.step ≠ step) → exec (.cloneRequest src gen txid i step fp) s = .next (ans s 1 none [])) ∧
      (∀ b, gen = s.mgen → s.memBlock = some b → (∃ v ∈ s.views, v.step = step) →
        (s.stripeCount ≤ i → exec (.cloneRequest src gen txid i step fp) s = .next (ans s 3 none [])) ∧
        (∀ c d t, i < s.stripeCount → readStripe b.ctx step (s.stripePagesOf i) s = .bad c d t →
          exec (.cloneRequest src gen txid i step fp) s = .next (ans t 2 none [])) ∧
        (∀ bs t, i < s.stripeCount → readStripe b.ctx step (s.stripePagesOf i) s = .good bs t → exec (.cloneRequest src gen txid i step fp) s =
          .next (ans t 0 (if fp then some (fingerprint bs) else none) (if fp then [] else bs))))) ∧
    (∀ t x pos n src data, s.memState ≠ .spareFilling → s.staged = some t → s.stripes.find? (fun y => y.idx == x.idx) = some x → x.verified = false →
      x.lost = false → (s.holders t).findIdx? (fun h => h == src) = some pos → n = (s.holders t).length →
      (x.first = none → x.donor? n = some pos → ∃ (u : State) (y : Stripe), exec (.cloneResponse src x.idx 0 none data) s = .next u ∧
        u.mem = s.mem ∧ u.stripes.find? (fun z => z.idx == x.idx) = some y ∧ y = { x with first := some data }) ∧
      (∀ a f, x.first = some a → x.differs = false → x.verifier? n = some pos → f = fingerprint a →
        ∃ (u : State) (y : Stripe), exec (.cloneResponse src x.idx 0 (some f) data) s = .next u ∧ u.mem = s.mem ∧
          u.stripes.find? (fun z => z.idx == x.idx) = some y ∧ y.verified = true ∧ y.data = a) ∧
      (∀ a f p, x.first = some a → x.differs = false → x.verifier? n = some pos → f ≠ fingerprint a → x.third? n = some p →
        exec (.cloneResponse src x.idx 0 (some f) data) s =
          .next (((s.setStripe { x with differs := true }).askClone t x.idx pos false).askClone t x.idx p true)) ∧
      (∀ a f, x.first = some a → x.differs = false → x.verifier? n = some pos → f ≠ fingerprint a → x.third? n = none →
        exec (.cloneResponse src x.idx 0 (some f) data) s = .next (s.loseStripe t x)) ∧
      (∀ reason fp, reason ≠ 0 → exec (.cloneResponse src x.idx reason fp data) s = .next (s.refuseStripe t x pos reason))) ∧
    (∀ t : RankTable,
      (t.acceptable = false → exec (.rankTableRegistration t) s = .next s) ∧
      (t.acceptable = true → s.memState = .spareReady →
        exec (.rankTableRegistration t) s = .next { s with watches := s.watchLeaders t.leaderAddrs }) ∧
      (∀ r, t.acceptable = true → (s.memState = .idle ∨ s.memState = .expelled) → t.rankOf s.faddr = some r → s.memBlock = none → s.heldWrites = [] →
        ∃ u : State, exec (.rankTableRegistration t) s = .next u ∧ u.adopted = some t ∧ u.mgen = t.gen ∧ u.stepdone = t.step ∧
          u.pkgRank = BitVec.ofNat 32 r ∧ u.memState = .member ∧ u.mem = s.mem) ∧
      (t.acceptable = true → s.memState = .member → (t.rankOf s.faddr).isSome = true → newer t.gen s.mgen = true →
        (∀ g, s.staged = some g → newer t.gen g.gen = true) → exec (.rankTableRegistration t) s = .next (s.stage t)))

/-! ### Rewards, stops, defence and the module -/

/-- Rewards (R278 to R286): a message is dropped, held, joined or kept as an orphan; acknowledgements end packets; time-outs drop and count; an episode is
released with its descriptor, or dropped as stale or for a store fault; a release uses the $LQVER of the cycle before a write in its own cycle (R417), and
waits while the learner queue is full. A message to a package that has been removed is dropped as stale (R291). They complete: rewardMessage, rewardAcknowledgement, rewardUnacknowledged, rewardHoldTimeout,
orphanTimeout, joinTimeout, episodeRelease. -/
def Obligations.RewardEvents : Prop :=
  ∀ (s : State) (die : Nat) (u : JoinUnit), u = s.join die →
    (∀ fp (m : RewardMsg),
      (u.accepted = false → exec (.rewardMessage die fp m) s = .next (s.setJoin (u.count 0 1))) ∧
      (u.accepted = true → fp = false → m.gen ≠ s.mgen → newer m.gen s.mgen = false → exec (.rewardMessage die fp m) s = .next (s.setJoin (u.count 10 1))) ∧
      (u.accepted = true → s.memState = .expelled → exec (.rewardMessage die fp m) s = .next (s.setJoin (u.count 10 1))) ∧
      (u.accepted = true → s.memState ≠ .expelled → fp = false → newer m.gen s.mgen = true → u.hold.length < 256 →
        exec (.rewardMessage die fp m) s = .next (s.setJoin { u with hold := u.hold ++ [{ msg := m, at_ := s.cycle die }] })) ∧
      (u.accepted = true → s.memState ≠ .expelled → (fp = true ∨ m.gen = s.mgen) → m.flags >>> 1 = 0 → m.step.toNat < 4096 →
        (u.liveEntry m.traj = none → u.orphans.length < 8192 →
          exec (.rewardMessage die fp m) s = .next (s.setJoin { u with orphans := u.orphans ++ [{ msg := m, at_ := s.cycle die }] })) ∧
        (∀ e, u.liveEntry m.traj = some e → (∀ o ∈ u.entries, o.traj = m.traj → o.live = true → o = e) → e.state = .open_ → m.step.toNat < e.count →
          (∀ r ∈ e.rewards, r.1 ≠ m.step.toNat) → ∃ t : State, exec (.rewardMessage die fp m) s = .next t ∧ t = { s with joins := t.joins } ∧
            t.join die = u.putEntry { e with rewards := (m.step.toNat, m.reward) :: e.rewards }))) ∧
    (∀ txid, exec (.rewardAcknowledgement txid) s = .next { s with rewardTx := s.rewardTx.eraseP fun t => t.txid == txid }) ∧
    (∀ (txid : TxId) late n, txid.die = die → (late = fun (t : RewardTx) => t.txid == txid && decide (t.sent + 2 ^ 20 ≤ s.cycle die)) →
      n = (s.rewardTx.filter late).length →
      (n ≠ 0 → exec (.rewardUnacknowledged txid) s = .next ({ s with rewardTx := s.rewardTx.filter fun t => !late t }.setJoin (u.count 8 n))) ∧
      (n = 0 → exec (.rewardUnacknowledged txid) s = .next s)) ∧
    (∃ t : State, exec (.rewardHoldTimeout die) s = .next t ∧ t = { s with joins := t.joins } ∧
      (∀ o, o ∈ (t.join die).hold ↔ o ∈ u.hold ∧ s.cycle die < o.at_ + 2 ^ 24) ∧
      t.join die = { u with hold := (t.join die).hold, counts := u.counts.set 11 (satAdd (u.counts.getD 11 0) (u.hold.length - (t.join die).hold.length)) }) ∧
    (u.accepted = true → ∃ t : State, exec (.orphanTimeout die) s = .next t ∧ t = { s with joins := t.joins } ∧
      (∀ o, o ∈ (t.join die).orphans ↔ o ∈ u.orphans ∧ s.cycle die < o.at_ + u.orphto * 1024) ∧
      t.join die = { u with orphans := (t.join die).orphans,
                            counts := u.counts.set 0 (satAdd (u.counts.getD 0 0) (u.orphans.length - (t.join die).orphans.length)) }) ∧
    (∀ e run, u.entries.find? (fun o => o.idx == e.idx) = some e → u.jointo ≠ 0 → e.live = true → e.opened + u.jointo * 1024 ≤ s.cycle die →
      run = ((List.range e.len).takeWhile fun t => e.rewards.any fun r => r.1 == t).length →
      (e.state = .closed → u.trunc = true → 0 < run → exec (.joinTimeout die e.idx) s = .next (s.setJoin ((u.putEntry
        { e with state := .joined, cut := some (run - 1), joinedAt := s.cycle die }).count 4 1))) ∧
      ((e.state ≠ .closed ∨ u.trunc = false ∨ run = 0) → exec (.joinTimeout die e.idx) s = .next (s.setJoin ((u.freeEntry e.idx).count 3 1)))) ∧
    (4096 ≤ u.queue.length → exec (.episodeRelease die) s = .next s) ∧
    (∀ e x d, u.queue.length < 4096 → u.nextRelease = some e → s.ctx? u.ctx = some x → d = (s.unitLqver die - e.version).toNat →
      (u.smax + 1 ≤ d → d < 2 ^ 31 → exec (.episodeRelease die) s = .next (s.setJoin ((u.freeEntry e.idx).count 5 1))) ∧
      (∀ vs last t, (d < u.smax + 1 ∨ 2 ^ 31 ≤ d) →
        s.storedVs u x e.idx (if e.released < e.len then e.released + 1 else e.released) = .ok vs →
        last = (if e.released < e.len then vs.getD e.released 0 else if e.terminal then 0 else e.boot) →
        writeScan u e (scan u (fun i => vs.getD i 0) (fun i => ((e.rewards.find? fun q => q.1 == i).map (·.2)).getD 0) e.released last 0) s = .ok t →
        exec (.episodeRelease die) s = .next (t.setJoin { u.putEntry { e with state := .queued } with queue := u.queue ++ [e.descriptor] })) ∧
      (∀ f, (d < u.smax + 1 ∨ 2 ^ 31 ≤ d) →
        s.storedVs u x e.idx (if e.released < e.len then e.released + 1 else e.released) = .error f →
        (∀ k, f = .data k → exec (.episodeRelease die) s = .next (s.stopContext u.ctx 13 (hwDetail (s.unitOfKey k).1 5 (s.unitOfKey k).2) true)) ∧
        (∀ t : State, (∀ k, f ≠ .data k) → s.storeFail u f = (.fault t : StoreOut State) →
          exec (.episodeRelease die) s = .next ((t.setJoin ((u.freeEntry e.idx).count 6 1)).dropRefused u))))

/-- Stops (R226 to R232, R239, R297, R334, R359): a cohort of a halted context stops, with $EPC where it would go on and its baton given up; its engines
stop; the stop area takes its records and last its summary, and the cohorts that raised the stop enter the handler; a pair of windows is performed, but for
the beats of an instruction that goes on in the next one, or stops the context. A stop waits for a FENCE, a CCTL or an atomic that is part done (R142, R362). They
complete: cohortStop, engineStop, stopAreaWrite, indigoWindowCompare. -/
def Obligations.StopEvents : Prop :=
  ∀ (s : State) (x : Ctx), s.ctx? x.ctxid = some x →
    (∀ c, s.cohort? c.cid = some c → c.ctx = x.ctxid → x.inHandler = true → exec (.cohortStop c.cid) s = .next s) ∧
    (∀ c, s.cohort? c.cid = some c → c.ctx = x.ctxid → x.halt = true → c.stopped = false → x.inHandler = false → s.midAtomic c x = false → c.wait = .none →
      (s.core c.core).bankQ = [] →
      ∃ d : Cohort, d = { (if c.raised then c else match c.nextPending with
                            | some (v, p) => p.takeCause v
                            | none => { c with epc := c.stopPc, laneRecs := [] } : Cohort) with
                          stopped := true, kept := .none, latch := none, bheld := s.holdsBaton c || c.bheld } ∧
        (s.holdsBaton c = false → ∃ t : State, exec (.cohortStop c.cid) s = .next t ∧ t = { s.setCohort d with cores := t.cores } ∧
          ∀ k, t.core k = s.core k) ∧
        (s.holdsBaton c = true → s.takers c.core = [] → ∃ t : State, exec (.cohortStop c.cid) s = .next t ∧ t.cohort? c.cid = some d ∧
          (t.core c.core).baton = none ∧ t.mem = s.mem)) ∧
    (∀ c, s.cohort? c.cid = some c → c.ctx = x.ctxid → (s.midAtomic c x = true ∨ s.midFence c x = true) → exec (.cohortStop c.cid) s = .next s) ∧
    (x.halt = true → exec (.engineStop x.ctxid) s = .next (s.setCtx { x with enginesStopped := true })) ∧
    (∀ cs, x.halt = true → x.stopWritten = false → x.inHandler = false → x.enginesStopped = true → cs = s.stopOrder x.ctxid →
      (∀ c ∈ cs, c.stopped = true) →
      (x.trap = none → exec (.stopAreaWrite x.ctxid) s = .next (s.setCtx { x with stopWritten := true, stopRecs := [] })) ∧
      (∀ t recs engs off s1 m off2 s2 go u y, x.trap = some t → recs = cs.map Cohort.stopRecord → engs = s.engineRecords x.ctxid x.haltAt →
        writeRecords x.ctxid t.stopa.toNat t.stoplen.toNat recs 64 s = .ok (recs.length, off, s1) →
        writeRecords x.ctxid t.stopa.toNat t.stoplen.toNat engs off s1 = .ok (m, off2, s2) → 64 ≤ t.stoplen.toNat →
        go = x.handles (cs.filter (·.raised)) →
        s2.feWrite x.ctxid t.stopa.toNat (stopSummary x (go || x.double) (decide (m < engs.length)) recs.length m off) = .ok u →
        u.ctx? x.ctxid = some y → y.ctxid = x.ctxid → y.trap = some t →
        ∃ (v : State) (z : Ctx), exec (.stopAreaWrite x.ctxid) s = .next v ∧ v.mem = u.mem ∧ v.ctx? x.ctxid = some z ∧ z.stopWritten = true ∧
          z.inHandler = (go || y.inHandler) ∧
          (go = false → v.cohorts = u.cohorts) ∧
          (go = true → v.cohorts = u.cohorts.map fun c =>
            if c.ctx == x.ctxid && c.raised then { c.enterHandler t.hentry with stopped := false, wait := .none } else c))) ∧
    ∀ (c t : Cohort) w v ws vs, s.cohort? c.cid = some c → c.ctx = x.ctxid → c.role = .primary → c.twin = some t.cid → s.cohort? t.cid = some t →
      c.cid ≠ t.cid → c.windows = w :: ws → t.windows = v :: vs → w.closed = true → v.closed = true → w.num = v.num →
      (w.matched = true → exec (.indigoWindowCompare c.cid) s = .next (s.performWindow x c w ws)) ∧
      (w.matched = false → w.hash = v.hash → ∀ s1 p, p = performable w ws →
        s1 = (s.setCohort { t with windows := (performable v vs).2, winDone := w.num + 1 }).leaveEnded t.cid →
        exec (.indigoWindowCompare c.cid) s = .next (s1.performWindow x { c with winDone := w.num + 1 } { w with carried := [], beats := p.1 } p.2) ∧
        (w.read = none → c.ended = false → t.ended = false → (∀ b ∈ p.1, b.kind = 0) → (∀ d ∈ s.cohorts, d.rmw = none ∧ ∀ z ∈ d.windows, z.words = []) →
          ∃ u : State, exec (.indigoWindowCompare c.cid) s = .next u ∧ u.cohort? c.cid = some { c with windows := p.2, winDone := w.num + 1 } ∧
            u.mem = (p.1.foldl (performBeat (.core c.core) x c.core (c.launch, c.cid)) s).mem)) ∧
      (w.matched = false → w.hash ≠ v.hash → x.halt = false → w.carried = [] → ∃ (u : State) (y : Ctx), exec (.indigoWindowCompare c.cid) s = .next u ∧
        u.ctx? x.ctxid = some y ∧ y.halt = true ∧ y.firstCause = 15 ∧ y.firstCore = BitVec.ofNat 16 c.core ∧ y.firstPc = c.stopPc ∧ u.mem = s.mem)

/-- Units, firmware, power and the host's accesses (R102, R221 to R224, R294, R298, R299, R301, R304 to R307, R311, R312): fences and tests of units, ways of
the L2, the event queue of a die with what its journal applies again, its temperature, a reset of the module, and what a CXL or an SPDM request answers. They
complete: replayRateFence, ochreTest, ochreTestComplete, wayDisable, firmwareCoreError, firmwareEvent, frontEndReset, thermalThrottle, throttleEnd,
overTemperatureShutdown, telemetryReport, moduleReset, cxlMemAccess, cxlCacheSnoop, spdmRequest. The model's readings: digests are free values (log entry 22);
a handler's effects as a list of which the last record is applied again (44); what counts as idle, and that a unit without a record of work has been idle since
reset (70); the odd cycles of a throttled die, and that power goes once every context has stopped (71); what a reset keeps (72). -/
def Obligations.UnitsAndModule : Prop :=
  ∀ (s : State),
    (∀ (k : BitVec 16) r, r = s.unitRec k → k.toNat / 8192 ≠ 6 →
      (unitExists k.toNat = true → ∀ a rest b, r.recent = a :: rest → rest.length = 15 → rest.getLast? = some b → a < b + 2 ^ 24 →
        ∃ t : State, exec (.replayRateFence k) s = .next t ∧ t = { s with units := t.units } ∧
          t.unitRec k = { r with recent := [], state := if r.state = 0 then 1 else r.state, scheduled := true, passRow := 0 } ∧
          ∀ v, v ≠ k → t.unitRec v = s.unitRec v) ∧
      ((unitExists k.toNat = false ∨ r.recent.length ≠ 16 ∨ ∃ a rest b, r.recent = a :: rest ∧ rest.getLast? = some b ∧ b + 2 ^ 24 ≤ a) →
        exec (.replayRateFence k) s = .next s) ∧
      (testable k = true → r.state ≠ 2 → r.testing = none → s.longIdle k = true →
        (r.scheduled = true ∨ r.last = 0 ∨ r.lastC + 2 ^ 30 ≤ s.cycle (unitDie k)) → ∃ t : State, exec (.ochreTest k) s = .next t ∧
          t = { s with units := t.units } ∧ t.unitRec k = { r with testing := some (s.cycle (unitDie k)), scheduled := false }) ∧
      (r.testing.isSome = true → ∀ pass arrived, ∃ t : State, exec (.ochreTestComplete k pass arrived) s = .next t ∧ t = { s with units := t.units } ∧
        (∀ v, v ≠ k → t.unitRec v = s.unitRec v) ∧ (t.unitRec k).testing = none ∧ (t.unitRec k).lastC = s.cycle (unitDie k) ∧
        ((arrived = true ∨ s.unitIdle k = false) → (t.unitRec k).last = 3 ∧ (t.unitRec k).state = r.state) ∧
        (arrived = false → s.unitIdle k = true → pass = true → (t.unitRec k).last = 1 ∧ (t.unitRec k).state = r.state ∧ (t.unitRec k).passRow = r.passRow + 1) ∧
        (arrived = false → s.unitIdle k = true → pass = false → (t.unitRec k).last = 2 ∧ (t.unitRec k).passRow = 0 ∧
          (t.unitRec k).state = if 4 ≤ r.failRow + 1 then 2 else max 1 r.state))) ∧
    (∀ die slice set way x y, x = s.l2Set die slice set → y = { x with disabled := x.disabled ||| BitVec.twoPow 16 way, counts := x.counts.set way 4 } →
      2 ≤ ((List.range 16).filter fun w => !y.disabled.getLsbD w).length → ∃ t : State, exec (.wayDisable die slice set way) s = .next t ∧
        t = { s with l2sets := t.l2sets, l2 := t.l2 } ∧ (∀ z ∈ t.l2, z ∈ s.l2) ∧ t.l2Set die slice set = y ∧
        ∀ d l n, (d ≠ die ∨ l ≠ slice ∨ n ≠ set) → t.l2Set d l n = s.l2Set d l n) ∧
    (∀ die d, d = s.die die →
      (∀ core pass, die < 16 → core < 12 → (∃ k, k < 12 ∧ k ≠ core ∧ s.fwInService die k = true) → ∃ t : State,
        exec (.firmwareCoreError die core pass) s = .next t ∧ t = { s with dies := t.dies, units := t.units } ∧
          t.die die = { d with events := (d.fw.filter fun c => c.core == core).map (·.running) ++ d.events, fw := d.fw.filter fun c => c.core != core } ∧
          (pass = false → t.fwInService die core = false) ∧ (pass = true → t.fwInService die core = s.fwInService die core)) ∧
      (∀ p f, p = (s.dueFirmware die).foldl (fun t e => t.postEvent die e) s → f = p.die die →
        ((f.dispatchable = none ∨ p.fwIdle die = none) → exec (.firmwareEvent die) s = .next p) ∧
        (∀ e n q, f.dispatchable = some e → p.fwIdle die = some n →
          q = p.setDie { f with events := f.events.erase e, fw := f.fw ++ [{ core := n, running := e }] } →
          ((∀ k l va, e ≠ .joinZero k l va) → (∀ u, e ≠ .errorReport u) → exec (.firmwareEvent die) s = .next q) ∧
          (∀ u, e = .errorReport u → exec (.firmwareEvent die) s = .next (q.fwCommit die (· == e))) ∧
          (∀ k id va l t1, e = .joinZero k id va → q.launch? id = some l → q.startSuccessor l va.toNat = .ok t1 →
            exec (.firmwareEvent die) s = .next (t1.fwCommit 0 (· == e))))) ∧
      (∀ s1 lost, s1 = s.setDie { d with events := d.fw.map (·.running) ++ d.events, fw := [], buffer := [] } →
        lost = (s.upsets.contains (.journalCopy die 0) && s.upsets.contains (.journalCopy die 1)) → (die ≠ 0 ∨ s.upsets = []) →
        exec (.frontEndReset die) s = .next (if lost then s1 else d.journal.foldl State.applyEffect s1)) ∧
      (∀ c, (105 < c → ∃ t : State, exec (.thermalThrottle die c) s = .next t ∧ t = { s with dies := t.dies } ∧ t.die die = { d with throttled := true }) ∧
        (c < 100 → ∃ t : State, exec (.throttleEnd die c) s = .next t ∧ t = { s with dies := t.dies } ∧ t.die die = { d with throttled := false }) ∧
        (c ≤ 105 → exec (.thermalThrottle die c) s = .next s) ∧ (100 ≤ c → exec (.throttleEnd die c) s = .next s) ∧
        (c ≤ 115 → s.shutdown = false → exec (.overTemperatureShutdown die c) s = .next s) ∧
        (115 < c → s.shutdown = false → ∃ t : State, exec (.overTemperatureShutdown die c) s = .next t ∧ t.shutdown = true ∧ t.mem = s.mem ∧
          (∀ x ∈ t.ctxs, x.halt = true ∧ x.noResume = true) ∧
          ((∃ x, s.ctx? x.ctxid = some x ∧ x.stopWritten = false) → t.powered = s.powered ∧ t.released = s.released) ∧
          (s.ctxs = [] → t.powered = false ∧ t.released = false ∧ t.cxlUp = false ∧ ∀ p ∈ t.ports, p.up = false)) ∧
        (s.shutdown = true → (∀ x ∈ s.ctxs, x.stopWritten = true) → ∃ t : State, exec (.overTemperatureShutdown die c) s = .next t ∧
          t = { s with powered := false, released := false, cxlUp := false, ports := t.ports } ∧ t.ports.length = s.ports.length ∧ ∀ p ∈ t.ports, p.up = false) ∧
        (s.shutdown = true → (∃ x ∈ s.ctxs, x.stopWritten = false) → exec (.overTemperatureShutdown die c) s = .next s))) ∧
    (∀ p a b j, (s.reports < s.cycle 0 / 2 ^ 20 → ∃ t : State, exec (.telemetryReport p a b j) s = .next t ∧
        t = { s with outbox := t.outbox, reports := s.cycle 0 / 2 ^ 20 } ∧ s.sent t [.telemetry p a b j]) ∧
      (s.cycle 0 / 2 ^ 20 ≤ s.reports → exec (.telemetryReport p a b j) s = .next s)) ∧
    (∀ b us, us = selfTest b.failedUnits s.kept.units →
      (bootFailure b us = none → ∃ t : State, exec (.moduleReset b) s = .next t ∧ t.released = true ∧ t.powered = true ∧
        t.bootstat = bootstatOf b.pdom 0xFF 0 6 false ∧ t.pdom = b.pdom ∧ t.units = us ∧ (∀ r ∈ t.units, r = { UnitRec.init r.unit with state := r.state }) ∧ t.cohorts = [] ∧ t.ctxs = [] ∧ t.queues = [] ∧ t.memState = .idle ∧
        t.faddr = s.faddr ∧ t.cxlUp = true ∧ (∀ a, hostBase ≤ a → a < 2 ^ 52 → memByte t.mem a = memByte s.mem a) ∧
        ∀ a, (a < hostBase ∨ 2 ^ 52 ≤ a) → memByte t.mem a = 0) ∧
      (∀ stage code die, bootFailure b us = some (stage, code, die) → ∃ t : State, exec (.moduleReset b) s = .next t ∧ t.released = false ∧
        t.bootstat = bootstatOf b.pdom die code stage true ∧ t.memState = .failed ∧ t.cohorts = [] ∧ t.ctxs = [])) ∧
    (s.cxlUp = true →
      (s.released = true → ∀ pa n,
        (∀ bs, pa + bs.length ≤ 2 ^ 41 → ∃ t : State, exec (.cxlMemAccess pa n (some bs)) s = .next t ∧ s.onlyAccess t ∧
          (∀ i, i < bs.length → memByte t.mem (pa + i) = bs.getD i 0) ∧
          (s.plainStores → ∀ a, (a < pa ∨ pa + bs.length ≤ a) → memByte t.mem a = memByte s.mem a)) ∧
        (pa + n ≤ 2 ^ 41 → ∃ t : State, exec (.cxlMemAccess pa n none) s = .next t ∧ t = { s with outbox := t.outbox } ∧
          s.sent t [if s.poisoned pa n then .dataLost else .cxlData (memBytes s.mem pa n)])) ∧
      (∀ line pa, pa = hostPa (128 * line) → pa + 128 ≤ 2 ^ 52 →
        (s.inL2 pa = true → ∃ t : State, exec (.cxlCacheSnoop line none) s = .next t ∧ t = { s with outbox := t.outbox } ∧
          s.sent t [if s.poisoned pa 128 then .dataLost else .snoopData (memBytes s.mem pa 128)]) ∧
        (s.inL2 pa = false → exec (.cxlCacheSnoop line none) s = .next s) ∧
        (∀ data, data.length = 128 → ∃ t : State, exec (.cxlCacheSnoop line (some data)) s = .next t ∧ t.inL2 pa = false ∧
          (∀ i, i < 128 → memByte t.mem (pa + i) = data.getD i 0) ∧
          ∀ a, (a < pa ∨ pa + 128 ≤ a) → memByte t.mem a = memByte s.mem a)) ∧
      (∀ code block, ∃ t : State, exec (.spdmRequest code block) s = .next t ∧ t = { s with outbox := t.outbox } ∧
        s.sent t [.spdm code (Config.spdmDigest block Config.manifestDigest Config.fusedVersion (s.fences.map fun u => (u.unit.toNat, u.state)))]))
end

