-- ==== Sys2Proof/Laws/State.lean ====
section
/-!
SUPPORT. Laws/State.lean: what each replacement of a part of the state leaves alone, field by field, and what a part reads as after one.
-/

namespace Sys2Proof.Machine

/-! ### State.setCore -/

@[simp] theorem State.setCore_mem (s : State) (c : CoreState) : (s.setCore c).mem = s.mem := rfl
@[simp] theorem State.setCore_poison (s : State) (c : CoreState) : (s.setCore c).poison = s.poison := rfl
@[simp] theorem State.setCore_cohorts (s : State) (c : CoreState) : (s.setCore c).cohorts = s.cohorts := rfl
@[simp] theorem State.setCore_quads (s : State) (c : CoreState) : (s.setCore c).quads = s.quads := rfl
@[simp] theorem State.setCore_dies (s : State) (c : CoreState) : (s.setCore c).dies = s.dies := rfl
@[simp] theorem State.setCore_ctxs (s : State) (c : CoreState) : (s.setCore c).ctxs = s.ctxs := rfl
@[simp] theorem State.setCore_queues (s : State) (c : CoreState) : (s.setCore c).queues = s.queues := rfl
@[simp] theorem State.setCore_packets (s : State) (c : CoreState) : (s.setCore c).packets = s.packets := rfl
@[simp] theorem State.setCore_launches (s : State) (c : CoreState) : (s.setCore c).launches = s.launches := rfl
@[simp] theorem State.setCore_wgs (s : State) (c : CoreState) : (s.setCore c).wgs = s.wgs := rfl
@[simp] theorem State.setCore_saved (s : State) (c : CoreState) : (s.setCore c).saved = s.saved := rfl
@[simp] theorem State.setCore_parked (s : State) (c : CoreState) : (s.setCore c).parked = s.parked := rfl
@[simp] theorem State.setCore_landings (s : State) (c : CoreState) : (s.setCore c).landings = s.landings := rfl
@[simp] theorem State.setCore_waitTable (s : State) (c : CoreState) : (s.setCore c).waitTable = s.waitTable := rfl
@[simp] theorem State.setCore_pageReqs (s : State) (c : CoreState) : (s.setCore c).pageReqs = s.pageReqs := rfl
@[simp] theorem State.setCore_jobs (s : State) (c : CoreState) : (s.setCore c).jobs = s.jobs := rfl
@[simp] theorem State.setCore_colls (s : State) (c : CoreState) : (s.setCore c).colls = s.colls := rfl
@[simp] theorem State.setCore_progs (s : State) (c : CoreState) : (s.setCore c).progs = s.progs := rfl
@[simp] theorem State.setCore_pulls (s : State) (c : CoreState) : (s.setCore c).pulls = s.pulls := rfl
@[simp] theorem State.setCore_serves (s : State) (c : CoreState) : (s.setCore c).serves = s.serves := rfl
@[simp] theorem State.setCore_joins (s : State) (c : CoreState) : (s.setCore c).joins = s.joins := rfl
@[simp] theorem State.setCore_rewardTx (s : State) (c : CoreState) : (s.setCore c).rewardTx = s.rewardTx := rfl
@[simp] theorem State.setCore_ports (s : State) (c : CoreState) : (s.setCore c).ports = s.ports := rfl
@[simp] theorem State.setCore_routes (s : State) (c : CoreState) : (s.setCore c).routes = s.routes := rfl
@[simp] theorem State.setCore_podBars (s : State) (c : CoreState) : (s.setCore c).podBars = s.podBars := rfl
@[simp] theorem State.setCore_cycles (s : State) (c : CoreState) : (s.setCore c).cycles = s.cycles := rfl
@[simp] theorem State.setCore_pkgRank (s : State) (c : CoreState) : (s.setCore c).pkgRank = s.pkgRank := rfl
@[simp] theorem State.setCore_mgen (s : State) (c : CoreState) : (s.setCore c).mgen = s.mgen := rfl
@[simp] theorem State.setCore_faddr (s : State) (c : CoreState) : (s.setCore c).faddr = s.faddr := rfl
@[simp] theorem State.setCore_adopted (s : State) (c : CoreState) : (s.setCore c).adopted = s.adopted := rfl
@[simp] theorem State.setCore_staged (s : State) (c : CoreState) : (s.setCore c).staged = s.staged := rfl
@[simp] theorem State.setCore_memState (s : State) (c : CoreState) : (s.setCore c).memState = s.memState := rfl
@[simp] theorem State.setCore_failed (s : State) (c : CoreState) : (s.setCore c).failed = s.failed := rfl
@[simp] theorem State.setCore_memBlock (s : State) (c : CoreState) : (s.setCore c).memBlock = s.memBlock := rfl
@[simp] theorem State.setCore_stepdone (s : State) (c : CoreState) : (s.setCore c).stepdone = s.stepdone := rfl
@[simp] theorem State.setCore_ckpt (s : State) (c : CoreState) : (s.setCore c).ckpt = s.ckpt := rfl
@[simp] theorem State.setCore_heldWrites (s : State) (c : CoreState) : (s.setCore c).heldWrites = s.heldWrites := rfl
@[simp] theorem State.setCore_sealed (s : State) (c : CoreState) : (s.setCore c).sealed = s.sealed := rfl
@[simp] theorem State.setCore_watches (s : State) (c : CoreState) : (s.setCore c).watches = s.watches := rfl
@[simp] theorem State.setCore_heardOn (s : State) (c : CoreState) : (s.setCore c).heardOn = s.heardOn := rfl
@[simp] theorem State.setCore_hbSeq (s : State) (c : CoreState) : (s.setCore c).hbSeq = s.hbSeq := rfl
@[simp] theorem State.setCore_leader (s : State) (c : CoreState) : (s.setCore c).leader = s.leader := rfl
@[simp] theorem State.setCore_stripes (s : State) (c : CoreState) : (s.setCore c).stripes = s.stripes := rfl
@[simp] theorem State.setCore_views (s : State) (c : CoreState) : (s.setCore c).views = s.views := rfl
@[simp] theorem State.setCore_bootstat (s : State) (c : CoreState) : (s.setCore c).bootstat = s.bootstat := rfl
@[simp] theorem State.setCore_released (s : State) (c : CoreState) : (s.setCore c).released = s.released := rfl
@[simp] theorem State.setCore_powered (s : State) (c : CoreState) : (s.setCore c).powered = s.powered := rfl
@[simp] theorem State.setCore_cxlUp (s : State) (c : CoreState) : (s.setCore c).cxlUp = s.cxlUp := rfl
@[simp] theorem State.setCore_pdom (s : State) (c : CoreState) : (s.setCore c).pdom = s.pdom := rfl
@[simp] theorem State.setCore_mailbox (s : State) (c : CoreState) : (s.setCore c).mailbox = s.mailbox := rfl
@[simp] theorem State.setCore_i3c (s : State) (c : CoreState) : (s.setCore c).i3c = s.i3c := rfl
@[simp] theorem State.setCore_shutdown (s : State) (c : CoreState) : (s.setCore c).shutdown = s.shutdown := rfl
@[simp] theorem State.setCore_units (s : State) (c : CoreState) : (s.setCore c).units = s.units := rfl
@[simp] theorem State.setCore_l2sets (s : State) (c : CoreState) : (s.setCore c).l2sets = s.l2sets := rfl
@[simp] theorem State.setCore_l2 (s : State) (c : CoreState) : (s.setCore c).l2 = s.l2 := rfl
@[simp] theorem State.setCore_worked (s : State) (c : CoreState) : (s.setCore c).worked = s.worked := rfl
@[simp] theorem State.setCore_lastLeaders (s : State) (c : CoreState) : (s.setCore c).lastLeaders = s.lastLeaders := rfl
@[simp] theorem State.setCore_outbox (s : State) (c : CoreState) : (s.setCore c).outbox = s.outbox := rfl
@[simp] theorem State.setCore_upsets (s : State) (c : CoreState) : (s.setCore c).upsets = s.upsets := rfl
@[simp] theorem State.setCore_fixes (s : State) (c : CoreState) : (s.setCore c).fixes = s.fixes := rfl
@[simp] theorem State.setCore_reports (s : State) (c : CoreState) : (s.setCore c).reports = s.reports := rfl
@[simp] theorem State.setCore_agenda (s : State) (c : CoreState) : (s.setCore c).agenda = s.agenda := rfl
@[simp] theorem State.setCore_later (s : State) (c : CoreState) : (s.setCore c).later = s.later := rfl
@[simp] theorem State.setCore_cur (s : State) (c : CoreState) : (s.setCore c).cur = s.cur := rfl
@[simp] theorem State.setCore_fresh (s : State) (c : CoreState) : (s.setCore c).fresh = s.fresh := rfl

/-! ### State.setQuad -/

@[simp] theorem State.setQuad_mem (s : State) (q : QuadState) : (s.setQuad q).mem = s.mem := rfl
@[simp] theorem State.setQuad_poison (s : State) (q : QuadState) : (s.setQuad q).poison = s.poison := rfl
@[simp] theorem State.setQuad_cohorts (s : State) (q : QuadState) : (s.setQuad q).cohorts = s.cohorts := rfl
@[simp] theorem State.setQuad_cores (s : State) (q : QuadState) : (s.setQuad q).cores = s.cores := rfl
@[simp] theorem State.setQuad_dies (s : State) (q : QuadState) : (s.setQuad q).dies = s.dies := rfl
@[simp] theorem State.setQuad_ctxs (s : State) (q : QuadState) : (s.setQuad q).ctxs = s.ctxs := rfl
@[simp] theorem State.setQuad_queues (s : State) (q : QuadState) : (s.setQuad q).queues = s.queues := rfl
@[simp] theorem State.setQuad_packets (s : State) (q : QuadState) : (s.setQuad q).packets = s.packets := rfl
@[simp] theorem State.setQuad_launches (s : State) (q : QuadState) : (s.setQuad q).launches = s.launches := rfl
@[simp] theorem State.setQuad_wgs (s : State) (q : QuadState) : (s.setQuad q).wgs = s.wgs := rfl
@[simp] theorem State.setQuad_saved (s : State) (q : QuadState) : (s.setQuad q).saved = s.saved := rfl
@[simp] theorem State.setQuad_parked (s : State) (q : QuadState) : (s.setQuad q).parked = s.parked := rfl
@[simp] theorem State.setQuad_landings (s : State) (q : QuadState) : (s.setQuad q).landings = s.landings := rfl
@[simp] theorem State.setQuad_waitTable (s : State) (q : QuadState) : (s.setQuad q).waitTable = s.waitTable := rfl
@[simp] theorem State.setQuad_pageReqs (s : State) (q : QuadState) : (s.setQuad q).pageReqs = s.pageReqs := rfl
@[simp] theorem State.setQuad_jobs (s : State) (q : QuadState) : (s.setQuad q).jobs = s.jobs := rfl
@[simp] theorem State.setQuad_colls (s : State) (q : QuadState) : (s.setQuad q).colls = s.colls := rfl
@[simp] theorem State.setQuad_progs (s : State) (q : QuadState) : (s.setQuad q).progs = s.progs := rfl
@[simp] theorem State.setQuad_pulls (s : State) (q : QuadState) : (s.setQuad q).pulls = s.pulls := rfl
@[simp] theorem State.setQuad_serves (s : State) (q : QuadState) : (s.setQuad q).serves = s.serves := rfl
@[simp] theorem State.setQuad_joins (s : State) (q : QuadState) : (s.setQuad q).joins = s.joins := rfl
@[simp] theorem State.setQuad_rewardTx (s : State) (q : QuadState) : (s.setQuad q).rewardTx = s.rewardTx := rfl
@[simp] theorem State.setQuad_ports (s : State) (q : QuadState) : (s.setQuad q).ports = s.ports := rfl
@[simp] theorem State.setQuad_routes (s : State) (q : QuadState) : (s.setQuad q).routes = s.routes := rfl
@[simp] theorem State.setQuad_podBars (s : State) (q : QuadState) : (s.setQuad q).podBars = s.podBars := rfl
@[simp] theorem State.setQuad_cycles (s : State) (q : QuadState) : (s.setQuad q).cycles = s.cycles := rfl
@[simp] theorem State.setQuad_pkgRank (s : State) (q : QuadState) : (s.setQuad q).pkgRank = s.pkgRank := rfl
@[simp] theorem State.setQuad_mgen (s : State) (q : QuadState) : (s.setQuad q).mgen = s.mgen := rfl
@[simp] theorem State.setQuad_faddr (s : State) (q : QuadState) : (s.setQuad q).faddr = s.faddr := rfl
@[simp] theorem State.setQuad_adopted (s : State) (q : QuadState) : (s.setQuad q).adopted = s.adopted := rfl
@[simp] theorem State.setQuad_staged (s : State) (q : QuadState) : (s.setQuad q).staged = s.staged := rfl
@[simp] theorem State.setQuad_memState (s : State) (q : QuadState) : (s.setQuad q).memState = s.memState := rfl
@[simp] theorem State.setQuad_failed (s : State) (q : QuadState) : (s.setQuad q).failed = s.failed := rfl
@[simp] theorem State.setQuad_memBlock (s : State) (q : QuadState) : (s.setQuad q).memBlock = s.memBlock := rfl
@[simp] theorem State.setQuad_stepdone (s : State) (q : QuadState) : (s.setQuad q).stepdone = s.stepdone := rfl
@[simp] theorem State.setQuad_ckpt (s : State) (q : QuadState) : (s.setQuad q).ckpt = s.ckpt := rfl
@[simp] theorem State.setQuad_heldWrites (s : State) (q : QuadState) : (s.setQuad q).heldWrites = s.heldWrites := rfl
@[simp] theorem State.setQuad_sealed (s : State) (q : QuadState) : (s.setQuad q).sealed = s.sealed := rfl
@[simp] theorem State.setQuad_watches (s : State) (q : QuadState) : (s.setQuad q).watches = s.watches := rfl
@[simp] theorem State.setQuad_heardOn (s : State) (q : QuadState) : (s.setQuad q).heardOn = s.heardOn := rfl
@[simp] theorem State.setQuad_hbSeq (s : State) (q : QuadState) : (s.setQuad q).hbSeq = s.hbSeq := rfl
@[simp] theorem State.setQuad_leader (s : State) (q : QuadState) : (s.setQuad q).leader = s.leader := rfl
@[simp] theorem State.setQuad_stripes (s : State) (q : QuadState) : (s.setQuad q).stripes = s.stripes := rfl
@[simp] theorem State.setQuad_views (s : State) (q : QuadState) : (s.setQuad q).views = s.views := rfl
@[simp] theorem State.setQuad_bootstat (s : State) (q : QuadState) : (s.setQuad q).bootstat = s.bootstat := rfl
@[simp] theorem State.setQuad_released (s : State) (q : QuadState) : (s.setQuad q).released = s.released := rfl
@[simp] theorem State.setQuad_powered (s : State) (q : QuadState) : (s.setQuad q).powered = s.powered := rfl
@[simp] theorem State.setQuad_cxlUp (s : State) (q : QuadState) : (s.setQuad q).cxlUp = s.cxlUp := rfl
@[simp] theorem State.setQuad_pdom (s : State) (q : QuadState) : (s.setQuad q).pdom = s.pdom := rfl
@[simp] theorem State.setQuad_mailbox (s : State) (q : QuadState) : (s.setQuad q).mailbox = s.mailbox := rfl
@[simp] theorem State.setQuad_i3c (s : State) (q : QuadState) : (s.setQuad q).i3c = s.i3c := rfl
@[simp] theorem State.setQuad_shutdown (s : State) (q : QuadState) : (s.setQuad q).shutdown = s.shutdown := rfl
@[simp] theorem State.setQuad_units (s : State) (q : QuadState) : (s.setQuad q).units = s.units := rfl
@[simp] theorem State.setQuad_l2sets (s : State) (q : QuadState) : (s.setQuad q).l2sets = s.l2sets := rfl
@[simp] theorem State.setQuad_l2 (s : State) (q : QuadState) : (s.setQuad q).l2 = s.l2 := rfl
@[simp] theorem State.setQuad_worked (s : State) (q : QuadState) : (s.setQuad q).worked = s.worked := rfl
@[simp] theorem State.setQuad_lastLeaders (s : State) (q : QuadState) : (s.setQuad q).lastLeaders = s.lastLeaders := rfl
@[simp] theorem State.setQuad_outbox (s : State) (q : QuadState) : (s.setQuad q).outbox = s.outbox := rfl
@[simp] theorem State.setQuad_upsets (s : State) (q : QuadState) : (s.setQuad q).upsets = s.upsets := rfl
@[simp] theorem State.setQuad_fixes (s : State) (q : QuadState) : (s.setQuad q).fixes = s.fixes := rfl
@[simp] theorem State.setQuad_reports (s : State) (q : QuadState) : (s.setQuad q).reports = s.reports := rfl
@[simp] theorem State.setQuad_agenda (s : State) (q : QuadState) : (s.setQuad q).agenda = s.agenda := rfl
@[simp] theorem State.setQuad_later (s : State) (q : QuadState) : (s.setQuad q).later = s.later := rfl
@[simp] theorem State.setQuad_cur (s : State) (q : QuadState) : (s.setQuad q).cur = s.cur := rfl
@[simp] theorem State.setQuad_fresh (s : State) (q : QuadState) : (s.setQuad q).fresh = s.fresh := rfl

/-! ### State.setDie -/

@[simp] theorem State.setDie_mem (s : State) (d : DieState) : (s.setDie d).mem = s.mem := rfl
@[simp] theorem State.setDie_poison (s : State) (d : DieState) : (s.setDie d).poison = s.poison := rfl
@[simp] theorem State.setDie_cohorts (s : State) (d : DieState) : (s.setDie d).cohorts = s.cohorts := rfl
@[simp] theorem State.setDie_cores (s : State) (d : DieState) : (s.setDie d).cores = s.cores := rfl
@[simp] theorem State.setDie_quads (s : State) (d : DieState) : (s.setDie d).quads = s.quads := rfl
@[simp] theorem State.setDie_ctxs (s : State) (d : DieState) : (s.setDie d).ctxs = s.ctxs := rfl
@[simp] theorem State.setDie_queues (s : State) (d : DieState) : (s.setDie d).queues = s.queues := rfl
@[simp] theorem State.setDie_packets (s : State) (d : DieState) : (s.setDie d).packets = s.packets := rfl
@[simp] theorem State.setDie_launches (s : State) (d : DieState) : (s.setDie d).launches = s.launches := rfl
@[simp] theorem State.setDie_wgs (s : State) (d : DieState) : (s.setDie d).wgs = s.wgs := rfl
@[simp] theorem State.setDie_saved (s : State) (d : DieState) : (s.setDie d).saved = s.saved := rfl
@[simp] theorem State.setDie_parked (s : State) (d : DieState) : (s.setDie d).parked = s.parked := rfl
@[simp] theorem State.setDie_landings (s : State) (d : DieState) : (s.setDie d).landings = s.landings := rfl
@[simp] theorem State.setDie_waitTable (s : State) (d : DieState) : (s.setDie d).waitTable = s.waitTable := rfl
@[simp] theorem State.setDie_pageReqs (s : State) (d : DieState) : (s.setDie d).pageReqs = s.pageReqs := rfl
@[simp] theorem State.setDie_jobs (s : State) (d : DieState) : (s.setDie d).jobs = s.jobs := rfl
@[simp] theorem State.setDie_colls (s : State) (d : DieState) : (s.setDie d).colls = s.colls := rfl
@[simp] theorem State.setDie_progs (s : State) (d : DieState) : (s.setDie d).progs = s.progs := rfl
@[simp] theorem State.setDie_pulls (s : State) (d : DieState) : (s.setDie d).pulls = s.pulls := rfl
@[simp] theorem State.setDie_serves (s : State) (d : DieState) : (s.setDie d).serves = s.serves := rfl
@[simp] theorem State.setDie_joins (s : State) (d : DieState) : (s.setDie d).joins = s.joins := rfl
@[simp] theorem State.setDie_rewardTx (s : State) (d : DieState) : (s.setDie d).rewardTx = s.rewardTx := rfl
@[simp] theorem State.setDie_ports (s : State) (d : DieState) : (s.setDie d).ports = s.ports := rfl
@[simp] theorem State.setDie_routes (s : State) (d : DieState) : (s.setDie d).routes = s.routes := rfl
@[simp] theorem State.setDie_podBars (s : State) (d : DieState) : (s.setDie d).podBars = s.podBars := rfl
@[simp] theorem State.setDie_cycles (s : State) (d : DieState) : (s.setDie d).cycles = s.cycles := rfl
@[simp] theorem State.setDie_pkgRank (s : State) (d : DieState) : (s.setDie d).pkgRank = s.pkgRank := rfl
@[simp] theorem State.setDie_mgen (s : State) (d : DieState) : (s.setDie d).mgen = s.mgen := rfl
@[simp] theorem State.setDie_faddr (s : State) (d : DieState) : (s.setDie d).faddr = s.faddr := rfl
@[simp] theorem State.setDie_adopted (s : State) (d : DieState) : (s.setDie d).adopted = s.adopted := rfl
@[simp] theorem State.setDie_staged (s : State) (d : DieState) : (s.setDie d).staged = s.staged := rfl
@[simp] theorem State.setDie_memState (s : State) (d : DieState) : (s.setDie d).memState = s.memState := rfl
@[simp] theorem State.setDie_failed (s : State) (d : DieState) : (s.setDie d).failed = s.failed := rfl
@[simp] theorem State.setDie_memBlock (s : State) (d : DieState) : (s.setDie d).memBlock = s.memBlock := rfl
@[simp] theorem State.setDie_stepdone (s : State) (d : DieState) : (s.setDie d).stepdone = s.stepdone := rfl
@[simp] theorem State.setDie_ckpt (s : State) (d : DieState) : (s.setDie d).ckpt = s.ckpt := rfl
@[simp] theorem State.setDie_heldWrites (s : State) (d : DieState) : (s.setDie d).heldWrites = s.heldWrites := rfl
@[simp] theorem State.setDie_sealed (s : State) (d : DieState) : (s.setDie d).sealed = s.sealed := rfl
@[simp] theorem State.setDie_watches (s : State) (d : DieState) : (s.setDie d).watches = s.watches := rfl
@[simp] theorem State.setDie_heardOn (s : State) (d : DieState) : (s.setDie d).heardOn = s.heardOn := rfl
@[simp] theorem State.setDie_hbSeq (s : State) (d : DieState) : (s.setDie d).hbSeq = s.hbSeq := rfl
@[simp] theorem State.setDie_leader (s : State) (d : DieState) : (s.setDie d).leader = s.leader := rfl
@[simp] theorem State.setDie_stripes (s : State) (d : DieState) : (s.setDie d).stripes = s.stripes := rfl
@[simp] theorem State.setDie_views (s : State) (d : DieState) : (s.setDie d).views = s.views := rfl
@[simp] theorem State.setDie_bootstat (s : State) (d : DieState) : (s.setDie d).bootstat = s.bootstat := rfl
@[simp] theorem State.setDie_released (s : State) (d : DieState) : (s.setDie d).released = s.released := rfl
@[simp] theorem State.setDie_powered (s : State) (d : DieState) : (s.setDie d).powered = s.powered := rfl
@[simp] theorem State.setDie_cxlUp (s : State) (d : DieState) : (s.setDie d).cxlUp = s.cxlUp := rfl
@[simp] theorem State.setDie_pdom (s : State) (d : DieState) : (s.setDie d).pdom = s.pdom := rfl
@[simp] theorem State.setDie_mailbox (s : State) (d : DieState) : (s.setDie d).mailbox = s.mailbox := rfl
@[simp] theorem State.setDie_i3c (s : State) (d : DieState) : (s.setDie d).i3c = s.i3c := rfl
@[simp] theorem State.setDie_shutdown (s : State) (d : DieState) : (s.setDie d).shutdown = s.shutdown := rfl
@[simp] theorem State.setDie_units (s : State) (d : DieState) : (s.setDie d).units = s.units := rfl
@[simp] theorem State.setDie_l2sets (s : State) (d : DieState) : (s.setDie d).l2sets = s.l2sets := rfl
@[simp] theorem State.setDie_l2 (s : State) (d : DieState) : (s.setDie d).l2 = s.l2 := rfl
@[simp] theorem State.setDie_worked (s : State) (d : DieState) : (s.setDie d).worked = s.worked := rfl
@[simp] theorem State.setDie_lastLeaders (s : State) (d : DieState) : (s.setDie d).lastLeaders = s.lastLeaders := rfl
@[simp] theorem State.setDie_outbox (s : State) (d : DieState) : (s.setDie d).outbox = s.outbox := rfl
@[simp] theorem State.setDie_upsets (s : State) (d : DieState) : (s.setDie d).upsets = s.upsets := rfl
@[simp] theorem State.setDie_fixes (s : State) (d : DieState) : (s.setDie d).fixes = s.fixes := rfl
@[simp] theorem State.setDie_reports (s : State) (d : DieState) : (s.setDie d).reports = s.reports := rfl
@[simp] theorem State.setDie_agenda (s : State) (d : DieState) : (s.setDie d).agenda = s.agenda := rfl
@[simp] theorem State.setDie_later (s : State) (d : DieState) : (s.setDie d).later = s.later := rfl
@[simp] theorem State.setDie_cur (s : State) (d : DieState) : (s.setDie d).cur = s.cur := rfl
@[simp] theorem State.setDie_fresh (s : State) (d : DieState) : (s.setDie d).fresh = s.fresh := rfl

/-! ### State.setCtx -/

@[simp] theorem State.setCtx_mem (s : State) (x : Ctx) : (s.setCtx x).mem = s.mem := rfl
@[simp] theorem State.setCtx_poison (s : State) (x : Ctx) : (s.setCtx x).poison = s.poison := rfl
@[simp] theorem State.setCtx_cohorts (s : State) (x : Ctx) : (s.setCtx x).cohorts = s.cohorts := rfl
@[simp] theorem State.setCtx_cores (s : State) (x : Ctx) : (s.setCtx x).cores = s.cores := rfl
@[simp] theorem State.setCtx_quads (s : State) (x : Ctx) : (s.setCtx x).quads = s.quads := rfl
@[simp] theorem State.setCtx_dies (s : State) (x : Ctx) : (s.setCtx x).dies = s.dies := rfl
@[simp] theorem State.setCtx_queues (s : State) (x : Ctx) : (s.setCtx x).queues = s.queues := rfl
@[simp] theorem State.setCtx_packets (s : State) (x : Ctx) : (s.setCtx x).packets = s.packets := rfl
@[simp] theorem State.setCtx_launches (s : State) (x : Ctx) : (s.setCtx x).launches = s.launches := rfl
@[simp] theorem State.setCtx_wgs (s : State) (x : Ctx) : (s.setCtx x).wgs = s.wgs := rfl
@[simp] theorem State.setCtx_saved (s : State) (x : Ctx) : (s.setCtx x).saved = s.saved := rfl
@[simp] theorem State.setCtx_parked (s : State) (x : Ctx) : (s.setCtx x).parked = s.parked := rfl
@[simp] theorem State.setCtx_landings (s : State) (x : Ctx) : (s.setCtx x).landings = s.landings := rfl
@[simp] theorem State.setCtx_waitTable (s : State) (x : Ctx) : (s.setCtx x).waitTable = s.waitTable := rfl
@[simp] theorem State.setCtx_pageReqs (s : State) (x : Ctx) : (s.setCtx x).pageReqs = s.pageReqs := rfl
@[simp] theorem State.setCtx_jobs (s : State) (x : Ctx) : (s.setCtx x).jobs = s.jobs := rfl
@[simp] theorem State.setCtx_colls (s : State) (x : Ctx) : (s.setCtx x).colls = s.colls := rfl
@[simp] theorem State.setCtx_progs (s : State) (x : Ctx) : (s.setCtx x).progs = s.progs := rfl
@[simp] theorem State.setCtx_pulls (s : State) (x : Ctx) : (s.setCtx x).pulls = s.pulls := rfl
@[simp] theorem State.setCtx_serves (s : State) (x : Ctx) : (s.setCtx x).serves = s.serves := rfl
@[simp] theorem State.setCtx_joins (s : State) (x : Ctx) : (s.setCtx x).joins = s.joins := rfl
@[simp] theorem State.setCtx_rewardTx (s : State) (x : Ctx) : (s.setCtx x).rewardTx = s.rewardTx := rfl
@[simp] theorem State.setCtx_ports (s : State) (x : Ctx) : (s.setCtx x).ports = s.ports := rfl
@[simp] theorem State.setCtx_routes (s : State) (x : Ctx) : (s.setCtx x).routes = s.routes := rfl
@[simp] theorem State.setCtx_podBars (s : State) (x : Ctx) : (s.setCtx x).podBars = s.podBars := rfl
@[simp] theorem State.setCtx_cycles (s : State) (x : Ctx) : (s.setCtx x).cycles = s.cycles := rfl
@[simp] theorem State.setCtx_pkgRank (s : State) (x : Ctx) : (s.setCtx x).pkgRank = s.pkgRank := rfl
@[simp] theorem State.setCtx_mgen (s : State) (x : Ctx) : (s.setCtx x).mgen = s.mgen := rfl
@[simp] theorem State.setCtx_faddr (s : State) (x : Ctx) : (s.setCtx x).faddr = s.faddr := rfl
@[simp] theorem State.setCtx_adopted (s : State) (x : Ctx) : (s.setCtx x).adopted = s.adopted := rfl
@[simp] theorem State.setCtx_staged (s : State) (x : Ctx) : (s.setCtx x).staged = s.staged := rfl
@[simp] theorem State.setCtx_memState (s : State) (x : Ctx) : (s.setCtx x).memState = s.memState := rfl
@[simp] theorem State.setCtx_failed (s : State) (x : Ctx) : (s.setCtx x).failed = s.failed := rfl
@[simp] theorem State.setCtx_memBlock (s : State) (x : Ctx) : (s.setCtx x).memBlock = s.memBlock := rfl
@[simp] theorem State.setCtx_stepdone (s : State) (x : Ctx) : (s.setCtx x).stepdone = s.stepdone := rfl
@[simp] theorem State.setCtx_ckpt (s : State) (x : Ctx) : (s.setCtx x).ckpt = s.ckpt := rfl
@[simp] theorem State.setCtx_heldWrites (s : State) (x : Ctx) : (s.setCtx x).heldWrites = s.heldWrites := rfl
@[simp] theorem State.setCtx_sealed (s : State) (x : Ctx) : (s.setCtx x).sealed = s.sealed := rfl
@[simp] theorem State.setCtx_watches (s : State) (x : Ctx) : (s.setCtx x).watches = s.watches := rfl
@[simp] theorem State.setCtx_heardOn (s : State) (x : Ctx) : (s.setCtx x).heardOn = s.heardOn := rfl
@[simp] theorem State.setCtx_hbSeq (s : State) (x : Ctx) : (s.setCtx x).hbSeq = s.hbSeq := rfl
@[simp] theorem State.setCtx_leader (s : State) (x : Ctx) : (s.setCtx x).leader = s.leader := rfl
@[simp] theorem State.setCtx_stripes (s : State) (x : Ctx) : (s.setCtx x).stripes = s.stripes := rfl
@[simp] theorem State.setCtx_views (s : State) (x : Ctx) : (s.setCtx x).views = s.views := rfl
@[simp] theorem State.setCtx_bootstat (s : State) (x : Ctx) : (s.setCtx x).bootstat = s.bootstat := rfl
@[simp] theorem State.setCtx_released (s : State) (x : Ctx) : (s.setCtx x).released = s.released := rfl
@[simp] theorem State.setCtx_powered (s : State) (x : Ctx) : (s.setCtx x).powered = s.powered := rfl
@[simp] theorem State.setCtx_cxlUp (s : State) (x : Ctx) : (s.setCtx x).cxlUp = s.cxlUp := rfl
@[simp] theorem State.setCtx_pdom (s : State) (x : Ctx) : (s.setCtx x).pdom = s.pdom := rfl
@[simp] theorem State.setCtx_mailbox (s : State) (x : Ctx) : (s.setCtx x).mailbox = s.mailbox := rfl
@[simp] theorem State.setCtx_i3c (s : State) (x : Ctx) : (s.setCtx x).i3c = s.i3c := rfl
@[simp] theorem State.setCtx_shutdown (s : State) (x : Ctx) : (s.setCtx x).shutdown = s.shutdown := rfl
@[simp] theorem State.setCtx_units (s : State) (x : Ctx) : (s.setCtx x).units = s.units := rfl
@[simp] theorem State.setCtx_l2sets (s : State) (x : Ctx) : (s.setCtx x).l2sets = s.l2sets := rfl
@[simp] theorem State.setCtx_l2 (s : State) (x : Ctx) : (s.setCtx x).l2 = s.l2 := rfl
@[simp] theorem State.setCtx_worked (s : State) (x : Ctx) : (s.setCtx x).worked = s.worked := rfl
@[simp] theorem State.setCtx_lastLeaders (s : State) (x : Ctx) : (s.setCtx x).lastLeaders = s.lastLeaders := rfl
@[simp] theorem State.setCtx_outbox (s : State) (x : Ctx) : (s.setCtx x).outbox = s.outbox := rfl
@[simp] theorem State.setCtx_upsets (s : State) (x : Ctx) : (s.setCtx x).upsets = s.upsets := rfl
@[simp] theorem State.setCtx_fixes (s : State) (x : Ctx) : (s.setCtx x).fixes = s.fixes := rfl
@[simp] theorem State.setCtx_reports (s : State) (x : Ctx) : (s.setCtx x).reports = s.reports := rfl
@[simp] theorem State.setCtx_agenda (s : State) (x : Ctx) : (s.setCtx x).agenda = s.agenda := rfl
@[simp] theorem State.setCtx_later (s : State) (x : Ctx) : (s.setCtx x).later = s.later := rfl
@[simp] theorem State.setCtx_cur (s : State) (x : Ctx) : (s.setCtx x).cur = s.cur := rfl
@[simp] theorem State.setCtx_fresh (s : State) (x : Ctx) : (s.setCtx x).fresh = s.fresh := rfl

/-! ### State.setCohort -/

@[simp] theorem State.setCohort_mem (s : State) (c : Cohort) : (s.setCohort c).mem = s.mem := rfl
@[simp] theorem State.setCohort_poison (s : State) (c : Cohort) : (s.setCohort c).poison = s.poison := rfl
@[simp] theorem State.setCohort_cores (s : State) (c : Cohort) : (s.setCohort c).cores = s.cores := rfl
@[simp] theorem State.setCohort_quads (s : State) (c : Cohort) : (s.setCohort c).quads = s.quads := rfl
@[simp] theorem State.setCohort_dies (s : State) (c : Cohort) : (s.setCohort c).dies = s.dies := rfl
@[simp] theorem State.setCohort_ctxs (s : State) (c : Cohort) : (s.setCohort c).ctxs = s.ctxs := rfl
@[simp] theorem State.setCohort_queues (s : State) (c : Cohort) : (s.setCohort c).queues = s.queues := rfl
@[simp] theorem State.setCohort_packets (s : State) (c : Cohort) : (s.setCohort c).packets = s.packets := rfl
@[simp] theorem State.setCohort_launches (s : State) (c : Cohort) : (s.setCohort c).launches = s.launches := rfl
@[simp] theorem State.setCohort_wgs (s : State) (c : Cohort) : (s.setCohort c).wgs = s.wgs := rfl
@[simp] theorem State.setCohort_saved (s : State) (c : Cohort) : (s.setCohort c).saved = s.saved := rfl
@[simp] theorem State.setCohort_parked (s : State) (c : Cohort) : (s.setCohort c).parked = s.parked := rfl
@[simp] theorem State.setCohort_landings (s : State) (c : Cohort) : (s.setCohort c).landings = s.landings := rfl
@[simp] theorem State.setCohort_waitTable (s : State) (c : Cohort) : (s.setCohort c).waitTable = s.waitTable := rfl
@[simp] theorem State.setCohort_pageReqs (s : State) (c : Cohort) : (s.setCohort c).pageReqs = s.pageReqs := rfl
@[simp] theorem State.setCohort_jobs (s : State) (c : Cohort) : (s.setCohort c).jobs = s.jobs := rfl
@[simp] theorem State.setCohort_colls (s : State) (c : Cohort) : (s.setCohort c).colls = s.colls := rfl
@[simp] theorem State.setCohort_progs (s : State) (c : Cohort) : (s.setCohort c).progs = s.progs := rfl
@[simp] theorem State.setCohort_pulls (s : State) (c : Cohort) : (s.setCohort c).pulls = s.pulls := rfl
@[simp] theorem State.setCohort_serves (s : State) (c : Cohort) : (s.setCohort c).serves = s.serves := rfl
@[simp] theorem State.setCohort_joins (s : State) (c : Cohort) : (s.setCohort c).joins = s.joins := rfl
@[simp] theorem State.setCohort_rewardTx (s : State) (c : Cohort) : (s.setCohort c).rewardTx = s.rewardTx := rfl
@[simp] theorem State.setCohort_ports (s : State) (c : Cohort) : (s.setCohort c).ports = s.ports := rfl
@[simp] theorem State.setCohort_routes (s : State) (c : Cohort) : (s.setCohort c).routes = s.routes := rfl
@[simp] theorem State.setCohort_podBars (s : State) (c : Cohort) : (s.setCohort c).podBars = s.podBars := rfl
@[simp] theorem State.setCohort_cycles (s : State) (c : Cohort) : (s.setCohort c).cycles = s.cycles := rfl
@[simp] theorem State.setCohort_pkgRank (s : State) (c : Cohort) : (s.setCohort c).pkgRank = s.pkgRank := rfl
@[simp] theorem State.setCohort_mgen (s : State) (c : Cohort) : (s.setCohort c).mgen = s.mgen := rfl
@[simp] theorem State.setCohort_faddr (s : State) (c : Cohort) : (s.setCohort c).faddr = s.faddr := rfl
@[simp] theorem State.setCohort_adopted (s : State) (c : Cohort) : (s.setCohort c).adopted = s.adopted := rfl
@[simp] theorem State.setCohort_staged (s : State) (c : Cohort) : (s.setCohort c).staged = s.staged := rfl
@[simp] theorem State.setCohort_memState (s : State) (c : Cohort) : (s.setCohort c).memState = s.memState := rfl
@[simp] theorem State.setCohort_failed (s : State) (c : Cohort) : (s.setCohort c).failed = s.failed := rfl
@[simp] theorem State.setCohort_memBlock (s : State) (c : Cohort) : (s.setCohort c).memBlock = s.memBlock := rfl
@[simp] theorem State.setCohort_stepdone (s : State) (c : Cohort) : (s.setCohort c).stepdone = s.stepdone := rfl
@[simp] theorem State.setCohort_ckpt (s : State) (c : Cohort) : (s.setCohort c).ckpt = s.ckpt := rfl
@[simp] theorem State.setCohort_heldWrites (s : State) (c : Cohort) : (s.setCohort c).heldWrites = s.heldWrites := rfl
@[simp] theorem State.setCohort_sealed (s : State) (c : Cohort) : (s.setCohort c).sealed = s.sealed := rfl
@[simp] theorem State.setCohort_watches (s : State) (c : Cohort) : (s.setCohort c).watches = s.watches := rfl
@[simp] theorem State.setCohort_heardOn (s : State) (c : Cohort) : (s.setCohort c).heardOn = s.heardOn := rfl
@[simp] theorem State.setCohort_hbSeq (s : State) (c : Cohort) : (s.setCohort c).hbSeq = s.hbSeq := rfl
@[simp] theorem State.setCohort_leader (s : State) (c : Cohort) : (s.setCohort c).leader = s.leader := rfl
@[simp] theorem State.setCohort_stripes (s : State) (c : Cohort) : (s.setCohort c).stripes = s.stripes := rfl
@[simp] theorem State.setCohort_views (s : State) (c : Cohort) : (s.setCohort c).views = s.views := rfl
@[simp] theorem State.setCohort_bootstat (s : State) (c : Cohort) : (s.setCohort c).bootstat = s.bootstat := rfl
@[simp] theorem State.setCohort_released (s : State) (c : Cohort) : (s.setCohort c).released = s.released := rfl
@[simp] theorem State.setCohort_powered (s : State) (c : Cohort) : (s.setCohort c).powered = s.powered := rfl
@[simp] theorem State.setCohort_cxlUp (s : State) (c : Cohort) : (s.setCohort c).cxlUp = s.cxlUp := rfl
@[simp] theorem State.setCohort_pdom (s : State) (c : Cohort) : (s.setCohort c).pdom = s.pdom := rfl
@[simp] theorem State.setCohort_mailbox (s : State) (c : Cohort) : (s.setCohort c).mailbox = s.mailbox := rfl
@[simp] theorem State.setCohort_i3c (s : State) (c : Cohort) : (s.setCohort c).i3c = s.i3c := rfl
@[simp] theorem State.setCohort_shutdown (s : State) (c : Cohort) : (s.setCohort c).shutdown = s.shutdown := rfl
@[simp] theorem State.setCohort_units (s : State) (c : Cohort) : (s.setCohort c).units = s.units := rfl
@[simp] theorem State.setCohort_l2sets (s : State) (c : Cohort) : (s.setCohort c).l2sets = s.l2sets := rfl
@[simp] theorem State.setCohort_l2 (s : State) (c : Cohort) : (s.setCohort c).l2 = s.l2 := rfl
@[simp] theorem State.setCohort_worked (s : State) (c : Cohort) : (s.setCohort c).worked = s.worked := rfl
@[simp] theorem State.setCohort_lastLeaders (s : State) (c : Cohort) : (s.setCohort c).lastLeaders = s.lastLeaders := rfl
@[simp] theorem State.setCohort_outbox (s : State) (c : Cohort) : (s.setCohort c).outbox = s.outbox := rfl
@[simp] theorem State.setCohort_upsets (s : State) (c : Cohort) : (s.setCohort c).upsets = s.upsets := rfl
@[simp] theorem State.setCohort_fixes (s : State) (c : Cohort) : (s.setCohort c).fixes = s.fixes := rfl
@[simp] theorem State.setCohort_reports (s : State) (c : Cohort) : (s.setCohort c).reports = s.reports := rfl
@[simp] theorem State.setCohort_agenda (s : State) (c : Cohort) : (s.setCohort c).agenda = s.agenda := rfl
@[simp] theorem State.setCohort_later (s : State) (c : Cohort) : (s.setCohort c).later = s.later := rfl
@[simp] theorem State.setCohort_cur (s : State) (c : Cohort) : (s.setCohort c).cur = s.cur := rfl
@[simp] theorem State.setCohort_fresh (s : State) (c : Cohort) : (s.setCohort c).fresh = s.fresh := rfl

/-! ### State.setLaunch -/

@[simp] theorem State.setLaunch_mem (s : State) (l : Launch) : (s.setLaunch l).mem = s.mem := rfl
@[simp] theorem State.setLaunch_poison (s : State) (l : Launch) : (s.setLaunch l).poison = s.poison := rfl
@[simp] theorem State.setLaunch_cohorts (s : State) (l : Launch) : (s.setLaunch l).cohorts = s.cohorts := rfl
@[simp] theorem State.setLaunch_cores (s : State) (l : Launch) : (s.setLaunch l).cores = s.cores := rfl
@[simp] theorem State.setLaunch_quads (s : State) (l : Launch) : (s.setLaunch l).quads = s.quads := rfl
@[simp] theorem State.setLaunch_dies (s : State) (l : Launch) : (s.setLaunch l).dies = s.dies := rfl
@[simp] theorem State.setLaunch_ctxs (s : State) (l : Launch) : (s.setLaunch l).ctxs = s.ctxs := rfl
@[simp] theorem State.setLaunch_queues (s : State) (l : Launch) : (s.setLaunch l).queues = s.queues := rfl
@[simp] theorem State.setLaunch_packets (s : State) (l : Launch) : (s.setLaunch l).packets = s.packets := rfl
@[simp] theorem State.setLaunch_wgs (s : State) (l : Launch) : (s.setLaunch l).wgs = s.wgs := rfl
@[simp] theorem State.setLaunch_saved (s : State) (l : Launch) : (s.setLaunch l).saved = s.saved := rfl
@[simp] theorem State.setLaunch_parked (s : State) (l : Launch) : (s.setLaunch l).parked = s.parked := rfl
@[simp] theorem State.setLaunch_landings (s : State) (l : Launch) : (s.setLaunch l).landings = s.landings := rfl
@[simp] theorem State.setLaunch_waitTable (s : State) (l : Launch) : (s.setLaunch l).waitTable = s.waitTable := rfl
@[simp] theorem State.setLaunch_pageReqs (s : State) (l : Launch) : (s.setLaunch l).pageReqs = s.pageReqs := rfl
@[simp] theorem State.setLaunch_jobs (s : State) (l : Launch) : (s.setLaunch l).jobs = s.jobs := rfl
@[simp] theorem State.setLaunch_colls (s : State) (l : Launch) : (s.setLaunch l).colls = s.colls := rfl
@[simp] theorem State.setLaunch_progs (s : State) (l : Launch) : (s.setLaunch l).progs = s.progs := rfl
@[simp] theorem State.setLaunch_pulls (s : State) (l : Launch) : (s.setLaunch l).pulls = s.pulls := rfl
@[simp] theorem State.setLaunch_serves (s : State) (l : Launch) : (s.setLaunch l).serves = s.serves := rfl
@[simp] theorem State.setLaunch_joins (s : State) (l : Launch) : (s.setLaunch l).joins = s.joins := rfl
@[simp] theorem State.setLaunch_rewardTx (s : State) (l : Launch) : (s.setLaunch l).rewardTx = s.rewardTx := rfl
@[simp] theorem State.setLaunch_ports (s : State) (l : Launch) : (s.setLaunch l).ports = s.ports := rfl
@[simp] theorem State.setLaunch_routes (s : State) (l : Launch) : (s.setLaunch l).routes = s.routes := rfl
@[simp] theorem State.setLaunch_podBars (s : State) (l : Launch) : (s.setLaunch l).podBars = s.podBars := rfl
@[simp] theorem State.setLaunch_cycles (s : State) (l : Launch) : (s.setLaunch l).cycles = s.cycles := rfl
@[simp] theorem State.setLaunch_pkgRank (s : State) (l : Launch) : (s.setLaunch l).pkgRank = s.pkgRank := rfl
@[simp] theorem State.setLaunch_mgen (s : State) (l : Launch) : (s.setLaunch l).mgen = s.mgen := rfl
@[simp] theorem State.setLaunch_faddr (s : State) (l : Launch) : (s.setLaunch l).faddr = s.faddr := rfl
@[simp] theorem State.setLaunch_adopted (s : State) (l : Launch) : (s.setLaunch l).adopted = s.adopted := rfl
@[simp] theorem State.setLaunch_staged (s : State) (l : Launch) : (s.setLaunch l).staged = s.staged := rfl
@[simp] theorem State.setLaunch_memState (s : State) (l : Launch) : (s.setLaunch l).memState = s.memState := rfl
@[simp] theorem State.setLaunch_failed (s : State) (l : Launch) : (s.setLaunch l).failed = s.failed := rfl
@[simp] theorem State.setLaunch_memBlock (s : State) (l : Launch) : (s.setLaunch l).memBlock = s.memBlock := rfl
@[simp] theorem State.setLaunch_stepdone (s : State) (l : Launch) : (s.setLaunch l).stepdone = s.stepdone := rfl
@[simp] theorem State.setLaunch_ckpt (s : State) (l : Launch) : (s.setLaunch l).ckpt = s.ckpt := rfl
@[simp] theorem State.setLaunch_heldWrites (s : State) (l : Launch) : (s.setLaunch l).heldWrites = s.heldWrites := rfl
@[simp] theorem State.setLaunch_sealed (s : State) (l : Launch) : (s.setLaunch l).sealed = s.sealed := rfl
@[simp] theorem State.setLaunch_watches (s : State) (l : Launch) : (s.setLaunch l).watches = s.watches := rfl
@[simp] theorem State.setLaunch_heardOn (s : State) (l : Launch) : (s.setLaunch l).heardOn = s.heardOn := rfl
@[simp] theorem State.setLaunch_hbSeq (s : State) (l : Launch) : (s.setLaunch l).hbSeq = s.hbSeq := rfl
@[simp] theorem State.setLaunch_leader (s : State) (l : Launch) : (s.setLaunch l).leader = s.leader := rfl
@[simp] theorem State.setLaunch_stripes (s : State) (l : Launch) : (s.setLaunch l).stripes = s.stripes := rfl
@[simp] theorem State.setLaunch_views (s : State) (l : Launch) : (s.setLaunch l).views = s.views := rfl
@[simp] theorem State.setLaunch_bootstat (s : State) (l : Launch) : (s.setLaunch l).bootstat = s.bootstat := rfl
@[simp] theorem State.setLaunch_released (s : State) (l : Launch) : (s.setLaunch l).released = s.released := rfl
@[simp] theorem State.setLaunch_powered (s : State) (l : Launch) : (s.setLaunch l).powered = s.powered := rfl
@[simp] theorem State.setLaunch_cxlUp (s : State) (l : Launch) : (s.setLaunch l).cxlUp = s.cxlUp := rfl
@[simp] theorem State.setLaunch_pdom (s : State) (l : Launch) : (s.setLaunch l).pdom = s.pdom := rfl
@[simp] theorem State.setLaunch_mailbox (s : State) (l : Launch) : (s.setLaunch l).mailbox = s.mailbox := rfl
@[simp] theorem State.setLaunch_i3c (s : State) (l : Launch) : (s.setLaunch l).i3c = s.i3c := rfl
@[simp] theorem State.setLaunch_shutdown (s : State) (l : Launch) : (s.setLaunch l).shutdown = s.shutdown := rfl
@[simp] theorem State.setLaunch_units (s : State) (l : Launch) : (s.setLaunch l).units = s.units := rfl
@[simp] theorem State.setLaunch_l2sets (s : State) (l : Launch) : (s.setLaunch l).l2sets = s.l2sets := rfl
@[simp] theorem State.setLaunch_l2 (s : State) (l : Launch) : (s.setLaunch l).l2 = s.l2 := rfl
@[simp] theorem State.setLaunch_worked (s : State) (l : Launch) : (s.setLaunch l).worked = s.worked := rfl
@[simp] theorem State.setLaunch_lastLeaders (s : State) (l : Launch) : (s.setLaunch l).lastLeaders = s.lastLeaders := rfl
@[simp] theorem State.setLaunch_outbox (s : State) (l : Launch) : (s.setLaunch l).outbox = s.outbox := rfl
@[simp] theorem State.setLaunch_upsets (s : State) (l : Launch) : (s.setLaunch l).upsets = s.upsets := rfl
@[simp] theorem State.setLaunch_fixes (s : State) (l : Launch) : (s.setLaunch l).fixes = s.fixes := rfl
@[simp] theorem State.setLaunch_reports (s : State) (l : Launch) : (s.setLaunch l).reports = s.reports := rfl
@[simp] theorem State.setLaunch_agenda (s : State) (l : Launch) : (s.setLaunch l).agenda = s.agenda := rfl
@[simp] theorem State.setLaunch_later (s : State) (l : Launch) : (s.setLaunch l).later = s.later := rfl
@[simp] theorem State.setLaunch_cur (s : State) (l : Launch) : (s.setLaunch l).cur = s.cur := rfl
@[simp] theorem State.setLaunch_fresh (s : State) (l : Launch) : (s.setLaunch l).fresh = s.fresh := rfl

/-! ### State.setWg -/

@[simp] theorem State.setWg_mem (s : State) (w : Wg) : (s.setWg w).mem = s.mem := rfl
@[simp] theorem State.setWg_poison (s : State) (w : Wg) : (s.setWg w).poison = s.poison := rfl
@[simp] theorem State.setWg_cohorts (s : State) (w : Wg) : (s.setWg w).cohorts = s.cohorts := rfl
@[simp] theorem State.setWg_cores (s : State) (w : Wg) : (s.setWg w).cores = s.cores := rfl
@[simp] theorem State.setWg_quads (s : State) (w : Wg) : (s.setWg w).quads = s.quads := rfl
@[simp] theorem State.setWg_dies (s : State) (w : Wg) : (s.setWg w).dies = s.dies := rfl
@[simp] theorem State.setWg_ctxs (s : State) (w : Wg) : (s.setWg w).ctxs = s.ctxs := rfl
@[simp] theorem State.setWg_queues (s : State) (w : Wg) : (s.setWg w).queues = s.queues := rfl
@[simp] theorem State.setWg_packets (s : State) (w : Wg) : (s.setWg w).packets = s.packets := rfl
@[simp] theorem State.setWg_launches (s : State) (w : Wg) : (s.setWg w).launches = s.launches := rfl
@[simp] theorem State.setWg_saved (s : State) (w : Wg) : (s.setWg w).saved = s.saved := rfl
@[simp] theorem State.setWg_parked (s : State) (w : Wg) : (s.setWg w).parked = s.parked := rfl
@[simp] theorem State.setWg_landings (s : State) (w : Wg) : (s.setWg w).landings = s.landings := rfl
@[simp] theorem State.setWg_waitTable (s : State) (w : Wg) : (s.setWg w).waitTable = s.waitTable := rfl
@[simp] theorem State.setWg_pageReqs (s : State) (w : Wg) : (s.setWg w).pageReqs = s.pageReqs := rfl
@[simp] theorem State.setWg_jobs (s : State) (w : Wg) : (s.setWg w).jobs = s.jobs := rfl
@[simp] theorem State.setWg_colls (s : State) (w : Wg) : (s.setWg w).colls = s.colls := rfl
@[simp] theorem State.setWg_progs (s : State) (w : Wg) : (s.setWg w).progs = s.progs := rfl
@[simp] theorem State.setWg_pulls (s : State) (w : Wg) : (s.setWg w).pulls = s.pulls := rfl
@[simp] theorem State.setWg_serves (s : State) (w : Wg) : (s.setWg w).serves = s.serves := rfl
@[simp] theorem State.setWg_joins (s : State) (w : Wg) : (s.setWg w).joins = s.joins := rfl
@[simp] theorem State.setWg_rewardTx (s : State) (w : Wg) : (s.setWg w).rewardTx = s.rewardTx := rfl
@[simp] theorem State.setWg_ports (s : State) (w : Wg) : (s.setWg w).ports = s.ports := rfl
@[simp] theorem State.setWg_routes (s : State) (w : Wg) : (s.setWg w).routes = s.routes := rfl
@[simp] theorem State.setWg_podBars (s : State) (w : Wg) : (s.setWg w).podBars = s.podBars := rfl
@[simp] theorem State.setWg_cycles (s : State) (w : Wg) : (s.setWg w).cycles = s.cycles := rfl
@[simp] theorem State.setWg_pkgRank (s : State) (w : Wg) : (s.setWg w).pkgRank = s.pkgRank := rfl
@[simp] theorem State.setWg_mgen (s : State) (w : Wg) : (s.setWg w).mgen = s.mgen := rfl
@[simp] theorem State.setWg_faddr (s : State) (w : Wg) : (s.setWg w).faddr = s.faddr := rfl
@[simp] theorem State.setWg_adopted (s : State) (w : Wg) : (s.setWg w).adopted = s.adopted := rfl
@[simp] theorem State.setWg_staged (s : State) (w : Wg) : (s.setWg w).staged = s.staged := rfl
@[simp] theorem State.setWg_memState (s : State) (w : Wg) : (s.setWg w).memState = s.memState := rfl
@[simp] theorem State.setWg_failed (s : State) (w : Wg) : (s.setWg w).failed = s.failed := rfl
@[simp] theorem State.setWg_memBlock (s : State) (w : Wg) : (s.setWg w).memBlock = s.memBlock := rfl
@[simp] theorem State.setWg_stepdone (s : State) (w : Wg) : (s.setWg w).stepdone = s.stepdone := rfl
@[simp] theorem State.setWg_ckpt (s : State) (w : Wg) : (s.setWg w).ckpt = s.ckpt := rfl
@[simp] theorem State.setWg_heldWrites (s : State) (w : Wg) : (s.setWg w).heldWrites = s.heldWrites := rfl
@[simp] theorem State.setWg_sealed (s : State) (w : Wg) : (s.setWg w).sealed = s.sealed := rfl
@[simp] theorem State.setWg_watches (s : State) (w : Wg) : (s.setWg w).watches = s.watches := rfl
@[simp] theorem State.setWg_heardOn (s : State) (w : Wg) : (s.setWg w).heardOn = s.heardOn := rfl
@[simp] theorem State.setWg_hbSeq (s : State) (w : Wg) : (s.setWg w).hbSeq = s.hbSeq := rfl
@[simp] theorem State.setWg_leader (s : State) (w : Wg) : (s.setWg w).leader = s.leader := rfl
@[simp] theorem State.setWg_stripes (s : State) (w : Wg) : (s.setWg w).stripes = s.stripes := rfl
@[simp] theorem State.setWg_views (s : State) (w : Wg) : (s.setWg w).views = s.views := rfl
@[simp] theorem State.setWg_bootstat (s : State) (w : Wg) : (s.setWg w).bootstat = s.bootstat := rfl
@[simp] theorem State.setWg_released (s : State) (w : Wg) : (s.setWg w).released = s.released := rfl
@[simp] theorem State.setWg_powered (s : State) (w : Wg) : (s.setWg w).powered = s.powered := rfl
@[simp] theorem State.setWg_cxlUp (s : State) (w : Wg) : (s.setWg w).cxlUp = s.cxlUp := rfl
@[simp] theorem State.setWg_pdom (s : State) (w : Wg) : (s.setWg w).pdom = s.pdom := rfl
@[simp] theorem State.setWg_mailbox (s : State) (w : Wg) : (s.setWg w).mailbox = s.mailbox := rfl
@[simp] theorem State.setWg_i3c (s : State) (w : Wg) : (s.setWg w).i3c = s.i3c := rfl
@[simp] theorem State.setWg_shutdown (s : State) (w : Wg) : (s.setWg w).shutdown = s.shutdown := rfl
@[simp] theorem State.setWg_units (s : State) (w : Wg) : (s.setWg w).units = s.units := rfl
@[simp] theorem State.setWg_l2sets (s : State) (w : Wg) : (s.setWg w).l2sets = s.l2sets := rfl
@[simp] theorem State.setWg_l2 (s : State) (w : Wg) : (s.setWg w).l2 = s.l2 := rfl
@[simp] theorem State.setWg_worked (s : State) (w : Wg) : (s.setWg w).worked = s.worked := rfl
@[simp] theorem State.setWg_lastLeaders (s : State) (w : Wg) : (s.setWg w).lastLeaders = s.lastLeaders := rfl
@[simp] theorem State.setWg_outbox (s : State) (w : Wg) : (s.setWg w).outbox = s.outbox := rfl
@[simp] theorem State.setWg_upsets (s : State) (w : Wg) : (s.setWg w).upsets = s.upsets := rfl
@[simp] theorem State.setWg_fixes (s : State) (w : Wg) : (s.setWg w).fixes = s.fixes := rfl
@[simp] theorem State.setWg_reports (s : State) (w : Wg) : (s.setWg w).reports = s.reports := rfl
@[simp] theorem State.setWg_agenda (s : State) (w : Wg) : (s.setWg w).agenda = s.agenda := rfl
@[simp] theorem State.setWg_later (s : State) (w : Wg) : (s.setWg w).later = s.later := rfl
@[simp] theorem State.setWg_cur (s : State) (w : Wg) : (s.setWg w).cur = s.cur := rfl
@[simp] theorem State.setWg_fresh (s : State) (w : Wg) : (s.setWg w).fresh = s.fresh := rfl

/-! ### State.setQueue -/

@[simp] theorem State.setQueue_mem (s : State) (q : Queue) : (s.setQueue q).mem = s.mem := rfl
@[simp] theorem State.setQueue_poison (s : State) (q : Queue) : (s.setQueue q).poison = s.poison := rfl
@[simp] theorem State.setQueue_cohorts (s : State) (q : Queue) : (s.setQueue q).cohorts = s.cohorts := rfl
@[simp] theorem State.setQueue_cores (s : State) (q : Queue) : (s.setQueue q).cores = s.cores := rfl
@[simp] theorem State.setQueue_quads (s : State) (q : Queue) : (s.setQueue q).quads = s.quads := rfl
@[simp] theorem State.setQueue_dies (s : State) (q : Queue) : (s.setQueue q).dies = s.dies := rfl
@[simp] theorem State.setQueue_ctxs (s : State) (q : Queue) : (s.setQueue q).ctxs = s.ctxs := rfl
@[simp] theorem State.setQueue_packets (s : State) (q : Queue) : (s.setQueue q).packets = s.packets := rfl
@[simp] theorem State.setQueue_launches (s : State) (q : Queue) : (s.setQueue q).launches = s.launches := rfl
@[simp] theorem State.setQueue_wgs (s : State) (q : Queue) : (s.setQueue q).wgs = s.wgs := rfl
@[simp] theorem State.setQueue_saved (s : State) (q : Queue) : (s.setQueue q).saved = s.saved := rfl
@[simp] theorem State.setQueue_parked (s : State) (q : Queue) : (s.setQueue q).parked = s.parked := rfl
@[simp] theorem State.setQueue_landings (s : State) (q : Queue) : (s.setQueue q).landings = s.landings := rfl
@[simp] theorem State.setQueue_waitTable (s : State) (q : Queue) : (s.setQueue q).waitTable = s.waitTable := rfl
@[simp] theorem State.setQueue_pageReqs (s : State) (q : Queue) : (s.setQueue q).pageReqs = s.pageReqs := rfl
@[simp] theorem State.setQueue_jobs (s : State) (q : Queue) : (s.setQueue q).jobs = s.jobs := rfl
@[simp] theorem State.setQueue_colls (s : State) (q : Queue) : (s.setQueue q).colls = s.colls := rfl
@[simp] theorem State.setQueue_progs (s : State) (q : Queue) : (s.setQueue q).progs = s.progs := rfl
@[simp] theorem State.setQueue_pulls (s : State) (q : Queue) : (s.setQueue q).pulls = s.pulls := rfl
@[simp] theorem State.setQueue_serves (s : State) (q : Queue) : (s.setQueue q).serves = s.serves := rfl
@[simp] theorem State.setQueue_joins (s : State) (q : Queue) : (s.setQueue q).joins = s.joins := rfl
@[simp] theorem State.setQueue_rewardTx (s : State) (q : Queue) : (s.setQueue q).rewardTx = s.rewardTx := rfl
@[simp] theorem State.setQueue_ports (s : State) (q : Queue) : (s.setQueue q).ports = s.ports := rfl
@[simp] theorem State.setQueue_routes (s : State) (q : Queue) : (s.setQueue q).routes = s.routes := rfl
@[simp] theorem State.setQueue_podBars (s : State) (q : Queue) : (s.setQueue q).podBars = s.podBars := rfl
@[simp] theorem State.setQueue_cycles (s : State) (q : Queue) : (s.setQueue q).cycles = s.cycles := rfl
@[simp] theorem State.setQueue_pkgRank (s : State) (q : Queue) : (s.setQueue q).pkgRank = s.pkgRank := rfl
@[simp] theorem State.setQueue_mgen (s : State) (q : Queue) : (s.setQueue q).mgen = s.mgen := rfl
@[simp] theorem State.setQueue_faddr (s : State) (q : Queue) : (s.setQueue q).faddr = s.faddr := rfl
@[simp] theorem State.setQueue_adopted (s : State) (q : Queue) : (s.setQueue q).adopted = s.adopted := rfl
@[simp] theorem State.setQueue_staged (s : State) (q : Queue) : (s.setQueue q).staged = s.staged := rfl
@[simp] theorem State.setQueue_memState (s : State) (q : Queue) : (s.setQueue q).memState = s.memState := rfl
@[simp] theorem State.setQueue_failed (s : State) (q : Queue) : (s.setQueue q).failed = s.failed := rfl
@[simp] theorem State.setQueue_memBlock (s : State) (q : Queue) : (s.setQueue q).memBlock = s.memBlock := rfl
@[simp] theorem State.setQueue_stepdone (s : State) (q : Queue) : (s.setQueue q).stepdone = s.stepdone := rfl
@[simp] theorem State.setQueue_ckpt (s : State) (q : Queue) : (s.setQueue q).ckpt = s.ckpt := rfl
@[simp] theorem State.setQueue_heldWrites (s : State) (q : Queue) : (s.setQueue q).heldWrites = s.heldWrites := rfl
@[simp] theorem State.setQueue_sealed (s : State) (q : Queue) : (s.setQueue q).sealed = s.sealed := rfl
@[simp] theorem State.setQueue_watches (s : State) (q : Queue) : (s.setQueue q).watches = s.watches := rfl
@[simp] theorem State.setQueue_heardOn (s : State) (q : Queue) : (s.setQueue q).heardOn = s.heardOn := rfl
@[simp] theorem State.setQueue_hbSeq (s : State) (q : Queue) : (s.setQueue q).hbSeq = s.hbSeq := rfl
@[simp] theorem State.setQueue_leader (s : State) (q : Queue) : (s.setQueue q).leader = s.leader := rfl
@[simp] theorem State.setQueue_stripes (s : State) (q : Queue) : (s.setQueue q).stripes = s.stripes := rfl
@[simp] theorem State.setQueue_views (s : State) (q : Queue) : (s.setQueue q).views = s.views := rfl
@[simp] theorem State.setQueue_bootstat (s : State) (q : Queue) : (s.setQueue q).bootstat = s.bootstat := rfl
@[simp] theorem State.setQueue_released (s : State) (q : Queue) : (s.setQueue q).released = s.released := rfl
@[simp] theorem State.setQueue_powered (s : State) (q : Queue) : (s.setQueue q).powered = s.powered := rfl
@[simp] theorem State.setQueue_cxlUp (s : State) (q : Queue) : (s.setQueue q).cxlUp = s.cxlUp := rfl
@[simp] theorem State.setQueue_pdom (s : State) (q : Queue) : (s.setQueue q).pdom = s.pdom := rfl
@[simp] theorem State.setQueue_mailbox (s : State) (q : Queue) : (s.setQueue q).mailbox = s.mailbox := rfl
@[simp] theorem State.setQueue_i3c (s : State) (q : Queue) : (s.setQueue q).i3c = s.i3c := rfl
@[simp] theorem State.setQueue_shutdown (s : State) (q : Queue) : (s.setQueue q).shutdown = s.shutdown := rfl
@[simp] theorem State.setQueue_units (s : State) (q : Queue) : (s.setQueue q).units = s.units := rfl
@[simp] theorem State.setQueue_l2sets (s : State) (q : Queue) : (s.setQueue q).l2sets = s.l2sets := rfl
@[simp] theorem State.setQueue_l2 (s : State) (q : Queue) : (s.setQueue q).l2 = s.l2 := rfl
@[simp] theorem State.setQueue_worked (s : State) (q : Queue) : (s.setQueue q).worked = s.worked := rfl
@[simp] theorem State.setQueue_lastLeaders (s : State) (q : Queue) : (s.setQueue q).lastLeaders = s.lastLeaders := rfl
@[simp] theorem State.setQueue_outbox (s : State) (q : Queue) : (s.setQueue q).outbox = s.outbox := rfl
@[simp] theorem State.setQueue_upsets (s : State) (q : Queue) : (s.setQueue q).upsets = s.upsets := rfl
@[simp] theorem State.setQueue_fixes (s : State) (q : Queue) : (s.setQueue q).fixes = s.fixes := rfl
@[simp] theorem State.setQueue_reports (s : State) (q : Queue) : (s.setQueue q).reports = s.reports := rfl
@[simp] theorem State.setQueue_agenda (s : State) (q : Queue) : (s.setQueue q).agenda = s.agenda := rfl
@[simp] theorem State.setQueue_later (s : State) (q : Queue) : (s.setQueue q).later = s.later := rfl
@[simp] theorem State.setQueue_cur (s : State) (q : Queue) : (s.setQueue q).cur = s.cur := rfl
@[simp] theorem State.setQueue_fresh (s : State) (q : Queue) : (s.setQueue q).fresh = s.fresh := rfl

/-! ### State.setJob -/

@[simp] theorem State.setJob_mem (s : State) (j : Job) : (s.setJob j).mem = s.mem := rfl
@[simp] theorem State.setJob_poison (s : State) (j : Job) : (s.setJob j).poison = s.poison := rfl
@[simp] theorem State.setJob_cohorts (s : State) (j : Job) : (s.setJob j).cohorts = s.cohorts := rfl
@[simp] theorem State.setJob_cores (s : State) (j : Job) : (s.setJob j).cores = s.cores := rfl
@[simp] theorem State.setJob_quads (s : State) (j : Job) : (s.setJob j).quads = s.quads := rfl
@[simp] theorem State.setJob_dies (s : State) (j : Job) : (s.setJob j).dies = s.dies := rfl
@[simp] theorem State.setJob_ctxs (s : State) (j : Job) : (s.setJob j).ctxs = s.ctxs := rfl
@[simp] theorem State.setJob_queues (s : State) (j : Job) : (s.setJob j).queues = s.queues := rfl
@[simp] theorem State.setJob_packets (s : State) (j : Job) : (s.setJob j).packets = s.packets := rfl
@[simp] theorem State.setJob_launches (s : State) (j : Job) : (s.setJob j).launches = s.launches := rfl
@[simp] theorem State.setJob_wgs (s : State) (j : Job) : (s.setJob j).wgs = s.wgs := rfl
@[simp] theorem State.setJob_saved (s : State) (j : Job) : (s.setJob j).saved = s.saved := rfl
@[simp] theorem State.setJob_parked (s : State) (j : Job) : (s.setJob j).parked = s.parked := rfl
@[simp] theorem State.setJob_landings (s : State) (j : Job) : (s.setJob j).landings = s.landings := rfl
@[simp] theorem State.setJob_waitTable (s : State) (j : Job) : (s.setJob j).waitTable = s.waitTable := rfl
@[simp] theorem State.setJob_pageReqs (s : State) (j : Job) : (s.setJob j).pageReqs = s.pageReqs := rfl
@[simp] theorem State.setJob_colls (s : State) (j : Job) : (s.setJob j).colls = s.colls := rfl
@[simp] theorem State.setJob_progs (s : State) (j : Job) : (s.setJob j).progs = s.progs := rfl
@[simp] theorem State.setJob_pulls (s : State) (j : Job) : (s.setJob j).pulls = s.pulls := rfl
@[simp] theorem State.setJob_serves (s : State) (j : Job) : (s.setJob j).serves = s.serves := rfl
@[simp] theorem State.setJob_joins (s : State) (j : Job) : (s.setJob j).joins = s.joins := rfl
@[simp] theorem State.setJob_rewardTx (s : State) (j : Job) : (s.setJob j).rewardTx = s.rewardTx := rfl
@[simp] theorem State.setJob_ports (s : State) (j : Job) : (s.setJob j).ports = s.ports := rfl
@[simp] theorem State.setJob_routes (s : State) (j : Job) : (s.setJob j).routes = s.routes := rfl
@[simp] theorem State.setJob_podBars (s : State) (j : Job) : (s.setJob j).podBars = s.podBars := rfl
@[simp] theorem State.setJob_cycles (s : State) (j : Job) : (s.setJob j).cycles = s.cycles := rfl
@[simp] theorem State.setJob_pkgRank (s : State) (j : Job) : (s.setJob j).pkgRank = s.pkgRank := rfl
@[simp] theorem State.setJob_mgen (s : State) (j : Job) : (s.setJob j).mgen = s.mgen := rfl
@[simp] theorem State.setJob_faddr (s : State) (j : Job) : (s.setJob j).faddr = s.faddr := rfl
@[simp] theorem State.setJob_adopted (s : State) (j : Job) : (s.setJob j).adopted = s.adopted := rfl
@[simp] theorem State.setJob_staged (s : State) (j : Job) : (s.setJob j).staged = s.staged := rfl
@[simp] theorem State.setJob_memState (s : State) (j : Job) : (s.setJob j).memState = s.memState := rfl
@[simp] theorem State.setJob_failed (s : State) (j : Job) : (s.setJob j).failed = s.failed := rfl
@[simp] theorem State.setJob_memBlock (s : State) (j : Job) : (s.setJob j).memBlock = s.memBlock := rfl
@[simp] theorem State.setJob_stepdone (s : State) (j : Job) : (s.setJob j).stepdone = s.stepdone := rfl
@[simp] theorem State.setJob_ckpt (s : State) (j : Job) : (s.setJob j).ckpt = s.ckpt := rfl
@[simp] theorem State.setJob_heldWrites (s : State) (j : Job) : (s.setJob j).heldWrites = s.heldWrites := rfl
@[simp] theorem State.setJob_sealed (s : State) (j : Job) : (s.setJob j).sealed = s.sealed := rfl
@[simp] theorem State.setJob_watches (s : State) (j : Job) : (s.setJob j).watches = s.watches := rfl
@[simp] theorem State.setJob_heardOn (s : State) (j : Job) : (s.setJob j).heardOn = s.heardOn := rfl
@[simp] theorem State.setJob_hbSeq (s : State) (j : Job) : (s.setJob j).hbSeq = s.hbSeq := rfl
@[simp] theorem State.setJob_leader (s : State) (j : Job) : (s.setJob j).leader = s.leader := rfl
@[simp] theorem State.setJob_stripes (s : State) (j : Job) : (s.setJob j).stripes = s.stripes := rfl
@[simp] theorem State.setJob_views (s : State) (j : Job) : (s.setJob j).views = s.views := rfl
@[simp] theorem State.setJob_bootstat (s : State) (j : Job) : (s.setJob j).bootstat = s.bootstat := rfl
@[simp] theorem State.setJob_released (s : State) (j : Job) : (s.setJob j).released = s.released := rfl
@[simp] theorem State.setJob_powered (s : State) (j : Job) : (s.setJob j).powered = s.powered := rfl
@[simp] theorem State.setJob_cxlUp (s : State) (j : Job) : (s.setJob j).cxlUp = s.cxlUp := rfl
@[simp] theorem State.setJob_pdom (s : State) (j : Job) : (s.setJob j).pdom = s.pdom := rfl
@[simp] theorem State.setJob_mailbox (s : State) (j : Job) : (s.setJob j).mailbox = s.mailbox := rfl
@[simp] theorem State.setJob_i3c (s : State) (j : Job) : (s.setJob j).i3c = s.i3c := rfl
@[simp] theorem State.setJob_shutdown (s : State) (j : Job) : (s.setJob j).shutdown = s.shutdown := rfl
@[simp] theorem State.setJob_units (s : State) (j : Job) : (s.setJob j).units = s.units := rfl
@[simp] theorem State.setJob_l2sets (s : State) (j : Job) : (s.setJob j).l2sets = s.l2sets := rfl
@[simp] theorem State.setJob_l2 (s : State) (j : Job) : (s.setJob j).l2 = s.l2 := rfl
@[simp] theorem State.setJob_worked (s : State) (j : Job) : (s.setJob j).worked = s.worked := rfl
@[simp] theorem State.setJob_lastLeaders (s : State) (j : Job) : (s.setJob j).lastLeaders = s.lastLeaders := rfl
@[simp] theorem State.setJob_outbox (s : State) (j : Job) : (s.setJob j).outbox = s.outbox := rfl
@[simp] theorem State.setJob_upsets (s : State) (j : Job) : (s.setJob j).upsets = s.upsets := rfl
@[simp] theorem State.setJob_fixes (s : State) (j : Job) : (s.setJob j).fixes = s.fixes := rfl
@[simp] theorem State.setJob_reports (s : State) (j : Job) : (s.setJob j).reports = s.reports := rfl
@[simp] theorem State.setJob_agenda (s : State) (j : Job) : (s.setJob j).agenda = s.agenda := rfl
@[simp] theorem State.setJob_later (s : State) (j : Job) : (s.setJob j).later = s.later := rfl
@[simp] theorem State.setJob_cur (s : State) (j : Job) : (s.setJob j).cur = s.cur := rfl
@[simp] theorem State.setJob_fresh (s : State) (j : Job) : (s.setJob j).fresh = s.fresh := rfl

/-! ### State.setJoin -/

@[simp] theorem State.setJoin_mem (s : State) (u : JoinUnit) : (s.setJoin u).mem = s.mem := rfl
@[simp] theorem State.setJoin_poison (s : State) (u : JoinUnit) : (s.setJoin u).poison = s.poison := rfl
@[simp] theorem State.setJoin_cohorts (s : State) (u : JoinUnit) : (s.setJoin u).cohorts = s.cohorts := rfl
@[simp] theorem State.setJoin_cores (s : State) (u : JoinUnit) : (s.setJoin u).cores = s.cores := rfl
@[simp] theorem State.setJoin_quads (s : State) (u : JoinUnit) : (s.setJoin u).quads = s.quads := rfl
@[simp] theorem State.setJoin_dies (s : State) (u : JoinUnit) : (s.setJoin u).dies = s.dies := rfl
@[simp] theorem State.setJoin_ctxs (s : State) (u : JoinUnit) : (s.setJoin u).ctxs = s.ctxs := rfl
@[simp] theorem State.setJoin_queues (s : State) (u : JoinUnit) : (s.setJoin u).queues = s.queues := rfl
@[simp] theorem State.setJoin_packets (s : State) (u : JoinUnit) : (s.setJoin u).packets = s.packets := rfl
@[simp] theorem State.setJoin_launches (s : State) (u : JoinUnit) : (s.setJoin u).launches = s.launches := rfl
@[simp] theorem State.setJoin_wgs (s : State) (u : JoinUnit) : (s.setJoin u).wgs = s.wgs := rfl
@[simp] theorem State.setJoin_saved (s : State) (u : JoinUnit) : (s.setJoin u).saved = s.saved := rfl
@[simp] theorem State.setJoin_parked (s : State) (u : JoinUnit) : (s.setJoin u).parked = s.parked := rfl
@[simp] theorem State.setJoin_landings (s : State) (u : JoinUnit) : (s.setJoin u).landings = s.landings := rfl
@[simp] theorem State.setJoin_waitTable (s : State) (u : JoinUnit) : (s.setJoin u).waitTable = s.waitTable := rfl
@[simp] theorem State.setJoin_pageReqs (s : State) (u : JoinUnit) : (s.setJoin u).pageReqs = s.pageReqs := rfl
@[simp] theorem State.setJoin_jobs (s : State) (u : JoinUnit) : (s.setJoin u).jobs = s.jobs := rfl
@[simp] theorem State.setJoin_colls (s : State) (u : JoinUnit) : (s.setJoin u).colls = s.colls := rfl
@[simp] theorem State.setJoin_progs (s : State) (u : JoinUnit) : (s.setJoin u).progs = s.progs := rfl
@[simp] theorem State.setJoin_pulls (s : State) (u : JoinUnit) : (s.setJoin u).pulls = s.pulls := rfl
@[simp] theorem State.setJoin_serves (s : State) (u : JoinUnit) : (s.setJoin u).serves = s.serves := rfl
@[simp] theorem State.setJoin_rewardTx (s : State) (u : JoinUnit) : (s.setJoin u).rewardTx = s.rewardTx := rfl
@[simp] theorem State.setJoin_ports (s : State) (u : JoinUnit) : (s.setJoin u).ports = s.ports := rfl
@[simp] theorem State.setJoin_routes (s : State) (u : JoinUnit) : (s.setJoin u).routes = s.routes := rfl
@[simp] theorem State.setJoin_podBars (s : State) (u : JoinUnit) : (s.setJoin u).podBars = s.podBars := rfl
@[simp] theorem State.setJoin_cycles (s : State) (u : JoinUnit) : (s.setJoin u).cycles = s.cycles := rfl
@[simp] theorem State.setJoin_pkgRank (s : State) (u : JoinUnit) : (s.setJoin u).pkgRank = s.pkgRank := rfl
@[simp] theorem State.setJoin_mgen (s : State) (u : JoinUnit) : (s.setJoin u).mgen = s.mgen := rfl
@[simp] theorem State.setJoin_faddr (s : State) (u : JoinUnit) : (s.setJoin u).faddr = s.faddr := rfl
@[simp] theorem State.setJoin_adopted (s : State) (u : JoinUnit) : (s.setJoin u).adopted = s.adopted := rfl
@[simp] theorem State.setJoin_staged (s : State) (u : JoinUnit) : (s.setJoin u).staged = s.staged := rfl
@[simp] theorem State.setJoin_memState (s : State) (u : JoinUnit) : (s.setJoin u).memState = s.memState := rfl
@[simp] theorem State.setJoin_failed (s : State) (u : JoinUnit) : (s.setJoin u).failed = s.failed := rfl
@[simp] theorem State.setJoin_memBlock (s : State) (u : JoinUnit) : (s.setJoin u).memBlock = s.memBlock := rfl
@[simp] theorem State.setJoin_stepdone (s : State) (u : JoinUnit) : (s.setJoin u).stepdone = s.stepdone := rfl
@[simp] theorem State.setJoin_ckpt (s : State) (u : JoinUnit) : (s.setJoin u).ckpt = s.ckpt := rfl
@[simp] theorem State.setJoin_heldWrites (s : State) (u : JoinUnit) : (s.setJoin u).heldWrites = s.heldWrites := rfl
@[simp] theorem State.setJoin_sealed (s : State) (u : JoinUnit) : (s.setJoin u).sealed = s.sealed := rfl
@[simp] theorem State.setJoin_watches (s : State) (u : JoinUnit) : (s.setJoin u).watches = s.watches := rfl
@[simp] theorem State.setJoin_heardOn (s : State) (u : JoinUnit) : (s.setJoin u).heardOn = s.heardOn := rfl
@[simp] theorem State.setJoin_hbSeq (s : State) (u : JoinUnit) : (s.setJoin u).hbSeq = s.hbSeq := rfl
@[simp] theorem State.setJoin_leader (s : State) (u : JoinUnit) : (s.setJoin u).leader = s.leader := rfl
@[simp] theorem State.setJoin_stripes (s : State) (u : JoinUnit) : (s.setJoin u).stripes = s.stripes := rfl
@[simp] theorem State.setJoin_views (s : State) (u : JoinUnit) : (s.setJoin u).views = s.views := rfl
@[simp] theorem State.setJoin_bootstat (s : State) (u : JoinUnit) : (s.setJoin u).bootstat = s.bootstat := rfl
@[simp] theorem State.setJoin_released (s : State) (u : JoinUnit) : (s.setJoin u).released = s.released := rfl
@[simp] theorem State.setJoin_powered (s : State) (u : JoinUnit) : (s.setJoin u).powered = s.powered := rfl
@[simp] theorem State.setJoin_cxlUp (s : State) (u : JoinUnit) : (s.setJoin u).cxlUp = s.cxlUp := rfl
@[simp] theorem State.setJoin_pdom (s : State) (u : JoinUnit) : (s.setJoin u).pdom = s.pdom := rfl
@[simp] theorem State.setJoin_mailbox (s : State) (u : JoinUnit) : (s.setJoin u).mailbox = s.mailbox := rfl
@[simp] theorem State.setJoin_i3c (s : State) (u : JoinUnit) : (s.setJoin u).i3c = s.i3c := rfl
@[simp] theorem State.setJoin_shutdown (s : State) (u : JoinUnit) : (s.setJoin u).shutdown = s.shutdown := rfl
@[simp] theorem State.setJoin_units (s : State) (u : JoinUnit) : (s.setJoin u).units = s.units := rfl
@[simp] theorem State.setJoin_l2sets (s : State) (u : JoinUnit) : (s.setJoin u).l2sets = s.l2sets := rfl
@[simp] theorem State.setJoin_l2 (s : State) (u : JoinUnit) : (s.setJoin u).l2 = s.l2 := rfl
@[simp] theorem State.setJoin_worked (s : State) (u : JoinUnit) : (s.setJoin u).worked = s.worked := rfl
@[simp] theorem State.setJoin_lastLeaders (s : State) (u : JoinUnit) : (s.setJoin u).lastLeaders = s.lastLeaders := rfl
@[simp] theorem State.setJoin_outbox (s : State) (u : JoinUnit) : (s.setJoin u).outbox = s.outbox := rfl
@[simp] theorem State.setJoin_upsets (s : State) (u : JoinUnit) : (s.setJoin u).upsets = s.upsets := rfl
@[simp] theorem State.setJoin_fixes (s : State) (u : JoinUnit) : (s.setJoin u).fixes = s.fixes := rfl
@[simp] theorem State.setJoin_reports (s : State) (u : JoinUnit) : (s.setJoin u).reports = s.reports := rfl
@[simp] theorem State.setJoin_agenda (s : State) (u : JoinUnit) : (s.setJoin u).agenda = s.agenda := rfl
@[simp] theorem State.setJoin_later (s : State) (u : JoinUnit) : (s.setJoin u).later = s.later := rfl
@[simp] theorem State.setJoin_cur (s : State) (u : JoinUnit) : (s.setJoin u).cur = s.cur := rfl
@[simp] theorem State.setJoin_fresh (s : State) (u : JoinUnit) : (s.setJoin u).fresh = s.fresh := rfl

/-! ### State.setUnit -/

@[simp] theorem State.setUnit_mem (s : State) (r : UnitRec) : (s.setUnit r).mem = s.mem := rfl
@[simp] theorem State.setUnit_poison (s : State) (r : UnitRec) : (s.setUnit r).poison = s.poison := rfl
@[simp] theorem State.setUnit_cohorts (s : State) (r : UnitRec) : (s.setUnit r).cohorts = s.cohorts := rfl
@[simp] theorem State.setUnit_cores (s : State) (r : UnitRec) : (s.setUnit r).cores = s.cores := rfl
@[simp] theorem State.setUnit_quads (s : State) (r : UnitRec) : (s.setUnit r).quads = s.quads := rfl
@[simp] theorem State.setUnit_dies (s : State) (r : UnitRec) : (s.setUnit r).dies = s.dies := rfl
@[simp] theorem State.setUnit_ctxs (s : State) (r : UnitRec) : (s.setUnit r).ctxs = s.ctxs := rfl
@[simp] theorem State.setUnit_queues (s : State) (r : UnitRec) : (s.setUnit r).queues = s.queues := rfl
@[simp] theorem State.setUnit_packets (s : State) (r : UnitRec) : (s.setUnit r).packets = s.packets := rfl
@[simp] theorem State.setUnit_launches (s : State) (r : UnitRec) : (s.setUnit r).launches = s.launches := rfl
@[simp] theorem State.setUnit_wgs (s : State) (r : UnitRec) : (s.setUnit r).wgs = s.wgs := rfl
@[simp] theorem State.setUnit_saved (s : State) (r : UnitRec) : (s.setUnit r).saved = s.saved := rfl
@[simp] theorem State.setUnit_parked (s : State) (r : UnitRec) : (s.setUnit r).parked = s.parked := rfl
@[simp] theorem State.setUnit_landings (s : State) (r : UnitRec) : (s.setUnit r).landings = s.landings := rfl
@[simp] theorem State.setUnit_waitTable (s : State) (r : UnitRec) : (s.setUnit r).waitTable = s.waitTable := rfl
@[simp] theorem State.setUnit_pageReqs (s : State) (r : UnitRec) : (s.setUnit r).pageReqs = s.pageReqs := rfl
@[simp] theorem State.setUnit_jobs (s : State) (r : UnitRec) : (s.setUnit r).jobs = s.jobs := rfl
@[simp] theorem State.setUnit_colls (s : State) (r : UnitRec) : (s.setUnit r).colls = s.colls := rfl
@[simp] theorem State.setUnit_progs (s : State) (r : UnitRec) : (s.setUnit r).progs = s.progs := rfl
@[simp] theorem State.setUnit_pulls (s : State) (r : UnitRec) : (s.setUnit r).pulls = s.pulls := rfl
@[simp] theorem State.setUnit_serves (s : State) (r : UnitRec) : (s.setUnit r).serves = s.serves := rfl
@[simp] theorem State.setUnit_joins (s : State) (r : UnitRec) : (s.setUnit r).joins = s.joins := rfl
@[simp] theorem State.setUnit_rewardTx (s : State) (r : UnitRec) : (s.setUnit r).rewardTx = s.rewardTx := rfl
@[simp] theorem State.setUnit_ports (s : State) (r : UnitRec) : (s.setUnit r).ports = s.ports := rfl
@[simp] theorem State.setUnit_routes (s : State) (r : UnitRec) : (s.setUnit r).routes = s.routes := rfl
@[simp] theorem State.setUnit_podBars (s : State) (r : UnitRec) : (s.setUnit r).podBars = s.podBars := rfl
@[simp] theorem State.setUnit_cycles (s : State) (r : UnitRec) : (s.setUnit r).cycles = s.cycles := rfl
@[simp] theorem State.setUnit_pkgRank (s : State) (r : UnitRec) : (s.setUnit r).pkgRank = s.pkgRank := rfl
@[simp] theorem State.setUnit_mgen (s : State) (r : UnitRec) : (s.setUnit r).mgen = s.mgen := rfl
@[simp] theorem State.setUnit_faddr (s : State) (r : UnitRec) : (s.setUnit r).faddr = s.faddr := rfl
@[simp] theorem State.setUnit_adopted (s : State) (r : UnitRec) : (s.setUnit r).adopted = s.adopted := rfl
@[simp] theorem State.setUnit_staged (s : State) (r : UnitRec) : (s.setUnit r).staged = s.staged := rfl
@[simp] theorem State.setUnit_memState (s : State) (r : UnitRec) : (s.setUnit r).memState = s.memState := rfl
@[simp] theorem State.setUnit_failed (s : State) (r : UnitRec) : (s.setUnit r).failed = s.failed := rfl
@[simp] theorem State.setUnit_memBlock (s : State) (r : UnitRec) : (s.setUnit r).memBlock = s.memBlock := rfl
@[simp] theorem State.setUnit_stepdone (s : State) (r : UnitRec) : (s.setUnit r).stepdone = s.stepdone := rfl
@[simp] theorem State.setUnit_ckpt (s : State) (r : UnitRec) : (s.setUnit r).ckpt = s.ckpt := rfl
@[simp] theorem State.setUnit_heldWrites (s : State) (r : UnitRec) : (s.setUnit r).heldWrites = s.heldWrites := rfl
@[simp] theorem State.setUnit_sealed (s : State) (r : UnitRec) : (s.setUnit r).sealed = s.sealed := rfl
@[simp] theorem State.setUnit_watches (s : State) (r : UnitRec) : (s.setUnit r).watches = s.watches := rfl
@[simp] theorem State.setUnit_heardOn (s : State) (r : UnitRec) : (s.setUnit r).heardOn = s.heardOn := rfl
@[simp] theorem State.setUnit_hbSeq (s : State) (r : UnitRec) : (s.setUnit r).hbSeq = s.hbSeq := rfl
@[simp] theorem State.setUnit_leader (s : State) (r : UnitRec) : (s.setUnit r).leader = s.leader := rfl
@[simp] theorem State.setUnit_stripes (s : State) (r : UnitRec) : (s.setUnit r).stripes = s.stripes := rfl
@[simp] theorem State.setUnit_views (s : State) (r : UnitRec) : (s.setUnit r).views = s.views := rfl
@[simp] theorem State.setUnit_bootstat (s : State) (r : UnitRec) : (s.setUnit r).bootstat = s.bootstat := rfl
@[simp] theorem State.setUnit_released (s : State) (r : UnitRec) : (s.setUnit r).released = s.released := rfl
@[simp] theorem State.setUnit_powered (s : State) (r : UnitRec) : (s.setUnit r).powered = s.powered := rfl
@[simp] theorem State.setUnit_cxlUp (s : State) (r : UnitRec) : (s.setUnit r).cxlUp = s.cxlUp := rfl
@[simp] theorem State.setUnit_pdom (s : State) (r : UnitRec) : (s.setUnit r).pdom = s.pdom := rfl
@[simp] theorem State.setUnit_mailbox (s : State) (r : UnitRec) : (s.setUnit r).mailbox = s.mailbox := rfl
@[simp] theorem State.setUnit_i3c (s : State) (r : UnitRec) : (s.setUnit r).i3c = s.i3c := rfl
@[simp] theorem State.setUnit_shutdown (s : State) (r : UnitRec) : (s.setUnit r).shutdown = s.shutdown := rfl
@[simp] theorem State.setUnit_l2sets (s : State) (r : UnitRec) : (s.setUnit r).l2sets = s.l2sets := rfl
@[simp] theorem State.setUnit_l2 (s : State) (r : UnitRec) : (s.setUnit r).l2 = s.l2 := rfl
@[simp] theorem State.setUnit_worked (s : State) (r : UnitRec) : (s.setUnit r).worked = s.worked := rfl
@[simp] theorem State.setUnit_lastLeaders (s : State) (r : UnitRec) : (s.setUnit r).lastLeaders = s.lastLeaders := rfl
@[simp] theorem State.setUnit_outbox (s : State) (r : UnitRec) : (s.setUnit r).outbox = s.outbox := rfl
@[simp] theorem State.setUnit_upsets (s : State) (r : UnitRec) : (s.setUnit r).upsets = s.upsets := rfl
@[simp] theorem State.setUnit_fixes (s : State) (r : UnitRec) : (s.setUnit r).fixes = s.fixes := rfl
@[simp] theorem State.setUnit_reports (s : State) (r : UnitRec) : (s.setUnit r).reports = s.reports := rfl
@[simp] theorem State.setUnit_agenda (s : State) (r : UnitRec) : (s.setUnit r).agenda = s.agenda := rfl
@[simp] theorem State.setUnit_later (s : State) (r : UnitRec) : (s.setUnit r).later = s.later := rfl
@[simp] theorem State.setUnit_cur (s : State) (r : UnitRec) : (s.setUnit r).cur = s.cur := rfl
@[simp] theorem State.setUnit_fresh (s : State) (r : UnitRec) : (s.setUnit r).fresh = s.fresh := rfl

/-! ### State.setPort -/

@[simp] theorem State.setPort_mem (s : State) (p : Port) : (s.setPort p).mem = s.mem := rfl
@[simp] theorem State.setPort_poison (s : State) (p : Port) : (s.setPort p).poison = s.poison := rfl
@[simp] theorem State.setPort_cohorts (s : State) (p : Port) : (s.setPort p).cohorts = s.cohorts := rfl
@[simp] theorem State.setPort_cores (s : State) (p : Port) : (s.setPort p).cores = s.cores := rfl
@[simp] theorem State.setPort_quads (s : State) (p : Port) : (s.setPort p).quads = s.quads := rfl
@[simp] theorem State.setPort_dies (s : State) (p : Port) : (s.setPort p).dies = s.dies := rfl
@[simp] theorem State.setPort_ctxs (s : State) (p : Port) : (s.setPort p).ctxs = s.ctxs := rfl
@[simp] theorem State.setPort_queues (s : State) (p : Port) : (s.setPort p).queues = s.queues := rfl
@[simp] theorem State.setPort_packets (s : State) (p : Port) : (s.setPort p).packets = s.packets := rfl
@[simp] theorem State.setPort_launches (s : State) (p : Port) : (s.setPort p).launches = s.launches := rfl
@[simp] theorem State.setPort_wgs (s : State) (p : Port) : (s.setPort p).wgs = s.wgs := rfl
@[simp] theorem State.setPort_saved (s : State) (p : Port) : (s.setPort p).saved = s.saved := rfl
@[simp] theorem State.setPort_parked (s : State) (p : Port) : (s.setPort p).parked = s.parked := rfl
@[simp] theorem State.setPort_landings (s : State) (p : Port) : (s.setPort p).landings = s.landings := rfl
@[simp] theorem State.setPort_waitTable (s : State) (p : Port) : (s.setPort p).waitTable = s.waitTable := rfl
@[simp] theorem State.setPort_pageReqs (s : State) (p : Port) : (s.setPort p).pageReqs = s.pageReqs := rfl
@[simp] theorem State.setPort_jobs (s : State) (p : Port) : (s.setPort p).jobs = s.jobs := rfl
@[simp] theorem State.setPort_colls (s : State) (p : Port) : (s.setPort p).colls = s.colls := rfl
@[simp] theorem State.setPort_progs (s : State) (p : Port) : (s.setPort p).progs = s.progs := rfl
@[simp] theorem State.setPort_pulls (s : State) (p : Port) : (s.setPort p).pulls = s.pulls := rfl
@[simp] theorem State.setPort_serves (s : State) (p : Port) : (s.setPort p).serves = s.serves := rfl
@[simp] theorem State.setPort_joins (s : State) (p : Port) : (s.setPort p).joins = s.joins := rfl
@[simp] theorem State.setPort_rewardTx (s : State) (p : Port) : (s.setPort p).rewardTx = s.rewardTx := rfl
@[simp] theorem State.setPort_routes (s : State) (p : Port) : (s.setPort p).routes = s.routes := rfl
@[simp] theorem State.setPort_podBars (s : State) (p : Port) : (s.setPort p).podBars = s.podBars := rfl
@[simp] theorem State.setPort_cycles (s : State) (p : Port) : (s.setPort p).cycles = s.cycles := rfl
@[simp] theorem State.setPort_pkgRank (s : State) (p : Port) : (s.setPort p).pkgRank = s.pkgRank := rfl
@[simp] theorem State.setPort_mgen (s : State) (p : Port) : (s.setPort p).mgen = s.mgen := rfl
@[simp] theorem State.setPort_faddr (s : State) (p : Port) : (s.setPort p).faddr = s.faddr := rfl
@[simp] theorem State.setPort_adopted (s : State) (p : Port) : (s.setPort p).adopted = s.adopted := rfl
@[simp] theorem State.setPort_staged (s : State) (p : Port) : (s.setPort p).staged = s.staged := rfl
@[simp] theorem State.setPort_memState (s : State) (p : Port) : (s.setPort p).memState = s.memState := rfl
@[simp] theorem State.setPort_failed (s : State) (p : Port) : (s.setPort p).failed = s.failed := rfl
@[simp] theorem State.setPort_memBlock (s : State) (p : Port) : (s.setPort p).memBlock = s.memBlock := rfl
@[simp] theorem State.setPort_stepdone (s : State) (p : Port) : (s.setPort p).stepdone = s.stepdone := rfl
@[simp] theorem State.setPort_ckpt (s : State) (p : Port) : (s.setPort p).ckpt = s.ckpt := rfl
@[simp] theorem State.setPort_heldWrites (s : State) (p : Port) : (s.setPort p).heldWrites = s.heldWrites := rfl
@[simp] theorem State.setPort_sealed (s : State) (p : Port) : (s.setPort p).sealed = s.sealed := rfl
@[simp] theorem State.setPort_watches (s : State) (p : Port) : (s.setPort p).watches = s.watches := rfl
@[simp] theorem State.setPort_heardOn (s : State) (p : Port) : (s.setPort p).heardOn = s.heardOn := rfl
@[simp] theorem State.setPort_hbSeq (s : State) (p : Port) : (s.setPort p).hbSeq = s.hbSeq := rfl
@[simp] theorem State.setPort_leader (s : State) (p : Port) : (s.setPort p).leader = s.leader := rfl
@[simp] theorem State.setPort_stripes (s : State) (p : Port) : (s.setPort p).stripes = s.stripes := rfl
@[simp] theorem State.setPort_views (s : State) (p : Port) : (s.setPort p).views = s.views := rfl
@[simp] theorem State.setPort_bootstat (s : State) (p : Port) : (s.setPort p).bootstat = s.bootstat := rfl
@[simp] theorem State.setPort_released (s : State) (p : Port) : (s.setPort p).released = s.released := rfl
@[simp] theorem State.setPort_powered (s : State) (p : Port) : (s.setPort p).powered = s.powered := rfl
@[simp] theorem State.setPort_cxlUp (s : State) (p : Port) : (s.setPort p).cxlUp = s.cxlUp := rfl
@[simp] theorem State.setPort_pdom (s : State) (p : Port) : (s.setPort p).pdom = s.pdom := rfl
@[simp] theorem State.setPort_mailbox (s : State) (p : Port) : (s.setPort p).mailbox = s.mailbox := rfl
@[simp] theorem State.setPort_i3c (s : State) (p : Port) : (s.setPort p).i3c = s.i3c := rfl
@[simp] theorem State.setPort_shutdown (s : State) (p : Port) : (s.setPort p).shutdown = s.shutdown := rfl
@[simp] theorem State.setPort_units (s : State) (p : Port) : (s.setPort p).units = s.units := rfl
@[simp] theorem State.setPort_l2sets (s : State) (p : Port) : (s.setPort p).l2sets = s.l2sets := rfl
@[simp] theorem State.setPort_l2 (s : State) (p : Port) : (s.setPort p).l2 = s.l2 := rfl
@[simp] theorem State.setPort_worked (s : State) (p : Port) : (s.setPort p).worked = s.worked := rfl
@[simp] theorem State.setPort_lastLeaders (s : State) (p : Port) : (s.setPort p).lastLeaders = s.lastLeaders := rfl
@[simp] theorem State.setPort_outbox (s : State) (p : Port) : (s.setPort p).outbox = s.outbox := rfl
@[simp] theorem State.setPort_upsets (s : State) (p : Port) : (s.setPort p).upsets = s.upsets := rfl
@[simp] theorem State.setPort_fixes (s : State) (p : Port) : (s.setPort p).fixes = s.fixes := rfl
@[simp] theorem State.setPort_reports (s : State) (p : Port) : (s.setPort p).reports = s.reports := rfl
@[simp] theorem State.setPort_agenda (s : State) (p : Port) : (s.setPort p).agenda = s.agenda := rfl
@[simp] theorem State.setPort_later (s : State) (p : Port) : (s.setPort p).later = s.later := rfl
@[simp] theorem State.setPort_cur (s : State) (p : Port) : (s.setPort p).cur = s.cur := rfl
@[simp] theorem State.setPort_fresh (s : State) (p : Port) : (s.setPort p).fresh = s.fresh := rfl

/-! ### State.writeMem -/

@[simp] theorem State.writeMem_cohorts (s : State) (a : Nat) (bs : List Byte) : (s.writeMem a bs).cohorts = s.cohorts := rfl
@[simp] theorem State.writeMem_cores (s : State) (a : Nat) (bs : List Byte) : (s.writeMem a bs).cores = s.cores := rfl
@[simp] theorem State.writeMem_quads (s : State) (a : Nat) (bs : List Byte) : (s.writeMem a bs).quads = s.quads := rfl
@[simp] theorem State.writeMem_dies (s : State) (a : Nat) (bs : List Byte) : (s.writeMem a bs).dies = s.dies := rfl
@[simp] theorem State.writeMem_ctxs (s : State) (a : Nat) (bs : List Byte) : (s.writeMem a bs).ctxs = s.ctxs := rfl
@[simp] theorem State.writeMem_queues (s : State) (a : Nat) (bs : List Byte) : (s.writeMem a bs).queues = s.queues := rfl
@[simp] theorem State.writeMem_packets (s : State) (a : Nat) (bs : List Byte) : (s.writeMem a bs).packets = s.packets := rfl
@[simp] theorem State.writeMem_launches (s : State) (a : Nat) (bs : List Byte) : (s.writeMem a bs).launches = s.launches := rfl
@[simp] theorem State.writeMem_wgs (s : State) (a : Nat) (bs : List Byte) : (s.writeMem a bs).wgs = s.wgs := rfl
@[simp] theorem State.writeMem_saved (s : State) (a : Nat) (bs : List Byte) : (s.writeMem a bs).saved = s.saved := rfl
@[simp] theorem State.writeMem_parked (s : State) (a : Nat) (bs : List Byte) : (s.writeMem a bs).parked = s.parked := rfl
@[simp] theorem State.writeMem_landings (s : State) (a : Nat) (bs : List Byte) : (s.writeMem a bs).landings = s.landings := rfl
@[simp] theorem State.writeMem_waitTable (s : State) (a : Nat) (bs : List Byte) : (s.writeMem a bs).waitTable = s.waitTable := rfl
@[simp] theorem State.writeMem_pageReqs (s : State) (a : Nat) (bs : List Byte) : (s.writeMem a bs).pageReqs = s.pageReqs := rfl
@[simp] theorem State.writeMem_jobs (s : State) (a : Nat) (bs : List Byte) : (s.writeMem a bs).jobs = s.jobs := rfl
@[simp] theorem State.writeMem_colls (s : State) (a : Nat) (bs : List Byte) : (s.writeMem a bs).colls = s.colls := rfl
@[simp] theorem State.writeMem_progs (s : State) (a : Nat) (bs : List Byte) : (s.writeMem a bs).progs = s.progs := rfl
@[simp] theorem State.writeMem_pulls (s : State) (a : Nat) (bs : List Byte) : (s.writeMem a bs).pulls = s.pulls := rfl
@[simp] theorem State.writeMem_serves (s : State) (a : Nat) (bs : List Byte) : (s.writeMem a bs).serves = s.serves := rfl
@[simp] theorem State.writeMem_joins (s : State) (a : Nat) (bs : List Byte) : (s.writeMem a bs).joins = s.joins := rfl
@[simp] theorem State.writeMem_rewardTx (s : State) (a : Nat) (bs : List Byte) : (s.writeMem a bs).rewardTx = s.rewardTx := rfl
@[simp] theorem State.writeMem_ports (s : State) (a : Nat) (bs : List Byte) : (s.writeMem a bs).ports = s.ports := rfl
@[simp] theorem State.writeMem_routes (s : State) (a : Nat) (bs : List Byte) : (s.writeMem a bs).routes = s.routes := rfl
@[simp] theorem State.writeMem_podBars (s : State) (a : Nat) (bs : List Byte) : (s.writeMem a bs).podBars = s.podBars := rfl
@[simp] theorem State.writeMem_cycles (s : State) (a : Nat) (bs : List Byte) : (s.writeMem a bs).cycles = s.cycles := rfl
@[simp] theorem State.writeMem_pkgRank (s : State) (a : Nat) (bs : List Byte) : (s.writeMem a bs).pkgRank = s.pkgRank := rfl
@[simp] theorem State.writeMem_mgen (s : State) (a : Nat) (bs : List Byte) : (s.writeMem a bs).mgen = s.mgen := rfl
@[simp] theorem State.writeMem_faddr (s : State) (a : Nat) (bs : List Byte) : (s.writeMem a bs).faddr = s.faddr := rfl
@[simp] theorem State.writeMem_adopted (s : State) (a : Nat) (bs : List Byte) : (s.writeMem a bs).adopted = s.adopted := rfl
@[simp] theorem State.writeMem_staged (s : State) (a : Nat) (bs : List Byte) : (s.writeMem a bs).staged = s.staged := rfl
@[simp] theorem State.writeMem_memState (s : State) (a : Nat) (bs : List Byte) : (s.writeMem a bs).memState = s.memState := rfl
@[simp] theorem State.writeMem_failed (s : State) (a : Nat) (bs : List Byte) : (s.writeMem a bs).failed = s.failed := rfl
@[simp] theorem State.writeMem_memBlock (s : State) (a : Nat) (bs : List Byte) : (s.writeMem a bs).memBlock = s.memBlock := rfl
@[simp] theorem State.writeMem_stepdone (s : State) (a : Nat) (bs : List Byte) : (s.writeMem a bs).stepdone = s.stepdone := rfl
@[simp] theorem State.writeMem_ckpt (s : State) (a : Nat) (bs : List Byte) : (s.writeMem a bs).ckpt = s.ckpt := rfl
@[simp] theorem State.writeMem_heldWrites (s : State) (a : Nat) (bs : List Byte) : (s.writeMem a bs).heldWrites = s.heldWrites := rfl
@[simp] theorem State.writeMem_sealed (s : State) (a : Nat) (bs : List Byte) : (s.writeMem a bs).sealed = s.sealed := rfl
@[simp] theorem State.writeMem_watches (s : State) (a : Nat) (bs : List Byte) : (s.writeMem a bs).watches = s.watches := rfl
@[simp] theorem State.writeMem_heardOn (s : State) (a : Nat) (bs : List Byte) : (s.writeMem a bs).heardOn = s.heardOn := rfl
@[simp] theorem State.writeMem_hbSeq (s : State) (a : Nat) (bs : List Byte) : (s.writeMem a bs).hbSeq = s.hbSeq := rfl
@[simp] theorem State.writeMem_leader (s : State) (a : Nat) (bs : List Byte) : (s.writeMem a bs).leader = s.leader := rfl
@[simp] theorem State.writeMem_stripes (s : State) (a : Nat) (bs : List Byte) : (s.writeMem a bs).stripes = s.stripes := rfl
@[simp] theorem State.writeMem_views (s : State) (a : Nat) (bs : List Byte) : (s.writeMem a bs).views = s.views := rfl
@[simp] theorem State.writeMem_bootstat (s : State) (a : Nat) (bs : List Byte) : (s.writeMem a bs).bootstat = s.bootstat := rfl
@[simp] theorem State.writeMem_released (s : State) (a : Nat) (bs : List Byte) : (s.writeMem a bs).released = s.released := rfl
@[simp] theorem State.writeMem_powered (s : State) (a : Nat) (bs : List Byte) : (s.writeMem a bs).powered = s.powered := rfl
@[simp] theorem State.writeMem_cxlUp (s : State) (a : Nat) (bs : List Byte) : (s.writeMem a bs).cxlUp = s.cxlUp := rfl
@[simp] theorem State.writeMem_pdom (s : State) (a : Nat) (bs : List Byte) : (s.writeMem a bs).pdom = s.pdom := rfl
@[simp] theorem State.writeMem_mailbox (s : State) (a : Nat) (bs : List Byte) : (s.writeMem a bs).mailbox = s.mailbox := rfl
@[simp] theorem State.writeMem_i3c (s : State) (a : Nat) (bs : List Byte) : (s.writeMem a bs).i3c = s.i3c := rfl
@[simp] theorem State.writeMem_shutdown (s : State) (a : Nat) (bs : List Byte) : (s.writeMem a bs).shutdown = s.shutdown := rfl
@[simp] theorem State.writeMem_units (s : State) (a : Nat) (bs : List Byte) : (s.writeMem a bs).units = s.units := rfl
@[simp] theorem State.writeMem_l2sets (s : State) (a : Nat) (bs : List Byte) : (s.writeMem a bs).l2sets = s.l2sets := rfl
@[simp] theorem State.writeMem_l2 (s : State) (a : Nat) (bs : List Byte) : (s.writeMem a bs).l2 = s.l2 := rfl
@[simp] theorem State.writeMem_worked (s : State) (a : Nat) (bs : List Byte) : (s.writeMem a bs).worked = s.worked := rfl
@[simp] theorem State.writeMem_lastLeaders (s : State) (a : Nat) (bs : List Byte) : (s.writeMem a bs).lastLeaders = s.lastLeaders := rfl
@[simp] theorem State.writeMem_outbox (s : State) (a : Nat) (bs : List Byte) : (s.writeMem a bs).outbox = s.outbox := rfl
@[simp] theorem State.writeMem_upsets (s : State) (a : Nat) (bs : List Byte) : (s.writeMem a bs).upsets = s.upsets := rfl
@[simp] theorem State.writeMem_fixes (s : State) (a : Nat) (bs : List Byte) : (s.writeMem a bs).fixes = s.fixes := rfl
@[simp] theorem State.writeMem_reports (s : State) (a : Nat) (bs : List Byte) : (s.writeMem a bs).reports = s.reports := rfl
@[simp] theorem State.writeMem_agenda (s : State) (a : Nat) (bs : List Byte) : (s.writeMem a bs).agenda = s.agenda := rfl
@[simp] theorem State.writeMem_later (s : State) (a : Nat) (bs : List Byte) : (s.writeMem a bs).later = s.later := rfl
@[simp] theorem State.writeMem_cur (s : State) (a : Nat) (bs : List Byte) : (s.writeMem a bs).cur = s.cur := rfl
@[simp] theorem State.writeMem_fresh (s : State) (a : Nat) (bs : List Byte) : (s.writeMem a bs).fresh = s.fresh := rfl
@[simp] theorem State.writeMem_mem (s : State) (a : Nat) (bs : List Byte) : (s.writeMem a bs).mem = memWrite s.mem a bs := rfl

/-! ### Reading a part after replacing it -/

theorem find_upsertBy_same {α : Type} (key : α → Nat) (x : α) (xs : List α) (p : α → Bool) (hx : p x = true)
    (hp : ∀ y, p y = true → key y = key x) : (upsertBy key x xs).find? p = some x := by
  induction xs with
  | nil => simp [upsertBy, hx]
  | cons y ys ih =>
    simp only [upsertBy]
    split
    · simp [hx]
    · split
      · simp [hx]
      · rename_i h _
        have : p y = false := by
          cases hy : p y with
          | false => rfl
          | true => exact absurd (hp y hy) h
        simp [List.find?, this, ih]

theorem find_upsertBy_other {α : Type} (key : α → Nat) (x : α) (xs : List α) (p : α → Bool)
    (hp : ∀ y, p y = true → key y ≠ key x) : (upsertBy key x xs).find? p = xs.find? p := by
  have hx : p x = false := by
    cases h : p x with
    | false => rfl
    | true => exact absurd rfl (hp x h)
  induction xs with
  | nil => simp [upsertBy, hx]
  | cons y ys ih =>
    simp only [upsertBy]
    split
    · rename_i h
      have : p y = false := by
        cases hy : p y with
        | false => rfl
        | true => exact absurd h (hp y hy)
      simp [List.find?, hx, this]
    · split
      · simp [List.find?, hx]
      · simp only [List.find?, ih]

@[simp] theorem State.core_core (s : State) (k : Nat) : (s.core k).core = k := by
  unfold State.core
  cases h : s.cores.find? (·.core == k) with
  | none => rfl
  | some c => simpa using List.find?_some h

@[simp] theorem State.core_setCore (s : State) (c : CoreState) : (s.setCore c).core c.core = c := by
  simp [State.core, State.setCore, find_upsertBy_same CoreState.core c s.cores (fun x => x.core == c.core) (by simp) (by simp)]

theorem State.core_setCore_other (s : State) (c : CoreState) (k : Nat) (h : k ≠ c.core) : (s.setCore c).core k = s.core k := by
  simp only [State.core, State.setCore]
  rw [find_upsertBy_other]
  intro y hy; simp at hy; omega

@[simp] theorem State.die_die (s : State) (k : Nat) : (s.die k).die = k := by
  unfold State.die
  cases h : s.dies.find? (·.die == k) with
  | none => rfl
  | some c => simpa using List.find?_some h

@[simp] theorem State.die_setDie (s : State) (d : DieState) : (s.setDie d).die d.die = d := by
  simp [State.die, State.setDie, find_upsertBy_same DieState.die d s.dies (fun x => x.die == d.die) (by simp) (by simp)]

theorem State.die_setDie_other (s : State) (d : DieState) (k : Nat) (h : k ≠ d.die) : (s.setDie d).die k = s.die k := by
  simp only [State.die, State.setDie]
  rw [find_upsertBy_other]
  intro y hy; simp at hy; omega

@[simp] theorem State.join_die (s : State) (k : Nat) : (s.join k).die = k := by
  unfold State.join
  cases h : s.joins.find? (·.die == k) with
  | none => rfl
  | some c => simpa using List.find?_some h

@[simp] theorem State.join_setJoin (s : State) (u : JoinUnit) : (s.setJoin u).join u.die = u := by
  simp [State.join, State.setJoin, find_upsertBy_same JoinUnit.die u s.joins (fun x => x.die == u.die) (by simp) (by simp)]

theorem State.join_setJoin_other (s : State) (u : JoinUnit) (k : Nat) (h : k ≠ u.die) : (s.setJoin u).join k = s.join k := by
  simp only [State.join, State.setJoin]
  rw [find_upsertBy_other]
  intro y hy; simp at hy; omega

@[simp] theorem State.port_num (s : State) (k : Nat) : (s.port k).num = k := by
  unfold State.port
  cases h : s.ports.find? (·.num == k) with
  | none => rfl
  | some c => simpa using List.find?_some h

@[simp] theorem State.port_setPort (s : State) (p : Port) : (s.setPort p).port p.num = p := by
  simp [State.port, State.setPort, find_upsertBy_same Port.num p s.ports (fun x => x.num == p.num) (by simp) (by simp)]

theorem State.port_setPort_other (s : State) (p : Port) (k : Nat) (h : k ≠ p.num) : (s.setPort p).port k = s.port k := by
  simp only [State.port, State.setPort]
  rw [find_upsertBy_other]
  intro y hy; simp at hy; omega

@[simp] theorem State.unitRec_setUnit (s : State) (r : UnitRec) : (s.setUnit r).unitRec r.unit = r := by
  simp only [State.unitRec, State.setUnit]
  rw [find_upsertBy_same (fun (x : UnitRec) => x.unit.toNat) r s.units _ (by simp)]
  · rfl
  · intro y hy; simp at hy; simp [hy]

theorem State.unitRec_setUnit_other (s : State) (r : UnitRec) (u : BitVec 16) (h : u ≠ r.unit) : (s.setUnit r).unitRec u = s.unitRec u := by
  simp only [State.unitRec, State.setUnit]
  rw [find_upsertBy_other]
  intro y hy hk
  simp at hy
  exact h (by rw [← hy]; exact BitVec.eq_of_toNat_eq hk)

/-- A list in which the elements with the key of `x` are replaced by it: what is found under that key, and under another. -/
theorem find_replace_same {α κ : Type} [DecidableEq κ] (key : α → κ) (x : α) (xs : List α) (h : (xs.find? fun y => key y == key x).isSome) :
    (xs.map fun y => if key y = key x then x else y).find? (fun y => key y == key x) = some x := by
  induction xs with
  | nil => simp at h
  | cons y ys ih =>
    by_cases hy : key y = key x
    · simp [hy]
    · simp only [List.map_cons, hy, if_false, List.find?]
      have : (key y == key x) = false := by simpa using hy
      rw [this]
      apply ih
      simpa [List.find?, this] using h

theorem find_replace_other {α κ : Type} [DecidableEq κ] (key : α → κ) (x : α) (xs : List α) (k : κ) (h : k ≠ key x) :
    (xs.map fun y => if key y = key x then x else y).find? (fun y => key y == k) = xs.find? fun y => key y == k := by
  induction xs with
  | nil => rfl
  | cons y ys ih =>
    by_cases hy : key y = key x
    · have h1 : (key x == k) = false := by simpa using fun e => h e.symm
      simp only [List.map_cons, hy, if_true, List.find?, h1]
      exact ih
    · simp only [List.map_cons, hy, if_false, List.find?]
      rw [ih]

theorem State.cohort_setCohort (s : State) (x : Cohort) (h : (s.cohort? x.cid).isSome) : (s.setCohort x).cohort? x.cid = some x :=
  find_replace_same Cohort.cid x s.cohorts h

theorem State.cohort_setCohort_other (s : State) (x : Cohort) (k : Nat) (h : k ≠ x.cid) : (s.setCohort x).cohort? k = s.cohort? k :=
  find_replace_other Cohort.cid x s.cohorts k h

theorem State.cohort_cid (s : State) (k : Nat) (x : Cohort) (h : s.cohort? k = some x) : x.cid = k := by
  have := List.find?_some h
  simpa using this

theorem State.ctx_setCtx (s : State) (x : Ctx) (h : (s.ctx? x.ctxid).isSome) : (s.setCtx x).ctx? x.ctxid = some x :=
  find_replace_same Ctx.ctxid x s.ctxs h

theorem State.ctx_setCtx_other (s : State) (x : Ctx) (k : BitVec 16) (h : k ≠ x.ctxid) : (s.setCtx x).ctx? k = s.ctx? k :=
  find_replace_other Ctx.ctxid x s.ctxs k h

theorem State.ctx_ctxid (s : State) (k : BitVec 16) (x : Ctx) (h : s.ctx? k = some x) : x.ctxid = k := by
  have := List.find?_some h
  simpa using this

theorem State.job_setJob (s : State) (x : Job) (h : (s.job? x.id).isSome) : (s.setJob x).job? x.id = some x :=
  find_replace_same Job.id x s.jobs h

theorem State.job_setJob_other (s : State) (x : Job) (k : Nat) (h : k ≠ x.id) : (s.setJob x).job? k = s.job? k :=
  find_replace_other Job.id x s.jobs k h

theorem State.job_id (s : State) (k : Nat) (x : Job) (h : s.job? k = some x) : x.id = k := by
  have := List.find?_some h
  simpa using this

theorem State.launch_setLaunch (s : State) (x : Launch) (h : (s.launch? x.id).isSome) : (s.setLaunch x).launch? x.id = some x :=
  find_replace_same Launch.id x s.launches h

theorem State.launch_setLaunch_other (s : State) (x : Launch) (k : Nat) (h : k ≠ x.id) : (s.setLaunch x).launch? k = s.launch? k :=
  find_replace_other Launch.id x s.launches k h

theorem State.launch_id (s : State) (k : Nat) (x : Launch) (h : s.launch? k = some x) : x.id = k := by
  have := List.find?_some h
  simpa using this

theorem State.wg_setWg (s : State) (x : Wg) (h : (s.wg? x.id).isSome) : (s.setWg x).wg? x.id = some x :=
  find_replace_same Wg.id x s.wgs h

theorem State.wg_setWg_other (s : State) (x : Wg) (k : Nat) (h : k ≠ x.id) : (s.setWg x).wg? k = s.wg? k :=
  find_replace_other Wg.id x s.wgs k h

theorem State.wg_id (s : State) (k : Nat) (x : Wg) (h : s.wg? k = some x) : x.id = k := by
  have := List.find?_some h
  simpa using this

theorem State.queue_setQueue (s : State) (x : Queue) (h : (s.queue? x.num).isSome) : (s.setQueue x).queue? x.num = some x :=
  find_replace_same Queue.num x s.queues h

theorem State.queue_setQueue_other (s : State) (x : Queue) (k : Nat) (h : k ≠ x.num) : (s.setQueue x).queue? k = s.queue? k :=
  find_replace_other Queue.num x s.queues k h

theorem State.queue_num (s : State) (k : Nat) (x : Queue) (h : s.queue? k = some x) : x.num = k := by
  have := List.find?_some h
  simpa using this

end Sys2Proof.Machine
end

