-- ==== Sys2Proof/Laws/Memory.lean ====
section
/-!
SUPPORT. Laws/Memory.lean: reading after writing, what a write leaves alone, and that every write keeps memory's canonical form.
-/

namespace Sys2Proof.Machine

/-! ### One byte -/

theorem memByte_filter (m : List Host.Cell) (a b : Nat) : memByte (m.filter fun c => c.1 != a) b = if b = a then 0 else memByte m b := by
  induction m with
  | nil => simp [memByte]
  | cons c m ih =>
    obtain ⟨k, x⟩ := c
    by_cases h : k = a
    · subst h
      simp only [List.filter, bne_self_eq_false, ih, memByte]
      split <;> rfl
    · have : (k != a) = true := by simpa using h
      simp only [List.filter, this, memByte, ih]
      by_cases hb : b = k
      · subst hb; simp [h]
      · simp [hb]

theorem memByte_memPlace (m : List Host.Cell) (a b : Nat) (v : Byte) : memByte (memPlace m a v) b = if b = a then v else memByte m b := by
  induction m with
  | nil => simp [memPlace, memByte]
  | cons c m ih =>
    obtain ⟨k, x⟩ := c
    simp only [memPlace]
    by_cases h1 : a < k
    · simp [h1, memByte]
    · by_cases h2 : a = k
      · subst h2
        simp only [h1, if_false, if_true, memByte]
        split <;> rfl
      · simp only [h1, h2, if_false, memByte, ih]
        by_cases hb : b = k
        · subst hb
          have : ¬ b = a := fun e => h2 e.symm
          simp [this]
        · simp [hb]

/-- A byte that is written reads as written; any other reads as before. -/
theorem memByte_memSet (m : List Host.Cell) (a b : Nat) (v : Byte) : memByte (memSet m a v) b = if b = a then v else memByte m b := by
  unfold memSet
  split
  · rename_i h; subst h; exact memByte_filter m a b
  · exact memByte_memPlace m a b v

/-! ### Several bytes -/

/-- What a run of bytes written from a key leaves to read. -/
theorem memByte_memWrite (bs : List Byte) : ∀ (m : List Host.Cell) (a b : Nat),
    memByte (memWrite m a bs) b = if a ≤ b ∧ b < a + bs.length then bs.getD (b - a) 0 else memByte m b := by
  induction bs with
  | nil => intro m a b; simp only [memWrite, List.length_nil]; rw [if_neg (by omega)]
  | cons x xs ih =>
    intro m a b
    simp only [memWrite, ih, memByte_memSet, List.length_cons]
    by_cases h : b = a
    · subst h
      rw [if_neg (by omega), if_pos rfl, if_pos (by omega)]
      simp
    · by_cases h2 : a + 1 ≤ b ∧ b < a + 1 + xs.length
      · rw [if_pos h2, if_pos (by omega)]
        obtain ⟨n, rfl⟩ : ∃ n, b = a + 1 + n := ⟨b - (a + 1), by omega⟩
        have e1 : a + 1 + n - (a + 1) = n := by omega
        have e2 : a + 1 + n - a = n + 1 := by omega
        simp [e1, e2]
      · rw [if_neg h2, if_neg h, if_neg (by omega)]

theorem memByte_memWrite_other (m : List Host.Cell) (a b : Nat) (bs : List Byte) (h : b < a ∨ a + bs.length ≤ b) :
    memByte (memWrite m a bs) b = memByte m b := by
  rw [memByte_memWrite, if_neg (by omega)]

theorem memByte_memWrite_at (m : List Host.Cell) (a i : Nat) (bs : List Byte) (h : i < bs.length) :
    memByte (memWrite m a bs) (a + i) = bs.getD i 0 := by
  rw [memByte_memWrite, if_pos (by omega)]
  congr 1; omega

theorem memBytes_congr (m m' : List Host.Cell) (a n : Nat) (h : ∀ i, i < n → memByte m' (a + i) = memByte m (a + i)) :
    memBytes m' a n = memBytes m a n := by
  apply List.map_congr_left
  intro i hi
  exact h i (by simpa using hi)

theorem memBytes_memWrite_same (m : List Host.Cell) (a : Nat) (bs : List Byte) : memBytes (memWrite m a bs) a bs.length = bs := by
  apply List.ext_getElem
  · simp [memBytes]
  · intro i h1 h2
    simp only [memBytes, List.getElem_map, List.getElem_range]
    rw [memByte_memWrite_at m a i bs h2]
    simp [List.getD, h2]

theorem memBytes_memWrite_other (m : List Host.Cell) (a b n : Nat) (bs : List Byte) (h : b + n ≤ a ∨ a + bs.length ≤ b) :
    memBytes (memWrite m a bs) b n = memBytes m b n :=
  memBytes_congr _ _ _ _ fun i hi => memByte_memWrite_other _ _ _ _ (by omega)

/-! ### Numbers -/

@[simp] theorem length_natBytes (n v : Nat) : (natBytes n v).length = n := by
  induction n generalizing v with
  | zero => rfl
  | succ n ih => simp [natBytes, ih]

theorem leNat_natBytes (n v : Nat) : leNat (natBytes n v) = v % 256 ^ n := by
  induction n generalizing v with
  | zero => simp [natBytes, leNat, Nat.mod_one]
  | succ n ih =>
    simp only [natBytes, leNat, ih, BitVec.toNat_ofNat]
    rw [show 256 ^ (n + 1) = 256 * 256 ^ n from Nat.pow_succ', Nat.mod_mul (x := v) (a := 256) (b := 256 ^ n)]

theorem leNat_lt (bs : List Byte) : leNat bs < 256 ^ bs.length := by
  induction bs with
  | nil => simp [leNat]
  | cons b bs ih =>
    simp only [leNat, List.length_cons, Nat.pow_succ]
    have := b.isLt
    omega

/-- An `n`-byte number reads back as it was written, modulo 2^(8n). -/
theorem memNat_memPut_same (m : List Host.Cell) (a n v : Nat) : memNat (memPut m a n v) a n = v % 256 ^ n := by
  have h := memBytes_memWrite_same m a (natBytes n v)
  rw [length_natBytes] at h
  simp only [memNat, memPut, h, leNat_natBytes]

theorem memNat_memPut_other (m : List Host.Cell) (a n v b k : Nat) (h : b + k ≤ a ∨ a + n ≤ b) :
    memNat (memPut m a n v) b k = memNat m b k := by
  simp only [memNat, memPut]
  rw [memBytes_memWrite_other]
  simpa using h

/-! ### The canonical form -/

theorem Memory.wf_tail (c : Host.Cell) (m : List Host.Cell) (h : Memory.wf (c :: m) = true) : Memory.wf m = true := by
  cases m with
  | nil => rfl
  | cons d m => simp [Memory.wf] at h; exact h.2

/-- The canonical form, as rising keys and no zero byte. -/
theorem Memory.wf_iff (m : List Host.Cell) : Memory.wf m = true ↔ m.Pairwise (fun c d => c.1 < d.1) ∧ ∀ c ∈ m, c.2 ≠ 0 := by
  induction m with
  | nil => simp [Memory.wf]
  | cons c m ih =>
    cases m with
    | nil => simp [Memory.wf]
    | cons d m =>
      simp only [Memory.wf, Bool.and_eq_true, decide_eq_true_eq, bne_iff_ne, ne_eq, ih]
      constructor
      · rintro ⟨⟨h1, h2⟩, h3, h4⟩
        refine ⟨List.pairwise_cons.2 ⟨?_, h3⟩, ?_⟩
        · intro e he
          cases he with
          | head => exact h1
          | tail _ he => exact Nat.lt_trans h1 ((List.pairwise_cons.1 h3).1 e he)
        · intro e he
          cases he with
          | head => exact h2
          | tail _ he => exact h4 e he
      · rintro ⟨h1, h2⟩
        have h := List.pairwise_cons.1 h1
        exact ⟨⟨h.1 d (by simp), h2 c (by simp)⟩, h.2, fun e he => h2 e (by simp [he])⟩

theorem Memory.wf_filter (m : List Host.Cell) (p : Host.Cell → Bool) (h : Memory.wf m = true) : Memory.wf (m.filter p) = true := by
  rw [Memory.wf_iff] at h ⊢
  exact ⟨h.1.filter p, fun c hc => h.2 c (List.mem_filter.1 hc).1⟩

theorem mem_memPlace (m : List Host.Cell) (a : Nat) (v : Byte) (c : Host.Cell) (h : c ∈ memPlace m a v) : c = (a, v) ∨ c ∈ m := by
  induction m with
  | nil => simpa [memPlace] using h
  | cons d m ih =>
    obtain ⟨k, x⟩ := d
    simp only [memPlace] at h
    split at h
    · simpa using h
    · split at h
      · simp at h ⊢
        exact h.imp_right .inr
      · simp at h ⊢
        rcases h with h | h
        · exact .inr (.inl h)
        · rcases ih h with h | h
          · exact .inl h
          · exact .inr (.inr h)

theorem Memory.wf_memPlace (m : List Host.Cell) (a : Nat) (v : Byte) (hv : v ≠ 0) (h : Memory.wf m = true) :
    Memory.wf (memPlace m a v) = true := by
  rw [Memory.wf_iff] at h ⊢
  obtain ⟨h1, h2⟩ := h
  refine ⟨?_, fun c hc => (mem_memPlace m a v c hc).elim (fun e => e ▸ hv) (h2 c)⟩
  clear h2 hv
  induction m with
  | nil => simp [memPlace]
  | cons d m ih =>
    obtain ⟨k, x⟩ := d
    have hp := List.pairwise_cons.1 h1
    simp only [memPlace]
    split
    · rename_i hlt
      refine List.pairwise_cons.2 ⟨fun e he => ?_, h1⟩
      cases he with
      | head => exact hlt
      | tail _ he => exact Nat.lt_trans hlt (hp.1 e he)
    · split
      · rename_i heq
        subst heq
        exact List.pairwise_cons.2 ⟨hp.1, hp.2⟩
      · rename_i h3 h4
        refine List.pairwise_cons.2 ⟨fun e he => ?_, ih hp.2⟩
        rcases mem_memPlace m a v e he with rfl | he
        · simp; omega
        · exact hp.1 e he

/-- A write of one byte keeps the canonical form. -/
theorem Memory.wf_memSet (m : List Host.Cell) (a : Nat) (v : Byte) (h : Memory.wf m = true) : Memory.wf (memSet m a v) = true := by
  unfold memSet
  split
  · exact Memory.wf_filter _ _ h
  · exact Memory.wf_memPlace _ _ _ (by assumption) h

/-- A write of bytes keeps the canonical form. -/
theorem Memory.wf_memWrite (bs : List Byte) : ∀ (m : List Host.Cell) (a : Nat), Memory.wf m = true → Memory.wf (memWrite m a bs) = true := by
  induction bs with
  | nil => intro m a h; exact h
  | cons b bs ih => intro m a h; exact ih _ _ (Memory.wf_memSet _ _ _ h)

/-- A write of a number keeps the canonical form. -/
theorem Memory.wf_memPut (m : List Host.Cell) (a n v : Nat) (h : Memory.wf m = true) : Memory.wf (memPut m a n v) = true :=
  Memory.wf_memWrite _ _ _ h

/-- Two memories in canonical form that read alike at every key are the same list. -/
theorem Memory.wf_ext : ∀ (m m' : List Host.Cell), Memory.wf m = true → Memory.wf m' = true → (∀ a, memByte m a = memByte m' a) → m = m' := by
  have low : ∀ (m : List Host.Cell) (k : Nat), Memory.wf m = true → (∀ c ∈ m, k < c.1) → memByte m k = 0 := by
    intro m
    induction m with
    | nil => intros; rfl
    | cons c m ih =>
      intro k h hk
      obtain ⟨a, x⟩ := c
      have : k < a := hk (a, x) (by simp)
      simp only [memByte]
      rw [if_neg (by omega)]
      exact ih k (Memory.wf_tail _ _ h) fun c hc => hk c (by simp [hc])
  intro m
  induction m with
  | nil =>
    intro m' _ h' he
    cases m' with
    | nil => rfl
    | cons c m' =>
      obtain ⟨a, x⟩ := c
      have := ((Memory.wf_iff _).1 h').2 (a, x) (by simp)
      exact absurd (by simpa [memByte] using (he a).symm) this
  | cons c m ih =>
    intro m' h h' he
    obtain ⟨a, x⟩ := c
    have w := (Memory.wf_iff _).1 h
    have p := List.pairwise_cons.1 w.1
    cases m' with
    | nil => exact absurd (by simpa [memByte] using he a) (w.2 (a, x) (by simp))
    | cons d m' =>
      obtain ⟨b, y⟩ := d
      have w' := (Memory.wf_iff _).1 h'
      have p' := List.pairwise_cons.1 w'.1
      have hx : x ≠ 0 := w.2 (a, x) (by simp)
      have hy : y ≠ 0 := w'.2 (b, y) (by simp)
      have hab : a = b := by
        rcases Nat.lt_trichotomy a b with hlt | rfl | hlt
        · have := he a
          rw [show memByte ((b, y) :: m') a = 0 from low _ a h' fun c hc => by
            cases hc with
            | head => exact hlt
            | tail _ hc => exact Nat.lt_trans hlt (p'.1 c hc)] at this
          exact absurd (by simpa [memByte] using this) hx
        · rfl
        · have := he b
          rw [show memByte ((a, x) :: m) b = 0 from low _ b h fun c hc => by
            cases hc with
            | head => exact hlt
            | tail _ hc => exact Nat.lt_trans hlt (p.1 c hc)] at this
          exact absurd (by simpa [memByte] using this.symm) hy
      subst hab
      have hxy : x = y := by simpa [memByte] using he a
      subst hxy
      rw [ih m' (Memory.wf_tail _ _ h) (Memory.wf_tail _ _ h') fun k => ?_]
      by_cases hk : k = a
      · subst hk
        rw [low m k (Memory.wf_tail _ _ h) fun c hc => p.1 c hc, low m' k (Memory.wf_tail _ _ h') fun c hc => p'.1 c hc]
      · simpa [memByte, hk] using he k

/-- Reset memory has the canonical form. -/
theorem Memory.wf_reset : Memory.wf State.reset.mem = true := rfl

/-! ### Stores -/

/-- A pre-image that is taken changes memory, poison and the views only, and keeps memory's form (R263). -/
theorem State.putImage_frame (s : State) (page : Nat) (bs : List Byte) :
    (∃ m p v, s.putImage page bs = { s with mem := m, poison := p, views := v }) ∧
    (Memory.wf s.mem = true → Memory.wf (s.putImage page bs).mem = true) := by
  unfold State.putImage
  split
  · exact ⟨⟨s.mem, s.poison, s.views, rfl⟩, id⟩
  · split
    · rename_i slot dst _
      exact ⟨⟨memWrite s.mem dst bs, _, _, rfl⟩, Memory.wf_memWrite bs s.mem dst⟩
    · exact ⟨⟨s.mem, s.poison, _, rfl⟩, id⟩

/-- The same of a page as it stands. -/
theorem State.keepImage_frame (s : State) (page key : Nat) :
    (∃ m p v, s.keepImage page key = { s with mem := m, poison := p, views := v }) ∧
    (Memory.wf s.mem = true → Memory.wf (s.keepImage page key).mem = true) := s.putImage_frame page _

/-- Copy on write changes memory, poison and the views only, and keeps memory's form (R263). -/
theorem State.amberCopy_frame (s : State) (key n : Nat) :
    (∃ m p v, s.amberCopy key n = { s with mem := m, poison := p, views := v }) ∧
    (Memory.wf s.mem = true → Memory.wf (s.amberCopy key n).mem = true) := by
  have fold : ∀ (ps : List (Nat × Nat)) (t : State), (∃ m p v, t = { s with mem := m, poison := p, views := v }) →
      (∃ m p v, ps.foldl (fun t pg => t.keepImage pg.1 pg.2) t = { s with mem := m, poison := p, views := v }) ∧
      (Memory.wf t.mem = true → Memory.wf (ps.foldl (fun t pg => t.keepImage pg.1 pg.2) t).mem = true) := by
    intro ps
    induction ps with
    | nil => exact fun t ht => ⟨ht, id⟩
    | cons q qs ih =>
      intro t ht
      obtain ⟨m, p, v, e⟩ := ht
      obtain ⟨m', p', v', e'⟩ := (State.keepImage_frame t q.1 q.2).1
      have step := ih (t.keepImage q.1 q.2) ⟨m', p', v', by rw [e', e]⟩
      exact ⟨step.1, fun hw => step.2 ((State.keepImage_frame t q.1 q.2).2 hw)⟩
  unfold State.amberCopy
  split
  · exact ⟨⟨_, _, _, rfl⟩, id⟩
  · exact fold _ s ⟨_, _, _, rfl⟩

/-- Where no view is open no page is copied (R263). -/
theorem State.amberCopy_noViews (s : State) (key n : Nat) (h : s.views = []) : s.amberCopy key n = s := by
  simp [State.amberCopy, h]

/-- A store changes memory, poison and the amber views only. -/
theorem State.store_frame (s : State) (key : Nat) (bs : List Byte) : ∃ m p v, s.store key bs = { s with mem := m, poison := p, views := v } := by
  obtain ⟨m, p, v, e⟩ := (s.amberCopy_frame key bs.length).1
  exact ⟨_, _, _, by unfold State.store State.writeMem; rw [e]⟩

/-- A store keeps memory's canonical form. -/
theorem State.store_wf (s : State) (key : Nat) (bs : List Byte) (h : Memory.wf s.mem = true) : Memory.wf (s.store key bs).mem = true :=
  Memory.wf_memWrite _ _ _ ((s.amberCopy_frame key bs.length).2 h)

/-- Where no view is open, a store is a write of memory. -/
theorem State.store_mem (s : State) (key : Nat) (bs : List Byte) (h : s.views = []) : (s.store key bs).mem = memWrite s.mem key bs := by
  simp [State.store, State.amberCopy_noViews s key _ h]

theorem State.storeNat_mem (s : State) (key n v : Nat) (h : s.views = []) : (s.storeNat key n v).mem = memPut s.mem key n v :=
  State.store_mem s key _ h

end Sys2Proof.Machine
end

