-- ==== Sys2Proof/Laws/Operands.lean ====
section
/-!
SUPPORT. Laws/Operands.lean: what the shared writes of registers and predicates do, said once.
-/

namespace Sys2Proof.Machine

/-! ### Masks -/

theorem lanesMask_bit (w l : Nat) (hw : l < w) (hl : l < 64) : (lanesMask w).getLsbD l = true := by
  simp [lanesMask, BitVec.getLsbD_ofNat, hl, Nat.testBit_two_pow_sub_one, hw]

theorem mem_laneList (m : Mask) (l : Nat) : l ∈ laneList m ↔ m.getLsbD l = true := by
  simp only [laneList, List.mem_filter, List.mem_range]
  constructor
  · exact fun h => h.2
  · exact fun h => ⟨BitVec.lt_of_getLsbD h, h⟩

theorem laneList_sorted (m : Mask) : (laneList m).Pairwise (· < ·) := by
  unfold laneList
  exact List.Pairwise.filter _ List.pairwise_lt_range

theorem elect_mem (m : Mask) (h : m ≠ 0) : m.getLsbD (elect m) = true := by
  unfold elect
  cases hl : laneList m with
  | nil =>
    exfalso; apply h
    apply BitVec.eq_of_getLsbD_eq
    intro i hi
    have : i ∉ laneList m := by simp [hl]
    rw [mem_laneList] at this
    simpa using this
  | cons x xs =>
    have : x ∈ laneList m := by simp [hl]
    simpa [hl] using (mem_laneList m x).1 this

/-- The bits of a mask made from a test. -/
theorem maskOf_bit (p : Nat → Bool) (l : Nat) (h : l < 64) : (maskOf p).getLsbD l = p l := by
  have key : ∀ (n k i : Nat), i < n →
      (((List.range' k n).foldr (fun l acc => (if p l then 1 else 0) + 2 * acc) 0).testBit i) = p (k + i) := by
    intro n
    induction n with
    | zero => intro k i h; omega
    | succ n ih =>
      intro k i hi
      rw [List.range'_succ, List.foldr_cons]
      cases i with
      | zero =>
        rw [Nat.testBit_zero]
        by_cases hp : p k <;> simp [hp]
      | succ i =>
        rw [Nat.testBit_succ]
        have : ((if p k then 1 else 0) + 2 * (List.range' (k + 1) n).foldr (fun l acc => (if p l then 1 else 0) + 2 * acc) 0) / 2
            = (List.range' (k + 1) n).foldr (fun l acc => (if p l then 1 else 0) + 2 * acc) 0 := by
          split <;> omega
        rw [this, ih (k + 1) i (by omega)]
        congr 1; omega
  unfold maskOf
  rw [BitVec.getLsbD_ofNat, List.range_eq_range', key 64 0 l h]
  simp [h]

theorem writeMask_alive (c : Cohort) (f : Fields) (l : Nat) (h : (c.writeMask f).getLsbD l = true) : c.dead.getLsbD l = false := by
  simp only [Cohort.writeMask, BitVec.getLsbD_and, BitVec.getLsbD_not, Bool.and_eq_true] at h
  simpa using h.2.2

theorem full_covers (c : Cohort) (m : Mask) (l : Nat) (hf : c.full m = true) (hw : l < c.width) (hl : l < 64)
    (hd : c.dead.getLsbD l = false) : m.getLsbD l = true := by
  simp only [Cohort.full, beq_iff_eq] at hf
  have h := congrArg (fun x => BitVec.getLsbD x l) hf
  simp only [BitVec.getLsbD_and, BitVec.getLsbD_not, lanesMask_bit c.width l hw hl, hd, hl] at h
  simpa using h

/-! ### Registers -/

theorem setReg_reg (c : Cohort) (k : Nat) (v : VReg) (h : k < c.regs.length) : (c.setReg k v).reg k = v := by
  simp [Cohort.setReg, Cohort.reg, h]

theorem setReg_other (c : Cohort) (k n : Nat) (v : VReg) (h : n ≠ k) : (c.setReg k v).reg n = c.reg n := by
  simp [Cohort.setReg, Cohort.reg, List.getD, List.getElem?_set_ne (Ne.symm h)]

theorem setReg_only (c : Cohort) (k : Nat) (v : VReg) : c.onlyRegs (c.setReg k v) := by
  refine ⟨rfl, ?_⟩
  simp only [Cohort.setReg]
  cases c.latch with
  | none => exact .inl rfl
  | some p => by_cases h : p.toNat = k ∨ p.toNat + 1 = k <;> simp [h]

theorem general_lane (c : Cohort) (w : Nat → Word) (l : Nat) (hl : l < c.width) (hd : c.dead.getLsbD l = false) :
    (c.general w).lane l = w l := by
  simp [Cohort.general, VReg.lane, List.getD, hl, hd]

/-- WRITING A REGISTER UNDER A MASK (R60): when the shape that a full write takes has the lanes' values, the register has them in
every lane of the mask, keeps the other lanes, and nothing else of the cohort changes. -/
theorem putVec_writes (c : Cohort) (m : Mask) (k : Nat) (val : Nat → Word) (shape : VReg) (hk : k < c.regs.length)
    (hm : ∀ l, m.getLsbD l = true → c.dead.getLsbD l = false)
    (hs : m ≠ 0 → ∀ l, l < c.width → m.getLsbD l = true → shape.lane l = val l) :
    vecWrite c (c.putVec m k val shape) m k val := by
  unfold Cohort.putVec
  by_cases h0 : m = 0
  · subst h0
    simp [vecWrite, Cohort.onlyRegs, regWritten]
  · simp only [h0, ↓reduceIte]
    by_cases hf : c.full m = true
    · simp only [hf, ↓reduceIte]
      refine ⟨setReg_only c k _, ⟨?_, ?_⟩, fun n hn => setReg_other c k n _ hn⟩
      · intro l hw hl
        rw [setReg_reg c k _ hk]
        exact hs h0 l hw hl
      · intro l hw h64 hl hd
        rw [full_covers c m l hf hw h64 hd] at hl
        cases hl
    · simp only [hf, Bool.false_eq_true, ↓reduceIte]
      refine ⟨setReg_only c k _, ⟨?_, ?_⟩, fun n hn => setReg_other c k n _ hn⟩
      · intro l hw hl
        rw [setReg_reg c k _ hk, general_lane c _ l hw (hm l hl)]
        simp [hl]
      · intro l hw h64 hl hd
        rw [setReg_reg c k _ hk, general_lane c _ l hw hd]
        simp [hl]

/-- The lane values of a result do not depend on the lane where every source is U. -/
theorem resultShape_lane (c : Cohort) (srcs : List VReg) (affine : Option VReg) (val : Nat → Word)
    (hu : srcs.all VReg.isU = true → ∀ l, val l = val 0) (ha : ∀ r, affine = some r → ∀ l, r.lane l = val l)
    (l : Nat) (hw : l < c.width) (hd : c.dead.getLsbD l = false) : (c.resultShape false srcs affine val).lane l = val l := by
  unfold Cohort.resultShape
  simp only [Bool.false_eq_true, ↓reduceIte]
  split
  · next h => simpa [VReg.lane] using (hu h l).symm
  · split
    · next r => exact ha _ rfl l
    · exact general_lane c val l hw hd

/-- WRITING A LANE RESULT (R60): the destination has the lanes' values whatever shape the result takes. -/
theorem putLanes_writes (c : Cohort) (m : Mask) (od : Opnd) (srcs : List VReg) (affine : Option VReg) (val : Nat → Word)
    (hk : opndIndex od < c.regs.length) (hm : ∀ l, m.getLsbD l = true → c.dead.getLsbD l = false)
    (hu : srcs.all VReg.isU = true → ∀ l, val l = val 0) (ha : ∀ r, affine = some r → ∀ l, r.lane l = val l) :
    vecWrite c (c.putLanes m od srcs affine val) m (opndIndex od) val :=
  putVec_writes c m _ val _ hk hm fun _ l hw hl => resultShape_lane c srcs affine val hu ha l hw (hm l hl)

theorem isU_lane (v : VReg) (h : v.isU = true) (l : Nat) : v.lane l = v.lane 0 := by
  cases v <;> simp_all [VReg.isU, VReg.lane]

/-- WRITING A PAIR (R60, rule 3). -/
theorem putLanes64_writes (c : Cohort) (m : Mask) (od : Opnd) (srcs : List VReg) (val : Nat → DWord)
    (hk : opndIndex od + 1 < c.regs.length) (hm : ∀ l, m.getLsbD l = true → c.dead.getLsbD l = false)
    (hu : srcs.all VReg.isU = true → ∀ l, val l = val 0) :
    pairWrite c (c.putLanes64 m od srcs val) m (opndIndex od) val := by
  have h1 := putLanes_writes c m od srcs none (fun l => DWord.lo (val l)) (by omega) hm
    (fun h l => by simp only [hu h l]) (by simp)
  unfold Cohort.putLanes64
  simp only
  generalize hc1 : c.putVec m (opndIndex od) (fun l => DWord.lo (val l)) (c.resultShape false srcs none fun l => DWord.lo (val l)) = c1
  rw [Cohort.putLanes, hc1] at h1
  obtain ⟨⟨e1, l1⟩, ⟨w1, k1⟩, o1⟩ := h1
  have hlen : c1.regs.length = c.regs.length := by
    rw [← hc1]; unfold Cohort.putVec Cohort.setReg; split
    · rfl
    · split <;> simp
  have hwid : c1.width = c.width := by rw [e1]
  have hdead : c1.dead = c.dead := by rw [e1]
  have h2 := putVec_writes c1 m (opndIndex od + 1) (fun l => DWord.hi (val l)) (c1.resultShape false srcs none fun l => DWord.hi (val l))
    (by omega) (by rw [hdead]; exact hm)
    (fun _ l hw hl => resultShape_lane c1 srcs none _ (fun h l => by simp only [hu h l]) (by simp) l hw (by rw [hdead]; exact hm l hl))
  obtain ⟨⟨e2, l2⟩, ⟨w2, k2⟩, o2⟩ := h2
  rw [hwid] at w2 k2
  rw [hdead] at k2
  refine ⟨⟨?_, ?_⟩, ⟨?_, ?_⟩, ⟨?_, ?_⟩, ?_⟩
  · rw [e2, e1]
  · rcases l2 with h | h
    · rw [h]; exact l1
    · exact .inr h
  · intro l a b; rw [o2 _ (by omega)]; exact w1 l a b
  · intro l a b d e; rw [o2 _ (by omega)]; exact k1 l a b d e
  · exact w2
  · intro l a b d e; rw [k2 l a b d e, o1 _ (by omega)]
  · intro n a b; rw [o2 n b, o1 n a]

/-! ### Predicates -/

/-- WRITING A PREDICATE (R50): the lanes of the mask take their bits, the others keep theirs, and p7 takes nothing. -/
theorem putPred_writes (c : Cohort) (m : Mask) (i : BitVec 3) (bits : Mask) (hi : i.toNat < c.preds.length) :
    predWrite c (c.putPred m i bits) m i bits.getLsbD := by
  unfold Cohort.putPred
  by_cases h7 : i = 7
  · subst h7
    simp [predWrite]
  · simp only [h7, ↓reduceIte]
    refine ⟨rfl, fun h => absurd h h7, ?_, ?_⟩
    · intro _ l hl
      simp only [Cohort.pred, h7, ↓reduceIte, List.getD, List.getElem?_set_self hi, Option.getD_some, BitVec.getLsbD_or,
        BitVec.getLsbD_and, BitVec.getLsbD_not, hl, decide_true, Bool.true_and]
      cases m.getLsbD l <;> simp
    · intro k hk
      have : i.toNat ≠ k.toNat := fun h => hk (BitVec.eq_of_toNat_eq h.symm)
      simp only [Cohort.pred, List.getD, List.getElem?_set_ne this]

/-- A predicate write says nothing of lanes outside its mask. -/
theorem predWrite_congr {c d : Cohort} {m : Mask} {i : BitVec 3} {p q : Nat → Bool} (h : predWrite c d m i p)
    (hpq : ∀ l, l < 64 → m.getLsbD l = true → p l = q l) : predWrite c d m i q := by
  obtain ⟨a, b, w, o⟩ := h
  refine ⟨a, b, fun h7 l hl => ?_, o⟩
  rw [w h7 l hl]
  by_cases hm : m.getLsbD l = true
  · rw [hm, hpq l hl hm]
  · simp [hm]

end Sys2Proof.Machine
end

