-- ==== Sys2Proof/Laws/Ops.lean ====
section
/-!
SUPPORT. Laws/Ops.lean: what each shared operation of Machine/Ops.lean may change, said once: a `_frame` lemma names the fields
that may differ.
-/

namespace Sys2Proof.Machine

/-! ### The issuing cohort and its outcome -/

theorem withMe_some (s : State) (c : Cohort) (k : Cohort → Out) (h : s.me? = some c) : withMe s k = k c := by
  simp [withMe, h]

theorem finish_eq (s : State) (c : Cohort) : finish s c = .next (s.setCohort c.complete) := rfl

theorem waitHere_eq (s : State) (c : Cohort) : waitHere s c = .next (s.setCohort { c with wait := .retry }) := rfl

/-- The cohort that a next state of `finish` holds. -/
theorem finish_cohort (s : State) (c : Cohort) (h : (s.cohort? c.cid).isSome) (hc : c.complete.cid = c.cid) :
    ∃ t : State, finish s c = .next t ∧ t.cohort? c.cid = some c.complete :=
  ⟨_, rfl, by rw [← hc] at h ⊢; exact State.cohort_setCohort s c.complete h⟩

/-! ### Control state -/

@[simp] theorem Cohort.setSlot_cid (c : Cohort) (x : Bool) (v : Option PcSlot) : (c.setSlot x v).cid = c.cid := by
  unfold Cohort.setSlot; split <;> rfl

/-- A slot that is replaced, and the other one. -/
@[simp] theorem Cohort.slot_setSlot (c : Cohort) (x : Bool) (v : Option PcSlot) : (c.setSlot x v).slot x = v := by
  cases x <;> rfl

@[simp] theorem Cohort.slot_setSlot_other (c : Cohort) (x : Bool) (v : Option PcSlot) : (c.setSlot x v).slot (!x) = c.slot (!x) := by
  cases x <;> rfl

/-- Only the slots of a cohort differ. -/
theorem Cohort.setSlot_frame (c : Cohort) (x : Bool) (v : Option PcSlot) :
    c.setSlot x v = { c with s0 := (c.setSlot x v).s0, s1 := (c.setSlot x v).s1 } := by
  cases x <;> rfl

/-- A transfer changes only the slots, which slot issued last, and the wait. -/
theorem Cohort.goto_frame (c : Cohort) (pc : Word) :
    c.goto pc = { c with s0 := (c.goto pc).s0, s1 := (c.goto pc).s1, lastS := c.issuer, wait := .none } := by
  unfold Cohort.goto
  cases c.issuer <;> rfl

/-- A pop changes only the stack and how much of it lies in the spill area. -/
theorem Cohort.pop_frame (c d : Cohort) (e : StackEntry) (h : c.pop = some (e, d)) :
    d = { c with stack := d.stack, nSpill := d.nSpill } ∧ c.stack = e :: d.stack := by
  unfold Cohort.pop at h
  split at h
  · cases h
  · cases hs : c.stack with
    | nil => rw [hs] at h; cases h
    | cons x st =>
      rw [hs] at h
      cases h
      exact ⟨rfl, rfl⟩

/-- Only what R34 works on differs: the slots, J, the stack, and the note of a merge (R38). -/
def Cohort.onlyPath (c d : Cohort) : Prop :=
  d = { c with s0 := d.s0, s1 := d.s1, j := d.j, stack := d.stack, nSpill := d.nSpill, merged := d.merged }

theorem Cohort.onlyPath_trans {c d e : Cohort} (h : c.onlyPath d) (g : d.onlyPath e) : c.onlyPath e := by
  unfold Cohort.onlyPath at *
  rw [h] at g
  exact g

theorem Cohort.pop_onlyPath (c d : Cohort) (e : StackEntry) (h : c.pop = some (e, d)) : c.onlyPath d := by
  have := (Cohort.pop_frame c d e h).1
  unfold Cohort.onlyPath
  rw [this]

theorem Cohort.onlyPath_with {c d : Cohort} (h : c.onlyPath d) (a b : Option PcSlot) (j : Word) : c.onlyPath { d with s0 := a, s1 := b, j := j } := by
  unfold Cohort.onlyPath at *
  rw [h]

theorem Cohort.onlyPath_ite {c a b : Cohort} {p : Prop} [Decidable p] (ha : c.onlyPath a) (hb : c.onlyPath b) : c.onlyPath (if p then a else b) := by
  split <;> assumption

/-- R34 changes only the slots, J, the stack, and the note of a merge (R38). -/
theorem Cohort.reconverge_onlyPath : ∀ (n : Nat) (c : Cohort), c.onlyPath (c.reconverge n) := by
  intro n
  induction n with
  | zero => intro c; rfl
  | succ n ih =>
    intro c
    have merged : ∀ a b : Cohort, c.onlyPath a → c.onlyPath b → ∀ m : Cohort → StackEntry → Cohort,
        (∀ e d, a.pop = some (e, d) → c.onlyPath (m d e)) →
        c.onlyPath (match a.pop with
          | none => b
          | some (e, d) => Cohort.reconverge n (m d e)) := by
      intro a b _ hb m hm
      split
      · exact hb
      · rename_i e d hp
        exact Cohort.onlyPath_trans (hm e d hp) (ih _)
    rw [Cohort.reconverge]
    split
    · exact merged c c rfl rfl (fun d e => { d with s0 := liveSlot e.pc (e.mask &&& ~~~c.dead), j := e.outer })
        fun e d hp => Cohort.onlyPath_with (Cohort.pop_onlyPath c d e hp) _ _ _
    · refine Cohort.onlyPath_ite ?_ rfl
      refine merged _ _ ?_ ?_ (fun d e => { d with s1 := liveSlot e.pc (e.mask &&& ~~~c.dead), j := e.outer }) ?_
      · exact rfl
      · exact rfl
      intro e d hp
      exact Cohort.onlyPath_with (Cohort.onlyPath_trans (by exact rfl) (Cohort.pop_onlyPath _ d e hp)) _ _ _

theorem Cohort.settle_onlyPath (c : Cohort) : c.onlyPath c.settle := Cohort.reconverge_onlyPath _ c

/-- A completed instruction changes only control state. -/
theorem Cohort.complete_frame (c : Cohort) : c.complete =
    { c with s0 := c.complete.s0, s1 := c.complete.s1, j := c.complete.j, stack := c.complete.stack, nSpill := c.complete.nSpill,
             merged := c.complete.merged, lastS := c.issuer, wait := .none } := by
  have h := Cohort.settle_onlyPath c.advance
  have g := Cohort.goto_frame c (c.here.pc + 1)
  unfold Cohort.onlyPath at h
  unfold Cohort.complete
  rw [h]
  unfold Cohort.advance
  rw [g]

@[simp] theorem Cohort.complete_cid (c : Cohort) : c.complete.cid = c.cid := by rw [Cohort.complete_frame]
@[simp] theorem Cohort.complete_regs (c : Cohort) : c.complete.regs = c.regs := by rw [Cohort.complete_frame]
@[simp] theorem Cohort.complete_preds (c : Cohort) : c.complete.preds = c.preds := by rw [Cohort.complete_frame]
@[simp] theorem Cohort.complete_vstat (c : Cohort) : c.complete.vstat = c.vstat := by rw [Cohort.complete_frame]

/-! ### Stopping a context -/

/-- A pre-emption that is lost to another event: only cohorts differ, each in what is pending for it. -/
theorem State.losePreempts_frame (s : State) (k : BitVec 16) : s.losePreempts k = { s with cohorts := (s.losePreempts k).cohorts } := rfl

/-- The halt line: only contexts, and what is pending for cohorts, differ. -/
theorem State.halt_frame (s : State) (k : BitVec 16) (g : BitVec 5) (core : BitVec 16) (pc : Word) :
    s.halt k g core pc = { s with ctxs := (s.halt k g core pc).ctxs, cohorts := (s.halt k g core pc).cohorts } := by
  unfold State.halt
  simp only
  generalize hs : s.losePreempts k = s1
  have h1 : s1 = { s with cohorts := s1.cohorts } := by rw [← hs, State.losePreempts_frame]
  rw [h1]
  split
  · rfl
  · split
    · split
      · rfl
      · split <;> rfl
    · rfl

/-- An event that reaches a cohort changes only its cause record and what is pending. -/
theorem Cohort.meet_frame (c : Cohort) (e : PendEvent) :
    c.meet e = { c with
      cause := (c.meet e).cause, caused0 := (c.meet e).caused0, caused1 := (c.meet e).caused1, caused2 := (c.meet e).caused2,
      epc := (c.meet e).epc, laneRecs := (c.meet e).laneRecs, raised := (c.meet e).raised, jobSide := (c.meet e).jobSide,
      pend := (c.meet e).pend, pendInfo := (c.meet e).pendInfo } := by
  unfold Cohort.meet
  split
  · split <;> rfl
  · rfl

@[simp] theorem Cohort.meet_cid (c : Cohort) (e : PendEvent) : (c.meet e).cid = c.cid := by rw [Cohort.meet_frame]

/-- A cohort without a cause, or one whose handler runs, takes the cause at once (R234, R238). -/
theorem Cohort.meet_takes (c : Cohort) (e : PendEvent) (h : (c.raised && !c.hmode) = false) : c.meet e = c.takeCause e := by
  simp [Cohort.meet, h]

/-- Taking a cause: only cohorts and contexts differ. -/
theorem State.raise_frame (s : State) (c : Cohort) (g : Nat) (detail : BitVec 96) (recs : List LaneRec) :
    s.raise c g detail recs = { s with cohorts := (s.raise c g detail recs).cohorts, ctxs := (s.raise c g detail recs).ctxs } := by
  unfold State.raise
  rw [State.halt_frame]
  rfl

@[simp] theorem State.halt_mem (s : State) (k : BitVec 16) (g : BitVec 5) (core : BitVec 16) (pc : Word) :
    (s.halt k g core pc).mem = s.mem := by rw [State.halt_frame]

@[simp] theorem State.raise_mem (s : State) (c : Cohort) (g : Nat) (detail : BitVec 96) (recs : List LaneRec) :
    (s.raise c g detail recs).mem = s.mem := by rw [State.raise_frame]

/-- A context that runs is halted: its record of the stop. -/
theorem State.halt_ctx (s : State) (k : BitVec 16) (g : BitVec 5) (core : BitVec 16) (pc : Word) (x : Ctx) (h : s.ctx? k = some x)
    (hr : x.halt = false) : (s.halt k g core pc).ctx? k = some
      { x with halt := true, haltAt := s.cycles, enginesStopped := false, stopWritten := false, inHandler := false, double := false,
               stopNum := x.stopNum + 1, firstCause := g, firstCore := core, firstPc := pc } := by
  have hk := State.ctx_ctxid s k x h
  subst hk
  have h' : (s.losePreempts x.ctxid).ctx? x.ctxid = some x := h
  simp only [State.halt, h', hr, Bool.false_eq_true, if_false]
  exact State.ctx_setCtx (s.losePreempts x.ctxid)
    { x with halt := true, haltAt := s.cycles, enginesStopped := false, stopWritten := false, inHandler := false, double := false,
             stopNum := x.stopNum + 1, firstCause := g, firstCore := core, firstPc := pc } (by simp [h'])

/-! ### The baton, barriers and the end of a cohort -/

theorem State.passBaton_frame (s : State) (core : Nat) :
    s.passBaton core = { s with cohorts := (s.passBaton core).cohorts, cores := (s.passBaton core).cores } := by
  unfold State.passBaton
  split <;> rfl

theorem State.freeBanks_frame (s : State) (c : Cohort) : s.freeBanks c = { s with cores := (s.freeBanks c).cores } := rfl

theorem State.barCheck_frame (s : State) (sc : Scope) (c : Cohort) : s.barCheck sc c = { s with cohorts := (s.barCheck sc c).cohorts } := by
  unfold State.barCheck
  split <;> rfl

theorem State.retireWg_frame (s : State) (w : Wg) : s.retireWg w =
    { s with wgs := (s.retireWg w).wgs, colls := (s.retireWg w).colls, launches := (s.retireWg w).launches } := by
  unfold State.retireWg
  simp only
  split
  · split <;> rfl
  · rfl

/-- The fields that the end of a cohort may change. -/
def State.leaveFrame (s t : State) : Prop := t =
  { s with cohorts := t.cohorts, cores := t.cores, waitTable := t.waitTable, wgs := t.wgs, colls := t.colls, launches := t.launches }

theorem State.leaveFrame_rfl (s : State) : s.leaveFrame s := rfl

theorem State.leaveFrame_trans {s t u : State} (h : s.leaveFrame t) (g : t.leaveFrame u) : s.leaveFrame u := by
  unfold State.leaveFrame at *
  rw [h] at g
  exact g

theorem State.retire_frame (s : State) (c : Cohort) : s.leaveFrame (s.retire c) := by
  unfold State.retire
  simp only
  have base : ∀ t : State, s.leaveFrame t → s.leaveFrame (match t.wg? c.wg with
      | some w =>
        if w.live ≤ 1 then t.retireWg w else t.setWg { w with live := w.live - 1, gone := (c.place, c.budget, c.nreg) :: w.gone }
      | none => t) := by
    intro t ht
    split
    · split
      · exact State.leaveFrame_trans ht (by unfold State.leaveFrame; rw [State.retireWg_frame])
      · exact State.leaveFrame_trans ht rfl
    · exact ht
  apply base
  have bars : ∀ (scs : List Scope) (t : State), s.leaveFrame t → s.leaveFrame (scs.foldl (fun t sc =>
      match t.cohorts.find? fun d => sameInstance sc c d && d.atBar sc with
      | some d => t.barCheck sc d
      | none => t) t) := by
    intro scs
    induction scs with
    | nil => intro t ht; exact ht
    | cons sc scs ih =>
      intro t ht
      apply ih
      dsimp only
      split
      · exact State.leaveFrame_trans ht (by unfold State.leaveFrame; rw [State.barCheck_frame])
      · exact ht
  apply bars
  split
  · unfold State.leaveFrame; rw [State.passBaton_frame]; rfl
  · rfl

theorem State.settleCohort_frame (s : State) (c : Cohort) : s.leaveFrame (s.settleCohort c) := by
  unfold State.settleCohort
  simp only
  split
  · rfl
  · split
    · exact State.retire_frame _ _
    · rfl

@[simp] theorem State.settleCohort_mem (s : State) (c : Cohort) : (s.settleCohort c).mem = s.mem := by
  have h := State.settleCohort_frame s c
  unfold State.leaveFrame at h
  rw [h]

end Sys2Proof.Machine
end

