-- ==== Sys2Proof/Laws/PerInstr.lean ====
section
/-!
SUPPORT. Laws/PerInstr.lean: one lemma per constructor of `Instr`: the opcode map has a row under the opcode of the instruction, and the row builds
exactly that instruction (R325). An event has no opcode.
-/

namespace Sys2Proof.Laws.HasRow

/-- The opcode map has a row under the instruction's opcode that builds it from its fields (R325). -/
def Statement (i : Instr) : Prop :=
  match i.parts with
  | some (opc, f) => ∃ row ∈ opMap, row.opc = opc ∧ row.build f = i
  | none => True

theorem accalloc (f : Fields) : Statement (.accalloc f) := ⟨opMap[89]'(by decide), List.getElem_mem _, rfl, rfl⟩
theorem accfree (f : Fields) : Statement (.accfree f) := ⟨opMap[90]'(by decide), List.getElem_mem _, rfl, rfl⟩
theorem and (f : Fields) : Statement (.and f) := ⟨opMap[30]'(by decide), List.getElem_mem _, rfl, rfl⟩
theorem andn (f : Fields) : Statement (.andn f) := ⟨opMap[33]'(by decide), List.getElem_mem _, rfl, rfl⟩
theorem arrive (f : Fields) : Statement (.arrive f) := ⟨opMap[97]'(by decide), List.getElem_mem _, rfl, rfl⟩
theorem assert (f : Fields) : Statement (.assert f) := ⟨opMap[12]'(by decide), List.getElem_mem _, rfl, rfl⟩
theorem atom (f : Fields) : Statement (.atom f) := ⟨opMap[70]'(by decide), List.getElem_mem _, rfl, rfl⟩
theorem awaitc (f : Fields) : Statement (.awaitc f) := ⟨opMap[101]'(by decide), List.getElem_mem _, rfl, rfl⟩
theorem bar (f : Fields) : Statement (.bar f) := ⟨opMap[95]'(by decide), List.getElem_mem _, rfl, rfl⟩
theorem barinit (f : Fields) : Statement (.barinit f) := ⟨opMap[96]'(by decide), List.getElem_mem _, rfl, rfl⟩
theorem bcast (f : Fields) : Statement (.bcast f) := ⟨opMap[61]'(by decide), List.getElem_mem _, rfl, rfl⟩
theorem bfi (f : Fields) : Statement (.bfi f) := ⟨opMap[39]'(by decide), List.getElem_mem _, rfl, rfl⟩
theorem bfx (f : Fields) : Statement (.bfx f) := ⟨opMap[38]'(by decide), List.getElem_mem _, rfl, rfl⟩
theorem bkpt (f : Fields) : Statement (.bkpt f) := ⟨opMap[14]'(by decide), List.getElem_mem _, rfl, rfl⟩
theorem bpass (f : Fields) : Statement (.bpass f) := ⟨opMap[94]'(by decide), List.getElem_mem _, rfl, rfl⟩
theorem bra (f : Fields) : Statement (.bra f) := ⟨opMap[1]'(by decide), List.getElem_mem _, rfl, rfl⟩
theorem brev (f : Fields) : Statement (.brev f) := ⟨opMap[42]'(by decide), List.getElem_mem _, rfl, rfl⟩
theorem btake (f : Fields) : Statement (.btake f) := ⟨opMap[93]'(by decide), List.getElem_mem _, rfl, rfl⟩
theorem bwait (f : Fields) : Statement (.bwait f) := ⟨opMap[98]'(by decide), List.getElem_mem _, rfl, rfl⟩
theorem call (f : Fields) : Statement (.call f) := ⟨opMap[4]'(by decide), List.getElem_mem _, rfl, rfl⟩
theorem callInd (f : Fields) : Statement (.callInd f) := ⟨opMap[5]'(by decide), List.getElem_mem _, rfl, rfl⟩
theorem cctl (f : Fields) : Statement (.cctl f) := ⟨opMap[75]'(by decide), List.getElem_mem _, rfl, rfl⟩
theorem cfence (f : Fields) : Statement (.cfence f) := ⟨opMap[102]'(by decide), List.getElem_mem _, rfl, rfl⟩
theorem clz (f : Fields) : Statement (.clz f) := ⟨opMap[41]'(by decide), List.getElem_mem _, rfl, rfl⟩
theorem coll (f : Fields) : Statement (.coll f) := ⟨opMap[83]'(by decide), List.getElem_mem _, rfl, rfl⟩
theorem copy (f : Fields) : Statement (.copy f) := ⟨opMap[79]'(by decide), List.getElem_mem _, rfl, rfl⟩
theorem cvt (f : Fields) : Statement (.cvt f) := ⟨opMap[45]'(by decide), List.getElem_mem _, rfl, rfl⟩
theorem cvtpk (f : Fields) : Statement (.cvtpk f) := ⟨opMap[46]'(by decide), List.getElem_mem _, rfl, rfl⟩
theorem cwait (f : Fields) : Statement (.cwait f) := ⟨opMap[84]'(by decide), List.getElem_mem _, rfl, rfl⟩
theorem cwaitSplit (f : Fields) : Statement (.cwaitSplit f) := ⟨opMap[85]'(by decide), List.getElem_mem _, rfl, rfl⟩
theorem epapp (f : Fields) : Statement (.epapp f) := ⟨opMap[103]'(by decide), List.getElem_mem _, rfl, rfl⟩
theorem epend (f : Fields) : Statement (.epend f) := ⟨opMap[104]'(by decide), List.getElem_mem _, rfl, rfl⟩
theorem epi (f : Fields) : Statement (.epi f) := ⟨opMap[91]'(by decide), List.getElem_mem _, rfl, rfl⟩
theorem epiRec (f : Fields) : Statement (.epiRec f) := ⟨opMap[92]'(by decide), List.getElem_mem _, rfl, rfl⟩
theorem exit (f : Fields) : Statement (.exit f) := ⟨opMap[7]'(by decide), List.getElem_mem _, rfl, rfl⟩
theorem fadd (f : Fields) : Statement (.fadd f) := ⟨opMap[48]'(by decide), List.getElem_mem _, rfl, rfl⟩
theorem fsub (f : Fields) : Statement (.fsub f) := ⟨opMap[49]'(by decide), List.getElem_mem _, rfl, rfl⟩
theorem fmul (f : Fields) : Statement (.fmul f) := ⟨opMap[50]'(by decide), List.getElem_mem _, rfl, rfl⟩
theorem ffma (f : Fields) : Statement (.ffma f) := ⟨opMap[51]'(by decide), List.getElem_mem _, rfl, rfl⟩
theorem fcmp (f : Fields) : Statement (.fcmp f) := ⟨opMap[54]'(by decide), List.getElem_mem _, rfl, rfl⟩
theorem fence (f : Fields) : Statement (.fence f) := ⟨opMap[76]'(by decide), List.getElem_mem _, rfl, rfl⟩
theorem fmax (f : Fields) : Statement (.fmax f) := ⟨opMap[53]'(by decide), List.getElem_mem _, rfl, rfl⟩
theorem fmin (f : Fields) : Statement (.fmin f) := ⟨opMap[52]'(by decide), List.getElem_mem _, rfl, rfl⟩
theorem frnd (f : Fields) : Statement (.frnd f) := ⟨opMap[55]'(by decide), List.getElem_mem _, rfl, rfl⟩
theorem fsfn (f : Fields) : Statement (.fsfn f) := ⟨opMap[56]'(by decide), List.getElem_mem _, rfl, rfl⟩
theorem gate (f : Fields) : Statement (.gate f) := ⟨opMap[10]'(by decide), List.getElem_mem _, rfl, rfl⟩
theorem gather (f : Fields) : Statement (.gather f) := ⟨opMap[80]'(by decide), List.getElem_mem _, rfl, rfl⟩
theorem iabs (f : Fields) : Statement (.iabs f) := ⟨opMap[21]'(by decide), List.getElem_mem _, rfl, rfl⟩
theorem iadd (f : Fields) : Statement (.iadd f) := ⟨opMap[16]'(by decide), List.getElem_mem _, rfl, rfl⟩
theorem isub (f : Fields) : Statement (.isub f) := ⟨opMap[17]'(by decide), List.getElem_mem _, rfl, rfl⟩
theorem iaddmin (f : Fields) : Statement (.iaddmin f) := ⟨opMap[24]'(by decide), List.getElem_mem _, rfl, rfl⟩
theorem icmp (f : Fields) : Statement (.icmp f) := ⟨opMap[25]'(by decide), List.getElem_mem _, rfl, rfl⟩
theorem idp2 (f : Fields) : Statement (.idp2 f) := ⟨opMap[27]'(by decide), List.getElem_mem _, rfl, rfl⟩
theorem idp4 (f : Fields) : Statement (.idp4 f) := ⟨opMap[28]'(by decide), List.getElem_mem _, rfl, rfl⟩
theorem imad (f : Fields) : Statement (.imad f) := ⟨opMap[20]'(by decide), List.getElem_mem _, rfl, rfl⟩
theorem imax (f : Fields) : Statement (.imax f) := ⟨opMap[23]'(by decide), List.getElem_mem _, rfl, rfl⟩
theorem imin (f : Fields) : Statement (.imin f) := ⟨opMap[22]'(by decide), List.getElem_mem _, rfl, rfl⟩
theorem imul (f : Fields) : Statement (.imul f) := ⟨opMap[18]'(by decide), List.getElem_mem _, rfl, rfl⟩
theorem imulh (f : Fields) : Statement (.imulh f) := ⟨opMap[19]'(by decide), List.getElem_mem _, rfl, rfl⟩
theorem jmp (f : Fields) : Statement (.jmp f) := ⟨opMap[2]'(by decide), List.getElem_mem _, rfl, rfl⟩
theorem jmpInd (f : Fields) : Statement (.jmpInd f) := ⟨opMap[3]'(by decide), List.getElem_mem _, rfl, rfl⟩
theorem ld (f : Fields) : Statement (.ld f) := ⟨opMap[68]'(by decide), List.getElem_mem _, rfl, rfl⟩
theorem lea (f : Fields) : Statement (.lea f) := ⟨opMap[26]'(by decide), List.getElem_mem _, rfl, rfl⟩
theorem lqdone (f : Fields) : Statement (.lqdone f) := ⟨opMap[109]'(by decide), List.getElem_mem _, rfl, rfl⟩
theorem lqtake (f : Fields) : Statement (.lqtake f) := ⟨opMap[106]'(by decide), List.getElem_mem _, rfl, rfl⟩
theorem lqtakeSplit (f : Fields) : Statement (.lqtakeSplit f) := ⟨opMap[107]'(by decide), List.getElem_mem _, rfl, rfl⟩
theorem lqtakeTry (f : Fields) : Statement (.lqtakeTry f) := ⟨opMap[108]'(by decide), List.getElem_mem _, rfl, rfl⟩
theorem lrel (f : Fields) : Statement (.lrel f) := ⟨opMap[11]'(by decide), List.getElem_mem _, rfl, rfl⟩
theorem mbatch (f : Fields) : Statement (.mbatch f) := ⟨opMap[87]'(by decide), List.getElem_mem _, rfl, rfl⟩
theorem mfs (f : Fields) : Statement (.mfs f) := ⟨opMap[110]'(by decide), List.getElem_mem _, rfl, rfl⟩
theorem mma (f : Fields) : Statement (.mma f) := ⟨opMap[86]'(by decide), List.getElem_mem _, rfl, rfl⟩
theorem mov (f : Fields) : Statement (.mov f) := ⟨opMap[43]'(by decide), List.getElem_mem _, rfl, rfl⟩
theorem mts (f : Fields) : Statement (.mts f) := ⟨opMap[111]'(by decide), List.getElem_mem _, rfl, rfl⟩
theorem mwait (f : Fields) : Statement (.mwait f) := ⟨opMap[88]'(by decide), List.getElem_mem _, rfl, rfl⟩
theorem nop (f : Fields) : Statement (.nop f) := ⟨opMap[0]'(by decide), List.getElem_mem _, rfl, rfl⟩
theorem not (f : Fields) : Statement (.not f) := ⟨opMap[34]'(by decide), List.getElem_mem _, rfl, rfl⟩
theorem or (f : Fields) : Statement (.or f) := ⟨opMap[31]'(by decide), List.getElem_mem _, rfl, rfl⟩
theorem xor (f : Fields) : Statement (.xor f) := ⟨opMap[32]'(by decide), List.getElem_mem _, rfl, rfl⟩
theorem park (f : Fields) : Statement (.park f) := ⟨opMap[9]'(by decide), List.getElem_mem _, rfl, rfl⟩
theorem pgreq (f : Fields) : Statement (.pgreq f) := ⟨opMap[73]'(by decide), List.getElem_mem _, rfl, rfl⟩
theorem pgreqSplit (f : Fields) : Statement (.pgreqSplit f) := ⟨opMap[74]'(by decide), List.getElem_mem _, rfl, rfl⟩
theorem plop (f : Fields) : Statement (.plop f) := ⟨opMap[47]'(by decide), List.getElem_mem _, rfl, rfl⟩
theorem popc (f : Fields) : Statement (.popc f) := ⟨opMap[40]'(by decide), List.getElem_mem _, rfl, rfl⟩
theorem pref (f : Fields) : Statement (.pref f) := ⟨opMap[72]'(by decide), List.getElem_mem _, rfl, rfl⟩
theorem rcopy (f : Fields) : Statement (.rcopy f) := ⟨opMap[82]'(by decide), List.getElem_mem _, rfl, rfl⟩
theorem red (f : Fields) : Statement (.red f) := ⟨opMap[71]'(by decide), List.getElem_mem _, rfl, rfl⟩
theorem redl (f : Fields) : Statement (.redl f) := ⟨opMap[63]'(by decide), List.getElem_mem _, rfl, rfl⟩
theorem scanl (f : Fields) : Statement (.scanl f) := ⟨opMap[64]'(by decide), List.getElem_mem _, rfl, rfl⟩
theorem ret (f : Fields) : Statement (.ret f) := ⟨opMap[6]'(by decide), List.getElem_mem _, rfl, rfl⟩
theorem rwdsend (f : Fields) : Statement (.rwdsend f) := ⟨opMap[105]'(by decide), List.getElem_mem _, rfl, rfl⟩
theorem rwr (f : Fields) : Statement (.rwr f) := ⟨opMap[99]'(by decide), List.getElem_mem _, rfl, rfl⟩
theorem rwrVec (f : Fields) : Statement (.rwrVec f) := ⟨opMap[100]'(by decide), List.getElem_mem _, rfl, rfl⟩
theorem scatter (f : Fields) : Statement (.scatter f) := ⟨opMap[81]'(by decide), List.getElem_mem _, rfl, rfl⟩
theorem sel (f : Fields) : Statement (.sel f) := ⟨opMap[44]'(by decide), List.getElem_mem _, rfl, rfl⟩
theorem shfl (f : Fields) : Statement (.shfl f) := ⟨opMap[58]'(by decide), List.getElem_mem _, rfl, rfl⟩
theorem slide (f : Fields) : Statement (.slide f) := ⟨opMap[59]'(by decide), List.getElem_mem _, rfl, rfl⟩
theorem swzx (f : Fields) : Statement (.swzx f) := ⟨opMap[60]'(by decide), List.getElem_mem _, rfl, rfl⟩
theorem shl (f : Fields) : Statement (.shl f) := ⟨opMap[35]'(by decide), List.getElem_mem _, rfl, rfl⟩
theorem shr (f : Fields) : Statement (.shr f) := ⟨opMap[36]'(by decide), List.getElem_mem _, rfl, rfl⟩
theorem shra (f : Fields) : Statement (.shra f) := ⟨opMap[37]'(by decide), List.getElem_mem _, rfl, rfl⟩
theorem shrrn (f : Fields) : Statement (.shrrn f) := ⟨opMap[29]'(by decide), List.getElem_mem _, rfl, rfl⟩
theorem st (f : Fields) : Statement (.st f) := ⟨opMap[69]'(by decide), List.getElem_mem _, rfl, rfl⟩
theorem tmark (f : Fields) : Statement (.tmark f) := ⟨opMap[77]'(by decide), List.getElem_mem _, rfl, rfl⟩
theorem trap (f : Fields) : Statement (.trap f) := ⟨opMap[13]'(by decide), List.getElem_mem _, rfl, rfl⟩
theorem tret (f : Fields) : Statement (.tret f) := ⟨opMap[15]'(by decide), List.getElem_mem _, rfl, rfl⟩
theorem twin (f : Fields) : Statement (.twin f) := ⟨opMap[78]'(by decide), List.getElem_mem _, rfl, rfl⟩
theorem vexp (f : Fields) : Statement (.vexp f) := ⟨opMap[67]'(by decide), List.getElem_mem _, rfl, rfl⟩
theorem vshape (f : Fields) : Statement (.vshape f) := ⟨opMap[65]'(by decide), List.getElem_mem _, rfl, rfl⟩
theorem vsqz (f : Fields) : Statement (.vsqz f) := ⟨opMap[66]'(by decide), List.getElem_mem _, rfl, rfl⟩
theorem vote (f : Fields) : Statement (.vote f) := ⟨opMap[62]'(by decide), List.getElem_mem _, rfl, rfl⟩
theorem xfma2 (f : Fields) : Statement (.xfma2 f) := ⟨opMap[57]'(by decide), List.getElem_mem _, rfl, rfl⟩
theorem yield (f : Fields) : Statement (.yield f) := ⟨opMap[8]'(by decide), List.getElem_mem _, rfl, rfl⟩
theorem status (m : MailCmd) : Statement (.status m) := trivial
theorem regctx (m : MailCmd) : Statement (.regctx m) := trivial
theorem regq (m : MailCmd) : Statement (.regq m) := trivial
theorem regmem (m : MailCmd) : Statement (.regmem m) := trivial
theorem regjoin (m : MailCmd) : Statement (.regjoin m) := trivial
theorem regspare (m : MailCmd) : Statement (.regspare m) := trivial
theorem resume (m : MailCmd) : Statement (.resume m) := trivial
theorem destroy (m : MailCmd) : Statement (.destroy m) := trivial
theorem halt (m : MailCmd) : Statement (.halt m) := trivial
theorem ochrerd (m : MailCmd) : Statement (.ochrerd m) := trivial
theorem unfence (m : MailCmd) : Statement (.unfence m) := trivial
theorem counters (m : MailCmd) : Statement (.counters m) := trivial
theorem notifyWrite (queue : Nat) (value : DWord) : Statement (.notifyWrite queue value) := trivial
theorem stepdoneWrite (value : DWord) : Statement (.stepdoneWrite value) := trivial
theorem ckptWrite (value : DWord) : Statement (.ckptWrite value) := trivial
theorem rewardPageWrite (offset : Nat) (bytes : List Byte) : Statement (.rewardPageWrite offset bytes) := trivial
theorem unlistedRegisterWrite (offset : Nat) (bytes : List Byte) : Statement (.unlistedRegisterWrite offset bytes) := trivial
theorem packetAccept (queue : Nat) : Statement (.packetAccept queue) := trivial
theorem launch (queue : Nat) (seq : Word) : Statement (.launch queue seq) := trivial
theorem bundle (queue : Nat) (seq : Word) : Statement (.bundle queue seq) := trivial
theorem inval (queue : Nat) (seq : Word) : Statement (.inval queue seq) := trivial
theorem collProgramStep (prog : Nat) (peers : List (List Byte)) (mismatch : Bool) : Statement (.collProgramStep prog peers mismatch) := trivial
theorem packetComplete (queue : Nat) (seq : Word) : Statement (.packetComplete queue seq) := trivial
theorem workgroupPlacement (die : Nat) : Statement (.workgroupPlacement die) := trivial
theorem reservation (die : Nat) : Statement (.reservation die) := trivial
theorem preemptionSave (wg : Nat) : Statement (.preemptionSave wg) := trivial
theorem preemptionTimeout (wg : Nat) : Statement (.preemptionTimeout wg) := trivial
theorem workgroupRestore (saved : Nat) : Statement (.workgroupRestore saved) := trivial
theorem continuationResume (die : Nat) : Statement (.continuationResume die) := trivial
theorem rwrLanding (sender : Nat) : Statement (.rwrLanding sender) := trivial
theorem bankGrant (core : Nat) : Statement (.bankGrant core) := trivial
theorem bankReturn (core : Nat) (bank : Nat) : Statement (.bankReturn core bank) := trivial
theorem matrixStep (core : Nat) : Statement (.matrixStep core) := trivial
theorem jobComplete (job : Nat) : Statement (.jobComplete job) := trivial
theorem jobResume (job : Nat) : Statement (.jobResume job) := trivial
theorem pageMakeResident (ctx : BitVec 16) (va : Nat) : Statement (.pageMakeResident ctx va) := trivial
theorem pagePinExpiry (ctx : BitVec 16) (va : Nat) : Statement (.pagePinExpiry ctx va) := trivial
theorem combiningFlush (core : Nat) : Statement (.combiningFlush core) := trivial
theorem starvationQualify (cid : Nat) : Statement (.starvationQualify cid) := trivial
theorem yieldExpiry (cid : Nat) : Statement (.yieldExpiry cid) := trivial
theorem readPin (core : Nat) (slot : Nat) (bank : Nat) (cid : Nat) (losses : Nat) : Statement (.readPin core slot bank cid losses) := trivial
theorem collectiveStart (coll : Nat) : Statement (.collectiveStart coll) := trivial
theorem collectiveComplete (coll : Nat) (peers : List (List Byte)) (mismatch : Bool) : Statement (.collectiveComplete coll peers mismatch) := trivial
theorem pullRequest (src : Sender) (gen : Word) (txid : BitVec 16) (core : Nat) (line : Nat) : Statement (.pullRequest src gen txid core line) := trivial
theorem pullLineRead (pull : Nat) : Statement (.pullLineRead pull) := trivial
theorem pullResponse (txid : TxId) (refused : Bool) (data : Line) : Statement (.pullResponse txid refused data) := trivial
theorem pullReissue (txid : TxId) : Statement (.pullReissue txid) := trivial
theorem flitReceive (port : Nat) (flit : BitVec 2048) : Statement (.flitReceive port flit) := trivial
theorem portFail (port : Nat) (linkLoss : Bool) : Statement (.portFail port linkLoss) := trivial
theorem heldPacketTimeout (port : Nat) : Statement (.heldPacketTimeout port) := trivial
theorem podBarrierArrive (p : PodPkt) : Statement (.podBarrierArrive p) := trivial
theorem podBarrierComplete (p : PodPkt) : Statement (.podBarrierComplete p) := trivial
theorem podBarrierResend (cid : Nat) : Statement (.podBarrierResend cid) := trivial
theorem heartbeatSend (peer : Nat) : Statement (.heartbeatSend peer) := trivial
theorem heartbeatReceive (h : Heartbeat) : Statement (.heartbeatReceive h) := trivial
theorem heartbeatMiss (peer : Nat) : Statement (.heartbeatMiss peer) := trivial
theorem suspect (m : MemMsg) : Statement (.suspect m) := trivial
theorem withdraw (m : MemMsg) : Statement (.withdraw m) := trivial
theorem prepare (m : MemMsg) : Statement (.prepare m) := trivial
theorem promise (m : MemMsg) : Statement (.promise m) := trivial
theorem propose (m : MemMsg) : Statement (.propose m) := trivial
theorem accept (m : MemMsg) : Statement (.accept m) := trivial
theorem proposalRetry : Statement (.proposalRetry) := trivial
theorem commit (m : MemMsg) : Statement (.commit m) := trivial
theorem joined (m : MemMsg) : Statement (.joined m) := trivial
theorem sealStep (step : Word) : Statement (.sealStep step) := trivial
theorem cloneRequest (src : Sender) (gen : Word) (txid : BitVec 16) (stripe : Nat) (step : Word) (fingerprint : Bool) : Statement (.cloneRequest src gen txid stripe step fingerprint) := trivial
theorem cloneResponse (src : BitVec 20) (stripe : Nat) (reason : BitVec 8) (fingerprint : Option DWord) (data : List Byte) : Statement (.cloneResponse src stripe reason fingerprint data) := trivial
theorem rewardMessage (die : Nat) (fromPort : Bool) (m : RewardMsg) : Statement (.rewardMessage die fromPort m) := trivial
theorem rewardAcknowledgement (txid : TxId) : Statement (.rewardAcknowledgement txid) := trivial
theorem rewardUnacknowledged (txid : TxId) : Statement (.rewardUnacknowledged txid) := trivial
theorem rewardHoldTimeout (die : Nat) : Statement (.rewardHoldTimeout die) := trivial
theorem orphanTimeout (die : Nat) : Statement (.orphanTimeout die) := trivial
theorem joinTimeout (die : Nat) (entry : Nat) : Statement (.joinTimeout die entry) := trivial
theorem episodeRelease (die : Nat) : Statement (.episodeRelease die) := trivial
theorem cohortStop (cid : Nat) : Statement (.cohortStop cid) := trivial
theorem engineStop (ctx : BitVec 16) : Statement (.engineStop ctx) := trivial
theorem stopAreaWrite (ctx : BitVec 16) : Statement (.stopAreaWrite ctx) := trivial
theorem indigoWindowCompare (cid : Nat) : Statement (.indigoWindowCompare cid) := trivial
theorem replayRateFence (unit : BitVec 16) : Statement (.replayRateFence unit) := trivial
theorem ochreTest (unit : BitVec 16) : Statement (.ochreTest unit) := trivial
theorem ochreTestComplete (unit : BitVec 16) (pass : Bool) (workArrived : Bool) : Statement (.ochreTestComplete unit pass workArrived) := trivial
theorem wayDisable (die : Nat) (slice : Nat) (set : Nat) (way : Nat) : Statement (.wayDisable die slice set way) := trivial
theorem firmwareCoreError (die : Nat) (core : Nat) (testPass : Bool) : Statement (.firmwareCoreError die core testPass) := trivial
theorem firmwareEvent (die : Nat) : Statement (.firmwareEvent die) := trivial
theorem frontEndReset (die : Nat) : Statement (.frontEndReset die) := trivial
theorem thermalThrottle (die : Nat) (tempC : Nat) : Statement (.thermalThrottle die tempC) := trivial
theorem throttleEnd (die : Nat) (tempC : Nat) : Statement (.throttleEnd die tempC) := trivial
theorem overTemperatureShutdown (die : Nat) (tempC : Nat) : Statement (.overTemperatureShutdown die tempC) := trivial
theorem telemetryReport (powerW inletC outletC junctionC : Nat) : Statement (.telemetryReport powerW inletC outletC junctionC) := trivial
theorem moduleReset (b : BootInfo) : Statement (.moduleReset b) := trivial
theorem lineLands (job : Nat) : Statement (.lineLands job) := trivial
theorem cxlMemAccess (pa : Nat) (size : Nat) (write : Option (List Byte)) : Statement (.cxlMemAccess pa size write) := trivial
theorem cxlCacheSnoop (lineAddr : Nat) (write : Option Line) : Statement (.cxlCacheSnoop lineAddr write) := trivial
theorem spdmRequest (code : Byte) (block : Nat) : Statement (.spdmRequest code block) := trivial
theorem rankTableRegistration (t : RankTable) : Statement (.rankTableRegistration t) := trivial
theorem routingTableWrite (die : Nat) (faddr : BitVec 20) (port : Nat) : Statement (.routingTableWrite die faddr port) := trivial

end Sys2Proof.Laws.HasRow
end

