-- ==== Sys2Proof/Tests/Slice0.lean ====
section
/-!
SUPPORT. Tests/Slice0.lean: ill-formed terms that WellFormed refuses, words of every family written out from the manual's encodings, and for each
statement of Certificates/Slice0/Obligations.lean a concrete state and operands that meet its hypotheses.
-/

namespace Sys2Proof.Tests

open Sys2Proof Sys2Proof.Machine

set_option Elab.async false

/-! ### Well-formedness: a term that each check of R323 refuses, beside one that it accepts -/

theorem test_check4_typ : Instr.wf (.imul { Fields.bare with typ := .f32, od := .v 1, oa := .v 2, ob := .v 3 }) = false ∧
    Instr.wf (.imul { Fields.bare with typ := .s32, od := .v 1, oa := .v 2, ob := .v 3 }) = true := by decide

theorem test_check5_class : Instr.wf (.lea { Fields.bare with od := .v 1, oa := .v 2, ob := .v 3, oc := .v 4 }) = false ∧
    Instr.wf (.lea { Fields.bare with od := .v 1, oa := .v 2, ob := .v 3, oc := .imm 4 }) = true := by decide

theorem test_check6_index : decodeFor 64 (wordOf 0x07700030 0x00400001 0xE0000003 0x0000E000 0) = .error ⟨1, 5, 1⟩ ∧
    Instr.wf (.copy { Fields.bare with od := .t 3, oa := .pair 20, ob := .v 252, oc := .pair 22 }) = false ∧
    Instr.wf (.copy { Fields.bare with od := .t 3, oa := .pair 20, ob := .v 251, oc := .pair 22 }) = true := ⟨rfl, by decide, by decide⟩

theorem test_check7_pair : Instr.wf (.ret { Fields.bare with oa := .pair 7 }) = false ∧ Instr.wf (.ret { Fields.bare with oa := .pair 6 }) = true := by decide

theorem test_check8_special : Instr.wf (.mts { Fields.bare with od := .s 0x13, oa := .v 1 }) = false ∧
    Instr.wf (.mfs { Fields.bare with od := .v 10, oa := .s 0x10 }) = false ∧
    Instr.wf (.mfs { Fields.bare with od := .v 10, oa := .s 0x17 }) = true := by decide

theorem test_check9_reserved : Instr.wf (.rwdsend { Fields.bare with oa := .pair 20, ob := .v 14, oc := .v 15, imm := 2 }) = false ∧
    Instr.wf (.cvt { Fields.bare with sub := 4, typ := .f32, od := .v 1, oa := .v 2, ob := .imm 2 }) = false ∧
    Instr.wf (.cvt { Fields.bare with sub := 4, typ := .f32, od := .v 1, oa := .v 2, ob := .imm 1 }) = true := by decide

theorem test_check10_unused : Instr.wf (.nop { Fields.bare with imm := 1 }) = false ∧
    Instr.wf (.gate { Fields.bare with ga := ⟨false, 0⟩ }) = false ∧
    Instr.wf (.pref { Fields.bare with oa := .v 1, hint := 8 }) = false ∧ Instr.wf (.pref { Fields.bare with oa := .v 1, hint := 4 }) = true := by decide

theorem test_check11_rounding : Instr.wf (.frnd { Fields.bare with typ := .f32, rnd := .sr, od := .v 1, oa := .v 2 }) = false ∧
    Instr.wf (.frnd { Fields.bare with typ := .f32, rnd := .rna, od := .v 1, oa := .v 2 }) = true := by decide

theorem test_check12_order : Instr.wf (.ld { Fields.bare with od := .v 1, oa := .v 2, ord := .release }) = false ∧
    Instr.wf (.ld { Fields.bare with od := .v 1, oa := .v 2, scp := .die }) = false ∧
    Instr.wf (.atom { Fields.bare with oa := .v 2, oc := .v 1, scp := .die }) = true := by decide

theorem test_check13_sat : Instr.wf (.imulh { Fields.bare with sat := true, od := .v 1, oa := .v 2, ob := .v 3 }) = false ∧
    Instr.wf (.imulh { Fields.bare with od := .v 1, oa := .v 2, ob := .v 3 }) = true := by decide

theorem test_check14_limits : Instr.wf (.swzx { Fields.bare with od := .v 1, oa := .v 2, imm := 0x1000002 }) = false ∧
    Instr.wf (.lea { Fields.bare with od := .v 1, oa := .v 2, ob := .v 3, oc := .imm 32 }) = false ∧
    Instr.wf (.gather { Fields.bare with od := .t 3, oa := .pair 20, ob := .v 8, oc := .pair 22, oe := .pair 24 }) = false ∧
    Instr.wf (.gather { Fields.bare with od := .t 3, oa := .pair 20, ob := .v 8, oc := .pair 22, oe := .pair 24, imm := 4096 }) = true := by decide

/-! ### Words of every family -/

/-- The words of the control family, written out from the field layout and the opcode map (R325, R364, R355, R403, R422, R435, R381, R455, R424, R392, R410, R341, R449, R353, R450; fields R314, R315). -/
theorem test_words_control :
    decode (wordOf 0x07700001 0xE000E000 0xE000E000 0x0200E000 0x0) = .ok (.nop { Fields.bare with yl := true }) ∧
    decode (wordOf 0x07700002 0x2001E000 0xE000E000 0x0000E000 0x1E000A) = .ok (.bra { Fields.bare with oa := .p 1, imm := 0x1E000A }) ∧
    decode (wordOf 0x07700003 0xE000E000 0xE000E000 0x0000E000 0x15) = .ok (.jmp { Fields.bare with imm := 0x15 }) ∧
    decode (wordOf 0x07700103 0x000CE000 0xE000E000 0x0000E000 0x0) = .ok (.jmpInd { Fields.bare with sub := 1, oa := .v 12 }) ∧
    decode (wordOf 0x07700004 0xE000C028 0xE000E000 0x0000E000 0x12C) = .ok (.call { Fields.bare with od := .pair 40, imm := 0x12C }) ∧
    decode (wordOf 0x07700104 0x000CC028 0xE000E000 0x0000E000 0x0) = .ok (.callInd { Fields.bare with sub := 1, od := .pair 40, oa := .v 12 }) ∧
    decode (wordOf 0x07700005 0xC028E000 0xE000E000 0x0000E000 0x0) = .ok (.ret { Fields.bare with oa := .pair 40 }) ∧
    decode (wordOf 0x07700006 0xC010E000 0xE000E000 0x0000E000 0x0) = .ok (.exit { Fields.bare with oa := .pair 16 }) ∧
    decode (wordOf 0x07700007 0xE000E000 0xE000E000 0x0000E000 0x0) = .ok (.yield Fields.bare) ∧
    decode (wordOf 0x07700008 0x00090003 0x0014000A 0x0000E000 0x204) = .ok (.park { Fields.bare with od := .v 3, oa := .v 9, ob := .v 10, oc := .v 20, imm := 0x204 }) ∧
    decode (wordOf 0x07700009 0xE000E000 0xE000E000 0x0000E000 0x0) = .ok (.gate Fields.bare) ∧
    decode (wordOf 0x0770000A 0xE000E000 0xE000E000 0x0000E000 0x0) = .ok (.lrel Fields.bare) ∧
    decode (wordOf 0x0770000B 0x2002E000 0xE000C006 0x0000E000 0x0) = .ok (.assert { Fields.bare with oa := .p 2, ob := .pair 6 }) ∧
    decode (wordOf 0x0770000C 0x8007E000 0xE000E000 0x0000E000 0x0) = .ok (.trap { Fields.bare with oa := .imm 0x7 }) ∧
    decode (wordOf 0x0770000D 0xA000E000 0xE000E000 0x0000E000 0xDEADBEEF) = .ok (.bkpt { Fields.bare with oa := .imm32, imm := 0xDEADBEEF }) ∧
    decode (wordOf 0x0770000E 0x8035E000 0xE000E000 0x0000E000 0x0) = .ok (.tret { Fields.bare with oa := .imm 0x35 })
    := ⟨rfl, rfl, rfl, rfl, rfl, rfl, rfl, rfl, rfl, rfl, rfl, rfl, rfl, rfl, rfl, rfl⟩

/-- The words of the integer family, written out from the field layout and the opcode map (R325, R388 to R402, R445; fields R314, R315). -/
theorem test_words_integer :
    decode (wordOf 0x0B281020 0x00060005 0xE0008064 0x0000E000 0x0) = .ok (.iadd { Fields.bare with typ := .s32, sat := true, ga := ⟨false, 2⟩, gb := ⟨true, 3⟩, od := .v 5, oa := .v 6, ob := .imm 0x64 }) ∧
    decode (wordOf 0x07701121 0xC006C004 0xE0009FFF 0x0000E000 0x0) = .ok (.isub { Fields.bare with sub := 1, typ := .s32, od := .pair 4, oa := .pair 6, ob := .imm 0x1FFF }) ∧
    decode (wordOf 0x07700022 0x00020001 0xE0000003 0x0000E000 0x0) = .ok (.imul { Fields.bare with od := .v 1, oa := .v 2, ob := .v 3 }) ∧
    decode (wordOf 0x07701023 0x60000001 0xE0000003 0x0000E000 0x0) = .ok (.imulh { Fields.bare with typ := .s32, od := .v 1, oa := .s 0x00, ob := .v 3 }) ∧
    decode (wordOf 0x07700124 0x0004C002 0xC0060005 0x0000E000 0x0) = .ok (.imad { Fields.bare with sub := 1, od := .pair 2, oa := .v 4, ob := .v 5, oc := .pair 6 }) ∧
    decode (wordOf 0x0778A025 0x00020001 0xE000E000 0x0000E000 0x0) = .ok (.iabs { Fields.bare with typ := .s8x4, sat := true, od := .v 1, oa := .v 2 }) ∧
    decode (wordOf 0x07709026 0x00020001 0xE000A000 0x0000E000 0x10002) = .ok (.imin { Fields.bare with typ := .u16x2, od := .v 1, oa := .v 2, ob := .imm32, imm := 0x10002 }) ∧
    decode (wordOf 0x0770B027 0x00020001 0xE0000003 0x0000E000 0x0) = .ok (.imax { Fields.bare with typ := .u8x4, od := .v 1, oa := .v 2, ob := .v 3 }) ∧
    decode (wordOf 0x07701028 0x00020001 0x80090003 0x0000E000 0x0) = .ok (.iaddmin { Fields.bare with typ := .s32, od := .v 1, oa := .v 2, ob := .v 3, oc := .imm 0x9 }) ∧
    decode (wordOf 0x07701529 0x00022003 0xE0000003 0x0000E000 0x0) = .ok (.icmp { Fields.bare with sub := 5, typ := .s32, od := .p 3, oa := .v 2, ob := .v 3 }) ∧
    decode (wordOf 0x0770012A 0xC004C002 0x803F0006 0x0000E000 0x0) = .ok (.lea { Fields.bare with sub := 1, od := .pair 2, oa := .pair 4, ob := .v 6, oc := .imm 0x3F }) ∧
    decode (wordOf 0x0770802B 0x00020001 0x00040003 0x0000E000 0x0) = .ok (.idp2 { Fields.bare with typ := .s16x2, od := .v 1, oa := .v 2, ob := .v 3, oc := .v 4 }) ∧
    decode (wordOf 0x0778A02C 0x00020001 0x00040003 0x0000E000 0x0) = .ok (.idp4 { Fields.bare with typ := .s8x4, sat := true, od := .v 1, oa := .v 2, ob := .v 3, oc := .v 4 }) ∧
    decode (wordOf 0x0770802D 0x00020001 0xE0008004 0x0000E000 0x0) = .ok (.shrrn { Fields.bare with typ := .s16x2, od := .v 1, oa := .v 2, ob := .imm 0x4 })
    := ⟨rfl, rfl, rfl, rfl, rfl, rfl, rfl, rfl, rfl, rfl, rfl, rfl, rfl, rfl⟩

/-- The words of the logic family, written out from the field layout and the opcode map (R325, R338, R339, R423, R351, R352, R357, R369, R429, R444; fields R314, R315). -/
theorem test_words_logic :
    decode (wordOf 0x07700030 0x00020001 0xE0000003 0x0000E000 0x0) = .ok (.and { Fields.bare with od := .v 1, oa := .v 2, ob := .v 3 }) ∧
    decode (wordOf 0x07700031 0x00020001 0xE0000003 0x0000E000 0x0) = .ok (.or { Fields.bare with od := .v 1, oa := .v 2, ob := .v 3 }) ∧
    decode (wordOf 0x07700032 0x00020001 0xE0000003 0x0000E000 0x0) = .ok (.xor { Fields.bare with od := .v 1, oa := .v 2, ob := .v 3 }) ∧
    decode (wordOf 0x07700033 0x00020001 0xE0000003 0x0000E000 0x0) = .ok (.andn { Fields.bare with od := .v 1, oa := .v 2, ob := .v 3 }) ∧
    decode (wordOf 0x07700034 0x00020001 0xE000E000 0x0000E000 0x0) = .ok (.not { Fields.bare with od := .v 1, oa := .v 2 }) ∧
    decode (wordOf 0x07780035 0x00020001 0xE000801F 0x0000E000 0x0) = .ok (.shl { Fields.bare with sat := true, od := .v 1, oa := .v 2, ob := .imm 0x1F }) ∧
    decode (wordOf 0x07700136 0xC004C002 0xE0000003 0x0000E000 0x0) = .ok (.shr { Fields.bare with sub := 1, od := .pair 2, oa := .pair 4, ob := .v 3 }) ∧
    decode (wordOf 0x07701037 0x00020001 0xE000801F 0x0000E000 0x0) = .ok (.shra { Fields.bare with typ := .s32, od := .v 1, oa := .v 2, ob := .imm 0x1F }) ∧
    decode (wordOf 0x07701038 0x00020001 0x80088004 0x0000E000 0x0) = .ok (.bfx { Fields.bare with typ := .s32, od := .v 1, oa := .v 2, ob := .imm 0x4, oc := .imm 0x8 }) ∧
    decode (wordOf 0x07700039 0x00020001 0x80040003 0x00008008 0x0) = .ok (.bfi { Fields.bare with od := .v 1, oa := .v 2, ob := .v 3, oc := .imm 0x4, oe := .imm 0x8 }) ∧
    decode (wordOf 0x0770003A 0x00020001 0xE000E000 0x0000E000 0x0) = .ok (.popc { Fields.bare with od := .v 1, oa := .v 2 }) ∧
    decode (wordOf 0x0770003B 0x00020001 0xE000E000 0x0000E000 0x0) = .ok (.clz { Fields.bare with od := .v 1, oa := .v 2 }) ∧
    decode (wordOf 0x0770003C 0x00FE00FF 0xE000E000 0x0000E000 0x0) = .ok (.brev { Fields.bare with od := .v 255, oa := .v 254 })
    := ⟨rfl, rfl, rfl, rfl, rfl, rfl, rfl, rfl, rfl, rfl, rfl, rfl, rfl⟩

/-- The words of the moves family, written out from the field layout and the opcode map (R325, R416, R440, R372, R373, R428; fields R314, R315). -/
theorem test_words_moves :
    decode (wordOf 0x07700140 0xA000C0FE 0xE000E000 0x0000E000 0xFFFFFFFF) = .ok (.mov { Fields.bare with sub := 1, od := .pair 254, oa := .imm32, imm := 0xFFFFFFFF }) ∧
    decode (wordOf 0x0770F041 0x00020001 0x20060003 0x0000E000 0x0) = .ok (.sel { Fields.bare with typ := .mxs8, od := .v 1, oa := .v 2, ob := .v 3, oc := .p 6 }) ∧
    decode (wordOf 0x07711242 0x00040003 0xE000E000 0x0000E000 0x0) = .ok (.cvt { Fields.bare with sub := 2, typ := .s32, rnd := .rz, od := .v 3, oa := .v 4 }) ∧
    decode (wordOf 0x077D5143 0x00020001 0xE0000003 0x0000E000 0x0) = .ok (.cvtpk { Fields.bare with sub := 1, typ := .e4m3, rnd := .sr, sat := true, od := .v 1, oa := .v 2, ob := .v 3 }) ∧
    decode (wordOf 0x07700444 0x00022000 0xE000E000 0x0000E000 0x0) = .ok (.plop { Fields.bare with sub := 4, od := .p 0, oa := .v 2 })
    := ⟨rfl, rfl, rfl, rfl, rfl⟩

/-- The words of the floating point family, written out from the field layout and the opcode map (R325, R363, R374, R383, R384, R386, R387, R454; fields R314, R315). -/
theorem test_words_floating_point :
    decode (wordOf 0x07742050 0x00020001 0xE0000003 0x0000E000 0x0) = .ok (.fadd { Fields.bare with typ := .f32, rnd := .rna, od := .v 1, oa := .v 2, ob := .v 3 }) ∧
    decode (wordOf 0x07703051 0x00020001 0xE0000003 0x0000E000 0x0) = .ok (.fsub { Fields.bare with typ := .bf16, od := .v 1, oa := .v 2, ob := .v 3 }) ∧
    decode (wordOf 0x07724052 0x00020001 0xE0000003 0x0000E000 0x0) = .ok (.fmul { Fields.bare with typ := .f16, rnd := .rd, od := .v 1, oa := .v 2, ob := .v 3 }) ∧
    decode (wordOf 0x07752053 0x00020001 0x00040003 0x0000E000 0x0) = .ok (.ffma { Fields.bare with typ := .f32, rnd := .sr, od := .v 1, oa := .v 2, ob := .v 3, oc := .v 4 }) ∧
    decode (wordOf 0x07704054 0x00020001 0xE0000003 0x0000E000 0x0) = .ok (.fmin { Fields.bare with typ := .f16, od := .v 1, oa := .v 2, ob := .v 3 }) ∧
    decode (wordOf 0x07702055 0x00020001 0xE0000003 0x0000E000 0x0) = .ok (.fmax { Fields.bare with typ := .f32, od := .v 1, oa := .v 2, ob := .v 3 }) ∧
    decode (wordOf 0x07702756 0x00020001 0xE0000003 0x0000E000 0x0) = .ok (.fcmp { Fields.bare with sub := 7, typ := .f32, od := .v 1, oa := .v 2, ob := .v 3 }) ∧
    decode (wordOf 0x07732057 0x00020001 0xE000E000 0x0000E000 0x0) = .ok (.frnd { Fields.bare with typ := .f32, rnd := .ru, od := .v 1, oa := .v 2 }) ∧
    decode (wordOf 0x07702658 0x00020001 0xE000E000 0x0080E000 0x0) = .ok (.fsfn { Fields.bare with sub := 6, typ := .f32, od := .v 1, oa := .v 2, la := 8 }) ∧
    decode (wordOf 0x07703059 0x00020001 0x00040003 0x0000E000 0x0) = .ok (.xfma2 { Fields.bare with typ := .bf16, od := .v 1, oa := .v 2, ob := .v 3, oc := .v 4 })
    := ⟨rfl, rfl, rfl, rfl, rfl, rfl, rfl, rfl, rfl, rfl⟩

/-- The words of the cross lane family, written out from the field layout and the opcode map (R325, R441, R442, R350, R453, R434, R452; fields R314, R315). -/
theorem test_words_cross_lane :
    decode (wordOf 0x07700170 0x00020001 0xE0008003 0x0000E000 0x0) = .ok (.shfl { Fields.bare with sub := 1, od := .v 1, oa := .v 2, ob := .imm 0x3 }) ∧
    decode (wordOf 0x07700071 0x00020001 0x00048003 0x0000E000 0x0) = .ok (.slide { Fields.bare with od := .v 1, oa := .v 2, ob := .imm 0x3, oc := .v 4 }) ∧
    decode (wordOf 0x07700072 0x00020001 0xE000E000 0x0000E000 0x1000001) = .ok (.swzx { Fields.bare with od := .v 1, oa := .v 2, imm := 0x1000001 }) ∧
    decode (wordOf 0x07700073 0x00020001 0xE000803F 0x0000E000 0x0) = .ok (.bcast { Fields.bare with od := .v 1, oa := .v 2, ob := .imm 0x3F }) ∧
    decode (wordOf 0x07700274 0x2000C002 0xE000E000 0x0000E000 0x0) = .ok (.vote { Fields.bare with sub := 2, od := .pair 2, oa := .p 0 }) ∧
    decode (wordOf 0x07702275 0x00020001 0xE000E000 0x0000E000 0x0) = .ok (.redl { Fields.bare with sub := 2, typ := .f32, od := .v 1, oa := .v 2 }) ∧
    decode (wordOf 0x07701376 0x00020001 0xE000E000 0x0000E000 0x0) = .ok (.scanl { Fields.bare with sub := 3, typ := .s32, od := .v 1, oa := .v 2 }) ∧
    decode (wordOf 0x07700078 0x00020001 0xE000E000 0x0000E000 0x0) = .ok (.vshape { Fields.bare with od := .v 1, oa := .v 2 }) ∧
    decode (wordOf 0x07700079 0x00020001 0xE000E000 0x0000E000 0x0) = .ok (.vsqz { Fields.bare with od := .v 1, oa := .v 2 }) ∧
    decode (wordOf 0x0770007A 0x00020001 0xE000E000 0x0000E000 0x0) = .ok (.vexp { Fields.bare with od := .v 1, oa := .v 2 })
    := ⟨rfl, rfl, rfl, rfl, rfl, rfl, rfl, rfl, rfl, rfl⟩

/-- The words of the memory family, written out from the field layout and the opcode map (R325, R404, R446, R342, R433, R430, R426, R366, R385, R448, R451; fields R314, R315). -/
theorem test_words_memory :
    decode (wordOf 0x07700080 0x000A0004 0xE0008040 0x30282002 0x0) = .ok (.ld { Fields.bare with od := .v 4, oa := .v 10, ob := .imm 0x40, oe := .p 2, hint := 8, la := 2, scp := .pkg, ord := .acquire }) ∧
    decode (wordOf 0x07700081 0x000BE000 0x0001E000 0x5000E000 0x0) = .ok (.st { Fields.bare with oa := .v 11, oc := .v 1, scp := .pkg, ord := .release }) ∧
    decode (wordOf 0x07700782 0x000A0005 0xC0068008 0x0C102002 0x0) = .ok (.atom { Fields.bare with sub := 7, od := .v 5, oa := .v 10, ob := .imm 0x8, oc := .pair 6, oe := .p 2, la := 1, scp := .die }) ∧
    decode (wordOf 0x07702883 0xC00AE000 0x0006A000 0x0000E000 0x1000) = .ok (.red { Fields.bare with sub := 8, typ := .f32, oa := .pair 10, ob := .imm32, oc := .v 6, imm := 0x1000 }) ∧
    decode (wordOf 0x07700084 0xC00AE000 0xE000E000 0x00072001 0x0) = .ok (.pref { Fields.bare with oa := .pair 10, oe := .p 1, hint := 7 }) ∧
    decode (wordOf 0x07700085 0xC00A2001 0xE000E000 0x0000E000 0x0) = .ok (.pgreq { Fields.bare with od := .p 1, oa := .pair 10 }) ∧
    decode (wordOf 0x07700185 0xC00A0009 0xE0008040 0x0000E000 0x0) = .ok (.pgreqSplit { Fields.bare with sub := 1, od := .v 9, oa := .pair 10, ob := .imm 0x40 }) ∧
    decode (wordOf 0x07700186 0xC008E000 0xE0000003 0x1400E000 0x0) = .ok (.cctl { Fields.bare with sub := 1, oa := .pair 8, ob := .v 3, scp := .pod }) ∧
    decode (wordOf 0x07700087 0xE000E000 0xE000E000 0x7000E000 0x0) = .ok (.fence { Fields.bare with scp := .pkg, ord := .acqRel }) ∧
    decode (wordOf 0x07700188 0x4003E000 0x80208000 0x0000E000 0x0) = .ok (.tmark { Fields.bare with sub := 1, oa := .t 3, ob := .imm 0x0, oc := .imm 0x20 }) ∧
    decode (wordOf 0x07700089 0xA0004003 0xE000E000 0x0000E000 0xFE040) = .ok (.twin { Fields.bare with od := .t 3, oa := .imm32, imm := 0xFE040 })
    := ⟨rfl, rfl, rfl, rfl, rfl, rfl, rfl, rfl, rfl, rfl, rfl⟩

/-- The words of the engines family, written out from the field layout and the opcode map (R325, R371, R393, R439, R431, R370, R375, R413, R411, R419, R335, R337, R378, R354, R358; fields R314, R315). -/
theorem test_words_engines :
    decode (wordOf 0x077000A0 0xC0144003 0xC0160008 0x1000E000 0x0) = .ok (.copy { Fields.bare with od := .t 3, oa := .pair 20, ob := .v 8, oc := .pair 22, scp := .pkg }) ∧
    decode (wordOf 0x077000A1 0xC0144003 0xC0160008 0x0C00C018 0x3) = .ok (.gather { Fields.bare with od := .t 3, oa := .pair 20, ob := .v 8, oc := .pair 22, oe := .pair 24, scp := .die, imm := 0x3 }) ∧
    decode (wordOf 0x077000A2 0xC0144003 0xC0160008 0x0C00C018 0x1000) = .ok (.scatter { Fields.bare with od := .t 3, oa := .pair 20, ob := .v 8, oc := .pair 22, oe := .pair 24, scp := .die, imm := 0x1000 }) ∧
    decode (wordOf 0x077000A3 0x00064005 0xC0160007 0x1400E000 0xE400) = .ok (.rcopy { Fields.bare with od := .t 5, oa := .v 6, ob := .v 7, oc := .pair 22, scp := .pod, imm := 0xE400 }) ∧
    decode (wordOf 0x077020A4 0xC01E4004 0xE000E000 0x0000E000 0x4) = .ok (.coll { Fields.bare with typ := .f32, od := .t 4, oa := .pair 30, imm := 0x4 }) ∧
    decode (wordOf 0x077000A5 0xC016E000 0xE0008004 0x0C00E000 0x0) = .ok (.cwait { Fields.bare with oa := .pair 22, ob := .imm 0x4, scp := .die }) ∧
    decode (wordOf 0x077001A5 0xC0160009 0xE0008004 0x1010E000 0x0) = .ok (.cwaitSplit { Fields.bare with sub := 1, od := .v 9, oa := .pair 22, ob := .imm 0x4, la := 1, scp := .pkg }) ∧
    decode (wordOf 0x077030A8 0xC014C008 0x80054003 0x0140E000 0x0) = .ok (.mma { Fields.bare with typ := .bf16, od := .pair 8, oa := .pair 20, ob := .t 3, oc := .imm 0x5, la := 4, ru := true }) ∧
    decode (wordOf 0x077000A9 0xE0000009 0xE000E000 0x0000E000 0x0) = .ok (.mbatch { Fields.bare with od := .v 9 }) ∧
    decode (wordOf 0x077000AA 0x0009E000 0xE000E000 0x0000E000 0x0) = .ok (.mwait { Fields.bare with oa := .v 9 }) ∧
    decode (wordOf 0x077000AB 0x80040008 0xE000E000 0x0000E000 0x0) = .ok (.accalloc { Fields.bare with od := .v 8, oa := .imm 0x4 }) ∧
    decode (wordOf 0x077000AC 0x0008E000 0xE000E000 0x0000E000 0x0) = .ok (.accfree { Fields.bare with oa := .v 8 }) ∧
    decode (wordOf 0x077031AD 0xC0084006 0xE0000002 0x1000C016 0x0) = .ok (.epi { Fields.bare with sub := 1, typ := .bf16, od := .t 6, oa := .pair 8, ob := .v 2, oe := .pair 22, scp := .pkg }) ∧
    decode (wordOf 0x077122AD 0xC008C014 0x001E0002 0x1000C016 0x0) = .ok (.epiRec { Fields.bare with sub := 2, typ := .f32, rnd := .rz, od := .pair 20, oa := .pair 8, ob := .v 2, oc := .v 30, oe := .pair 22, scp := .pkg }) ∧
    decode (wordOf 0x077000AE 0xE000E000 0xE000E000 0x0000E000 0x0) = .ok (.btake Fields.bare) ∧
    decode (wordOf 0x077000AF 0xE000E000 0xE000E000 0x0000E000 0x0) = .ok (.bpass Fields.bare)
    := ⟨rfl, rfl, rfl, rfl, rfl, rfl, rfl, rfl, rfl, rfl, rfl, rfl, rfl, rfl, rfl, rfl⟩

/-- The words of the sync family, written out from the field layout and the opcode map (R325, R346, R349, R340, R360, R437, R345, R368, R377, R379, R436, R408, R409; fields R314, R315). -/
theorem test_words_sync :
    decode (wordOf 0x077000C0 0xE0002003 0xE000E000 0x0C00E000 0x0) = .ok (.bar { Fields.bare with od := .p 3, scp := .die }) ∧
    decode (wordOf 0x077000C1 0xC00AE000 0xE0008004 0x1000E000 0x0) = .ok (.barinit { Fields.bare with oa := .pair 10, ob := .imm 0x4, scp := .pkg }) ∧
    decode (wordOf 0x077000C2 0xC00A0005 0xE000E000 0x0000E000 0x0) = .ok (.arrive { Fields.bare with od := .v 5, oa := .pair 10 }) ∧
    decode (wordOf 0x077000C3 0xC00A2001 0xE0000005 0x0000E000 0x0) = .ok (.bwait { Fields.bare with od := .p 1, oa := .pair 10, ob := .v 5 }) ∧
    decode (wordOf 0x077000C4 0x00070005 0x80008002 0x0000E000 0x0) = .ok (.rwr { Fields.bare with od := .v 5, oa := .v 7, ob := .imm 0x2, oc := .imm 0x0 }) ∧
    decode (wordOf 0x077001C4 0x00070005 0x00088003 0x0000E000 0x0) = .ok (.rwrVec { Fields.bare with sub := 1, od := .v 5, oa := .v 7, ob := .imm 0x3, oc := .v 8 }) ∧
    decode (wordOf 0x077000C5 0x0003E000 0xE000E000 0x0000E000 0x0) = .ok (.awaitc { Fields.bare with oa := .v 3 }) ∧
    decode (wordOf 0x077000C6 0x00042003 0xE000E000 0x0000E000 0x0) = .ok (.cfence { Fields.bare with od := .p 3, oa := .v 4 }) ∧
    decode (wordOf 0x077000D0 0xC0142002 0xE0000008 0x0000E000 0x0) = .ok (.epapp { Fields.bare with od := .p 2, oa := .pair 20, ob := .v 8 }) ∧
    decode (wordOf 0x077000D1 0xC0142002 0x80000008 0x00002004 0x0) = .ok (.epend { Fields.bare with od := .p 2, oa := .pair 20, ob := .v 8, oc := .imm 0x0, oe := .p 4 }) ∧
    decode (wordOf 0x077000D2 0xC014E000 0x000F000E 0x0000E000 0x1) = .ok (.rwdsend { Fields.bare with oa := .pair 20, ob := .v 14, oc := .v 15, imm := 0x1 }) ∧
    decode (wordOf 0x077000D3 0xE0000009 0xE000E000 0x0000E000 0x0) = .ok (.lqtake { Fields.bare with od := .v 9 }) ∧
    decode (wordOf 0x077001D3 0xE0000009 0xE000E000 0x0000E000 0x0) = .ok (.lqtakeSplit { Fields.bare with sub := 1, od := .v 9 }) ∧
    decode (wordOf 0x077002D3 0xE0000009 0xE000E000 0x00002003 0x0) = .ok (.lqtakeTry { Fields.bare with sub := 2, od := .v 9, oe := .p 3 }) ∧
    decode (wordOf 0x077000D4 0x0009E000 0xE000E000 0x0000E000 0x0) = .ok (.lqdone { Fields.bare with oa := .v 9 })
    := ⟨rfl, rfl, rfl, rfl, rfl, rfl, rfl, rfl, rfl, rfl, rfl, rfl, rfl, rfl, rfl⟩

/-- The words of the special family, written out from the field layout and the opcode map (R325, R412, R417; fields R314, R315). -/
theorem test_words_special :
    decode (wordOf 0x077000E0 0x6010C00A 0xE000E000 0x0000E000 0x0) = .ok (.mfs { Fields.bare with od := .pair 10, oa := .s 0x10 }) ∧
    decode (wordOf 0x077000E1 0x8009600B 0xE000E000 0x0000E000 0x0) = .ok (.mts { Fields.bare with od := .s 0x0B, oa := .imm 0x9 })
    := ⟨rfl, rfl⟩

/-! ### Witnesses: states and operands that meet the hypotheses of the statements -/

/-- A cohort of 8 lanes and 16 registers of the placed launch. -/
def co : Cohort := Cohort.launched 0 0 0 0 0 8 16 0 1 0 0 1 0x100000 0x10000 0 0 0 0 0

/-- The placed program's machine with that cohort, which is issuing, and no turn on the agenda. -/
def base : State := { State.reset.placeProgram [] with cohorts := [co], cur := some 0, agenda := [] }

/-- That machine with another cohort in the place of its own. -/
def baseWith (c : Cohort) : State := { base with cohorts := [c] }

/-- Fields with general registers as operands, the destination the last register. -/
def fv : Fields := { Fields.bare with od := .v 15, oa := .v 6, ob := .v 7, oc := .v 8 }

/-- Fields of a wide form with the last pair as destination. -/
def fp : Fields := { Fields.bare with sub := 1, od := .pair 14, oa := .pair 6, ob := .pair 8, oc := .pair 10 }

/-- The cohort of one lane, the highest. -/
def lane7 : Cohort := { co with s0 := some ⟨0, 0x80⟩ }

/-- With no trap enabled every lane is untrapped. -/
theorem untrapped_of_zero (c : Cohort) (m : Mask) (fl : Nat → BitVec 6) (h : c.vstat = 0) : untrapped c m fl := by
  intro l b _ _ _ hb
  simp [h] at hb

theorem witness_DecodeInvertsEncode : (Instr.imad fv).parts = some (0x24, fv) ∧ (Instr.imad fv).wf = true := ⟨rfl, by decide⟩

theorem witness_EncodeInvertsDecode : decode (wordOf 0x07700030 0x0006000F 0xE0000007 0x0000E000 0) = .ok (.and { fv with oc := .none }) := rfl

theorem witness_PlainVectorResult : ∃ val, plainResult (.and fv) = some (fv, val) ∧ base.me? = some co ∧
    opndIndex fv.od < co.regs.length := ⟨_, rfl, rfl, by decide⟩

theorem witness_WideVectorResult : ∃ val, wideResult (.mov fp) = some (fp, val) ∧ base.me? = some co ∧
    opndIndex fp.od + 1 < co.regs.length := ⟨_, rfl, rfl, by decide⟩

theorem witness_FlaggedVectorResult : ∃ res, flaggedResult (.iadd fv) = some (fv, res) ∧ base.me? = some co ∧
    opndIndex fv.od < co.regs.length ∧ untrapped co (co.writeMask fv) (fun l => (res base co l).2) :=
  ⟨_, rfl, rfl, by decide, untrapped_of_zero _ _ _ rfl⟩

theorem witness_WideIntegerResult : ∃ val, exactWide (.iadd fp) = some (fp, val) ∧ base.me? = some co ∧
    opndIndex fp.od + 1 < co.regs.length ∧
    untrapped co (co.writeMask fp) (fun l => (iclamp64 (fp.typ == .s32) fp.sat (val base co l)).2) :=
  ⟨_, rfl, rfl, by decide, untrapped_of_zero _ _ _ rfl⟩

theorem witness_RoundedVectorResult : ∃ res, roundedResult (.fadd { fv with typ := .f32, rnd := .sr }) = some ({ fv with typ := .f32, rnd := .sr }, res) ∧
    base.me? = some co ∧ opndIndex fv.od < co.regs.length ∧
    untrapped co (co.writeMask fv) (fun l => (res base co (co.draw { fv with rnd := .sr } l) l).2) :=
  ⟨_, rfl, rfl, by decide, untrapped_of_zero _ _ _ rfl⟩

/-- A cohort of lane 7 with the trap of invalid operations enabled (bit 8 of $VSTAT, for flag bit 1). -/
def trapping : Cohort := { lane7 with vstat := 0x1F00 }

/-- 0 times infinity. -/
def fInvalid : Fields := { fv with typ := .f32, ob := .imm32, oc := .none, imm := 0x7F800000 }

theorem witness_EnabledFlagTraps : ∃ res, roundedResult (.fmul fInvalid) = some (fInvalid, res) ∧ (baseWith trapping).me? = some trapping ∧
    ¬ untrapped trapping (trapping.writeMask fInvalid) (fun l => (res (baseWith trapping) trapping (trapping.draw fInvalid l) l).2) :=
  ⟨_, rfl, rfl, fun h => absurd (h 7 1 (by decide) (by decide) (by decide) rfl) (by decide)⟩

theorem witness_PredicateResult : ∃ val, predResult (.icmp { fv with od := .p 6 }) = some ({ fv with od := .p 6 }, val) ∧ base.me? = some co ∧
    ∀ p : BitVec 3, p ≠ 7 → p.toNat < co.preds.length := ⟨_, rfl, rfl, by decide⟩

theorem witness_CrossLaneResult : ∃ src, crossSource (.shfl fv) = some (fv, src) ∧ base.me? = some co ∧
    opndIndex fv.od < co.regs.length := ⟨_, rfl, rfl, by decide⟩

theorem witness_LaneFoldResult : base.me? = some co ∧ opndIndex fv.od < co.regs.length ∧ enablesOf co.vstat = 0 :=
  ⟨rfl, by decide, by decide⟩

/-- Fields of a guard that no lane passes: the negation of p7. -/
def fNone : Fields := { fv with ga := ⟨true, 7⟩ }

theorem witness_ShapeInstructions : base.me? = some co ∧ opndIndex fv.od < co.regs.length ∧ co.writeMask fNone = 0 ∧
    co.writeMask fv ≠ 0 ∧ (co.reg 6).lane 0 = (co.reg 6).lane 7 := ⟨rfl, by decide, by decide, by decide, by decide⟩

/-! Control. -/

/-- Fields whose pair of registers 6 and 7 holds a link under no join. -/
def linked : Cohort := { co with regs := co.regs.set 7 (.u noneJ) }

theorem witness_ControlTransfers : base.me? = some co ∧ co.writeMask fNone = 0 ∧ co.writeMask fp ≠ 0 ∧
    opndIndex fp.od + 1 < co.regs.length ∧ DWord.hi (linked.opnd64 fp fp.oa (elect (linked.writeMask fp))) = linked.j ∧
    DWord.hi (co.opnd64 fp fp.oa (elect (co.writeMask fp))) ≠ co.j :=
  ⟨rfl, by decide, by decide, by decide, by decide, by decide⟩

/-- A cohort whose p1 holds lane 7 only. -/
def split : Cohort := { co with preds := co.preds.set 1 0x80 }

/-- That cohort with both slots live and a stack of some entries. -/
def deep (n : Nat) : Cohort :=
  { split with s0 := some ⟨0, 0x81⟩, s1 := some ⟨9, 2⟩, lastS := true, stack := List.replicate n ⟨7, 4, noneJ⟩ }

theorem deep_stack (n : Nat) : (deep n).stack.length = n := List.length_replicate

/-- The taken lanes of a branch on a predicate. -/
def taken (c : Cohort) (p : BitVec 3) : Mask := c.here.mask &&& c.guardMask { fv with oa := .p p } &&& c.predOf (.p p)

theorem witness_BranchDiverges : (baseWith split).me? = some split ∧ taken split 0 = 0 ∧ taken split 7 = split.here.mask ∧ taken split 1 ≠ 0 ∧
    split.here.mask &&& ~~~taken split 1 ≠ 0 ∧ split.slot (!split.issuer) = none ∧
    (baseWith (deep 287)).me? = some (deep 287) ∧ taken (deep 287) 1 ≠ 0 ∧ (deep 287).here.mask &&& ~~~taken (deep 287) 1 ≠ 0 ∧
    (deep 287).slot (!(deep 287).issuer) ≠ none ∧ 287 ≤ (deep 287).stack.length ∧ (deep 286).stack.length < 287 ∧ taken (deep 286) 1 ≠ 0 ∧
    (deep 286).here.mask &&& ~~~taken (deep 286) 1 ≠ 0 :=
  ⟨rfl, by decide, by decide, by decide, by decide, rfl, rfl, by decide, by decide, by decide, by rw [deep_stack], by rw [deep_stack]; omega,
    by decide, by decide⟩

theorem witness_SlotsReconverge : co.hmode = false ∧ co.slot false = some ⟨0, lanesMask 8⟩ ∧ co.j = noneJ ∧
    (∃ p, ({ co with j := 0 } : Cohort).slot false = some p ∧ p.pc = 0) ∧
    (∃ c : Cohort, c.s0 = none ∧ c.s1 = none ∧ c.stack = [] ∧ c.hmode = false) ∧
    (∃ c : Cohort, c.s0 = none ∧ c.s1 = none ∧ c.stack = [⟨7, 4, noneJ⟩] ∧ c.hmode = false) ∧
    ∃ c : Cohort, c.j ≠ noneJ ∧ c.slot false = some ⟨0, 1⟩ ∧ c.slot true = some ⟨0, 2⟩ ∧ c.j = 0 ∧ c.stack = [⟨7, 4, noneJ⟩] ∧ c.hmode = false :=
  ⟨rfl, by decide, rfl, ⟨_, rfl, rfl⟩, ⟨{ co with s0 := none }, rfl, rfl, rfl, rfl⟩,
    ⟨{ co with s0 := none, stack := [⟨7, 4, noneJ⟩] }, rfl, rfl, rfl, rfl⟩,
    ⟨{ co with s0 := some ⟨0, 1⟩, s1 := some ⟨0, 2⟩, j := 0, stack := [⟨7, 4, noneJ⟩] }, by decide, rfl, rfl, rfl, rfl, rfl⟩⟩

theorem witness_SlotsAlternate : (deep 0).slotReady false = true ∧ (deep 0).slotReady true = true ∧
    co.slotReady false = true ∧ co.slotReady true = false ∧ co.issueSlot? = some false ∧
    ({ co with j := 0 } : Cohort).slotReady false = false ∧ ({ co with j := 0 } : Cohort).slotReady true = false := by decide

/-! Causes and the handler. -/

theorem witness_CauseIsTaken : base.cohort? co.cid = some co ∧ base.ctx? co.ctx = some progCtx ∧ progCtx.halt = false ∧
    (co.raised && !co.hmode) = false := ⟨rfl, rfl, rfl, rfl⟩

theorem witness_SoftwareCauses : base.me? = some co ∧
    co.writeMask { fv with oa := .p 7 } &&& ~~~co.predOf (.p 7) = 0 ∧
    co.writeMask { fv with oa := .p 0 } &&& ~~~co.predOf (.p 0) ≠ 0 ∧ co.writeMask fv ≠ 0 :=
  ⟨rfl, by decide, by decide, by decide⟩

theorem witness_HandlerIsEntered : ((co.s0.map (·.mask)).getD 0 ||| (co.s1.map (·.mask)).getD 0) &&& ~~~co.dead ≠ 0 := by decide

/-- The control state of a cohort whose slot S0 was trapped at PC 5 with lanes 0 to 6, with an active mask and what S1 held. -/
def kept (act : Mask) (q : Option PcSlot) : KCtl :=
  { s0 := some ⟨5, 0x7F⟩, s1 := q, j := noneJ, lastS := false, nStk := 0, nSpill := 0, act := act }

/-- The cohort in its handler. -/
def handlingWith (act : Mask) (q : Option PcSlot) : Cohort := { co.enterHandler 40 with kctl := some (kept act q), traps := false, epc := 5 }

/-- The same with no other slot. -/
def handling (act : Mask) : Cohort := handlingWith act none

theorem witness_HandlerReturns : ∀ a ∈ [((0x7F : Mask), (none : Option PcSlot)), (1, none), (1, some ⟨9, 0x80⟩), (0x7F, some ⟨9, 0x80⟩)],
    (baseWith (handlingWith a.1 a.2)).me? = some (handlingWith a.1 a.2) ∧ (handlingWith a.1 a.2).kctl = some (kept a.1 a.2) ∧
    (handlingWith a.1 a.2).writeMask { fv with oa := .none } ≠ 0 ∧ (handlingWith a.1 a.2).hmode = true ∧
    ((handlingWith a.1 a.2).s0.isSome && (handlingWith a.1 a.2).s1.isSome) = false ∧
    (kept a.1 a.2).nStk + (kept a.1 a.2).nSpill = (handlingWith a.1 a.2).stack.length ∧ (handlingWith a.1 a.2).stack.length < 287 ∧
    a.1 &&& 0x7F &&& ~~~(handlingWith a.1 a.2).dead ≠ 0 ∧ (0x7F &&& ~~~a.1 &&& ~~~(handlingWith a.1 a.2).dead = 0 ↔ a.1 = 0x7F) ∧
    (handlingWith a.1 a.2).epc + 1 ≠ (handlingWith a.1 a.2).epc ∧ (9 : Word) ≠ (handlingWith a.1 a.2).epc ∧
    (handlingWith a.1 a.2).epc + 1 ≠ 9 ∧ (0x80 : Mask) &&& ~~~(handlingWith a.1 a.2).dead ≠ 0 ∧
    (baseWith (handlingWith a.1 a.2)).opnd (handlingWith a.1 a.2) fv (.imm 5) 0 = (handlingWith a.1 a.2).epc := by
  decide +kernel

theorem witness_HandlerModeIsChecked : base.me? = some co ∧ co.writeMask fv ≠ 0 ∧ co.hmode = false ∧
    (baseWith (handling 1)).me? = some (handling 1) ∧ (handling 1).writeMask fv ≠ 0 ∧ (handling 1).hmode = true :=
  ⟨rfl, by decide, rfl, rfl, by decide, by decide⟩

theorem witness_SpecialRegisterReads : base.me? = some co ∧ co.role = .single ∧ opndIndex fp.od + 1 < co.regs.length ∧
    wideSpecial 0x11 = true ∧ wideSpecial 0x17 = false ∧ co.hmode = false ∧ (handling 1).hmode = true ∧
    (handling 1).kctl = some (kept 1 none) := ⟨rfl, rfl, by decide, by decide, by decide, rfl, by decide, rfl⟩

theorem witness_SpecialRegisterWrites : base.me? = some co ∧ co.writeMask fv ≠ 0 ∧
    base.opnd co fv (.imm 15) 0 &&& 0xFFFFFFF0 = 0 ∧ base.opnd co fv (.imm 16) 0 &&& 0xFFFFFFF0 ≠ 0 ∧
    base.opnd co { fv with imm := 0x1F3F } .imm32 0 &&& 0xFFFFE0C0 = 0 ∧ base.opnd co fv (.imm 64) 0 &&& 0xFFFFE0C0 ≠ 0 ∧
    co.role ≠ .secondary ∧ (handling 1).hmode = true ∧ (handling 1).kctl = some (kept 1 none) :=
  ⟨rfl, by decide, by decide, by decide, by decide, by decide, by decide, by decide, rfl⟩


/-! Lane memory accesses. -/

/-- Fields of an access through the pair 6 with a displacement. -/
def fm (d : BitVec 13) : Fields := { Fields.bare with od := .v 15, oa := .pair 6, ob := .imm d, oc := .v 8 }

/-- The plans of the lanes of an access. -/
def plans (c : Cohort) (acc : Acc) (n : Nat) (f : Fields) : List LanePlan := (baseWith c).planLanes c progCtx acc n (c.writeMask f) (c.ea f f.oa f.ob)

theorem witness_LoadResult : (baseWith lane7).me? = some lane7 ∧ (baseWith lane7).ctx? lane7.ctx = some progCtx ∧ lane7.role = .single ∧
    lane7.windows = [] ∧ lane7.writeMask (fm 0x100) ≠ 0 ∧
    (plans lane7 .load 4 (fm 0x100)).all (laneReaches (baseWith lane7) 4 [0, 1, 2, 3]) = true ∧
    (baseWith lane7).plansBlocked lane7 (plans lane7 .load 4 (fm 0x100)) true = false ∧
    (baseWith lane7).plansTaken lane7 4 (plans lane7 .load 4 (fm 0x100)) = false ∧ l1Apart (baseWith lane7) lane7.core (plans lane7 .load 4 (fm 0x100)) = true ∧ lane7.holds (fm 0x100) (.v 15) false :=
  ⟨rfl, rfl, rfl, rfl, by decide, by decide, by decide, by decide, by decide, ⟨by decide, by decide⟩⟩

/-- The machine whose program's page is of type WC or whose core holds a line in L1. -/
def wcOrL1 : State := { baseWith lane7 with
  mem := memPut base.mem 0x6000 8 (2 ^ 52 + 0x1F), cores := [{ CoreState.init 0 with l1 := [⟨2, List.replicate 128 7⟩] }] }

theorem witness_LoadResult_cached : ∃ p leaf, ({ wcOrL1 with mem := base.mem } : State).planLanes lane7 progCtx .load 4 (lane7.writeMask (fm 0x100))
      (lane7.ea (fm 0x100) (.pair 6) (.imm 0x100)) = [p] ∧ p.out = .ok 0x100 0 leaf false ∧ inRegs 0x100 = false ∧ hintFR (fm 0x100) = false ∧
    hintNL1 (fm 0x100) = false ∧ (({ wcOrL1 with mem := base.mem } : State).core 0).l1Data (0x100 / 128) = some (List.replicate 128 7) :=
  ⟨_, _, rfl, rfl, by decide, by decide, by decide, by decide⟩

theorem witness_StoreResult_combined : ∃ p leaf, wcOrL1.me? = some lane7 ∧ wcOrL1.planLanes lane7 progCtx .store 4 (lane7.writeMask (fm 0x100))
      (lane7.ea (fm 0x100) (.pair 6) (.imm 0x100)) = [p] ∧ p.out = .ok 0x100 1 leaf false ∧ (fm 0x100).ord ≠ .release ∧
    (wcOrL1.core 0).wc.length < 8 ∧ ∀ w ∈ (wcOrL1.core 0).wc, w.line = 0x100 / 128 → w.bytes.length + 4 < 128 :=
  ⟨_, _, rfl, rfl, rfl, by decide, by decide, by decide⟩

/-- All lanes store to one word; a release has nothing to drain. -/
theorem witness_StoreResult : base.me? = some co ∧ base.ctx? co.ctx = some progCtx ∧ co.role = .single ∧ co.writeMask (fm 0x100) ≠ 0 ∧
    (co.hmode && anyTile progCtx (co.writeMask (fm 0x100)) (co.ea (fm 0x100) (.pair 6) (.imm 0x100))) = false ∧
    (plans co .store 4 (fm 0x100)).all (laneReaches base 4 [0, 2, 3]) = true ∧ base.plansBlocked co (plans co .store 4 (fm 0x100)) false = false ∧
    base.plansTaken co 4 (plans co .store 4 (fm 0x100)) = false ∧ base.plainStores ∧ base.canRelease co ∧ co.holds (fm 0x100) .none false :=
  ⟨rfl, rfl, rfl, by decide, by decide, by decide, by decide, by decide, .inl rfl, ⟨by decide, by decide⟩, ⟨by decide, by decide⟩⟩

theorem witness_AtomicResult : base.me? = some co ∧ base.ctx? co.ctx = some progCtx ∧ co.role = .single ∧ co.writeMask (fm 0x104) ≠ 0 ∧
    (co.hmode && anyTile progCtx (co.writeMask (fm 0x104)) (co.ea (fm 0x104) (.pair 6) (.imm 0x104))) = false ∧
    ((plans co .atomic 4 (fm 0x104)).all (laneReaches base 4 [0, 2, 3]) && (plans co .atomic 4 (fm 0x104)).all (fun p => !p.out.twoStep) &&
      !base.plansBlocked co (plans co .atomic 4 (fm 0x104)) false && !base.plansTaken co 4 (plans co .atomic 4 (fm 0x104)) &&
      leavesApart 4 (plans co .atomic 4 (fm 0x104))) = true ∧
    base.plainStores ∧ co.rmw = none ∧ base.canRelease co ∧ co.holds (fm 0x104) (.v 15) false :=
  ⟨rfl, rfl, rfl, by decide, by decide, by decide, .inl rfl, rfl, ⟨by decide, by decide⟩, ⟨by decide, by decide⟩⟩

/-- A machine whose program's page is one of type DV in the host's memory. -/
def hostWord (c : Cohort) : State := { baseWith c with mem := memPut base.mem 0x6000 8 (2 ^ 53 + hostBase + 0x1F) }

/-- The cohort of lane 7 before and after it has read the word. -/
def halfway : Cohort := { lane7 with rmw := some { Rmw.start with read := some (hostBase + 0x104, 3) } }

theorem witness_AtomicResult_host : ∀ c ∈ [lane7, halfway], ∃ p leaf, (hostWord c).me? = some c ∧ (hostWord c).ctx? c.ctx = some progCtx ∧
    c.role = .single ∧ c.writeMask (fm 0x104) ≠ 0 ∧ (c.hmode && anyTile progCtx (c.writeMask (fm 0x104)) (c.ea (fm 0x104) (.pair 6) (.imm 0x104))) = false ∧
    (hostWord c).planLanes c progCtx .atomic 4 (c.writeMask (fm 0x104)) (c.ea (fm 0x104) (.pair 6) (.imm 0x104)) = [p] ∧
    p.out = .ok (hostBase + 0x104) 2 leaf false ∧ (hostWord c).poisoned (hostBase + 0x104) 4 = false ∧ (hostWord c).plansTaken c 4 [p] = false ∧
    (hostWord c).plainStores ∧ (fm 0x104).ord = .relaxed ∧ c.holds (fm 0x104) (.v 15) false := by
  intro c h
  simp only [List.mem_cons, List.not_mem_nil, or_false] at h
  rcases h with rfl | rfl <;>
    exact ⟨_, _, rfl, rfl, rfl, by decide, by decide, rfl, rfl, by decide, by decide, .inl rfl, rfl, ⟨by decide, by decide⟩⟩

theorem witness_ReductionResult : base.me? = some co ∧ base.ctx? co.ctx = some progCtx ∧ co.role = .single ∧ (fm 0x108).sub ≠ 7 ∧
    co.writeMask (fm 0x108) ≠ 0 ∧ (co.hmode && anyTile progCtx (co.writeMask (fm 0x108)) (co.ea (fm 0x108) (.pair 6) (.imm 0x108))) = false ∧
    ((plans co .atomic 4 (fm 0x108)).all (laneReaches base 4 [0, 2, 3]) && (plans co .atomic 4 (fm 0x108)).all (fun p => !p.out.twoStep) &&
      !base.plansBlocked co (plans co .atomic 4 (fm 0x108)) false && !base.plansTaken co 4 (plans co .atomic 4 (fm 0x108)) &&
      leavesApart 4 (plans co .atomic 4 (fm 0x108))) = true ∧
    base.plainStores ∧ co.rmw = none ∧ base.canRelease co ∧ co.holds (fm 0x108) .none false :=
  ⟨rfl, rfl, rfl, by decide, by decide, by decide, by decide, .inl rfl, rfl, ⟨by decide, by decide⟩, ⟨by decide, by decide⟩⟩

/-- A cohort of lane 7 whose pair 6 holds an address. -/
def aimed (hi lo : Word) : Cohort := { lane7 with regs := (lane7.regs.set 6 (.u lo)).set 7 (.u hi) }

/-- The first address with a bit above 52, and a misaligned one. -/
theorem witness_FaultingAccessWritesNothing : accessOf (.ld (fm 0)) = some (fm 0, .load, 4) ∧
    ∀ c ∈ [aimed 0x200000 0, aimed 0 2], (baseWith c).me? = some c ∧ (baseWith c).ctx? c.ctx = some progCtx ∧ progCtx.halt = false ∧
      (c.raised && !c.hmode) = false ∧ c.writeMask (fm 0) ≠ 0 ∧ (c.hmode && anyTile progCtx (c.writeMask (fm 0)) (c.ea (fm 0) (.pair 6) (.imm 0))) = false ∧
      ((plans c .load 4 (fm 0)).find? LanePlan.faults).isSome = true := by
  refine ⟨rfl, ?_⟩
  intro c h
  simp only [List.mem_cons, List.not_mem_nil, or_false] at h
  rcases h with rfl | rfl <;> exact ⟨rfl, rfl, rfl, rfl, by decide, by decide, by decide⟩

theorem witness_MemoryHints : base.me? = some co ∧ base.ctx? co.ctx = some progCtx ∧ co.role = .single ∧ co.writeMask (fm 0) ≠ 0 ∧
    (plans co .load 1 (fm 0)).any LanePlan.faults = false ∧ co.holds (fm 0) .none false ∧
    base.translated co.ctx none (coreInScope .pkg co.core) = false ∧ base.holdsWrite co.cid = false ∧
    (∀ l ∈ laneList (co.writeMask (fm 0)), pgreqBad progCtx (co.ea (fm 0) (.pair 6) (.imm 0) l) = 0) ∧
    ∀ va ∈ base.pgreqPages progCtx (co.writeMask (fm 0)) (co.ea (fm 0) (.pair 6) (.imm 0)), base.pageFate co progCtx va = .resident :=
  ⟨rfl, rfl, rfl, by decide, by decide, ⟨by decide, by decide⟩, by decide, by decide, by decide, by decide⟩

/-! Barriers, the baton, banks and waits. -/

/-- A cohort of lane 7 whose pair 6 names the object at 0x200; register 8 holds a number. -/
def atObject (n : Word) : Cohort := { aimed 0 0x200 with regs := (aimed 0 0x200).regs.set 8 (.u n) }

/-- That machine with an object there. -/
def withObject (n : Word) (o : Nat) : State := { baseWith (atObject n) with mem := memPut base.mem 0x200 32 o }

theorem objectAt_200 (s : State) (c : Cohort) (hw : s.wordTaken c.cid 0x200 32 = false)
    (h : (match s.xlat (.core c.core) c.core progCtx .load 0x200 with
      | .ok key mt leaf _ => key == 0x200 && mt == 0 && leaf.all fun e => e.leaf == 0x6000
      | _ => false) = true) : s.objectAt c progCtx 0x200 0x200 := by
  refine ⟨by decide, by decide, hw, ?_⟩
  split at h
  · rename_i key mt leaf tile hx
    simp only [Bool.and_eq_true, beq_iff_eq] at h
    obtain ⟨⟨rfl, rfl⟩, h3⟩ := h
    refine ⟨leaf, tile, hx, fun e he => ?_⟩
    subst he
    simp only [Option.all_some, beq_iff_eq] at h3
    omega
  · cases h

/-- BARINIT at both ends of its range, an ARRIVE, and a BWAIT on both sides of its token. -/
theorem witness_BarrierObjects :
    (∀ n ∈ [(1 : Word), 65535, 0, 0x8000], (withObject n (objMake 1 1 1 0 0 0 0)).me? = some (atObject n) ∧
      (withObject n (objMake 1 1 1 0 0 0 0)).ctx? (atObject n).ctx = some progCtx ∧ (atObject n).role = .single ∧
      (withObject n (objMake 1 1 1 0 0 0 0)).canRelease (atObject n) ∧ (withObject n (objMake 1 1 1 0 0 0 0)).plainStores ∧ (atObject n).writeMask (fm 0) ≠ 0 ∧
      (withObject n (objMake 1 1 1 0 0 0 0)).objectAt (atObject n) progCtx 0x200 0x200 ∧
      (∀ g r, (withObject n (objMake 1 1 1 0 0 0 0)).xlat (.core 0) 0 progCtx .store 0x200 ≠ .fault g r) ∧
      (withObject n (objMake 1 1 1 0 0 0 0)).poisoned 0x200 32 = false ∧
      objExpect (memNat (withObject n (objMake 1 1 1 0 0 0 0)).mem 0x200 32) ≠ 0) ∧
    objPend (objMake 1 1 1 0 0 0 0) = 1 ∧ objPend (objMake 2 2 1 0 0 0 0) = 2 ∧ objMake 65535 65535 65535 0 0 0 0 < 2 ^ 256 := by
  refine ⟨?_, by decide, by decide, by decide⟩
  intro n h
  simp only [List.mem_cons, List.not_mem_nil, or_false] at h
  rcases h with rfl | rfl | rfl | rfl <;>
    exact ⟨rfl, rfl, rfl, ⟨by decide, by decide⟩, .inl rfl, by decide, objectAt_200 _ _ (by decide) (by decide), (fun _ _ h => by cases h), by decide, by decide⟩

/-- Two cohorts of one workgroup, the second of which waits at a scope or does not. -/
def pairAt (w : Wait) : State := { base with cohorts := [co, { co with cid := 1, chid := 1, wait := w }] }

theorem witness_BarCompletes : base.me? = some co ∧ base.canRelease co ∧ co.role = .single ∧ co.writeMask fv ≠ 0 ∧
    (base.setCohort { co with wait := .bar .core (.p 3) 0xFF }).absentParticipant .core { co with wait := .bar .core (.p 3) 0xFF } = false ∧
    (∃ e ∈ (pairAt .none).cohorts, e.cid ≠ co.cid ∧ sameInstance .core co e = true ∧ e.atBar .core = false) ∧
    (∀ e ∈ (pairAt (.bar .core .none 1)).cohorts, e.cid ≠ co.cid → sameInstance .core co e = true → e.atBar .core = true) ∧
    base.podRanks = [] ∧ (base.podBar (base.podKey co)).arrived = [] ∧ (base.podBar (base.podKey co)).sentAt = none ∧
    (∀ e ∈ base.cohorts, e.launch = co.launch → e.wgid = co.wgid → e.cid ≠ co.cid → e.atBar .pod = true) :=
  ⟨rfl, ⟨by decide, by decide⟩, rfl, by decide, by decide, by decide, by decide, by decide, by decide, by decide, by decide⟩

/-- The machine with the baton of core 0 in some hands. -/
def withBaton (b : Option Nat) (cs : List Cohort) : State := { base with cohorts := cs, cores := [{ CoreState.init 0 with baton := b }] }

/-- A waiting taker. -/
def taker : Cohort := { co with cid := 1, wait := .baton, waitSeq := 4 }

theorem witness_BatonMoves : base.me? = some co ∧ co.writeMask fv ≠ 0 ∧ (base.core co.core).baton = none ∧
    ((withBaton (some 1) [co]).core co.core).baton = some 1 ∧ ((withBaton (some 0) [co]).core co.core).baton = some co.cid ∧
    (withBaton (some 0) [co]).takers co.core = [] ∧
    bestBy Cohort.ranksAbove ((withBaton (some 0) [co, taker]).takers co.core) = some taker ∧ taker.cid ≠ co.cid :=
  ⟨rfl, by decide, by decide, by decide, by decide, by decide, by decide, by decide⟩

/-- A cohort that holds two banks, 0 and 1. -/
def owner : Cohort := { co with handle := some (handleOf 2 1), regs := co.regs.set 6 (.u (handleOf 2 1)) }

/-- The machine in which it does. -/
def owning : State := { baseWith owner with cores :=
  [{ CoreState.init 0 with serial := 1, banks := (List.range 32).map fun n => { owner := if n < 2 then some 0 else none, freed := false, vals := [] } }] }

theorem witness_BanksAreGranted : base.me? = some co ∧ co.writeMask fv ≠ 0 ∧ (base.core co.core).bankQ = [] ∧ co.handle = none ∧
    (∀ n ∈ [1, 32], 1 ≤ n ∧ n ≤ 32 ∧ (base.opnd co fv (.imm (BitVec.ofNat 13 n)) 0).toNat = n ∧ n ≤ ((base.core co.core).banks.filter fun b => b.owner.isNone).length) ∧
    owning.me? = some owner ∧ (owning.core 0).bankQ = [] ∧ owner.handleOk 6 = true :=
  ⟨rfl, by decide, by decide, by decide, by decide, rfl, by decide, by decide⟩

/-- The fields of a counter wait at 0x200 for a value. -/
def fw (n : BitVec 13) : Fields := { Fields.bare with od := .v 9, oa := .pair 6, ob := .imm n }

theorem witness_CounterWaits : ∃ leaf tile, (withObject 0 5).me? = some (atObject 0) ∧ (withObject 0 5).ctx? (atObject 0).ctx = some progCtx ∧
    (atObject 0).role = .single ∧ (atObject 0).writeMask (fw 0) ≠ 0 ∧
    ((atObject 0).arrive - (withObject 0 5).opnd (atObject 0) (fw 0) (.imm 0) 7).toNat = 0 ∧
    ((atObject 0).arrive - (withObject 0 5).opnd (atObject 0) (fw 0) (.imm 1) 7).toNat = 2 ^ 32 - 1 ∧
    (withObject 0 5).xlat (.core 0) 0 progCtx .load 0x200 = .ok 0x200 0 leaf tile ∧ (∀ e, leaf = some e → e.leaf < 0x200 ∨ 0x200 + 8 ≤ e.leaf) ∧
    inRegs 0x200 = false ∧ (withObject 0 5).poisoned 0x200 8 = false ∧
    ((withObject 0 5).opnd (atObject 0) (fw 5) (.imm 5) 7).toNat ≤ memNat (withObject 0 5).mem 0x200 8 ∧
    memNat (withObject 0 5).mem 0x200 8 < ((withObject 0 5).opnd (atObject 0) (fw 6) (.imm 6) 7).toNat ∧
    ((withObject 0 5).freeWait 0).isSome = true ∧
    (∀ l ∈ laneList ((atObject 0).writeMask (fm 0)), pgreqBad progCtx ((atObject 0).ea (fm 0) (.pair 6) (.imm 0) l) = 0) ∧
    ∀ va ∈ (withObject 0 5).pgreqPages progCtx ((atObject 0).writeMask (fm 0)) ((atObject 0).ea (fm 0) (.pair 6) (.imm 0)),
      (withObject 0 5).pageFate (atObject 0) progCtx va = .resident := by
  refine ⟨_, _, rfl, rfl, rfl, by decide, by decide, by decide, rfl, ?_, by decide, by decide, by decide, by decide, by decide, by decide, by decide⟩
  intro e he
  cases he
  decide

/-- A launch of quad groups, with a cohort of its workgroup 0. -/
def quadLaunch : Launch := { progLaunch with kern := { progKernel with qg := true } }

theorem witness_RemoteWrites : base.me? = some co ∧ base.launchOf co = some progLaunch ∧ progLaunch.kern.qg = false ∧ co.writeMask fv ≠ 0 ∧
    ({ base with launches := [quadLaunch] } : State).launchOf co = some quadLaunch ∧ quadLaunch.kern.qg = true ∧ base.canRelease co ∧
    co.role = .single ∧ 3 < (base.opnd co fv (.imm 4) 0).toNat ∧ (base.opnd co fv (.imm 3) 0).toNat ≤ 3 ∧ 0 < co.nch.toNat ∧
    co.nch.toNat ≤ (base.opnd co fv (.imm 1) 0).toNat ∧
    (base.saved.any fun v => v.wg.launch == co.launch && v.wg.wgid == 0) = false ∧
    base.cohorts.find? (fun e => e.launch == co.launch && e.wgid.toNat == co.wgid.toNat / 4 * 4 + 0 && e.chid.toNat == 0) = some co ∧
    base.cohorts.find? (fun e => e.launch == co.launch && e.wgid.toNat == co.wgid.toNat / 4 * 4 + 3 && e.chid.toNat == 0) = none ∧
    co.writeMask fNone = 0 :=
  ⟨rfl, rfl, rfl, by decide, rfl, rfl, ⟨by decide, by decide⟩, rfl, by decide, by decide, by decide, by decide, by decide, rfl, rfl, by decide⟩

/-- A cohort whose tile register 3 is a window of 32 lines. -/
def tiled : Cohort := { co with tiles := co.tiles.set 3 (some 0x3E020) }

theorem witness_TilesAndLaunchOrder : base.me? = some co ∧ co.role = .single ∧ base.canRelease co ∧ co.writeMask fv ≠ 0 ∧
    descBase 0x3E020 + descLines 0x3E020 ≤ (base.regionOf co).2 ∧ (base.regionOf co).2 < descBase 0x3E021 + descLines 0x3E021 ∧
    tiled.tileOf (.t 3) = some 0x3E020 ∧ 0 < descLines 0x3E020 ∧ 0 + descLines 0x3E020 ≤ descLines 0x3E020 ∧ (∀ n, base.boardBlocks 0 n false = false) ∧
    (base.launchOf co).all base.gateOpen = true ∧
    (({ base with launches := [{ progLaunch with pred := some 7, queue := 0 }], packets := [] } : State).launchOf co).isSome = true :=
  ⟨rfl, rfl, ⟨by decide, by decide⟩, by decide, by decide, by decide, by decide, by decide, by decide, fun _ => rfl, by decide, by decide⟩

/-- A launch whose packet follows one that has not released. -/
def behind : State := { base with
  launches := [{ progLaunch with pred := some 7 }],
  packets := [{ queue := 0, seq := 7, words := [0x100], started := false, refused := false, done := false, signal := 0, ctx := 1, prev := none,
                copies := [], grids := true, subs := [] }] }

theorem witness_GateWaits : behind.me? = some co ∧ co.role = .single ∧ behind.canRelease co ∧ (behind.launchOf co).all behind.gateOpen = false :=
  ⟨rfl, rfl, ⟨by decide, by decide⟩, by decide⟩

/-- A result that is `ok` and passes a test. -/
theorem exists_ok {ε α : Type} {r : Except ε α} (p : α → Bool) (h : (match r with
    | .ok a => p a
    | .error _ => false) = true) : ∃ a, r = .ok a ∧ p a = true := by
  cases r with
  | ok a => exact ⟨a, rfl, h⟩
  | error e => cases h

/-- A translation that reaches a key of type N whose leaf is the placed program's. -/
theorem exists_xlat {r : Xlat} {key : Nat} (h : (match r with
    | .ok k mt leaf _ => k == key && mt == 0 && leaf.all fun e => e.leaf == 0x6000
    | _ => false) = true) : ∃ leaf tile, r = .ok key 0 leaf tile ∧ ∀ e, leaf = some e → e.leaf = 0x6000 := by
  split at h
  · rename_i k mt leaf tile
    simp only [Bool.and_eq_true, beq_iff_eq] at h
    obtain ⟨⟨rfl, rfl⟩, h3⟩ := h
    refine ⟨leaf, tile, rfl, fun e he => ?_⟩
    subst he
    simpa using h3
  · cases h

/-- A rank table with no entry. -/
def table0 : RankTable :=
  { gen := 1, risk := false, fallback := false, leaders := [], step := 5, ckstep := 0, digest := 0, resv := 0, entries := [] }

/-- A ready collective of the workgroup. -/
def coll0 : Coll :=
  { id := 9, launch := 0, wg := 0, wgid := 0, ctx := 1, index := 0, sub := 0, typ := .f32, red := 0, alg := 0, group := 0, root := 0, objVa := 0x200,
    objPa := 0x200, core := 0, line0 := 0, nlines := 2, issued := [0], ready := true, started := false, pc := 0, cid := 0 }

/-- One that some cohort has still to name. -/
def unready : Coll := { coll0 with ready := false }

theorem witness_FenceAdopts : base.me? = some co ∧ co.role = .single ∧ base.canRelease co ∧
    ({ base with colls := [unready] } : State).collsOpen = true ∧ base.collsOpen = false ∧ base.staged = none ∧
    ({ base with staged := some table0 } : State).staged = some table0 ∧ ({ base with staged := some table0 } : State).lacksStripe table0 = false ∧
    (∃ s2, (({ base with staged := some table0 } : State).rollBack table0.step).writeTable table0 = .ok s2) ∧
    base.memBlock = none ∧ base.views = [] ∧ base.heldWrites = [] :=
  ⟨rfl, rfl, ⟨by decide, by decide⟩, by decide, by decide, rfl, rfl, by decide, ⟨_, rfl⟩, rfl, rfl, rfl⟩

/-- A cohort that may park on handle 5 of its die: one live slot, no baton, no banks. -/
def parking : Cohort := { co with regs := co.regs.set 9 (.u 0x10000005) }

/-- Its machine: a task launch, and the wait-table entry of the handle. -/
def parkable : State := { baseWith parking with
  launches := [{ progLaunch with kern := { progKernel with task := true } }],
  waitTable := [{ die := 0, index := 5, op := .pages [0], cid := 0, ctx := 1, seq := 0, done := none, parked := false }] }

/-- PARK listing 16 registers. -/
def fPark : Fields := { Fields.bare with od := .v 3, oa := .v 9, ob := .v 0, imm := 16 }

/-- A cohort about to leave, which names the JOIN at 0x240. -/
def leaving : Cohort := { aimed 0 0x240 with s0 := some ⟨0, 0x80⟩ }

/-- Its machine, with the JOIN at 2. -/
def joined2 : State := { baseWith leaving with mem := memPut base.mem 0x240 4 2 }

set_option maxRecDepth 20000 in
theorem witness_CohortsLeave : parkable.me? = some parking ∧ parkable.ctx? parking.ctx = some progCtx ∧
    (∃ l e, parkable.launchOf parking = some l ∧ parkable.parkOk parking fPark l = some e ∧ parkable.holdsWrite parking.cid = false ∧
      ∃ s1, parkable.vaWrite (.core 0) 0 progCtx parking.spill.toNat (parking.parkRecord (parkList fPark) ((parking.reg 9).lane 0) (some 3) l.queue
        l.seq l.kern.kdesc) = .ok s1) ∧
    base.parkOk co fPark progLaunch = none ∧
    joined2.me? = some leaving ∧ joined2.ctx? leaving.ctx = some progCtx ∧ leaving.role = .single ∧ leaving.writeMask Fields.bare ≠ 0 ∧
    joined2.canRelease leaving ∧ joined2.plainStores ∧ [Opnd.none].filter (· ≠ .none) = [] ∧ leaving.slot (!leaving.issuer) = none ∧
    leaving.here.mask &&& ~~~leaving.writeMask Fields.bare = 0 ∧ leaving.stack = [] ∧ leaving.hmode = false ∧
    (∃ leaf tile, joined2.xlat (.core 0) 0 progCtx .atomic 0x240 = .ok 0x240 0 leaf tile ∧ ∀ e, leaf = some e → e.leaf = 0x6000) ∧
    leaving.opnd64 Fields.bare (.pair 6) (elect (leaving.writeMask Fields.bare)) = 0x240 ∧ joined2.poisoned 0x240 4 = false ∧
    joined2.launchOf leaving = some progLaunch ∧ 2 ≤ memNat joined2.mem 0x240 4 :=
  ⟨rfl, rfl, ⟨{ progLaunch with kern := { progKernel with task := true } }, _, rfl, rfl, by decide, by
      obtain ⟨a, h, -⟩ := exists_ok (r := parkable.vaWrite (.core 0) 0 progCtx parking.spill.toNat (parking.parkRecord (parkList fPark) 0x10000005
        (some 3) 0 0 0x8000)) (fun _ => true) (by decide)
      exact ⟨a, h⟩⟩, by decide, rfl, rfl, rfl, by decide, ⟨by decide, by decide⟩, .inl rfl, by decide, rfl, by decide, rfl, rfl,
    exists_xlat (by decide), by decide, by decide, rfl, by decide⟩

/-! Engines and rewards. -/

/-- The owner of two banks with the baton, a window of 32 lines and, in registers 8 and 9, its handle and a bank selector. -/
def engineer (last : BitVec 16) (closed : List (BitVec 16)) : Cohort :=
  { owner with tiles := tiled.tiles, regs := owner.regs.set 8 (.u (handleOf 2 1)), lastBatch := last, closed := closed }

/-- An accepted MMA of it. -/
def mma0 : Mma :=
  { seq := 0, cid := 0, wg := 0, ctx := 1, batch := some 1, bank := 0, typA := .bf16, typB := .bf16, tr := false, step := 0, lanes := 0xFF,
    aVals := List.replicate 64 0, aScales := [], line0 := 32, ilv := 0, soff := 0, place := 0, pc := 0, pre := [] }

/-- Its machine. -/
def engine (q : List Mma) (c : Cohort) : State := { baseWith c with cores := (owning.cores.map fun k => { k with baton := some 0, mmaQ := q }) }

/-- An MMA on the last step that the window holds. -/
def fMma : Fields := { Fields.bare with typ := .bf16, od := .pair 8, oa := .pair 10, ob := .t 3, oc := .imm 15 }

theorem witness_MatrixInstructions : (engine [] (engineer 0 [])).me? = some (engineer 0 []) ∧ (engineer 0 []).writeMask fMma ≠ 0 ∧
    ((engine [] (engineer 0 [])).core 0).baton = some 0 ∧ (engineer 0 []).handleOk 8 = true ∧
    ((engine [] (engineer 0 [])).banksOf (engineer 0 []))[0]? = some 0 ∧ (engineer 0 []).tileOf (.t 3) = some 0x3E020 ∧
    (∀ n ∈ stepLines false 15, n < descLines 0x3E020) ∧ 31 ∈ stepLines false 15 ∧ isMx fMma.typ = false ∧
    ((engine [] (engineer 0 [])).core 0).mmaQ.length < 64 ∧
    (base.core 0).baton ≠ some 0 ∧ ((engine [] (engineer 0 [])).openBatches (engineer 0 [])).length < 16 ∧
    (engine [mma0] (engineer 1 [1])).openBatches (engineer 1 [1]) = [1] ∧ ((1 : BitVec 16) - 1).toNat < 2 ^ 15 ∧
    (engine [] (engineer 1 [1])).openBatches (engineer 1 [1]) = [] ∧
    1 ≤ ((2 : BitVec 16) - 1).toNat ∧ ((0x8000 : BitVec 16) - 1).toNat < 2 ^ 15 ∧ 2 ^ 15 ≤ ((0x8001 : BitVec 16) - 1).toNat :=
  ⟨rfl, by decide, by decide, by decide, by decide, by decide, by decide, by decide, by decide, by decide, by decide, by decide, rfl, by decide,
    rfl, by decide, by decide, by decide⟩

/-- A tensor record of one dimension of 8 words at 0x1000, the box being all of it (R167). -/
def recWords : List Nat := [0x1000, 0, 8, 0, 0, 0, 0, 0, 0, 8, 0, 0]

/-- Its 96 bytes. -/
def recBytes : List Byte := recWords.flatMap (natBytes 8)

/-- A cohort with a window of 32 lines whose pair 6 names the record at 0x400 and pair 10 the counter at 0x200. -/
def commander : Cohort :=
  { lane7 with tiles := tiled.tiles, regs := ((lane7.regs.set 6 (.u 0x400)).set 10 (.u 0x200)).set 12 (.u 0x300) }

/-- Its machine. -/
def commanding : State := { baseWith commander with mem := memWrite base.mem 0x400 recBytes }

/-- COPY from the record to the window. -/
def fCopy : Fields := { Fields.bare with od := .t 3, oa := .pair 6, ob := .v 0, oc := .pair 10, oe := .none, imm := 0 }

/-- What the engine reads: the record's bytes, in a state in which the counter can be reached. -/
def recordRead (bs : List Byte) (a : List Byte × State) : Bool :=
  a.1 == bs && match a.2.xlat (.die 0) 0 progCtx .store 0x200 with
    | .ok k mt leaf _ => k == 0x200 && mt == 0 && leaf.all fun e => e.leaf == 0x6000
    | _ => false

set_option maxRecDepth 20000 in
theorem witness_TensorCommands : commanding.me? = some commander ∧ commanding.ctx? commander.ctx = some progCtx ∧ commander.role = .single ∧
    commanding.holdsWrite commander.cid = false ∧ commander.writeMask fCopy ≠ 0 ∧ commander.opnd64 fCopy (.pair 6) (elect (commander.writeMask fCopy)) = 0x400 ∧
    commander.opnd64 fCopy (.pair 10) (elect (commander.writeMask fCopy)) = 0x200 ∧ commander.tileOf (.t 3) = some 0x3E020 ∧
    commanding.combining 0 progCtx 0x400 96 = false ∧
    (∃ a, commanding.vaRead (.die 0) 0 progCtx 0x400 96 = .ok a ∧ recordRead recBytes a = true) ∧ recReject false recBytes = none ∧
    (recOf recBytes).tileBytes (recOf recBytes).boxRows ≤ descLines 0x3E020 * 128 ∧ (recOf recBytes).ilv = descIlv 0x3E020 ∧
    commanding.boardFull 0 = false :=
  ⟨rfl, rfl, rfl, by decide, by decide, by decide, by decide, by decide, by decide, exists_ok _ (by decide), by decide, by decide, by decide, by decide⟩

/-- EPI operands: handle and selector in the pair 8, counter in the pair 10. -/
def epier : Cohort := { engineer 0 [] with regs := ((engineer 0 []).regs.set 10 (.u 0x200)).set 6 (.u 0x400) }

/-- Its machine, with the record's type F32. -/
def epiing : State := { engine [] epier with mem := memWrite base.mem 0x400 ((recWords.set 1 2).flatMap (natBytes 8)) }

set_option maxRecDepth 20000 in
theorem witness_OtherCommands : (commanding.me? = some commander ∧ commanding.ctx? commander.ctx = some progCtx ∧ commander.role = .single ∧
      commanding.holdsWrite commander.cid = false ∧ commander.writeMask fCopy ≠ 0 ∧ commander.tileOf (.t 3) = some 0x3E020 ∧
      commanding.isComm commander = some true ∧ descIlv 0x3E020 = 0 ∧
      (∃ leaf tile, commanding.xlat (.die 0) 0 progCtx .store 0x200 = .ok 0x200 0 leaf tile ∧ ∀ e, leaf = some e → e.leaf = 0x6000) ∧
      commanding.rankPresent 0 = true ∧
      (1 : Nat) ≤ descLines 0x3E020 ∧ bitsOf (6143 : Word).toNat 12 0 + (bitsOf (6143 : Word).toNat 18 13 + 1) = 6144 ∧ commanding.boardFull 0 = false ∧
      commanding.isComm { commander with chid := 1 } = some false ∧ (commanding.colls.any fun k => k.wg == 0 && k.index == 0) = false) ∧
    (epiing.me? = some epier ∧ bitsOf ((epier.reg 9).lane 0).toNat 5 5 = 0 ∧ epier.handleOk 8 = true ∧ (epiing.banksOf epier)[0]? = some 0 ∧
      isMx .f32 = false ∧ epier.width * epiRowBytes .f32 ≤ descLines 0x3E020 * 128 ∧
      recReject false ((recWords.set 1 2).flatMap (natBytes 8)) = none ∧ (recOf ((recWords.set 1 2).flatMap (natBytes 8))).typ = .f32 ∧
      ∃ a, epiing.vaRead (.die 0) 0 progCtx 0x400 96 = .ok a ∧ recordRead ((recWords.set 1 2).flatMap (natBytes 8)) a = true) ∧
    (withObject 0 5).objectAt (atObject 0) progCtx 0x200 0x200 :=
  ⟨⟨rfl, rfl, rfl, by decide, by decide, by decide, by decide, by decide, exists_xlat (by decide), by decide, by decide, by decide, by decide, by decide,
      by decide⟩,
    ⟨rfl, by decide, by decide, by decide, by decide, by decide, by decide, by decide, exists_ok _ (by decide)⟩, objectAt_200 _ _ (by decide) (by decide)⟩

/-- A join unit with a store at 0x100000, a taken entry and a queued descriptor. -/
def unit0 : JoinUnit :=
  { JoinUnit.init 0 with
    accepted := true, ctx := 1, store := 0x100000, nent := 2, orphto := 1, queue := [0x1],
    entries := [{ idx := 1, state := .taken, traj := 0, count := 1, opened := 0, boot := 0, version := 0, terminal := true, len := 1, rewards := [],
                  cut := none, joinedAt := 0 }] }

/-- The machine with it. -/
def rewarding : State := { baseWith lane7 with joins := [unit0] }

/-- EPAPP and the others. -/
def fRew : Fields := { Fields.bare with od := .p 2, oa := .pair 6, ob := .v 8, oc := .v 3, oe := .p 4 }

theorem witness_RewardInstructions : (baseWith lane7).me? = some lane7 ∧ lane7.role = .single ∧ lane7.writeMask fRew ≠ 0 ∧
    ((baseWith lane7).join 0).accepted = false ∧ rewarding.me? = some lane7 ∧ (rewarding.join 0).accepted = true ∧
    (∀ l ∈ laneList (lane7.writeMask fRew), trajHaddr (lane7.opnd64 fRew (.pair 6) l) = rewarding.faddr ∧ trajHdie (lane7.opnd64 fRew (.pair 6) l) = 0) ∧
    (∃ l ∈ laneList ((aimed 0x100 0).writeMask fRew), trajHdie ((aimed 0x100 0).opnd64 fRew (.pair 6) l) ≠ 0) ∧
    (∃ t bad, appendLanes 0 (fun l => lane7.opnd64 fRew (.pair 6) l) (fun l => (List.range 8).map fun i => (lane7.reg (8 + i)).lane l)
      (laneList (lane7.writeMask fRew)) rewarding = .ok (t, bad)) ∧
    rewarding.canRelease lane7 ∧ (rewarding.join 0).queue = [0x1] ∧ rewarding.takerWaits 0 = false ∧ lane7.stopped = false ∧
    ((baseWith lane7).join 0).queue = [] ∧ (rewarding.freeWait 0).isSome = true ∧ 1 < (rewarding.join 0).nent ∧
    (∃ e ∈ (rewarding.join 0).entries, e.idx = 1 ∧ e.state = .taken) ∧ (∀ e ∈ (rewarding.join 0).entries, e.idx = 0 → e.state ≠ .taken) :=
  ⟨rfl, rfl, by decide, by decide, rfl, by decide, by decide, by decide, ⟨_, _, rfl⟩, ⟨by decide, by decide⟩, by decide, by decide, rfl, by decide,
    by decide, by decide, by decide, by decide⟩

/-! A step, and the host. -/

/-- A NOP, an AND of registers 6 and 7, and a GATE. -/
def nopWord : IWord := wordOf 0x07700001 0xE000E000 0xE000E000 0x0000E000 0
def andWord : IWord := wordOf 0x07700030 0x0006000F 0xE0000007 0x0000E000 0
def gateWord : IWord := wordOf 0x07700009 0xE000E000 0xE000E000 0x0000E000 0

/-- The issue of cohort 0, with the errors that occur before it. -/
def turn (us : List Upset) : Turn := { dt := 1, what := .issue 0, upsets := us }

/-- The machine whose code at its cohort's PC, in its handler or not, is a word, with some turns to come. -/
def coded (w : IWord) (c : Cohort) (ts : List Turn) : State := { State.reset.placeProgram (bytesOfWord w) with
  cohorts := [c], agenda := ts, ctxs := [{ progCtx with trap := progCtx.trap.map fun t => { t with hcode := 0x10000 } }] }

/-- That machine as its cohort's turn begins. -/
def began (w : IWord) (c : Cohort) (us : List Upset) : State := { (coded w c [turn us]).beginTurn (turn us) with cur := some 0 }

/-- The cohort may issue, its word is fetched, and what follows passes a test on the cohort and on the state after the fetch. -/
def fetches (s : State) (w : IWord) (p : Cohort → State → Bool) : Bool :=
  match s.cohort? 0 with
  | none => false
  | some d => s.powered && s.mayIssue d && !d.merged && (match s.ctx? d.ctx with
    | none => false
    | some x =>
      match s.fetchWord d.core x (codeAddr (d.codeBase x) d.here.pc) with
      | (.word v, s1) => v == w && decide ((codeAddr (d.codeBase x) d.here.pc).toNat % 8192 + 19 < 8192) && p d s1
      | _ => false)

/-- The word that a cohort would fetch holds an uncorrectable byte. -/
def spoilt (s : State) : Bool :=
  match s.cohort? 0 with
  | none => false
  | some d => match s.ctx? d.ctx with
    | none => false
    | some x =>
      let va := codeAddr (d.codeBase x) d.here.pc
      match ({ s with poison := [(s.xlat (.core d.core) d.core x .fetch va).key] } : State).fetchWord d.core x va with
      | (.data _, _) => s.mayIssue d && !s.poisoned (s.xlat (.core d.core) d.core x .fetch va).key 20
      | _ => false

theorem decodes : decodeFor 16 nopWord = .ok (.nop Fields.bare) ∧ decodeFor 16 andWord = .ok (.and { fv with oc := .none }) ∧
    decodeFor 16 gateWord = .ok (.gate Fields.bare) ∧ decodeFor 16 0 = .error ⟨1, 1, 0xFF⟩ := ⟨rfl, rfl, rfl, rfl⟩

theorem witness_StepRunsDecoded :
    (coded nopWord co [{ dt := 0, what := .event (.throttleEnd 0 99) }]).nextTurn = { dt := 0, what := .event (.throttleEnd 0 99) } ∧
    (coded nopWord co [turn []]).nextTurn = turn [] ∧ (coded nopWord co []).powered = true ∧
    fetches (began nopWord co []) nopWord (fun d s1 => d.nreg == 16 && !d.hmode && d.role == .single && d.dying == 0 &&
      (s1.collect (.nop Fields.bare) d).upsets == [] && s1.collect (.nop Fields.bare) d == s1) = true ∧
    fetches (began 0 co []) 0 (fun d _ => d.nreg == 16) = true ∧
    (fetches (began gateWord { handling 1 with s0 := some ⟨0, 1⟩ } []) gateWord (fun d _ => d.nreg == 16 && d.hmode) = true ∧ refusedInHandler (.gate Fields.bare) = true) ∧
    (fetches (began andWord co [.compact 0 6]) andWord (fun d s1 => d.nreg == 16 && !d.hmode &&
      ((s1.collect (.and { fv with oc := .none }) d).badShared d (.and { fv with oc := .none })).isSome) = true ∧
      refusedInHandler (.and { fv with oc := .none }) = false) ∧
    (match (began nopWord { co with code := 0x20000000 } []).fetchWord 0 progCtx 0x20000000 with
      | (.fault _ _, _) => true
      | _ => false) = true ∧
    spoilt (began nopWord co []) = true :=
  ⟨rfl, rfl, rfl, by decide +kernel, by decide +kernel, by decide +kernel, by decide +kernel, by decide +kernel, by decide +kernel⟩

theorem witness_MemoryStaysCanonical : (coded nopWord co [turn []]).memoryCanonical ∧ ∃ t, step (coded nopWord co [turn []]) = .next t :=
  ⟨by unfold State.memoryCanonical; decide, _, rfl⟩

/-- The machine with its link up. -/
def up : State := { base with cxlUp := true }

/-- A command of the host with a payload. -/
def mail (ps : List DWord) : MailCmd := { i3c := false, tag := 0xFFFF, payload := ps }

/-- A machine once the front end has taken a command up. -/
def opened (s : State) (ps : List DWord) (opc : Nat) : State := (s.openMail (mail ps) opc).getD s

theorem opens (s : State) (ps : List DWord) (opc : Nat) (h : s.cxlUp = true) (g : s.mailbox.cmd = 0)
    (f : s.mailMay false = true) : s.mailOpen (opened s ps opc) (mail ps) opc := by
  refine ⟨Or.inr h, ?_, f, ?_⟩
  · simp [State.mailOf, mail, g]
  · simp [opened, State.openMail, State.mailOf, mail, g]

/-- A context descriptor for context 2, and its trap block (R197, R225). -/
def ctxPay (reserved : DWord) : List DWord := [0x80, 0x2000, 0, 0, 2, 0, 0, 0, reserved, 2, 0, 0, 0, 0, 0, 0, 0]

/-- A queue descriptor of the program's context with 2^(logsz + 4) slots (R196). -/
def queuePay (logsz : DWord) : List DWord := [1023, 0x2000, 0x3000, 0x3020, logsz, 0x40, 0, 0, 0]

/-- A membership block: an empty shard list at 0x500 (R247). -/
def memPay : List DWord := [1, 0x500, 0x200000, 0x2000, 0x600]

/-- A join block of one entry with γ = λ = 1 (R273). -/
def joinPay (orphto : DWord) : List DWord := [15, 1, 0x100000, 0, orphto, 0x3F8000003F800000]

/-- The machine with its context halted, stopped and recorded or not. -/
def stopped (written : Bool) : State := { up with ctxs := [{ progCtx with halt := true, stopWritten := written }] }

set_option maxRecDepth 20000 in
theorem witness_MailboxCommands :
    (∀ ps opc, up.mailOpen (opened up ps opc) (mail ps) opc) ∧
    ((opened up [6143] 10).payload (mail [6143]) 0 8 = 6143 ∧ unitExists 6143 = true ∧ unitExists 6144 = false ∧ unitExists 0xFFFF = false) ∧
    ((opened { up with released := false } [] 9).released = false ∧ up.released = true) ∧
    (let s : State := { up with units := [{ UnitRec.init 7 with state := 1, passRow := 2 }] };
      (opened s [7] 11).payload (mail [7]) 0 8 = 7 ∧ (s.unitRec 7).state = 1 ∧ 2 ≤ (s.unitRec 7).passRow) ∧
    (up.descriptorBad ((opened up (ctxPay 0) 2).payload (mail (ctxPay 0)) 0 8) ((opened up (ctxPay 0) 2).payload (mail (ctxPay 0)) 8 64) = false ∧
      bitsOf ((opened up (ctxPay 0) 2).payload (mail (ctxPay 0)) 72 64) 15 0 = bitsOf ((opened up (ctxPay 0) 2).payload (mail (ctxPay 0)) 8 64) 207 192 ∧
      trapBad ((opened up (ctxPay 0) 2).payload (mail (ctxPay 0)) 72 64) = false ∧
      up.descriptorBad ((opened up (ctxPay 1) 2).payload (mail (ctxPay 1)) 0 8) ((opened up (ctxPay 1) 2).payload (mail (ctxPay 1)) 8 64) = true) ∧
    ((opened up (queuePay 12) 3).payload (mail (queuePay 12)) 0 8 = 1023 ∧
      queueBad ((opened up (queuePay 12) 3).payload (mail (queuePay 12)) 8 64) = false ∧
      queueBad ((opened up (queuePay 13) 3).payload (mail (queuePay 13)) 8 64) = true ∧
      bitsOf ((opened up (queuePay 12) 3).payload (mail (queuePay 12)) 8 64) 308 256 = progCtx.ctxva.toNat) ∧
    (let t := opened up memPay 4;
      let v := t.payload (mail memPay) 8 32;
      t.payload (mail memPay) 0 8 = 1 ∧ anySet v [(255, 245), (127, 117), (63, 53)] = false ∧ bitsOf v 52 0 = 0x500 ∧ bitsOf v 116 64 % 8192 = 0 ∧
      bitsOf v 191 128 % 8192 = 0 ∧ bitsOf v 244 192 % 64 = 0 ∧
      (match readRanges 1 257 0x500 t with
        | .good rs _ => rs.isEmpty
        | _ => false) = true) ∧
    (let t := opened up (joinPay 1) 5;
      t.payload (mail (joinPay 1)) 0 8 = 15 ∧ t.payload (mail (joinPay 1)) 8 8 = 1 ∧ joinBad (t.payload (mail (joinPay 1)) 16 32) = false ∧
      joinBad ((opened up (joinPay 0) 5).payload (mail (joinPay 0)) 16 32) = true ∧ (up.join 15).entries = []) ∧
    (up.memState ∈ [MemState.idle, .expelled, .spareReady] ∧ up.failed = false ∧ MemState.member ∉ [MemState.idle, .expelled, .spareReady]) ∧
    (let t := opened up [1] 7;
      t.payload (mail [1]) 0 8 = 1 ∧ up.ctx? (BitVec.ofNat 16 1) = some progCtx ∧
      ((stopped false).ctx? 1).any (fun x => x.halt && !x.stopWritten) = true ∧
      (stopped true).mayResume { progCtx with halt := true, stopWritten := true } = true ∧ (∀ c ∈ (stopped true).cohorts, c.ctx = 1 → c.pend = 0)) ∧
    (∀ p ∈ up.packets, p.ctx = 1 → p.done = true) ∧ progCtx.halt = false ∧ (opened up [15] 12).payload (mail [15]) 0 8 = 15 :=
  ⟨fun _ _ => opens _ _ _ rfl rfl (by decide +kernel), by decide +kernel⟩

/-- A queue of 16 slots at slot 3. -/
def queue0 : Queue :=
  { num := 0, ctx := 1, ring := 0x1000, accidx := 0x2800, errrec := 0x2820, logsz := 0, next := 3, widx := none, broken := false, errors := 0,
    lastSeq := none }

/-- A machine at step 5. -/
def stepping (sealed : Option Word) : State := { up with stepdone := 5, ckpt := 2, sealed := sealed }

theorem witness_RegisterSpaceWrites : up.cxlUp = true ∧ ({ up with queues := [queue0] } : State).queue? 0 = some queue0 ∧ queue0.broken = false ∧
    1 ≤ ((4 : Word) - queue0.next).toNat ∧ ((19 : Word) - queue0.next).toNat = 2 ^ (queue0.logsz + 4) ∧ 2 ^ (queue0.logsz + 4) < ((20 : Word) - queue0.next).toNat ∧
    (stepping none).heldWrites = [] ∧ (6 : Word) = (stepping none).stepdone + 1 ∧ (7 : Word) ≠ (stepping none).stepdone + 1 ∧
    (stepping (some 5)).stepOpen 6 = true ∧ (stepping none).stepOpen 6 = false ∧
    1 ≤ ((3 : Word) - (stepping none).ckpt).toNat ∧ ((5 : Word) - (stepping none).ckpt).toNat < 2 ^ 31 ∧ ((stepping none).stepdone - 5).toNat < 2 ^ 31 ∧
    (List.replicate 32 (0 : Byte)).length = 32 ∧ 4064 % 32 = 0 ∧ 4064 < 4096 ∧ bitsOf (leNat (List.replicate 32 0)) 255 160 = 0 ∧
    (List.replicate 31 (0 : Byte)).length ≠ 32 :=
  ⟨rfl, rfl, rfl, by decide, by decide, by decide, rfl, by decide, by decide, by decide, by decide, by decide, by decide, by decide, by decide, by decide,
    by decide, by decide, by decide⟩

/-! Packets, placement and engines. -/

/-- Whether a result is `ok` with given bytes and a state that passes a test. -/
def isRead {ε : Type} (r : Except ε (List Byte × State)) (bs : List Byte) (p : State → Bool) : Bool :=
  match r with
  | .ok a => a.1 == bs && p a.2
  | .error _ => false

theorem exists_read {ε : Type} {r : Except ε (List Byte × State)} (bs : List Byte) (p : State → Bool) (h : isRead r bs p = true) :
    ∃ t, r = .ok (bs, t) ∧ p t = true := by
  cases r with
  | ok a =>
    simp only [isRead, Bool.and_eq_true, beq_iff_eq] at h
    exact ⟨a.2, by rw [← h.1], h.2⟩
  | error e => cases h

/-- A check that is `good` with a value and a state that pass a test. -/
theorem exists_good {α : Type} {r : Checked α} (p : α → Bool) (h : (match r with
    | .good a _ => p a
    | _ => false) = true) : ∃ a t, r = .good a t ∧ p a = true := by
  cases r with
  | good a t => exact ⟨a, t, rfl, h⟩
  | bad c d t => cases h
  | wait t => cases h

/-- The bytes of some 64-bit words. -/
def wordBytes8 (ws : List Nat) : List Byte := ws.flatMap (natBytes 8)

/-- The queue with a packet in slot 3, announced; a kernel descriptor of one cohort of 8 lanes lies at 0x3000. -/
def announced (ws : List Nat) : State :=
  { up with queues := [{ queue0 with widx := some 4 }],
            mem := memWrite (memWrite up.mem 0x10C0 (wordBytes8 ws)) 0x3000 (wordBytes8 [0x10000, 0, 0x100108, 0, 0, 0, 0, 0]) }

/-- A NOP packet of sequence number 3, and a LAUNCH of the kernel at 0x3000 with one workgroup on die 0. -/
def nopPacket : List Nat := [0x300000401, 0, 0, 0, 0, 0, 0, 0]
def launchPacket : List Nat := [0x300000101, 0x3000, 0, 0x100000001, 0x200000, 0, 0, 0]

/-- ACCIDX can be written, and for a LAUNCH its checks pass. -/
def accepts (ws : List Nat) (launch : Bool) (s2 : State) : Bool :=
  match s2.feWrite 1 0x2800 (natBytes 8 4) with
  | .ok s3 => !launch || (match ({ s3.setQueue { queue0 with widx := some 4, next := 4, lastSeq := some 3 } with
      packets := s3.packets ++ [Queue.packetOf { queue0 with widx := some 4 } (wordBytes8 ws)] } : State).checkLaunch 1
        (Queue.packetOf { queue0 with widx := some 4 } (wordBytes8 ws)).words with
    | .good _ _ => true
    | _ => false)
  | .error _ => false

/-- The packet can be read whole. -/
def reads (ws : List Nat) (launch : Bool) (s1 : State) : Bool :=
  isRead (s1.feRead 1 0x10C0 64) (wordBytes8 ws) (accepts ws launch)

theorem reads_good {s : State} {ws : List Nat} {launch : Bool} (h : isRead (s.feRead 1 0x10C0 8) ((wordBytes8 ws).take 8) (reads ws launch) = true) : ∃ s1, s.feRead 1 0x10C0 8 = .ok ((wordBytes8 ws).take 8, s1) ∧
      ∃ s2, s1.feRead 1 0x10C0 64 = .ok (wordBytes8 ws, s2) ∧ accepts ws launch s2 = true := by
  obtain ⟨s1, h1, h2⟩ := exists_read (r := s.feRead 1 0x10C0 8) ((wordBytes8 ws).take 8) (reads ws launch) h
  exact ⟨s1, h1, exists_read (r := s1.feRead 1 0x10C0 64) (wordBytes8 ws) (accepts ws launch) h2⟩

/-- A packet's first word has VALID set and the sequence number 3, and no reserved field is set. -/
def header (ws : List Nat) (type : Nat) : Prop :=
  leNat ((wordBytes8 ws).take 8) % 2 = 1 ∧ bitsOf (leNat ((wordBytes8 ws).take 8)) 63 32 = 3 ∧ bitsOf (recWord (wordBytes8 ws) 0) 31 16 = 0 ∧
    bitsOf (recWord (wordBytes8 ws) 0) 7 3 = 0 ∧ bitsOf (recWord (wordBytes8 ws) 0) 2 2 = 0 ∧ bitsOf (recWord (wordBytes8 ws) 0) 15 8 = type

theorem witness_PacketsRun_accept : (announced nopPacket).queue? 0 = some { queue0 with widx := some 4 } ∧
    ((4 : Word) - queue0.next).toNat = 1 ∧ (announced nopPacket).unfinished 0 < 256 ∧ (announced nopPacket).fwMay 0 (some 0) (isNotify 0) = true ∧
    (announced launchPacket).fwMay 0 (some 0) (isNotify 0) = true ∧ (announced nopPacket).halted 1 = false ∧ 0x1000 + 64 * ((3 : Word).toNat % 2 ^ (0 + 4)) = 0x10C0 ∧
    (∃ s1, (announced nopPacket).feRead 1 0x10C0 8 = .ok ((wordBytes8 nopPacket).take 8, s1) ∧
      ∃ s2, s1.feRead 1 0x10C0 64 = .ok (wordBytes8 nopPacket, s2) ∧ accepts nopPacket false s2 = true) ∧ header nopPacket 4 ∧
    (∃ s1, (announced launchPacket).feRead 1 0x10C0 8 = .ok ((wordBytes8 launchPacket).take 8, s1) ∧
      ∃ s2, s1.feRead 1 0x10C0 64 = .ok (wordBytes8 launchPacket, s2) ∧ accepts launchPacket true s2 = true) ∧ header launchPacket 1 :=
  ⟨rfl, by decide, by decide, by decide, by decide, by decide, by decide, reads_good (by decide +kernel), by unfold header; decide, reads_good (by decide +kernel),
    by unfold header; decide⟩

/-- A packet in the table of queue 0, at number 3. -/
def packet0 (type : Nat) (started : Bool) : PacketEntry :=
  { queue := 0, seq := 3, words := [BitVec.ofNat 64 (256 * type), 0x4000, 0x2000, 4, 0, 0, 0, 0], started := started, refused := false, done := false,
    signal := 0, ctx := 1, prev := none, copies := [], grids := false, subs := [] }

/-- The machine with it, a launch of it that has run to its end, and a block of copies at 0x4100 whose one entry lies at 0x4200. -/
def tabled (type : Nat) (started : Bool) (ls : List Launch) : State :=
  { up with queues := [queue0], packets := [{ packet0 type started with words := if type = 2 then [0x200, 0x4100, 0, 0, 0, 0, 0, 0] else (packet0 type started).words }],
            launches := ls, mem := memWrite (memWrite up.mem 0x4100 (wordBytes8 [2, 0x4200, 1, 0, 0, 0, 0, 0])) 0x4200 (wordBytes8 [0x5000, 0x5100, 128, 0]) }

/-- The launch of packet 3, run to its end. -/
def ended : Launch := { progLaunch with id := 4, seq := 3, exited := 1 }

/-- A program with one step at 0x4300: a `.bcast` of 256 bytes at 0x6100 by this package alone. -/
def prog0 : CollProg := { id := 8, queue := 0, seq := 3, ctx := 1, list := 0x4300, count := 1, tag := 0, next := 0 }

/-- The machine with it. -/
def programmed : State := { up with progs := [prog0], mem := memWrite up.mem 0x4300 (wordBytes8 [0x300000000, 0x6100, 256, 0]) }

/-- The step of a program is read, its data is read, and its result and its MAP are written. -/
def progRuns (s : State) (g : CollProg) : Bool :=
  match s.feRead g.ctx (g.list.toNat + 32 * g.next) 32 with
  | .error _ => false
  | .ok (bs, s1) =>
    let p := progStepOf bs
    let alone := match s1.groupRanks (bitsOf p.imm 7 4) with
      | [e] => e.2.faddr == s1.faddr && e.2.state == 0
      | _ => false
    p.ok && alone && p.sub == 3 && bitsOf p.imm 31 8 == 0 && (match s1.feRead g.ctx p.buf p.len with
      | .error _ => false
      | .ok (own, s2) =>
        let out := p.outcome (g.id + g.next) 1 0 false [own]
        match s2.feWrite g.ctx p.buf (out.flatMap (·.2)) with
        | .error _ => false
        | .ok s3 =>
          match s3.feWrite g.ctx (g.list.toNat + 32 * g.next + 24) (natBytes 8 (mapOf (out.map (·.1)))) with
          | .error _ => false
          | .ok _ => true)

/-- The machine in which both copies of packet 3's entry are lost. -/
def lost : State := { tabled 1 true [ended] with upsets := [.tableCopy 0 3 0, .tableCopy 0 3 1] }

theorem witness_PacketsRun : (∀ t ∈ [1, 2, 3], ∃ p, (tabled t false []).packet? 0 3 = some p ∧ p.done = false ∧ (tabled t false []).mayStart p = true ∧
      p.type = t ∧ p.signal = 0 ∧ ∀ i, i < 2 → p.copyBad i ∉ (tabled t false []).upsets) ∧
    (∃ bs u, checkBlocks 1 [0x4100] (tabled 2 false []) = .good bs u) ∧
    (∃ t1, (tabled 4 false []).packet? 0 3 = some (packet0 4 false) ∧ (packet0 4 false).refused = false ∧
      (tabled 4 false []).fwMay 0 (some 0) (isCompletion 0 3) = true ∧ (tabled 4 false []).completePacket (packet0 4 false) = .ok t1) ∧
    ((tabled 1 true [ended]).packet? 0 3 = some (packet0 1 true) ∧ (tabled 1 true [ended]).launchEnded ended = true ∧ (tabled 1 true [ended]).halted 1 = false ∧
      (tabled 1 true [ended]).launches.filter (fun m => m.queue == 0 && m.seq == 3) = [ended] ∧ (tabled 1 true [ended]).launch? 4 = some ended ∧
      ended.successor = false ∧ ended.degraded = false ∧ (tabled 1 true [ended]).jobs = [] ∧ (tabled 1 true [ended]).progs = []) ∧
    (∃ t1, ((tabled 1 true [ended]).setLaunch { ended with complete := true }).signalDec 1 0 = .ok t1) ∧
    ((packet0 1 true).copyBad 0 ∈ lost.upsets ∧ (packet0 1 true).copyBad 1 ∈ lost.upsets ∧ lost.queue? 0 = some queue0 ∧ queue0.broken = false ∧
      ∃ t1, lost.breakQueue 0 3 9 (lost.lostDetail queue0) = .ok t1) ∧
    (programmed.progs.find? (fun h => h.id == 8) = some prog0 ∧ programmed.halted 1 = false ∧ prog0.dead = false ∧ progRuns programmed prog0 = true) :=
  ⟨by decide +kernel, by
      obtain ⟨a, t, h, -⟩ := exists_good (r := checkBlocks 1 [0x4100] (tabled 2 false [])) (fun _ => true) (by decide +kernel)
      exact ⟨a, t, h⟩, ⟨_, rfl, rfl, by decide +kernel, rfl⟩, by decide +kernel, ⟨_, rfl⟩,
    ⟨by decide +kernel, by decide +kernel, rfl, rfl, by
      obtain ⟨a, h, -⟩ := exists_ok (r := lost.breakQueue 0 3 9 (lost.lostDetail queue0)) (fun _ => true) (by decide +kernel)
      exact ⟨a, h⟩⟩, by decide +kernel⟩
/-! Placement, engines and pages. -/

/-- The launch of two workgroups of the placed program's kernel, two cohorts of 8 lanes each, that the last die is to place. -/
def shared (h : DieShare) : Launch :=
  { progLaunch with id := 5, nwg := 2, kern := { progKernel with cohort := 8, wgsize := 2, regs := 16 }, shares := [h] }

/-- What the last die has to place of it. -/
def lastShare : DieShare := { die := 15, next := 0, stop := 2, passed := 0, target := none }

/-- The machine that is to place it. -/
def placing (h : DieShare) : State := { up with launches := [progLaunch, shared h] }

/-- The placed program's workgroup and cohort with a pre-emption that was asked for at cycle 0. -/
def victim : Wg := { progWg with blocks := 0, preempt := some (0, 5, 0) }

/-- Its machine; the context's save area lies at 0x180000. -/
def saving (n : Nat) : State :=
  { placing lastShare with wgs := [victim], cycles := List.replicate 16 n,
                           ctxs := [{ progCtx with trap := progCtx.trap.map fun t => { t with savea := 0x180000, savelen := 0x2000 } }] }

/-- The victim, saved: its record lies at the start of the save area. -/
def savedWg : SavedWg :=
  { id := 0, wg := { victim with preempt := none }, cohorts := [co], banks := [], tile := [], full := [], quadGroup := false, die := 0 }

/-- Its machine. -/
def restorable : State :=
  { saving 0 with cohorts := [], wgs := [], saved := [savedWg],
                  ctxs := [{ progCtx with trap := progCtx.trap.map fun t => { t with savea := 0x180000, savelen := 0x2000 }, saves := [(0, 0, 64)] }] }

/-- A continuation that waits for handle 63 of die 0, which is complete. -/
def contin : Parked :=
  { die := 0, index := 63, addr := 0x100000, ctx := 1, launch := 0, core := 0, wgid := 0, wg := 0, cid := 0, lrel := false, podPhase := 0 }

/-- Its machine. -/
def resuming : State :=
  { up with cohorts := [], wgs := [], parked := [contin],
            waitTable := [{ die := 0, index := 63, op := .learner, cid := 0, ctx := 1, seq := 0, done := some (7, 0), parked := true }] }

/-- A remote write on its way to the last register of a cohort. -/
def landing : Landing := { sender := 4, target := 0, reg := 15, val := .u 9 }

/-- Whether a result is `ok`. -/
def isOk {ε α : Type} (r : Except ε α) : Bool :=
  match r with
  | .ok _ => true
  | .error _ => false

theorem of_isOk {ε α : Type} {r : Except ε α} (h : isOk r = true) : ∃ a, r = .ok a := by
  cases r with
  | ok a => exact ⟨a, rfl⟩
  | error e => cases h

set_option maxRecDepth 20000 in
theorem witness_WorkgroupsMove :
    (((placing lastShare).nameTargets 15).heads 15 = [(shared lastShare, lastShare)] ∧ (shared lastShare).kern.qg = false ∧
      (shared lastShare).kern.indigo = false ∧ ((placing lastShare).nameTargets 15).findPlace (shared lastShare) 15 = some [(1440, 0)]) ∧
    (let h : DieShare := { lastShare with passed := 4, target := some 1535 };
      (placing h).heads 15 = [(shared h, h)] ∧ ∀ c ∈ (placing h).cores, c.reserve = none) ∧
    ((saving 8191).wg? 0 = some victim ∧ victim.twin = none ∧ victim.preempt = some (0, 5, 0) ∧ (saving 8191).drained victim = true ∧
      (saving 8191).launch? victim.launch = some progLaunch ∧ (saving 8191).halted progLaunch.ctx = false ∧ (saving 8191).landings = [] ∧
      ∃ t1, writeSaves progLaunch ((((saving 8191).launch? 5).map (·.ctx)).getD 0) [victim]
        (((saving 8191).release victim.core).landFor victim.id) = .ok t1) ∧
    0 + 8192 ≤ (saving 8192).cycle (dieOf victim.core) ∧
    (restorable.saved.find? (fun y => y.id == 0) = some savedWg ∧ restorable.launch? savedWg.wg.launch = some progLaunch ∧
      restorable.mayPlace progLaunch = true ∧ savedWg.wg.twin = none ∧ (restorable.restorePlace savedWg progLaunch (dieCores 0)).isSome = true ∧
      ∃ a, restorable.readSave savedWg progLaunch.ctx = .ok a ∧ (a.2.wg? 0).isNone = true) ∧
    (resuming.resumable 0 = some (contin, { die := 0, index := 63, op := .learner, cid := 0, ctx := 1, seq := 0, done := some (7, 0), parked := true }) ∧
      resuming.launch? 0 = some progLaunch ∧ (resuming.bestCore progLaunch false (dieCores 0)).isSome = true ∧
      ∃ a, resuming.feRead progLaunch.ctx contin.addr.toNat 192 = .ok a ∧ (bitsOf (leNat (a.1.take 128)) 180 176 == 0 &&
        isOk (a.2.feRead progLaunch.ctx (contin.addr.toNat + 192) 0)) = true) ∧
    (({ up with landings := [landing] } : State).landings.find? (fun y => y.sender == 4) = some landing ∧ up.cohort? 0 = some co ∧
      co.holdsReg 15 = false ∧ up.halted co.ctx = false ∧ ({ up with cohorts := [] } : State).cohort? 0 = none ∧ up.saved = []) :=
  ⟨by decide +kernel, by decide +kernel, ⟨by decide +kernel, rfl, rfl, by decide +kernel, by decide +kernel, by decide +kernel, rfl, of_isOk (by decide +kernel)⟩,
    by decide +kernel, ⟨by decide +kernel, by decide +kernel, by decide +kernel, rfl, by decide +kernel, exists_ok _ (by decide +kernel)⟩,
    ⟨by decide +kernel, by decide +kernel, by decide +kernel, exists_ok _ (by decide +kernel)⟩, by decide +kernel⟩
/-- An accepted MMA of the last bank with every lane, on line 0 of the region. -/
def mmaAll : Mma :=
  { seq := 3, cid := 0, wg := 0, ctx := 1, batch := none, bank := 31, typA := .s8x4, typB := .s8x4, tr := false, step := 0, lanes := 0xFF,
    aVals := List.replicate 64 0x0201020102010201, aScales := [], line0 := 0, ilv := 0, soff := 0, place := 0, pc := 6, pre := [] }

/-- The program's machine with a core of its own. -/
def coreWith (k : CoreState) : State := { up with cores := [k] }

/-- A core whose first workgroup's lines are full. -/
def fullCore : CoreState := { CoreState.init 0 with full := List.range 64 }

/-- Some bytes in tile memory of that core. -/
def withTile (s : State) : State := { s with mem := memWrite s.mem (tileKey 0 0) (List.replicate 8 3) }

/-- A cohort that waits for all 32 banks. -/
def banking : Cohort := { co with wait := .banks (.v 15) }

/-- A record of one dimension of 32 words at 0x5000. -/
def rec0 : TRecord :=
  { base := 0x5000, typ := .f32, rank := 1, fill := 0, fillv := 0, ilv := 0, exts := [32, 0, 0, 0, 0], strides := [0, 0, 0, 0, 0],
    boxes := [32, 0, 0, 0, 0], pitch := 0 }

/-- A job of the placed program's cohort on the last line of its region. -/
def job0 (kind : JobKind) (status : Nat) : Job :=
  { id := 6, kind := kind, cid := 0, core := 0, place := 0, wg := 0, launch := 0, ctx := 1, pc := 2, opc := 0xC0, recAddr := 0, line0 := 63, nlines := 1,
    ilv := 0, soff := 0, trec := some rec0, coords := [0, 0, 0, 0, 0], indexes := [], idxVa := 0, off := 0, ctrVa := 0x260, ctrPa := 0x260, scope := .wg,
    epi := none, srcRank := 0, srcCore := 0, srcLine := 0, reads := [], writes := [], next := 0, total := 32, satSeen := true, status := status,
    pausedAt := 0xA000, pre := [], landed := [], seqNo := 0, role := .single, windows := [], winDone := 0, pol := 0, mate := none }

/-- Its machine. -/
def working (j : Job) : State := withTile { coreWith fullCore with jobs := [j] }

/-- Whether the elements of a line land to a state in which the job is still listed. -/
def landsJob (r : Except State (State × Job × Option Job)) (id : Nat) : Bool :=
  match r with
  | .ok (s, _, none) => (s.job? id).isSome
  | _ => false

theorem of_landsJob {r : Except State (State × Job × Option Job)} {id : Nat} (h : landsJob r id = true) :
    ∃ s j i, r = .ok (s, j, none) ∧ s.job? id = some i := by
  unfold landsJob at h
  split at h
  · obtain ⟨i, hi⟩ := Option.isSome_iff_exists.mp h
    exact ⟨_, _, i, rfl, hi⟩
  · cases h

/-- A state and a job that a step of a job answers, the job still listed. -/
def stepsJob (r : JobStep) (id : Nat) : Bool :=
  match r with
  | .ok (s, _) => (s.job? id).isSome
  | .error _ => false

theorem of_stepsJob {r : JobStep} {id : Nat} (h : stepsJob r id = true) : ∃ s j i, r = .ok (s, j) ∧ s.job? id = some i := by
  cases r with
  | ok a =>
    obtain ⟨i, hi⟩ := Option.isSome_iff_exists.mp h
    exact ⟨a.1, a.2, i, rfl, hi⟩
  | error e => cases h

theorem witness_EngineEvents :
    ((withTile (coreWith { fullCore with mmaQ := [mmaAll] })).nextMma 0 = some mmaAll ∧
      (withTile (coreWith { fullCore with mmaQ := [mmaAll] })).mmaReady 0 mmaAll = true ∧
      mmaAll.lines.find? ((withTile (coreWith { fullCore with mmaQ := [mmaAll] })).lineBad 0) = none ∧
      (withTile (coreWith { fullCore with mmaQ := [mmaAll] })).replayBad 2 0 = false ∧
      ({ withTile (coreWith { fullCore with mmaQ := [mmaAll] }) with upsets := [.replay 0x4000] } : State).replayBad 2 0 = true ∧
      ({ withTile (coreWith { fullCore with mmaQ := [mmaAll] }) with upsets := [.mismatch 0x4000] } : State).replayBad 2 0 = false ∧
      Upset.bank 0 31 ∉ [Upset.replay 0x4000, .mismatch 0x4000] ∧ (0x4000 : BitVec 16) = BitVec.ofNat 16 (2 * 8192 + 0)) ∧
    (let s : State := { coreWith { fullCore with bankQ := [(0, 32)] } with cohorts := [banking] };
      (s.core 0).bankQ = [(0, 32)] ∧ 32 ≤ ((s.core 0).banks.filter fun b => b.owner.isNone).length ∧ s.cohort? 0 = some banking) ∧
    (let b : Bank := { owner := some 7, freed := true, vals := [(5, 9)] };
      let s := coreWith { fullCore with banks := List.replicate 31 { owner := none, freed := false, vals := [] } ++ [b] };
      (s.core 0).banks[31]? = some b ∧ s.bankBusy 0 31 = false ∧ (s.core 0).bankQ = []) ∧
    (∀ k ∈ [JobKind.rcopy, .copyLd, .copySt], (working (job0 k 0)).job? 6 = some (job0 k 0) ∧ (working (job0 k 0)).halted 1 = false ∧
      (working (job0 k 0)).ctx? 1 = some progCtx ∧ (working (job0 k 0)).jobBlocked (job0 k 0) = false ∧
      (working (job0 k 0)).lineFails (job0 k 0) = none ∧
      (({ working (job0 k 0) with upsets := [.replay 0x8000] } : State).lineFails (job0 k 0)).isSome = true) ∧
    (let j : Job := { job0 .rcopy 0 with total := 1 };
      j.srcRank = (working j).pkgRank.toNat ∧ (working j).servesLine j.srcCore j.srcLine = true ∧
      (working j).linesFull j.srcCore [j.srcLine] = true ∧ (working j).lineBad j.srcCore j.srcLine = false ∧ (working j).plainStores) ∧
    (∃ s1 j1 i, loadElems progCtx rec0 0 33 ((working (job0 .copyLd 0)).lineReplayed (job0 .copyLd 0)) (job0 .copyLd 0) none = .ok (s1, j1, none) ∧
      s1.job? 6 = some i) ∧
    (∃ s1 j1 i, storeElems progCtx rec0 0 33 ((working (job0 .copySt 0)).lineReplayed (job0 .copySt 0)) (job0 .copySt 0) = .ok (s1, j1) ∧ s1.job? 6 = some i) ∧
    ((working (job0 .copyLd 1)).pageReq? 1 none 0xA000 = none ∧
      ({ working (job0 .copyLd 1) with pageReqs := [{ ctx := 1, va := 0, cid := none, status := 2 }] } : State).pageReq? 1 none 0xA000 =
        some { ctx := 1, va := 0, cid := none, status := 2 }) ∧
    ((working (job0 .copyLd 3)).job? 6 = some (job0 .copyLd 3) ∧ (working (job0 .copyLd 3)).poisoned 0x260 8 = false ∧
      (working (job0 .copyLd 3)).wordHeld 0x260 8 = false ∧ (job0 .copyLd 3).held = true ∧ (job0 .copyLd 3).windows = [] ∧
      (∀ l, (job0 .copyLd 3).ctrLeaf = some l → l < 0x260 ∨ 0x268 ≤ l)) :=
  ⟨by decide +kernel, by decide +kernel, by decide +kernel, by decide +kernel, ⟨by decide +kernel, by decide +kernel, by decide +kernel, by decide +kernel, .inl rfl⟩, of_landsJob (by decide +kernel),
    of_stepsJob (by decide +kernel), by decide +kernel, by decide +kernel⟩

/-- A line of a combining buffer with its first and its last byte. -/
def wcLine : WcLine := { entry := 0, line := 0xA0, bytes := [(0, 5), (127, 9)], last := 0, owners := [] }

/-- The placed program's machine with a table at 0x8000 whose first leaf, for the page at 0x800000, has P = 0; the launch lists that page, whose
bytes lie at host address 0x40000, and the pool has one frame at 0x200000. -/
def paging : State :=
  { up with mem := memPut (memPut up.mem 0x6008 8 0x8001) 0x8000 8 0x1B,
            launches := [{ progLaunch with ranges := [{ va := 0x800000, len := 8192, host := 0x40000 }] }],
            ctxs := [{ progCtx with rpool := 0x200000, rpoolLen := 8192, pinned := [(0x800000, 0, 0)] }],
            pageReqs := [{ ctx := 1, va := 0x800000, cid := none, status := 0 }] }

/-- Two cohorts on a slot, the second of which has lost a read to the first. -/
def rivals : State := { base with cohorts := [co, { co with cid := 1, place := 1, since := 1 }] }

theorem witness_BuffersAndPages_pins : rivals.bankGrants 0 0 3 [] ((rivals.onSlot 0 0).map (·.cid)) = some 0 ∧
    servePins ((rivals.cycle 0) - (rivals.core 0).pinsAt) [] (rivals.core 0).pins = [] := by decide +kernel

theorem witness_BuffersAndPages :
    (let c : Cohort := { co with starve := 4084, yieldUntil := some 0 };
      (baseWith c).cohort? c.cid = some c ∧ c.wait = .none ∧ c.stopped = false ∧ 0 ≤ (baseWith c).cycle (dieOf c.core)) ∧
    (let s (n : Nat) : State := { coreWith { fullCore with wc := [wcLine] } with cycles := List.replicate 16 n };
      ((s 256).core 0).wc = [wcLine] ∧ (wcLine.bytes.map Prod.fst).Nodup ∧ wcLine.last + 256 ≤ (s 256).cycle 0 ∧
      (s 255).cycle 0 < wcLine.last + 256) ∧
    (∃ x e, paging.ctx? 1 = some x ∧ walkLevels paging 1 [] 0x801FFF [0, 1, 2, 3] x.root = .leaf e false ∧
      (∃ q ∈ paging.pageReqs, q.ctx = 1 ∧ q.va = paging.pageBase 1 0x801FFF ∧ q.status = 0) ∧
      paging.rangeOf 1 e.va e.size = some { va := 0x800000, len := 8192, host := 0x40000 } ∧ x.rpoolLen ≠ 0 ∧
      0x40000 + (e.va - 0x800000) + e.size ≤ 2 ^ 50 ∧ x.freeFrame e.size = some 0x200000 ∧ (paging.fwIdle 0).isSome = true ∧ e.leaf + 8 ≤ 0x200000) :=
  ⟨by decide +kernel, by decide +kernel, { progCtx with rpool := 0x200000, rpoolLen := 8192, pinned := [(0x800000, 0, 0)] },
    { ctx := 1, va := 0x800000, size := 8192, frame := 0, mt := 0, x := true, w := true, leaf := 0x8000 }, by decide +kernel⟩
/-! Collectives, pulls, ports and the pod barrier. -/

/-- An entry of a rank table for an address. -/
def rankAt (fa : BitVec 20) : RankEntry := { groups := 1, shard := 0, pdom := 0, pod := 0, state := 0, faddr := fa, resv := 0 }

/-- A table of two packages: this one and the one at 5. -/
def table2 : RankTable := { table0 with gen := 0, entries := [rankAt 0, rankAt 5] }

/-- A port that is up, whose replay buffer has room for one flit more, or for more. -/
def port0 (n : Nat) : Port := { Port.init 0 with up := true, replay := List.replicate n { seq := 0, ft := 1, cls := 0, data := [] } }

/-- Port 1 of die 0, up and idle. -/
def port1 : Port := { Port.init 1 with up := true }

/-- A machine from which each of two addresses can be reached. -/
def routed (s : State) : State := { s with ports := [port0 511, port1], routes := [(0, 5, 0), (15, 6, 1)] }

/-- Whether a packet can leave a die through a port at once. -/
def leavesBy (s : State) (die : Nat) (k : Packet) (n : Nat) : Bool :=
  (s.routes.find? (fun r => r.1 == die && r.2.1 == k.dst)).any (fun r => s.usePort r.2.2 == some n) && decide ((s.port n).queued = []) &&
    !(s.port n).xoff.getLsbD k.body.cls && decide ((s.port n).replay.length + k.flits ≤ 512)

theorem of_leavesBy {s : State} {die n : Nat} {k : Packet} (h : leavesBy s die k n = true) : s.sendsAt die k n := by
  simp only [leavesBy, Bool.and_eq_true, Option.any_eq_true, Bool.not_eq_true', decide_eq_true_eq, beq_iff_eq] at h
  exact ⟨h.1.1.1, h.1.1.2, h.1.2, h.2⟩

/-- A machine with a collective of the placed workgroup, alone or in a group of two. -/
def collecting (k : Coll) (t : Option RankTable) : State :=
  { working { job0 .collStep 0 with id := 9 } with colls := [k], adopted := t, fresh := 20 }

/-- The conditions under which a collective starts. -/
def mayStartColl (k : Coll) (s : State) : Bool :=
  s.colls.find? (fun (x : Coll) => x.id == k.id) == some k && (s.job? k.id).any (fun j => !s.jobBlocked j) && !k.started && k.ready &&
    decide (((s.launch? k.launch).map (·.kern.wgsize)).getD 1 ≤ k.issued.length) && !s.halted k.ctx && s.linesFull k.core k.lines && !s.collMisfit k &&
    s.groupActive k.group && k.lines.all fun n => !s.lineBad k.core n

/-- A pull of the first line of an RCOPY from rank 1, sent in cycle 0. -/
def pull0 : Pull := { txid := ⟨0, 0xFFFF⟩, job := 6, line := 0, rank := 1, sent := 0 }

/-- Its job and its machine at a cycle. -/
def pulling (n : Nat) : State :=
  routed { working { job0 .rcopy 0 with total := 2, line0 := 62, srcRank := 1 } with pulls := [pull0], adopted := some table2, cycles := List.replicate 16 n }

/-- A request for the last line of the placed workgroup that waits here. -/
def serve0 : PullServe := { id := 3, src := ⟨5, 0⟩, gen := 0, txid := 9, core := 0, line := 63 }

theorem witness_CollectivesAndPulls :
    mayStartColl coll0 (collecting coll0 none) = true ∧ ((collecting coll0 none).groupRanks 0).length = 1 ∧
    mayStartColl coll0 (collecting coll0 (some table2)) = true ∧ ((collecting coll0 (some table2)).groupRanks 0).length ≠ 1 ∧
    coll0.nlines ≤ 64 ∧ coll0.ilv ≤ 3 ∧ coll0.typ = .f32 ∧
    (let k : Coll := { coll0 with started := true, sub := 3, root := 1 };
      let s := collecting k (some table2);
      s.colls.find? (fun (x : Coll) => x.id == 9) = some k ∧ s.halted k.ctx = false ∧ s.position 0 = some 0 ∧
      [List.replicate 256 (7 : Byte)].length + 1 = (s.groupRanks 0).length ∧ (∀ b ∈ [List.replicate 256 (7 : Byte)], b.length = 128 * k.nlines) ∧
      k.root < (s.groupRanks 0).length ∧ k.objPa + 32 ≤ tileKey k.core (128 * k.line0)) ∧
    (up.mgen = 0 ∧ (1 : Word) ≠ up.mgen ∧ up.inJob 0 = true ∧ up.servesLine 0 63 = true ∧ (up.inJob 0 && up.servesLine 0 64) = false) ∧
    (routed up).sendsAt 0 ((routed up).packetTo 0 5 0 9 (.pullResp true 63 [])) 0 ∧
    (let s : State := routed { working (job0 .rcopy 0) with serves := [serve0] };
      s.serves.find? (fun q => q.id == 3) = some serve0 ∧ s.servesLine 0 63 = true ∧ s.linesFull 0 [63] = true ∧ s.lineBad 0 63 = false ∧
      up.linesFull 0 [63] = false ∧ up.servesLine 0 64 = false) ∧
    (let s : State := routed { working (job0 .rcopy 0) with serves := [serve0] };
      s.sendsAt 0 (s.packetTo 0 5 0 9 (.pullResp false 63 (memBytes s.mem (tileKey 0 (128 * 63)) 128))) 0) ∧
    ((pulling (2 ^ 20)).pulls.find? (fun q => q.txid == ⟨0, 0xFFFF⟩) = some pull0 ∧
      (pulling (2 ^ 20)).job? 6 = some { job0 .rcopy 0 with total := 2, line0 := 62, srcRank := 1 } ∧ (pulling (2 ^ 20)).halted 1 = false ∧
      (pulling (2 ^ 20)).adopted = some table2 ∧ table2.entries[1]? = some (rankAt 5) ∧ pull0.sent + 2 ^ 20 ≤ (pulling (2 ^ 20)).cycle 0 ∧
      0 ∉ (job0 .rcopy 0).landed) ∧
    (pulling (2 ^ 20)).sendsAt 0 ((pulling (2 ^ 20)).packetTo 0 5 0 ((pulling (2 ^ 20)).die 0).txid (.pullReq 0 0)) 0 ∧ (pulling 0).plainStores :=
  ⟨by decide +kernel, by decide +kernel, by decide +kernel, by decide +kernel, by decide, by decide, rfl, by decide +kernel, by decide +kernel,
    of_leavesBy (by decide +kernel), by decide +kernel, of_leavesBy (by decide +kernel), by decide +kernel, of_leavesBy (by decide +kernel), .inl rfl⟩

/-- A packet from 5 for this package. -/
def packetIn (gen : Word) (b : PktBody) : Packet := { src := 5, sdie := 0, dst := 0, ddie := 0, gen := gen, txid := 1, body := b }

/-- A pod-barrier packet of the placed workgroup in phase 0. -/
def pod0 (gen : Word) : PodPkt := { src := 5, gen := gen, phase := 0, queue := 0, ctxid := 1, seq := 0, wgid := 0 }

/-- A cohort that stands at BAR.pod. -/
def atPod : Cohort := { co with wait := .bar .pod (.p 6) 0xFF }

/-- The instance of the placed workgroup: phases completed, and when its ARRIVE was sent. -/
def bar0 (done : Nat) (sent : Option Nat) : PodBar := { ctx := 1, queue := 0, seq := 0, wgid := 0, arrived := [], sentAt := sent, done := done }

/-- Its machine, in a pod of two. -/
def podded (b : PodBar) (c : Cohort) : State :=
  routed { baseWith c with adopted := some { table2 with entries := [rankAt 5, rankAt 0] }, podBars := [b], cycles := List.replicate 16 (2 ^ 20) }

/-- A flit that brings a whole packet as the next of a port's stream. -/
def flitFor (k : Packet) : BitVec 2048 := flitOf 1 k.body.cls 0 0 0 k.bytes

/-- A heartbeat of the package at 5. -/
def beat5 : Heartbeat := ⟨5, 0, 0, 0, 0, 0⟩

theorem witness_FabricEvents_flits :
    ((routed up).port 1 = port1 ∧ port1.up = true ∧ port1.queued = [] ∧ (0 : BitVec 16) = port1.lastRx + 1) ∧
    flitCrcOk 0 = false ∧
    (∀ ft ∈ [0, 1, 3, 15], flitCrcOk (flitOf ft 3 0xFFFF 0 8 (List.replicate 244 255)) = true ∧
      flitField (flitOf ft 3 0xFFFF 0 8 (List.replicate 244 255)) 3 0 = ft ∧
      flitField (flitOf ft 3 0xFFFF 0 8 (List.replicate 244 255)) 23 8 = port1.lastRx.toNat) ∧
    (2 ≤ ((1 : BitVec 16) - port1.lastRx).toNat ∧ ((0x7FFE : BitVec 16) - port1.lastRx).toNat < 2 ^ 15 ∧
      2 ^ 15 ≤ ((0x7FFF : BitVec 16) - port1.lastRx).toNat) ∧
    ((port1.applyAck 0).nacks + 1 < 32 ∧ 32 ≤ (({ port1 with nacks := 31 } : Port).applyAck 0x8000).nacks + 1) := by
  decide +kernel

/-- A packet in order comes out of its flit as it went in: one that is processed, one that is held and one that is too old. -/
theorem witness_FabricEvents_packets_flit :
    flitCrcOk (flitFor (packetIn 0 (.heartbeat beat5))) = true ∧ flitField (flitFor (packetIn 0 (.heartbeat beat5))) 3 0 = 1 ∧
    flitPayload (flitFor (packetIn 0 (.heartbeat beat5))) = (packetIn 0 (.heartbeat beat5)).bytes ∧
    flitCrcOk (flitFor (packetIn 1 (.pullReq 0 0))) = true ∧
    flitPayload (flitFor (packetIn 1 (.pullReq 0 0))) = (packetIn 1 (.pullReq 0 0)).bytes ∧
    flitPayload (flitFor (packetIn 0xFFFFFFFF (.pullReq 0 0))) = (packetIn 0xFFFFFFFF (.pullReq 0 0)).bytes :=
  ⟨by decide +kernel, by decide +kernel, by decide +kernel, by decide +kernel, by decide +kernel, by decide +kernel⟩

theorem witness_FabricEvents_packets_taken :
    (({ port1 with lastRx := 0 } : Port).takeFlit true 0 (packetIn 0 (.heartbeat beat5)).bytes).1 = some (packetIn 0 (.heartbeat beat5)) ∧
    (({ port1 with lastRx := 0 } : Port).takeFlit true 1 (packetIn 1 (.pullReq 0 0)).bytes).1 = some (packetIn 1 (.pullReq 0 0)) ∧
    (({ port1 with lastRx := 0 } : Port).takeFlit true 1 (packetIn 0xFFFFFFFF (.pullReq 0 0)).bytes).1 = some (packetIn 0xFFFFFFFF (.pullReq 0 0)) ∧
    (packetIn 1 (.pullReq 0 0)).body.cls = 1 ∧ newer 1 up.mgen = true ∧ newer 0xFFFFFFFF up.mgen = false ∧ (packetIn 1 (.pullReq 0 0)).dst = up.faddr :=
  ⟨by decide +kernel, by decide +kernel, by decide +kernel, by decide, by decide, by decide, by decide⟩

theorem witness_FabricEvents_rest : packetEvent (packetIn 0 (.heartbeat beat5)) = some (.heartbeatReceive beat5) ∧ port1.held.length < 256 ∧
    (({ port1 with lastRx := 0 } : Port).takeFlit false 1 [5]).1 = none ∧
    (routed up).routes.find? (fun r => r.1 == 3 && r.2.1 == 5) = none := by
  decide +kernel

theorem witness_FabricEvents :
    (({ port1 with nacks := 31 } : Port).nacks < 32 ∧ 32 ≤ ({ port1 with nacks := 32 } : Port).nacks) ∧
    (routed up).sendsAt 0 ((routed up).packetTo 0 5 0 0 (.heartbeat beat5)) 0 ∧
    (∀ b ∈ [bar0 1 none, bar0 0 (some 0)], (podded b atPod).podBar (podPktKey (pod0 0)) = b ∧ (pod0 0).gen = (podded b atPod).mgen) ∧
    ((pod0 1).gen ≠ (podded (bar0 0 none) atPod).mgen ∧ (bar0 1 none).past (pod0 0).phase = true ∧ (bar0 0 none).past (pod0 0).phase = false ∧
      max 1 (podded (bar0 0 none) atPod).podRanks.length = 2 ∧ max 1 base.podRanks.length = 1) ∧
    ((bar0 0 (some 0)).sentAt.isSome = true ∧ (podded (bar0 0 (some 0)) atPod).podKey atPod = podPktKey (pod0 0) ∧ atPod.atBar .pod = true ∧
      BitVec.ofNat 16 atPod.podPhase = (pod0 0).phase ∧ (podded (bar0 0 (some 0)) atPod).cohorts = [atPod]) ∧
    ((podded (bar0 0 (some 0)) atPod).cohort? 0 = some atPod ∧ 0 + 2 ^ 20 ≤ (podded (bar0 0 (some 0)) atPod).cycle (dieOf atPod.core) ∧
      (podded (bar0 0 (some 0)) atPod).podRanks.head? = some (rankAt 5)) ∧
    (let s := podded (bar0 0 (some 0)) atPod;
      s.sendsAt 0 (s.packetTo 0 5 0 0 (.podArrive (s.podPkt (bar0 0 (some 0)) 0))) 0) :=
  ⟨by decide, of_leavesBy (by decide +kernel), by decide +kernel, by decide +kernel, by decide +kernel, by decide +kernel,
    of_leavesBy (by decide +kernel)⟩
/-! Membership. -/

/-- A table of five packages, each a leader in a power domain of its own; the first is this one. -/
def table5 : RankTable :=
  { table0 with leaders := [0, 1, 2, 3, 4], entries := (List.range 5).map fun i => { rankAt (BitVec.ofNat 20 i) with pdom := BitVec.ofNat 16 i } }

/-- That table with an entry for this package in another state, or for another package. -/
def table5With (e : RankEntry) : RankTable := { table5 with entries := e :: table5.entries.drop 1 }

/-- A watched peer, heard from in cycle 0. -/
def watch0 (miss : Nat) (suspected : Bool) : Watch := { rank := 1, faddr := 1, miss := miss, lastAt := 0, sentAt := 0, suspected := suspected }

/-- A member at the cycle of the next heartbeat, with routes to the other leaders through a port. -/
def inGroup (w : Watch) : State :=
  { up with adopted := some table5, memState := .member, watches := [w], cycles := List.replicate 16 hbInterval, ports := [port0 508],
            routes := (List.range 5).map fun i => (0, BitVec.ofNat 20 i, 0) }

/-- The leader at index 0 of generation 1 with some promises and accepts, in a round or not, and what it suspects. -/
def leader0 (ballot : Word) (ps : List (BitVec 20)) (prop : Option RankTable) (accs : List (BitVec 20)) (sus : List (Nat × BitVec 20)) : Leader :=
  { Leader.init 0 1 with ballot := ballot, promised := ballot, seenBallot := ballot, promises := ps.map fun a => (a, none), proposed := prop,
                         accepts := accs, suspicions := sus }

/-- A message of the leader at 1. -/
def from1 (subj ballot : Word) (t : Option RankTable) : MemMsg := { src := 1, newgen := 2, subj := subj, ballot := ballot, table := t }

/-- A leader's machine, one round-trip limit after cycle 0. -/
def leading (l : Leader) : State := { inGroup (watch0 0 false) with leader := some l, mgen := 1 }

/-- That machine in another state towards membership, with an adopted and a staged table. -/
def standing (m : MemState) (t g : Option RankTable) : State :=
  { leading (leader0 0 [] none [] []) with memState := m, adopted := t, staged := g, mgen := 0 }

/-- A survivor that fills its last stripe from the holders of a staged table. -/
def refilling (x : Stripe) : State := { leading (leader0 0 [] none [] []) with staged := some table5, stripes := [x] }

/-- That stripe, with what its donor has sent and the positions that have refused it. -/
def stripe0 (first : Option (List Byte)) (refused : List (Nat × BitVec 8)) : Stripe := { Stripe.start 0 refused with first := first }

/-- A donor of one stripe, with a view of step 7 in which some pages are dropped, and some ranges of its shard. -/
def donor (shard : List Range) (dropped : List Nat) : State :=
  { leading (leader0 0 [] none [] []) with
    memBlock := some { ctx := 1, shardl := 0x500, pool := 0x200000, poolLen := 0x2000, tablebuf := 0x600, shard := shard },
    views := [{ step := 7, images := [(3, 0)], dropped := dropped }] }

/-- A shard of 1 MiB, and ranges of that length in which only one page is whole (a statement holds for every state; this one is small). -/
def wholeShard : List Range := [{ va := 0x400000, len := 2 ^ 20, host := 0 }]
def smallShard : List Range := { va := 0x400000, len := 8192, host := 0 } :: List.replicate 128 { va := 0x500000, len := 8191, host := 0 }

/-- Whether a check is `good`. -/
def isGood {α : Type} (r : Checked α) : Bool :=
  match r with
  | .good _ _ => true
  | _ => false

/-- Whether a check is `bad`. -/
def isBad {α : Type} (r : Checked α) : Bool :=
  match r with
  | .bad _ _ _ => true
  | _ => false

theorem witness_MembershipEvents_clone : (∀ s ∈ [wholeShard, smallShard], (donor s []).stripeCount = 1 ∧
      ((donor s []).memBlock.any fun b => b.ctx == 1) = true ∧ ((donor s []).views.any fun v => v.step == 7) = true) ∧
    isGood (readStripe 1 7 ((donor smallShard []).stripePagesOf 0) (donor smallShard [])) = true ∧
    isBad (readStripe 1 7 ((donor wholeShard [0]).stripePagesOf 0) (donor wholeShard [0])) = true ∧
    base.memBlock = none ∧ ((donor wholeShard []).views.any fun v => v.step == 8) = false :=
  ⟨by decide +kernel, by decide +kernel, by decide +kernel, by decide +kernel, by decide +kernel⟩

theorem witness_MembershipEvents_heartbeats :
    ((inGroup (watch0 18 false)).watches[0]? = some (watch0 18 false) ∧ (inGroup (watch0 0 false)).memState = .member ∧
      (watch0 0 false).sentAt + hbInterval ≤ (inGroup (watch0 0 false)).cycle 0 ∧ (watch0 18 false).miss + 1 < 20 ∧ 20 ≤ (watch0 19 false).miss + 1) ∧
    (∀ b ∈ [false, true], (inGroup (watch0 0 b)).watches.findIdx? (fun w => w.faddr == 1) = some 0 ∧ (inGroup (watch0 0 b)).leader = none ∧
      (inGroup (watch0 0 b)).staged = none) ∧
    (let s : State := { inGroup (watch0 0 true) with staged := some { table5 with entries := [rankAt 0] } };
      s.staged = some { table5 with entries := [rankAt 0] } ∧ ({ table5 with entries := [rankAt 0] } : RankTable).rankOf 1 = none) ∧
    (let s : State := { inGroup (watch0 0 false) with memState := .failed };
      ({ s with heardOn := [(1, 31)] } : State).heardOn.find? (fun p => p.1 == 1) = some (1, 31)) := by
  decide +kernel

theorem witness_MembershipEvents_send :
    (inGroup (watch0 0 false)).sendsAt 0 ((inGroup (watch0 0 false)).packetTo 0 1 0 0 (.heartbeat (inGroup (watch0 0 false)).heartbeat)) 0 :=
  of_leavesBy (by decide +kernel)

theorem witness_MembershipEvents_rounds :
    (∀ sus ∈ [[], [(4, (2 : BitVec 20)), (4, 3)]], (leading (leader0 0 [] none [] sus)).committedTable = some table5 ∧
      lossReport table5 (from1 4 0 none) = none ∧ (table5.rankOf 1).isSome = true ∧ (4, (1 : BitVec 20)) ∉ sus ∧
      (leading (leader0 0 [] none [] sus)).mustPropose (leader0 0 [] none [] (sus ++ [(4, 1)])) table5 = (sus != [])) ∧
    lossReport table5 (from1 1 0 none) = some 0 ∧
    ((8 : Word).toNat ≤ (leader0 8 [] none [] []).promised.toNat ∧ (leader0 8 [] none [] []).promised.toNat < (9 : Word).toNat) ∧
    ((1 : BitVec 20) ∈ (leading (leader0 8 [] none [] [])).leaderAddrs ∧ (leader0 8 [] none [] []).ballot ≠ 0) ∧
    (∀ ps ∈ [[0], [0, 2]], (∀ q ∈ (leader0 8 ps none [] []).promises, q.1 ≠ 1) ∧ ((leader0 8 ps none [] []).promises.length + 1 < 3 ↔ ps = [0])) ∧
    (table5.acceptable = true ∧ table0.acceptable = false) ∧
    (∀ accs ∈ [[0], [0, 2]], (1 : BitVec 20) ∉ (leader0 8 [0] (some table5) accs []).accepts ∧
      ((leader0 8 [0] (some table5) accs []).accepts.length + 1 < 3 ↔ accs = [0])) ∧
    ((leader0 8 [] none [] []).roundAt + 2 ^ 20 ≤ (leading (leader0 8 [] none [] [])).cycle 0 ∧
      (leading (leader0 8 [] none [] [])).mustPropose (leader0 8 [] none [] []) table5 = false ∧
      (leading (leader0 8 [] none [] [(4, 1), (4, 2), (4, 3)])).mustPropose (leader0 8 [] none [] [(4, 1), (4, 2), (4, 3)]) table5 = true) := by
  decide +kernel

/-- The table with this package at rank 0, filling. -/
def filling5 : RankTable := table5With { rankAt 0 with state := 1 }

/-- The table with the package at 1 filling rank 1. -/
def filling1 : RankTable := { table5 with entries := table5.entries.set 1 { rankAt 1 with state := 1 } }

theorem witness_MembershipEvents_commit :
    (newer 1 1 = false ∧ newer 2 1 = true ∧ newer 0x80000000 0 = false ∧ newer 0x7FFFFFFF 0 = true) ∧
    ((table5.rankOf 0).isSome = true ∧ (table5With (rankAt 9)).rankOf 0 = none) ∧
    (up.colls = [] ∧ up.progs = [] ∧ up.jobs = [] ∧ base.memBlock = none ∧ base.heldWrites = []) ∧
    ((standing .spareReady none none).namedAt filling5 = some 0 ∧ (standing .spareReady none none).memBlock = none) ∧
    (∀ t ∈ [table5With (rankAt 9), table5With { rankAt 0 with state := 2 }], ∀ e, t.entries[(standing .spareFilling none none).pkgRank.toNat]? = some e →
      e.faddr ≠ (standing .spareFilling none none).faddr ∨ e.state = 2) ∧
    ((standing .member (some filling1) none).joiner { from1 1 0 none with newgen := 1 } = some 1 ∧ (standing .member (some filling1) none).joiner (from1 1 0 none) = some 1 ∧ (1 : BitVec 20) ∈ (standing .member (some filling1) none).leaderAddrs ∧
      (standing .spareJoined (some filling5) none).joiner { from1 0 0 none with newgen := 1 } = some 0 ∧ (1 : BitVec 20) ∈ (standing .spareJoined (some filling5) none).leaderAddrs ∧
      filling1.entries[1]? = some { rankAt 1 with state := 1 } ∧ (standing .member (some filling1) none).leader.isSome = true) ∧
    (newer 2 (leader0 8 [] none [] []).committed = true ∧ newer 1 (leader0 8 [] none [] []).committed = false) ∧
    (newer 5 4 = true ∧ newer 0x80000003 4 = true) :=
  ⟨by decide +kernel, by decide +kernel, by decide +kernel, by decide +kernel, by decide +kernel, by decide +kernel, by decide +kernel, by decide +kernel⟩

theorem witness_MembershipEvents_commit_out : ∃ v, (standing .spareReady none none).tableOut filling5 = .ok v := of_isOk (by decide +kernel)

theorem witness_MembershipEvents_stripes :
    (let x := stripe0 none [];
      (refilling x).stripes.find? (fun y => y.idx == 0) = some x ∧ ((refilling x).holders table5).findIdx? (fun h => h == 1) = some 0 ∧
      ((refilling x).holders table5).length = 4 ∧ x.donor? 4 = some 0 ∧ (refilling x).memState ≠ .spareFilling) ∧
    (let x := stripe0 (some [1]) [];
      ((refilling x).holders table5).findIdx? (fun h => h == 2) = some 1 ∧ x.verifier? 4 = some 1 ∧ x.differs = false ∧ x.third? 4 = some 2) ∧
    (let x := stripe0 (some [1]) [(2, 1), (3, 1)];
      x.verifier? 4 = some 1 ∧ x.third? 4 = none) := by
  decide +kernel

theorem witness_MembershipEvents_fingerprints : ∃ f, f ≠ fingerprint [1] := by
  generalize fingerprint [1] = x
  exact ⟨x + 1, by bv_omega⟩

theorem witness_MembershipEvents_registration :
    (table0.acceptable = false ∧ table5.acceptable = true ∧ table5.rankOf (standing .idle none none).faddr = some 0 ∧
      newer table5.gen (standing .member none none).mgen = true ∧ (standing .idle none none).memBlock = none ∧ (standing .idle none none).heldWrites = []) := by
  decide +kernel
/-! Rewards, stops, defence and the module. -/

/-- The join unit of the last die, accepted for the placed program's context: a store at 0x10000, one entry, λ = γ = 0. -/
def joinUnit : JoinUnit :=
  { die := 15, accepted := true, ctx := 1, store := 0x10000, nent := 1, trunc := true, smax := 2, orphto := 1, jointo := 1, gamma := 0, lambda := 0,
    c := 0, entries := [], orphans := [], hold := [], queue := [], counts := List.replicate 12 0 }

/-- An entry of one step in some state. -/
def entry0 (st : JoinState) : JoinEntry :=
  { idx := 0, state := st, traj := 0xF0000000000, count := 1, opened := 0, boot := 0x3F800000, version := 0, terminal := false, len := 1,
    rewards := if st = .open_ then [] else [(0, 0x40000000)], cut := none, joinedAt := 0 }

/-- A reward for its last step. -/
def reward0 (gen : Word) (step : BitVec 16) : RewardMsg := { traj := 0xF0000000000, step := step, flags := 1, reward := 0x3F800000, gen := gen }

/-- The machine with a join unit, at a cycle. -/
def joining (u : JoinUnit) (n : Nat) : State := { up with joins := [u], cycles := List.replicate 16 n }

/-- A reward packet sent in cycle 0. -/
def rewardTx0 : RewardTx := { txid := ⟨15, 0xFFFF⟩, sent := 0 }

/-- Whether a scan's writes go through to a state in which no taker waits. -/
def scansOk (r : StoreOut State) : Bool :=
  match r with
  | .ok t => !t.takerWaits 15
  | _ => false

theorem of_scansOk {r : StoreOut State} (h : scansOk r = true) : ∃ t, r = .ok t ∧ t.takerWaits 15 = false := by
  cases r with
  | ok t => exact ⟨t, rfl, by simpa [scansOk] using h⟩
  | wait t => cases h
  | fault t => cases h

/-- The machine whose unit has an episode to release, of a version `v` behind by 0 − v. -/
def releasing0 (v : Word) : State := joining { joinUnit with entries := [{ entry0 .joined with version := v }] } 0

theorem witness_RewardEvents :
    ((joining joinUnit 0).join 15 = joinUnit ∧ (up.join 15).accepted = false ∧ joinUnit.accepted = true ∧ newer 1 up.mgen = true ∧ newer 0xFFFFFFFF up.mgen = false ∧
      (reward0 0 4095).flags >>> 1 = 0 ∧ (reward0 0 4095).step.toNat < 4096 ∧ joinUnit.liveEntry 0xF0000000000 = none) ∧
    ((let u : JoinUnit := { joinUnit with entries := [entry0 .open_] };
      u.liveEntry 0xF0000000000 = some (entry0 .open_) ∧ (∀ o ∈ u.entries, o.traj = 0xF0000000000 → o.live = true → o = entry0 .open_)) ∧
      (reward0 0 0).step.toNat < (entry0 .open_).count) ∧
    (let s (n : Nat) : State := { joining joinUnit n with rewardTx := [rewardTx0] };
      ((s (2 ^ 20)).rewardTx.filter fun t => t.txid == ⟨15, 0xFFFF⟩ && decide (t.sent + 2 ^ 20 ≤ (s (2 ^ 20)).cycle 15)).length = 1 ∧
      ((s (2 ^ 20 - 1)).rewardTx.filter fun t => t.txid == ⟨15, 0xFFFF⟩ && decide (t.sent + 2 ^ 20 ≤ (s (2 ^ 20 - 1)).cycle 15)).length = 0) ∧
    (∀ st ∈ [JoinState.open_, .closed], ({ joinUnit with entries := [entry0 st] } : JoinUnit).entries.find? (fun o => o.idx == 0) = some (entry0 st) ∧
      (entry0 st).live = true ∧ (entry0 st).opened + 1 * 1024 ≤ (joining joinUnit 1024).cycle 15) ∧
    (((releasing0 0xFFFFFFFD).join 15).nextRelease = some { entry0 .joined with version := 0xFFFFFFFD } ∧
      ((releasing0 0xFFFFFFFE).join 15).nextRelease = some { entry0 .joined with version := 0xFFFFFFFE } ∧ (releasing0 0xFFFFFFFE).ctx? 1 = some progCtx) ∧
    ((0 : Word) - 0xFFFFFFFD).toNat = joinUnit.smax + 1 ∧ ((0 : Word) - 0xFFFFFFFE).toNat < joinUnit.smax + 1 ∧
    (∃ vs, (releasing0 0xFFFFFFFE).storedVs ((releasing0 0xFFFFFFFE).join 15) progCtx 0 1 = .ok vs) ∧
    ∃ t, writeScan ((releasing0 0xFFFFFFFE).join 15) { entry0 .joined with version := 0xFFFFFFFE }
      (scan ((releasing0 0xFFFFFFFE).join 15) (fun _ => 0) (fun _ => 0x40000000) 1 0x3F800000 0) (releasing0 0xFFFFFFFE) = .ok t ∧ t.takerWaits 15 = false :=
  ⟨by decide +kernel, by decide +kernel, by decide +kernel, by decide +kernel, by decide +kernel, by decide +kernel, by decide +kernel,
    of_isOk (by decide +kernel), of_scansOk (by decide +kernel)⟩

/-- The placed program's context, halted with its engines stopped; its stop area of `n` bytes lies at 0x180000. -/
def haltedCtx (n : DWord) : Ctx :=
  { progCtx with halt := true, enginesStopped := true, trap := progCtx.trap.map fun t => { t with stopa := 0x180000, stoplen := n, hmask := 2 } }

/-- Its machine: a cohort that raised group 1 and has stopped. -/
def stopping (n : DWord) (c : Cohort) : State := { baseWith c with ctxs := [haltedCtx n] }

/-- That cohort. -/
def raised1 : Cohort := { co with cause := 1, raised := true, stopped := true }

/-- The records are written, then the engines' (there are none), then the summary. -/
def writesStop (s : State) : Bool :=
  match writeRecords 1 0x180000 0x1000 ((s.stopOrder 1).map Cohort.stopRecord) 64 s with
  | .ok (n, off, s1) => n == 1 && (match writeRecords 1 0x180000 0x1000 (s.engineRecords 1 (haltedCtx 0x1000).haltAt) off s1 with
    | .ok (m, _, s2) => m == 0 && isOk (s2.feWrite 1 0x180000 (stopSummary (haltedCtx 0x1000) true false 1 m off))
    | .error _ => false)
  | .error _ => false

/-- A closed window of one store beat. -/
def window0 (v : BitVec 256) : StoreWindow := { num := 0, closed := true, beats := [{ va := 0x5000, size := 4, data := v, kind := 0, scope := .wg }] }

/-- The two cohorts of a pair. -/
def first0 : Cohort := { co with role := .primary, twin := some 1, windows := [window0 7] }
def second0 (v : BitVec 256) : Cohort := { co with cid := 1, role := .secondary, twin := some 0, windows := [window0 v] }

theorem witness_StopEvents :
    ((stopping 64 co).ctx? 1 = some (haltedCtx 64) ∧ (stopping 64 co).cohort? 0 = some co ∧ co.stopped = false ∧ co.wait = .none ∧ co.nextPending = none ∧
      (haltedCtx 64).halt = true ∧ (haltedCtx 64).inHandler = false ∧ (stopping 64 co).midAtomic co (haltedCtx 64) = false ∧
      ((stopping 64 co).core 0).bankQ = [] ∧ (stopping 64 co).holdsBaton co = false ∧
      ({ stopping 64 co with cores := [{ CoreState.init 0 with baton := some 0 }] } : State).holdsBaton co = true ∧
      ({ stopping 64 co with cores := [{ CoreState.init 0 with baton := some 0 }] } : State).takers 0 = []) ∧
    ((haltedCtx 64).halt = true ∧ (haltedCtx 64).stopWritten = false ∧ (haltedCtx 64).inHandler = false ∧ (haltedCtx 64).enginesStopped = true ∧
      (stopping 0x1000 raised1).stopOrder 1 = [raised1] ∧ raised1.stopped = true ∧ ({ haltedCtx 64 with trap := none } : Ctx).trap = none) ∧
    writesStop (stopping 0x1000 raised1) = true ∧ (haltedCtx 0x1000).handles [raised1] = true ∧ (haltedCtx 0x1000).handles [] = false ∧
    ({ up with cohorts := [first0, second0 7] } : State).cohort? 0 = some first0 ∧ ({ up with cohorts := [first0, second0 7] } : State).cohort? 1 =
      some (second0 7) ∧ (window0 7).hash = (window0 7).hash ∧ (window0 7).hash ≠ (window0 8).hash :=
  ⟨by decide +kernel, by decide +kernel, by decide +kernel, by decide +kernel, by decide +kernel, by decide +kernel, by decide +kernel, rfl, by decide +kernel⟩

/-- The last testable unit, a firmware core of die 15. -/
def lastUnit : BitVec 16 := 6 * 8192 + 191

/-- What a boot finds when all is well. -/
def goodBoot : BootInfo :=
  { pdom := 3, signatureOk := true, versionOk := true, failedUnits := [], badBoundary := [], badStacks := [], portsUp := [31], cxlUp := true }

/-- A machine of which a die's queue holds one event. -/
def queued (die : Nat) (e : FwEvent) : State := { up with dies := [{ DieState.init die with events := [e] }] }

/-- What a die without anything due does next: the event it takes, and the core it takes it on. -/
def dispatches (s : State) (die : Nat) (e : FwEvent) : Bool :=
  let p := (s.dueFirmware die).foldl (fun t x => t.postEvent die x) s
  (((p.die die).events.take 1024).find? fun x => !(p.die die).keyTaken x.key) == some e && (p.fwIdle die).isSome

/-- The machine that runs a join's event on its first core. -/
def joinRuns : State :=
  let s := queued 0 (.joinZero 0 0 0x4100)
  s.setDie { (s.die 0) with events := [], fw := (s.die 0).fw ++ [{ core := 0, running := .joinZero 0 0 0x4100 }] }

theorem witness_UnitsAndModule_firmware :
    dispatches (queued 15 (.notify 1023 4)) 15 (.notify 1023 4) = true ∧ dispatches (queued 15 (.errorReport 7)) 15 (.errorReport 7) = true ∧
    dispatches (queued 0 (.joinZero 0 0 0x4100)) 0 (.joinZero 0 0 0x4100) = true ∧
    (∃ t, joinRuns.launch? 0 = some progLaunch ∧ joinRuns.startSuccessor progLaunch 0x4100 = .ok t) ∧
    dispatches up 3 (.notify 0 0) = false ∧ ((up.die 3).events.take 1024) = [] ∧ up.upsets = [] :=
  ⟨by decide +kernel, by decide +kernel, by decide +kernel, by
    obtain ⟨t, h⟩ := of_isOk (r := joinRuns.startSuccessor progLaunch 0x4100) (by decide +kernel)
    exact ⟨t, by decide +kernel, h⟩, by decide +kernel, by decide +kernel, by decide +kernel⟩

theorem witness_UnitsAndModule :
    (lastUnit.toNat / 8192 = 6 ∧ unitExists (5 * 8192 + 767) = true ∧ unitExists (5 * 8192 + 768) = false ∧ testable 6143 = true ∧
      (up.unitRec 6143).state ≠ 2 ∧ (up.unitRec 6143).testing = none ∧ ({ up with cycles := List.replicate 16 (2 ^ 20) } : State).longIdle 6143 = true ∧ (up.unitRec 6143).last = 0 ∧
      (({ up with units := [{ UnitRec.init 6143 with testing := some 0, failRow := 3 }] } : State).unitRec 6143).testing.isSome = true ∧ up.unitIdle 6143 = true) ∧
    2 ≤ ((List.range 16).filter fun w => !((0x1FFF : BitVec 16) ||| BitVec.twoPow 16 13).getLsbD w).length ∧
    (∃ k, k < 12 ∧ k ≠ 11 ∧ up.fwInService 15 k = true) ∧
    (bootFailure goodBoot (selfTest goodBoot.failedUnits up.units) = none ∧
      bootFailure { goodBoot with cxlUp := false } (selfTest goodBoot.failedUnits up.units) = some (5, 6, 0xFF) ∧
      bootFailure { goodBoot with signatureOk := false } (selfTest goodBoot.failedUnits up.units) = some (1, 1, 0xFF)) ∧
    (up.cxlUp = true ∧ up.released = true ∧ 2 ^ 41 - 4 + [(1 : Byte), 2, 3, 4].length ≤ 2 ^ 41 ∧
      hostPa (128 * (2 ^ 43 - 1)) + 128 ≤ 2 ^ 52 ∧ ({ up with l2 := [{ line := hostPa 0 / 128, pol := 0 }] } : State).inL2 (hostPa 0) = true ∧
      up.inL2 (hostPa 0) = false) :=
  ⟨by decide +kernel, by decide +kernel, ⟨0, by decide +kernel⟩, by decide +kernel, by decide +kernel⟩

/-! Further witnesses: one for each clause that the statements above have beside their first. -/

/-- A cohort of eight lanes whose register 6 holds the greatest finite F32 number, with every trap enabled. -/
def summing : Cohort := { co with vstat := 0x1F00, regs := co.regs.set 6 (.u 0x7F7FFFFF) }

/-- A sum of F32 words into register 15. -/
def fSum : Fields := { fv with typ := .f32, ob := .none, oc := .none }

theorem witness_EnabledFlagTraps_folds :
    (¬ untrapped summing (summing.writeMask fSum) (fun _ => foldFlags fSum.typ fSum.sub.toNat ((laneList (summing.writeMask fSum)).map ((baseWith summing).opnd summing fSum fSum.oa)))) ∧
    (¬ untrapped summing (summing.writeMask fSum) (foldStep fSum (if fSum.sub = 3 then 0 else fSum.sub.toNat) (summing.writeMask fSum) ((baseWith summing).opnd summing fSum fSum.oa))) ∧
    untrapped co (co.writeMask fSum) (fun _ => foldFlags fSum.typ fSum.sub.toNat ((laneList (co.writeMask fSum)).map (base.opnd co fSum fSum.oa))) ∧
    untrapped co (co.writeMask fSum) (foldStep fSum (if fSum.sub = 3 then 0 else fSum.sub.toNat) (co.writeMask fSum) (base.opnd co fSum fSum.oa)) :=
  ⟨fun h => absurd (h 7 3 (by decide) (by decide) (by decide) (by decide)) (by decide +kernel),
    fun h => absurd (h 1 3 (by decide) (by decide) (by decide) (by decide)) (by decide +kernel), untrapped_of_zero _ _ _ rfl, untrapped_of_zero _ _ _ rfl⟩

/-- A SHFL of which every lane names lane 8, which the cohort does not have, and a SLIDE with a fill. -/
def shflOut : Instr := .shfl { fv with ob := .imm 8, oc := .none }

theorem witness_CrossLaneResult_outside : ∃ src, crossSource shflOut = some ({ fv with ob := .imm 8, oc := .none }, src) ∧ crossFills shflOut = false ∧
    ((laneList (co.writeMask fv)).any fun l => (src base co l).any co.validLane) = false ∧ crossFills (.slide fv) = true :=
  ⟨_, rfl, by decide, by decide, by decide⟩

/-- A register whose words lie on a line, and one whose words do not. -/
def lined : Cohort := { co with regs := co.regs.set 6 (.a 5 3) }
def bent : Cohort := { co with regs := co.regs.set 6 (.g ((List.range 64).map fun i => BitVec.ofNat 32 (i * i))) }

theorem witness_ShapeInstructions_squeezed :
    (∀ c ∈ [lined, bent], c.dead.getLsbD 0 = false ∧ 0 + 1 < c.width ∧ ¬ ∀ l, l < c.width → c.dead.getLsbD l = false → (c.reg 6).lane l = (c.reg 6).lane 0) ∧
    (∀ l, l < lined.width → (lined.reg 6).lane l = (lined.reg 6).lane 0 + BitVec.ofNat 32 l * ((lined.reg 6).lane 1 - (lined.reg 6).lane 0)) ∧
    (¬ ∀ l, l < bent.width → (bent.reg 6).lane l = (bent.reg 6).lane 0 + BitVec.ofNat 32 l * ((bent.reg 6).lane 1 - (bent.reg 6).lane 0)) ∧
    ∀ l, l < co.width → ({ co with dead := 0xFF } : Cohort).dead.getLsbD l = true := by decide

/-- The placed workgroup while a pre-emption stops it, and a second cohort of it that has raised a cause. -/
def preempting : State := { base with
  wgs := base.wgs.map fun w => { w with preempt := some (0, 5, 0) }, cohorts := [co, { co with cid := 1, raised := true, cause := 8 }] }

theorem witness_CauseIsTaken_preempted : (base.wg? co.wg).bind (·.preempt) = none ∧ ((preempting.wg? co.wg).bind (·.preempt)).isSome = true ∧
    preempting.cohort? co.cid = some co ∧ preempting.cohort? 1 = some { co with cid := 1, raised := true, cause := 8 } := by decide

theorem witness_HandlerIsEntered_left : co.left = none ∧ co.wait = .none ∧ ({ co with left := some true } : Cohort).left = some true := ⟨rfl, rfl, rfl⟩

/-- That cohort in its handler with both slots live, with an entry of its own on the stack, and with a full stack. -/
def handlingBoth : Cohort := { handling 1 with s1 := some ⟨41, 0x80⟩ }
def handlingDeep : Cohort := { handling 1 with stack := [⟨7, 4, noneJ⟩] }
def handlingFull : Cohort :=
  { handlingWith 1 (some ⟨9, 0x80⟩) with kctl := some { kept 1 (some ⟨9, 0x80⟩) with nStk := 287 }, stack := List.replicate 287 ⟨7, 4, noneJ⟩ }

/-- What TRET makes of its places, with the alternative PC 6. -/
def returned (act : Mask) (q : Option PcSlot) : List (Word × Mask) :=
  joinEntries ([(5, act &&& 0x7F)] ++ (q.map fun q => (q.pc, q.mask)).toList ++ [(6, 0x7F &&& ~~~act)])

theorem witness_HandlerReturns_cases : (returned 0x7F none).length = 1 ∧ (returned 1 none).length = 2 ∧ (returned 1 (some ⟨9, 0x80⟩)).length = 3 ∧
    (returned 1 (some ⟨6, 0x80⟩)).length = 2 ∧ (returned 1 (some ⟨5, 0x80⟩)).length = 2 ∧ (returned 0 none).length = 1 ∧
    (handlingBoth.s0.isSome && handlingBoth.s1.isSome) = true ∧ handlingBoth.hmode = true ∧ handlingBoth.writeMask { fv with oa := .none } ≠ 0 ∧
    handlingDeep.kctl = some (kept 1 none) ∧ (kept 1 none).nStk + (kept 1 none).nSpill ≠ handlingDeep.stack.length ∧
    (handlingFull.kctl.any fun k => k.nStk + k.nSpill == handlingFull.stack.length) = true ∧ 287 ≤ handlingFull.stack.length := by decide +kernel

/-- CCTL.tlb at `.pod`, and a cohort in its handler whose pair 6 names the tile window. -/
theorem witness_HandlerModeIsChecked_tile : co.writeMask fNone = 0 ∧ ({ fv with sub := 1, scp := .pod } : Fields).scp = .pod ∧
    anyTile { progCtx with twe := true, tw := 0x100000 } 1 (fun _ => 0x100000) = true := by decide

/-- A write of $LQVER by core 5 in this cycle and one by core 0. -/
def wroteLq (k : Nat) : State := { base with dies := [{ DieState.init 0 with lqWrite := some (base.cycle 0, k, 7) }] }

theorem witness_SpecialRegisterWrites_order : (base.die (co.core / 96)).lqWrite = none ∧
    ((wroteLq 0).die (co.core / 96)).lqWrite = some ((wroteLq 0).cycle 0, 0, 7) ∧ 0 ≤ co.core ∧
    ((wroteLq 5).die (co.core / 96)).lqWrite = some ((wroteLq 5).cycle 0, 5, 7) ∧ co.core < 5 := by decide

theorem witness_LoadResult_apart : ∃ p, ({ wcOrL1 with mem := base.mem } : State).planLanes lane7 progCtx .load 4 (lane7.writeMask (fm 0x100))
      (lane7.ea (fm 0x100) (.pair 6) (.imm 0x100)) = [p] ∧ ({ wcOrL1 with mem := base.mem } : State).plansTaken lane7 4 [p] = false :=
  ⟨_, rfl, by decide⟩

theorem witness_StoreResult_apart : ∃ p, wcOrL1.planLanes lane7 progCtx .store 4 (lane7.writeMask (fm 0x100)) (lane7.ea (fm 0x100) (.pair 6) (.imm 0x100)) = [p] ∧
    wcOrL1.plansTaken lane7 4 [p] = false := ⟨_, rfl, by decide⟩

theorem witness_MemoryHints_apart : (base.cores.any fun k => coreInScope .pkg co.core k.core && base.wcTaken k.core) = false ∧ base.wcTaken co.core = false := by
  decide

/-- The machine in a pod of two of which a package is the root, with what has arrived there. -/
def inPod (es : List RankEntry) (arr : List (BitVec 20 × BitVec 16)) : State := { base with
  adopted := some { gen := 0, risk := false, fallback := false, leaders := [], step := 0, ckstep := 0, digest := 0, resv := 0, entries := es },
  podBars := [{ ctx := co.ctx, queue := progLaunch.queue, seq := progLaunch.seq, wgid := 0, arrived := arr, sentAt := none, done := 0 }] }

/-- An entry of it. -/
def podEntry (fa : BitVec 20) (st : BitVec 2) : RankEntry := { groups := 1, shard := 0, pdom := 0, pod := 0, state := st.setWidth _, faddr := fa, resv := 0 }

theorem witness_BarCompletes_pod :
    (let s := (inPod [podEntry 5 0, podEntry 0 0] []).setCohort { co with wait := .bar .pod .none 0xFF };
      s.podRanks = [podEntry 5 0, podEntry 0 0] ∧ (podEntry 5 0).faddr ≠ s.faddr ∧ (∀ e ∈ s.podRanks, e.state = 0) ∧
      (s.podBar (s.podKey { co with wait := .bar .pod .none 0xFF })).sentAt = none ∧
      ∀ e ∈ (inPod [podEntry 5 0, podEntry 0 0] []).cohorts, e.cid = co.cid) ∧
    (let s := (inPod [podEntry 5 1, podEntry 0 0] []).setCohort { co with wait := .bar .pod .none 0xFF };
      s.podRanks.head? = some (podEntry 5 1) ∧ ∃ e ∈ s.podRanks, e.state ≠ 0) ∧
    (∀ arr ∈ [[], [((5 : BitVec 20), (0 : BitVec 16))]],
      let s := (inPod [podEntry 0 0, podEntry 5 0] arr).setCohort { co with wait := .bar .pod .none 0xFF };
      s.podRanks = [podEntry 0 0, podEntry 5 0] ∧ (podEntry 0 0).faddr = s.faddr ∧
      (s.podBar (s.podKey { co with wait := .bar .pod .none 0xFF })).arrived = arr ∧ BitVec.ofNat 16 co.podPhase = 0) := by decide +kernel

/-- A machine with a table staged whose rollback drops a page of the first stripe of its shard, or whose TABLEBUF is not mapped. -/
def lacking : State := { base with
  staged := some table0,
  memBlock := some { ctx := 1, shardl := 0x500, pool := 0x200000, poolLen := 0x2000, tablebuf := 0x600, shard := [{ va := 0x400000, len := 2 ^ 20, host := 0 }] },
  views := [{ step := 5, images := [(3, 0)], dropped := [0] }] }

def unmapped : State := { lacking with
  memBlock := some { ctx := 1, shardl := 0x500, pool := 0x200000, poolLen := 0x2000, tablebuf := 0x40000000, shard := [] }, views := [] }

/-- The error of a TABLEBUF write that is no page to wait for. -/
def failsToWrite (r : Except VaFail State) : Bool :=
  match r with
  | .error (.nonres _) => false
  | .error _ => true
  | .ok _ => false

theorem witness_FenceAdopts_stripes : lacking.collsOpen = false ∧ lacking.staged = some table0 ∧ lacking.lacksStripe table0 = true ∧
    unmapped.collsOpen = false ∧ unmapped.staged = some table0 ∧ unmapped.lacksStripe table0 = false ∧
    failsToWrite ((unmapped.rollBack table0.step).writeTable table0) = true := by decide +kernel

/-- The machine whose leaving cohort names a JOIN of 1 or 0, before a block whose kernel descriptor lies at 0x3000, or before one that does not pass. -/
def joinLast (n : Nat) (block : List Nat) : State := { baseWith leaving with
  mem := memPut (memWrite (memWrite base.mem 0x240 ((List.range 64).map fun i => ((block.flatMap (natBytes 8)).getD i 0))) 0x3000
    ([0x10000, 0, 0x100108, 0, 0, 0, 0, 0].flatMap (natBytes 8))) 0x240 4 n }

/-- Whether the block passes, and whether its refusal can be written down, where the launch's queue is registered. -/
def successorPasses (s : State) : Bool :=
  match s.feRead 1 0x240 64 with
  | .ok (bs, v) => (match v.checkLaunch 1 ((List.range 8).map fun i => BitVec.ofNat 64 (recWord bs i)) with
    | .good _ _ => true
    | _ => false)
  | .error _ => false

def successorFails (s : State) : Bool :=
  match s.feRead 1 0x240 64 with
  | .ok (bs, v) => (match v.checkLaunch 1 ((List.range 8).map fun i => BitVec.ofNat 64 (recWord bs i)) with
    | .bad code _ w => (match w.errRecord progLaunch.queue progLaunch.seq code 0x240 with
      | .ok w1 => (match w1.signalDec 1 (recWord bs 5) with
        | .ok _ => true
        | .error _ => false)
      | .error _ => false)
    | _ => false)
  | .error _ => false

theorem witness_CohortsLeave_joins :
    (∀ n ∈ [1, 0], memNat (joinLast n []).mem 0x240 4 = n ∧ (joinLast n []).me? = some leaving ∧ (joinLast n []).wordTaken leaving.cid 0x240 4 = false ∧
      (joinLast n []).poisoned 0x240 4 = false) ∧
    ((joinLast 0 []).fwMay 0 (some progLaunch.queue) (· == .joinZero progLaunch.queue progLaunch.id 0x240)) = true ∧
    (({ joinLast 0 [] with dies := [{ DieState.init 0 with events := [.completion 1 1] }] } : State).fwMay 0 (some progLaunch.queue)
      (· == .joinZero progLaunch.queue progLaunch.id 0x240)) = false ∧
    successorPasses (joinLast 0 [0, 0x3000, 0, 0x100000001, 0x200000, 0, 0, 0]) = true ∧
    successorFails (joinLast 0 [0, 0x3000, 0, 0, 0x200000, 0, 0, 0]) = true ∧ parkable.wcTaken parking.core = false := by decide +kernel

theorem witness_MatrixInstructions_earlier : (engine [] (engineer 0 [])).holdsWrite (engineer 0 []).cid = false ∧ (engineer 0 []).role = .single := by decide

/-- A cohort that waits in LQTAKE, beside the one that takes. -/
def behindTaker : State := { rewarding with cohorts := [lane7, { co with cid := 1, wait := .learner (.v 3) 1, waitSeq := 4 }] }

theorem witness_RewardInstructions_taken : behindTaker.takerWaits 0 = true ∧ (behindTaker.join 0).accepted = true ∧ behindTaker.me? = some lane7 := by decide

/-- Which kind a fetch's outcome is. -/
def fetchKind (s : State) (x : Ctx) (va : DWord) : Nat :=
  match (s.fetchWord 0 x va).1 with
  | .word _ => 0
  | .fault _ _ => 1
  | .nonres => 2
  | .poisoned _ => 3
  | .data _ => 4

/-- The machine whose leaf entry of the program has P = 0. -/
def awayCode : State := let s := began nopWord co []
  { s with mem := memPut s.mem 0x6000 8 0x1B }

theorem witness_StepRunsDecoded_fetches : fetchKind awayCode progCtx (codeAddr (co.codeBase progCtx) 0) = 2 ∧
    fetchKind { began nopWord co [] with poison := [0x6000] } progCtx (codeAddr (co.codeBase progCtx) 0) = 3 := by decide +kernel

theorem witness_StepRunsDecoded_turns : (coded nopWord co [turn []]).joins = [] ∧
    ({ coded nopWord co [turn []] with agenda := [turn [], { dt := 0, what := .event (.throttleEnd 0 99) }] } : State).nextTurn.dt = 1 := by decide +kernel

theorem witness_MailboxCommands_stops : (∀ c ∈ up.cohorts, c.ctx = 1 → c.windows = []) ∧ up.preempted co = false ∧ preempting.preempted co = true := by
  decide

theorem witness_RegisterSpaceWrites_mailbox : ¬ (0x1000 ≤ 0x0FF8 ∧ 0x0FF8 + (natBytes 8 0).length ≤ 0x2000) ∧ 0x1000 + (natBytes 8 0).length ≤ 0x2000 ∧
    (∀ n ∈ [0x8000000000000000, 0x800000000000000D, 0x80000000000000FF], ∀ w, w = BitVec.ofNat 64 (leNat (natBytes 8 n)) →
      up.mailbox.cmd.getLsbD 63 = false ∧ w.getLsbD 63 = true ∧ (w.toNat % 256 = 0 ∨ 12 < w.toNat % 256)) := by
  refine ⟨by decide, by decide, ?_⟩
  intro n h w hw
  subst hw
  simp only [List.mem_cons, List.not_mem_nil, or_false] at h
  rcases h with rfl | rfl | rfl <;> decide +kernel

/-- A BUNDLE of one copy list at 0x4100, and one of a block that is not there. -/
def bundlePacket (va : Nat) : List Nat := [0x300000201, va, 0, 0, 0, 0, 0, 0]

/-- The machine whose slot 3 holds it. -/
def bundled (va : Nat) : State :=
  let s := announced (bundlePacket va)
  { s with mem := memWrite (memWrite s.mem 0x4100 (wordBytes8 [2, 0x4200, 1, 0, 0, 0, 0, 0])) 0x4200 (wordBytes8 [0x5000, 0x5100, 128, 0]) }

/-- Its blocks are judged as said. -/
def judges (va : Nat) (good : Bool) : Bool :=
  let k : Queue := { queue0 with widx := some 4 }
  match (bundled va).feRead 1 0x10C0 8 with
  | .error _ => false
  | .ok (_, s1) => match s1.feRead 1 0x10C0 64 with
    | .error _ => false
    | .ok (ws, s2) => match s2.feWrite 1 0x2800 (natBytes 8 4) with
      | .error _ => false
      | .ok s3 =>
        let u := ({ s3.setQueue { k with next := 4, lastSeq := some 3 } with packets := s3.packets ++ [k.packetOf ws] } : State).fwNote (.entry 0 3)
        ws == wordBytes8 (bundlePacket va) && recWord ws 6 == 0 && recWord ws 7 == 0 && (k.packetOf ws).blocks != [] &&
          (match checkBlocks 1 (k.packetOf ws).blocks u with
            | .good _ _ => good
            | .bad code d v => !good && isOk (v.refusePacket (k.packetOf ws) code d)
            | .wait _ => false)

theorem witness_PacketsRun_bundle : judges 0x4100 true = true ∧ judges 0x4180 false = true ∧ header (bundlePacket 0x4100) 2 :=
  ⟨by decide +kernel, by decide +kernel, by unfold header; decide⟩

/-- The packet of a checked BUNDLE, in a context that runs or is halted. -/
def bundleTabled (halt : Bool) : State :=
  { tabled 2 false [] with packets := [{ packet0 2 false with words := [0x200, 0x4100, 0, 0, 0, 0, 0, 0], subs := [.copies 0x4200 1] }],
                           ctxs := [{ progCtx with halt := halt }] }

theorem witness_PacketsRun_bundle_starts : ∀ h ∈ [false, true], ∃ p, (bundleTabled h).packet? 0 3 = some p ∧ p.done = false ∧ p.type = 2 ∧
    (bundleTabled h).mayStart p = true ∧ (bundleTabled h).halted p.ctx = h ∧ ∀ i, i < 2 → p.copyBad i ∉ (bundleTabled h).upsets := by decide +kernel

theorem witness_WorkgroupsMove_save : (saving 8191).wcTaken victim.core = false ∧ (saving 8191).cycle (dieOf victim.core) < 0 + 8192 ∧
    (∀ c ∈ (saving 8191).cohorts, c.wg = victim.id → c.pend.getLsbD 16 = false ∧ c.windows = [] ∧ c.twin = none) ∧
    (∃ c ∈ ({ saving 8191 with cohorts := [{ co with pend := 0x10000 }] } : State).cohorts, c.wg = victim.id ∧ c.pend.getLsbD 16 = true) := by decide +kernel

theorem witness_EngineEvents_secondary : ({ job0 .rcopy 0 with role := .secondary } : Job).role = .secondary ∧
    (working { job0 .rcopy 0 with role := .secondary }).jobBlocked { job0 .rcopy 0 with role := .secondary } = false ∧
    (working { job0 .rcopy 0 with role := .secondary }).lineFails { job0 .rcopy 0 with role := .secondary } = none := by decide +kernel

/-- A cohort whose atomic stands between its halves at a word. -/
def midWord (key : Nat) : Cohort := { co with rmw := some { Rmw.start with read := some (key, 3), words := [key] }, wait := .retry }

theorem witness_BuffersAndPages_held : (baseWith (midWord (128 * 0xA0 + 124))).wordHeld (128 * wcLine.line) 128 = true ∧ base.wordHeld (128 * wcLine.line) 128 = false ∧
    up.fwMay 0 none (fun v => v == .pageRequest 1 0x800000 || v == .eviction 1 0x800000) = true := by decide +kernel

/-- Its machine with the collective's object. -/
def objected : State := { collecting coll0 none with mem := memPut (collecting coll0 none).mem 0x200 32 (objMake 1 1 0 0 0 0 0) }

theorem witness_CollectivesAndPulls_objects : coll0.held = true ∧ coll0.aborted = false ∧ objected.wordHeld coll0.objPa 32 = false ∧
    objected.poisoned coll0.objPa 32 = false ∧ objExpect (memNat objected.mem coll0.objPa 32) ≠ 0 ∧
    (∀ l, coll0.objLeaf = some l → l < coll0.objPa ∨ coll0.objPa + 32 ≤ l) ∧ (objected.job? coll0.id).isSome = true ∧
    ((objected.launch? coll0.launch).map (·.kern.wgsize)).getD 1 ≤ coll0.issued.length :=
  ⟨rfl, rfl, by decide, by decide, by decide, (fun _ h => by cases h), by decide, by decide⟩

theorem witness_FabricEvents_stale : (PktBody.podArrive (pod0 0)).cls = 0 ∧ (packetIn 1 (.podArrive (pod0 1))).gen ≠ up.mgen ∧
    (({ port1 with lastRx := 0 } : Port).takeFlit true 0 (packetIn 1 (.podArrive (pod0 1))).bytes).1 = some (packetIn 1 (.podArrive (pod0 1))) ∧
    ∀ h, (packetIn 1 (.podArrive (pod0 1))).body ≠ .heartbeat h :=
  ⟨by decide, by decide, by decide +kernel, fun _ h => by cases h⟩

theorem witness_MembershipEvents_newgen : ({ table5 with gen := 2 } : RankTable).acceptable = true ∧
    newer ({ table5 with gen := 2 } : RankTable).gen (leader0 8 [] none [] []).committed = true ∧ newer table5.gen (leader0 8 [] none [] []).committed = false :=
  ⟨by decide +kernel, by decide +kernel, by decide +kernel⟩

/-- A machine whose package has been removed; a full learner queue; an episode whose V is uncorrectable, and one whose page is refused. -/
def removed : State := { joining joinUnit 0 with memState := .expelled }
def fullUnit : JoinUnit := { joinUnit with queue := List.replicate 4096 0 }
def spoiltV : State := { releasing0 0xFFFFFFFE with poison := [0x10000] }
def refusedV : State :=
  { releasing0 0xFFFFFFFE with joins := [{ joinUnit with store := 0x800000, entries := [{ entry0 .joined with version := 0xFFFFFFFE }] }],
                               mem := memPut (memPut up.mem 0x6008 8 0x8001) 0x8000 8 0x1B,
                               pageReqs := [{ ctx := 1, va := 0x800000, cid := none, status := 2 }] }

/-- What reading the V of the next episode to be released comes to: it is uncorrectable, or a store fault. -/
def readsBad (s : State) : Nat :=
  match s.ctx? 1 with
  | none => 0
  | some x => match s.storedVs (s.join 15) x 0 1 with
    | .ok _ => 1
    | .error (.data _) => 2
    | .error f => match (s.storeFail (s.join 15) f : StoreOut State) with
      | .fault _ => 3
      | _ => 4

theorem witness_RewardEvents_faults : removed.memState = .expelled ∧ (joining joinUnit 0).memState ≠ .expelled ∧ 4096 ≤ fullUnit.queue.length ∧
    readsBad spoiltV = 2 ∧ readsBad refusedV = 3 := by decide +kernel

/-- A pending interrupt of group 8 beside the cohort's own stop; an atomic and a FENCE that the stop waits for. -/
def pendingCo : Cohort := { co with pend := 0x100, pendInfo := [{ group := 8, detail := 5, pc := some 9, recs := [], job := false }] }
def fencing : Cohort := { co with wait := .retry, ends := true }

theorem witness_StopEvents_pending : (pendingCo.nextPending.map fun r => (r.1.group, r.1.pc)) = some (8, some 9) ∧ pendingCo.raised = false ∧ pendingCo.wait = .none ∧
    (stopping 64 pendingCo).midAtomic pendingCo (haltedCtx 64) = false ∧
    (stopping 64 (midWord 0x104)).midAtomic (midWord 0x104) (haltedCtx 64) = true ∧ (stopping 64 fencing).midFence fencing (haltedCtx 64) = true := by decide +kernel

/-- A window whose beats are all plain and whose hashes have matched already or not. -/
theorem witness_StopEvents_windows : (window0 7).matched = false ∧ (window0 7).carried = [] ∧ (window0 7).read = none ∧ first0.ended = false ∧
    (∀ b ∈ (performable (window0 7) []).1, b.kind = 0) ∧ (performable (window0 7) []).1 ≠ [] ∧
    (∀ d ∈ ({ up with cohorts := [first0, second0 7] } : State).cohorts, d.rmw = none ∧ ∀ z ∈ d.windows, z.words = []) ∧
    ({ window0 7 with matched := true } : StoreWindow).matched = true := by decide +kernel

/-- Correct replays at 16 cycles, the first at 0 and the last within 2^24 cycles or not. -/
def replays (last : Nat) : UnitRec := { UnitRec.init 6143 with recent := last :: List.replicate 15 0 }

theorem witness_UnitsAndModule_replays : (∀ n ∈ [2 ^ 24 - 1, 2 ^ 24], (replays n).recent = n :: List.replicate 15 0 ∧ (List.replicate 15 0).length = 15 ∧
      (List.replicate 15 (0 : Nat)).getLast? = some 0 ∧ (n < 0 + 2 ^ 24 ↔ n = 2 ^ 24 - 1)) ∧ (UnitRec.init 6143).recent.length ≠ 16 ∧
    ({ up with units := [replays 5] } : State).unitRec 6143 = replays 5 := by decide +kernel

theorem witness_UnitsAndModule_power : up.shutdown = false ∧ ({ up with shutdown := true } : State).shutdown = true ∧
    (∀ x ∈ (stopped true).ctxs, x.stopWritten = true) ∧ (∃ x ∈ (stopped false).ctxs, x.stopWritten = false) ∧ State.reset.ctxs = [] ∧
    (∃ x, up.ctx? x.ctxid = some x ∧ x.stopWritten = false) :=
  ⟨rfl, rfl, by decide, by decide, rfl, ⟨progCtx, rfl, rfl⟩⟩

theorem witness_UnitsAndModule_reads : up.reports = 0 ∧ ({ up with cycles := List.replicate 16 (2 ^ 20) } : State).cycle 0 / 2 ^ 20 = 1 ∧ up.cycle 0 / 2 ^ 20 ≤ up.reports ∧
    ({ up with poison := [0x5000] } : State).poisoned 0x5000 64 = true ∧ up.poisoned 0x5000 64 = false ∧
    (up.die 0).dispatchable = none ∧ ((queued 15 (.notify 1023 4)).die 15).dispatchable = some (.notify 1023 4) ∧
    [Upset.journalCopy 3 0, .journalCopy 3 1].contains (.journalCopy 3 1) = true := by decide +kernel

end Sys2Proof.Tests
end

section
/-!
Every step keeps memory canonical (O47).

Memory is a sorted list of cells, and in a step only `writeMem`, `setLeaf`, `clearTile` and `kept` build a new one: the laws of
`Memory.wf` say that each of them keeps the form. What remains is to follow the state through the machine. So each function of the
model that makes a state has ONE lemma, in the order of the model's files:

  * `f_mem`: `f` leaves memory as it was (and so the form with it);
  * `f_canon`: `f` keeps the form. For a function with an answer of another type the lemma speaks of every state that the answer
    holds (`Out.canon`, `Each`, `MailOut.canon`, …), and a continuation of `f` is assumed to keep the form.

The lemma for `f` cites the lemmas of the functions that `f` calls, and nothing deeper. `grind` splits the branches of `f` and
chains those lemmas; no branch needs arithmetic, so its arithmetic solvers are off (`-ring -linarith -order`); they would cost
more than the proofs. `step_canon` is the last of the chain.
-/

namespace Sys2Proof.Machine

-- One proof at a time: side by side, some 600 proofs would hold more stacks at once than the check's memory limit allows.
set_option Elab.async false

/-! ### The predicates -/

/-- Memory in its canonical form: `State.memoryCanonical`, in a reducible spelling. -/
abbrev State.canon (s : State) : Prop := Memory.wf s.mem = true

theorem State.canon_iff_memoryCanonical (s : State) : s.canon ↔ s.memoryCanonical := Iff.rfl

/-- The state that an outcome goes on to, if it goes on, has canonical memory. -/
def Out.canon : Out → Prop
  | .next t => t.canon
  | _ => True

/-- What an `Except` holds, on either side. -/
def Each {ε α : Type} (p : ε → Prop) (q : α → Prop) : Except ε α → Prop
  | .error e => p e
  | .ok a => q a

/-- A front-end access that was not made: only one that waits holds a state. -/
def FeFail.canon : FeFail → Prop
  | .busy s => s.canon
  | .bad _ => True

/-- The state of a residency answer. -/
def Residency.canon : Residency → Prop
  | .done s => s.canon
  | .busy s => s.canon
  | .refused s => s.canon

/-- The state of a check's answer, whatever was checked. -/
def Checked.canon {α : Type} : Checked α → Prop
  | .wait s => s.canon
  | .bad _ _ s => s.canon
  | .good _ s => s.canon

/-- The state of a join unit's store access; `p` speaks of what a done one gives. -/
def StoreOut.canon {α : Type} (p : α → Prop) : StoreOut α → Prop
  | .ok a => p a
  | .wait s => s.canon
  | .fault s => s.canon

/-- The state of a mailbox command's answer. Irreducible: a command's continuation is compared by its lemma, never by running it. -/
@[irreducible] def MailOut.canon : MailOut → Prop
  | .wait s => s.canon
  | .ended s _ _ => s.canon

/-- A choice keeps the form when both sides do. -/
theorem Out.canon_ite {p : Prop} [Decidable p] {a b : Out} (ha : a.canon) (hb : b.canon) : Out.canon (if p then a else b) := by
  split
  · exact ha
  · exact hb

theorem foldl_mem {α : Type} (f : State → α → State) (hf : ∀ t a, (f t a).mem = t.mem) (l : List α) (s : State) :
    (l.foldl f s).mem = s.mem := by
  induction l generalizing s with
  | nil => rfl
  | cons a l ih => rw [List.foldl_cons, ih, hf]

theorem foldl_canon {α : Type} (f : State → α → State) (hf : ∀ t a, t.canon → (f t a).canon) (l : List α) (s : State)
    (hs : s.canon) :
    (l.foldl f s).canon := by
  induction l generalizing s with
  | nil => exact hs
  | cons a l ih => exact ih _ (hf s a hs)

/-! ### Machine/Ops.lean -/

/-- The write of bytes that all others but a leaf's go through. -/
theorem State.writeMem_canon (s : State) (a : Nat) (bs : List Byte) (hs : s.canon) : (s.writeMem a bs).canon :=
  Memory.wf_memWrite bs s.mem a hs

@[simp] theorem State.postEvent_mem (s : State) (d : Nat) (e : FwEvent) : (s.postEvent d e).mem = s.mem := rfl

/-- An instruction of the current cohort keeps the form when its meaning for every cohort does. -/
theorem withMe_canon (s : State) (k : Cohort → Out) (hk : ∀ d, Out.canon (k d)) : Out.canon (withMe s k) := by
  unfold withMe
  grind -ring -linarith -order [Out.canon]

@[simp] theorem State.raiseReason_mem (s : State) (c : Cohort) (group reason : Nat) :
    (s.raiseReason c group reason).mem = s.mem :=
  State.raise_mem _ _ _ _ _

@[simp] theorem State.raiseElected_mem (s : State) (c : Cohort) (l group reason lgsz : Nat) (addr : DWord) :
    (s.raiseElected c l group reason lgsz addr).mem = s.mem :=
  State.raise_mem _ _ _ _ _

theorem State.raiseElected_canon (s : State) (c : Cohort) (l group reason lgsz : Nat) (addr : DWord) (hs : s.canon) :
    (s.raiseElected c l group reason lgsz addr).canon := by
  rwa [State.canon, State.raiseElected_mem]

@[simp] theorem State.passBaton_mem (s : State) (core : Nat) : (s.passBaton core).mem = s.mem := by
  unfold State.passBaton
  split <;> rfl

@[simp] theorem State.freeBanks_mem (s : State) (c : Cohort) : (s.freeBanks c).mem = s.mem := rfl

@[simp] theorem State.barCheck_mem (s : State) (scope : Scope) (c : Cohort) : (s.barCheck scope c).mem = s.mem := by
  unfold State.barCheck
  split <;> rfl

@[simp] theorem State.recheckCore_mem (s : State) (launch core : Nat) : (s.recheckCore launch core).mem = s.mem := by
  unfold State.recheckCore
  split <;> simp

@[simp] theorem State.retireWg_mem (s : State) (w : Wg) : (s.retireWg w).mem = s.mem := by
  unfold State.retireWg
  dsimp only
  repeat' split
  all_goals simp

@[simp] theorem State.retire_mem (s : State) (c : Cohort) : (s.retire c).mem = s.mem := by
  unfold State.retire
  grind -ring -linarith -order [State.setCohort_mem, State.passBaton_mem, State.freeBanks_mem, State.barCheck_mem,
    State.retireWg_mem, State.setWg_mem, foldl_mem]

theorem finish_canon (s : State) (c : Cohort) (hs : s.canon) : Out.canon (finish s c) := hs

theorem waitHere_canon (s : State) (c : Cohort) (hs : s.canon) : Out.canon (waitHere s c) := hs

theorem waitFor_canon (s : State) (c : Cohort) (w : Wait) (hs : s.canon) : Out.canon (waitFor s c w) := hs

theorem raiseOut_canon (s : State) (c : Cohort) (group : Nat) (detail : BitVec 96) (recs : List LaneRec) (hs : s.canon) :
    Out.canon (raiseOut s c group detail recs) := by
  unfold raiseOut
  grind -ring -linarith -order [State.raise_mem, Out.canon]

theorem raiseR_canon (s : State) (c : Cohort) (group reason : Nat) (hs : s.canon) : Out.canon (raiseR s c group reason) := by
  unfold raiseR
  grind -ring -linarith -order [State.raiseReason_mem, Out.canon]

/-! ### Machine/Operands.lean -/

theorem vecOut_canon (s : State) (c : Cohort) (f : Fields) (srcs : List VReg) (affine : Option VReg) (lane : Nat → Word)
    (hs : s.canon) :
    Out.canon (vecOut s c f srcs affine lane) := hs

/-! ### Machine/HostRegs.lean -/

@[simp] theorem State.notify_mem (s : State) (q : Nat) (value : DWord) : (s.notify q value).mem = s.mem := by
  unfold State.notify
  dsimp only
  repeat' split
  all_goals simp

@[simp] theorem State.recordStep_mem (s : State) (v : Word) : (s.recordStep v).mem = s.mem := rfl

theorem State.memPageApply_mem (s : State) (off : Nat) (value : DWord) :
    ∀ t, s.memPageApply off value = some t → t.mem = s.mem := by
  unfold State.memPageApply
  dsimp only
  repeat' split
  all_goals simp

@[simp] theorem State.memPageWrite_mem (s : State) (cid : Option Nat) (off : Nat) (value : DWord) :
    (s.memPageWrite cid off value).mem = s.mem := by
  unfold State.memPageWrite
  grind -ring -linarith -order [State.memPageApply_mem]

/-- The host's held writes (R248) reach no memory. -/
@[simp] theorem drainHeld_mem (s : State) (ws : List (Option Nat × Nat × DWord)) : (drainHeld s ws).mem = s.mem := by
  induction ws generalizing s with
  | nil => rfl
  | cons w ws ih =>
    obtain ⟨cid, off, value⟩ := w
    unfold drainHeld
    grind -ring -linarith -order [State.memPageApply_mem]

@[simp] theorem State.mailCmd_mem (s : State) (v : DWord) : (s.mailCmd v).mem = s.mem := by
  unfold State.mailCmd
  dsimp only
  repeat' split
  all_goals simp

@[simp] theorem State.hostWrite_mem (s : State) (cid : Option Nat) (off n v : Nat) : (s.hostWrite cid off n v).mem = s.mem := by
  unfold State.hostWrite
  repeat' split
  all_goals simp

/-! ### Machine/Mem.lean -/

@[simp] theorem State.setL2Set_mem (s : State) (x : L2Set) : (s.setL2Set x).mem = s.mem := rfl

@[simp] theorem State.noteLine_mem (s : State) (key : Nat) (mt pol : BitVec 2) : (s.noteLine key mt pol).mem = s.mem := by
  unfold State.noteLine
  dsimp only
  repeat' split
  all_goals simp

@[simp] theorem State.noteRun_mem (s : State) (key n : Nat) (mt pol : BitVec 2) : (s.noteRun key n mt pol).mem = s.mem := by
  unfold State.noteRun
  split <;> simp [foldl_mem]

@[simp] theorem State.noteWalk_mem (s : State) (p : XPort) (x : Ctx) (va : Nat) : (s.noteWalk p x va).mem = s.mem := by
  unfold State.noteWalk
  dsimp only
  repeat' split
  all_goals simp [foldl_mem]

@[simp] theorem State.keepTranslation_mem (s : State) (p : XPort) (x : Ctx) (va : Nat) (e : TlbEntry) :
    (s.keepTranslation p x va e).mem = s.mem := by
  unfold State.keepTranslation
  repeat' split
  all_goals simp

/-- The A and D bits of a page-table leaf (R113, R114) are one byte written in place. -/
theorem State.setLeaf_canon (s : State) (leaf : Nat) (bits : Byte) (hs : s.canon) : (s.setLeaf leaf bits).canon := by
  unfold State.setLeaf
  grind -ring -linarith -order [Memory.wf_memSet]

@[simp] theorem State.noteXlat_mem (s : State) (p : XPort) (x : Ctx) (va : DWord) (r : Xlat) :
    (s.noteXlat p x va r).mem = s.mem := by
  unfold State.noteXlat
  repeat' split
  all_goals simp

theorem State.touch_canon (s : State) (p : XPort) (x : Ctx) (va : DWord) (r : Xlat) (hs : s.canon) :
    (s.touch p x va r).canon := by
  unfold State.touch
  grind -ring -linarith -order [State.setLeaf_canon, State.keepTranslation_mem, State.noteXlat_mem]

theorem State.dirty_canon (s : State) (r : Xlat) (hs : s.canon) : (s.dirty r).canon := by
  unfold State.dirty
  grind -ring -linarith -order [State.setLeaf_canon]

theorem State.storeNat_canon (s : State) (key n v : Nat) (hs : s.canon) : (s.storeNat key n v).canon :=
  s.store_wf key _ hs

@[simp] theorem State.l1Drop_mem (s : State) (core line : Nat) : (s.l1Drop core line).mem = s.mem := by
  unfold State.l1Drop
  dsimp only
  repeat' split
  all_goals simp

@[simp] theorem State.l1Renew_mem (s : State) (core line : Nat) : (s.l1Renew core line).mem = s.mem := by
  unfold State.l1Renew
  dsimp only
  repeat' split
  all_goals simp

@[simp] theorem State.loadKey_mem (s : State) (core key n : Nat) (weak : Bool) : (s.loadKey core key n weak).2.mem = s.mem := by
  unfold State.loadKey
  dsimp only
  repeat' split
  all_goals simp

theorem State.writeWc_canon (s : State) (w : WcLine) (hs : s.canon) : (s.writeWc w).canon := by
  unfold State.writeWc
  grind -ring -linarith -order [State.store_wf, foldl_canon]

theorem State.drainWc_canon (s : State) (core : Nat) (hs : s.canon) : (s.drainWc core).canon := by
  unfold State.drainWc
  grind -ring -linarith -order [State.writeWc_canon, State.setCore_mem, foldl_canon]

theorem State.storeWc_canon (s : State) (core : Nat) (owner : Nat × Nat) (key : Nat) (bs : List Byte) (hs : s.canon) :
    (s.storeWc core owner key bs).canon := by
  unfold State.storeWc
  grind -ring -linarith -order [State.writeWc_canon, State.setCore_mem]

theorem State.release_canon (s : State) (core : Nat) (hs : s.canon) : (s.release core).canon := by
  unfold State.release
  grind -ring -linarith -order [State.drainWc_canon]

@[simp] theorem State.raisePlans_mem (s : State) (c : Cohort) (size : Nat) (ps : List LanePlan) :
    (s.raisePlans c size ps).mem = s.mem := by
  unfold State.raisePlans
  split <;> simp

theorem State.raisePlans_canon (s : State) (c : Cohort) (size : Nat) (ps : List LanePlan) (hs : s.canon) :
    (s.raisePlans c size ps).canon := by
  rwa [State.canon, State.raisePlans_mem]

theorem State.touchPlans_canon (s : State) (c : Cohort) (x : Ctx) (ps : List LanePlan) (hs : s.canon) :
    (s.touchPlans c x ps).canon := by
  unfold State.touchPlans
  grind -ring -linarith -order [State.touch_canon, foldl_canon]

theorem State.putAt_canon (s : State) (key : Nat) (bs : List Byte) (hs : s.canon) : (s.putAt key bs).canon := by
  unfold State.putAt
  grind -ring -linarith -order [State.hostWrite_mem, State.store_wf, foldl_canon]

theorem State.vaRead_canon (s : State) (p : XPort) (core : Nat) (x : Ctx) (va n : Nat) (hs : s.canon) :
    Each (fun _ => True) (fun r => r.2.canon) (s.vaRead p core x va n) := by
  unfold State.vaRead
  grind -ring -linarith -order [State.noteRun_mem, State.touch_canon, foldl_canon, Each]

theorem State.vaTouch_canon (s : State) (p : XPort) (core : Nat) (x : Ctx) (acc : Acc) (ps : List (Nat × Nat)) (hs : s.canon) :
    (s.vaTouch p core x acc ps).canon := by
  induction ps generalizing s with
  | nil => exact hs
  | cons q ps ih =>
    obtain ⟨va, n⟩ := q
    unfold State.vaTouch
    grind -ring -linarith -order [State.touch_canon]

theorem State.vaWrite_canon (s : State) (p : XPort) (core : Nat) (x : Ctx) (va : Nat) (bs : List Byte) (hs : s.canon) :
    Each (fun _ => True) State.canon (s.vaWrite p core x va bs) := by
  unfold State.vaWrite
  grind -ring -linarith -order [State.putAt_canon, State.dirty_canon, State.noteRun_mem, State.touch_canon, foldl_canon, Each]

@[simp] theorem State.dropReq_mem (s : State) (ctx : BitVec 16) (cid : Option Nat) (va : Nat) :
    (s.dropReq ctx cid va).mem = s.mem := rfl

@[simp] theorem State.askPage_mem (s : State) (ctx : BitVec 16) (cid : Option Nat) (va : Nat) :
    (s.askPage ctx cid va).mem = s.mem := by
  unfold State.askPage
  split <;> rfl

@[simp] theorem State.askPin_mem (s : State) (ctx : BitVec 16) (cid va : Nat) : (s.askPin ctx cid va).mem = s.mem :=
  State.askPage_mem _ _ _ _

theorem waitPage_canon (s : State) (c : Cohort) (va : Nat) (hs : s.canon) : Out.canon (waitPage s c va) := by
  unfold waitPage
  grind -ring -linarith -order [raiseR_canon, State.dropReq_mem, waitHere_canon, State.askPage_mem, Out.canon]

@[simp] theorem State.unpin_mem (s : State) (c : Cohort) (va : Nat) : (s.unpin c va).mem = s.mem := by
  unfold State.unpin
  repeat' split
  all_goals simp

@[simp] theorem State.unpinRun_mem (s : State) (c : Cohort) (va n : Nat) : (s.unpinRun c va n).mem = s.mem := by
  simp [State.unpinRun, foldl_mem]

theorem State.fetchWord_canon (s : State) (core : Nat) (x : Ctx) (va : DWord) (hs : s.canon) :
    (s.fetchWord core x va).2.canon := by
  unfold State.fetchWord
  grind -ring -linarith -order [State.touch_canon, State.noteLine_mem, State.setCore_mem]

/-! ### Machine/Causes.lean -/

@[simp] theorem State.causeAside_mem (s : State) (cid : Nat) (k : BitVec 16) (group : Nat) (detail : BitVec 96) (core : BitVec 16)
    (pc : Word) (job : Bool) :
    (s.causeAside cid k group detail core pc job).mem = s.mem := by
  unfold State.causeAside
  dsimp only
  repeat' split
  all_goals simp

@[simp] theorem State.jobCause_mem (s : State) (cid : Nat) (k : BitVec 16) (group : Nat) (detail : BitVec 96) (pc : Word) :
    (s.jobCause cid k group detail pc).mem = s.mem :=
  State.causeAside_mem _ _ _ _ _ _ _ _

@[simp] theorem State.stopContext_mem (s : State) (k : BitVec 16) (group : Nat) (detail : BitVec 96) (final : Bool)
    (but : Option Nat) :
    (s.stopContext k group detail final but).mem = s.mem := by
  unfold State.stopContext
  dsimp only
  repeat' split
  all_goals simp

@[simp] theorem State.replayFails_mem (s : State) (unit : BitVec 16) (core : Nat) (k : BitVec 16) (cid : Nat) (pc : Word)
    (job : Bool) :
    (s.replayFails unit core k cid pc job).mem = s.mem := by
  simp [State.replayFails, foldl_mem]

@[simp] theorem State.replayed_mem (s : State) (unit : BitVec 16) (die : Nat) : (s.replayed unit die).mem = s.mem := by
  unfold State.replayed
  split <;> rfl

@[simp] theorem State.engineReplay_mem (s : State) (kind core : Nat) (k : BitVec 16) (cid : Nat) (pc : Word) :
    (s.engineReplay kind core k cid pc).mem = s.mem :=
  State.replayFails_mem _ _ _ _ _ _ _

/-! ### Machine/Indigo.lean -/

@[simp] theorem State.fwdGive_mem (s : State) (c : Cohort) (vals : List (Option DWord)) (lost : Mask) :
    (s.fwdGive c vals lost).1.mem = s.mem := by
  unfold State.fwdGive
  repeat' split
  all_goals simp

/-- As `withMe_canon`, for the context of the cohort. -/
theorem withCtx_canon (s : State) (c : Cohort) (k : Ctx → Out) (hk : ∀ y, Out.canon (k y)) : Out.canon (withCtx s c k) := by
  unfold withCtx
  grind -ring -linarith -order [Out.canon]

/-- The continuation may run in the state after the value was forwarded (R296). -/
theorem outsideValue_canon (s : State) (c : Cohort) (own : DWord) (k : State → Cohort → DWord → Out) (hs : s.canon)
    (hk : ∀ t d v, t.canon → Out.canon (k t d v)) :
    Out.canon (outsideValue s c own k) := by
  unfold outsideValue
  grind -ring -linarith -order [State.fwdGive_mem, waitHere_canon, Out.canon]

theorem indigoClose_canon (s : State) (c : Cohort) (k : Cohort → Out) (hs : s.canon) (hk : ∀ d, Out.canon (k d)) :
    Out.canon (indigoClose s c k) := by
  unfold indigoClose
  grind -ring -linarith -order [waitHere_canon, Out.canon]

/-! ### Machine/Flags.lean -/

theorem withFlags_canon (s : State) (c : Cohort) (m : Mask) (fl : Nat → BitVec 6) (k : Cohort → Cohort) (hs : s.canon) :
    Out.canon (withFlags s c m fl k) := by
  unfold withFlags
  grind -ring -linarith -order [finish_canon, raiseOut_canon, Out.canon]

theorem flaggedOut_canon (s : State) (c : Cohort) (f : Fields) (srcs : List VReg) (affine : Option VReg)
    (lane : Nat → Word × BitVec 6) (hs : s.canon) :
    Out.canon (flaggedOut s c f srcs affine lane) := by
  unfold flaggedOut
  grind -ring -linarith -order [withFlags_canon, Out.canon]

theorem roundedOut_canon (s : State) (c : Cohort) (f : Fields) (srcs : List VReg) (lane : Word → Nat → Word × BitVec 6)
    (hs : s.canon) :
    Out.canon (roundedOut s c f srcs lane) := by
  unfold roundedOut
  grind -ring -linarith -order [withFlags_canon, flaggedOut_canon, Out.canon]

/-! ### Machine/Integer.lean -/

theorem intOut2_canon (f : Fields) (s : State) (op : Int → Int → Int) (affine : VReg → VReg → Option VReg) (hs : s.canon) :
    Out.canon (intOut2 f s op affine) :=
  withMe_canon s _ fun _ => flaggedOut_canon _ _ _ _ _ _ hs

theorem wideOut_canon (f : Fields) (s : State) (c : Cohort) (srcs : List VReg) (val : Nat → Int) (hs : s.canon) :
    Out.canon (wideOut f s c srcs val) := by
  unfold wideOut
  grind -ring -linarith -order [withFlags_canon, Out.canon]

theorem addWide_canon (f : Fields) (s : State) (op : Int → Int → Int) (hs : s.canon) : Out.canon (addWide f s op) :=
  withMe_canon s _ fun _ => wideOut_canon _ _ _ _ _ hs

theorem execIadd_canon (f : Fields) (s : State) (hs : s.canon) : Out.canon (execIadd f s) := by
  unfold execIadd
  grind -ring -linarith -order [addWide_canon, intOut2_canon, Out.canon]

theorem execIsub_canon (f : Fields) (s : State) (hs : s.canon) : Out.canon (execIsub f s) := by
  unfold execIsub
  grind -ring -linarith -order [addWide_canon, intOut2_canon, Out.canon]

theorem execImul_canon (f : Fields) (s : State) (hs : s.canon) : Out.canon (execImul f s) :=
  intOut2_canon _ _ _ _ hs

theorem execImulh_canon (f : Fields) (s : State) (hs : s.canon) : Out.canon (execImulh f s) :=
  withMe_canon s _ fun _ => vecOut_canon _ _ _ _ _ _ hs

theorem execImad_canon (f : Fields) (s : State) (hs : s.canon) : Out.canon (execImad f s) :=
  withMe_canon s _ fun _ => Out.canon_ite (wideOut_canon _ _ _ _ _ hs) (flaggedOut_canon _ _ _ _ _ _ hs)

theorem execIabs_canon (f : Fields) (s : State) (hs : s.canon) : Out.canon (execIabs f s) :=
  withMe_canon s _ fun _ => flaggedOut_canon _ _ _ _ _ _ hs

theorem execImin_canon (f : Fields) (s : State) (hs : s.canon) : Out.canon (execImin f s) :=
  intOut2_canon _ _ _ _ hs

theorem execImax_canon (f : Fields) (s : State) (hs : s.canon) : Out.canon (execImax f s) :=
  intOut2_canon _ _ _ _ hs

theorem execIaddmin_canon (f : Fields) (s : State) (hs : s.canon) : Out.canon (execIaddmin f s) :=
  withMe_canon s _ fun _ => vecOut_canon _ _ _ _ _ _ hs

theorem execIcmp_canon (f : Fields) (s : State) (hs : s.canon) : Out.canon (execIcmp f s) :=
  withMe_canon s _ fun _ => finish_canon _ _ hs

theorem execLea_canon (f : Fields) (s : State) (hs : s.canon) : Out.canon (execLea f s) :=
  withMe_canon s _ fun _ => Out.canon_ite (wideOut_canon _ _ _ _ _ hs) (flaggedOut_canon _ _ _ _ _ _ hs)

theorem dotOut_canon (f : Fields) (s : State) (t : Typ) (hs : s.canon) : Out.canon (dotOut f s t) :=
  withMe_canon s _ fun _ => flaggedOut_canon _ _ _ _ _ _ hs

theorem execIdp2_canon (f : Fields) (s : State) (hs : s.canon) : Out.canon (execIdp2 f s) :=
  dotOut_canon _ _ _ hs

theorem execIdp4_canon (f : Fields) (s : State) (hs : s.canon) : Out.canon (execIdp4 f s) :=
  dotOut_canon _ _ _ hs

theorem execShrrn_canon (f : Fields) (s : State) (hs : s.canon) : Out.canon (execShrrn f s) :=
  withMe_canon s _ fun _ => flaggedOut_canon _ _ _ _ _ _ hs

/-! ### Machine/Stops.lean -/

@[simp] theorem State.offerBaton_mem (s : State) (core : Nat) : (s.offerBaton core).mem = s.mem := by
  unfold State.offerBaton
  split <;> simp

@[simp] theorem State.haltFall_mem (s : State) (k : BitVec 16) : (s.haltFall k).mem = s.mem := by
  unfold State.haltFall
  split <;> simp [foldl_mem]

@[simp] theorem State.handlerDone_mem (s : State) (k : BitVec 16) : (s.handlerDone k).mem = s.mem := by
  unfold State.handlerDone
  split <;> simp

/-! ### Machine/Control.lean -/

theorem raiseWord_canon (s : State) (c : Cohort) (opc : BitVec 8) (f : Fields) (group reason field : Nat) (hs : s.canon) :
    Out.canon (raiseWord s c opc f group reason field) :=
  raiseOut_canon _ _ _ _ _ hs

theorem execNop_canon (f : Fields) (s : State) (hs : s.canon) : Out.canon (execNop f s) :=
  withMe_canon s _ fun _ => finish_canon _ _ hs

theorem execYield_canon (f : Fields) (s : State) (hs : s.canon) : Out.canon (execYield f s) :=
  withMe_canon s _ fun _ => finish_canon _ _ hs

theorem execBra_canon (f : Fields) (s : State) (hs : s.canon) : Out.canon (execBra f s) := by
  unfold execBra
  refine withMe_canon s _ fun c => ?_
  grind -ring -linarith -order [finish_canon, State.settleCohort_mem, raiseR_canon, Out.canon]

theorem jumpOut_canon (f : Fields) (s : State) (target : Cohort → Word) (hs : s.canon) : Out.canon (jumpOut f s target) := by
  unfold jumpOut
  refine withMe_canon s _ fun c => ?_
  grind -ring -linarith -order [finish_canon, State.settleCohort_mem, Out.canon]

theorem execJmp_canon (f : Fields) (s : State) (hs : s.canon) : Out.canon (execJmp f s) :=
  jumpOut_canon _ _ _ hs

theorem execJmpInd_canon (f : Fields) (s : State) (hs : s.canon) : Out.canon (execJmpInd f s) :=
  jumpOut_canon _ _ _ hs

theorem callOut_canon (f : Fields) (s : State) (target : Cohort → Word) (hs : s.canon) : Out.canon (callOut f s target) := by
  unfold callOut
  refine withMe_canon s _ fun c => ?_
  grind -ring -linarith -order [finish_canon, State.settleCohort_mem, Out.canon]

theorem execCall_canon (f : Fields) (s : State) (hs : s.canon) : Out.canon (execCall f s) :=
  callOut_canon _ _ _ hs

theorem execCallInd_canon (f : Fields) (s : State) (hs : s.canon) : Out.canon (execCallInd f s) :=
  callOut_canon _ _ _ hs

theorem execRet_canon (f : Fields) (s : State) (hs : s.canon) : Out.canon (execRet f s) := by
  unfold execRet
  refine withMe_canon s _ fun c => ?_
  grind -ring -linarith -order [finish_canon, State.settleCohort_mem, raiseR_canon, Out.canon]

theorem execAssert_canon (f : Fields) (s : State) (hs : s.canon) : Out.canon (execAssert f s) :=
  withMe_canon s _ fun _ => Out.canon_ite (finish_canon _ _ hs) (raiseOut_canon _ _ _ _ _ hs)

theorem execTrap_canon (f : Fields) (s : State) (hs : s.canon) : Out.canon (execTrap f s) :=
  withMe_canon s _ fun _ => Out.canon_ite (finish_canon _ _ hs) (raiseOut_canon _ _ _ _ _ hs)

theorem execBkpt_canon (f : Fields) (s : State) (hs : s.canon) : Out.canon (execBkpt f s) :=
  withMe_canon s _ fun _ => Out.canon_ite (finish_canon _ _ hs) (raiseOut_canon _ _ _ _ _ hs)

theorem execTret_canon (f : Fields) (s : State) (hs : s.canon) : Out.canon (execTret f s) := by
  unfold execTret
  refine withMe_canon s _ fun c => ?_
  grind -ring -linarith -order [finish_canon, raiseR_canon, State.handlerDone_mem, State.settleCohort_mem, Out.canon]

theorem execGate_canon (f : Fields) (s : State) (hs : s.canon) : Out.canon (execGate f s) :=
  withMe_canon s _ fun _ => Out.canon_ite (finish_canon _ _ hs) (waitHere_canon _ _ hs)

theorem execMfs_canon (f : Fields) (s : State) (hs : s.canon) : Out.canon (execMfs f s) := by
  unfold execMfs
  refine withMe_canon s _ fun c => ?_
  grind -ring -linarith -order [finish_canon, outsideValue_canon, Out.canon]

@[simp] theorem State.writeLqver_mem (s : State) (core : Nat) (v : Word) : (s.writeLqver core v).mem = s.mem := by
  unfold State.writeLqver
  dsimp only
  repeat' split
  all_goals simp

theorem execMts_canon (f : Fields) (s : State) (hs : s.canon) : Out.canon (execMts f s) := by
  unfold execMts
  refine withMe_canon s _ fun c => ?_
  grind -ring -linarith -order [finish_canon, raiseR_canon, raiseWord_canon, State.writeLqver_mem, Out.canon]

/-! ### Machine/Logic.lean -/

theorem logicOut2_canon (f : Fields) (s : State) (op : Word → Word → Word) (hs : s.canon) : Out.canon (logicOut2 f s op) :=
  withMe_canon s _ fun _ => vecOut_canon _ _ _ _ _ _ hs

theorem logicOut1_canon (f : Fields) (s : State) (op : Word → Word) (hs : s.canon) : Out.canon (logicOut1 f s op) :=
  withMe_canon s _ fun _ => vecOut_canon _ _ _ _ _ _ hs

theorem execAnd_canon (f : Fields) (s : State) (hs : s.canon) : Out.canon (execAnd f s) :=
  logicOut2_canon _ _ _ hs

theorem execAndn_canon (f : Fields) (s : State) (hs : s.canon) : Out.canon (execAndn f s) :=
  logicOut2_canon _ _ _ hs

theorem execOr_canon (f : Fields) (s : State) (hs : s.canon) : Out.canon (execOr f s) :=
  logicOut2_canon _ _ _ hs

theorem execXor_canon (f : Fields) (s : State) (hs : s.canon) : Out.canon (execXor f s) :=
  logicOut2_canon _ _ _ hs

theorem execNot_canon (f : Fields) (s : State) (hs : s.canon) : Out.canon (execNot f s) :=
  logicOut1_canon _ _ _ hs

theorem execPopc_canon (f : Fields) (s : State) (hs : s.canon) : Out.canon (execPopc f s) :=
  logicOut1_canon _ _ _ hs

theorem execClz_canon (f : Fields) (s : State) (hs : s.canon) : Out.canon (execClz f s) :=
  logicOut1_canon _ _ _ hs

theorem execBrev_canon (f : Fields) (s : State) (hs : s.canon) : Out.canon (execBrev f s) :=
  logicOut1_canon _ _ _ hs

theorem execBfx_canon (f : Fields) (s : State) (hs : s.canon) : Out.canon (execBfx f s) :=
  withMe_canon s _ fun _ => vecOut_canon _ _ _ _ _ _ hs

theorem execBfi_canon (f : Fields) (s : State) (hs : s.canon) : Out.canon (execBfi f s) :=
  withMe_canon s _ fun _ => vecOut_canon _ _ _ _ _ _ hs

theorem shiftWide_canon (f : Fields) (s : State) (op : DWord → Nat → DWord) (hs : s.canon) : Out.canon (shiftWide f s op) :=
  withMe_canon s _ fun _ => finish_canon _ _ hs

theorem execShl_canon (f : Fields) (s : State) (hs : s.canon) : Out.canon (execShl f s) := by
  unfold execShl
  grind -ring -linarith -order [shiftWide_canon, withMe_canon, flaggedOut_canon, Out.canon]

theorem execShr_canon (f : Fields) (s : State) (hs : s.canon) : Out.canon (execShr f s) := by
  unfold execShr
  grind -ring -linarith -order [shiftWide_canon, logicOut2_canon, Out.canon]

theorem execShra_canon (f : Fields) (s : State) (hs : s.canon) : Out.canon (execShra f s) :=
  logicOut2_canon _ _ _ hs

/-! ### Machine/Cross.lean -/

theorem crossOut_canon (f : Fields) (s : State) (c : Cohort) (src : Nat → Option Nat) (fill : Option VReg) (hs : s.canon) :
    Out.canon (crossOut f s c src fill) := hs

theorem execShfl_canon (f : Fields) (s : State) (hs : s.canon) : Out.canon (execShfl f s) :=
  withMe_canon s _ fun _ => crossOut_canon _ _ _ _ _ hs

theorem execSlide_canon (f : Fields) (s : State) (hs : s.canon) : Out.canon (execSlide f s) :=
  withMe_canon s _ fun _ => crossOut_canon _ _ _ _ _ hs

theorem execSwzx_canon (f : Fields) (s : State) (hs : s.canon) : Out.canon (execSwzx f s) :=
  withMe_canon s _ fun _ => crossOut_canon _ _ _ _ _ hs

theorem execBcast_canon (f : Fields) (s : State) (hs : s.canon) : Out.canon (execBcast f s) :=
  withMe_canon s _ fun _ => finish_canon _ _ hs

theorem execVote_canon (f : Fields) (s : State) (hs : s.canon) : Out.canon (execVote f s) := by
  unfold execVote
  refine withMe_canon s _ fun c => ?_
  grind -ring -linarith -order [finish_canon, Out.canon]

theorem execRedl_canon (f : Fields) (s : State) (hs : s.canon) : Out.canon (execRedl f s) :=
  withMe_canon s _ fun _ => withFlags_canon _ _ _ _ _ hs

theorem execScanl_canon (f : Fields) (s : State) (hs : s.canon) : Out.canon (execScanl f s) :=
  withMe_canon s _ fun _ => withFlags_canon _ _ _ _ _ hs

theorem execVshape_canon (f : Fields) (s : State) (hs : s.canon) : Out.canon (execVshape f s) := by
  unfold execVshape
  refine withMe_canon s _ fun c => ?_
  grind -ring -linarith -order [finish_canon, Out.canon]

theorem execVsqz_canon (f : Fields) (s : State) (hs : s.canon) : Out.canon (execVsqz f s) := by
  unfold execVsqz
  refine withMe_canon s _ fun c => ?_
  grind -ring -linarith -order [finish_canon, Out.canon]

theorem execVexp_canon (f : Fields) (s : State) (hs : s.canon) : Out.canon (execVexp f s) := by
  unfold execVexp
  refine withMe_canon s _ fun c => ?_
  grind -ring -linarith -order [finish_canon, Out.canon]

/-! ### Machine/Adopt.lean -/

@[simp] theorem State.pump_mem (s : State) (n : Nat) : (s.pump n).mem = s.mem := rfl

@[simp] theorem State.sendOn_mem (s : State) (n : Nat) (k : Packet) : (s.sendOn n k).mem = s.mem := rfl

@[simp] theorem State.send_mem (s : State) (die : Nat) (k : Packet) : (s.send die k).mem = s.mem := by
  unfold State.send
  repeat' split
  all_goals simp

@[simp] theorem State.sendIdle_mem (s : State) (n : Nat) : (s.sendIdle n).mem = s.mem := rfl

@[simp] theorem State.regulate_mem (s : State) (n : Nat) : (s.regulate n).mem = s.mem := by
  unfold State.regulate
  dsimp only
  repeat' split
  all_goals simp

@[simp] theorem State.takeTxid_mem (s : State) (die : Nat) : (s.takeTxid die).2.mem = s.mem := rfl

theorem State.rollBack_canon (s : State) (st : Word) (hs : s.canon) : (s.rollBack st).canon := by
  unfold State.rollBack
  grind -ring -linarith -order [State.writeMem_canon, foldl_canon, foldl_mem]

@[simp] theorem State.askClone_mem (s : State) (t : RankTable) (idx pos : Nat) (fp : Bool) :
    (s.askClone t idx pos fp).mem = s.mem := by
  unfold State.askClone
  split <;> simp

@[simp] theorem State.askDonor_mem (s : State) (t : RankTable) (x : Stripe) : (s.askDonor t x).mem = s.mem := by
  unfold State.askDonor
  split <;> simp

@[simp] theorem State.atOnce_mem (s : State) (e : Instr) : (s.atOnce e).mem = s.mem := rfl

@[simp] theorem State.tell_mem (s : State) (die : Nat) (dst : BitVec 20) (b : PktBody) : (s.tell die dst b).mem = s.mem := by
  unfold State.tell
  dsimp only
  repeat' split
  all_goals simp

@[simp] theorem State.tellAll_mem (s : State) (die : Nat) (dsts : List (BitVec 20)) (b : PktBody) :
    (s.tellAll die dsts b).mem = s.mem := by
  simp [State.tellAll, foldl_mem]

@[simp] theorem State.setStripe_mem (s : State) (x : Stripe) : (s.setStripe x).mem = s.mem := rfl

@[simp] theorem State.loseStripe_mem (s : State) (t : RankTable) (x : Stripe) : (s.loseStripe t x).mem = s.mem := by
  unfold State.loseStripe
  split <;> simp

@[simp] theorem fillMore_mem (n : Nat) (s : State) (t : RankTable) : (fillMore n s t).mem = s.mem := by
  induction n generalizing s with
  | zero => rfl
  | succ n ih =>
    unfold fillMore
    grind -ring -linarith -order [State.loseStripe_mem, State.askDonor_mem]

@[simp] theorem State.releaseHeld_mem (s : State) (gen : Word) : (s.releaseHeld gen).mem = s.mem := by
  simp [State.releaseHeld, foldl_mem]

theorem State.writeTable_canon (s : State) (t : RankTable) (hs : s.canon) :
    Each (fun _ => True) State.canon (s.writeTable t) := by
  unfold State.writeTable
  grind -ring -linarith -order [State.vaWrite_canon, Each]

@[simp] theorem State.adopt_mem (s : State) (t : RankTable) : (s.adopt t).mem = s.mem := by
  simp [State.adopt]

/-! ### Machine/Float.lean -/

theorem fpOut2_canon (f : Fields) (s : State) (op : FVal → FVal → FVal × BitVec 6) (hs : s.canon) : Out.canon (fpOut2 f s op) :=
  withMe_canon s _ fun _ => roundedOut_canon _ _ _ _ _ hs

theorem execFadd_canon (f : Fields) (s : State) (hs : s.canon) : Out.canon (execFadd f s) :=
  fpOut2_canon _ _ _ hs

theorem execFsub_canon (f : Fields) (s : State) (hs : s.canon) : Out.canon (execFsub f s) :=
  fpOut2_canon _ _ _ hs

theorem execFmul_canon (f : Fields) (s : State) (hs : s.canon) : Out.canon (execFmul f s) :=
  fpOut2_canon _ _ _ hs

theorem execFfma_canon (f : Fields) (s : State) (hs : s.canon) : Out.canon (execFfma f s) :=
  withMe_canon s _ fun _ => roundedOut_canon _ _ _ _ _ hs

theorem execXfma2_canon (f : Fields) (s : State) (hs : s.canon) : Out.canon (execXfma2 f s) :=
  withMe_canon s _ fun _ => roundedOut_canon _ _ _ _ _ hs

theorem execFcmp_canon (f : Fields) (s : State) (hs : s.canon) : Out.canon (execFcmp f s) :=
  withMe_canon s _ fun _ => finish_canon _ _ hs

theorem fpPick_canon (f : Fields) (s : State) (wantMax : Bool) (hs : s.canon) : Out.canon (fpPick f s wantMax) :=
  withMe_canon s _ fun _ => vecOut_canon _ _ _ _ _ _ hs

theorem execFmax_canon (f : Fields) (s : State) (hs : s.canon) : Out.canon (execFmax f s) :=
  fpPick_canon _ _ _ hs

theorem execFmin_canon (f : Fields) (s : State) (hs : s.canon) : Out.canon (execFmin f s) :=
  fpPick_canon _ _ _ hs

theorem execFrnd_canon (f : Fields) (s : State) (hs : s.canon) : Out.canon (execFrnd f s) :=
  withMe_canon s _ fun _ => vecOut_canon _ _ _ _ _ _ hs

theorem execFsfn_canon (f : Fields) (s : State) (hs : s.canon) : Out.canon (execFsfn f s) :=
  withMe_canon s _ fun _ => flaggedOut_canon _ _ _ _ _ _ hs

/-! ### Machine/Memory.lean -/

@[simp] theorem State.noteDead_mem (s : State) (c : Cohort) : (s.noteDead c).mem = s.mem := by
  unfold State.noteDead
  split <;> rfl

@[simp] theorem State.killTwin_mem (s : State) (c : Cohort) (dead : Mask) : (s.killTwin c dead).mem = s.mem := by
  unfold State.killTwin
  dsimp only
  repeat' split
  all_goals simp

theorem finishKill_canon (s : State) (c : Cohort) (dead : Mask) (hs : s.canon) : Out.canon (finishKill s c dead) := by
  unfold finishKill
  grind -ring -linarith -order [finish_canon, State.settleCohort_mem, State.killTwin_mem, State.noteDead_mem, Out.canon]

/-- The combining buffer is drained first; the meaning runs in the drained state. -/
theorem releasing_canon (s : State) (c : Cohort) (k : State → Cohort → Out) (hs : s.canon)
    (hk : ∀ t d, t.canon → Out.canon (k t d)) :
    Out.canon (releasing s c k) := by
  unfold releasing
  grind -ring -linarith -order [waitHere_canon, indigoClose_canon, State.release_canon, Out.canon]

@[simp] theorem State.loadLane_mem (s : State) (c : Cohort) (f : Fields) (n : Nat) (p : LanePlan) :
    (s.loadLane c f n p).2.2.mem = s.mem := by
  unfold State.loadLane
  dsimp only
  repeat' split
  all_goals simp

@[simp] theorem State.loadLanes_mem (s : State) (c : Cohort) (f : Fields) (n : Nat) (ps : List LanePlan) :
    (s.loadLanes c f n ps).2.2.mem = s.mem := by
  induction ps generalizing s with
  | nil => rfl
  | cons p ps ih =>
    unfold State.loadLanes
    grind -ring -linarith -order [State.loadLane_mem]

theorem loadDone_canon (f : Fields) (s : State) (c : Cohort) (m : Mask) (uniform wide : Bool) (vals : Nat → DWord)
    (nonres dead : Mask) (hs : s.canon) :
    Out.canon (loadDone f s c m uniform wide vals nonres dead) :=
  finishKill_canon _ _ _ hs

@[simp] theorem State.unpinAll_mem (s : State) (c : Cohort) (ps : List LanePlan) : (s.unpinAll c ps).mem = s.mem := by
  simp [State.unpinAll, foldl_mem]

@[simp] theorem State.dropPlan_mem (s : State) (c : Cohort) (p : LanePlan) : (s.dropPlan c p).mem = s.mem := by
  unfold State.dropPlan
  split <;> simp

theorem execLd_canon (f : Fields) (s : State) (hs : s.canon) : Out.canon (execLd f s) := by
  unfold execLd
  refine withMe_canon s _ fun c => withCtx_canon s c _ fun x => ?_
  grind -ring -linarith -order [finish_canon, State.touchPlans_canon, State.raisePlans_mem, waitHere_canon, indigoClose_canon,
    State.loadLanes_mem, State.unpinAll_mem, State.fwdGive_mem, loadDone_canon, State.dropPlan_mem, foldl_canon, Out.canon]

theorem State.storeHome_canon (s : State) (core : Nat) (owner : Nat × Nat) (rel : Bool) (n : Nat) (r : Xlat) (v : Nat)
    (pol : BitVec 2) (hs : s.canon) :
    (s.storeHome core owner rel n r v pol).canon := by
  unfold State.storeHome
  grind -ring -linarith -order [State.storeNat_canon, State.hostWrite_mem, State.dirty_canon, State.noteLine_mem,
    State.storeWc_canon]

theorem State.storeLane_canon (s : State) (c : Cohort) (rel : Bool) (n : Nat) (pol : BitVec 2) (p : LanePlan) (v : Nat)
    (hs : s.canon) :
    (s.storeLane c rel n pol p v).canon := by
  unfold State.storeLane
  grind -ring -linarith -order [State.storeHome_canon, State.dropPlan_mem]

theorem storeLanes_canon (s : State) (c : Cohort) (rel : Bool) (scope : Scope) (n : Nat) (pol : BitVec 2) (val : Nat → Nat)
    (ps : List LanePlan) (hs : s.canon) :
    (storeLanes s c rel scope n pol val ps).1.canon := by
  unfold storeLanes
  grind -ring -linarith -order [State.dropPlan_mem, State.storeLane_canon, foldl_canon, foldl_mem]

theorem execSt_canon (f : Fields) (s : State) (hs : s.canon) : Out.canon (execSt f s) := by
  unfold execSt
  refine withMe_canon s _ fun c => withCtx_canon s c _ fun x => ?_
  grind -ring -linarith -order [finish_canon, raiseR_canon, State.touchPlans_canon, State.raisePlans_mem, waitHere_canon,
    outsideValue_canon, State.unpinAll_mem, storeLanes_canon, releasing_canon, Out.canon]

theorem State.atomWrite_canon (s : State) (sub : Nat) (t : Typ) (r : Xlat) (old cmp v : Word) (hs : s.canon) :
    (s.atomWrite sub t r old cmp v).canon := by
  unfold State.atomWrite
  grind -ring -linarith -order [State.storeNat_canon, State.dirty_canon]

theorem State.atomHome_canon (s : State) (sub : Nat) (t : Typ) (r : Xlat) (cmp v : Word) (pol : BitVec 2) (hs : s.canon) :
    (s.atomHome sub t r cmp v pol).2.2.canon := by
  unfold State.atomHome
  grind -ring -linarith -order [State.noteLine_mem, State.atomWrite_canon]

theorem State.rmwLanes_canon (c : Cohort) (o : AtomOp) (ps : List LanePlan) (s : State) (r : Rmw) (hs : s.canon) :
    (State.rmwLanes c o ps s r).2.2.canon := by
  induction ps generalizing s r with
  | nil => exact hs
  | cons p ps ih =>
    unfold State.rmwLanes
    grind -ring -linarith -order [State.dropPlan_mem, State.atomWrite_canon, State.atomHome_canon]

/-- The continuation runs in the state after the lanes. -/
theorem atomGo_canon (s : State) (c : Cohort) (o : AtomOp) (ps : List LanePlan)
    (k : State → Cohort → List (Nat × Nat) → Mask → Out) (hs : s.canon) (hk : ∀ t d a m, t.canon → Out.canon (k t d a m)) :
    Out.canon (atomGo s c o ps k) := by
  unfold atomGo
  grind -ring -linarith -order [State.rmwLanes_canon, waitHere_canon, Out.canon]

theorem atomIndigo_canon (s : State) (c : Cohort) (x : Ctx) (o : AtomOp) (scope : Scope) (ps : List LanePlan)
    (k : State → Cohort → List (Nat × Nat) → Mask → Mask → Out) (hs : s.canon)
    (hk : ∀ t d a m m', t.canon → Out.canon (k t d a m m')) :
    Out.canon (atomIndigo s c x o scope ps k) := by
  unfold atomIndigo
  grind -ring -linarith -order [outsideValue_canon, State.rmwLanes_canon, State.dropPlan_mem, waitHere_canon, foldl_canon,
    Out.canon]

theorem execAtom_canon (f : Fields) (s : State) (hs : s.canon) : Out.canon (execAtom f s) := by
  unfold execAtom
  refine withMe_canon s _ fun c => withCtx_canon s c _ fun x => ?_
  grind -ring -linarith -order [finish_canon, raiseR_canon, State.touchPlans_canon, State.raisePlans_mem, waitHere_canon,
    State.fwdGive_mem, loadDone_canon, State.unpinAll_mem, atomGo_canon, atomIndigo_canon, releasing_canon, indigoClose_canon,
    Out.canon]

theorem execRed_canon (f : Fields) (s : State) (hs : s.canon) : Out.canon (execRed f s) := by
  unfold execRed
  refine withMe_canon s _ fun c => withCtx_canon s c _ fun x => ?_
  extract_lets m va ps st rel o go
  have hst : st.canon := s.touchPlans_canon c x ps hs
  have hgo (t : State) (d : Cohort) (ht : t.canon) : Out.canon (go t d) := by
    refine outsideValue_canon _ d _ _ ?_ fun u e v hu => atomGo_canon _ e o _ _ ?_ fun w b ds k hw => finishKill_canon w _ k hw
    · rw [State.canon, State.unpinAll_mem]
      exact t.touchPlans_canon d x ps ht
    · exact foldl_canon _ (fun t p ht => by rwa [State.canon, State.dropPlan_mem]) _ u hu
  clear_value go st
  exact Out.canon_ite (finish_canon s c hs) (Out.canon_ite (raiseR_canon s c 12 7 hs)
    (Out.canon_ite (st.raisePlans_canon c _ ps hst) (Out.canon_ite (waitHere_canon s c hs)
      (Out.canon_ite (hgo s c hs) (Out.canon_ite (releasing_canon s c go hs hgo) (hgo s c hs))))))

theorem State.prefLane_canon (s : State) (c : Cohort) (x : Ctx) (f : Fields) (p : LanePlan) (hs : s.canon) :
    (s.prefLane c x f p).canon := by
  unfold State.prefLane
  grind -ring -linarith -order [State.touch_canon, State.noteLine_mem, State.setCore_mem]

theorem execPref_canon (f : Fields) (s : State) (hs : s.canon) : Out.canon (execPref f s) := by
  unfold execPref
  refine withMe_canon s _ fun c => withCtx_canon s c _ fun x => ?_
  grind -ring -linarith -order [finish_canon, State.raisePlans_mem, State.touchPlans_canon, outsideValue_canon,
    State.unpinAll_mem, State.prefLane_canon, foldl_canon, Out.canon]

theorem raisePgreq_canon (s : State) (c : Cohort) (x : Ctx) (m : Mask) (va : Nat → DWord) (hs : s.canon) :
    Out.canon (raisePgreq s c x m va) :=
  raiseOut_canon _ _ _ _ _ hs

theorem splitOut_canon (s : State) (c : Cohort) (f : Fields) (kind : Nat) (op : SplitOp) (done : Option Word) (hs : s.canon) :
    Out.canon (splitOut s c f kind op done) := by
  unfold splitOut
  grind -ring -linarith -order [finish_canon, outsideValue_canon, waitHere_canon, Out.canon]

theorem pgreqOut_canon (f : Fields) (s : State) (split : Bool) (hs : s.canon) : Out.canon (pgreqOut f s split) := by
  unfold pgreqOut
  refine withMe_canon s _ fun c => withCtx_canon s c _ fun x => ?_
  grind -ring -linarith -order [finish_canon, raisePgreq_canon, splitOut_canon, outsideValue_canon, raiseOut_canon,
    State.askPin_mem, waitHere_canon, State.dropReq_mem, foldl_canon, foldl_mem, Out.canon]

theorem execPgreq_canon (f : Fields) (s : State) (hs : s.canon) : Out.canon (execPgreq f s) :=
  pgreqOut_canon _ _ _ hs

theorem execPgreqSplit_canon (f : Fields) (s : State) (hs : s.canon) : Out.canon (execPgreqSplit f s) :=
  pgreqOut_canon _ _ _ hs

theorem State.drainWhere_canon (s : State) (inC : Nat → Bool) (hs : s.canon) : (s.drainWhere inC).canon := by
  unfold State.drainWhere
  grind -ring -linarith -order [State.drainWc_canon, foldl_canon]

theorem State.invalidate_canon (s0 : State) (ctx : BitVec 16) (range : Option (Nat × Nat)) (inC inQ inD : Nat → Bool)
    (hs0 : s0.canon) :
    (s0.invalidate ctx range inC inQ inD).canon := by
  unfold State.invalidate
  grind -ring -linarith -order [State.drainWhere_canon]

theorem execCctl_canon (f : Fields) (s : State) (hs : s.canon) : Out.canon (execCctl f s) := by
  unfold execCctl
  refine withMe_canon s _ fun c => ?_
  grind -ring -linarith -order [finish_canon, waitHere_canon, State.invalidate_canon, indigoClose_canon, Out.canon]

theorem execFence_canon (f : Fields) (s : State) (hs : s.canon) : Out.canon (execFence f s) := by
  unfold execFence
  refine withMe_canon s _ fun c => ?_
  grind -ring -linarith -order [finish_canon, waitHere_canon, indigoClose_canon, State.release_canon, releasing_canon, Out.canon]

/-! ### Machine/Rows.lean -/

theorem State.writeSpill_canon (s : State) (c : Cohort) (off : Nat) (words : List Word) (hs : s.canon) :
    (s.writeSpill c off words).canon := by
  unfold State.writeSpill
  grind -ring -linarith -order [State.store_wf, State.dirty_canon, State.touch_canon]

theorem State.spillRow_canon (s : State) (cid i : Nat) (hs : s.canon) : (s.spillRow cid i).canon := by
  unfold State.spillRow
  grind -ring -linarith -order [State.writeSpill_canon, State.setCohort_mem]

@[simp] theorem State.takeRow_mem (s : State) (cid i now : Nat) : (s.takeRow cid i now).mem = s.mem := by
  unfold State.takeRow
  split <;> rfl

theorem State.obtainRow_canon (s : State) (cid i : Nat) (write : Bool) (pinned : List Nat) (hs : s.canon) :
    (s.obtainRow cid i write pinned).canon := by
  unfold State.obtainRow
  grind -ring -linarith -order [State.takeRow_mem, State.spillRow_canon]

theorem State.settleReg_canon (s : State) (cid i : Nat) (pinned : List Nat) (hs : s.canon) :
    (s.settleReg cid i pinned).canon := by
  unfold State.settleReg
  grind -ring -linarith -order [State.takeRow_mem, State.obtainRow_canon, State.setCohort_mem]

theorem State.settleAll_canon (s : State) (cid : Nat) (hs : s.canon) : (s.settleAll cid).canon := by
  unfold State.settleAll
  grind -ring -linarith -order [State.settleReg_canon, State.setCohort_mem, foldl_canon]

theorem State.settleOpnd_canon (s : State) (c : Cohort) (hs : s.canon) : (s.settleOpnd c).canon := by
  unfold State.settleOpnd
  grind -ring -linarith -order [State.settleReg_canon, foldl_canon]

theorem State.settleStack_canon (s : State) (cid before : Nat) (hs : s.canon) : (s.settleStack cid before).canon := by
  unfold State.settleStack
  grind -ring -linarith -order [State.writeSpill_canon, foldl_canon]

theorem State.collect_canon (s : State) (i : Instr) (c : Cohort) (hs : s.canon) : (s.collect i c).canon := by
  unfold State.collect
  grind -ring -linarith -order [State.obtainRow_canon, foldl_canon]

theorem State.settleRows_canon (s : State) (i : Instr) (c : Cohort) (hs : s.canon) : (s.settleRows i c).canon := by
  unfold State.settleRows
  grind -ring -linarith -order [State.settleStack_canon, State.settleReg_canon, foldl_canon]

/-! ### Machine/Sync.lean -/

theorem raiseAsync_canon (s : State) (c : Cohort) (l reason lgsz : Nat) (addr : DWord) (hs : s.canon) :
    Out.canon (raiseAsync s c l reason lgsz addr) :=
  raiseOut_canon _ _ _ _ _ hs

theorem raiseHw_canon (s : State) (c : Cohort) (reason key : Nat) (hs : s.canon) : Out.canon (raiseHw s c reason key) :=
  raiseOut_canon _ _ _ _ _ hs

/-- The continuation runs in the state after the object's leaf was touched. -/
theorem reachObject_canon (s0 : State) (c : Cohort) (x : Ctx) (use : ObjUse) (l : Nat) (va : DWord) (k : State → Xlat → Out)
    (hs0 : s0.canon) (hk : ∀ t r, t.canon → Out.canon (k t r)) :
    Out.canon (reachObject s0 c x use l va k) := by
  unfold reachObject
  grind -ring -linarith -order [State.noteXlat_mem, State.raiseElected_mem, raiseAsync_canon, raiseHw_canon, State.dropReq_mem,
    waitHere_canon, waitPage_canon, State.unpin_mem, State.touch_canon, State.noteLine_mem, State.l1Drop_mem, Out.canon]

@[simp] theorem State.dropObject_mem (s : State) (c : Cohort) (x : Ctx) (va : DWord) : (s.dropObject c x va).mem = s.mem := by
  unfold State.dropObject
  split <;> simp

theorem execArrive_canon (f : Fields) (s : State) (hs : s.canon) : Out.canon (execArrive f s) := by
  unfold execArrive
  refine withMe_canon s _ fun c => withCtx_canon s c _ fun x => ?_
  grind -ring -linarith -order [finish_canon, indigoClose_canon, outsideValue_canon, State.dropObject_mem, reachObject_canon,
    raiseAsync_canon, releasing_canon, State.storeNat_canon, State.dirty_canon, Out.canon]

theorem execBarinit_canon (f : Fields) (s : State) (hs : s.canon) : Out.canon (execBarinit f s) := by
  unfold execBarinit
  refine withMe_canon s _ fun c => withCtx_canon s c _ fun x => ?_
  grind -ring -linarith -order [finish_canon, reachObject_canon, raiseAsync_canon, indigoClose_canon, State.storeNat_canon,
    State.dirty_canon, Out.canon]

theorem execBwait_canon (f : Fields) (s : State) (hs : s.canon) : Out.canon (execBwait f s) := by
  unfold execBwait
  refine withMe_canon s _ fun c => withCtx_canon s c _ fun x => ?_
  grind -ring -linarith -order [finish_canon, indigoClose_canon, outsideValue_canon, State.dropObject_mem, reachObject_canon,
    waitHere_canon, Out.canon]

@[simp] theorem State.setPodBar_mem (s : State) (b : PodBar) : (s.setPodBar b).mem = s.mem := rfl

@[simp] theorem State.podDone_mem (s : State) (b : PodBar) (abort : Bool) : (s.podDone b abort).mem = s.mem := rfl

@[simp] theorem State.podCount_mem (s : State) (die : Nat) (b : PodBar) (src : BitVec 20) (phase : BitVec 16) :
    (s.podCount die b src phase).mem = s.mem := by
  unfold State.podCount
  dsimp only
  repeat' split
  all_goals simp [foldl_mem]

@[simp] theorem State.podTry_mem (s : State) (c : Cohort) : (s.podTry c).mem = s.mem := by
  unfold State.podTry
  dsimp only
  repeat' split
  all_goals simp

@[simp] theorem State.podTryAll_mem (s : State) : s.podTryAll.mem = s.mem := by
  simp [State.podTryAll, foldl_mem]

theorem execBar_canon (f : Fields) (s : State) (hs : s.canon) : Out.canon (execBar f s) := by
  unfold execBar
  refine withMe_canon s _ fun c => ?_
  grind -ring -linarith -order [raiseWord_canon, finish_canon, releasing_canon, State.setCohort_mem, State.podTry_mem,
    State.barCheck_mem, Out.canon]

theorem execBtake_canon (f : Fields) (s : State) (hs : s.canon) : Out.canon (execBtake f s) := by
  unfold execBtake
  refine withMe_canon s _ fun c => ?_
  grind -ring -linarith -order [finish_canon, raiseR_canon, State.setCore_mem, waitFor_canon, Out.canon]

theorem execBpass_canon (f : Fields) (s : State) (hs : s.canon) : Out.canon (execBpass f s) := by
  unfold execBpass
  refine withMe_canon s _ fun c => ?_
  grind -ring -linarith -order [finish_canon, State.passBaton_mem, raiseR_canon, Out.canon]

theorem grantLoop_canon (n : Nat) (s : State) (core : Nat) (hs : s.canon) : (grantLoop n s core).canon := by
  induction n generalizing s with
  | zero => exact hs
  | succ n ih =>
    unfold grantLoop
    grind -ring -linarith -order [State.setCore_mem, State.settleOpnd_canon, State.setCohort_mem]

theorem State.grantBanks_canon (s : State) (core : Nat) (hs : s.canon) : (s.grantBanks core).canon :=
  grantLoop_canon _ _ _ hs

theorem execAccalloc_canon (f : Fields) (s : State) (hs : s.canon) : Out.canon (execAccalloc f s) := by
  unfold execAccalloc
  refine withMe_canon s _ fun c => ?_
  grind -ring -linarith -order [finish_canon, raiseR_canon, State.setCohort_mem, State.setCore_mem, State.grantBanks_canon,
    Out.canon]

theorem execAccfree_canon (f : Fields) (s : State) (hs : s.canon) : Out.canon (execAccfree f s) := by
  unfold execAccfree
  refine withMe_canon s _ fun c => ?_
  grind -ring -linarith -order [finish_canon, raiseR_canon, State.grantBanks_canon, State.setCohort_mem, State.freeBanks_mem,
    Out.canon]

theorem cwaitOut_canon (f : Fields) (s : State) (split : Bool) (hs : s.canon) : Out.canon (cwaitOut f s split) := by
  unfold cwaitOut
  refine withMe_canon s _ fun c => withCtx_canon s c _ fun x => ?_
  extract_lets m va l want r s0
  have h0 : s0.canon := s.touch_canon _ _ _ _ hs
  clear_value s0 r
  refine Out.canon_ite (finish_canon s c hs) (Out.canon_ite (s.raiseElected_canon c l 3 0 3 va hs) ?_)
  cases r with
  | fault g n => exact s0.raiseElected_canon c l g n 3 va h0
  | poisoned a => exact raiseHw_canon s0 c 2 a h0
  | nonres mt => exact waitPage_canon s0 c _ h0
  | ok key mt leaf tile =>
    dsimp only
    generalize h : State.unpin _ c va.toNat = s1
    have h1 : s1.canon := by grind -ring -linarith -order [State.unpin_mem, State.l1Renew_mem, State.noteLine_mem]
    have out (v : DWord) : Out.canon (outsideValue s1 c v fun u d _ => finish u d) :=
      outsideValue_canon s1 c v _ h1 fun u d _ hu => finish_canon u d hu
    exact Out.canon_ite (indigoClose_canon s c _ hs fun d => waitHere_canon s d hs)
      (Out.canon_ite (splitOut_canon s1 c f _ _ _ h1) (Out.canon_ite (out 0)
        (Out.canon_ite (raiseHw_canon s0 c 5 key h0) (Out.canon_ite (waitHere_canon s1 c h1) (out _)))))

theorem execCwait_canon (f : Fields) (s : State) (hs : s.canon) : Out.canon (execCwait f s) :=
  cwaitOut_canon _ _ _ hs

theorem execCwaitSplit_canon (f : Fields) (s : State) (hs : s.canon) : Out.canon (execCwaitSplit f s) :=
  cwaitOut_canon _ _ _ hs

theorem execAwaitc_canon (f : Fields) (s : State) (hs : s.canon) : Out.canon (execAwaitc f s) :=
  withMe_canon s _ fun _ => Out.canon_ite (finish_canon _ _ hs) (waitHere_canon _ _ hs)

theorem rwrOut_canon (f : Fields) (s : State) (vec : Bool) (hs : s.canon) : Out.canon (rwrOut f s vec) := by
  unfold rwrOut
  refine withMe_canon s _ fun c => ?_
  grind -ring -linarith -order [raiseWord_canon, finish_canon, State.raiseElected_mem, waitHere_canon, releasing_canon, Out.canon]

theorem execRwr_canon (f : Fields) (s : State) (hs : s.canon) : Out.canon (execRwr f s) :=
  rwrOut_canon _ _ _ hs

theorem execRwrVec_canon (f : Fields) (s : State) (hs : s.canon) : Out.canon (execRwrVec f s) :=
  rwrOut_canon _ _ _ hs

theorem execTwin_canon (f : Fields) (s : State) (hs : s.canon) : Out.canon (execTwin f s) := by
  unfold execTwin
  refine withMe_canon s _ fun c => ?_
  grind -ring -linarith -order [finish_canon, State.raiseElected_mem, Out.canon]

theorem execTmark_canon (f : Fields) (s : State) (hs : s.canon) : Out.canon (execTmark f s) := by
  unfold execTmark
  refine withMe_canon s _ fun c => ?_
  grind -ring -linarith -order [finish_canon, raiseR_canon, waitHere_canon, releasing_canon, State.setCore_mem, Out.canon]

theorem execLrel_canon (f : Fields) (s : State) (hs : s.canon) : Out.canon (execLrel f s) := by
  unfold execLrel
  refine withMe_canon s _ fun c => ?_
  grind -ring -linarith -order [releasing_canon, finish_canon, Out.canon]

theorem execCfence_canon (f : Fields) (s : State) (hs : s.canon) : Out.canon (execCfence f s) := by
  unfold execCfence
  refine withMe_canon s _ fun c => ?_
  extract_lets m done
  have hd (t : State) (d : Cohort) (ht : t.canon) : Out.canon (done t d) :=
    outsideValue_canon t d _ _ ht fun u e v hu => finish_canon u _ hu
  clear_value done
  split
  · exact indigoClose_canon s c _ hs fun d => hd s d hs
  · split
    · exact waitHere_canon s c hs
    · refine releasing_canon s c _ hs fun t d ht => ?_
      repeat' split
      all_goals grind -ring -linarith -order [waitHere_canon, fillMore_mem, State.rollBack_canon, State.writeTable_canon,
        State.adopt_mem, State.dropReq_mem, State.askPage_mem, Each]

@[simp] theorem State.leaveCore_mem (s : State) (c : Cohort) : (s.leaveCore c).mem = s.mem := rfl

theorem execPark_canon (f : Fields) (s : State) (hs : s.canon) : Out.canon (execPark f s) := by
  unfold execPark
  refine withMe_canon s _ fun c => withCtx_canon s c _ fun x => ?_
  dsimp only
  repeat' split
  all_goals grind -ring -linarith -order [raiseR_canon, waitHere_canon, State.vaWrite_canon, waitPage_canon,
    State.raiseElected_mem, raiseHw_canon, State.recheckCore_mem, State.leaveCore_mem, State.release_canon, State.unpin_mem, Each,
    Out.canon]

/-! ### Machine/Matrix.lean -/

theorem State.putTileByte_canon (s : State) (core line0 ilv i : Nat) (b : Byte) (hs : s.canon) :
    (s.putTileByte core line0 ilv i b).canon :=
  State.store_wf _ _ _ hs

theorem execMma_canon (f : Fields) (s : State) (hs : s.canon) : Out.canon (execMma f s) := by
  unfold execMma
  refine withMe_canon s _ fun c => ?_
  extract_lets m l sel x st tr
  have no (r : Nat) : Out.canon (raiseR s c 10 r) := raiseR_canon s c 10 r hs
  refine Out.canon_ite (finish_canon s c hs) (Out.canon_ite (no 1) (Out.canon_ite (no 4) ?_))
  cases (s.banksOf c)[x]? with
  | none => exact no 5
  | some bank =>
    cases c.tileOf f.ob with
    | none => exact no 6
    | some d =>
      exact Out.canon_ite (no 7) (Out.canon_ite (no 8) (Out.canon_ite (s.raiseElected_canon c l 4 10 0 0 hs)
        (Out.canon_ite (waitHere_canon s c hs) (indigoClose_canon s c _ hs fun _ => finish_canon _ _ hs))))

theorem execMbatch_canon (f : Fields) (s : State) (hs : s.canon) : Out.canon (execMbatch f s) := by
  unfold execMbatch
  refine withMe_canon s _ fun c => ?_
  grind -ring -linarith -order [finish_canon, waitHere_canon, State.setCore_mem, Out.canon]

theorem execMwait_canon (f : Fields) (s : State) (hs : s.canon) : Out.canon (execMwait f s) := by
  unfold execMwait
  refine withMe_canon s _ fun c => ?_
  grind -ring -linarith -order [finish_canon, raiseR_canon, waitHere_canon, Out.canon]

theorem execMatrixStep_canon (core : Nat) (s : State) (hs : s.canon) : Out.canon (execMatrixStep core s) := by
  unfold execMatrixStep
  grind -ring -linarith -order [State.jobCause_mem, State.engineReplay_mem, State.replayed_mem, State.setCore_mem, Out.canon]

theorem execBankGrant_canon (core : Nat) (s : State) (hs : s.canon) : Out.canon (execBankGrant core s) :=
  State.grantBanks_canon _ _ hs

theorem execBankReturn_canon (core bank : Nat) (s : State) (hs : s.canon) : Out.canon (execBankReturn core bank s) := by
  unfold execBankReturn
  grind -ring -linarith -order [State.grantBanks_canon, State.setCore_mem, Out.canon]

/-! ### Machine/Engine.lean -/

/-- The continuation runs in the state after the record was read. -/
theorem readRecord_canon (s : State) (c : Cohort) (x : Ctx) (l : Nat) (va : DWord) (k : State → List Byte → Out) (hs : s.canon)
    (hk : ∀ t bs, t.canon → Out.canon (k t bs)) :
    Out.canon (readRecord s c x l va k) := by
  unfold readRecord
  grind -ring -linarith -order [waitHere_canon, State.vaTouch_canon, State.vaRead_canon, waitPage_canon, raiseAsync_canon,
    raiseHw_canon, State.unpinRun_mem, Each, Out.canon]

/-- The continuation runs in the state after the counter's leaf was touched. -/
theorem reachCounter_canon (s0 : State) (c : Cohort) (x : Ctx) (l : Nat) (va : DWord) (k : State → Nat × Option Nat → Out)
    (hs0 : s0.canon) (hk : ∀ t key, t.canon → Out.canon (k t key)) :
    Out.canon (reachCounter s0 c x l va k) := by
  unfold reachCounter
  grind -ring -linarith -order [State.noteXlat_mem, raiseAsync_canon, raiseHw_canon, waitPage_canon, State.unpin_mem,
    State.touch_canon, Out.canon]

theorem acceptJob_canon (s : State) (c : Cohort) (j : Job) (lines : List Nat) (writes : Bool) (clear : List Nat) (hs : s.canon) :
    Out.canon (acceptJob s c j lines writes clear) := by
  unfold acceptJob
  grind -ring -linarith -order [waitHere_canon, State.setCore_mem, finish_canon, Out.canon]

theorem raiseRecord_canon (s : State) (c : Cohort) (opc : BitVec 8) (f : Fields) (l word : Nat) (va : DWord) (hs : s.canon) :
    Out.canon (raiseRecord s c opc f l word va) :=
  raiseOut_canon _ _ _ _ _ hs

theorem tensorCommand_canon (kind : JobKind) (opc : BitVec 8) (f : Fields) (s : State) (hs : s.canon) :
    Out.canon (tensorCommand kind opc f s) := by
  unfold tensorCommand
  refine withMe_canon s _ fun c => withCtx_canon s c _ fun x => ?_
  extract_lets m l ra ca rows ia
  refine Out.canon_ite (finish_canon s c hs) ?_
  cases badAddress ([(ra, 6), (ca, 3)] ++ if rows then [(ia, 2)] else []) with
  | some q => exact s.raiseElected_canon c l _ _ _ _ hs
  | none =>
    cases c.tileOf f.od with
    | none => exact raiseR_canon s c 11 3 hs
    | some d =>
      refine Out.canon_ite (waitHere_canon s c hs)
        (indigoClose_canon s c _ hs fun e => readRecord_canon s e x l ra _ hs fun t bs ht => ?_)
      cases recReject rows bs with
      | some k => exact raiseRecord_canon t e opc f l k ra ht
      | none =>
        exact Out.canon_ite (raiseR_canon t e 11 3 ht) (Out.canon_ite (raiseR_canon t e 11 4 ht)
          (reachCounter_canon t e x l ca _ ht fun u key hu => acceptJob_canon u e _ _ _ _ hu))

theorem execCopy_canon (f : Fields) (s : State) (hs : s.canon) : Out.canon (execCopy f s) :=
  tensorCommand_canon _ _ _ _ hs

theorem execGather_canon (f : Fields) (s : State) (hs : s.canon) : Out.canon (execGather f s) :=
  tensorCommand_canon _ _ _ _ hs

theorem execScatter_canon (f : Fields) (s : State) (hs : s.canon) : Out.canon (execScatter f s) :=
  tensorCommand_canon _ _ _ _ hs

theorem epiCommand_canon (f : Fields) (s : State) (toRec : Bool) (hs : s.canon) : Out.canon (epiCommand f s toRec) := by
  unfold epiCommand
  refine withMe_canon s _ fun c => withCtx_canon s c _ fun x => ?_
  extract_lets m l sel ctl hasBias bline ca ra dest bias region
  have no (r : Nat) : Out.canon (raiseR s c 10 r) := raiseR_canon s c 10 r hs
  refine Out.canon_ite (finish_canon s c hs) (Out.canon_ite (no 4) ?_)
  cases (s.banksOf c)[bitsOf ctl 4 0]? with
  | none => exact no 5
  | some bank =>
    refine Out.canon_ite (no 6) (Out.canon_ite (no 7) (Out.canon_ite (no 8)
      (Out.canon_ite (s.raiseElected_canon c l 4 10 0 0 hs) ?_)))
    cases badAddress ((if toRec then [(ra, 6)] else []) ++ [(ca, 3)]) with
    | some q => exact s.raiseElected_canon c l _ _ _ _ hs
    | none =>
      refine Out.canon_ite (waitHere_canon s c hs) (indigoClose_canon s c _ hs fun d => Out.canon_ite ?_ ?_)
      · refine readRecord_canon s d x l ra _ hs fun t bs ht => ?_
        cases recReject false bs with
        | some k => exact raiseRecord_canon t d _ f l k ra ht
        | none =>
          exact Out.canon_ite (raiseRecord_canon t d _ f l 1 ra ht)
            (reachCounter_canon t d x l ca _ ht fun u key hu => acceptJob_canon u d _ _ _ _ hu)
      · exact reachCounter_canon s d x l ca _ hs fun u key hu => acceptJob_canon u d _ _ _ _ hu

theorem execEpi_canon (f : Fields) (s : State) (hs : s.canon) : Out.canon (execEpi f s) :=
  epiCommand_canon _ _ _ hs

theorem execEpiRec_canon (f : Fields) (s : State) (hs : s.canon) : Out.canon (execEpiRec f s) :=
  epiCommand_canon _ _ _ hs

theorem execRcopy_canon (f : Fields) (s : State) (hs : s.canon) : Out.canon (execRcopy f s) := by
  unfold execRcopy
  refine withMe_canon s _ fun c => withCtx_canon s c _ fun x => ?_
  grind -ring -linarith -order [finish_canon, raiseR_canon, State.raiseElected_mem, waitHere_canon, reachCounter_canon,
    acceptJob_canon, Out.canon]

theorem execColl_canon (f : Fields) (s : State) (hs : s.canon) : Out.canon (execColl f s) := by
  unfold execColl
  refine withMe_canon s _ fun c => withCtx_canon s c _ fun x => ?_
  grind -ring -linarith -order [finish_canon, raiseR_canon, waitHere_canon, indigoClose_canon, reachObject_canon, Out.canon]

/-! ### Machine/Moves.lean -/

theorem execMov_canon (f : Fields) (s : State) (hs : s.canon) : Out.canon (execMov f s) := by
  unfold execMov
  refine withMe_canon s _ fun c => ?_
  grind -ring -linarith -order [finish_canon, Out.canon]

theorem execSel_canon (f : Fields) (s : State) (hs : s.canon) : Out.canon (execSel f s) :=
  withMe_canon s _ fun _ => finish_canon _ _ hs

theorem execPlop_canon (f : Fields) (s : State) (hs : s.canon) : Out.canon (execPlop f s) :=
  withMe_canon s _ fun _ => finish_canon _ _ hs

theorem execCvt_canon (f : Fields) (s : State) (hs : s.canon) : Out.canon (execCvt f s) :=
  withMe_canon s _ fun _ => roundedOut_canon _ _ _ _ _ hs

theorem execCvtpk_canon (f : Fields) (s : State) (hs : s.canon) : Out.canon (execCvtpk f s) :=
  withMe_canon s _ fun _ => roundedOut_canon _ _ _ _ _ hs

/-! ### Machine/Jobs.lean -/

@[simp] theorem State.jobFail_mem (s : State) (j : Job) (f : VaFail) : (s.jobFail j f).mem = s.mem := by
  unfold State.jobFail
  repeat' split
  all_goals simp

theorem State.elemTouch_canon (s : State) (x : Ctx) (j : Job) (acc : Acc) (va : Nat) (hs : s.canon) :
    (s.elemTouch x j acc va).canon :=
  State.touch_canon _ _ _ _ _ hs

theorem State.engineRead_canon (s : State) (x : Ctx) (j : Job) (t : TRecord) (va n : Nat) (hs : s.canon) :
    Sum.elim (Each State.canon (fun r => r.1.canon)) (fun r => r.2.canon) (s.engineRead x j t va n) := by
  unfold State.engineRead
  grind -ring -linarith -order [State.elemTouch_canon, State.jobFail_mem, State.setJob_mem, State.noteLine_mem, Each]

theorem State.readElem_canon (s : State) (x : Ctx) (j : Job) (t : TRecord) (xs : List Int) (hs : s.canon) :
    Sum.elim (Each State.canon (fun r => r.1.canon)) (fun r => r.2.canon) (s.readElem x j t xs) := by
  unfold State.readElem
  grind -ring -linarith -order [State.engineRead_canon, Each]

theorem State.writeElem_canon (s : State) (x : Ctx) (j : Job) (t : TRecord) (xs : List Int) (v : Nat) (hs : s.canon) :
    Each State.canon (fun r => r.1.canon) (s.writeElem x j t xs v) := by
  unfold State.writeElem
  grind -ring -linarith -order [State.elemTouch_canon, State.jobFail_mem, State.dirty_canon, State.noteLine_mem, State.setJob_mem,
    State.hostWrite_mem, State.storeNat_canon, Each]

theorem State.putTileElem_canon (s : State) (core line0 ilv bit bits v : Nat) (hs : s.canon) :
    (s.putTileElem core line0 ilv bit bits v).canon := by
  unfold State.putTileElem
  grind -ring -linarith -order [State.putTileByte_canon, foldl_canon]

theorem State.rowIndex_canon (s : State) (x : Ctx) (j : Job) (t : TRecord) (q : Nat) (hs : s.canon) :
    Each State.canon (fun r => r.1.canon) (s.rowIndex x j t q) := by
  unfold State.rowIndex
  grind -ring -linarith -order [State.setJob_mem, State.engineRead_canon, Each]

@[simp] theorem State.landElem_mem (s : State) (x : Ctx) (j : Job) (t : TRecord) (n : Nat) :
    (s.landElem x j t n).mem = s.mem := by
  unfold State.landElem
  repeat' split
  all_goals simp

theorem twinElem_canon (x : Ctx) (t : TRecord) (j i : Job) (v : Nat) (s : State) (hs : s.canon) :
    Each State.canon (fun r => r.2.1.canon) (twinElem x t j i v s) := by
  unfold twinElem
  grind -ring -linarith -order [State.rowIndex_canon, State.readElem_canon, Each]

theorem State.landBits_canon (s : State) (t : TRecord) (j : Job) (line v : Nat) (hs : s.canon) :
    (s.landBits t j line v).canon := by
  unfold State.landBits
  grind -ring -linarith -order [State.store_wf, State.putTileElem_canon]

theorem loadElems_canon (x : Ctx) (t : TRecord) (line n : Nat) (s : State) (j : Job) (tw : Option Job) (hs : s.canon) :
    Each State.canon (fun r => r.1.canon) (loadElems x t line n s j tw) := by
  induction n generalizing s j tw with
  | zero => exact hs
  | succ n ih =>
    unfold loadElems
    cases tw <;>
      grind -ring -linarith -order [State.setJob_mem, State.rowIndex_canon, State.readElem_canon, State.landBits_canon,
        twinElem_canon, Each]

@[simp] theorem State.freeBoard_mem (s : State) (core id : Nat) : (s.freeBoard core id).mem = s.mem := rfl

@[simp] theorem State.jobDone_mem (s : State) (j : Job) : (s.jobDone j).mem = s.mem := rfl

theorem State.loadLine_canon (s : State) (x : Ctx) (j : Job) (t : TRecord) (hs : s.canon) : (s.loadLine x j t).canon := by
  unfold State.loadLine
  grind -ring -linarith -order [loadElems_canon, State.setCore_mem, State.jobDone_mem, State.setJob_mem, Each]

theorem storeElems_canon (x : Ctx) (t : TRecord) (line n : Nat) (s : State) (j : Job) (hs : s.canon) :
    Each State.canon (fun r => r.1.canon) (storeElems x t line n s j) := by
  induction n generalizing s j with
  | zero => exact hs
  | succ n ih =>
    unfold storeElems
    grind -ring -linarith -order [State.rowIndex_canon, State.writeElem_canon, State.landElem_mem, Each]

theorem State.storeLine_canon (s : State) (x : Ctx) (j : Job) (t : TRecord) (hs : s.canon) : (s.storeLine x j t).canon := by
  unfold State.storeLine
  grind -ring -linarith -order [State.jobFail_mem, storeElems_canon, State.jobDone_mem, State.setJob_mem, Each]

theorem State.epiTileRows_canon (s : State) (j : Job) (e : EpiOps) (bank : Bank) (bias : Option (List Word)) (hs : s.canon) :
    (s.epiTileRows j e bank bias).1.canon := by
  unfold State.epiTileRows
  extract_lets w k
  refine List.foldlRecOn (motive := fun p : State × Job => p.1.canon) _ _ hs fun p hp _ _ => ?_
  grind -ring -linarith -order [State.putTileByte_canon, State.store_wf, foldl_canon]

theorem epiRecElems_canon (x : Ctx) (t : TRecord) (e : EpiOps) (row : Nat × List Nat × Bool) (n : Nat) (s : State) (j : Job)
    (hs : s.canon) :
    Each State.canon (fun r => r.1.canon) (epiRecElems x t e row n s j) := by
  induction n generalizing s j with
  | zero => exact hs
  | succ n ih =>
    unfold epiRecElems
    grind -ring -linarith -order [State.writeElem_canon, State.landElem_mem, Each]

@[simp] theorem State.epiEnd_mem (s : State) (j : Job) (e : EpiOps) : (s.epiEnd j e).mem = s.mem := by
  unfold State.epiEnd
  split <;> rfl

theorem State.epiLine_canon (s : State) (x : Ctx) (j : Job) (e : EpiOps) (hs : s.canon) : (s.epiLine x j e).canon := by
  unfold State.epiLine
  grind -ring -linarith -order [State.jobFail_mem, epiRecElems_canon, State.epiEnd_mem, State.setJob_mem, State.epiTileRows_canon,
    State.setCore_mem, Each]

theorem State.landOne_canon (s : State) (j : Job) (i : Nat) (data : List Byte) (hs : s.canon) : (s.landOne j i data).canon := by
  unfold State.landOne
  grind -ring -linarith -order [State.store_wf, State.setCore_mem, State.jobDone_mem, State.setJob_mem]

theorem State.landLine_canon (s : State) (j : Job) (i : Nat) (data : List Byte) (hs : s.canon) : (s.landLine j i data).canon := by
  unfold State.landLine
  grind -ring -linarith -order [State.landOne_canon]

theorem State.rcopyLine_canon (s : State) (j : Job) (hs : s.canon) : (s.rcopyLine j).canon := by
  unfold State.rcopyLine
  grind -ring -linarith -order [State.jobCause_mem, State.jobFail_mem, State.landLine_canon, State.takeTxid_mem, State.send_mem,
    foldl_canon]

theorem State.copyListStep_canon (s : State) (x : Ctx) (j : Job) (hs : s.canon) : (s.copyListStep x j).canon := by
  unfold State.copyListStep
  grind -ring -linarith -order [State.vaRead_canon, State.jobFail_mem, State.vaWrite_canon, State.setJob_mem, State.jobDone_mem,
    Each]

@[simp] theorem State.walkAhead_mem (s : State) (x : Ctx) (id : Nat) : (s.walkAhead x id).mem = s.mem := by
  unfold State.walkAhead
  grind -ring -linarith -order [State.keepTranslation_mem, foldl_mem]

theorem State.lineFails_mem (s : State) (j : Job) : ∀ t, s.lineFails j = some t → t.mem = s.mem := by
  unfold State.lineFails
  repeat' split
  all_goals simp

@[simp] theorem State.lineReplayed_mem (s : State) (j : Job) : (s.lineReplayed j).mem = s.mem := by
  unfold State.lineReplayed
  repeat' split
  all_goals simp

theorem execLineLands_canon (job : Nat) (s : State) (hs : s.canon) : Out.canon (execLineLands job s) := by
  unfold execLineLands
  grind -ring -linarith -order [State.lineFails_mem, State.lineReplayed_mem, State.rcopyLine_canon, State.copyListStep_canon,
    State.walkAhead_mem, State.loadLine_canon, State.storeLine_canon, State.epiLine_canon, Out.canon]

theorem execJobResume_canon (job : Nat) (s : State) (hs : s.canon) : Out.canon (execJobResume job s) := by
  unfold execJobResume
  grind -ring -linarith -order [State.setJob_mem, State.dropReq_mem, State.jobCause_mem, Out.canon]

@[simp] theorem State.pollCounters_mem (s : State) : s.pollCounters.mem = s.mem := rfl

theorem State.countAt_canon (s : State) (key : Nat) (leaf : Option Nat) (abort : Bool) (hs : s.canon) :
    (s.countAt key leaf abort).canon := by
  unfold State.countAt
  grind -ring -linarith -order [State.setLeaf_canon, State.pollCounters_mem, State.storeNat_canon, State.noteLine_mem]

theorem State.endPlace_canon (s : State) (j : Job) (held : Bool) (va : DWord) (key : Nat) (leaf : Option Nat) (cause : Nat)
    (hs : s.canon) :
    Each State.canon (fun r => r.1.canon) (s.endPlace j held va key leaf cause) := by
  unfold State.endPlace
  grind -ring -linarith -order [State.touch_canon, State.jobCause_mem, State.dropReq_mem, State.askPage_mem, Each]

theorem State.counterPlace_canon (s : State) (j : Job) (hs : s.canon) :
    Each State.canon (fun r => r.1.canon) (s.counterPlace j) :=
  State.endPlace_canon _ _ _ _ _ _ _ hs

theorem State.abortJob_canon (s : State) (j : Job) (hs : s.canon) : (s.abortJob j).canon := by
  unfold State.abortJob
  grind -ring -linarith -order [State.counterPlace_canon, State.countAt_canon, Each]

@[simp] theorem State.giveSat_mem (s : State) (j : Job) : (s.giveSat j).mem = s.mem := by
  unfold State.giveSat
  split <;> rfl

theorem execJobComplete_canon (job : Nat) (s : State) (hs : s.canon) : Out.canon (execJobComplete job s) := by
  unfold execJobComplete
  grind -ring -linarith -order [State.counterPlace_canon, State.jobFail_mem, State.giveSat_mem, State.countAt_canon, Each,
    Out.canon]

/-! ### Machine/Beats.lean -/

@[simp] theorem XPort.drop_mem (p : XPort) (s : State) (r : Xlat) : (XPort.drop p s r).mem = s.mem := by
  unfold XPort.drop
  split <;> simp

theorem writePiece_canon (p : XPort) (x : Ctx) (core : Nat) (owner : Nat × Nat) (b : Beat) (s : State) (va : DWord) (n v : Nat)
    (hs : s.canon) :
    (writePiece p x core owner b s va n v).canon := by
  unfold writePiece
  grind -ring -linarith -order [State.storeHome_canon, XPort.drop_mem]

theorem writeBeat_canon (p : XPort) (x : Ctx) (core : Nat) (owner : Nat × Nat) (b : Beat) (s : State) (hs : s.canon) :
    (writeBeat p x core owner b s).canon := by
  unfold writeBeat
  grind -ring -linarith -order [writePiece_canon, foldl_canon]

theorem nibbleBeat_canon (p : XPort) (x : Ctx) (core : Nat) (owner : Nat × Nat) (b : Beat) (s : State) (hs : s.canon) :
    (nibbleBeat p x core owner b s).canon := by
  unfold nibbleBeat
  grind -ring -linarith -order [writePiece_canon, foldl_canon]

@[simp] theorem beatRead_mem (cid : Nat) (b : Beat) (old : Word) (bad : Bool) (t : State) :
    (beatRead cid b old bad t).mem = t.mem := by
  unfold beatRead
  repeat' split
  all_goals simp

theorem atomBeat_canon (p : XPort) (x : Ctx) (core : Nat) (owner : Nat × Nat) (b : Beat) (s : State) (hs : s.canon) :
    (atomBeat p x core owner b s).canon := by
  unfold atomBeat
  grind -ring -linarith -order [State.atomHome_canon, XPort.drop_mem, beatRead_mem]

theorem performBeat_canon (p : XPort) (x : Ctx) (core : Nat) (owner : Nat × Nat) (s : State) (b : Beat) (hs : s.canon) :
    (performBeat p x core owner s b).canon := by
  unfold performBeat
  grind -ring -linarith -order [writeBeat_canon, atomBeat_canon, nibbleBeat_canon]

theorem performBeats_canon (x : Ctx) (core : Nat) (owner : Nat × Nat) (read : Option Word) (bs : List Beat) (s : State)
    (hs : s.canon) :
    (performBeats x core owner read bs s).2.2.2.canon := by
  induction bs generalizing s read with
  | nil => exact hs
  | cons b bs ih =>
    unfold performBeats
    grind -ring -linarith -order [beatRead_mem, State.atomWrite_canon, XPort.drop_mem, performBeat_canon]

theorem State.leaveEnded_canon (s : State) (cid : Nat) (hs : s.canon) : (s.leaveEnded cid).canon := by
  unfold State.leaveEnded
  grind -ring -linarith -order [State.podTryAll_mem, State.grantBanks_canon, State.retire_mem]

theorem State.performWindow_canon (s : State) (x : Ctx) (c : Cohort) (w : StoreWindow) (ws : List StoreWindow) (hs : s.canon) :
    (s.performWindow x c w ws).canon := by
  unfold State.performWindow
  grind -ring -linarith -order [performBeats_canon, State.setCohort_mem, State.leaveEnded_canon]

theorem State.flushWindow_canon (x : Ctx) (cid n : Nat) (s : State) (hs : s.canon) : (State.flushWindow x cid n s).canon := by
  induction n generalizing s with
  | zero => exact hs
  | succ n ih =>
    unfold State.flushWindow
    grind -ring -linarith -order [State.performWindow_canon]

/-! ### Machine/Reward.lean -/

theorem State.storeFail_canon {α : Type} (p : α → Prop) (s : State) (u : JoinUnit) (f : VaFail) (hs : s.canon) :
    StoreOut.canon p (s.storeFail u f) := by
  unfold State.storeFail
  grind -ring -linarith -order [State.askPage_mem, StoreOut.canon]

@[simp] theorem State.dropRefused_mem (s : State) (u : JoinUnit) : (s.dropRefused u).mem = s.mem := rfl

theorem State.unitWrite_canon (s : State) (u : JoinUnit) (va : Nat) (bs : List Byte) (hs : s.canon) :
    StoreOut.canon State.canon (s.unitWrite u va bs) := by
  unfold State.unitWrite
  grind -ring -linarith -order [State.vaWrite_canon, State.storeFail_canon, Each, StoreOut.canon]

theorem State.appendLane_canon (s : State) (d : Nat) (traj : DWord) (words : List Word) (hs : s.canon) :
    StoreOut.canon (fun r => r.1.canon) (s.appendLane d traj words) := by
  unfold State.appendLane
  grind -ring -linarith -order [State.setJoin_mem, State.unitWrite_canon, StoreOut.canon]

theorem appendLanes_canon (d : Nat) (traj : Nat → DWord) (words : Nat → List Word) (ls : List Nat) (s : State) (hs : s.canon) :
    StoreOut.canon (fun r => r.1.canon) (appendLanes d traj words ls s) := by
  induction ls generalizing s with
  | nil => exact hs
  | cons l ls ih =>
    unfold appendLanes
    grind -ring -linarith -order [State.appendLane_canon, StoreOut.canon]

@[simp] theorem State.closeLane_mem (s : State) (d : Nat) (traj : DWord) (boot version : Word) (terminal : Bool) :
    (s.closeLane d traj boot version terminal).1.mem = s.mem := by
  unfold State.closeLane
  dsimp only
  repeat' split
  all_goals simp

@[simp] theorem closeLanes_mem (d : Nat) (lane : Nat → DWord × Word × Word × Bool) (ls : List Nat) (s : State) :
    (closeLanes d lane ls s).1.mem = s.mem := by
  induction ls generalizing s with
  | nil => rfl
  | cons l ls ih =>
    unfold closeLanes
    grind -ring -linarith -order [State.closeLane_mem]

theorem homeChecked_canon (s : State) (c : Cohort) (m : Mask) (traj : Nat → DWord) (k : Unit → Out) (hs : s.canon)
    (hk : ∀ u, Out.canon (k u)) :
    Out.canon (homeChecked s c m traj k) := by
  unfold homeChecked
  grind -ring -linarith -order [raiseR_canon, Out.canon]

theorem execEpapp_canon (f : Fields) (s : State) (hs : s.canon) : Out.canon (execEpapp f s) := by
  unfold execEpapp
  refine withMe_canon s _ fun c => ?_
  grind -ring -linarith -order [finish_canon, homeChecked_canon, outsideValue_canon, appendLanes_canon, waitHere_canon,
    State.dropRefused_mem, Out.canon, StoreOut.canon]

theorem execEpend_canon (f : Fields) (s : State) (hs : s.canon) : Out.canon (execEpend f s) := by
  unfold execEpend
  refine withMe_canon s _ fun c => ?_
  grind -ring -linarith -order [finish_canon, homeChecked_canon, outsideValue_canon, releasing_canon, closeLanes_mem, Out.canon]

@[simp] theorem State.rewardArrive_mem (s : State) (d : Nat) (fromPort : Bool) (m : RewardMsg) :
    (s.rewardArrive d fromPort m).mem = s.mem := by
  unfold State.rewardArrive
  dsimp only
  repeat' split
  all_goals simp

@[simp] theorem State.sendReward_mem (s : State) (d : Nat) (m : RewardMsg) : (s.sendReward d m).mem = s.mem := by
  unfold State.sendReward
  split <;> simp

theorem execRwdsend_canon (f : Fields) (s : State) (hs : s.canon) : Out.canon (execRwdsend f s) := by
  unfold execRwdsend
  refine withMe_canon s _ fun c => ?_
  grind -ring -linarith -order [finish_canon, raiseR_canon, State.sendReward_mem, foldl_canon, Out.canon]

theorem execRewardMessage_canon (die : Nat) (fromPort : Bool) (m : RewardMsg) (s : State) (hs : s.canon) :
    Out.canon (execRewardMessage die fromPort m s) := by
  unfold execRewardMessage
  grind -ring -linarith -order [State.rewardArrive_mem, Out.canon]

theorem execRewardAcknowledgement_canon (txid : TxId) (s : State) (hs : s.canon) :
    Out.canon (execRewardAcknowledgement txid s) := hs

theorem execRewardUnacknowledged_canon (txid : TxId) (s : State) (hs : s.canon) :
    Out.canon (execRewardUnacknowledged txid s) := by
  unfold execRewardUnacknowledged
  grind -ring -linarith -order [State.setJoin_mem, Out.canon]

theorem execRewardHoldTimeout_canon (die : Nat) (s : State) (hs : s.canon) : Out.canon (execRewardHoldTimeout die s) := hs

theorem execOrphanTimeout_canon (die : Nat) (s : State) (hs : s.canon) : Out.canon (execOrphanTimeout die s) := by
  unfold execOrphanTimeout
  grind -ring -linarith -order [State.setJoin_mem, Out.canon]

theorem execJoinTimeout_canon (die entry : Nat) (s : State) (hs : s.canon) : Out.canon (execJoinTimeout die entry s) := by
  unfold execJoinTimeout
  grind -ring -linarith -order [State.setJoin_mem, Out.canon]

theorem writeScan_canon (u : JoinUnit) (e : JoinEntry) (ps : List (Nat × Word × Word × Word)) (s : State) (hs : s.canon) :
    StoreOut.canon State.canon (writeScan u e ps s) := by
  induction ps generalizing s with
  | nil => exact hs
  | cons p ps ih =>
    unfold writeScan
    grind -ring -linarith -order [State.unitWrite_canon, StoreOut.canon]

theorem deliverLoop_canon (n : Nat) (s : State) (d : Nat) (hs : s.canon) : (deliverLoop n s d).canon := by
  induction n generalizing s with
  | zero => exact hs
  | succ n ih =>
    unfold deliverLoop
    dsimp only
    repeat' split
    all_goals grind -ring -linarith -order [State.setJoin_mem, State.fwdGive_mem, State.settleOpnd_canon, State.setCohort_mem]

theorem State.deliver_canon (s : State) (d : Nat) (hs : s.canon) : (s.deliver d).canon :=
  deliverLoop_canon _ _ _ hs

theorem execEpisodeRelease_canon (die : Nat) (s : State) (hs : s.canon) : Out.canon (execEpisodeRelease die s) := by
  have fails (f : VaFail) : StoreOut.canon State.canon (s.storeFail (s.join die) f) := State.storeFail_canon _ s _ f hs
  unfold execEpisodeRelease
  extract_lets u
  repeat' split
  all_goals grind -ring -linarith -order [State.setJoin_mem, State.stopContext_mem, State.dropRefused_mem, writeScan_canon,
    Out.canon, StoreOut.canon]

theorem lqtakeOut_canon (f : Fields) (s : State) (k : Cohort → Mask → Out) (hs : s.canon) (hk : ∀ d m, Out.canon (k d m)) :
    Out.canon (lqtakeOut f s k) := by
  unfold lqtakeOut
  refine withMe_canon s _ fun c => ?_
  grind -ring -linarith -order [finish_canon, raiseR_canon, Out.canon]

theorem execLqtake_canon (f : Fields) (s : State) (hs : s.canon) : Out.canon (execLqtake f s) := by
  unfold execLqtake
  grind -ring -linarith -order [lqtakeOut_canon, outsideValue_canon, finish_canon, State.deliver_canon, State.setCohort_mem,
    Out.canon]

theorem execLqtakeSplit.onNextState_canon (o : Out) (k : State → State) (ho : Out.canon o) (hk : ∀ t, t.canon → (k t).canon) :
    Out.canon (execLqtakeSplit.onNextState o k) := by
  unfold execLqtakeSplit.onNextState
  grind -ring -linarith -order [Out.canon]

theorem execLqtakeSplit_canon (f : Fields) (s : State) (hs : s.canon) : Out.canon (execLqtakeSplit f s) := by
  unfold execLqtakeSplit
  grind -ring -linarith -order [lqtakeOut_canon, execLqtakeSplit.onNextState_canon, splitOut_canon, State.deliver_canon,
    Out.canon]

theorem execLqtakeTry_canon (f : Fields) (s : State) (hs : s.canon) : Out.canon (execLqtakeTry f s) := by
  unfold execLqtakeTry
  grind -ring -linarith -order [lqtakeOut_canon, finish_canon, outsideValue_canon, State.setJoin_mem, Out.canon]

theorem execLqdone_canon (f : Fields) (s : State) (hs : s.canon) : Out.canon (execLqdone f s) := by
  unfold execLqdone
  refine withMe_canon s _ fun c => ?_
  grind -ring -linarith -order [finish_canon, raiseR_canon, releasing_canon, outsideValue_canon, State.setJoin_mem, Out.canon]

/-! ### Machine/Pages.lean -/

@[simp] theorem State.fwNote_mem (s : State) (e : FwEffect) : (s.fwNote e).mem = s.mem := rfl

theorem State.copyBytes_canon (s : State) (src dst n : Nat) (hs : s.canon) : (s.copyBytes src dst n).canon :=
  State.writeMem_canon _ _ _ hs

theorem State.copyBack_canon (s : State) (e : TlbEntry) (host : Nat) (hs : s.canon) : (s.copyBack e host).canon := by
  unfold State.copyBack
  grind -ring -linarith -order [State.writeMem_canon, State.copyBytes_canon]

theorem State.evictRange_canon (s : State) (x : Ctx) (va len base : Nat) (hs : s.canon) : (s.evictRange x va len base).canon := by
  unfold State.evictRange
  grind -ring -linarith -order [State.fwNote_mem, State.writeMem_canon, State.invalidate_canon, State.copyBack_canon,
    State.setCtx_mem, foldl_canon, foldl_mem]

theorem takeFrame_canon (n : Nat) (s : State) (k : BitVec 16) (size : Nat) (hs : s.canon) :
    Sum.elim Residency.canon (fun r => r.2.canon) (takeFrame n s k size) := by
  induction n generalizing s with
  | zero => exact hs
  | succ n ih =>
    unfold takeFrame
    grind -ring -linarith -order [State.evictRange_canon, Residency.canon]

theorem State.makeResident_canon (s : State) (k : BitVec 16) (va : Nat) (hs : s.canon) : (s.makeResident k va).canon := by
  unfold State.makeResident
  dsimp only
  repeat' split
  all_goals grind -ring -linarith -order [takeFrame_canon, State.copyBytes_canon, State.writeMem_canon, State.fwNote_mem,
    State.setCtx_mem, Residency.canon]

@[simp] theorem State.fwCommit_mem (s : State) (d : Nat) (hit : FwEvent → Bool) : (s.fwCommit d hit).mem = s.mem := by
  unfold State.fwCommit
  dsimp only
  repeat' split
  all_goals simp

@[simp] theorem State.fwRequeue_mem (s : State) (d : Nat) (hit : FwEvent → Bool) : (s.fwRequeue d hit).mem = s.mem := by
  unfold State.fwRequeue
  dsimp only
  repeat' split
  all_goals simp

@[simp] theorem State.settlePages_mem (s : State) : s.settlePages.mem = s.mem := by
  unfold State.settlePages
  grind -ring -linarith -order [foldl_mem]

theorem execPageMakeResident_canon (ctx : BitVec 16) (va : Nat) (s : State) (hs : s.canon) :
    Out.canon (execPageMakeResident ctx va s) := by
  unfold execPageMakeResident
  grind -ring -linarith -order [State.fwCommit_mem, State.makeResident_canon, State.fwRequeue_mem, State.settlePages_mem,
    State.setCtx_mem, Out.canon, Residency.canon]

theorem execPagePinExpiry_canon (ctx : BitVec 16) (va : Nat) (s : State) (hs : s.canon) :
    Out.canon (execPagePinExpiry ctx va s) := by
  unfold execPagePinExpiry
  grind -ring -linarith -order [State.setCtx_mem, Out.canon]

@[simp] theorem State.feStop_mem (s : State) (k : BitVec 16) (a : Nat) : (s.feStop k a).mem = s.mem :=
  State.stopContext_mem _ _ _ _ _ _

theorem State.stoppedBy_mem (s t u : State) (h : s.stoppedBy t = some u) : u.mem = s.mem := by
  unfold State.stoppedBy at h
  grind -ring -linarith -order

@[simp] theorem State.stoppedBy_getD_mem (s t : State) : ((s.stoppedBy t).getD s).mem = s.mem := by
  cases h : s.stoppedBy t with
  | none => rfl
  | some u => exact s.stoppedBy_mem t u h

theorem feResident_canon (k : BitVec 16) (x : Ctx) (acc : Acc) (ps : List (Nat × Nat)) (s : State) (hs : s.canon) :
    Each FeFail.canon State.canon (feResident k x acc ps s) := by
  induction ps generalizing s with
  | nil => exact hs
  | cons p ps ih =>
    unfold feResident
    grind -ring -linarith -order [State.makeResident_canon, Each, FeFail.canon, Residency.canon]

theorem State.feRead_canon (s : State) (k : BitVec 16) (va n : Nat) (hs : s.canon) :
    Each FeFail.canon (fun r => r.2.canon) (s.feRead k va n) := by
  unfold State.feRead
  grind -ring -linarith -order [feResident_canon, State.vaRead_canon, State.feStop_mem, State.vaTouch_canon, Each, FeFail.canon]

theorem State.feStore_canon (s : State) (k : BitVec 16) (va : Nat) (bs : List Byte) (hs : s.canon) :
    Each FeFail.canon State.canon (s.feStore k va bs) := by
  unfold State.feStore
  grind -ring -linarith -order [feResident_canon, State.vaWrite_canon, State.feStop_mem, Each, FeFail.canon]

@[simp] theorem noteWrites_mem (k : BitVec 16) (ps : List (Nat × Nat)) (bs : List Byte) (s : State) :
    (noteWrites k ps bs s).mem = s.mem := by
  induction ps generalizing s bs with
  | nil => rfl
  | cons p ps ih =>
    unfold noteWrites
    grind -ring -linarith -order [State.fwNote_mem]

theorem State.feWrite_canon (s : State) (k : BitVec 16) (va : Nat) (bs : List Byte) (hs : s.canon) :
    Each FeFail.canon State.canon (s.feWrite k va bs) := by
  unfold State.feWrite
  grind -ring -linarith -order [State.feStore_canon, noteWrites_mem, Each, FeFail.canon]

/-! ### Machine/Launch.lean -/

/-- Committed, stopped or queued again, the state is the answer's or the one before. -/
theorem feOut_canon (s : State) (hit : FwEvent → Bool) (r : Except State State) (hs : s.canon)
    (hr : Each State.canon State.canon r) :
    Out.canon (feOut s hit r) := by
  unfold feOut
  cases r <;> grind -ring -linarith -order [State.fwCommit_mem, State.fwRequeue_mem, State.stoppedBy_getD_mem, Each, Out.canon]

theorem State.errTry_canon (s : State) (queue : Nat) (seq : Word) (code detail : Nat) (hs : s.canon) :
    Each State.canon (fun r => r.1.canon) (s.errTry queue seq code detail) := by
  unfold State.errTry
  grind -ring -linarith -order [State.setQueue_mem, State.feWrite_canon, Each, FeFail.canon]

theorem State.errRecord_canon (s : State) (queue : Nat) (seq : Word) (code detail : Nat) (hs : s.canon) :
    Each State.canon State.canon (s.errRecord queue seq code detail) := by
  unfold State.errRecord
  grind -ring -linarith -order [State.errTry_canon, Each]

theorem State.breakQueue_canon (s : State) (queue : Nat) (seq : Word) (code detail : Nat) (hs : s.canon) :
    Each State.canon State.canon (s.breakQueue queue seq code detail) := by
  unfold State.breakQueue
  grind -ring -linarith -order [State.errRecord_canon, State.setQueue_mem, Each]

theorem State.signalDec_canon (s : State) (k : BitVec 16) (va : Nat) (hs : s.canon) :
    Each State.canon State.canon (s.signalDec k va) := by
  unfold State.signalDec
  grind -ring -linarith -order [State.feRead_canon, State.feStore_canon, Each, FeFail.canon]

@[simp] theorem State.setPacket_mem (s : State) (p : PacketEntry) : (s.setPacket p).mem = s.mem := rfl

@[simp] theorem State.prunePackets_mem (s : State) : s.prunePackets.mem = s.mem := rfl

theorem State.completePacket_canon (s : State) (p : PacketEntry) (hs : s.canon) :
    Each State.canon State.canon (s.completePacket p) := by
  unfold State.completePacket
  grind -ring -linarith -order [State.signalDec_canon, State.fwNote_mem, State.setPacket_mem, State.prunePackets_mem, Each]

theorem State.refusePacket_canon (s : State) (p : PacketEntry) (code detail : Nat) (hs : s.canon) :
    Each State.canon State.canon (s.refusePacket p code detail) := by
  unfold State.refusePacket
  grind -ring -linarith -order [State.errTry_canon, State.completePacket_canon, State.setPacket_mem, Each]

theorem State.readEntry_canon (s : State) (p : PacketEntry) (hs : s.canon) :
    (∀ t, (s.readEntry p).1 = some t → t.canon) ∧ Each State.canon State.canon (s.readEntry p).2 := by
  unfold State.readEntry
  grind -ring -linarith -order [State.breakQueue_canon, Each]

/-- The continuation runs in the state after the entry was read. -/
theorem withEntry_canon (s : State) (queue : Nat) (seq : Word) (hit : FwEvent → Bool) (k : State → PacketEntry → Out)
    (hs : s.canon) (hk : ∀ t q, t.canon → Out.canon (k t q)) :
    Out.canon (withEntry s queue seq hit k) := by
  unfold withEntry
  grind -ring -linarith -order [State.fwCommit_mem, State.readEntry_canon, feOut_canon, Each, Out.canon]

theorem State.readKernel_canon (s : State) (k : BitVec 16) (kdesc : Nat) (hs : s.canon) :
    Checked.canon (s.readKernel k kdesc) := by
  unfold State.readKernel
  grind -ring -linarith -order [State.feRead_canon, Checked.canon, Each, FeFail.canon]

theorem readRanges_canon (k : BitVec 16) (n va : Nat) (s : State) (hs : s.canon) : Checked.canon (readRanges k n va s) := by
  induction n generalizing s va with
  | zero => exact hs
  | succ n ih =>
    unfold readRanges
    grind -ring -linarith -order [State.feRead_canon, Checked.canon, Each, FeFail.canon]

theorem State.rangeList_canon (s : State) (k : BitVec 16) (va : Nat) (hs : s.canon) : Checked.canon (s.rangeList k va) := by
  unfold State.rangeList
  grind -ring -linarith -order [readRanges_canon, Checked.canon]

theorem State.checkLaunch_canon (s : State) (k : BitVec 16) (ws : List DWord) (hs : s.canon) :
    Checked.canon (s.checkLaunch k ws) := by
  unfold State.checkLaunch
  grind -ring -linarith -order [State.readKernel_canon, State.rangeList_canon, Checked.canon]

@[simp] theorem State.addLaunch_mem (s : State) (mk : Nat → Launch) : (s.addLaunch mk).mem = s.mem := rfl

theorem copyListOk_canon (k : BitVec 16) (n va : Nat) (s : State) (hs : s.canon) : Checked.canon (copyListOk k n va s) := by
  induction n generalizing s va with
  | zero => exact hs
  | succ n ih =>
    unfold copyListOk
    grind -ring -linarith -order [State.feRead_canon, Checked.canon, Each, FeFail.canon]

theorem progOk_canon (k : BitVec 16) (n va : Nat) (s : State) (hs : s.canon) : Checked.canon (progOk k n va s) := by
  induction n generalizing s va with
  | zero => exact hs
  | succ n ih =>
    unfold progOk
    grind -ring -linarith -order [State.feRead_canon, Checked.canon, Each, FeFail.canon]

theorem State.checkBlock_canon (s : State) (k : BitVec 16) (va : Nat) (hs : s.canon) : Checked.canon (s.checkBlock k va) := by
  unfold State.checkBlock
  grind -ring -linarith -order [State.feRead_canon, State.checkLaunch_canon, copyListOk_canon, progOk_canon, Checked.canon, Each,
    FeFail.canon]

theorem checkBlocks_canon (k : BitVec 16) (vas : List Nat) (s : State) (hs : s.canon) : Checked.canon (checkBlocks k vas s) := by
  induction vas generalizing s with
  | nil => exact hs
  | cons va vas ih =>
    unfold checkBlocks
    grind -ring -linarith -order [State.checkBlock_canon, Checked.canon]

theorem State.judgeBundle_canon (s : State) (p : PacketEntry) (hs : s.canon) :
    Each State.canon State.canon (s.judgeBundle p) := by
  unfold State.judgeBundle
  grind -ring -linarith -order [State.refusePacket_canon, checkBlocks_canon, State.setPacket_mem, Checked.canon, Each]

theorem State.judgePacket_canon (s : State) (p : PacketEntry) (hs : s.canon) :
    Each State.canon State.canon (s.judgePacket p) := by
  unfold State.judgePacket
  grind -ring -linarith -order [State.refusePacket_canon, State.checkLaunch_canon, State.addLaunch_mem, State.judgeBundle_canon,
    State.completePacket_canon, Checked.canon, Each]

theorem State.takePacket_canon (s : State) (q : Queue) (slot : Nat) (hs : s.canon) :
    Each State.canon State.canon (s.takePacket q slot) := by
  unfold State.takePacket
  grind -ring -linarith -order [State.feRead_canon, State.breakQueue_canon, State.feWrite_canon, State.setQueue_mem,
    State.judgePacket_canon, State.fwNote_mem, Each, FeFail.canon]

theorem execPacketAccept_canon (queue : Nat) (s : State) (hs : s.canon) : Out.canon (execPacketAccept queue s) := by
  unfold execPacketAccept
  grind -ring -linarith -order [State.fwCommit_mem, feOut_canon, State.feRead_canon, State.breakQueue_canon,
    State.takePacket_canon, State.setQueue_mem, Each, FeFail.canon, Out.canon]

theorem execLaunch_canon (queue : Nat) (seq : Word) (s : State) (hs : s.canon) : Out.canon (execLaunch queue seq s) := by
  unfold execLaunch
  grind -ring -linarith -order [withEntry_canon, State.setPacket_mem, Out.canon]

theorem execInval_canon (queue : Nat) (seq : Word) (s : State) (hs : s.canon) : Out.canon (execInval queue seq s) := by
  unfold execInval
  grind -ring -linarith -order [withEntry_canon, State.invalidate_canon, feOut_canon, State.completePacket_canon, Each, Out.canon]

@[simp] theorem State.startSub_mem (s : State) (p : PacketEntry) (b : SubLaunch) : (s.startSub p b).mem = s.mem := by
  unfold State.startSub
  dsimp only
  repeat' split
  all_goals simp

theorem execBundle_canon (queue : Nat) (seq : Word) (s : State) (hs : s.canon) : Out.canon (execBundle queue seq s) := by
  unfold execBundle
  grind -ring -linarith -order [withEntry_canon, State.fwCommit_mem, State.startSub_mem, State.setPacket_mem, foldl_canon,
    Out.canon]

theorem endLaunches_canon (queue : Nat) (seq : Word) (ids : List Nat) (s : State) (hs : s.canon) :
    Each State.canon State.canon (endLaunches queue seq ids s) := by
  induction ids generalizing s with
  | nil => exact hs
  | cons i ids ih =>
    unfold endLaunches
    grind -ring -linarith -order [State.setLaunch_mem, State.signalDec_canon, Each]

theorem State.endPacket_canon (s : State) (p : PacketEntry) (hs : s.canon) : Each State.canon State.canon (s.endPacket p) := by
  unfold State.endPacket
  grind -ring -linarith -order [State.errTry_canon, State.completePacket_canon, State.setPacket_mem, Each]

theorem execPacketComplete_canon (queue : Nat) (seq : Word) (s : State) (hs : s.canon) :
    Out.canon (execPacketComplete queue seq s) := by
  unfold execPacketComplete
  grind -ring -linarith -order [withEntry_canon, feOut_canon, State.completePacket_canon, endLaunches_canon,
    State.endPacket_canon, Each, Out.canon]

theorem checkBlockAddrs_canon (s : State) (c : Cohort) (x : Ctx) (l : Nat) (vas : List DWord) (k : List Nat → Out) (hs : s.canon)
    (hk : ∀ ks, Out.canon (k ks)) :
    Out.canon (checkBlockAddrs s c x l vas k) := by
  induction vas generalizing s k with
  | nil => exact hk []
  | cons va vas ih =>
    unfold checkBlockAddrs
    grind -ring -linarith -order [State.raiseElected_mem, raiseHw_canon, waitPage_canon, State.unpin_mem, Out.canon]

theorem State.startSuccessor_canon (s : State) (l : Launch) (va : Nat) (hs : s.canon) :
    Each State.canon State.canon (s.startSuccessor l va) := by
  unfold State.startSuccessor
  grind -ring -linarith -order [State.feRead_canon, State.errRecord_canon, State.checkLaunch_canon, State.signalDec_canon,
    State.addLaunch_mem, Checked.canon, Each, FeFail.canon]

theorem State.joinZero_canon (s : State) (l : Launch) (va : DWord) (hs : s.canon) :
    Each State.canon State.canon (s.joinZero l va) := by
  unfold State.joinZero
  grind -ring -linarith -order [State.startSuccessor_canon, State.postEvent_mem, Each]

theorem State.joinDec_canon (s : State) (core : Nat) (x : Ctx) (l : Launch) (va : DWord) (key : Nat) (hs : s.canon) :
    Each State.canon State.canon (s.joinDec core x l va key) := by
  unfold State.joinDec
  grind -ring -linarith -order [State.errRecord_canon, State.storeNat_canon, State.dirty_canon, State.touch_canon,
    State.noteLine_mem, State.l1Drop_mem, State.joinZero_canon, Each]

theorem joinDecs_canon (core : Nat) (x : Ctx) (l : Launch) (ps : List (DWord × Nat)) (s : State) (hs : s.canon) :
    Each State.canon State.canon (joinDecs core x l ps s) := by
  induction ps generalizing s with
  | nil => exact hs
  | cons p ps ih =>
    unfold joinDecs
    grind -ring -linarith -order [State.joinDec_canon, Each]

theorem execExit_canon (f : Fields) (s : State) (hs : s.canon) : Out.canon (execExit f s) := by
  unfold execExit
  refine withMe_canon s _ fun c => withCtx_canon s c _ fun x => ?_
  dsimp only
  repeat' split
  · exact finish_canon s c hs
  · grind -ring -linarith -order [State.grantBanks_canon, State.settleCohort_mem, indigoClose_canon, Out.canon]
  · refine checkBlockAddrs_canon s c x _ _ _ hs fun keys => releasing_canon s c _ hs fun t d ht => ?_
    grind -ring -linarith -order [State.grantBanks_canon, State.settleCohort_mem, waitHere_canon, joinDecs_canon,
      State.stoppedBy_mem, State.fwCommit_mem, Each, Out.canon]

/-! ### Machine/Place.lean -/

/-- Clearing drops cells, and a part of a canonical list is canonical. -/
theorem State.clearTile_canon (s : State) (core lo n : Nat) (hs : s.canon) : (s.clearTile core lo n).canon :=
  Memory.wf_filter _ _ hs

@[simp] theorem State.seat_mem (s : State) (core p : Nat) (k : Kernel) (mk : Nat → Nat → Cohort) :
    (s.seat core p k mk).mem = s.mem := by
  simp [State.seat, foldl_mem]

@[simp] theorem State.rotate_mem (s : State) (core : Nat) (k : Kernel) (ctx : BitVec 16) :
    (s.rotate core k ctx).mem = s.mem := rfl

theorem State.placeWg_canon (s : State) (l : Launch) (wgid core block : Nat) (role : IndigoRole) (twin : Option (Nat × Nat))
    (hs : s.canon) :
    (s.placeWg l wgid core block role twin).canon := by
  unfold State.placeWg
  grind -ring -linarith -order [State.clearTile_canon, State.rotate_mem, State.seat_mem]

theorem State.placeAt_canon (s : State) (l : Launch) (wgid : Nat) (at_ : List (Nat × Nat)) (hs : s.canon) :
    (s.placeAt l wgid at_).canon := by
  unfold State.placeAt
  grind -ring -linarith -order [State.placeWg_canon, foldl_canon]

@[simp] theorem State.nameTargets_mem (s : State) (d : Nat) : (s.nameTargets d).mem = s.mem := by
  unfold State.nameTargets
  grind -ring -linarith -order [State.setLaunch_mem, foldl_mem]

@[simp] theorem State.countPassed_mem (s : State) (d : Nat) (cores : List Nat) (but : Nat) :
    (s.countPassed d cores but).mem = s.mem := rfl

@[simp] theorem State.endReservation_mem (s : State) (d launch : Nat) : (s.endReservation d launch).mem = s.mem := rfl

theorem execReservation_canon (die : Nat) (s : State) (hs : s.canon) : Out.canon (execReservation die s) := by
  unfold execReservation
  grind -ring -linarith -order [State.setLaunch_mem, State.setCore_mem, foldl_canon, Out.canon]

@[simp] theorem State.abandon_mem (s : State) (c : Cohort) : (s.abandon c).mem = s.mem := by
  unfold State.abandon
  split <;> rfl

@[simp] theorem State.suspend_mem (s : State) (c : Cohort) : (s.suspend c).mem = s.mem := by
  unfold State.suspend
  dsimp only
  repeat' split
  all_goals simp

@[simp] theorem State.requeue_mem (s : State) (c : Cohort) (n : Nat) : (s.requeue c n).mem = s.mem := rfl

theorem State.unsuspend_canon (s : State) (c : Cohort) (hs : s.canon) : (s.unsuspend c).canon := by
  unfold State.unsuspend
  grind -ring -linarith -order [State.setCohort_mem, State.grantBanks_canon, State.requeue_mem, State.offerBaton_mem,
    State.podTry_mem, State.barCheck_mem, State.deliver_canon]

@[simp] theorem State.requestSaves_mem (s : State) (vs : List Nat) (l : Launch) (first : Nat) :
    (s.requestSaves vs l first).mem = s.mem := by
  simp [State.requestSaves, foldl_mem]

theorem execWorkgroupPlacement_canon (die : Nat) (s : State) (hs : s.canon) : Out.canon (execWorkgroupPlacement die s) := by
  unfold execWorkgroupPlacement
  grind -ring -linarith -order [State.nameTargets_mem, State.setLaunch_mem, State.endReservation_mem, State.placeAt_canon,
    State.countPassed_mem, State.requestSaves_mem, Out.canon]

theorem State.landFor_canon (s : State) (wg : Nat) (hs : s.canon) : (s.landFor wg).canon := by
  unfold State.landFor
  grind -ring -linarith -order [State.settleReg_canon, State.setCohort_mem, foldl_canon]

theorem State.takeOff_canon (s : State) (w : Wg) (id : Nat) (qg : Bool) (hs : s.canon) : (s.takeOff w id qg).canon := by
  unfold State.takeOff
  grind -ring -linarith -order [State.freeBanks_mem, State.passBaton_mem, State.clearTile_canon, foldl_canon]

theorem State.spare_canon (s : State) (w : Wg) (hs : s.canon) : (s.spare w).canon := by
  unfold State.spare
  grind -ring -linarith -order [State.unsuspend_canon, foldl_canon]

theorem writeSaves_canon (l : Launch) (incoming : BitVec 16) (ws : List Wg) (s : State) (hs : s.canon) :
    Each FeFail.canon State.canon (writeSaves l incoming ws s) := by
  induction ws generalizing s with
  | nil => exact hs
  | cons w ws ih =>
    unfold writeSaves
    repeat' split
    all_goals grind -ring -linarith -order [State.feWrite_canon, State.setCtx_mem, Each, FeFail.canon]

/-- The saving path writes the save records and takes the workgroup off; every other path leaves memory or spares the workgroup. -/
theorem execPreemptionSave_canon (wg : Nat) (s : State) (hs : s.canon) : Out.canon (execPreemptionSave wg s) := by
  unfold execPreemptionSave
  cases s.wg? wg with
  | none => exact hs
  | some w =>
    dsimp only
    split
    · next _ _ at_ for_ _ l _ _ =>
      have spared : Out.canon (.next (s.spare w)) := s.spare_canon w hs
      refine Out.canon_ite hs (Out.canon_ite spared (Out.canon_ite hs (Out.canon_ite hs (Out.canon_ite hs ?_))))
      have h1 : ((s.pairOf w).foldl (fun t v => (t.release v.core).landFor v.id) s).canon :=
        foldl_canon _ (fun t v ht => State.landFor_canon _ _ (t.release_canon v.core ht)) _ s hs
      have saves := writeSaves_canon l (((s.launch? for_).map (·.ctx)).getD 0) (s.pairOf w) _ h1
      split
      · next t e => rwa [e] at saves
      · exact spared
      · next t e =>
        rw [e] at saves
        exact foldl_canon _ (fun u v hu => u.grantBanks_canon v.core hu) _ _
          (foldl_canon _ (fun u v hu => u.takeOff_canon v _ _ hu) _ t saves)
    · exact hs

theorem execPreemptionTimeout_canon (wg : Nat) (s : State) (hs : s.canon) : Out.canon (execPreemptionTimeout wg s) := by
  unfold execPreemptionTimeout
  grind -ring -linarith -order [State.spare_canon, Out.canon]

@[simp] theorem State.takePending_mem (s : State) (c : Cohort) : (s.takePending c).mem = s.mem := by
  unfold State.takePending
  repeat' split
  all_goals simp

theorem restoreCohorts_canon (w : Wg) (l : Launch) (p now : Nat) (move : Bool) (cs : List (Cohort × Nat)) (bs : List Byte)
    (s : State) (hs : s.canon) :
    (restoreCohorts w l p now move cs bs s).canon := by
  induction cs generalizing s bs with
  | nil => exact hs
  | cons c cs ih =>
    unfold restoreCohorts
    grind -ring -linarith -order [State.setCore_mem, State.settleAll_canon, State.takePending_mem, State.raiseReason_mem]

@[simp] theorem State.seatGone_mem (s : State) (w : Wg) (k : Kernel) (p : Nat) (chids : List Nat) :
    (s.seatGone w k p chids).mem = s.mem := by
  unfold State.seatGone
  grind -ring -linarith -order [State.setWg_mem, foldl_mem]

/-- A saved workgroup put back: its tile written, its cohorts seated, its record removed. -/
theorem State.putBack_canon (s : State) (v : SavedWg) (l : Launch) (core block : Nat) (bs : List Byte) (hs : s.canon) :
    (s.putBack v l core block bs).canon := by
  unfold State.putBack
  extract_lets p now old w cs nbanks body tile map s1 s2 s3 left s4 s5 s6
  have h1 : s1.canon := State.writeMem_canon _ _ tile (s.clearTile_canon core _ _ hs)
  have h3 : s3.canon := restoreCohorts_canon _ _ _ _ _ _ _ _ h1
  have h4 : s4.canon := by rwa [State.canon, State.offerBaton_mem, State.rotate_mem, State.seatGone_mem]
  have h5 : s5.canon := by
    unfold s5
    split
    · exact h4
    · exact h4
  split
  · exact h5
  · rwa [State.canon, State.recheckCore_mem]

theorem State.readSave_canon (s : State) (v : SavedWg) (k : BitVec 16) (hs : s.canon) :
    Each FeFail.canon (fun r => r.2.canon) (s.readSave v k) := by
  unfold State.readSave
  grind -ring -linarith -order [State.feRead_canon, Each, FeFail.canon]

theorem execWorkgroupRestore_canon (saved : Nat) (s : State) (hs : s.canon) : Out.canon (execWorkgroupRestore saved s) := by
  unfold execWorkgroupRestore
  dsimp only
  repeat' split
  all_goals grind -ring -linarith -order [State.readSave_canon, State.putBack_canon, Each, FeFail.canon, Out.canon]

theorem State.unpark_canon (s : State) (p : Parked) (e : WaitEntry) (l : Launch) (core : Nat) (bs : List Byte) (hs : s.canon) :
    (s.unpark p e l core bs).canon := by
  unfold State.unpark
  grind -ring -linarith -order [State.setCore_mem, State.rotate_mem, State.settleAll_canon, State.settleCohort_mem,
    State.raiseReason_mem]

theorem execContinuationResume_canon (die : Nat) (s : State) (hs : s.canon) : Out.canon (execContinuationResume die s) := by
  unfold execContinuationResume
  dsimp only
  repeat' split
  all_goals grind -ring -linarith -order [State.feRead_canon, State.unpark_canon, Each, FeFail.canon, Out.canon]

theorem execRwrLanding_canon (sender : Nat) (s : State) (hs : s.canon) : Out.canon (execRwrLanding sender s) := by
  unfold execRwrLanding
  grind -ring -linarith -order [State.settleReg_canon, State.setCohort_mem, Out.canon]

theorem execCombiningFlush_canon (core : Nat) (s : State) (hs : s.canon) : Out.canon (execCombiningFlush core s) := by
  unfold execCombiningFlush
  grind -ring -linarith -order [State.writeWc_canon, State.setCore_mem, foldl_canon, Out.canon]

theorem execStarvationQualify_canon (cid : Nat) (s : State) (hs : s.canon) : Out.canon (execStarvationQualify cid s) := by
  unfold execStarvationQualify
  grind -ring -linarith -order [Out.canon]

theorem execYieldExpiry_canon (cid : Nat) (s : State) (hs : s.canon) : Out.canon (execYieldExpiry cid s) := by
  unfold execYieldExpiry
  grind -ring -linarith -order [State.setCohort_mem, Out.canon]

theorem execReadPin_canon (core slot bank cid losses : Nat) (s : State) (hs : s.canon) :
    Out.canon (execReadPin core slot bank cid losses s) := by
  unfold execReadPin
  grind -ring -linarith -order [State.setCore_mem, Out.canon]

/-! ### Machine/Halt.lean -/

@[simp] theorem State.stopCohort_mem (s : State) (c : Cohort) : (s.stopCohort c).mem = s.mem := by
  unfold State.stopCohort
  dsimp only
  repeat' split
  all_goals simp

theorem execCohortStop_canon (cid : Nat) (s : State) (hs : s.canon) : Out.canon (execCohortStop cid s) := by
  unfold execCohortStop
  grind -ring -linarith -order [State.stopCohort_mem, Out.canon]

theorem execEngineStop_canon (ctx : BitVec 16) (s : State) (hs : s.canon) : Out.canon (execEngineStop ctx s) := by
  unfold execEngineStop
  grind -ring -linarith -order [State.setCtx_mem, Out.canon]

theorem writeRecords_canon (k : BitVec 16) (base len : Nat) (recs : List (List Byte)) (off : Nat) (s : State) (hs : s.canon) :
    Each State.canon (fun r => r.2.2.canon) (writeRecords k base len recs off s) := by
  induction recs generalizing s off with
  | nil => exact hs
  | cons r recs ih =>
    unfold writeRecords
    grind -ring -linarith -order [State.feWrite_canon, Each, FeFail.canon]

@[simp] theorem State.enterHandlers_mem (s : State) (k : BitVec 16) : (s.enterHandlers k).mem = s.mem := by
  unfold State.enterHandlers
  repeat' split
  all_goals simp

theorem execStopAreaWrite_canon (ctx : BitVec 16) (s : State) (hs : s.canon) : Out.canon (execStopAreaWrite ctx s) := by
  unfold execStopAreaWrite
  dsimp only
  repeat' split
  all_goals grind -ring -linarith -order [State.setCtx_mem, writeRecords_canon, State.feWrite_canon, State.enterHandlers_mem,
    Each, FeFail.canon, Out.canon]

theorem restoreStopped_canon (k : BitVec 16) (base : Nat) (recs : List (Nat × Nat × Nat)) (s : State) (hs : s.canon) :
    Each State.canon (fun r => r.2.2.canon) (restoreStopped k base recs s) := by
  induction recs generalizing s with
  | nil => exact hs
  | cons r recs ih =>
    unfold restoreStopped
    repeat' split
    all_goals grind -ring -linarith -order [State.feRead_canon, State.setCohort_mem, Each, FeFail.canon]

theorem State.resumeCohort_canon (s : State) (cid : Nat) (hs : s.canon) : (s.resumeCohort cid).canon := by
  unfold State.resumeCohort
  grind -ring -linarith -order [State.settleAll_canon, State.settleCohort_mem]

theorem State.resumeCtx_canon (s : State) (x : Ctx) (hs : s.canon) : Each State.canon State.canon (s.resumeCtx x) := by
  unfold State.resumeCtx
  grind -ring -linarith -order [restoreStopped_canon, State.resumeCohort_canon, State.haltFall_mem, State.raiseReason_mem,
    State.podTryAll_mem, State.takePending_mem, foldl_canon, foldl_mem, Each]

theorem orBefore_canon (s : State) (r : Except State State) (hs : s.canon) (hr : Each State.canon State.canon r) :
    (orBefore s r).canon := by
  cases r with
  | ok t => exact hr
  | error t => exact hs

theorem State.destroyPacket_canon (s : State) (p : PacketEntry) (hs : s.canon) : (s.destroyPacket p).canon := by
  unfold State.destroyPacket
  grind -ring -linarith -order [orBefore_canon, State.signalDec_canon, State.errRecord_canon, State.readEntry_canon,
    State.setPacket_mem, State.completePacket_canon, foldl_canon, Each]

theorem State.removeCtx_canon (s0 : State) (k : BitVec 16) (hs0 : s0.canon) : (s0.removeCtx k).canon := by
  unfold State.removeCtx
  grind -ring -linarith -order [State.flushWindow_canon, State.grantBanks_canon, State.offerBaton_mem, foldl_canon]

theorem State.destroyCtx_canon (s : State) (k : BitVec 16) (hs : s.canon) : (s.destroyCtx k).canon := by
  unfold State.destroyCtx
  grind -ring -linarith -order [State.removeCtx_canon, State.fwCommit_mem, State.destroyPacket_canon, foldl_canon]

/-! ### Machine/Fabric.lean -/

theorem State.putWindow_canon (s : State) (k : Coll) (bs : List Byte) (hs : s.canon) : (s.putWindow k bs).canon := by
  unfold State.putWindow
  grind -ring -linarith -order [State.putTileByte_canon, foldl_canon]

@[simp] theorem State.dropColl_mem (s : State) (k : Coll) : (s.dropColl k).mem = s.mem := rfl

theorem State.landColl_canon (s : State) (k : Coll) (out : List (Nat × List Byte)) (hs : s.canon) : (s.landColl k out).canon := by
  unfold State.landColl
  grind -ring -linarith -order [State.putWindow_canon, State.setCore_mem]

theorem State.endColl_canon (s : State) (k : Coll) (out : List (Nat × List Byte)) (abort : Bool) (hs : s.canon) :
    (s.endColl k out abort).canon := by
  unfold State.endColl
  grind -ring -linarith -order [State.endPlace_canon, State.dropColl_mem, State.landColl_canon, State.jobFail_mem,
    State.noteLine_mem, State.setLeaf_canon, State.jobCause_mem, State.storeNat_canon, Each]

theorem State.abortColl_canon (s : State) (k : Coll) (hs : s.canon) : (s.abortColl k).canon := by
  unfold State.abortColl
  grind -ring -linarith -order [State.endColl_canon]

theorem State.collMismatch_canon (s : State) (k : Coll) (hs : s.canon) : (s.collMismatch k).canon := by
  unfold State.collMismatch
  grind -ring -linarith -order [State.jobCause_mem, State.abortColl_canon]

theorem State.finishColl_canon (s : State) (k : Coll) (me : Nat) (peers : List (List Byte)) (hs : s.canon) :
    (s.finishColl k me peers).canon :=
  State.endColl_canon _ _ _ _ hs

theorem execCollectiveStart_canon (coll : Nat) (s : State) (hs : s.canon) : Out.canon (execCollectiveStart coll s) := by
  unfold execCollectiveStart
  grind -ring -linarith -order [State.abortColl_canon, State.collMismatch_canon, State.jobFail_mem, State.finishColl_canon,
    Out.canon]

theorem execCollectiveComplete_canon (coll : Nat) (peers : List (List Byte)) (mismatch : Bool) (s : State) (hs : s.canon) :
    Out.canon (execCollectiveComplete coll peers mismatch s) := by
  unfold execCollectiveComplete
  grind -ring -linarith -order [State.collMismatch_canon, State.finishColl_canon, Out.canon]

theorem State.progEnd_canon (s : State) (g : CollProg) (abort : Bool) (codes : List Nat) (hs : s.canon) :
    Each State.canon State.canon (s.progEnd g abort codes) := by
  unfold State.progEnd
  grind -ring -linarith -order [State.feWrite_canon, State.errRecord_canon, Each, FeFail.canon]

theorem State.progAbort_canon (s : State) (g : CollProg) (p : ProgStep) (hs : s.canon) :
    Each State.canon State.canon (s.progAbort g p) := by
  unfold State.progAbort
  grind -ring -linarith -order [State.feRead_canon, State.progEnd_canon, State.feWrite_canon, Each, FeFail.canon]

theorem State.progStop_canon (s : State) (g : CollProg) (hs : s.canon) : Each State.canon State.canon (s.progStop g) := by
  unfold State.progStop
  grind -ring -linarith -order [State.feRead_canon, State.progEnd_canon, State.progAbort_canon, Each, FeFail.canon]

theorem State.progFinish_canon (s : State) (g : CollProg) (p : ProgStep) (me : Nat) (peers : List (List Byte)) (hs : s.canon) :
    Each State.canon State.canon (s.progFinish g p me peers) := by
  unfold State.progFinish
  grind -ring -linarith -order [State.feRead_canon, State.progAbort_canon, State.feWrite_canon, State.progEnd_canon, Each,
    FeFail.canon]

theorem execCollProgramStep_canon (prog : Nat) (peers : List (List Byte)) (mismatch : Bool) (s : State) (hs : s.canon) :
    Out.canon (execCollProgramStep prog peers mismatch s) := by
  unfold execCollProgramStep
  grind -ring -linarith -order [feOut_canon, State.progStop_canon, State.feRead_canon, State.progEnd_canon, State.progAbort_canon,
    State.progFinish_canon, Each, FeFail.canon, Out.canon]

@[simp] theorem State.answerPull_mem (s : State) (p : PullServe) (refused : Bool) (data : List Byte) :
    (s.answerPull p refused data).mem = s.mem :=
  State.send_mem _ _ _

theorem execPullRequest_canon (src : Sender) (gen : Word) (txid : BitVec 16) (core line : Nat) (s : State) (hs : s.canon) :
    Out.canon (execPullRequest src gen txid core line s) := by
  unfold execPullRequest
  grind -ring -linarith -order [State.answerPull_mem, Out.canon]

theorem execPullLineRead_canon (pull : Nat) (s : State) (hs : s.canon) : Out.canon (execPullLineRead pull s) := by
  unfold execPullLineRead
  grind -ring -linarith -order [State.answerPull_mem, State.stopContext_mem, Out.canon]

theorem execPullResponse_canon (txid : TxId) (refused : Bool) (data : Line) (s : State) (hs : s.canon) :
    Out.canon (execPullResponse txid refused data s) := by
  unfold execPullResponse
  grind -ring -linarith -order [State.jobCause_mem, State.landLine_canon, Out.canon]

theorem execPullReissue_canon (txid : TxId) (s : State) (hs : s.canon) : Out.canon (execPullReissue txid s) := by
  unfold execPullReissue
  grind -ring -linarith -order [State.takeTxid_mem, State.send_mem, Out.canon]

theorem State.abortRcopy_canon (s : State) (j : Job) (hs : s.canon) : (s.abortRcopy j).canon := by
  unfold State.abortRcopy
  grind -ring -linarith -order [State.freeBoard_mem, State.abortJob_canon]

@[simp] theorem State.dropOther_mem (s : State) : s.dropOther.mem = s.mem := rfl

theorem execPodBarrierArrive_canon (p : PodPkt) (s : State) (hs : s.canon) : Out.canon (execPodBarrierArrive p s) := by
  unfold execPodBarrierArrive
  grind -ring -linarith -order [State.dropOther_mem, State.send_mem, State.podCount_mem, Out.canon]

theorem execPodBarrierComplete_canon (p : PodPkt) (s : State) (hs : s.canon) : Out.canon (execPodBarrierComplete p s) := by
  unfold execPodBarrierComplete
  grind -ring -linarith -order [State.dropOther_mem, State.podDone_mem, Out.canon]

theorem execPodBarrierResend_canon (cid : Nat) (s : State) (hs : s.canon) : Out.canon (execPodBarrierResend cid s) := by
  unfold execPodBarrierResend
  grind -ring -linarith -order [State.send_mem, State.setPodBar_mem, Out.canon]

@[simp] theorem State.abortPods_mem (s : State) : s.abortPods.mem = s.mem :=
  foldl_mem _ (fun t c => t.podDone_mem (t.podBar (t.podKey c)) true) _ s

@[simp] theorem State.receive_mem (s : State) (n : Nat) (k : Packet) : (s.receive n k).mem = s.mem := by
  unfold State.receive
  dsimp only
  repeat' split
  all_goals simp

@[simp] theorem State.failPort_mem (s : State) (n : Nat) : (s.failPort n).mem = s.mem := by
  simp [State.failPort, foldl_mem]

@[simp] theorem State.takeData_mem (s : State) (n : Nat) (p : Port) (first : Bool) (cls : Nat) (seq : BitVec 16)
    (data : List Byte) :
    (s.takeData n p first cls seq data).mem = s.mem := by
  unfold State.takeData
  dsimp only
  repeat' split
  all_goals simp

@[simp] theorem State.sendNack_mem (s : State) (n : Nat) : (s.sendNack n).mem = s.mem := rfl

@[simp] theorem State.replayFlits_mem (s : State) (n : Nat) : (s.replayFlits n).mem = s.mem := rfl

theorem execFlitReceive_canon (port : Nat) (flit : BitVec 2048) (s : State) (hs : s.canon) :
    Out.canon (execFlitReceive port flit s) := by
  unfold execFlitReceive
  grind -ring -linarith -order [State.sendNack_mem, State.setPort_mem, State.pump_mem, State.failPort_mem, State.replayFlits_mem,
    State.takeData_mem, Out.canon]

theorem execPortFail_canon (port : Nat) (linkLoss : Bool) (s : State) (hs : s.canon) :
    Out.canon (execPortFail port linkLoss s) := by
  unfold execPortFail
  grind -ring -linarith -order [State.failPort_mem, Out.canon]

theorem execHeldPacketTimeout_canon (port : Nat) (s : State) (hs : s.canon) : Out.canon (execHeldPacketTimeout port s) := by
  unfold execHeldPacketTimeout
  grind -ring -linarith -order [State.regulate_mem, State.setPort_mem, Out.canon]

/-! ### Machine/Membership.lean -/

@[simp] theorem State.sendHeartbeat_mem (s : State) (die : Nat) (dst : BitVec 20) : (s.sendHeartbeat die dst).mem = s.mem := by
  unfold State.sendHeartbeat
  extract_lets k s1
  split
  · exact foldl_mem (fun t (p : Port) => t.sendOn p.num k) (fun t p => t.sendOn_mem p.num k) _ s1
  · exact s1.send_mem die k

theorem execHeartbeatSend_canon (peer : Nat) (s : State) (hs : s.canon) : Out.canon (execHeartbeatSend peer s) := by
  unfold execHeartbeatSend
  grind -ring -linarith -order [State.sendHeartbeat_mem, Out.canon]

@[simp] theorem State.again_mem (s : State) (e : Instr) : (s.again e).mem = s.mem := rfl

@[simp] theorem State.suspectPeer_mem (s : State) (peer : Nat) (w : Watch) : (s.suspectPeer peer w).mem = s.mem := by
  unfold State.suspectPeer
  split <;> simp

theorem execHeartbeatMiss_canon (peer : Nat) (s : State) (hs : s.canon) : Out.canon (execHeartbeatMiss peer s) := by
  unfold execHeartbeatMiss
  grind -ring -linarith -order [State.suspectPeer_mem, Out.canon]

@[simp] theorem State.startRound_mem (s : State) (l : Leader) : (s.startRound l).mem = s.mem :=
  State.tellAll_mem _ _ _ _

@[simp] theorem State.coordinate_mem (s : State) : s.coordinate.mem = s.mem := by
  unfold State.coordinate
  repeat' split
  all_goals simp

theorem execSuspect_canon (m : MemMsg) (s : State) (hs : s.canon) : Out.canon (execSuspect m s) := by
  unfold execSuspect
  grind -ring -linarith -order [State.coordinate_mem, Out.canon]

theorem execWithdraw_canon (m : MemMsg) (s : State) (hs : s.canon) : Out.canon (execWithdraw m s) := by
  unfold execWithdraw
  grind -ring -linarith -order [Out.canon]

theorem execPrepare_canon (m : MemMsg) (s : State) (hs : s.canon) : Out.canon (execPrepare m s) := by
  unfold execPrepare
  grind -ring -linarith -order [State.tell_mem, Out.canon]

@[simp] theorem State.commitTable_mem (s : State) (l : Leader) (old t : RankTable) : (s.commitTable l old t).mem = s.mem :=
  State.tellAll_mem _ _ _ _

@[simp] theorem State.tryCommit_mem (s : State) : s.tryCommit.mem = s.mem := by
  unfold State.tryCommit
  repeat' split
  all_goals simp

theorem execPromise_canon (m : MemMsg) (s : State) (hs : s.canon) : Out.canon (execPromise m s) := by
  unfold execPromise
  grind -ring -linarith -order [State.tryCommit_mem, State.tellAll_mem, Out.canon]

theorem execPropose_canon (m : MemMsg) (s : State) (hs : s.canon) : Out.canon (execPropose m s) := by
  unfold execPropose
  grind -ring -linarith -order [State.tell_mem, Out.canon]

theorem execAccept_canon (m : MemMsg) (s : State) (hs : s.canon) : Out.canon (execAccept m s) := by
  unfold execAccept
  grind -ring -linarith -order [State.tryCommit_mem, Out.canon]

theorem execProposalRetry_canon (s : State) (hs : s.canon) : Out.canon (execProposalRetry s) := by
  unfold execProposalRetry
  grind -ring -linarith -order [State.startRound_mem, Out.canon]

@[simp] theorem State.sealStep_mem (s : State) : s.sealStep.mem = s.mem := by
  unfold State.sealStep
  repeat' split
  all_goals simp

theorem execSealStep_canon (step : Word) (s : State) (hs : s.canon) : Out.canon (execSealStep step s) := by
  unfold execSealStep
  grind -ring -linarith -order [drainHeld_mem, Out.canon]

@[simp] theorem State.hear_mem (s : State) (h : Heartbeat) : (s.hear h).mem = s.mem := by
  unfold State.hear
  split <;> simp

theorem execHeartbeatReceive_canon (h : Heartbeat) (s : State) (hs : s.canon) : Out.canon (execHeartbeatReceive h s) := by
  unfold execHeartbeatReceive
  grind -ring -linarith -order [State.sendOn_mem, State.tellAll_mem, State.suspectPeer_mem, State.hear_mem, Out.canon]

theorem State.abortProg_canon (s : State) (g : CollProg) (hs : s.canon) : (s.abortProg g).canon := by
  unfold State.abortProg
  grind -ring -linarith -order [State.progStop_canon, State.fwCommit_mem, Each]

theorem State.abortAll_canon (s : State) (hs : s.canon) : s.abortAll.canon := by
  unfold State.abortAll
  grind -ring -linarith -order [State.abortColl_canon, State.abortRcopy_canon, State.abortProg_canon, State.abortPods_mem,
    foldl_canon, foldl_mem]

@[simp] theorem State.noteCommit_mem (s : State) (old t : RankTable) : (s.noteCommit old t).mem = s.mem := by
  unfold State.noteCommit
  split <;> rfl

@[simp] theorem State.leaveJob_mem (s : State) : s.leaveJob.mem = s.mem := rfl

theorem State.expel_canon (s : State) (gen : Word) (hs : s.canon) : (s.expel gen).canon := by
  unfold State.expel
  grind -ring -linarith -order [State.abortAll_canon, State.stopContext_mem, State.leaveJob_mem, foldl_canon]

@[simp] theorem State.toReady_mem (s : State) : s.toReady.mem = s.mem := rfl

@[simp] theorem State.fillDone_mem (s : State) (t : RankTable) : (s.fillDone t).mem = s.mem := by
  unfold State.fillDone
  split <;> simp

@[simp] theorem State.spareAdopt_mem (s : State) (t : RankTable) : (s.spareAdopt t).mem = s.mem :=
  State.adopt_mem _ _

theorem State.tableOut_canon (s : State) (t : RankTable) (hs : s.canon) : Each State.canon State.canon (s.tableOut t) := by
  unfold State.tableOut
  grind -ring -linarith -order [State.feWrite_canon, Each, FeFail.canon]

theorem State.stage_canon (s : State) (t : RankTable) (hs : s.canon) : (s.stage t).canon := by
  unfold State.stage
  grind -ring -linarith -order [State.abortAll_canon, State.noteCommit_mem]

theorem execCommit_canon (m : MemMsg) (s : State) (hs : s.canon) : Out.canon (execCommit m s) := by
  unfold execCommit
  grind -ring -linarith -order [State.expel_canon, State.stage_canon, State.tableOut_canon, State.again_mem, State.fillDone_mem,
    fillMore_mem, State.spareAdopt_mem, State.askDonor_mem, State.toReady_mem, foldl_canon, Each, Out.canon]

theorem execJoined_canon (m : MemMsg) (s : State) (hs : s.canon) : Out.canon (execJoined m s) := by
  unfold execJoined
  grind -ring -linarith -order [State.tableOut_canon, State.again_mem, State.tellAll_mem, State.podTryAll_mem, foldl_canon, Each,
    Out.canon]

theorem readStripe_canon (k : BitVec 16) (st : Word) (ps : List (Nat × Nat)) (s : State) (hs : s.canon) :
    Checked.canon (readStripe k st ps s) := by
  induction ps generalizing s with
  | nil => exact hs
  | cons p ps ih =>
    unfold readStripe
    grind -ring -linarith -order [State.feRead_canon, Checked.canon, Each, FeFail.canon]

theorem execCloneRequest_canon (src : Sender) (gen : Word) (txid : BitVec 16) (stripe : Nat) (step : Word) (fp : Bool) (s : State)
    (hs : s.canon) :
    Out.canon (execCloneRequest src gen txid stripe step fp s) := by
  unfold execCloneRequest
  grind -ring -linarith -order [State.send_mem, readStripe_canon, State.again_mem, Checked.canon, Out.canon]

theorem writeStripe_canon (k : BitVec 16) (ps : List (Nat × Nat)) (bs : List Byte) (s : State) (hs : s.canon) :
    Each State.canon State.canon (writeStripe k ps bs s) := by
  induction ps generalizing s bs with
  | nil => exact hs
  | cons p ps ih =>
    unfold writeStripe
    grind -ring -linarith -order [State.feWrite_canon, Each, FeFail.canon]

theorem State.verify_canon (s : State) (t : RankTable) (x : Stripe) (bs : List Byte) (hs : s.canon) :
    Each State.canon State.canon (s.verify t x bs) := by
  unfold State.verify
  grind -ring -linarith -order [fillMore_mem, State.setStripe_mem, State.fillDone_mem, writeStripe_canon, Each]

theorem State.decideStripe_canon (s : State) (t : RankTable) (x : Stripe) (hs : s.canon) :
    Each State.canon State.canon (s.decideStripe t x) := by
  unfold State.decideStripe
  dsimp only
  repeat' split
  · exact s.verify_canon t x _ hs
  · exact s.verify_canon t x _ hs
  · simpa [Each, State.canon] using hs
  · simpa [Each, State.canon] using hs

@[simp] theorem State.refuseStripe_mem (s : State) (t : RankTable) (x : Stripe) (pos : Nat) (reason : BitVec 8) :
    (s.refuseStripe t x pos reason).mem = s.mem := by
  unfold State.refuseStripe
  dsimp only
  repeat' split
  all_goals simp

theorem State.stripeAnswer_canon (s : State) (t : RankTable) (x : Stripe) (pos : Nat) (reason : BitVec 8) (fp : Option DWord)
    (data : List Byte)
    (hs : s.canon) : Each State.canon State.canon (s.stripeAnswer t x pos reason fp data) := by
  unfold State.stripeAnswer
  dsimp only
  repeat' split
  all_goals grind -ring -linarith -order [State.refuseStripe_mem, State.askClone_mem, State.setStripe_mem,
    State.decideStripe_canon, State.verify_canon, State.loseStripe_mem, Each]

theorem execCloneResponse_canon (src : BitVec 20) (stripe : Nat) (reason : BitVec 8) (fp : Option DWord) (data : List Byte)
    (s : State) (hs : s.canon) :
    Out.canon (execCloneResponse src stripe reason fp data s) := by
  unfold execCloneResponse
  grind -ring -linarith -order [State.stripeAnswer_canon, State.again_mem, Each, Out.canon]

theorem execRankTableRegistration_canon (t : RankTable) (s : State) (hs : s.canon) :
    Out.canon (execRankTableRegistration t s) := by
  unfold execRankTableRegistration
  grind -ring -linarith -order [State.tableOut_canon, State.again_mem, State.adopt_mem, State.leaveJob_mem, State.stage_canon,
    Each, Out.canon]

/-! ### Machine/Mailbox.lean -/

theorem MailOut.done_canon (s : State) (hs : s.canon) : MailOut.canon (MailOut.done s) := by
  unfold MailOut.done
  rwa [MailOut.canon]

theorem MailOut.refuse_canon (s : State) (detail : Nat) (hs : s.canon) : MailOut.canon (MailOut.refuse s detail) := by
  unfold MailOut.refuse
  rwa [MailOut.canon]

@[simp] theorem State.setMail_mem (s : State) (i3c : Bool) (b : Mailbox) : (s.setMail i3c b).mem = s.mem := by
  unfold State.setMail
  split <;> rfl

theorem State.openMail_mem (s : State) (m : MailCmd) (opc : Nat) : ∀ t, s.openMail m opc = some t → t.mem = s.mem := by
  simp [State.openMail]

@[simp] theorem State.closeMail_mem (s : State) (m : MailCmd) (opc status detail : Nat) :
    (s.closeMail m opc status detail).mem = s.mem := by
  simp [State.closeMail]

theorem State.mailWaits_canon (s t : State) (i3c : Bool) (ht : t.canon) : (s.mailWaits t i3c).canon := by
  unfold State.mailWaits
  grind -ring -linarith -order [State.postEvent_mem]

/-- The mailbox is opened and closed around the command's meaning. -/
theorem mailRun_canon (s : State) (m : MailCmd) (opc : Nat) (early : Bool) (k : State → Mailbox → MailOut) (hs : s.canon)
    (hk : ∀ t b, t.canon → MailOut.canon (k t b)) : Out.canon (mailRun s m opc early k) := by
  unfold mailRun
  repeat' split
  all_goals grind -ring -linarith -order [State.openMail_mem, State.mailWaits_canon, State.closeMail_mem, State.fwRequeue_mem,
    State.stoppedBy_getD_mem, MailOut.canon, Out.canon]

theorem scalar_canon (s : State) (b : Mailbox) (word bits : Nat) (k : Nat → MailOut) (hs : s.canon)
    (hk : ∀ i, MailOut.canon (k i)) :
    MailOut.canon (scalar s b word bits k) := by
  unfold scalar
  grind -ring -linarith -order [MailOut.refuse_canon, MailOut.canon]

theorem ctxScalar_canon (s : State) (b : Mailbox) (word : Nat) (k : Ctx → MailOut) (hs : s.canon) (hk : ∀ y, MailOut.canon (k y))
    :
    MailOut.canon (ctxScalar s b word k) := by
  unfold ctxScalar
  grind -ring -linarith -order [scalar_canon, MailOut.refuse_canon, MailOut.canon]

@[simp] theorem State.mailPut_mem (s : State) (m : MailCmd) (off n v : Nat) : (s.mailPut m off n v).mem = s.mem :=
  State.setMail_mem _ _ _

theorem execStatus_canon (m : MailCmd) (s : State) (hs : s.canon) : Out.canon (execStatus m s) := by
  unfold execStatus
  refine mailRun_canon s m _ _ _ hs fun t b ht => ?_
  grind -ring -linarith -order [State.mailPut_mem, MailOut.done_canon, foldl_canon, MailOut.canon, Out.canon]

theorem execOchrerd_canon (m : MailCmd) (s : State) (hs : s.canon) : Out.canon (execOchrerd m s) := by
  unfold execOchrerd
  refine mailRun_canon s m _ _ _ hs fun t b ht => scalar_canon t b _ _ _ ht fun v => ?_
  grind -ring -linarith -order [MailOut.done_canon, State.mailPut_mem, MailOut.refuse_canon, MailOut.canon, Out.canon]

theorem execUnfence_canon (m : MailCmd) (s : State) (hs : s.canon) : Out.canon (execUnfence m s) := by
  unfold execUnfence
  refine mailRun_canon s m _ _ _ hs fun t b ht => scalar_canon t b _ _ _ ht fun v => ?_
  grind -ring -linarith -order [MailOut.done_canon, State.setUnit_mem, MailOut.refuse_canon, MailOut.canon, Out.canon]

theorem execRegctx_canon (m : MailCmd) (s : State) (hs : s.canon) : Out.canon (execRegctx m s) := by
  unfold execRegctx
  refine mailRun_canon s m _ _ _ hs fun t b ht => ?_
  grind -ring -linarith -order [MailOut.refuse_canon, MailOut.done_canon, MailOut.canon, Out.canon]

@[simp] theorem State.clearTable_mem (s : State) (num : Nat) : (s.clearTable num).mem = s.mem := rfl

theorem execRegq_canon (m : MailCmd) (s : State) (hs : s.canon) : Out.canon (execRegq m s) := by
  unfold execRegq
  refine mailRun_canon s m _ _ _ hs fun t b ht => scalar_canon t b _ _ _ ht fun v => ?_
  grind -ring -linarith -order [MailOut.refuse_canon, State.clearTable_mem, MailOut.done_canon, MailOut.canon, Out.canon]

theorem execRegmem_canon (m : MailCmd) (s : State) (hs : s.canon) : Out.canon (execRegmem m s) := by
  unfold execRegmem
  refine mailRun_canon s m _ _ _ hs fun t b ht => ctxScalar_canon t b _ _ ht fun x => ?_
  dsimp only
  split
  · exact MailOut.refuse_canon t 3 ht
  · have hr := readRanges_canon x.ctxid 257 (bitsOf (b.words 1 4) 52 0) t ht
    split
    · next u e =>
      rw [e] at hr
      rwa [MailOut.canon]
    · next u e =>
      rw [e] at hr
      exact MailOut.refuse_canon u 11 hr
    · next rs u e =>
      rw [e] at hr
      split
      · exact MailOut.refuse_canon u 11 hr
      · exact MailOut.done_canon _ hr

theorem execRegjoin_canon (m : MailCmd) (s : State) (hs : s.canon) : Out.canon (execRegjoin m s) := by
  unfold execRegjoin
  refine mailRun_canon s m _ _ _ hs fun t b ht => scalar_canon t b _ _ _ ht fun die => ctxScalar_canon t b _ _ ht fun x => ?_
  grind -ring -linarith -order [MailOut.refuse_canon, MailOut.done_canon, State.setJoin_mem]

theorem execRegspare_canon (m : MailCmd) (s : State) (hs : s.canon) : Out.canon (execRegspare m s) := by
  unfold execRegspare
  refine mailRun_canon s m _ _ _ hs fun t b ht => ?_
  grind -ring -linarith -order [MailOut.refuse_canon, MailOut.done_canon, State.toReady_mem, MailOut.canon, Out.canon]

theorem execResume_canon (m : MailCmd) (s : State) (hs : s.canon) : Out.canon (execResume m s) := by
  unfold execResume
  refine mailRun_canon s m _ _ _ hs fun t b ht => ctxScalar_canon t b _ _ ht fun x => ?_
  grind -ring -linarith -order [State.resumeCtx_canon, MailOut.done_canon, MailOut.refuse_canon, Each, MailOut.canon]

theorem execDestroy_canon (m : MailCmd) (s : State) (hs : s.canon) : Out.canon (execDestroy m s) :=
  mailRun_canon s m _ _ _ hs fun t b ht => ctxScalar_canon t b _ _ ht fun x => MailOut.done_canon _ (t.destroyCtx_canon x.ctxid ht)

theorem execHalt_canon (m : MailCmd) (s : State) (hs : s.canon) : Out.canon (execHalt m s) :=
  mailRun_canon s m _ _ _ hs fun t b ht => ctxScalar_canon t b _ _ ht fun x =>
    MailOut.done_canon _ ((congrArg Memory.wf (t.stopContext_mem x.ctxid _ _ _ _)).trans ht)

theorem execCounters_canon (m : MailCmd) (s : State) (hs : s.canon) : Out.canon (execCounters m s) := by
  unfold execCounters
  refine mailRun_canon s m _ _ _ hs fun t b ht => scalar_canon t b _ _ _ ht fun v => ?_
  grind -ring -linarith -order [MailOut.done_canon, State.mailPut_mem, foldl_canon, MailOut.canon, Out.canon]

theorem hostReach_canon (s t : State) (hs : s.canon) (ht : t.canon) : Out.canon (hostReach s t) := by
  unfold hostReach
  grind -ring -linarith -order [Out.canon]

theorem execNotifyWrite_canon (queue : Nat) (value : DWord) (s : State) (hs : s.canon) :
    Out.canon (execNotifyWrite queue value s) := by
  unfold execNotifyWrite
  grind -ring -linarith -order [hostReach_canon, State.notify_mem, Out.canon]

theorem execStepdoneWrite_canon (value : DWord) (s : State) (hs : s.canon) : Out.canon (execStepdoneWrite value s) := by
  unfold execStepdoneWrite
  grind -ring -linarith -order [hostReach_canon, State.memPageWrite_mem, Out.canon]

theorem execCkptWrite_canon (value : DWord) (s : State) (hs : s.canon) : Out.canon (execCkptWrite value s) := by
  unfold execCkptWrite
  grind -ring -linarith -order [hostReach_canon, State.memPageWrite_mem, Out.canon]

theorem execRewardPageWrite_canon (offset : Nat) (bytes : List Byte) (s : State) (hs : s.canon) :
    Out.canon (execRewardPageWrite offset bytes s) := by
  unfold execRewardPageWrite
  grind -ring -linarith -order [hostReach_canon, State.setJoin_mem, State.sendReward_mem, Out.canon]

theorem execUnlistedRegisterWrite_canon (offset : Nat) (bytes : List Byte) (s : State) (hs : s.canon) :
    Out.canon (execUnlistedRegisterWrite offset bytes s) := by
  unfold execUnlistedRegisterWrite
  grind -ring -linarith -order [hostReach_canon, State.hostWrite_mem, Out.canon]

theorem execRoutingTableWrite_canon (die : Nat) (faddr : BitVec 20) (port : Nat) (s : State) (hs : s.canon) :
    Out.canon (execRoutingTableWrite die faddr port s) := hs

/-! ### Machine/Defence.lean -/

/-- A window that matches is performed; of one that does not, the beats before the mismatch are. -/
theorem State.cohortWindow_canon (s : State) (x : Ctx) (c : Cohort) (twin : Option Cohort) (hs : s.canon) :
    ∀ t, s.cohortWindow x c twin = some t → t.canon := by
  unfold State.cohortWindow
  intro t h
  dsimp only at h
  repeat' split at h
  · cases h
  · grind -ring -linarith -order [State.performWindow_canon]
  · simp only [Option.bind_eq_some_iff, Option.map_eq_some_iff] at h
    obtain ⟨d, -, w, -, h⟩ := h
    grind -ring -linarith -order [State.performWindow_canon, State.leaveEnded_canon, State.setCohort_mem, State.causeAside_mem,
      performBeat_canon, foldl_canon]

/-- Whichever job of the cohort comes first, its window is performed or withheld. -/
theorem State.jobWindow_canon (s : State) (cid : Nat) (hs : s.canon) : ∀ t, s.jobWindow cid = some t → t.canon := by
  intro t h
  obtain ⟨j, -, hj⟩ := List.exists_of_findSome?_eq_some h
  dsimp only at hj
  repeat' split at hj
  all_goals grind -ring -linarith -order [State.setJob_mem, performBeat_canon, State.jobCause_mem, foldl_canon]

theorem execIndigoWindowCompare_canon (cid : Nat) (s : State) (hs : s.canon) : Out.canon (execIndigoWindowCompare cid s) := by
  have pick (o : Option State) (ho : ∀ t, o = some t → t.canon) : ((o <|> s.jobWindow cid).getD s).canon := by
    cases o with
    | some t => exact ho t rfl
    | none =>
      cases h : s.jobWindow cid with
      | none => exact hs
      | some t => exact s.jobWindow_canon cid hs t h
  unfold execIndigoWindowCompare
  refine pick _ fun t ht => ?_
  grind -ring -linarith -order [State.cohortWindow_canon]

@[simp] theorem State.reportFailed_mem (s : State) : s.reportFailed.mem = s.mem := rfl

@[simp] theorem State.checkFirmware_mem (s : State) (u : BitVec 16) : (s.checkFirmware u).mem = s.mem := by
  unfold State.checkFirmware
  dsimp only
  repeat' split
  all_goals simp [foldl_mem]

theorem execReplayRateFence_canon (unit : BitVec 16) (s : State) (hs : s.canon) : Out.canon (execReplayRateFence unit s) := by
  unfold execReplayRateFence
  grind -ring -linarith -order [State.checkFirmware_mem, State.setUnit_mem, Out.canon]

theorem execOchreTest_canon (unit : BitVec 16) (s : State) (hs : s.canon) : Out.canon (execOchreTest unit s) := by
  unfold execOchreTest
  grind -ring -linarith -order [State.setUnit_mem, Out.canon]

theorem execOchreTestComplete_canon (unit : BitVec 16) (pass workArrived : Bool) (s : State) (hs : s.canon) :
    Out.canon (execOchreTestComplete unit pass workArrived s) := by
  unfold execOchreTestComplete
  grind -ring -linarith -order [State.setUnit_mem, State.checkFirmware_mem, Out.canon]

@[simp] theorem State.trimL2_mem (s : State) (home : Nat × Nat × Nat) : (s.trimL2 home).mem = s.mem := rfl

@[simp] theorem State.retireSlice_mem (s : State) (die slice : Nat) : (s.retireSlice die slice).mem = s.mem := by
  unfold State.retireSlice
  dsimp only
  repeat' split
  all_goals simp [foldl_mem]

theorem execWayDisable_canon (die slice set way : Nat) (s : State) (hs : s.canon) :
    Out.canon (execWayDisable die slice set way s) := by
  unfold execWayDisable
  grind -ring -linarith -order [State.setL2Set_mem, State.retireSlice_mem, State.trimL2_mem, Out.canon]

theorem execFirmwareEvent_canon (die : Nat) (s : State) (hs : s.canon) : Out.canon (execFirmwareEvent die s) := by
  unfold execFirmwareEvent
  dsimp only
  have hp := foldl_mem (fun t e => t.postEvent die e) (fun t e => t.postEvent_mem die e) (s.dueFirmware die) s
  generalize (s.dueFirmware die).foldl (fun t e => t.postEvent die e) s = u at hp
  repeat' split
  all_goals grind -ring -linarith -order [State.setDie_mem, State.startSuccessor_canon, State.fwCommit_mem, State.fwRequeue_mem,
    State.stoppedBy_getD_mem, Each, Out.canon]

theorem execFirmwareCoreError_canon (die core : Nat) (testPass : Bool) (s : State) (hs : s.canon) :
    Out.canon (execFirmwareCoreError die core testPass s) := by
  unfold execFirmwareCoreError
  grind -ring -linarith -order [State.setDie_mem, State.checkFirmware_mem, State.setUnit_mem, Out.canon]

theorem State.applyEffect_canon (s : State) (e : FwEffect) (hs : s.canon) : (s.applyEffect e).canon := by
  unfold State.applyEffect
  grind -ring -linarith -order [State.writeMem_canon, State.setMail_mem]

theorem execFrontEndReset_canon (die : Nat) (s : State) (hs : s.canon) : Out.canon (execFrontEndReset die s) := by
  unfold execFrontEndReset
  grind -ring -linarith -order [State.setDie_mem, State.applyEffect_canon, State.fwCommit_mem, State.readEntry_canon,
    orBefore_canon, foldl_canon, Each, Out.canon]

theorem execThermalThrottle_canon (die tempC : Nat) (s : State) (hs : s.canon) : Out.canon (execThermalThrottle die tempC s) := by
  unfold execThermalThrottle
  grind -ring -linarith -order [State.setDie_mem, Out.canon]

theorem execThrottleEnd_canon (die tempC : Nat) (s : State) (hs : s.canon) : Out.canon (execThrottleEnd die tempC s) := by
  unfold execThrottleEnd
  grind -ring -linarith -order [State.setDie_mem, Out.canon]

@[simp] theorem State.powerOff_mem (s : State) : s.powerOff.mem = s.mem := by
  unfold State.powerOff
  split <;> rfl

theorem execOverTemperatureShutdown_canon (die tempC : Nat) (s : State) (hs : s.canon) :
    Out.canon (execOverTemperatureShutdown die tempC s) := by
  unfold execOverTemperatureShutdown
  grind -ring -linarith -order [State.powerOff_mem, State.stopContext_mem, foldl_canon, Out.canon]

theorem execTelemetryReport_canon (powerW inletC outletC junctionC : Nat) (s : State) (hs : s.canon) :
    Out.canon (execTelemetryReport powerW inletC outletC junctionC s) := by
  unfold execTelemetryReport
  grind -ring -linarith -order [Out.canon]

/-- What is kept over a reset is a part of memory. -/
theorem State.kept_canon (s : State) (hs : s.canon) : s.kept.canon := Memory.wf_filter _ _ hs

theorem execModuleReset_canon (b : BootInfo) (s : State) (hs : s.canon) : Out.canon (execModuleReset b s) := by
  unfold execModuleReset
  grind -ring -linarith -order [State.kept_canon, Out.canon]

theorem execCxlMemAccess_canon (pa size : Nat) (write : Option (List Byte)) (s : State) (hs : s.canon) :
    Out.canon (execCxlMemAccess pa size write s) := by
  unfold execCxlMemAccess
  grind -ring -linarith -order [State.store_wf, Out.canon]

theorem execCxlCacheSnoop_canon (lineAddr : Nat) (write : Option Line) (s : State) (hs : s.canon) :
    Out.canon (execCxlCacheSnoop lineAddr write s) := by
  unfold execCxlCacheSnoop
  grind -ring -linarith -order [State.writeMem_canon, Out.canon]

theorem execSpdmRequest_canon (code : Byte) (block : Nat) (s : State) (hs : s.canon) :
    Out.canon (execSpdmRequest code block s) := by
  unfold execSpdmRequest
  grind -ring -linarith -order [Out.canon]

/-! ### Machine/Dispatch.lean -/

/-- One instruction or event: the case split of `exec`, an arm each. -/
theorem exec_canon (i : Instr) (s : State) (hs : s.canon) : Out.canon (exec i s) := by
  cases i with
  | accalloc f => exact execAccalloc_canon f s hs
  | accfree f => exact execAccfree_canon f s hs
  | and f => exact execAnd_canon f s hs
  | andn f => exact execAndn_canon f s hs
  | arrive f => exact execArrive_canon f s hs
  | assert f => exact execAssert_canon f s hs
  | atom f => exact execAtom_canon f s hs
  | awaitc f => exact execAwaitc_canon f s hs
  | bar f => exact execBar_canon f s hs
  | barinit f => exact execBarinit_canon f s hs
  | bcast f => exact execBcast_canon f s hs
  | bfi f => exact execBfi_canon f s hs
  | bfx f => exact execBfx_canon f s hs
  | bkpt f => exact execBkpt_canon f s hs
  | bpass f => exact execBpass_canon f s hs
  | bra f => exact execBra_canon f s hs
  | brev f => exact execBrev_canon f s hs
  | btake f => exact execBtake_canon f s hs
  | bwait f => exact execBwait_canon f s hs
  | call f => exact execCall_canon f s hs
  | callInd f => exact execCallInd_canon f s hs
  | cctl f => exact execCctl_canon f s hs
  | cfence f => exact execCfence_canon f s hs
  | clz f => exact execClz_canon f s hs
  | coll f => exact execColl_canon f s hs
  | copy f => exact execCopy_canon f s hs
  | cvt f => exact execCvt_canon f s hs
  | cvtpk f => exact execCvtpk_canon f s hs
  | cwait f => exact execCwait_canon f s hs
  | cwaitSplit f => exact execCwaitSplit_canon f s hs
  | epapp f => exact execEpapp_canon f s hs
  | epend f => exact execEpend_canon f s hs
  | epi f => exact execEpi_canon f s hs
  | epiRec f => exact execEpiRec_canon f s hs
  | exit f => exact execExit_canon f s hs
  | fadd f => exact execFadd_canon f s hs
  | fsub f => exact execFsub_canon f s hs
  | fmul f => exact execFmul_canon f s hs
  | ffma f => exact execFfma_canon f s hs
  | fcmp f => exact execFcmp_canon f s hs
  | fence f => exact execFence_canon f s hs
  | fmax f => exact execFmax_canon f s hs
  | fmin f => exact execFmin_canon f s hs
  | frnd f => exact execFrnd_canon f s hs
  | fsfn f => exact execFsfn_canon f s hs
  | gate f => exact execGate_canon f s hs
  | gather f => exact execGather_canon f s hs
  | iabs f => exact execIabs_canon f s hs
  | iadd f => exact execIadd_canon f s hs
  | isub f => exact execIsub_canon f s hs
  | iaddmin f => exact execIaddmin_canon f s hs
  | icmp f => exact execIcmp_canon f s hs
  | idp2 f => exact execIdp2_canon f s hs
  | idp4 f => exact execIdp4_canon f s hs
  | imad f => exact execImad_canon f s hs
  | imax f => exact execImax_canon f s hs
  | imin f => exact execImin_canon f s hs
  | imul f => exact execImul_canon f s hs
  | imulh f => exact execImulh_canon f s hs
  | jmp f => exact execJmp_canon f s hs
  | jmpInd f => exact execJmpInd_canon f s hs
  | ld f => exact execLd_canon f s hs
  | lea f => exact execLea_canon f s hs
  | lqdone f => exact execLqdone_canon f s hs
  | lqtake f => exact execLqtake_canon f s hs
  | lqtakeSplit f => exact execLqtakeSplit_canon f s hs
  | lqtakeTry f => exact execLqtakeTry_canon f s hs
  | lrel f => exact execLrel_canon f s hs
  | mbatch f => exact execMbatch_canon f s hs
  | mfs f => exact execMfs_canon f s hs
  | mma f => exact execMma_canon f s hs
  | mov f => exact execMov_canon f s hs
  | mts f => exact execMts_canon f s hs
  | mwait f => exact execMwait_canon f s hs
  | nop f => exact execNop_canon f s hs
  | not f => exact execNot_canon f s hs
  | or f => exact execOr_canon f s hs
  | xor f => exact execXor_canon f s hs
  | park f => exact execPark_canon f s hs
  | pgreq f => exact execPgreq_canon f s hs
  | pgreqSplit f => exact execPgreqSplit_canon f s hs
  | plop f => exact execPlop_canon f s hs
  | popc f => exact execPopc_canon f s hs
  | pref f => exact execPref_canon f s hs
  | rcopy f => exact execRcopy_canon f s hs
  | red f => exact execRed_canon f s hs
  | redl f => exact execRedl_canon f s hs
  | scanl f => exact execScanl_canon f s hs
  | ret f => exact execRet_canon f s hs
  | rwdsend f => exact execRwdsend_canon f s hs
  | rwr f => exact execRwr_canon f s hs
  | rwrVec f => exact execRwrVec_canon f s hs
  | scatter f => exact execScatter_canon f s hs
  | sel f => exact execSel_canon f s hs
  | shfl f => exact execShfl_canon f s hs
  | slide f => exact execSlide_canon f s hs
  | swzx f => exact execSwzx_canon f s hs
  | shl f => exact execShl_canon f s hs
  | shr f => exact execShr_canon f s hs
  | shra f => exact execShra_canon f s hs
  | shrrn f => exact execShrrn_canon f s hs
  | st f => exact execSt_canon f s hs
  | tmark f => exact execTmark_canon f s hs
  | trap f => exact execTrap_canon f s hs
  | tret f => exact execTret_canon f s hs
  | twin f => exact execTwin_canon f s hs
  | vexp f => exact execVexp_canon f s hs
  | vshape f => exact execVshape_canon f s hs
  | vsqz f => exact execVsqz_canon f s hs
  | vote f => exact execVote_canon f s hs
  | xfma2 f => exact execXfma2_canon f s hs
  | yield f => exact execYield_canon f s hs
  | status m => exact execStatus_canon m s hs
  | regctx m => exact execRegctx_canon m s hs
  | regq m => exact execRegq_canon m s hs
  | regmem m => exact execRegmem_canon m s hs
  | regjoin m => exact execRegjoin_canon m s hs
  | regspare m => exact execRegspare_canon m s hs
  | resume m => exact execResume_canon m s hs
  | destroy m => exact execDestroy_canon m s hs
  | halt m => exact execHalt_canon m s hs
  | ochrerd m => exact execOchrerd_canon m s hs
  | unfence m => exact execUnfence_canon m s hs
  | counters m => exact execCounters_canon m s hs
  | notifyWrite queue value => exact execNotifyWrite_canon queue value s hs
  | stepdoneWrite value => exact execStepdoneWrite_canon value s hs
  | ckptWrite value => exact execCkptWrite_canon value s hs
  | rewardPageWrite offset bytes => exact execRewardPageWrite_canon offset bytes s hs
  | unlistedRegisterWrite offset bytes => exact execUnlistedRegisterWrite_canon offset bytes s hs
  | packetAccept queue => exact execPacketAccept_canon queue s hs
  | launch queue seq => exact execLaunch_canon queue seq s hs
  | bundle queue seq => exact execBundle_canon queue seq s hs
  | inval queue seq => exact execInval_canon queue seq s hs
  | collProgramStep prog peers mismatch => exact execCollProgramStep_canon prog peers mismatch s hs
  | packetComplete queue seq => exact execPacketComplete_canon queue seq s hs
  | workgroupPlacement die => exact execWorkgroupPlacement_canon die s hs
  | reservation die => exact execReservation_canon die s hs
  | preemptionSave wg => exact execPreemptionSave_canon wg s hs
  | preemptionTimeout wg => exact execPreemptionTimeout_canon wg s hs
  | workgroupRestore saved => exact execWorkgroupRestore_canon saved s hs
  | continuationResume die => exact execContinuationResume_canon die s hs
  | rwrLanding sender => exact execRwrLanding_canon sender s hs
  | bankGrant core => exact execBankGrant_canon core s hs
  | bankReturn core bank => exact execBankReturn_canon core bank s hs
  | matrixStep core => exact execMatrixStep_canon core s hs
  | jobComplete job => exact execJobComplete_canon job s hs
  | jobResume job => exact execJobResume_canon job s hs
  | pageMakeResident ctx va => exact execPageMakeResident_canon ctx va s hs
  | pagePinExpiry ctx va => exact execPagePinExpiry_canon ctx va s hs
  | combiningFlush core => exact execCombiningFlush_canon core s hs
  | starvationQualify cid => exact execStarvationQualify_canon cid s hs
  | yieldExpiry cid => exact execYieldExpiry_canon cid s hs
  | readPin core slot bank cid losses => exact execReadPin_canon core slot bank cid losses s hs
  | collectiveStart coll => exact execCollectiveStart_canon coll s hs
  | collectiveComplete coll peers mismatch => exact execCollectiveComplete_canon coll peers mismatch s hs
  | pullRequest src gen txid core line => exact execPullRequest_canon src gen txid core line s hs
  | pullLineRead pull => exact execPullLineRead_canon pull s hs
  | pullResponse txid refused data => exact execPullResponse_canon txid refused data s hs
  | pullReissue txid => exact execPullReissue_canon txid s hs
  | flitReceive port flit => exact execFlitReceive_canon port flit s hs
  | portFail port linkLoss => exact execPortFail_canon port linkLoss s hs
  | heldPacketTimeout port => exact execHeldPacketTimeout_canon port s hs
  | podBarrierArrive p => exact execPodBarrierArrive_canon p s hs
  | podBarrierComplete p => exact execPodBarrierComplete_canon p s hs
  | podBarrierResend cid => exact execPodBarrierResend_canon cid s hs
  | heartbeatSend peer => exact execHeartbeatSend_canon peer s hs
  | heartbeatReceive h => exact execHeartbeatReceive_canon h s hs
  | heartbeatMiss peer => exact execHeartbeatMiss_canon peer s hs
  | suspect m => exact execSuspect_canon m s hs
  | withdraw m => exact execWithdraw_canon m s hs
  | prepare m => exact execPrepare_canon m s hs
  | promise m => exact execPromise_canon m s hs
  | propose m => exact execPropose_canon m s hs
  | accept m => exact execAccept_canon m s hs
  | proposalRetry => exact execProposalRetry_canon s hs
  | commit m => exact execCommit_canon m s hs
  | joined m => exact execJoined_canon m s hs
  | sealStep step => exact execSealStep_canon step s hs
  | cloneRequest src gen txid stripe step fingerprint => exact execCloneRequest_canon src gen txid stripe step fingerprint s hs
  | cloneResponse src stripe reason fingerprint data => exact execCloneResponse_canon src stripe reason fingerprint data s hs
  | rewardMessage die fromPort m => exact execRewardMessage_canon die fromPort m s hs
  | rewardAcknowledgement txid => exact execRewardAcknowledgement_canon txid s hs
  | rewardUnacknowledged txid => exact execRewardUnacknowledged_canon txid s hs
  | rewardHoldTimeout die => exact execRewardHoldTimeout_canon die s hs
  | orphanTimeout die => exact execOrphanTimeout_canon die s hs
  | joinTimeout die entry => exact execJoinTimeout_canon die entry s hs
  | episodeRelease die => exact execEpisodeRelease_canon die s hs
  | cohortStop cid => exact execCohortStop_canon cid s hs
  | engineStop ctx => exact execEngineStop_canon ctx s hs
  | stopAreaWrite ctx => exact execStopAreaWrite_canon ctx s hs
  | indigoWindowCompare cid => exact execIndigoWindowCompare_canon cid s hs
  | replayRateFence unit => exact execReplayRateFence_canon unit s hs
  | ochreTest unit => exact execOchreTest_canon unit s hs
  | ochreTestComplete unit pass workArrived => exact execOchreTestComplete_canon unit pass workArrived s hs
  | wayDisable die slice set way => exact execWayDisable_canon die slice set way s hs
  | firmwareCoreError die core testPass => exact execFirmwareCoreError_canon die core testPass s hs
  | firmwareEvent die => exact execFirmwareEvent_canon die s hs
  | frontEndReset die => exact execFrontEndReset_canon die s hs
  | thermalThrottle die tempC => exact execThermalThrottle_canon die tempC s hs
  | throttleEnd die tempC => exact execThrottleEnd_canon die tempC s hs
  | overTemperatureShutdown die tempC => exact execOverTemperatureShutdown_canon die tempC s hs
  | telemetryReport powerW inletC outletC junctionC => exact execTelemetryReport_canon powerW inletC outletC junctionC s hs
  | moduleReset b => exact execModuleReset_canon b s hs
  | lineLands job => exact execLineLands_canon job s hs
  | cxlMemAccess pa size write => exact execCxlMemAccess_canon pa size write s hs
  | cxlCacheSnoop lineAddr write => exact execCxlCacheSnoop_canon lineAddr write s hs
  | spdmRequest code block => exact execSpdmRequest_canon code block s hs
  | rankTableRegistration t => exact execRankTableRegistration_canon t s hs
  | routingTableWrite die faddr port => exact execRoutingTableWrite_canon die faddr port s hs

/-! ### Machine/Issue.lean -/

@[simp] theorem State.raiseFetch_mem (s : State) (c : Cohort) (va : DWord) (group reason : Nat) :
    (s.raiseFetch c va group reason).mem = s.mem :=
  State.raise_mem _ _ _ _ _

@[simp] theorem State.noteIssue_mem (s : State) (cid key : Nat) (yl : Bool) : (s.noteIssue cid key yl).mem = s.mem := rfl

theorem onNext_canon (o : Out) (k : State → State) (ho : Out.canon o) (hk : ∀ t, t.canon → (k t).canon) :
    Out.canon (onNext o k) := by
  unfold onNext
  grind -ring -linarith -order [Out.canon]

theorem State.rowsAfter_canon (s : State) (i : Instr) (c : Cohort) (hs : s.canon) : (s.rowsAfter i c).canon := by
  unfold State.rowsAfter
  grind -ring -linarith -order [State.setCohort_mem, State.settleRows_canon]

theorem State.afterIssue_canon (i : Instr) (c : Cohort) (s : State) (hs : s.canon) : (State.afterIssue i c s).canon := by
  unfold State.afterIssue
  grind -ring -linarith -order [State.rowsAfter_canon, State.podTryAll_mem, State.noteIssue_mem]

@[simp] theorem State.withShared_mem (s : State) (d : Nat) (mgen lqver : Word) : (s.withShared d mgen lqver).mem = s.mem := by
  unfold State.withShared
  split <;> rfl

/-- `exec`, in the state or in the one with the primary's $MGEN and $LQVER. -/
theorem State.meaning_canon (s : State) (c : Cohort) (i : Instr) (hs : s.canon) : Out.canon (s.meaning c i) := by
  unfold State.meaning
  grind -ring -linarith -order [exec_canon, waitHere_canon, State.fwdGive_mem, State.setCohort_mem, State.withShared_mem,
    Out.canon]

@[simp] theorem State.rewritten_mem (s : State) (i : Instr) (c : Cohort) : (s.rewritten i c).mem = s.mem := rfl

theorem State.pathChecked_canon (s : State) (i : Instr) (c : Cohort) (t : State) (hs : s.canon) (ht : t.canon) :
    (s.pathChecked i c t).canon := by
  unfold State.pathChecked
  grind -ring -linarith -order [State.replayFails_mem, State.setCohort_mem, State.raise_mem, State.rewritten_mem,
    State.replayed_mem]

@[simp] theorem State.skipDead_mem (s : State) (c : Cohort) : (s.skipDead c).mem = s.mem := by
  unfold State.skipDead
  split <;> simp

/-- An instruction run: operands collected, the meaning, then what follows every issue. -/
theorem State.run_canon (s : State) (c : Cohort) (i : Instr) (hs : s.canon) : Out.canon (s.run c i) := by
  unfold State.run
  grind -ring -linarith -order [State.raiseReason_mem, State.collect_canon, onNext_canon, State.meaning_canon,
    State.afterIssue_canon, State.raise_mem, State.killTwin_mem, State.setCohort_mem, State.noteDead_mem, State.podTryAll_mem,
    State.skipDead_mem, State.pathChecked_canon, Out.canon]

theorem State.endMerge_canon (s : State) (c : Cohort) (hs : s.canon) : (s.endMerge c).canon := by
  unfold State.endMerge
  grind -ring -linarith -order [State.setCohort_mem, State.release_canon]

/-- A cohort's issue: fetch, decode, run. -/
theorem State.issue_canon (s : State) (c : Cohort) (x : Ctx) (hs : s.canon) : Out.canon (s.issue c x) := by
  unfold State.issue
  grind -ring -linarith -order [State.setCohort_mem, State.endMerge_canon, State.fetchWord_canon, State.raiseFetch_mem,
    State.raise_mem, State.run_canon, Out.canon]

/-! ### Machine/Time.lean -/

@[simp] theorem State.after_mem (s : State) (dt : Nat) : (s.after dt).mem = s.mem := rfl

@[simp] theorem State.strike_mem (s : State) (u : Upset) : (s.strike u).mem = s.mem := by
  unfold State.strike
  repeat' split
  all_goals simp

@[simp] theorem State.noteWork_mem (s : State) : s.noteWork.mem = s.mem := rfl

theorem State.serveTakers_canon (s : State) (t : Turn) (hs : s.canon) : (s.serveTakers t).canon := by
  unfold State.serveTakers
  grind -ring -linarith -order [State.deliver_canon, foldl_canon]

theorem State.starved_canon (s : State) (dt : Nat) (hs : s.canon) : (s.starved dt).canon := by
  unfold State.starved
  grind -ring -linarith -order

/-- What every turn does before its event or issue. -/
theorem State.beginTurn_canon (s : State) (t : Turn) (hs : s.canon) : (s.beginTurn t).canon := by
  unfold State.beginTurn
  grind -ring -linarith -order [State.fwCommit_mem, State.pollCounters_mem, State.serveTakers_canon, State.after_mem,
    State.strike_mem, State.noteWork_mem, State.starved_canon, foldl_canon]

/-- A turn is an event, executed, or the issue of a cohort. -/
theorem State.turn_canon (s : State) (w : TurnWhat) (hs : s.canon) : Out.canon (s.turn w) := by
  cases w with
  | event e => exact Out.canon_ite (exec_canon e s hs) hs
  | issue k =>
    unfold State.turn
    dsimp only
    split
    · exact hs
    · split
      · exact hs
      · exact Out.canon_ite (State.issue_canon _ _ _ hs) hs

/-! ### Machine/Step.lean -/

/-- EVERY STEP keeps memory canonical, whatever the turn is. -/
theorem step_canon (s : State) (hs : s.canon) : Out.canon (step s) :=
  State.turn_canon _ _ (s.beginTurn_canon s.nextTurn hs)

/-- Settles O47: `step` is the next turn begun and run, and both keep the form; the machine's outcome is then `.next t`. -/
theorem memoryStaysCanonical : Obligations.MemoryStaysCanonical := by
  unfold Obligations.MemoryStaysCanonical
  intro s t hs hstep
  have kept : Out.canon (step s) := step_canon s hs
  rw [hstep] at kept
  exact t.canon_iff_memoryCanonical.mp kept

end Sys2Proof.Machine
end

section
/-!
Control state (O16, O17, O18): which slot issues (R35), the rounds of the procedure of R34, and a branch (R33, R36).
-/

namespace Sys2Proof.Machine

set_option Elab.async false

/-! ### The slots (R34, R35) -/

/-- A slot can issue when it is live and does not wait at J (R34). -/
theorem Cohort.slotReady_iff (c : Cohort) (x : Bool) :
    c.slotReady x = true ↔ ∃ p, c.slot x = some p ∧ (c.j = noneJ ∨ p.pc ≠ c.j) := by
  unfold Cohort.slotReady
  cases c.slot x <;> simp

/-- The slot that a cohort issues from can issue (R35). -/
theorem Cohort.slotReady_of_issueSlot (c : Cohort) (x : Bool) (h : c.issueSlot? = some x) : c.slotReady x = true := by
  unfold Cohort.issueSlot? at h
  split at h
  case isTrue both =>
    obtain ⟨h0, h1⟩ := Bool.and_eq_true_iff.mp both
    cases x
    · exact h0
    · exact h1
  case isFalse =>
    split at h
    · cases h; assumption
    · split at h
      · cases h; assumption
      · cases h

/-- With one slot able to issue, that one issues (R35). -/
theorem Cohort.issueSlot_of_one (c : Cohort) (x : Bool) (h : c.slotReady x = true) (g : c.slotReady (!x) = false) :
    c.issueSlot? = some x := by
  cases x <;> simp_all [Cohort.issueSlot?]

/-- Settles O18: the cases of `issueSlot?`, which reads the slots and J and never the stack. -/
theorem slotsAlternate : Obligations.SlotsAlternate := by
  unfold Obligations.SlotsAlternate
  intro c st
  refine ⟨fun h0 h1 => ?_, c.issueSlot_of_one, fun h0 h1 => ?_, fun x h => ?_, rfl⟩
  · simp [Cohort.issueSlot?, h0, h1]
  · simp [Cohort.issueSlot?, h0, h1]
  · exact (c.slotReady_iff x).mp (c.slotReady_of_issueSlot x h)

/-! ### The procedure of R34, round by round -/

/-- Outside a handler the whole stack is the cohort's own (R239, R240). -/
theorem Cohort.kernelEntries_of_not_hmode (c : Cohort) (h : c.hmode = false) : c.kernelEntries = 0 := by
  simp [Cohort.kernelEntries, h]

theorem Cohort.pop_nil (c : Cohort) (h : c.stack = []) : c.pop = none := by
  simp [Cohort.pop, h]

/-- Outside a handler a stack that is not empty gives its top entry (R36). -/
theorem Cohort.pop_cons (c : Cohort) (e : StackEntry) (st : List StackEntry) (hm : c.hmode = false) (h : c.stack = e :: st) :
    ∃ n, c.pop = some (e, { c with stack := st, nSpill := n }) := by
  refine ⟨if st.length ≤ c.nSpill then c.nSpill - 8 else c.nSpill, ?_⟩
  simp [Cohort.pop, c.kernelEntries_of_not_hmode hm, h]

/-- The masks of the live slots together. -/
def Cohort.slotsMask (c : Cohort) : Mask := (c.s0.map (·.mask)).getD 0 ||| (c.s1.map (·.mask)).getD 0

/-- The live slots merged at J, before anything comes back from the stack (R34, R38). -/
def Cohort.mergedAtJ (c : Cohort) : Cohort := { c with s0 := some ⟨c.j, c.slotsMask⟩, s1 := none, merged := true }

/-- A live slot that stands elsewhere than at J ends the procedure. -/
theorem Cohort.reconverge_of_elsewhere (n : Nat) (c : Cohort) (x : Bool) (p : PcSlot) (hp : c.slot x = some p)
    (h : c.j = noneJ ∨ p.pc ≠ c.j) : c.reconverge n = c := by
  cases n with
  | zero => rfl
  | succ n =>
    rw [Cohort.reconverge]
    split
    · cases x <;> simp_all [Cohort.slot]
    · refine if_neg ?_
      rintro ⟨hj, w0, w1⟩
      cases x <;> simp_all [Cohort.slot]

/-- With no live slot and nothing to come back the procedure ends. -/
theorem Cohort.reconverge_of_empty (n : Nat) (c : Cohort) (h0 : c.s0 = none) (h1 : c.s1 = none) (hp : c.pop = none) :
    c.reconverge n = c := by
  cases n with
  | zero => rfl
  | succ n => simp [Cohort.reconverge, h0, h1, hp]

/-- With no live slot the top entry comes back in S0, and the procedure goes on. -/
theorem Cohort.settle_of_refill (c d : Cohort) (e : StackEntry) (h0 : c.s0 = none) (h1 : c.s1 = none) (hp : c.pop = some (e, d)) :
    c.settle = Cohort.settle { d with s0 := liveSlot e.pc (e.mask &&& ~~~c.dead), j := e.outer } := by
  have stack := (Cohort.pop_frame c d e hp).2
  simp [Cohort.settle, stack, Cohort.reconverge, h0, h1, hp]

/-- A round in which every live slot stands at J begins with their merge. -/
theorem Cohort.reconverge_of_merge (n : Nat) (c : Cohort) (hj : c.j ≠ noneJ) (live : ∃ x p, c.slot x = some p)
    (atJ : ∀ x p, c.slot x = some p → p.pc = c.j) :
    (c.mergedAtJ.pop = none → c.reconverge (n + 1) = { c.mergedAtJ with j := noneJ }) ∧
    (∀ e d, c.mergedAtJ.pop = some (e, d) →
      c.reconverge (n + 1) = Cohort.reconverge n { d with s1 := liveSlot e.pc (e.mask &&& ~~~c.dead), j := e.outer }) := by
  have at0 : ∀ p, c.s0 = some p → p.pc = c.j := atJ false
  have at1 : ∀ p, c.s1 = some p → p.pc = c.j := atJ true
  have some_live : ¬ (c.s0 = none ∧ c.s1 = none) := by
    rintro ⟨h0, h1⟩
    obtain ⟨x, p, hp⟩ := live
    cases x <;> simp_all [Cohort.slot]
  unfold Cohort.mergedAtJ Cohort.slotsMask
  rw [Cohort.reconverge]
  cases h0 : c.s0 <;> cases h1 : c.s1 <;> simp_all

/-- All live slots at J, and nothing to come back: they merge there and J becomes NONE. -/
theorem Cohort.settle_of_merge_nil (c : Cohort) (hj : c.j ≠ noneJ) (live : ∃ x p, c.slot x = some p)
    (atJ : ∀ x p, c.slot x = some p → p.pc = c.j) (h : c.stack = []) : c.settle = { c.mergedAtJ with j := noneJ } :=
  (c.reconverge_of_merge _ hj live atJ).1 (c.mergedAtJ.pop_nil h)

/-- All live slots at J: they merge there, the top entry comes back in S1, and the procedure goes on. -/
theorem Cohort.settle_of_merge_cons (c : Cohort) (e : StackEntry) (st : List StackEntry) (hm : c.hmode = false) (hj : c.j ≠ noneJ)
    (live : ∃ x p, c.slot x = some p) (atJ : ∀ x p, c.slot x = some p → p.pc = c.j) (h : c.stack = e :: st) :
    ∃ n, c.settle = Cohort.settle
      { c.mergedAtJ with s1 := liveSlot e.pc (e.mask &&& ~~~c.dead), j := e.outer, stack := st, nSpill := n } := by
  obtain ⟨n, hpop⟩ := c.mergedAtJ.pop_cons e st hm h
  refine ⟨n, ?_⟩
  rw [Cohort.settle, (c.reconverge_of_merge _ hj live atJ).2 _ _ hpop, Cohort.settle]
  simp only [h, List.length_cons]

/-- Settles O17: each clause is one round of `Cohort.reconverge`, and a round that goes on leaves one stack entry and one unit of
`Cohort.settle`'s fuel less. -/
theorem slotsReconverge : Obligations.SlotsReconverge := by
  unfold Obligations.SlotsReconverge
  rintro c m hm rfl
  refine ⟨fun x p hp hj hpc => ?_, fun x p hp h => c.reconverge_of_elsewhere _ x p hp h, fun h0 h1 hst => ?_, fun e st h0 h1 hst => ?_,
    fun hj live atJ => ⟨fun hst => c.settle_of_merge_nil hj live atJ hst, fun e st hst => c.settle_of_merge_cons e st hm hj live atJ hst⟩⟩
  · simp [Cohort.slotReady, hp, hj, hpc]
  · exact ⟨c.reconverge_of_empty _ h0 h1 (c.pop_nil hst), by simp [Cohort.ended, h0, h1, hst]⟩
  · obtain ⟨n, hpop⟩ := c.pop_cons e st hm hst
    exact ⟨n, c.settle_of_refill _ e h0 h1 hpop⟩

/-! ### BRA (R33, R355) -/

/-- A push that fits puts the entry on top; only the stack and how much of it lies in the spill area differ (R36). -/
theorem Cohort.push_of_room (c : Cohort) (e : StackEntry) (h : c.stack.length < 287) :
    ∃ d, c.push e = some d ∧ d = { c with stack := e :: c.stack, nSpill := d.nSpill } :=
  ⟨_, if_neg (by omega), rfl⟩

/-- A push that would make 288 entries fails (R36). -/
theorem Cohort.push_of_full (c : Cohort) (e : StackEntry) (h : 287 ≤ c.stack.length) : c.push e = none := if_pos h

/-- The two sides of a divergent branch: the lanes `t` take the other slot to `tgt`, the lanes `n` go on in the issuing one, and
`jn` is their join (R33). -/
def Cohort.diverge (c d : Cohort) (tgt jn : Word) (t n : Mask) : Cohort :=
  { ((d.setSlot (!c.issuer) (some ⟨tgt, t⟩)).setSlot c.issuer (some ⟨c.here.pc + 1, n⟩)) with j := jn, lastS := c.issuer, wait := .none }

theorem Cohort.diverge_slot (c d : Cohort) (tgt jn : Word) (t n : Mask) :
    (c.diverge d tgt jn t n).slot (!c.issuer) = some ⟨tgt, t⟩ ∧ (c.diverge d tgt jn t n).slot c.issuer = some ⟨c.here.pc + 1, n⟩ := by
  unfold Cohort.diverge
  cases c.issuer <;> exact ⟨rfl, rfl⟩

/-- Beside the slots, J, which slot issued last and the wait, a divergent branch changes nothing. -/
theorem Cohort.diverge_frame (c d : Cohort) (tgt jn : Word) (t n : Mask) :
    c.diverge d tgt jn t n = { d with
      s0 := (c.diverge d tgt jn t n).s0, s1 := (c.diverge d tgt jn t n).s1, j := jn, lastS := c.issuer, wait := .none } := by
  unfold Cohort.diverge
  cases c.issuer <;> rfl

/-- Settles O16: the branches of `execBra`; a divergent one leaves `Cohort.diverge` of the cohort, or of the cohort with the other slot
pushed. -/
theorem branchDiverges : Obligations.BranchDiverges := by
  unfold Obligations.BranchDiverges
  rintro s c f t n tgt jn hme ht hn htgt hjn
  have run : exec (.bra f) s = (if t = 0 then finish s c else if n = 0 then .next (s.settleCohort (c.goto tgt)) else
      match c.slot (!c.issuer) with
      | none => .next (s.settleCohort (c.diverge c tgt jn t n))
      | some y => match c.push ⟨y.pc, y.mask, c.j⟩ with
        | none => raiseR s c 12 1
        | some d => .next (s.settleCohort (c.diverge d tgt jn t n))) := by
    subst htgt hjn hn ht
    exact withMe_some s c _ hme
  refine ⟨fun h => ?_, fun h h' => ?_, fun h h' live full => ?_, fun h h' room => ?_⟩
  · rw [run, if_pos h, finish_eq]
  · rw [run, if_neg h, if_pos h']
  · obtain ⟨y, hy⟩ := Option.ne_none_iff_exists'.mp live
    simp only [run, h, h', if_false, hy, c.push_of_full _ full, raiseR]
  · have pushed : ∃ d, exec (.bra f) s = .next (s.settleCohort (c.diverge d tgt jn t n)) ∧
        d = { c with stack := d.stack, nSpill := d.nSpill } ∧
        d.stack = match c.slot (!c.issuer) with
          | some y => ⟨y.pc, y.mask, c.j⟩ :: c.stack
          | none => c.stack := by
      cases hy : c.slot (!c.issuer) with
      | none => exact ⟨c, by simp only [run, h, h', if_false, hy], rfl, rfl⟩
      | some y =>
        obtain ⟨d, hpush, hd⟩ := c.push_of_room ⟨y.pc, y.mask, c.j⟩ (room.resolve_left (by simp [hy]))
        have hstack : d.stack = ⟨y.pc, y.mask, c.j⟩ :: c.stack := by rw [hd]
        exact ⟨d, by simp only [run, h, h', if_false, hy, hpush], by rw [hstack]; exact hd, hstack⟩
    obtain ⟨d, hexec, hd, hstack⟩ := pushed
    have frame := c.diverge_frame d tgt jn t n
    obtain ⟨other, own⟩ := c.diverge_slot d tgt jn t n
    refine ⟨c.diverge d tgt jn t n, hexec, ?_, other, own, ?_⟩
    · generalize c.diverge d tgt jn t n = e at frame ⊢
      rw [frame, hd]
    · exact (congrArg Cohort.stack frame).trans hstack

end Sys2Proof.Machine
end

section
/-!
The slots' and the combining buffer's events, and pages (O54).
-/

namespace Sys2Proof.Machine

set_option Elab.async false

/-! ### Stores that keep no pre-image (R108, R263) -/

/-- Without a registered shard no page is one of it, and without an open view none is copied: a store is the write of its bytes. -/
theorem State.store_of_plainStores (s : State) (key : Nat) (bs : List Byte) (h : s.plainStores) : s.store key bs = s.writeMem key bs := by
  have copy : s.amberCopy key bs.length = s := by
    rcases h with noShard | noView
    · unfold State.amberCopy State.shardPages
      rw [noShard]
      split <;> rfl
    · exact s.amberCopy_noViews key _ noView
  rw [State.store, copy]

/-- A line of the combining buffer laid over memory, byte by byte. -/
def WcLine.over (w : WcLine) (m : List Host.Cell) : List Host.Cell :=
  w.bytes.foldl (fun m b => memSet m (w.line * 128 + b.1) b.2) m

/-- The buffer writes a line's bytes, and the poison over them goes. -/
theorem State.writeWc_of_plainStores (s : State) (w : WcLine) (h : s.plainStores) :
    s.writeWc w = { s with mem := w.over s.mem, poison := (s.writeWc w).poison } := by
  unfold State.writeWc WcLine.over
  induction w.bytes generalizing s with
  | nil => rfl
  | cons b bs ih =>
    rw [List.foldl_cons, List.foldl_cons, s.store_of_plainStores _ _ h]
    exact ih (s.writeMem (w.line * 128 + b.1) [b.2]) h

/-- Bytes at different offsets: each reads as it was written, and every other byte as before. -/
theorem memByte_foldl_memSet (base : Nat) (bs : List (Nat × Byte)) (m : List Host.Cell) (hd : (bs.map Prod.fst).Nodup) :
    (∀ b ∈ bs, memByte (bs.foldl (fun m b => memSet m (base + b.1) b.2) m) (base + b.1) = b.2) ∧
    ∀ a, (∀ b ∈ bs, a ≠ base + b.1) → memByte (bs.foldl (fun m b => memSet m (base + b.1) b.2) m) a = memByte m a := by
  induction bs generalizing m with
  | nil => simp
  | cons b bs ih =>
    rw [List.map_cons, List.nodup_cons] at hd
    obtain ⟨hb, hd⟩ := hd
    obtain ⟨read, keep⟩ := ih (memSet m (base + b.1) b.2) hd
    refine ⟨fun c hc => ?_, fun a ha => ?_⟩
    · rcases List.mem_cons.mp hc with rfl | hc
      · have apart : ∀ d ∈ bs, base + c.1 ≠ base + d.1 := fun d hd' e =>
          hb (List.mem_map.mpr ⟨d, hd', (Nat.add_left_cancel e).symm⟩)
        rw [List.foldl_cons, keep _ apart, memByte_memSet, if_pos rfl]
      · exact read c hc
    · rw [List.forall_mem_cons] at ha
      rw [List.foldl_cons, keep a ha.2, memByte_memSet, if_neg ha.1]

/-- A core's state after it has been replaced. -/
theorem State.core_setCore_of_core (s : State) (c : CoreState) (k : Nat) (h : c.core = k) : (s.setCore c).core k = c := by
  subst h
  exact s.core_setCore c

/-- COMBINING_FLUSH of the only line of a buffer, one that no store has written for 256 cycles and that no atomic holds: its bytes are
written, and no other. -/
theorem execCombiningFlush_old (s : State) (core : Nat) (w : WcLine) (hwc : (s.core core).wc = [w]) (hd : (w.bytes.map Prod.fst).Nodup)
    (hold : w.last + 256 ≤ s.cycle (dieOf core)) (hheld : s.wordHeld (128 * w.line) 128 = false) (hp : s.plainStores) :
    ∃ t, execCombiningFlush core s = .next t ∧ (t.core core).wc = [] ∧ s.onlyAccess t ∧
      (∀ b ∈ w.bytes, memByte t.mem (w.line * 128 + b.1) = b.2) ∧
      ∀ a, (∀ b ∈ w.bytes, a ≠ w.line * 128 + b.1) → memByte t.mem a = memByte s.mem a := by
  have emptied := s.core_setCore_of_core { s.core core with wc := [] } core (s.core_core core)
  have run : execCombiningFlush core s = .next ((s.setCore { s.core core with wc := [] }).writeWc w) := by
    simp [execCombiningFlush, hwc, hold, hheld]
  have written := (s.setCore { s.core core with wc := [] }).writeWc_of_plainStores w hp
  refine ⟨_, run, ?_, ?_, ?_⟩
  · rw [written]; exact congrArg CoreState.wc emptied
  · unfold State.onlyAccess; rw [written]; rfl
  · rw [written]; exact memByte_foldl_memSet (w.line * 128) w.bytes s.mem hd

/-- COMBINING_FLUSH leaves the only line of a buffer where a store has written it since, or an atomic holds a word of it. -/
theorem execCombiningFlush_young (s : State) (core : Nat) (w : WcLine) (hwc : (s.core core).wc = [w])
    (h : s.cycle (dieOf core) < w.last + 256 ∨ s.wordHeld (128 * w.line) 128 = true) :
    ∃ t, execCombiningFlush core s = .next t ∧ t.mem = s.mem ∧ (t.core core).wc = [w] := by
  have run : execCombiningFlush core s = .next (s.setCore { s.core core with wc := [w] }) := by
    rcases h with young | held
    · simp [execCombiningFlush, hwc, Nat.not_le.mpr young]
    · simp [execCombiningFlush, hwc, held]
  exact ⟨_, run, rfl, congrArg CoreState.wc (s.core_setCore_of_core { s.core core with wc := [w] } core (s.core_core core))⟩

/-! ### Selection (R42, R43) -/

theorem execStarvationQualify_starved (s : State) (c : Cohort) (hc : s.cohort? c.cid = some c) (hs : 4084 ≤ c.starve)
    (hw : c.wait = .none ∨ c.wait = .retry) (ht : c.stopped = false) :
    execStarvationQualify c.cid s = .next { s with agenda := { dt := 0, what := .issue c.cid } :: s.agenda } := by
  simp [execStarvationQualify, hc, hs, hw, ht]

theorem execYieldExpiry_due (s : State) (c : Cohort) (n : Nat) (hc : s.cohort? c.cid = some c) (hy : c.yieldUntil = some n)
    (hn : n ≤ s.cycle (dieOf c.core)) : execYieldExpiry c.cid s = .next (s.setCohort { c with yieldUntil := none }) := by
  simp [execYieldExpiry, hc, hy, hn]

/-! ### Pinned reads (R45) -/

/-- The pinned reads of a core that have not been granted by now. -/
def State.livePins (s : State) (core : Nat) : List PinEntry :=
  servePins (s.cycle (dieOf core) - (s.core core).pinsAt) [] (s.core core).pins

/-- One more element between two parts of a list: all of them stay, and it is there. -/
theorem mem_insert_takeWhile {α : Type} (q : α → Bool) (x : α) (l : List α) :
    (∀ y ∈ l, y ∈ l.takeWhile q ++ [x] ++ l.dropWhile q) ∧ x ∈ l.takeWhile q ++ [x] ++ l.dropWhile q ∧
    (l.takeWhile q ++ [x] ++ l.dropWhile q).length = l.length + 1 := by
  refine ⟨fun y hy => ?_, by simp, ?_⟩
  · rw [← l.takeWhile_append_dropWhile (p := q), List.mem_append] at hy
    simp only [List.mem_append]
    tauto
  · have := congrArg List.length (l.takeWhile_append_dropWhile (p := q))
    simp only [List.length_append, List.length_singleton] at this ⊢
    omega

/-- READ_PIN leaves the core with some list of pinned reads: the live ones, and where the read is pinned one more, put between two parts of
them. -/
theorem execReadPin_cases (core slot bank cid losses : Nat) (s : State) :
    ∃ ps, execReadPin core slot bank cid losses s =
        .next (s.setCore { s.core core with pins := ps, pinsAt := s.cycle (dieOf core) }) ∧
      (if losses < 3 ∨ 4 ≤ (((s.livePins core).filter fun p => p.slot == slot && p.cid != cid).map (·.cid)).eraseDups.length ∨
          12 ≤ ((s.livePins core).filter fun p => p.slot == slot && p.cid == cid).length ∨
          s.bankGrants core slot bank (s.livePins core) ((s.onSlot core slot).map (·.cid)) = some cid then ps = s.livePins core
        else ∃ q, ps = (s.livePins core).takeWhile q ++ [⟨slot, bank, cid, s.cycle (dieOf core)⟩] ++ (s.livePins core).dropWhile q) := by
  unfold execReadPin
  simp only [beq_iff_eq]
  split
  case isTrue lost => exact ⟨_, rfl, by rw [State.livePins, if_pos lost]⟩
  case isFalse pinned => exact ⟨_, rfl, by rw [State.livePins, if_neg pinned]; exact ⟨_, rfl⟩⟩

/-- READ_PIN: the pinned reads that are live stay, and one that has lost its bank joins them unless the collector is full or its bank grants
it. -/
theorem execReadPin_pins (core slot bank cid losses : Nat) (s : State) :
    ∃ t, execReadPin core slot bank cid losses s = .next t ∧ t = { s with cores := t.cores } ∧
      t.core core = { s.core core with pins := (t.core core).pins, pinsAt := s.cycle (dieOf core) } ∧
      (∀ p ∈ s.livePins core, p ∈ (t.core core).pins) ∧
      (3 ≤ losses → (((s.livePins core).filter fun p => p.slot == slot && p.cid != cid).map (·.cid)).eraseDups.length < 4 →
        ((s.livePins core).filter fun p => p.slot == slot && p.cid == cid).length < 12 →
        s.bankGrants core slot bank (s.livePins core) ((s.onSlot core slot).map (·.cid)) ≠ some cid →
        ⟨slot, bank, cid, s.cycle (dieOf core)⟩ ∈ (t.core core).pins ∧ (t.core core).pins.length = (s.livePins core).length + 1) ∧
      ((losses < 3 ∨ s.bankGrants core slot bank (s.livePins core) ((s.onSlot core slot).map (·.cid)) = some cid) →
        (t.core core).pins = s.livePins core) := by
  obtain ⟨ps, run, hps⟩ := execReadPin_cases core slot bank cid losses s
  have after := s.core_setCore_of_core { s.core core with pins := ps, pinsAt := s.cycle (dieOf core) } core (s.core_core core)
  refine ⟨_, run, rfl, ?_⟩
  rw [after]
  refine ⟨rfl, ?_, fun h3 h4 h12 hwins => ?_, fun h => ?_⟩
  · split at hps
    · rw [hps]; exact fun p hp => hp
    · obtain ⟨q, rfl⟩ := hps
      exact (mem_insert_takeWhile q _ _).1
  · rw [if_neg (by simp only [not_or]; exact ⟨by omega, by omega, by omega, hwins⟩)] at hps
    obtain ⟨q, rfl⟩ := hps
    exact (mem_insert_takeWhile q _ _).2
  · rwa [if_pos (by tauto)] at hps

/-! ### Pages (R120, R480) -/

@[simp] theorem State.fwCommit_pageReqs (s : State) (d : Nat) (hit : FwEvent → Bool) : (s.fwCommit d hit).pageReqs = s.pageReqs := by
  unfold State.fwCommit
  dsimp only
  split <;> rfl

/-- Settling split requests only drops requests for pages. -/
theorem State.settlePages_pageReqs (s : State) (q : PageReq) (hq : q ∈ s.settlePages.pageReqs) : q ∈ s.pageReqs := by
  unfold State.settlePages at hq
  revert hq
  suffices fold : ∀ (es : List WaitEntry) (f : State → WaitEntry → State), (∀ t e, ∀ q ∈ (f t e).pageReqs, q ∈ t.pageReqs) →
      ∀ t, q ∈ (es.foldl f t).pageReqs → q ∈ t.pageReqs by
    refine fold _ _ (fun t e q hq => ?_) s
    dsimp only at hq
    split at hq
    · split at hq
      · exact (List.mem_filter.mp hq).1
      · exact hq
    · exact hq
  intro es f hf
  induction es with
  | nil => exact fun t ht => ht
  | cons e es ih => exact fun t ht => hf t e q (ih _ ht)

/-- The leaf entry of a page made resident: its frame is `f` and P = 1 (R113, R480). -/
def residentLeaf (old f : Nat) : Nat := old / 2 ^ 52 * 2 ^ 52 + f + pteBits old 4 0 + (1 - pteBits old 2 2) * 4

/-- Memory once a page's bytes have been copied from `src` to the frame `f`, and its leaf entry at `leaf` names the frame. -/
def residentMem (m : List Host.Cell) (src f size leaf : Nat) : List Host.Cell :=
  memPut (memWrite m f (memBytes m src size)) leaf 8 (residentLeaf (memNat (memWrite m f (memBytes m src size)) leaf 8) f)

@[simp] theorem length_memBytes (m : List Host.Cell) (a n : Nat) : (memBytes m a n).length = n := by
  simp [memBytes]

theorem getD_memBytes (m : List Host.Cell) (a n i : Nat) (h : i < n) : (memBytes m a n).getD i 0 = memByte m (a + i) := by
  simp [memBytes, h]

/-- Where the leaf entry lies outside the frame: the frame holds the page's bytes, the entry names it, and no other byte differs. -/
theorem residentMem_reads (m : List Host.Cell) (src f size leaf : Nat) (h : leaf + 8 ≤ f ∨ f + size ≤ leaf) :
    (∀ i, i < size → memByte (residentMem m src f size leaf) (f + i) = memByte m (src + i)) ∧
    memNat (residentMem m src f size leaf) leaf 8 = residentLeaf (memNat m leaf 8) f % 2 ^ 64 ∧
    ∀ a, (a < f ∨ f + size ≤ a) → (a < leaf ∨ leaf + 8 ≤ a) → memByte (residentMem m src f size leaf) a = memByte m a := by
  have entry : memNat (memWrite m f (memBytes m src size)) leaf 8 = memNat m leaf 8 := by
    simp only [memNat]
    rw [memBytes_memWrite_other]
    rw [length_memBytes]
    exact h
  have outside : ∀ a, (a < leaf ∨ leaf + 8 ≤ a) →
      memByte (residentMem m src f size leaf) a = memByte (memWrite m f (memBytes m src size)) a := by
    intro a ha
    rw [residentMem, memPut, memByte_memWrite_other]
    rw [length_natBytes]
    exact ha
  refine ⟨fun i hi => ?_, ?_, fun a ha hl => ?_⟩
  · rw [outside _ (by omega), memByte_memWrite_at _ _ _ _ (by rwa [length_memBytes]), getD_memBytes _ _ _ _ hi]
  · rw [residentMem, memNat_memPut_same, entry]
    norm_num
  · rw [outside a hl, memByte_memWrite_other]
    rw [length_memBytes]
    exact ha

/-- A page that a range lists, for which the pool has a free frame, becomes resident. -/
theorem State.makeResident_of_freeFrame (s : State) (k : BitVec 16) (va : Nat) (x : Ctx) (e : TlbEntry) (r : Range) (f : Nat)
    (hx : s.ctx? k = some x) (hw : walkLevels s k [] va [0, 1, 2, 3] x.root = .leaf e false) (hr : s.rangeOf k e.va e.size = some r)
    (hpool : x.rpoolLen ≠ 0) (hhost : r.host + (e.va - r.va) + e.size ≤ 2 ^ 50) (hf : x.freeFrame e.size = some f) :
    ∃ t, s.makeResident k va = .done t ∧ t.mem = residentMem s.mem (hostPa (r.host + (e.va - r.va))) f e.size e.leaf := by
  have frame : takeFrame (x.resident.length + 2) s k e.size = .inr (f, s) := by
    simp [takeFrame, hx, hf]
  have refusal : ¬ (x.rpoolLen = 0 ∨ 2 ^ 50 < r.host + (e.va - r.va) + e.size) := by omega
  unfold State.makeResident
  simp only [hx, hw, hr, if_neg refusal, frame]
  have ctxs : ∀ t : State, t.ctxs = s.ctxs → t.ctx? k = some x := fun t ht => by rw [State.ctx?, ht]; exact hx
  rw [ctxs]
  · exact ⟨_, rfl, rfl⟩
  · rfl

/-- PAGE_MAKE_RESIDENT, where the front end takes the event up and the page becomes resident in `t`: the requests for the page are answered,
and memory is that of `t`. -/
theorem execPageMakeResident_done (s t : State) (k : BitVec 16) (va : Nat)
    (hreq : ∃ q ∈ s.pageReqs, q.ctx = k ∧ q.va = s.pageBase k va ∧ q.status = 0)
    (hfw : s.fwMay 0 none (fun v => v == .pageRequest k (s.pageBase k va) || v == .eviction k (s.pageBase k va)) = true)
    (ht : s.makeResident k va = .done t) :
    ∃ u, execPageMakeResident k va s = .next u ∧ u.mem = t.mem ∧ ∀ q ∈ u.pageReqs, q.ctx ≠ k ∨ q.va ≠ s.pageBase k va := by
  obtain ⟨q, hq, rfl, hva, hst⟩ := hreq
  have asked : (s.pageReqs.any fun r => (r.ctx == q.ctx && r.va == s.pageBase q.ctx va) && r.status == 0) = true :=
    List.any_eq_true.mpr ⟨q, hq, by simp [hva, hst]⟩
  unfold execPageMakeResident
  simp only [asked, hfw, ht, Bool.true_eq_false, if_false]
  refine ⟨_, rfl, ?_, fun p hp => ?_⟩
  · rw [State.fwCommit_mem, State.settlePages_mem]
    dsimp only
    split <;> rfl
  · rw [State.fwCommit_pageReqs] at hp
    have stays := (List.mem_filter.mp (State.settlePages_pageReqs _ p hp)).2
    simpa [-not_and, not_and_or] using stays

/-- PAGE_PIN_EXPIRY ends the pins of a page that are 2^20 cycles old, and no other. -/
theorem execPagePinExpiry_of_ctx (s : State) (k : BitVec 16) (va : Nat) (x : Ctx) (hx : s.ctx? k = some x) :
    ∃ t y, execPagePinExpiry k va s = .next t ∧ t = { s with ctxs := t.ctxs } ∧ t.ctx? k = some y ∧ y = { x with pinned := y.pinned } ∧
      ∀ p, p ∈ y.pinned ↔ p ∈ x.pinned ∧ ¬(p.1 = s.pageBase k va ∧ p.2.2 + 2 ^ 20 ≤ s.cycle 0) := by
  have run : execPagePinExpiry k va s = .next (s.setCtx { x with
      pinned := x.pinned.filter fun p => !(p.1 == s.pageBase k va && p.2.2 + 2 ^ 20 ≤ s.cycle 0) }) := by
    simp only [execPagePinExpiry, hx]
  have hk := s.ctx_ctxid k x hx
  subst hk
  refine ⟨_, _, run, rfl, s.ctx_setCtx { x with pinned := _ } (by simp [hx]), rfl, fun p => ?_⟩
  simp [List.mem_filter, imp_iff_not_or]

/-- Settles O54: each event by its lemma. -/
theorem buffersAndPages : Obligations.BuffersAndPages := by
  unfold Obligations.BuffersAndPages
  refine fun s => ⟨fun c hc => ⟨execStarvationQualify_starved s c hc, fun n => execYieldExpiry_due s c n hc⟩, ?_, ?_, ?_⟩
  · rintro core slot bank cid losses _ rfl
    exact execReadPin_pins core slot bank cid losses s
  · exact fun core w hwc hd => ⟨execCombiningFlush_old s core w hwc hd, execCombiningFlush_young s core w hwc⟩
  · intro x k va hx
    refine ⟨?_, execPagePinExpiry_of_ctx s k va x hx⟩
    rintro e r f _ hreq hfw hw hr rfl hpool hhost hf apart
    obtain ⟨t, resident, hmem⟩ := s.makeResident_of_freeFrame k va x e r f hx hw hr hpool hhost hf
    obtain ⟨u, run, hmem', answered⟩ := execPageMakeResident_done s t k va hreq hfw resident
    rw [hmem] at hmem'
    obtain ⟨bytes, entry, keep⟩ := residentMem_reads s.mem (hostPa (r.host + (e.va - r.va))) f e.size e.leaf apart
    rw [← hmem'] at bytes entry keep
    exact ⟨u, run, answered, bytes, entry, keep⟩

end Sys2Proof.Machine
end

section
/-!
A step (O45): the turn that comes next, what a cohort's turn does with the word it fetches, and what follows an instruction.
-/

namespace Sys2Proof.Machine

set_option Elab.async false

/-! ### Operations that leave the cohorts as they are -/

@[simp] theorem State.noteLine_cohorts (s : State) (key : Nat) (mt pol : BitVec 2) : (s.noteLine key mt pol).cohorts = s.cohorts := by
  unfold State.noteLine
  dsimp only
  repeat' split
  all_goals rfl

theorem foldl_cohorts {α : Type} (f : State → α → State) (hf : ∀ t a, (f t a).cohorts = t.cohorts) (l : List α) (s : State) :
    (l.foldl f s).cohorts = s.cohorts := by
  induction l generalizing s with
  | nil => rfl
  | cons a l ih => rw [List.foldl_cons, ih, hf]

@[simp] theorem State.noteWalk_cohorts (s : State) (p : XPort) (x : Ctx) (va : Nat) : (s.noteWalk p x va).cohorts = s.cohorts := by
  unfold State.noteWalk
  dsimp only
  repeat' split
  all_goals simp [foldl_cohorts]

@[simp] theorem State.noteXlat_cohorts (s : State) (p : XPort) (x : Ctx) (va : DWord) (r : Xlat) :
    (s.noteXlat p x va r).cohorts = s.cohorts := by
  unfold State.noteXlat
  repeat' split
  all_goals simp

@[simp] theorem State.keepTranslation_cohorts (s : State) (p : XPort) (x : Ctx) (va : Nat) (e : TlbEntry) :
    (s.keepTranslation p x va e).cohorts = s.cohorts := by
  unfold State.keepTranslation
  dsimp only
  repeat' split
  all_goals rfl

@[simp] theorem State.setLeaf_cohorts (s : State) (leaf : Nat) (bits : Byte) : (s.setLeaf leaf bits).cohorts = s.cohorts := by
  unfold State.setLeaf
  dsimp only
  split <;> rfl

@[simp] theorem State.touch_cohorts (s : State) (p : XPort) (x : Ctx) (va : DWord) (r : Xlat) : (s.touch p x va r).cohorts = s.cohorts := by
  unfold State.touch
  split <;> simp

@[simp] theorem State.dirty_cohorts (s : State) (r : Xlat) : (s.dirty r).cohorts = s.cohorts := by
  unfold State.dirty
  split <;> simp

@[simp] theorem State.store_cohorts (s : State) (key : Nat) (bs : List Byte) : (s.store key bs).cohorts = s.cohorts := by
  obtain ⟨m, p, v, e⟩ := s.store_frame key bs
  rw [e]

@[simp] theorem State.writeSpill_cohorts (s : State) (c : Cohort) (off : Nat) (words : List Word) :
    (s.writeSpill c off words).cohorts = s.cohorts := by
  unfold State.writeSpill
  dsimp only
  repeat' split
  all_goals simp

@[simp] theorem State.pump_cohorts (s : State) (n : Nat) : (s.pump n).cohorts = s.cohorts := rfl

@[simp] theorem State.send_cohorts (s : State) (die : Nat) (k : Packet) : (s.send die k).cohorts = s.cohorts := by
  unfold State.send
  split
  · rfl
  · split <;> rfl

/-! ### What leaves every cohort's program as it was

Rows, the counts of issue, and what a waiting instruction holds may differ; registers, predicates and control state may not. A cohort at a
BAR.pod is apart: the barrier may complete (R346). -/

/-- Only rows, what a waiting instruction holds, and the counts of issue differ (R42, R43, R57, R296). -/
def Cohort.sameProgram (d e : Cohort) : Prop :=
  e = { d with rows := e.rows, spilled := e.spilled, busy := e.busy, ends := e.ends, starve := e.starve, steps := e.steps, yieldUntil := e.yieldUntil }

theorem Cohort.sameProgram_refl (d : Cohort) : d.sameProgram d := rfl

theorem Cohort.sameProgram_trans {d e f : Cohort} (h : d.sameProgram e) (g : e.sameProgram f) : d.sameProgram f := by
  unfold Cohort.sameProgram at *
  rw [h] at g
  exact g

theorem Cohort.sameProgram_cid {d e : Cohort} (h : d.sameProgram e) : e.cid = d.cid := by
  unfold Cohort.sameProgram at h
  rw [h]

theorem Cohort.sameProgram_atBar {d e : Cohort} (h : d.sameProgram e) (sc : Scope) : e.atBar sc = d.atBar sc := by
  unfold Cohort.sameProgram at h
  rw [h]
  rfl

/-- Every cohort that stands at no BAR.pod goes on with the program it had. -/
def State.keepsPrograms (s t : State) : Prop :=
  ∀ k d, s.cohort? k = some d → d.atBar .pod = false → ∃ e, t.cohort? k = some e ∧ d.sameProgram e

theorem State.keepsPrograms_of_cohorts {s t : State} (h : t.cohorts = s.cohorts) : s.keepsPrograms t :=
  fun k d hd _ => ⟨d, by rw [State.cohort?, h]; exact hd, d.sameProgram_refl⟩

theorem State.keepsPrograms_refl (s : State) : s.keepsPrograms s := State.keepsPrograms_of_cohorts rfl

theorem State.keepsPrograms_trans {s t u : State} (h : s.keepsPrograms t) (g : t.keepsPrograms u) : s.keepsPrograms u := by
  intro k d hd hbar
  obtain ⟨e, he, same⟩ := h k d hd hbar
  obtain ⟨f, hf, same'⟩ := g k e he (by rw [Cohort.sameProgram_atBar same]; exact hbar)
  exact ⟨f, hf, Cohort.sameProgram_trans same same'⟩

theorem State.keepsPrograms_foldl {α : Type} (f : State → α → State) (hf : ∀ (t : State) a, t.keepsPrograms (f t a)) (l : List α) (s : State) :
    s.keepsPrograms (l.foldl f s) := by
  induction l generalizing s with
  | nil => exact s.keepsPrograms_refl
  | cons a l ih => exact State.keepsPrograms_trans (hf s a) (ih _)

/-- A map of the cohorts that keeps their names, and the programs of those at no BAR.pod. -/
theorem State.keepsPrograms_map (s t : State) (g : Cohort → Cohort) (ht : t.cohorts = s.cohorts.map g) (hcid : ∀ d, (g d).cid = d.cid)
    (hg : ∀ d : Cohort, d.atBar .pod = false → d.sameProgram (g d)) : s.keepsPrograms t := by
  intro k d hd hbar
  refine ⟨g d, ?_, hg d hbar⟩
  rw [State.cohort?, ht, List.find?_map]
  have same : ((fun c : Cohort => c.cid == k) ∘ g) = fun c => c.cid == k := by
    funext c
    simp [hcid]
  rw [same]
  exact congrArg (Option.map g) hd

/-- A cohort is replaced by one with its program. -/
theorem State.keepsPrograms_setCohort (s : State) (c d : Cohort) (hc : s.cohort? c.cid = some c) (h : c.sameProgram d) :
    s.keepsPrograms (s.setCohort d) := by
  intro k e he _
  have hcid := Cohort.sameProgram_cid h
  by_cases hk : k = c.cid
  · subst hk
    obtain rfl : c = e := Option.some.inj (hc.symm.trans he)
    exact ⟨d, by rw [← hcid]; exact s.cohort_setCohort d (by rw [hcid, hc]; rfl), h⟩
  · exact ⟨e, by rw [s.cohort_setCohort_other d k (by rw [hcid]; exact hk)]; exact he, e.sameProgram_refl⟩

/-! ### Rows (R57, R58) -/

theorem State.takeRow_keepsPrograms (s : State) (cid i now : Nat) : s.keepsPrograms (s.takeRow cid i now) := by
  unfold State.takeRow
  split
  · exact s.keepsPrograms_refl
  · next c hc =>
    have hcid := s.cohort_cid cid c hc
    subst hcid
    exact s.keepsPrograms_setCohort c _ hc rfl

theorem State.spillRow_keepsPrograms (s : State) (cid i : Nat) : s.keepsPrograms (s.spillRow cid i) := by
  unfold State.spillRow
  split
  · exact s.keepsPrograms_refl
  · next c hc =>
    have hcid := s.cohort_cid cid c hc
    subst hcid
    refine State.keepsPrograms_trans (s.keepsPrograms_setCohort c _ hc ?_)
      (State.keepsPrograms_of_cohorts (State.writeSpill_cohorts _ _ _ _))
    exact rfl

/-- obtain_row of R57: a free row is taken, a row is spilled for it, or nothing is done. -/
theorem State.obtainRow_keepsPrograms (s : State) (cid i : Nat) (write : Bool) (pinned : List Nat) :
    s.keepsPrograms (s.obtainRow cid i write pinned) := by
  have swap : ∀ v r now, s.keepsPrograms ((s.spillRow v r).takeRow cid i now) := fun v r now =>
    State.keepsPrograms_trans (s.spillRow_keepsPrograms v r) (State.takeRow_keepsPrograms _ cid i now)
  unfold State.obtainRow
  dsimp only
  split
  · exact s.keepsPrograms_refl
  · split
    · exact s.takeRow_keepsPrograms cid i _
    · split
      · split
        · exact swap _ _ _
        · exact s.keepsPrograms_refl
      · split
        · exact swap _ _ _
        · split
          · exact s.spillRow_keepsPrograms cid i
          · exact s.keepsPrograms_refl

theorem State.settleReg_keepsPrograms (s : State) (cid i : Nat) (pinned : List Nat) : s.keepsPrograms (s.settleReg cid i pinned) := by
  unfold State.settleReg
  split
  · exact s.keepsPrograms_refl
  · next c hc =>
    split
    · split
      · exact s.takeRow_keepsPrograms cid i _
      · exact s.obtainRow_keepsPrograms cid i true pinned
    · have hcid := s.cohort_cid cid c hc
      subst hcid
      exact s.keepsPrograms_setCohort c _ hc rfl

@[simp] theorem State.settleStack_cohorts (s : State) (cid before : Nat) : (s.settleStack cid before).cohorts = s.cohorts := by
  unfold State.settleStack
  dsimp only
  split
  · rfl
  · split
    · rfl
    · exact foldl_cohorts _ (fun t _ => t.writeSpill_cohorts _ _ _) _ s

theorem State.settleRows_keepsPrograms (s : State) (i : Instr) (c : Cohort) : s.keepsPrograms (s.settleRows i c) :=
  State.keepsPrograms_trans (State.keepsPrograms_foldl _ (fun t k => t.settleReg_keepsPrograms c.cid k _) _ s)
    (State.keepsPrograms_of_cohorts (State.settleStack_cohorts _ _ _))

theorem State.rowsAfter_keepsPrograms (s : State) (i : Instr) (c : Cohort) : s.keepsPrograms (s.rowsAfter i c) := by
  unfold State.rowsAfter
  split
  · next d hd =>
    split
    · have hcid := s.cohort_cid c.cid d hd
      rw [← hcid] at hd
      exact s.keepsPrograms_setCohort d _ hd rfl
    · split
      · exact s.keepsPrograms_refl
      · exact s.settleRows_keepsPrograms i c
  · exact s.keepsPrograms_refl

/-! ### The count of issue, and BAR.pod (R42, R43, R346) -/

theorem State.noteIssue_keepsPrograms (s : State) (cid key : Nat) (yl : Bool) : s.keepsPrograms (s.noteIssue cid key yl) := by
  refine s.keepsPrograms_map _ _ rfl (fun d => ?_) fun d _ => ?_
  · split
    · rfl
    · split <;> rfl
  · split
    · rfl
    · split <;> rfl

@[simp] theorem Cohort.putPredOpt_cid (c : Cohort) (m : Mask) (o : Opnd) (bits : Mask) : (c.putPredOpt m o bits).cid = c.cid := by
  unfold Cohort.putPredOpt Cohort.putPred
  split
  · split <;> rfl
  · rfl

@[simp] theorem Cohort.barDone_cid (c : Cohort) (abort : Bool) : (c.barDone abort).cid = c.cid := by
  unfold Cohort.barDone
  split
  · rw [Cohort.complete_cid, Cohort.putPredOpt_cid]
  · rfl

theorem State.podDone_keepsPrograms (s : State) (b : PodBar) (abort : Bool) : s.keepsPrograms (s.podDone b abort) := by
  refine s.keepsPrograms_map _ _ rfl (fun d => ?_) fun d hbar => ?_
  · split
    · exact Cohort.barDone_cid d abort
    · rfl
  · rw [if_neg (by simp [hbar])]
    exact d.sameProgram_refl

theorem State.podCount_keepsPrograms (s : State) (die : Nat) (b : PodBar) (src : BitVec 20) (phase : BitVec 16) :
    s.keepsPrograms (s.podCount die b src phase) := by
  unfold State.podCount
  dsimp only
  generalize (if b.arrived.contains (src, phase) then b.arrived else (src, phase) :: b.arrived) = arrived
  split
  · exact State.keepsPrograms_of_cohorts rfl
  · refine State.keepsPrograms_trans ?_ (State.keepsPrograms_of_cohorts (foldl_cohorts _ (fun t e => ?_) _ _))
    · exact State.keepsPrograms_trans (t := s.setPodBar _) (State.keepsPrograms_of_cohorts rfl) (State.podDone_keepsPrograms _ _ false)
    · exact t.send_cohorts _ _

theorem State.podTry_keepsPrograms (s : State) (c : Cohort) : s.keepsPrograms (s.podTry c) := by
  unfold State.podTry
  dsimp only
  split
  · exact s.keepsPrograms_refl
  · split
    · exact s.podCount_keepsPrograms _ _ _ _
    · split
      · exact s.podCount_keepsPrograms _ _ _ _
      · exact State.keepsPrograms_of_cohorts (State.send_cohorts _ _ _)

theorem State.podTryAll_keepsPrograms (s : State) : s.keepsPrograms s.podTryAll :=
  State.keepsPrograms_foldl _ (fun t c => t.podTry_keepsPrograms c) _ s

theorem State.afterIssue_keepsPrograms (i : Instr) (c : Cohort) (s : State) : s.keepsPrograms (s.afterIssue i c) := by
  unfold State.afterIssue
  dsimp only
  split
  · exact s.rowsAfter_keepsPrograms i c
  · exact State.keepsPrograms_trans (State.keepsPrograms_trans (s.rowsAfter_keepsPrograms i c) (State.noteIssue_keepsPrograms _ _ _ _))
      (State.podTryAll_keepsPrograms _)

/-! ### The next turn (log entry 4) -/

/-- Where no join unit is registered nothing comes ahead of the agenda's turns by itself. -/
theorem State.alarm_of_no_joins (s : State) (h : s.joins = []) : s.alarm = none := by
  simp [State.alarm, h, bestBy]

/-- The turn picked is one of the agenda's, and takes the delay of the first. -/
theorem State.nextTurn_of_agenda (s : State) (a : Turn) (rest : List Turn) (ha : s.agenda = a :: rest) (hj : s.joins = []) :
    s.nextTurn = { ((a :: rest)[s.pickIndex (a :: rest)]?).getD a with dt := a.dt } := by
  simp only [State.nextTurn, State.plan, ha, s.alarm_of_no_joins hj]

/-- A turn that no other of its cycle follows is picked. -/
theorem State.pickIndex_of_alone (s : State) (a : Turn) (rest : List Turn) (h : ∀ b, rest.head? = some b → b.dt ≠ 0) :
    s.pickIndex (a :: rest) = 0 := by
  cases rest with
  | nil => rfl
  | cons b bs =>
    have later : (b.dt == 0) = false := beq_false_of_ne (h b rfl)
    simp [State.pickIndex, List.takeWhile, later]

theorem getD_getElem?_mem {α : Type} (a : α) (l : List α) (i : Nat) : ((a :: l)[i]?).getD a ∈ a :: l := by
  cases h : (a :: l)[i]? with
  | none => exact List.mem_cons_self
  | some b => exact List.mem_of_getElem? h

/-! ### The fetch (R118, R313) -/

/-- A word that the instruction buffer does not hold, on one page that may be fetched from, with none of its bytes uncorrectable, is the 20
bytes there. -/
theorem State.fetchWord_of_page (s : State) (core : Nat) (x : Ctx) (va : DWord) (key r : Nat) (mt : BitVec 2) (leaf : Option TlbEntry)
    (tile : Bool) (h0 : s.xlat (.core core) core x .fetch va = .ok key mt leaf tile)
    (h19 : s.xlat (.core core) core x .fetch (va + 19) = .ok r mt leaf tile) (page : va.toNat / 8192 = (va.toNat + 19) / 8192)
    (buf : ∀ e ∈ (s.core core).ibuf, e.ctx ≠ x.ctxid ∨ e.va ≠ va.toNat) (good : s.poisoned key 20 = false) :
    (s.fetchWord core x va).1 = .word (BitVec.ofNat 160 (memNat s.mem key 20)) := by
  have notHeld : ((s.core core).ibuf.find? fun e => e.ctx == x.ctxid && e.va == va.toNat) = none := by
    rw [List.find?_eq_none]
    intro e he
    have := buf e he
    simp only [Bool.and_eq_true, beq_iff_eq, not_and]
    tauto
  have clean : s.badWord va.toNat key r = none := by
    simp [State.badWord, if_pos page, good]
  have bytes : ((List.range 20).map fun i => if va.toNat / 8192 = (va.toNat + i) / 8192 then memByte s.mem (key + i)
      else memByte s.mem (r - 19 + i)) = memBytes s.mem key 20 := by
    refine List.map_congr_left fun i hi => if_pos ?_
    have := List.mem_range.mp hi
    omega
  unfold State.fetchWord
  simp only [notHeld, h0, h19, Xlat.row, Xlat.key, Nat.lt_irrefl, if_false, clean, bytes]
  rfl

/-! ### A cohort's turn (R118, R240, R322, R323) -/

/-- What a cohort does with the outcome of its fetch at `va`; `s` is the machine as it was before the fetch. -/
def State.afterFetch (s : State) (c : Cohort) (va : DWord) : Fetched × State → Out
  | (.fault g r, s1) => .next (s1.raiseFetch c va g r)
  | (.nonres, s1) => .next (s1.raiseFetch c va 5 0)
  | (.poisoned a, s1) => .next (s1.raise c 13 (hwDetail (s.unitOfKey a).1 2 (s.unitOfKey a).2) (c.plainRecs 0 13 2))
  | (.data a, s1) => .next (s1.raise c 13 (hwDetail (s.unitOfKey a).1 5 (s.unitOfKey a).2) (c.plainRecs 0 13 5))
  | (.word w, s1) =>
    match decodeFor c.nreg w with
    | .error b => .next (s1.raise c b.group (badDetail w b) (c.plainRecs 0 b.group b.reason))
    | .ok i => s1.run c i

/-- With no merge to end a cohort's turn is its fetch and what follows. -/
theorem State.issue_of_not_merged (s : State) (c : Cohort) (x : Ctx) (h : c.merged = false) :
    s.issue c x = s.afterFetch c (codeAddr (c.codeBase x) c.here.pc) (s.fetchWord c.core x (codeAddr (c.codeBase x) c.here.pc)) := by
  have whole : { c with merged := false } = c := by rw [← h]
  have nothing : s.endMerge c = s := by simp [State.endMerge, h]
  have ready : s.mergeWaits c = false := by simp [State.mergeWaits, h]
  unfold State.issue
  simp only [ready, nothing, whole, Bool.false_eq_true, if_false]
  unfold State.afterFetch
  rfl

/-- The turn of a cohort that may issue. -/
theorem step_of_issue (s : State) (k : Nat) (c : Cohort) (x : Ctx) (ht : s.nextTurn.what = .issue k)
    (hp : (s.beginTurn s.nextTurn).powered = true) (hc : (s.beginTurn s.nextTurn).cohort? k = some c)
    (hx : (s.beginTurn s.nextTurn).ctx? c.ctx = some x)
    (hm : ((s.beginTurn s.nextTurn).mayIssue c || (s.beginTurn s.nextTurn).stillIssues c) = true) :
    step s = State.issue { s.beginTurn s.nextTurn with cur := some k } c x := by
  simp only [step, ht, State.turn, hc, hx, hp, hm, Bool.and_self, if_true]

/-- The turn of an event. -/
theorem step_of_event (s : State) (e : Instr) (ht : s.nextTurn.what = .event e) (hp : (s.beginTurn s.nextTurn).powered = true) :
    step s = exec e (s.beginTurn s.nextTurn) := by
  simp only [step, ht, State.turn, hp, Bool.true_or, if_true]

/-- Handler mode refuses some instructions before they run (R240). -/
theorem State.run_of_refused (s : State) (c : Cohort) (i : Instr) (hm : c.hmode = true) (hr : refusedInHandler i = true) :
    s.run c i = .next (s.raiseReason c 12 7) := by
  simp only [State.run, hm, hr, Bool.and_self, if_true]

/-- Where no error of the circuits stands, an instruction runs with its spilled sources refilled, and what follows an instruction follows. -/
theorem State.run_of_no_upsets (s : State) (c d : Cohort) (i : Instr) (hr : c.hmode = false ∨ refusedInHandler i = false)
    (hd : d = ((s.collect i c).cohort? c.cid).getD c) (hu : (s.collect i c).upsets = []) (hy : d.dying = 0)
    (hs : d.role = .single ∨ readsShared i = false) : s.run c i = onNext (exec i (s.collect i c)) (State.afterIssue i d) := by
  subst hd
  have passes : (c.hmode && refusedInHandler i) = false := Bool.and_eq_false_iff.mpr hr
  have own : (s.collect i c).meaning (((s.collect i c).cohort? c.cid).getD c) i = exec i (s.collect i c) := by
    rw [State.meaning, if_pos (hs.imp_right .inl)]
  simp only [State.run, passes, hu, hy, own, Bool.false_eq_true, if_false, and_self, if_true]

/-- A shared value that is bad raises group 13 before its instruction runs (R236). -/
theorem State.run_of_badShared (s : State) (c d : Cohort) (i : Instr) (bits : BitVec 96)
    (hr : c.hmode = false ∨ refusedInHandler i = false) (hd : d = ((s.collect i c).cohort? c.cid).getD c) (hu : (s.collect i c).upsets ≠ [])
    (hb : (s.collect i c).badShared d i = some bits) : s.run c i = .next ((s.collect i c).raise d 13 bits (d.plainRecs 0 13 3)) := by
  subst hd
  have passes : (c.hmode && refusedInHandler i) = false := Bool.and_eq_false_iff.mpr hr
  simp only [State.run, passes, hu, hb, Bool.false_eq_true, if_false, false_and]

/-- Nothing is refilled where no register that the instruction names is spilled (R58). -/
theorem State.collect_of_unspilled (s : State) (i : Instr) (c : Cohort)
    (h : ∀ d, s.cohort? c.cid = some d → ∀ r ∈ namedRegs i c, r ∉ d.spilled) : s.collect i c = s := by
  unfold State.collect
  refine List.foldlRecOn _ _ (motive := fun t => t = s) rfl ?_
  rintro t rfl r hr
  refine if_neg ?_
  rw [Option.any_eq_true]
  rintro ⟨d, hd, hs⟩
  exact h d hd r (List.mem_filter.mp hr).1 (by simpa using hs)

/-- Settles O45: a turn is an event's `exec`, or a cohort's fetch and what follows it; the agenda's turns come by `State.pickIndex`, and
`State.keepsPrograms` is what follows an instruction. -/
theorem stepRunsDecoded : Obligations.StepRunsDecoded := by
  unfold Obligations.StepRunsDecoded
  rintro s v t rfl rfl
  refine ⟨fun e he hp => step_of_event s e he hp, ?_, fun a rest ha hj => ?_, fun i c k d hd hbar => ?_⟩
  · rintro k c x u va ht hp hc hx hm hmerged rfl rfl
    have run : step s = _ := (step_of_issue s k c x ht hp hc hx hm).trans (State.issue_of_not_merged _ c x hmerged)
    refine ⟨fun g r s1 h => ?_, fun s1 h => ?_, fun a s1 h => ?_, fun a s1 h => ?_, fun w s1 h => ?_, ?_⟩
    · rw [run, h]; rfl
    · rw [run, h]; rfl
    · rw [run, h]; rfl
    · rw [run, h]; rfl
    · have decoded : ∀ i, decodeFor c.nreg w = .ok i → step s = s1.run c i := fun i hi => by
        rw [run, h, State.afterFetch, hi]
      refine ⟨fun b hb => by rw [run, h, State.afterFetch, hb], fun i hi => ⟨fun hm hr => ?_, ?_⟩⟩
      · rw [decoded i hi, s1.run_of_refused c i hm hr]
      · rintro s2 c2 hr rfl hc2
        refine ⟨fun hu hy hs => ?_, fun hu bits hb => ?_, s1.collect_of_unspilled i c⟩
        · rw [decoded i hi, s1.run_of_no_upsets c c2 i hr hc2 hu hy hs]
        · rw [decoded i hi, s1.run_of_badShared c c2 i bits hr hc2 hu hb]
    · rintro key mt leaf tile h0 page ⟨r, h19⟩ buf good
      exact State.fetchWord_of_page _ c.core x _ key r mt leaf tile h0 h19 page buf good
  · rw [s.nextTurn_of_agenda a rest ha hj, ha]
    refine ⟨⟨_, getD_getElem?_mem a rest _, rfl⟩, fun alone => ?_⟩
    rw [s.pickIndex_of_alone a rest alone]
    rfl
  · exact State.afterIssue_keepsPrograms i c _ k d hd hbar

end Sys2Proof.Machine
end

section
/-!
A victim that stays, among cohorts of one name (O52).

R244 lets a victim stay "as if the event had never come": the statement says of PREEMPTION_TIMEOUT that only workgroups and cohorts differ when
no cohort of the victim waits or has kept a wait. `State.spare` looks each cohort of the victim up again by its name, and the statement asks
nothing of the names. Where a cohort of another workgroup has the name of one of the victim's and stands before it, `State.spare` resumes that
one in its place; if that one waits for the baton, the core hands the baton on, and its state differs too. What the statement lacks is that
names are distinct, as the names that `State.fresh` gives are meant to be.
-/

namespace Sys2Proof.Machine

set_option Elab.async false

/-- A workgroup that was asked to leave at cycle 0 for launch 7's first workgroup. -/
def askedToLeave : Wg := { progWg with preempt := some (0, 7, 0) }

/-- The cohort of workgroup 0, which waits for nothing, and before it one of workgroup 1 with the same name, which waits for the baton; 8,192
cycles have passed. -/
def namesakes : State :=
  { State.reset with cohorts := [{ progCohort with wg := 1, wait := .baton }, progCohort], wgs := [askedToLeave], cycles := List.replicate 16 8192 }

/-- The namesake is resumed, and takes the baton of core 0. -/
theorem spare_namesakes_baton : ((namesakes.spare askedToLeave).core 0).baton = some 0 := by decide

/-- Refutes O52: in `namesakes` the victim's time is over and its cohort waits for nothing, and yet PREEMPTION_TIMEOUT leaves core 0 with its
baton taken, where the statement lets only workgroups and cohorts differ. -/
theorem not_workgroupsMove : ¬ Obligations.WorkgroupsMove := by
  unfold Obligations.WorkgroupsMove
  intro h
  obtain ⟨-, -, preemption, -⟩ := h namesakes 0
  obtain ⟨-, -, timeout⟩ := preemption 0 askedToLeave 7 0 0 namesakes rfl rfl rfl
  obtain ⟨t, -, rfl, -, frame⟩ := timeout (by decide)
  have idle : ∀ c ∈ namesakes.cohorts, c.wg = askedToLeave.id → c.wait = .none ∧ c.kept = .none := by decide
  have free : (namesakes.core 0).baton = none := rfl
  have same : ((namesakes.spare askedToLeave).core 0).baton = (namesakes.core 0).baton := by
    rw [frame idle]
    rfl
  rw [spare_namesakes_baton, free] at same
  cases same

end Sys2Proof.Machine
end

section
/-!
What the shared writes of a lane result do to a register's tag (R60), and what the shared flags do (R54, R81): the rules that the
statements of the lane instructions use.
-/

namespace Sys2Proof.Machine

set_option Elab.async false

/-! ### Full writes and tags (R60, R61) -/

theorem lanesMask_getLsbD (w l : Nat) (hl : l < 64) : (lanesMask w).getLsbD l = decide (l < w) := by
  rw [lanesMask, BitVec.getLsbD_ofNat, Nat.testBit_two_pow_sub_one, decide_eq_true hl, Bool.true_and]

theorem full_iff_fullMask (c : Cohort) (m : Mask) : c.full m = true ↔ c.fullMask m := by
  constructor
  · exact fun h l hw hl hd => full_covers c m l h hw hl hd
  · intro h
    rw [Cohort.full, beq_iff_eq]
    apply BitVec.eq_of_getLsbD_eq
    intro l hl
    have := h l
    simp only [BitVec.getLsbD_and, BitVec.getLsbD_not, lanesMask_getLsbD c.width l hl, hl]
    grind

/-- THE TAG OF A WRITE (R60, R61): the shape that a full write takes is the register's, a partial write makes it G. -/
theorem putVec_tag (c : Cohort) (m : Mask) (k : Nat) (val : Nat → Word) (shape : VReg) (sh : Shape) (hk : k < c.regs.length)
    (hs : m ≠ 0 → shape.meets sh) : tagWritten c (c.putVec m k val shape) m k sh := by
  unfold Cohort.putVec
  by_cases h0 : m = 0
  · rw [if_pos h0]
    exact ⟨fun _ => rfl, fun h => absurd h0 h, fun h => absurd h0 h⟩
  · by_cases hf : c.full m = true
    · rw [if_neg h0, if_pos hf, tagWritten, setReg_reg c k _ hk]
      exact ⟨fun h => absurd h h0, fun _ _ => hs h0, fun _ h => absurd ((full_iff_fullMask c m).1 hf) h⟩
    · rw [if_neg h0, if_neg hf, tagWritten, setReg_reg c k _ hk]
      exact ⟨fun h => absurd h h0, fun _ h => absurd ((full_iff_fullMask c m).2 h) hf, fun _ _ => ⟨_, rfl⟩⟩

theorem general_meets (c : Cohort) (val : Nat → Word) : (c.general val).meets .g := ⟨_, rfl⟩

/-- A copy of a register keeps its shape (R62). -/
theorem copied_meets (c : Cohort) (v : VReg) : (c.copied v).meets v.shape := by
  cases v with
  | u x => exact ⟨x, rfl⟩
  | a b t => rfl
  | g ws => exact general_meets c _

theorem copied_lane (c : Cohort) (v : VReg) (l : Nat) (hw : l < c.width) (hd : c.dead.getLsbD l = false) : (c.copied v).lane l = v.lane l := by
  cases v with
  | u x => rfl
  | a b t => rfl
  | g ws => exact general_lane c _ l hw hd

/-- A base and a stride as a register (R55). -/
def lineReg (p : Word × Word) : VReg := VReg.affine p.1 p.2

theorem lineReg_lane (p : Word × Word) (l : Nat) : (lineReg p).lane l = p.1 + BitVec.ofNat 32 l * p.2 := by
  unfold lineReg VReg.affine
  split
  · next h => simp [VReg.lane, h]
  · rfl

theorem lineReg_meets (p : Word × Word) : (lineReg p).meets (lineShape p) := by
  unfold lineReg VReg.affine lineShape
  split
  · exact ⟨_, rfl⟩
  · rfl

/-- A register on a line has the line's words. -/
theorem line_lane (v : VReg) (p : Word × Word) (h : v.line? = some p) (l : Nat) : v.lane l = p.1 + BitVec.ofNat 32 l * p.2 := by
  cases v with
  | u x => cases h; simp [VReg.lane]
  | a b t => cases h; rfl
  | g ws => cases h

theorem meets_of_uniform (c : Cohort) (srcs : List VReg) (val : Nat → Word) :
    (c.resultShape false srcs none val).meets (uniformShape srcs) := by
  unfold Cohort.resultShape uniformShape
  by_cases hu : srcs.all VReg.isU = true
  · simp only [hu, Bool.false_eq_true, ↓reduceIte]
    exact ⟨_, rfl⟩
  · simp only [hu, Bool.false_eq_true, ↓reduceIte]
    exact general_meets c val

/-- THE SHAPE OF A FULL RESULT (R60): the line that a rule gives, else U when every source is U. A line of U sources has stride 0, because
every lane then has one value. -/
theorem resultShape_meets (c : Cohort) (srcs : List VReg) (line : Option (Word × Word)) (val : Nat → Word)
    (hu : srcs.all VReg.isU = true → ∀ l, val l = val 0) (ha : ∀ p, line = some p → ∀ l, val l = p.1 + BitVec.ofNat 32 l * p.2) :
    (c.resultShape false srcs (line.map lineReg) val).meets (line.elim (uniformShape srcs) lineShape) := by
  cases line with
  | none => exact meets_of_uniform c srcs val
  | some p =>
    simp only [Cohort.resultShape, Option.map_some, Option.elim_some, Bool.false_eq_true, ↓reduceIte]
    split
    · next h =>
      have stride : p.2 = 0 := by simpa [ha p rfl 0, ha p rfl 1] using hu h 1
      simp only [lineShape, stride, ↓reduceIte]
      exact ⟨_, rfl⟩
    · exact lineReg_meets p

/-- Where MOV, VOTE and SEL have rules of their own, the others have the affine rules, else rules 12 and 13 (R60). -/
theorem fullShape_of_rule (i : Instr) (s : State) (c : Cohort) (hmov : ∀ f, i ≠ .mov f) (hvote : ∀ f, i ≠ .vote f) (hsel : ∀ f, i ≠ .sel f) :
    fullShape i s c = (affineRule i s c).elim (uniformShape (sourceRegs i s c)) lineShape := by
  unfold fullShape
  split
  · next f => exact absurd rfl (hmov f)
  · next f => exact absurd rfl (hvote f)
  · next f => exact absurd rfl (hsel f)
  · cases affineRule i s c <;> rfl

/-- A result per lane whose value in a lane is made of the sources' words in that lane. -/
def Lanewise {α : Type} (srcs : List VReg) (val : Nat → α) : Prop := ∀ l k, (∀ v ∈ srcs, v.lane l = v.lane k) → val l = val k

theorem Lanewise.of_uniform {α : Type} {srcs : List VReg} {val : Nat → α} (h : Lanewise srcs val) (hu : srcs.all VReg.isU = true) (l : Nat) :
    val l = val 0 :=
  h l 0 fun v hv => isU_lane v (List.all_eq_true.1 hu v hv) l

/-- WRITING A LANE RESULT (R60): the destination takes the lanes' values, and its tag is that of the rules. -/
theorem putLanes_result (c : Cohort) (m : Mask) (od : Opnd) (srcs : List VReg) (line : Option (Word × Word)) (val : Nat → Word)
    (hk : opndIndex od < c.regs.length) (hm : ∀ l, m.getLsbD l = true → c.dead.getLsbD l = false) (hv : Lanewise srcs val)
    (ha : ∀ p, line = some p → ∀ l, val l = p.1 + BitVec.ofNat 32 l * p.2) :
    vecWrite c (c.putLanes m od srcs (line.map lineReg) val) m (opndIndex od) val ∧
    tagWritten c (c.putLanes m od srcs (line.map lineReg) val) m (opndIndex od) (line.elim (uniformShape srcs) lineShape) := by
  have onLine : ∀ r, line.map lineReg = some r → ∀ l, r.lane l = val l := by
    rintro r hr l
    obtain ⟨p, hp, rfl⟩ := Option.map_eq_some_iff.1 hr
    rw [lineReg_lane, ha p hp l]
  exact ⟨putLanes_writes c m od srcs _ val hk hm hv.of_uniform onLine,
    putVec_tag c m _ val _ _ hk fun _ => resultShape_meets c srcs line val hv.of_uniform ha⟩

/-! ### Writing a pair (R60, rule 3) -/

theorem putVec_reg_other (c : Cohort) (m : Mask) (k n : Nat) (val : Nat → Word) (shape : VReg) (h : n ≠ k) :
    (c.putVec m k val shape).reg n = c.reg n := by
  unfold Cohort.putVec
  split
  · rfl
  · split <;> exact setReg_other c k n _ h

/-- What decides whether a write is full, and which registers there are, a register write leaves as it was. -/
theorem putVec_frame (c : Cohort) (m : Mask) (k : Nat) (val : Nat → Word) (shape : VReg) :
    (c.putVec m k val shape).width = c.width ∧ (c.putVec m k val shape).dead = c.dead ∧
    (c.putVec m k val shape).regs.length = c.regs.length := by
  unfold Cohort.putVec
  split
  · exact ⟨rfl, rfl, rfl⟩
  · split <;> exact ⟨rfl, rfl, List.length_set⟩

theorem putLanes64_tags (c : Cohort) (m : Mask) (od : Opnd) (srcs : List VReg) (val : Nat → DWord) (hk : opndIndex od + 1 < c.regs.length) :
    pairTags c (c.putLanes64 m od srcs val) m (opndIndex od) (uniformShape srcs) := by
  unfold Cohort.putLanes64
  dsimp only
  have low := putVec_tag c m (opndIndex od) (fun l => DWord.lo (val l)) _ _ (by omega)
    fun _ => meets_of_uniform c srcs fun l => DWord.lo (val l)
  have other (n : Nat) := putVec_reg_other c m (opndIndex od) n (fun l => DWord.lo (val l))
    (c.resultShape false srcs none fun l => DWord.lo (val l))
  obtain ⟨width, dead, length⟩ := putVec_frame c m (opndIndex od) (fun l => DWord.lo (val l))
    (c.resultShape false srcs none fun l => DWord.lo (val l))
  generalize c.putVec m (opndIndex od) (fun l => DWord.lo (val l)) (c.resultShape false srcs none fun l => DWord.lo (val l)) = c1 at *
  have high := putVec_tag c1 m (opndIndex od + 1) (fun l => DWord.hi (val l)) _ _ (by omega)
    fun _ => meets_of_uniform c1 srcs fun l => DWord.hi (val l)
  constructor
  · rw [tagWritten, putVec_reg_other c1 _ _ _ _ _ (by omega)]
    exact low
  · rw [tagWritten, other _ (by omega), Cohort.fullMask, width, dead] at high
    exact high

/-! ### Flags (R54, R81, R234) -/

theorem flagsOf_getLsbD (m : Mask) (fl : Nat → BitVec 6) (b : Nat) :
    (flagsOf m fl).getLsbD b = (laneList m).any fun l => (fl l).getLsbD b := by
  have fold : ∀ (ls : List Nat) (acc : BitVec 6),
      (ls.foldl (fun acc l => acc ||| fl l) acc).getLsbD b = (acc.getLsbD b || ls.any fun l => (fl l).getLsbD b) := by
    intro ls
    induction ls with
    | nil => simp
    | cons x xs ih => simp [ih, Bool.or_assoc]
  simp [flagsOf, fold]

theorem flagsOf_congr (m : Mask) (fl gl : Nat → BitVec 6) (h : ∀ l ∈ laneList m, fl l = gl l) : flagsOf m fl = flagsOf m gl :=
  List.foldl_ext _ _ _ fun acc l hl => by rw [h l hl]

/-- The flags that a trap enable catches: flag `b + 1` under the enable in bit `b + 8` (R54). -/
theorem trapped_getLsbD (v : Word) (fl : BitVec 6) (b : Nat) (hb : b < 5) :
    (trapped v fl).getLsbD b = (v.getLsbD (b + 8) && fl.getLsbD (b + 1)) := by
  simp [trapped, enablesOf, hb, Nat.add_comm]

theorem trapped_ne_zero_iff (v : Word) (fl : BitVec 6) :
    trapped v fl ≠ 0 ↔ ∃ b, 1 ≤ b ∧ b < 6 ∧ v.getLsbD (b + 7) = true ∧ fl.getLsbD b = true := by
  constructor
  · intro h
    by_contra quiet
    refine h (BitVec.eq_of_getLsbD_eq fun b hb => ?_)
    rw [trapped_getLsbD v fl b hb]
    by_contra both
    have both : v.getLsbD (b + 8) = true ∧ fl.getLsbD (b + 1) = true := by simpa using both
    exact quiet ⟨b + 1, by omega, by omega, both⟩
  · rintro ⟨b, h1, h6, hv, hf⟩ h0
    have bit := trapped_getLsbD v fl (b - 1) (by omega)
    rw [h0, show b - 1 + 8 = b + 7 by omega, show b - 1 + 1 = b by omega, hv, hf] at bit
    simp at bit

theorem trapped_flagsOf_iff (c : Cohort) (m : Mask) (fl : Nat → BitVec 6) : trapped c.vstat (flagsOf m fl) = 0 ↔ untrapped c m fl := by
  rw [← not_iff_not, ← ne_eq, trapped_ne_zero_iff]
  simp only [flagsOf_getLsbD, List.any_eq_true, untrapped]
  push Not
  constructor
  · rintro ⟨b, h1, h6, hv, l, hl, hf⟩
    exact ⟨l, b, hl, h1, h6, hv, by simp [hf]⟩
  · rintro ⟨l, b, hl, h1, h6, hv, hf⟩
    exact ⟨b, h1, h6, hv, l, hl, by simpa using hf⟩

/-- FLAGS THAT NO ENABLE CATCHES (R54, R81): the instruction goes on with its lanes' flags in $VSTAT. -/
theorem withFlags_untrapped (s : State) (c : Cohort) (m : Mask) (fl : Nat → BitVec 6) (k : Cohort → Cohort) (h : untrapped c m fl) :
    withFlags s c m fl k = finish s (k { c with vstat := setFlags c.vstat (flagsOf m fl) }) :=
  if_pos ((trapped_flagsOf_iff c m fl).2 h)

theorem setFlags_flagsWritten (c d : Cohort) (m : Mask) (fl : Nat → BitVec 6) (h : d.vstat = setFlags c.vstat (flagsOf m fl)) :
    flagsWritten c d m fl := by
  rw [flagsWritten, h, setFlags]
  constructor
  · intro b hb
    simp only [BitVec.getLsbD_or, BitVec.getLsbD_setWidth, flagsOf_getLsbD, show b < 32 by omega, decide_true, Bool.true_and]
  · intro b hb
    simp [BitVec.getLsbD_of_ge (flagsOf m fl) b hb]

/-- An instruction with flags sees only the flags of the lanes that it writes. -/
theorem withFlags_congr (s : State) (c : Cohort) (m : Mask) (fl gl : Nat → BitVec 6) (k : Cohort → Cohort)
    (h : ∀ l ∈ laneList m, fl l = gl l) : withFlags s c m fl k = withFlags s c m gl k := by
  have lanes : (fun l => m.getLsbD l && trapped c.vstat (fl l) != 0) = fun l => m.getLsbD l && trapped c.vstat (gl l) != 0 := by
    funext l
    by_cases hl : m.getLsbD l = true
    · rw [h l ((mem_laneList m l).2 hl)]
    · simp [hl]
  simp only [withFlags, flagsOf_congr m fl gl h, lanes]

/-- A flag is caught (R54, R234): cause group 6 in place of the result, with the lanes that raised such a flag and the flags. -/
theorem withFlags_traps (s : State) (c : Cohort) (m : Mask) (fl : Nat → BitVec 6) (k : Cohort → Cohort) (h : ¬ untrapped c m fl) :
    ∃ (lanes : Mask) (flags : BitVec 5),
      withFlags s c m fl k = .next (s.raise c 6 (lanes.setWidth 96 ||| (flags.setWidth 96 <<< 64)) (c.plainRecs lanes 6 0)) ∧
      (∀ l, l < 64 → (lanes.getLsbD l = true ↔
        l ∈ laneList m ∧ ∃ b, 1 ≤ b ∧ b < 6 ∧ c.vstat.getLsbD (b + 7) = true ∧ (fl l).getLsbD b = true)) ∧
      (∀ b, b < 5 → (flags.getLsbD b = true ↔ c.vstat.getLsbD (b + 8) = true ∧ ∃ l ∈ laneList m, (fl l).getLsbD (b + 1) = true)) := by
  refine ⟨maskOf fun l => m.getLsbD l && trapped c.vstat (fl l) != 0, trapped c.vstat (flagsOf m fl),
    if_neg (mt (trapped_flagsOf_iff c m fl).1 h), ?_, ?_⟩
  · intro l hl
    rw [maskOf_bit _ l hl, Bool.and_eq_true, bne_iff_ne, trapped_ne_zero_iff, mem_laneList]
  · intro b hb
    rw [trapped_getLsbD _ _ b hb, Bool.and_eq_true, flagsOf_getLsbD, List.any_eq_true]

end Sys2Proof.Machine
end

section
/-!
The instructions that write one register and no flag (O4).
-/

namespace Sys2Proof.Machine

set_option Elab.async false

/-! ### Instructions without flags that are made of their sources' words (R60, rules 12 and 13) -/

/-- An instruction that writes lanes made of its sources' words, under rules 12 and 13 of R60. -/
def WritesLanes (i : Instr) (f : Fields) (val : State → Cohort → Nat → Word) : Prop :=
  ∀ (s : State) (c : Cohort), s.me? = some c → exec i s = vecOut s c f (sourceRegs i s c) none (val s c) ∧
    Lanewise (sourceRegs i s c) (val s c) ∧ fullShape i s c = uniformShape (sourceRegs i s c)

/-- IADDMIN's clamp (R397). -/
theorem clamp_eq_max_min (lo hi x : Int) (h : lo ≤ hi) : (if x < lo then lo else if hi < x then hi else x) = max lo (min hi x) := by
  split
  · omega
  · split <;> omega

theorem intMin_le_intMax (t : Typ) : intMin t ≤ intMax t := by cases t <;> decide

theorem fpElems_fst (t : Typ) (op : Nat → Nat × BitVec 6) :
    (fpElems t op).1 = packElems (elemBits t) ((List.range (elemsPerWord t)).map fun i => (op i).1) := by
  simp [fpElems, Function.comp_def]

theorem putTruth_register (c : Cohort) (m : Mask) (od : Opnd) (srcs : List VReg) (bit : Nat → Bool) (h : ∀ p, od = .p p → False) :
    c.putTruth m od srcs bit = c.putLanes m od srcs none fun l => if bit l then 1 else 0 := by
  unfold Cohort.putTruth
  split
  · next p => exact (h p rfl).elim
  · rfl

theorem lanewise_truth (a b : VReg) (bit : Word → Word → Bool) :
    Lanewise [a, b] fun l => if bit (a.lane l) (b.lane l) then (1 : Word) else 0 := by
  intro l k same
  beta_reduce
  rw [same a (by simp), same b (by simp)]

/-- What the instructions of `plainResult` do: three that have a rule of their own in R60, and the others. -/
theorem plainResult_cases (i : Instr) (f : Fields) (val : State → Cohort → Nat → Word) (h : plainResult i = some (f, val)) :
    (i = .mov f ∧ f.sub ≠ 1 ∧ val = fun s c l => s.opnd c f f.oa l) ∨
    (i = .sel f ∧ val = fun s c l => if (c.predOf f.oc).getLsbD l then s.opnd c f f.oa l else s.opnd c f f.ob l) ∨
    i = .vote f ∨ WritesLanes i f val := by
  cases i
  case mov g =>
    simp only [plainResult] at h
    split at h
    · cases h
    · next narrow =>
      cases h
      exact .inl ⟨rfl, narrow, rfl⟩
  case sel g =>
    cases h
    exact .inr (.inl ⟨rfl, rfl⟩)
  case vote g =>
    refine .inr (.inr (.inl ?_))
    simp only [plainResult] at h
    repeat' split at h
    all_goals cases h
    all_goals rfl
  all_goals refine .inr (.inr (.inr fun s c hc => ?_))
  case' icmp | fcmp | shr =>
    simp only [plainResult] at h
    split at h
    · cases h
  all_goals cases h
  case icmp register =>
    exact ⟨(withMe_some s c _ hc).trans (congrArg (finish s) (putTruth_register c _ f.od _ _ register)),
      lanewise_truth _ _ fun x y => icmpHolds f.sub (exact32 f.typ x) (exact32 f.typ y), rfl⟩
  case fcmp register =>
    exact ⟨(withMe_some s c _ hc).trans (congrArg (finish s) (putTruth_register c _ f.od _ _ register)),
      lanewise_truth _ _ fun x y => fcmpHolds f.sub (fpVal f32 x.toNat) (fpVal f32 y.toNat), rfl⟩
  all_goals
    refine ⟨?_, fun l k same => ?_, rfl⟩
    rotate_left
    · simp only [sourceRegs, List.map, List.forall_mem_cons] at same
      simp only [State.opnd, same]
  case shr narrow => exact (if_neg narrow).trans (withMe_some s c _ hc)
  case iaddmin => exact (withMe_some s c _ hc).trans (by simp only [clamp_eq_max_min _ _ _ (intMin_le_intMax _)]; rfl)
  case fmax | fmin | frnd => exact (withMe_some s c _ hc).trans (by simp only [fpElems_fst]; rfl)
  all_goals exact withMe_some s c _ hc

/-! ### MOV, SEL and VOTE (R416, R440, R453) -/

theorem exec_mov_register (s : State) (c : Cohort) (f : Fields) (hc : s.me? = some c) (h : f.sub ≠ 1) :
    exec (.mov f) s = finish s (c.putVec (c.writeMask f) (opndIndex f.od) (s.opnd c f f.oa) (c.copied (s.src c f f.oa))) :=
  (withMe_some s c _ hc).trans (if_neg h)

/-- Rule 12's test: the predicate holds one value across a mask (R60). -/
theorem one_value_across (p m : Mask) (h : (p &&& m == 0 || p &&& m == m) = true) (l k : Nat) (hl : m.getLsbD l = true)
    (hk : m.getLsbD k = true) : p.getLsbD l = p.getLsbD k := by
  have bit (x : Mask) (e : p &&& m = x) (n : Nat) (hn : m.getLsbD n = true) : p.getLsbD n = x.getLsbD n := by
    rw [← e, BitVec.getLsbD_and, hn, Bool.and_true]
  rcases Bool.or_eq_true _ _ ▸ h with nowhere | everywhere
  · rw [bit 0 (beq_iff_eq.1 nowhere) l hl, bit 0 (beq_iff_eq.1 nowhere) k hk]
    simp
  · rw [bit m (beq_iff_eq.1 everywhere) l hl, bit m (beq_iff_eq.1 everywhere) k hk, hl, hk]

theorem exec_sel (s : State) (c : Cohort) (f : Fields) (hc : s.me? = some c) :
    ∃ shape : VReg, exec (.sel f) s = finish s (c.putVec (c.writeMask f) (opndIndex f.od)
        (fun l => if (c.predOf f.oc).getLsbD l then s.opnd c f f.oa l else s.opnd c f f.ob l) shape) ∧
      shape.meets (fullShape (.sel f) s c) ∧
      (c.writeMask f ≠ 0 → ∀ l, l < c.width → (c.writeMask f).getLsbD l = true →
        shape.lane l = if (c.predOf f.oc).getLsbD l then s.opnd c f f.oa l else s.opnd c f f.ob l) := by
  refine ⟨_, withMe_some s c _ hc, ?_⟩
  dsimp only [fullShape]
  split
  · next h =>
    obtain ⟨⟨ha, hb⟩, one⟩ : ((s.src c f f.oa).isU = true ∧ (s.src c f f.ob).isU = true) ∧ _ := by
      simpa only [Bool.and_eq_true] using h
    refine ⟨⟨_, rfl⟩, fun h0 l _ hl => ?_⟩
    rw [VReg.lane, one_value_across _ _ one l _ hl (elect_mem _ h0), State.opnd, State.opnd, isU_lane _ ha l, isU_lane _ hb l,
      isU_lane _ ha (elect _), isU_lane _ hb (elect _)]
  · exact ⟨general_meets c _, fun _ l hw hl => general_lane c _ l hw (writeMask_alive c f l hl)⟩

theorem laneList_and (p m : Mask) : laneList (p &&& m) = (laneList m).filter p.getLsbD := by
  rw [laneList, laneList, List.filter_filter]
  exact congrArg (List.filter · _) (funext fun l => BitVec.getLsbD_and)

theorem and_eq_right_iff_all (p m : Mask) : p &&& m = m ↔ (laneList m).all p.getLsbD = true := by
  simp only [List.all_eq_true, mem_laneList]
  constructor
  · intro h l hl
    rw [← h, BitVec.getLsbD_and, Bool.and_eq_true] at hl
    exact hl.1
  · intro h
    apply BitVec.eq_of_getLsbD_eq
    intro l _
    rw [BitVec.getLsbD_and]
    cases hl : m.getLsbD l with
    | false => rw [Bool.and_false]
    | true => rw [h l hl, Bool.and_true]

/-- What VOTE gives, by its SUB, from the lanes of the mask whose predicate is set (R453). -/
def voteWord (sub : BitVec 4) (p m : Mask) : Word :=
  if sub = 0 then (if 0 < (laneList (p &&& m)).length then 1 else 0)
  else if sub = 1 then (if p &&& m = m then 1 else 0)
  else BitVec.ofNat 32 (laneList (p &&& m)).length

/-- VOTE with a register destination writes one value to every lane of the mask, as U (R453; R60, rule 9). -/
theorem exec_vote_register (s : State) (c : Cohort) (f : Fields) (hc : s.me? = some c) (hod : ∀ p, f.od = .p p → False) (hsub : f.sub ≠ 2) :
    exec (.vote f) s = finish s (c.putVec (c.writeMask f) (opndIndex f.od) (fun _ => voteWord f.sub (c.predOf f.oa) (c.writeMask f))
      (.u (voteWord f.sub (c.predOf f.oa) (c.writeMask f)))) := by
  refine (withMe_some s c _ hc).trans ?_
  have put (v : Word) : (match f.od with
        | .p i => c.putPred (c.writeMask f) i (if v = 0 then 0 else c.writeMask f)
        | _ => c.putVec (c.writeMask f) (opndIndex f.od) (fun _ => v) (.u v)) =
        c.putVec (c.writeMask f) (opndIndex f.od) (fun _ => v) (.u v) := by
    split
    · next p hp => exact (hod p hp).elim
    · rfl
  have sub (k : BitVec 4) (n : Nat) (hk : f.sub.toNat = n) (ne : n ≠ k.toNat) : f.sub ≠ k := fun e => ne (by rw [← hk, e])
  dsimp only
  split
  · next h =>
    exact (congrArg (finish s) (put _)).trans (by rw [voteWord, if_pos (BitVec.eq_of_toNat_eq h)])
  · next h =>
    exact (congrArg (finish s) (put _)).trans
      (by rw [voteWord, if_neg (sub 0 1 h (by decide)), if_pos (show f.sub = 1 from BitVec.eq_of_toNat_eq h)])
  · next h => exact absurd (BitVec.eq_of_toNat_eq h) hsub
  · next h0 h1 _ =>
    exact (congrArg (finish s) (put _)).trans (by rw [voteWord, if_neg (sub 0 _ rfl h0), if_neg (sub 1 _ rfl h1)])

theorem plainResult_vote (s : State) (c : Cohort) (f : Fields) (val : State → Cohort → Nat → Word) (h : plainResult (.vote f) = some (f, val)) :
    (∀ p, f.od = .p p → False) ∧ f.sub ≠ 2 ∧ val s c = fun _ => voteWord f.sub (c.predOf f.oa) (c.writeMask f) := by
  simp only [plainResult] at h
  split at h
  · cases h
  · next register =>
    refine ⟨register, ?_⟩
    simp only [voteWord, laneList_and, and_eq_right_iff_all, List.countP_eq_length_filter] at h ⊢
    split at h
    · next h0 =>
      cases h
      simp [h0, List.length_pos_iff, List.any_eq]
    · split at h
      · next h0 h1 =>
        cases h
        simp [h1]
      · split at h
        · next h0 h1 h3 =>
          cases h
          simp [h3]
        · cases h

/-- Settles O4: the write of a lane result for the instructions made of their sources' words, and the rules of MOV, SEL and VOTE. -/
theorem plainVectorResult : Obligations.PlainVectorResult := by
  unfold Obligations.PlainVectorResult
  intro i s c f val h hc hk
  have alive := writeMask_alive c f
  rcases plainResult_cases i f val h with ⟨rfl, narrow, rfl⟩ | ⟨rfl, rfl⟩ | rfl | lanes
  · exact ⟨_, exec_mov_register s c f hc narrow,
      putVec_writes c _ _ _ _ hk alive fun _ l hw hl => copied_lane c _ l hw (alive l hl),
      putVec_tag c _ _ _ _ _ hk fun _ => copied_meets c _⟩
  · obtain ⟨shape, run, tag, words⟩ := exec_sel s c f hc
    exact ⟨_, run, putVec_writes c _ _ _ shape hk alive words, putVec_tag c _ _ _ shape _ hk fun _ => tag⟩
  · obtain ⟨register, narrow, word⟩ := plainResult_vote s c f val h
    rw [word]
    exact ⟨_, exec_vote_register s c f hc register narrow, putVec_writes c _ _ _ _ hk alive fun _ _ _ _ => rfl,
      putVec_tag c _ _ _ _ _ hk fun _ => ⟨_, rfl⟩⟩
  · obtain ⟨run, words, shape⟩ := lanes s c hc
    rw [run, shape]
    exact ⟨_, rfl, putLanes_result c _ f.od _ none _ hk alive words (by simp)⟩

end Sys2Proof.Machine
end

section
/-!
The integer instructions with flags, and FSFN (O6): integers modulo 2^32, the lines of R60, and the lanes' values on them.
-/

namespace Sys2Proof.Machine

set_option Elab.async false

/-! ### Words as integers modulo 2^32 (R71, R72, R391) -/

/-- A type whose results may be affine: 32 bits wide (R391). -/
def wordTyp (t : Typ) : Prop := t = .u32 ∨ t = .s32

theorem elemBits_of_wordTyp {t : Typ} (h : wordTyp t) : elemBits t = 32 := by
  rcases h with rfl | rfl <;> rfl

theorem ofInt_exact32 (t : Typ) (x : Word) : BitVec.ofInt 32 (exact32 t x) = x := by
  unfold exact32
  split
  · exact BitVec.ofInt_toInt
  · rw [BitVec.ofInt_natCast, BitVec.ofNat_toNat, BitVec.setWidth_eq]

theorem ofInt_add_exact32 (t : Typ) (x y : Word) : BitVec.ofInt 32 (exact32 t x + exact32 t y) = x + y := by
  rw [BitVec.ofInt_add, ofInt_exact32, ofInt_exact32]

theorem ofInt_sub_exact32 (t : Typ) (x y : Word) : BitVec.ofInt 32 (exact32 t x - exact32 t y) = x - y :=
  (Int.cast_sub (R := Word) _ _).trans (congrArg₂ (· - ·) (ofInt_exact32 t x) (ofInt_exact32 t y))

theorem ofInt_mul_exact32 (t : Typ) (x y : Word) : BitVec.ofInt 32 (exact32 t x * exact32 t y) = x * y := by
  rw [BitVec.ofInt_mul, ofInt_exact32, ofInt_exact32]

theorem shiftLeft_eq_mul_pow (x : Word) (k : Nat) : x <<< k = x * 2 ^ k := by
  rw [BitVec.shiftLeft_eq_mul_twoPow]
  congr 1
  have : (2 : Word) ^ k = ((2 ^ k : Nat) : Word) := by push_cast; rfl
  rw [this, BitVec.natCast_eq_ofNat]
  exact BitVec.eq_of_toNat_eq (by simp)

theorem ofInt_exact32_shift (t : Typ) (x : Word) (k : Nat) : BitVec.ofInt 32 (exact32 t x * 2 ^ k) = x <<< k := by
  rw [BitVec.ofInt_mul, ofInt_exact32, shiftLeft_eq_mul_pow]
  exact congrArg (x * ·) (Int.cast_pow (R := Word) 2 k)

theorem ofNat_wrapInt (v : Int) : BitVec.ofNat 32 (wrapInt 32 v) = BitVec.ofInt 32 v :=
  BitVec.eq_of_toNat_eq (by simp [wrapInt, BitVec.toNat_ofInt]; omega)

/-- A 32-bit result without SAT is the integer modulo 2^32 (R72). -/
theorem narrowed_fst (f : Fields) (ht : wordTyp f.typ) (hs : f.sat = false) (v : Int) : (narrowed f v).1 = BitVec.ofInt 32 v := by
  simp only [narrowed, iclamp, hs, Bool.false_eq_true, ↓reduceIte, elemBits_of_wordTyp ht, ofNat_wrapInt]

theorem intVal_word (t : Typ) (ht : wordTyp t) (x : Word) : intVal t x.toNat = exact32 t x := by
  have small : x.toNat % 2 ^ 32 = x.toNat := Nat.mod_eq_of_lt x.isLt
  rcases ht with rfl | rfl
  · rw [intVal, exact32, if_neg (by decide), if_neg (by decide), elemBits, small]
  · rw [intVal, exact32, if_pos rfl, if_pos (by decide), signedOf, elemBits, small, BitVec.toInt_eq_toNat_cond]
    by_cases neg : x.toNat < 2 ^ (32 - 1)
    · rw [if_pos neg, if_pos (by omega)]
    · rw [if_neg neg, if_neg (by omega)]

theorem elemsOf_word (t : Typ) (ht : wordTyp t) (x : Word) : elemsOf t x = [x.toNat] := by
  have one : elemsPerWord t = 1 := by rw [elemsPerWord, elemBits_of_wordTyp ht]
  rw [elemsOf, one, elemBits_of_wordTyp ht]
  simp [elemAt, Nat.mod_eq_of_lt x.isLt]

theorem packElems_word (n : Nat) : packElems 32 [n] = BitVec.ofNat 32 n :=
  BitVec.eq_of_toNat_eq (by simp [packElems])

theorem elemwise_fst (t : Typ) (ht : wordTyp t) (op : Int → Int → Int) (x y : Word) :
    (elemwise t false op x y).1 = BitVec.ofInt 32 (op (exact32 t x) (exact32 t y)) := by
  rw [elemwise, elemsOf_word t ht, elemsOf_word t ht]
  simp only [List.zipWith_cons_cons, List.zipWith_nil_left, List.map_cons, List.map_nil, iclamp, Bool.false_eq_true, ↓reduceIte,
    elemBits_of_wordTyp ht, intVal_word t ht, packElems_word, ofNat_wrapInt]

/-! ### Affine results (R60, rules 5 to 7; R391) -/

/-- A line that only a 32-bit type without `.sat` has (R391). -/
def lineIf (f : Fields) (line : Option (Word × Word)) : Option (Word × Word) := if (f.typ == .u32 || f.typ == .s32) && !f.sat then line else none

theorem lineIf_some {f : Fields} {line : Option (Word × Word)} {p : Word × Word} (h : lineIf f line = some p) :
    wordTyp f.typ ∧ f.sat = false ∧ line = some p := by
  unfold lineIf at h
  split at h
  · next plain =>
    obtain ⟨ht, hs⟩ : wordTyp f.typ ∧ f.sat = false := by simpa [wordTyp] using plain
    exact ⟨ht, hs, h⟩
  · cases h

theorem affineIf_map (f : Fields) (line : Option (Word × Word)) : affineIf f (line.map lineReg) = (lineIf f line).map lineReg := by
  unfold affineIf lineIf
  by_cases plain : (f.typ = .u32 ∨ f.typ = .s32) ∧ f.sat = false
  · rw [if_pos plain, if_pos (by simpa using plain)]
  · rw [if_neg plain, if_neg (by simpa using plain)]
    rfl

theorem affineIf_none (f : Fields) : affineIf f none = none := ite_self none

/-- Rule 5: a line of two lines' bases and strides. -/
def sumLine (op : Word → Word → Word) (a b : VReg) : Option (Word × Word) :=
  match a.line?, b.line? with
  | some x, some y => some (op x.1 y.1, op x.2 y.2)
  | _, _ => none

/-- Rule 6: an A source times a U source. -/
def productLine (a b : VReg) : Option (Word × Word) :=
  match a, b with
  | .a x t, .u y | .u y, .a x t => some (x * y, t * y)
  | _, _ => none

/-- Rule 6 for a shift: an A source by a U amount. -/
def shiftLine (a b : VReg) : Option (Word × Word) :=
  match a, b with
  | .a x t, .u n => some (x <<< (n.toNat % 32), t <<< (n.toNat % 32))
  | _, _ => none

theorem affine2_eq (op : Word → Word → Word) (a b : VReg) : affine2 op a b = (sumLine op a b).map lineReg := by
  cases a <;> cases b <;> rfl

theorem affineMul_eq (a b : VReg) : affineMul a b = (productLine a b).map lineReg := by
  cases a <;> cases b <;> rfl

theorem affineShl_eq (a b : VReg) : affineShl a b = (shiftLine a b).map lineReg := by
  cases a <;> cases b <;> rfl

/-- Rule 7: a product's line and the addend's. -/
def madLine (a b d : VReg) : Option (Word × Word) :=
  match productLine a b, d.line? with
  | some p, some z => some (p.1 + z.1, p.2 + z.2)
  | _, _ => none

theorem affineMad_eq (a b d : VReg) : affineMad a b d = (madLine a b d).map lineReg := by
  cases a <;> cases b <;> cases d <;> rfl

/-- A line combined by an operation that distributes over lanes holds the combined words. -/
theorem sumLine_lane {op : Word → Word → Word} {a b : VReg} {p : Word × Word} (h : sumLine op a b = some p)
    (hop : ∀ x t y u n, op (x + n * t) (y + n * u) = op x y + n * op t u) (l : Nat) :
    op (a.lane l) (b.lane l) = p.1 + BitVec.ofNat 32 l * p.2 := by
  unfold sumLine at h
  split at h
  · next x y hx hy =>
    cases h
    rw [line_lane a x hx, line_lane b y hy, hop]
  · cases h

theorem productLine_lane {a b : VReg} {p : Word × Word} (h : productLine a b = some p) (l : Nat) :
    a.lane l * b.lane l = p.1 + BitVec.ofNat 32 l * p.2 := by
  unfold productLine at h
  split at h
  · cases h
    simp only [VReg.lane]
    ring
  · cases h
    simp only [VReg.lane]
    ring
  · cases h

theorem shiftLeft_line (x t n : Word) (k : Nat) : (x + n * t) <<< k = x <<< k + n * t <<< k := by
  simp only [shiftLeft_eq_mul_pow]
  ring

theorem shiftLine_lane {a b : VReg} {p : Word × Word} (h : shiftLine a b = some p) (l : Nat) :
    a.lane l <<< ((b.lane l).toNat % 32) = p.1 + BitVec.ofNat 32 l * p.2 := by
  unfold shiftLine at h
  split at h
  · cases h
    exact shiftLeft_line _ _ _ _
  · cases h

theorem madLine_lane {a b d : VReg} {p : Word × Word} (h : madLine a b d = some p) (l : Nat) :
    a.lane l * b.lane l + d.lane l = p.1 + BitVec.ofNat 32 l * p.2 := by
  unfold madLine at h
  split at h
  · next q z hq hz =>
    cases h
    rw [productLine_lane hq, line_lane d z hz]
    ring
  · cases h

/-! ### The flagged instructions -/

/-- The affine rule's line, instruction by instruction (R60, R391). -/
theorem affineRule_iadd (s : State) (c : Cohort) (f : Fields) :
    affineRule (.iadd f) s c = lineIf f (sumLine (· + ·) (s.src c f f.oa) (s.src c f f.ob)) := rfl
theorem affineRule_isub (s : State) (c : Cohort) (f : Fields) :
    affineRule (.isub f) s c = lineIf f (sumLine (· - ·) (s.src c f f.oa) (s.src c f f.ob)) := rfl
theorem affineRule_lea (s : State) (c : Cohort) (f : Fields) :
    affineRule (.lea f) s c = lineIf f (sumLine (fun x y => x + (y <<< immNat f.oc)) (s.src c f f.oa) (s.src c f f.ob)) := rfl
theorem affineRule_imul (s : State) (c : Cohort) (f : Fields) :
    affineRule (.imul f) s c = lineIf f (productLine (s.src c f f.oa) (s.src c f f.ob)) := rfl
theorem affineRule_shl (s : State) (c : Cohort) (f : Fields) :
    affineRule (.shl f) s c = lineIf f (shiftLine (s.src c f f.oa) (s.src c f f.ob)) := rfl
theorem affineRule_imad (s : State) (c : Cohort) (f : Fields) :
    affineRule (.imad f) s c = lineIf f (madLine (s.src c f f.oa) (s.src c f f.ob) (s.src c f f.oc)) := rfl

/-- An instruction with flags that writes lanes made of its sources' words, on the line that R60 gives. -/
def FlagsLanes (i : Instr) (f : Fields) (res : State → Cohort → Nat → Word × BitVec 6) : Prop :=
  ∀ (s : State) (c : Cohort), s.me? = some c →
    exec i s = flaggedOut s c f (sourceRegs i s c) ((affineRule i s c).map lineReg) (res s c) ∧ Lanewise (sourceRegs i s c) (res s c) ∧
    fullShape i s c = (affineRule i s c).elim (uniformShape (sourceRegs i s c)) lineShape

theorem flaggedResult_flagsLanes (i : Instr) (f : Fields) (res : State → Cohort → Nat → Word × BitVec 6) (h : flaggedResult i = some (f, res)) :
    FlagsLanes i f res := by
  intro s c hc
  cases i
  case' iadd | isub | imad | lea | shl =>
    simp only [flaggedResult] at h
    split at h
    · cases h
  all_goals cases h
  all_goals
    refine ⟨?_, fun l k same => ?_, fullShape_of_rule _ s c (fun _ => nofun) (fun _ => nofun) (fun _ => nofun)⟩
    rotate_left
    · simp only [sourceRegs, List.map, List.forall_mem_cons] at same
      simp only [State.opnd, same]
  case iadd narrow | isub narrow =>
    simp only [affineRule_iadd, affineRule_isub, ← affineIf_map, ← affine2_eq]
    exact (if_neg narrow).trans (withMe_some s c _ hc)
  case shl narrow =>
    rw [affineRule_shl, ← affineIf_map, ← affineShl_eq]
    exact (if_neg narrow).trans (withMe_some s c _ hc)
  case imad narrow =>
    rw [affineRule_imad, ← affineIf_map, ← affineMad_eq]
    exact (withMe_some s c _ hc).trans (if_neg narrow)
  case lea narrow =>
    rw [affineRule_lea, ← affineIf_map, ← affine2_eq]
    exact (withMe_some s c _ hc).trans (if_neg narrow)
  case imul =>
    rw [affineRule_imul, ← affineIf_map, ← affineMul_eq]
    exact withMe_some s c _ hc
  case imin | imax => exact (withMe_some s c _ hc).trans (congrArg (flaggedOut s c f _ · _) (affineIf_none f))
  all_goals exact withMe_some s c _ hc

/-- A lane's value lies on the line that R60 gives. -/
theorem flaggedResult_line (i : Instr) (s : State) (c : Cohort) (f : Fields) (res : State → Cohort → Nat → Word × BitVec 6)
    (h : flaggedResult i = some (f, res)) (p : Word × Word) (hp : affineRule i s c = some p) (l : Nat) :
    (res s c l).1 = p.1 + BitVec.ofNat 32 l * p.2 := by
  cases i
  case' iadd | isub | imad | lea | shl =>
    simp only [flaggedResult] at h
    split at h
    · cases h
  all_goals cases h
  case iadd =>
    obtain ⟨ht, hs, line⟩ := lineIf_some (affineRule_iadd s c f ▸ hp)
    rw [hs, elemwise_fst f.typ ht, ofInt_add_exact32]
    exact sumLine_lane line (fun x t y u n => by ring) l
  case isub =>
    obtain ⟨ht, hs, line⟩ := lineIf_some (affineRule_isub s c f ▸ hp)
    rw [hs, elemwise_fst f.typ ht, ofInt_sub_exact32]
    exact sumLine_lane line (fun x t y u n => by ring) l
  case imul =>
    obtain ⟨ht, hs, line⟩ := lineIf_some (affineRule_imul s c f ▸ hp)
    rw [hs, elemwise_fst f.typ ht, ofInt_mul_exact32]
    exact productLine_lane line l
  case shl =>
    obtain ⟨ht, hs, line⟩ := lineIf_some (affineRule_shl s c f ▸ hp)
    rw [narrowed_fst f ht hs, ofInt_exact32_shift]
    exact shiftLine_lane line l
  case imad =>
    obtain ⟨ht, hs, line⟩ := lineIf_some (affineRule_imad s c f ▸ hp)
    rw [narrowed_fst f ht hs, BitVec.ofInt_add, ofInt_mul_exact32, ofInt_exact32]
    exact madLine_lane line l
  case lea =>
    obtain ⟨ht, hs, line⟩ := lineIf_some (affineRule_lea s c f ▸ hp)
    rw [narrowed_fst f ht hs, BitVec.ofInt_add, ofInt_exact32, ofInt_exact32_shift]
    exact sumLine_lane line (fun x t y u n => by rw [shiftLeft_line]; ring) l
  all_goals cases hp

/-- Settles O6: the lanes' values under R60's line, written when no flag is trapped. -/
theorem flaggedVectorResult : Obligations.FlaggedVectorResult := by
  unfold Obligations.FlaggedVectorResult
  intro i s c f res h hc hk free
  obtain ⟨run, words, shape⟩ := flaggedResult_flagsLanes i f res h s c hc
  have line : ∀ p, affineRule i s c = some p → ∀ l, (res s c l).1 = p.1 + BitVec.ofNat 32 l * p.2 :=
    fun p hp => flaggedResult_line i s c f res h p hp
  obtain ⟨written, tag⟩ := putLanes_result { c with vstat := setFlags c.vstat (flagsOf (c.writeMask f) fun l => (res s c l).2) }
    (c.writeMask f) f.od (sourceRegs i s c) (affineRule i s c) (fun l => (res s c l).1) hk (writeMask_alive c f)
    (fun l k same => congrArg Prod.fst (words l k same)) line
  have vstat := congrArg Cohort.vstat written.1.1
  rw [run, shape, flaggedOut, withFlags_untrapped s c _ _ _ free]
  refine ⟨_, rfl, ?_, tag, setFlags_flagsWritten c _ _ _ vstat⟩
  rw [vstat]
  exact written

end Sys2Proof.Machine
end

section
/-!
The trap that an enabled flag takes in place of a result (O9): of which flags each instruction with flags asks.
-/

namespace Sys2Proof.Machine

set_option Elab.async false

/-! ### The instructions with 64-bit results, and those that round -/

theorem exactWide_exec (i : Instr) (s : State) (c : Cohort) (f : Fields) (val : State → Cohort → Nat → Int) (h : exactWide i = some (f, val))
    (hc : s.me? = some c) : exec i s = wideOut f s c (wideSources i s c) (val s c) := by
  cases i
  case' iadd | isub | imad | lea =>
    simp only [exactWide] at h
    split at h
  all_goals cases h
  case iadd wide | isub wide => exact (if_pos wide).trans (withMe_some s c _ hc)
  case imad wide | lea wide => exact (withMe_some s c _ hc).trans (if_pos wide)

theorem roundedResult_exec (i : Instr) (s : State) (c : Cohort) (f : Fields) (res : State → Cohort → Word → Nat → Word × BitVec 6)
    (h : roundedResult i = some (f, res)) (hc : s.me? = some c) : exec i s = roundedOut s c f (sourceRegs i s c) (res s c) := by
  cases i
  all_goals cases h
  all_goals exact withMe_some s c _ hc

/-- A rounding instruction asks of the flags that its lanes raise with their draws (R81, R83). -/
theorem roundedOut_flags (s : State) (c : Cohort) (f : Fields) (srcs : List VReg) (lane : Word → Nat → Word × BitVec 6) :
    ∃ k, roundedOut s c f srcs lane = withFlags s c (c.writeMask f) (fun l => (lane (c.draw f l) l).2) k := by
  unfold roundedOut Cohort.draw
  by_cases sr : f.rnd = .sr
  · simp only [if_pos sr]
    exact ⟨_, rfl⟩
  · simp only [if_neg sr, flaggedOut]
    exact ⟨_, rfl⟩

/-! ### REDL and SCANL (R434) -/

theorem scanWords_flags (t : Typ) (op : Nat) (a : Word) (xs : List Word) (acc : BitVec 6) :
    (scanWords t op (some a) xs).foldl (fun acc r => acc ||| r.2) acc =
      (xs.foldl (fun (p : Word × BitVec 6) y => ((foldLane t op p.1 y).1, p.2 ||| (foldLane t op p.1 y).2)) (a, acc)).2 := by
  induction xs generalizing a acc with
  | nil => rfl
  | cons x xs ih => exact ih _ _

/-- REDL's flags are those of the whole fold. -/
theorem scanWords_foldFlags (t : Typ) (op : Nat) (ws : List Word) :
    (scanWords t op none ws).foldl (fun acc r => acc ||| r.2) 0 = foldFlags t op ws := by
  cases ws with
  | nil => rfl
  | cons x xs => simpa [scanWords, foldFlags] using scanWords_flags t op x xs 0

theorem scanWords_some_append (t : Typ) (op : Nat) (a : Word) (xs ys : List Word) :
    scanWords t op (some a) (xs ++ ys) =
      scanWords t op (some a) xs ++ scanWords t op (some (xs.foldl (fun a y => (foldLane t op a y).1) a)) ys := by
  induction xs generalizing a with
  | nil => rfl
  | cons x xs ih => exact congrArg (List.cons _) (ih _)

theorem scanWords_append (t : Typ) (op : Nat) (xs ys : List Word) (h : xs ≠ []) :
    scanWords t op none (xs ++ ys) = scanWords t op none xs ++ scanWords t op (some (foldWords t op xs)) ys := by
  cases xs with
  | nil => exact absurd rfl h
  | cons x xs => exact congrArg (List.cons _) (scanWords_some_append t op x xs ys)

theorem scanWords_length (t : Typ) (op : Nat) (o : Option Word) (xs : List Word) : (scanWords t op o xs).length = xs.length := by
  induction xs generalizing o with
  | nil => cases o <;> rfl
  | cons x xs ih => cases o <;> exact congrArg (· + 1) (ih _)

/-- A lane of a mask parts the mask's lanes into those below it and those above it. -/
theorem laneList_split (m : Mask) (l : Nat) (h : l ∈ laneList m) : ∃ above, laneList m = lanesBelow m l ++ l :: above := by
  obtain ⟨below, above, e⟩ := List.append_of_mem h
  have sorted := laneList_sorted m
  rw [e, List.pairwise_append, List.pairwise_cons] at sorted
  obtain ⟨-, ⟨up, -⟩, low⟩ := sorted
  have lo : below.filter (· < l) = below := List.filter_eq_self.2 fun k hk => by simpa using low k hk l (by simp)
  have hi : (l :: above).filter (· < l) = [] := List.filter_eq_nil_iff.2 fun k hk => by
    rcases List.mem_cons.1 hk with rfl | hk
    · simp
    · simpa using (up k hk).le
  exact ⟨above, by rw [lanesBelow, e, List.filter_append, lo, hi, List.append_nil]⟩

/-- What SCANL has made when it comes to a lane: the flags of the lane's own addition. -/
theorem scanWords_foldStep (f : Fields) (op : Nat) (m : Mask) (val : Nat → Word) (l : Nat) (h : l ∈ laneList m) :
    ∃ r, ((laneList m).zip (scanWords f.typ op none ((laneList m).map val))).find? (fun p => p.1 == l) = some (l, r) ∧
      r.2 = foldStep f op m val l := by
  obtain ⟨above, e⟩ := laneList_split m l h
  have passed : ∀ rs : List (Word × BitVec 6), ((lanesBelow m l).zip rs).find? (fun p => p.1 == l) = none := by
    intro rs
    rw [List.find?_eq_none]
    rintro ⟨k, r⟩ hk
    have := (List.mem_filter.1 (List.of_mem_zip hk).1).2
    simp at this ⊢
    omega
  unfold foldStep
  split
  · next lowest =>
    rw [e, lowest]
    exact ⟨(val l, 0), by simp [scanWords], rfl⟩
  · next ls higher =>
    have ne : (lanesBelow m l).map val ≠ [] := by simpa using higher
    rw [e, List.map_append, List.map_cons, scanWords_append _ _ _ _ ne, List.zip_append (by rw [scanWords_length, List.length_map]),
      List.find?_append, passed]
    exact ⟨_, by simp [scanWords], rfl⟩

theorem exec_redl_flags (s : State) (c : Cohort) (f : Fields) (hc : s.me? = some c) :
    ∃ k, exec (.redl f) s = withFlags s c (c.writeMask f)
      (fun _ => foldFlags f.typ f.sub.toNat ((laneList (c.writeMask f)).map (s.opnd c f f.oa))) k := by
  rw [← scanWords_foldFlags]
  exact ⟨_, withMe_some s c _ hc⟩

theorem exec_scanl_flags (s : State) (c : Cohort) (f : Fields) (hc : s.me? = some c) :
    ∃ k, exec (.scanl f) s = withFlags s c (c.writeMask f)
      (foldStep f (if f.sub = 3 then 0 else f.sub.toNat) (c.writeMask f) (s.opnd c f f.oa)) k := by
  refine ⟨_, (withMe_some s c _ hc).trans (withFlags_congr s c _ _ _ _ fun l hl => ?_)⟩
  obtain ⟨r, found, flags⟩ := scanWords_foldStep f (if f.sub = 3 then 0 else f.sub.toNat) (c.writeMask f) (s.opnd c f f.oa) l hl
  rw [← flags]
  exact congrArg (fun o : Option (Nat × Word × BitVec 6) => match o with
    | some p => p.2.2
    | none => 0) found

/-- Settles O9: each of these instructions asks the trap enables of the flags that the statement names. -/
theorem enabledFlagTraps : Obligations.EnabledFlagTraps := by
  unfold Obligations.EnabledFlagTraps
  intro i s c f fl raised hc caught
  suffices asks : ∃ k, exec i s = withFlags s c (c.writeMask f) fl k by
    obtain ⟨k, run⟩ := asks
    rw [run]
    exact withFlags_traps s c _ fl k caught
  rcases raised with ⟨res, h, rfl⟩ | ⟨val, h, rfl⟩ | ⟨res, h, rfl⟩ | ⟨rfl, rfl⟩ | ⟨rfl, rfl⟩
  · obtain ⟨run, -, -⟩ := flaggedResult_flagsLanes i f res h s c hc
    rw [run, flaggedOut]
    exact ⟨_, rfl⟩
  · rw [exactWide_exec i s c f val h hc, wideOut]
    exact ⟨_, rfl⟩
  · rw [roundedResult_exec i s c f res h hc]
    exact roundedOut_flags s c f _ (res s c)
  · exact exec_redl_flags s c f hc
  · exact exec_scanl_flags s c f hc

end Sys2Proof.Machine
end

section
/-!
The shape instructions (O13), and MFS (O24).
-/

namespace Sys2Proof.Machine

set_option Elab.async false

/-! ### The lanes that are not dead, and what VSQZ finds in them (R64) -/

/-- The lanes of a cohort that are not dead, in ascending order. -/
def Cohort.liveLanes (c : Cohort) : List Nat := (List.range c.width).filter fun l => !c.dead.getLsbD l

theorem mem_liveLanes (c : Cohort) (l : Nat) : l ∈ c.liveLanes ↔ l < c.width ∧ c.dead.getLsbD l = false := by
  simp [Cohort.liveLanes]

theorem liveLanes_sorted (c : Cohort) : c.liveLanes.Pairwise (· < ·) := List.Pairwise.filter _ List.pairwise_lt_range

/-- The lowest lane that is not dead heads the list. -/
theorem liveLanes_of_lowest (c : Cohort) (l0 : Nat) (hl : l0 ∈ c.liveLanes) (low : ∀ l, l < l0 → c.dead.getLsbD l = true) :
    ∃ rest, c.liveLanes = l0 :: rest := by
  have sorted := liveLanes_sorted c
  cases h : c.liveLanes with
  | nil => simp [h] at hl
  | cons x rest =>
    rw [h] at hl sorted
    have alive := ((mem_liveLanes c x).1 (by simp [h])).2
    rcases List.mem_cons.1 hl with rfl | later
    · exact ⟨rest, rfl⟩
    · rw [low x ((List.pairwise_cons.1 sorted).1 l0 later)] at alive
      cases alive

/-- The stride of the line through a lane and its neighbour. -/
def VReg.strideAt (a : VReg) (l : Nat) : Word := a.lane (l + 1) - a.lane l

/-- The base of that line. -/
def VReg.baseAt (a : VReg) (l : Nat) : Word := a.lane l - BitVec.ofNat 32 l * a.strideAt l

theorem squeeze_of_dead (c : Cohort) (a : VReg) (h : c.liveLanes = []) : c.squeeze a = .u 0 := by
  rw [Cohort.liveLanes] at h
  rw [Cohort.squeeze, h]

/-- VSQZ with a lowest lane that is not dead: U when the words are equal, A on the line through that lane and its neighbour, else G. -/
theorem squeeze_of_lowest (c : Cohort) (a : VReg) (l0 : Nat) (rest : List Nat) (h : c.liveLanes = l0 :: rest) :
    c.squeeze a =
      if ∀ l ∈ c.liveLanes, a.lane l = a.lane l0 then .u (a.lane l0)
      else if l0 + 1 ∈ c.liveLanes ∧ ∀ l ∈ c.liveLanes, a.lane l = a.baseAt l0 + BitVec.ofNat 32 l * a.strideAt l0
        then .a (a.baseAt l0) (a.strideAt l0)
      else c.general a.lane := by
  have sorted := liveLanes_sorted c
  rw [h] at sorted ⊢
  rw [Cohort.liveLanes] at h
  rw [Cohort.squeeze, h]
  cases rest with
  | nil => simp
  | cons l1 rest =>
    obtain ⟨up, sorted⟩ := List.pairwise_cons.1 sorted
    have next : l0 + 1 ∈ l0 :: l1 :: rest ↔ l1 = l0 + 1 := by
      have := up l1 (by simp)
      constructor
      · intro hn
        rcases List.mem_cons.1 hn with e | hn
        · omega
        · rcases List.mem_cons.1 hn with e | hn
          · exact e.symm
          · have := (List.pairwise_cons.1 sorted).1 _ hn
            omega
      · rintro rfl
        simp
    by_cases near : l1 = l0 + 1
    · subst near
      simp only [next.2 rfl, List.all_eq_true, beq_iff_eq, VReg.baseAt, VReg.strideAt, true_and]
    · simp only [next, near, List.all_eq_true, beq_iff_eq, false_and, ↓reduceIte]

theorem squeeze_lane (c : Cohort) (a : VReg) (l : Nat) (hl : l ∈ c.liveLanes) : (c.squeeze a).lane l = a.lane l := by
  cases h : c.liveLanes with
  | nil => simp [h] at hl
  | cons l0 rest =>
    rw [squeeze_of_lowest c a l0 rest h]
    split
    · next equal => exact (equal l hl).symm
    · split
      · next line => exact (line.2 l hl).symm
      · obtain ⟨hw, hd⟩ := (mem_liveLanes c l).1 hl
        exact general_lane c _ l hw hd

theorem squeeze_isU (c : Cohort) (a : VReg) (equal : ∀ l ∈ c.liveLanes, ∀ k ∈ c.liveLanes, a.lane l = a.lane k) : (c.squeeze a).isU = true := by
  cases h : c.liveLanes with
  | nil => rw [squeeze_of_dead c a h]; rfl
  | cons l0 rest =>
    rw [squeeze_of_lowest c a l0 rest h, if_pos fun l hl => equal l hl l0 (by simp [h])]
    rfl

/-! ### VSHAPE, VEXP and VSQZ (R452) -/

theorem exec_vshape (s : State) (c : Cohort) (f : Fields) (hc : s.me? = some c) :
    exec (.vshape f) s = finish s (if c.writeMask f = 0 then c
      else c.setReg (opndIndex f.od) (.u (BitVec.ofNat 32 (c.reg (opndIndex f.oa)).tag))) :=
  (withMe_some s c _ hc).trans (apply_ite (finish s) _ _ _).symm

theorem exec_vexp (s : State) (c : Cohort) (f : Fields) (hc : s.me? = some c) :
    exec (.vexp f) s = finish s (if c.writeMask f = 0 then c
      else c.setReg (opndIndex f.od) (c.general (c.reg (opndIndex f.oa)).lane)) :=
  (withMe_some s c _ hc).trans (apply_ite (finish s) _ _ _).symm

theorem exec_vsqz (s : State) (c : Cohort) (f : Fields) (hc : s.me? = some c) :
    exec (.vsqz f) s = finish s (if c.writeMask f = 0 then c
      else c.setReg (opndIndex f.od) (c.squeeze (c.reg (opndIndex f.oa)))) :=
  (withMe_some s c _ hc).trans (apply_ite (finish s) _ _ _).symm

/-- Settles O13: the whole destination takes the tag code, the words, or the shape that VSQZ finds. -/
theorem shapeInstructions : Obligations.ShapeInstructions := by
  unfold Obligations.ShapeInstructions
  intro s c f hc hk
  rw [exec_vshape s c f hc, exec_vexp s c f hc, exec_vsqz s c f hc]
  constructor
  · intro empty
    simp only [if_pos empty]
    exact ⟨rfl, rfl, rfl⟩
  · intro writes
    simp only [if_neg writes]
    refine ⟨⟨_, rfl, setReg_only c _ _, fun n hn => setReg_other c _ n _ hn, setReg_reg c _ _ hk⟩,
      ⟨_, _, rfl, setReg_only c _ _, fun n hn => setReg_other c _ n _ hn, setReg_reg c _ _ hk, ?_⟩,
      ⟨_, rfl, setReg_only c _ _, fun n hn => setReg_other c _ n _ hn, ?_⟩⟩
    all_goals rw [setReg_reg c _ _ hk]
    · exact fun l hw hd => general_lane c _ l hw hd
    · generalize c.reg (opndIndex f.oa) = a
      have live (l : Nat) (hw : l < c.width) (hd : c.dead.getLsbD l = false) : l ∈ c.liveLanes := (mem_liveLanes c l).2 ⟨hw, hd⟩
      refine ⟨fun l hw hd => squeeze_lane c a l (live l hw hd), fun equal => squeeze_isU c a ?_, fun dead => squeeze_of_dead c a ?_, ?_⟩
      · simp only [mem_liveLanes]
        exact fun l hl k hk => equal l k hl.1 hk.1 hl.2 hk.2
      · refine List.eq_nil_iff_forall_not_mem.2 fun l hl => ?_
        obtain ⟨hw, hd⟩ := (mem_liveLanes c l).1 hl
        rw [dead l hw] at hd
        cases hd
      · rintro l0 b t hw hd low rfl rfl differ
        obtain ⟨rest, lowest⟩ := liveLanes_of_lowest c l0 (live l0 hw hd) low
        rw [squeeze_of_lowest c a l0 rest lowest, if_neg fun equal => differ fun l hw hd => equal l (live l hw hd)]
        have onLine : (l0 + 1 ∈ c.liveLanes ∧ ∀ l ∈ c.liveLanes, a.lane l = a.baseAt l0 + BitVec.ofNat 32 l * a.strideAt l0) ↔
            l0 + 1 < c.width ∧ c.dead.getLsbD (l0 + 1) = false ∧
              ∀ l, l < c.width → c.dead.getLsbD l = false → a.lane l = a.baseAt l0 + BitVec.ofNat 32 l * a.strideAt l0 := by
          simp only [mem_liveLanes, and_imp, and_assoc]
        constructor
        · intro line
          rw [if_pos (onLine.2 line)]
          rfl
        · intro off
          rw [if_neg (mt onLine.1 off)]
          exact general_meets c _

/-! ### MFS (R52, R412) -/

theorem special_shape (s : State) (c : Cohort) (i : Nat) (h : i ≠ 0) : ∃ x, s.special c i = .u x := by
  unfold State.special
  split
  · exact absurd rfl h
  all_goals exact ⟨_, rfl⟩

/-- A cohort of no pair reads a value from outside for itself (R296). -/
theorem outsideValue_of_single (s : State) (c : Cohort) (own : DWord) (k : State → Cohort → DWord → Out) (h : c.role = .single) :
    outsideValue s c own k = k s c own := by
  simp [outsideValue, Cohort.fwdIn, State.fwdGive, h]

theorem exec_mfs_wide (s : State) (c : Cohort) (f : Fields) (hc : s.me? = some c) (hr : c.role = .single)
    (wide : wideSpecial (opndIndex f.oa) = true) :
    exec (.mfs f) s = finish s (c.putLanes64 (c.writeMask f) f.od [] fun _ => s.special64 c (opndIndex f.oa)) := by
  refine (withMe_some s c _ hc).trans ((if_pos wide).trans ?_)
  split
  · exact outsideValue_of_single s c _ _ hr
  · rfl

theorem exec_mfs_narrow (s : State) (c : Cohort) (f : Fields) (hc : s.me? = some c) (hr : c.role = .single)
    (narrow : wideSpecial (opndIndex f.oa) = false) :
    exec (.mfs f) s = finish s (c.putVec (c.writeMask f) (opndIndex f.od) (s.special c (opndIndex f.oa)).lane (s.special c (opndIndex f.oa))) := by
  refine (withMe_some s c _ hc).trans ((if_neg (by simp [narrow])).trans ?_)
  split
  · next shared =>
    obtain ⟨x, hx⟩ := special_shape s c (opndIndex f.oa) (by omega)
    have word : DWord.lo (x.setWidth 64) = x := BitVec.setWidth_setWidth_of_le x (by decide)
    rw [outsideValue_of_single s c _ _ hr, hx]
    simp only [VReg.lane, word]
    rfl
  · rfl

/-- Settles O24: a pair takes a 64-bit register as U, one register any other with the shape of R52. -/
theorem specialRegisterReads : Obligations.SpecialRegisterReads := by
  unfold Obligations.SpecialRegisterReads
  intro s c f i hc hr hi hk
  have alive := writeMask_alive c f
  have index : opndIndex f.oa = i.toNat := by rw [hi]; rfl
  refine ⟨fun wide => ?_, fun narrow => ?_, ?_, rfl, rfl, rfl, ?_, ?_⟩
  · rw [← index] at wide ⊢
    exact ⟨_, exec_mfs_wide s c f hc hr wide, putLanes64_writes c _ _ [] _ hk alive fun _ _ => rfl, putLanes64_tags c _ _ [] _ hk⟩
  · have shape : (s.special c i.toNat).meets (if i = 0 then .a 0 1 else .u) := by
      split
      · next zero => rw [zero]; rfl
      · next other => exact special_shape s c _ fun zero => other (BitVec.eq_of_toNat_eq zero)
    rw [← index] at narrow shape ⊢
    exact ⟨_, exec_mfs_narrow s c f hc hr narrow, putVec_writes c _ _ _ _ (by omega) alive fun _ _ _ _ => rfl,
      putVec_tag c _ _ _ _ _ (by omega) fun _ => shape⟩
  · intro l
    have core : s.idCore c = c.core := by simp [State.idCore, hr]
    simp [State.special, VReg.lane, core, dieOf]
  · intro run
    simp [State.special64, Cohort.actmask, run]
  · intro k handler saved
    simp [State.special64, Cohort.actmask, handler, saved]

end Sys2Proof.Machine
end

section
/-!
The integer instructions with 64-bit results (O7), and the instructions that round (O8): the values, the tags and the flags of the two
outcomes that they share, `wideOut` and `roundedOut`.
-/

namespace Sys2Proof.Machine

set_option Elab.async false

/-! ### Flags (R54, R81) -/

/-- A cohort with the flags of a mask's lanes in $VSTAT (R54, R81). -/
def Cohort.withLaneFlags (c : Cohort) (m : Mask) (fl : Nat → BitVec 6) : Cohort := { c with vstat := setFlags c.vstat (flagsOf m fl) }

/-- Flags that no enable catches: the results are written to the cohort in which the flags stand. -/
theorem withFlags_withLaneFlags (s : State) (c : Cohort) (m : Mask) (fl : Nat → BitVec 6) (k : Cohort → Cohort) (free : untrapped c m fl) :
    withFlags s c m fl k = finish s (k (c.withLaneFlags m fl)) :=
  withFlags_untrapped s c m fl k free

/-! ### 64-bit integer results (R396, R400, R407) -/

/-- A `.w64` instruction's exact integer in a lane is made of its source halves' words in that lane. -/
theorem exactWide_lanewise (i : Instr) (s : State) (c : Cohort) (f : Fields) (val : State → Cohort → Nat → Int)
    (h : exactWide i = some (f, val)) : Lanewise (wideSources i s c) (val s c) := by
  intro l k same
  cases i
  case' iadd | isub | imad | lea =>
    simp only [exactWide] at h
    split at h
  all_goals cases h
  all_goals
    simp only [wideSources, List.cons_append, List.nil_append, List.forall_mem_cons] at same
    simp only [State.opnd, Cohort.opnd64, lane64, same]

/-- A 64-BIT INTEGER RESULT WITH NO FLAG CAUGHT: the narrowed integers are written to the cohort in which the flags stand. -/
theorem wideOut_untrapped (f : Fields) (s : State) (c : Cohort) (srcs : List VReg) (val : Nat → Int)
    (free : untrapped c (c.writeMask f) fun l => (iclamp64 (f.typ == .s32) f.sat (val l)).2) :
    wideOut f s c srcs val = finish s ((c.withLaneFlags (c.writeMask f) fun l => (iclamp64 (f.typ == .s32) f.sat (val l)).2).putLanes64
      (c.writeMask f) f.od srcs fun l => (iclamp64 (f.typ == .s32) f.sat (val l)).1) := by
  rw [wideOut, withFlags_withLaneFlags s c _ _ _ free]

/-- Settles O7: with no flag caught the pair takes the narrowed integers, under rule 3 of R60. -/
theorem wideIntegerResult : Obligations.WideIntegerResult := by
  unfold Obligations.WideIntegerResult
  intro i s c f val h hc hk free
  have words : Lanewise (wideSources i s c) fun l => (iclamp64 (f.typ == .s32) f.sat (val s c l)).1 :=
    fun l k same => by simp only [exactWide_lanewise i s c f val h l k same]
  have written := putLanes64_writes (c.withLaneFlags (c.writeMask f) fun l => (iclamp64 (f.typ == .s32) f.sat (val s c l)).2)
    (c.writeMask f) f.od _ _ hk (writeMask_alive c f) words.of_uniform
  have tags := putLanes64_tags (c.withLaneFlags (c.writeMask f) fun l => (iclamp64 (f.typ == .s32) f.sat (val s c l)).2)
    (c.writeMask f) f.od (wideSources i s c) (fun l => (iclamp64 (f.typ == .s32) f.sat (val s c l)).1) hk
  have vstat := congrArg Cohort.vstat written.1.1
  rw [exactWide_exec i s c f val h hc, wideOut_untrapped f s c _ _ free]
  refine ⟨_, rfl, ?_, tags, setFlags_flagsWritten c _ _ _ vstat⟩
  rw [vstat]
  exact written

/-! ### Rounded results (R81, R83, R363) -/

/-- The generator's state plays no part in the write of a register. -/
theorem putVec_srseed (c : Cohort) (m : Mask) (k : Nat) (val : Nat → Word) (shape : VReg) (seed : DWord) :
    { c.putVec m k val shape with srseed := seed } = { c with srseed := seed }.putVec m k val shape := by
  unfold Cohort.putVec
  change _ = if m = 0 then _ else if c.full m = true then _ else _
  split
  · rfl
  · split <;> rfl

/-- The shape of a full result of a rounding instruction: G under `.sr`, else that of rules 12 and 13 (R60). -/
def roundedShape (f : Fields) (srcs : List VReg) : Shape := if f.rnd = .sr then .g else uniformShape srcs

/-- ROUNDING WITH NO FLAG CAUGHT (R83): the lanes' results, each from its draw, are written to the cohort in which the flags and the
generator's new state stand. -/
theorem roundedOut_untrapped (s : State) (c : Cohort) (f : Fields) (srcs : List VReg) (lane : Word → Nat → Word × BitVec 6)
    (free : untrapped c (c.writeMask f) fun l => (lane (c.draw f l) l).2) :
    roundedOut s c f srcs lane = finish s (Cohort.putVec
      { c.withLaneFlags (c.writeMask f) fun l => (lane (c.draw f l) l).2 with srseed := c.seedAfter f }
      (c.writeMask f) (opndIndex f.od) (fun l => (lane (c.draw f l) l).1)
      (c.resultShape (f.rnd == .sr) srcs none fun l => (lane (c.draw f l) l).1)) := by
  unfold Cohort.draw at free
  unfold roundedOut Cohort.draw Cohort.seedAfter
  by_cases sr : f.rnd = .sr
  · simp only [if_pos sr] at free ⊢
    rw [withFlags_untrapped s c _ _ _ free, putVec_srseed]
    simp only [sr]
    rfl
  · simp only [if_neg sr] at free ⊢
    rw [flaggedOut, withFlags_withLaneFlags s c _ _ _ free]
    simp only [beq_false_of_ne sr]
    rfl

/-- A full result of a rounding instruction has the shape that R60 gives it. -/
theorem roundedResultShape_meets (c : Cohort) (f : Fields) (srcs : List VReg) (val : Nat → Word) :
    (c.resultShape (f.rnd == .sr) srcs none val).meets (roundedShape f srcs) := by
  unfold roundedShape
  by_cases sr : f.rnd = .sr
  · rw [if_pos sr, sr]
    exact general_meets c val
  · rw [if_neg sr, beq_false_of_ne sr]
    exact meets_of_uniform c srcs val

/-- A full result of a rounding instruction has the lanes' values, whatever shape it takes. -/
theorem roundedResultShape_lane (c : Cohort) (f : Fields) (srcs : List VReg) (val : Nat → Word) (hv : f.rnd ≠ .sr → Lanewise srcs val)
    (l : Nat) (hw : l < c.width) (hd : c.dead.getLsbD l = false) : (c.resultShape (f.rnd == .sr) srcs none val).lane l = val l := by
  by_cases sr : f.rnd = .sr
  · rw [sr]
    exact general_lane c val l hw hd
  · rw [beq_false_of_ne sr]
    exact resultShape_lane c srcs none val (hv sr).of_uniform (by simp) l hw hd

/-- With one draw for every lane a rounding instruction's result is made of its sources' words in the lane. -/
theorem roundedResult_lanewise (i : Instr) (s : State) (c : Cohort) (f : Fields) (res : State → Cohort → Word → Nat → Word × BitVec 6)
    (h : roundedResult i = some (f, res)) (u : Word) : Lanewise (sourceRegs i s c) (res s c u) := by
  intro l k same
  cases i
  all_goals cases h
  all_goals
    simp only [sourceRegs, List.map, List.forall_mem_cons] at same
    simp only [State.opnd, same]

/-- No rounding instruction has an affine result, nor a rule of its own in R60. -/
theorem roundedResult_fullShape (i : Instr) (s : State) (c : Cohort) (f : Fields) (res : State → Cohort → Word → Nat → Word × BitVec 6)
    (h : roundedResult i = some (f, res)) : fullShape i s c = uniformShape (sourceRegs i s c) := by
  cases i
  all_goals cases h
  all_goals rfl

/-- Settles O8: the lanes' rounded values under `roundedShape`, written when no flag is trapped. -/
theorem roundedVectorResult : Obligations.RoundedVectorResult := by
  unfold Obligations.RoundedVectorResult
  intro i s c f res h hc hk free
  have alive := writeMask_alive c f
  have words : f.rnd ≠ .sr → Lanewise (sourceRegs i s c) fun l => (res s c (c.draw f l) l).1 := by
    intro sr l k same
    simp only [Cohort.draw, if_neg sr, roundedResult_lanewise i s c f res h 0 l k same]
  have written := putVec_writes
    { c.withLaneFlags (c.writeMask f) fun l => (res s c (c.draw f l) l).2 with srseed := c.seedAfter f }
    (c.writeMask f) _ (fun l => (res s c (c.draw f l) l).1) _ hk alive
    fun _ l hw hl => roundedResultShape_lane c f (sourceRegs i s c) _ words l hw (alive l hl)
  have tag := putVec_tag
    { c.withLaneFlags (c.writeMask f) fun l => (res s c (c.draw f l) l).2 with srseed := c.seedAfter f }
    (c.writeMask f) _ (fun l => (res s c (c.draw f l) l).1) _ _ hk fun _ =>
      roundedResultShape_meets c f (sourceRegs i s c) fun l => (res s c (c.draw f l) l).1
  have vstat := congrArg Cohort.vstat written.1.1
  rw [roundedResult_exec i s c f res h hc, roundedOut_untrapped s c f _ _ free, roundedResult_fullShape i s c f res h]
  refine ⟨_, rfl, ?_, tag, setFlags_flagsWritten c _ _ _ vstat⟩
  rw [vstat]
  exact written

end Sys2Proof.Machine
end

section
/-!
A grant that reaches memory (O53).

The destination of ACCALLOC is one V register (R335). A grant writes the handle there, the register becomes U and gives up its row, and memory
stays as it was. The statement asks nothing of the destination that the waiting cohort has kept. Where that is a pair, which no decoded ACCALLOC
leaves behind, `Cohort.granted` writes no register, and `State.settleOpnd` still settles both: a G register of the pair that obtains no row is put
into the spill area (R58), which is memory. What the statement lacks is that the kept destination is a V register.
-/

namespace Sys2Proof.Machine

set_option Elab.async false

/-- The placed program's cohort, waiting for banks with a pair as destination: register 0 of the pair is G, and the cohort's spill area begins where the
tile window does. -/
def pairTaker : Cohort := { progCohort with regs := [.g [5]], budget := 0, spill := 2 ^ 40, wait := .banks (.pair 0) }

/-- A cohort of the same slot to which all of the slot's rows are promised. -/
def rowHolder : Cohort := { progCohort with cid := 1, place := 1, budget := poolRows }

/-- Core 0 with a request of the first cohort for one bank, and all of its banks free. -/
def pairGrant : State :=
  { State.reset with ctxs := [progCtx], cohorts := [pairTaker, rowHolder], cores := [{ CoreState.init 0 with bankQ := [(0, 1)] }] }

/-- The grant spills register 0 of the pair into tile memory. -/
theorem grantBanks_pairGrant_spills : memByte (pairGrant.grantBanks 0).mem (tileKey 0 0) = 5 := by decide +kernel

/-- Refutes O53: in `pairGrant` the request is granted, and BANK_GRANT leaves other memory than it found. -/
theorem not_engineEvents : ¬ Obligations.EngineEvents := by
  unfold Obligations.EngineEvents
  intro h
  obtain ⟨-, grant, -, -⟩ := h pairGrant 0
  have enough : 1 ≤ ((pairGrant.core 0).banks.filter fun b => b.owner.isNone).length := by simp [pairGrant, State.core, CoreState.init]
  obtain ⟨t, d, run, mem, -⟩ := grant 0 1 pairTaker (.pair 0) rfl enough rfl rfl
  have granted : pairGrant.grantBanks 0 = t := Host.Outcome.next.inj run
  have spilled := grantBanks_pairGrant_spills
  rw [granted, mem] at spilled
  exact absurd spilled (by decide)

end Sys2Proof.Machine
end

section
/-!
What the parts of a lane access do to the state, said once: translation (R114, R115), the notes of caches and pins, and the stores of a
package that keeps no pre-image (R263). `State.touches` is what a translation may do, `State.plainAccess` what any part of an access may.
-/

namespace Sys2Proof.Machine

set_option Elab.async false

/-! ### What a part of an access may change -/

/-- `State.onlyAccess` of an access that opens no copy of a page: the amber views stay too. -/
def State.plainAccess (s t : State) : Prop :=
  t = { s with mem := t.mem, poison := t.poison, cores := t.cores, quads := t.quads, l2 := t.l2, ctxs := t.ctxs }

theorem State.plainAccess_refl (s : State) : s.plainAccess s := rfl

theorem State.plainAccess.trans {s t u : State} (h : s.plainAccess t) (g : t.plainAccess u) : s.plainAccess u := by
  unfold State.plainAccess at *
  rw [h] at g
  exact g

theorem State.plainAccess.onlyAccess {s t : State} (h : s.plainAccess t) : s.onlyAccess t := by
  unfold State.onlyAccess
  rw [h]

theorem State.plainAccess.plainStores {s t : State} (h : s.plainAccess t) (p : s.plainStores) : t.plainStores := by
  unfold State.plainStores
  rw [h]
  exact p

/-- What translations do (R114, R115): the A and D bits of leaf entries, which `leaf` selects, the TLBs, the walk caches, the lines of L2 and
the pins. -/
structure State.touches (leaf : Nat → Bool) (s t : State) : Prop where
  frame : t = { s with mem := t.mem, cores := t.cores, quads := t.quads, l2 := t.l2, ctxs := t.ctxs }
  core : ∀ k, t.core k = { s.core k with tlb := (t.core k).tlb }
  mem : ∀ a, leaf a = false → memByte t.mem a = memByte s.mem a

theorem State.touches.refl (leaf : Nat → Bool) (s : State) : State.touches leaf s s := ⟨rfl, fun _ => rfl, fun _ _ => rfl⟩

theorem State.touches.trans {leaf : Nat → Bool} {s t u : State} (h : State.touches leaf s t) (g : State.touches leaf t u) :
    State.touches leaf s u := by
  refine ⟨?_, fun k => ?_, fun a ha => (g.mem a ha).trans (h.mem a ha)⟩
  · have frame := g.frame
    rw [h.frame] at frame
    exact frame
  · have core := g.core k
    rw [h.core k] at core
    exact core

theorem State.touches.weaken {leaf leaf' : Nat → Bool} {s t : State} (h : State.touches leaf s t)
    (hl : ∀ a, leaf' a = false → leaf a = false) : State.touches leaf' s t :=
  ⟨h.frame, h.core, fun a ha => h.mem a (hl a ha)⟩

theorem State.touches.foldl {α : Type} {leaf : Nat → Bool} (g : State → α → State) (xs : List α)
    (h : ∀ x ∈ xs, ∀ s, State.touches leaf s (g s x)) (s : State) : State.touches leaf s (xs.foldl g s) := by
  induction xs generalizing s with
  | nil => exact .refl leaf s
  | cons x xs ih => exact (h x (by simp) s).trans (ih (fun y hy => h y (by simp [hy])) (g s x))

theorem State.touches.plainAccess {leaf : Nat → Bool} {s t : State} (h : State.touches leaf s t) : s.plainAccess t := by
  unfold State.plainAccess
  rw [h.frame]

theorem State.touches.poison {leaf : Nat → Bool} {s t : State} (h : State.touches leaf s t) : t.poison = s.poison := by rw [h.frame]

theorem State.touches.poisoned {leaf : Nat → Bool} {s t : State} (h : State.touches leaf s t) (a n : Nat) :
    t.poisoned a n = s.poisoned a n := by
  unfold State.poisoned
  rw [h.poison]

theorem State.touches.l1 {leaf : Nat → Bool} {s t : State} (h : State.touches leaf s t) (k : Nat) : (t.core k).l1 = (s.core k).l1 := by
  rw [h.core k]

theorem State.touches.wc {leaf : Nat → Bool} {s t : State} (h : State.touches leaf s t) (k : Nat) : (t.core k).wc = (s.core k).wc := by
  rw [h.core k]

/-! ### Translations (R114, R115) -/

theorem State.touches_of_l2 {leaf : Nat → Bool} {s t : State} (h : t = { s with l2 := t.l2 }) : State.touches leaf s t := by
  refine ⟨?_, fun k => ?_, fun a _ => ?_⟩
  all_goals rw [h]
  rfl

/-- A note of a line changes what L2 holds, and nothing else. -/
theorem State.noteLine_frame (s : State) (key : Nat) (mt pol : BitVec 2) :
    s.noteLine key mt pol = { s with l2 := (s.noteLine key mt pol).l2 } := by
  unfold State.noteLine
  dsimp only
  repeat' split
  all_goals rfl

theorem State.noteLine_touches (leaf : Nat → Bool) (s : State) (key : Nat) (mt pol : BitVec 2) :
    State.touches leaf s (s.noteLine key mt pol) := State.touches_of_l2 (s.noteLine_frame key mt pol)

theorem State.noteWalk_touches (leaf : Nat → Bool) (s : State) (p : XPort) (x : Ctx) (va : Nat) :
    State.touches leaf s (s.noteWalk p x va) := by
  have walk (tlbs : List TlbEntry) (cache : List WalkEntry) : State.touches leaf s
      (match tlbFind tlbs x.ctxid va with
        | some _ => s
        | none => (walkAddrs s x.ctxid cache va [0, 1, 2, 3] x.root).foldl (fun t a => t.noteLine a 0 0) s) := by
    split
    · exact .refl leaf s
    · exact .foldl _ _ (fun a _ t => t.noteLine_touches leaf a 0 0) s
  cases p with
  | core k => exact walk _ _
  | die d => exact walk _ _
  | front => exact .refl leaf s

theorem State.noteXlat_touches (leaf : Nat → Bool) (s : State) (p : XPort) (x : Ctx) (va : DWord) (r : Xlat) :
    State.touches leaf s (s.noteXlat p x va r) := by
  cases r with
  | ok key mt e tile =>
    cases e with
    | none => exact .refl leaf s
    | some e => exact s.noteWalk_touches leaf p x _
  | fault g reason =>
    unfold State.noteXlat
    dsimp only
    split
    · exact s.noteWalk_touches leaf p x _
    · exact .refl leaf s
  | poisoned addr => exact s.noteWalk_touches leaf p x _
  | nonres mt => exact s.noteWalk_touches leaf p x _

theorem State.core_setCore_eq (s : State) (v : CoreState) (k : Nat) : (s.setCore v).core k = if k = v.core then v else s.core k := by
  split
  · next h => exact s.core_setCore_of_core v k h.symm
  · next h => exact s.core_setCore_other v k h

theorem State.keepTranslation_touches (leaf : Nat → Bool) (s : State) (k : Nat) (x : Ctx) (va : Nat) (e : TlbEntry) :
    State.touches leaf s (s.keepTranslation (.core k) x va e) := by
  unfold State.keepTranslation
  dsimp only
  split
  · exact .refl leaf s
  · refine ⟨rfl, fun j => ?_, fun a _ => rfl⟩
    rw [State.core_setCore_eq]
    split
    · next hj =>
      obtain rfl : j = k := hj.trans (s.core_core k)
      rfl
    · rfl

theorem memByte_setLeaf (s : State) (leaf : Nat) (bits : Byte) (a : Nat) (h : a ≠ leaf) :
    memByte (s.setLeaf leaf bits).mem a = memByte s.mem a := by
  unfold State.setLeaf
  dsimp only
  split
  · rfl
  · rw [memByte_memSet, if_neg h]

theorem State.setLeaf_touches (leaf : Nat → Bool) (s : State) (addr : Nat) (bits : Byte) (h : leaf addr = true) :
    State.touches leaf s (s.setLeaf addr bits) := by
  refine ⟨?_, fun k => ?_, fun a ha => memByte_setLeaf s addr bits a ?_⟩
  · unfold State.setLeaf
    dsimp only
    split <;> rfl
  · unfold State.setLeaf
    dsimp only
    split <;> rfl
  · rintro rfl
    simp [h] at ha

theorem coversLeaf_self (key : Nat) (mt : BitVec 2) (e : TlbEntry) (tile : Bool) : coversLeaf (.ok key mt (some e) tile) e.leaf = true :=
  beq_self_eq_true e.leaf

/-- A TRANSLATION (R114, R115) writes no byte but that of its leaf entry. -/
theorem State.touch_touches (s : State) (k : Nat) (x : Ctx) (va : DWord) (r : Xlat) :
    State.touches (coversLeaf r) s (s.touch (.core k) x va r) := by
  unfold State.touch
  split
  · next key mt e tile =>
    exact ((s.noteXlat_touches _ _ x va _).trans (State.keepTranslation_touches _ _ k x va.toNat e)).trans
      (State.setLeaf_touches _ _ e.leaf 0x20 (coversLeaf_self key mt e tile))
  · exact s.noteXlat_touches _ _ x va r

theorem State.dirty_touches (s : State) (r : Xlat) : State.touches (coversLeaf r) s (s.dirty r) := by
  unfold State.dirty
  split
  · next key mt e tile => exact s.setLeaf_touches _ e.leaf 0x40 (coversLeaf_self key mt e tile)
  · exact .refl _ s

/-- The bytes of the leaf entries that the lanes of a list go through. -/
def planLeaves (ps : List LanePlan) (a : Nat) : Bool := ps.any fun p => coversLeaf p.out a

theorem coversLeaf_of_planLeaves {ps : List LanePlan} {a : Nat} (h : planLeaves ps a = false) {p : LanePlan} (hp : p ∈ ps) :
    coversLeaf p.out a = false := by
  simpa using List.any_eq_false.1 h p hp

theorem State.touchPlans_touches (s : State) (c : Cohort) (x : Ctx) (ps : List LanePlan) :
    State.touches (planLeaves ps) s (s.touchPlans c x ps) :=
  .foldl _ ps (fun p hp t => (t.touch_touches c.core x p.va p.out).weaken fun _ ha => coversLeaf_of_planLeaves ha hp) s

/-! ### Pins (R120) -/

theorem State.unpin_touches (leaf : Nat → Bool) (s : State) (c : Cohort) (va : Nat) : State.touches leaf s (s.unpin c va) := by
  unfold State.unpin
  repeat' split
  all_goals exact ⟨rfl, fun _ => rfl, fun _ _ => rfl⟩

theorem State.unpinAll_touches (leaf : Nat → Bool) (s : State) (c : Cohort) (ps : List LanePlan) :
    State.touches leaf s (s.unpinAll c ps) :=
  .foldl _ ps (fun p _ t => t.unpin_touches leaf c p.va.toNat) s

/-- The translations of an access, and the end of its pages' pins. -/
theorem State.touchUnpin_touches (s : State) (c : Cohort) (x : Ctx) (ps : List LanePlan) :
    State.touches (planLeaves ps) s ((s.touchPlans c x ps).unpinAll c ps) :=
  (s.touchPlans_touches c x ps).trans (State.unpinAll_touches _ _ c ps)

end Sys2Proof.Machine
end

section
/-!
The lanes of a memory instruction: what their plans say (R97, R118, R405), and what the instruction writes to its cohort (R60, R119, R404).
-/

namespace Sys2Proof.Machine

set_option Elab.async false

/-! ### Plans (R118, R405) -/

theorem State.planLane_out_of_not_faults (s : State) (c : Cohort) (x : Ctx) (acc : Acc) (n : Nat) (va : DWord) (l : Nat)
    (h : (s.planLane c x acc n va l).faults = false) : (s.planLane c x acc n va l).out = s.xlat (.core c.core) c.core x acc va := by
  unfold State.planLane at h ⊢
  dsimp only at h ⊢
  split at h
  · cases h
  · next small =>
    split at h
    · cases h
    · next aligned => rw [if_neg small, if_neg aligned]

theorem laneReaches_not_faults {s : State} {n : Nat} {types : List (BitVec 2)} {p : LanePlan} (h : laneReaches s n types p = true) :
    p.faults = false := by
  unfold laneReaches at h
  unfold LanePlan.faults
  split at h
  · next e => rw [e]
  · next e => rw [e]
  · cases h

theorem none_faults_of_reaches {s : State} {n : Nat} {types : List (BitVec 2)} {ps : List LanePlan}
    (h : ps.all (laneReaches s n types) = true) : ps.any LanePlan.faults = false := by
  rw [List.any_eq_false]
  intro p hp
  rw [laneReaches_not_faults (List.all_eq_true.1 h p hp)]
  decide

/-- A lane that goes through to memory. -/
theorem laneReaches_ok {s : State} {n : Nat} {types : List (BitVec 2)} {p : LanePlan} (h : laneReaches s n types p = true)
    {key : Nat} {mt : BitVec 2} {leaf : Option TlbEntry} {tile : Bool} (hp : p.out = .ok key mt leaf tile) :
    inRegs key = false ∧ s.poisoned key n = false ∧ mt ∈ types ∧ key % n = 0 := by
  simp only [laneReaches, hp, Bool.and_eq_true, Bool.not_eq_true', beq_iff_eq, List.contains_iff_mem] at h
  obtain ⟨⟨⟨regs, poison⟩, type⟩, aligned⟩ := h
  exact ⟨regs, poison, type, aligned⟩

/-- An access of memory waits behind no held write of the membership page (R248). -/
theorem State.pageHeld_of_reaches {s t : State} {n : Nat} {types : List (BitVec 2)} {ps : List LanePlan}
    (h : ps.all (laneReaches t n types) = true) : s.pageHeld ps = false := by
  unfold State.pageHeld
  rw [Bool.and_eq_false_iff]
  right
  rw [List.any_eq_false]
  intro p hp
  have reach := List.all_eq_true.1 h p hp
  split
  · next key mt leaf tile e => simp [(laneReaches_ok reach e).1]
  · simp

/-- In a list of one element per lane, that of a lane is found under it. -/
theorem find_map_of_mem {α : Type} (lane : α → Nat) (g : Nat → α) (hg : ∀ l, lane (g l) = l) (ls : List Nat) (l : Nat) (h : l ∈ ls) :
    (ls.map g).find? (fun p => lane p == l) = some (g l) := by
  induction ls with
  | nil => cases h
  | cons k ks ih =>
    rw [List.map_cons, List.find?_cons, hg]
    by_cases hk : k = l
    · simp [hk]
    · simp only [beq_false_of_ne hk]
      exact ih ((List.mem_cons.1 h).resolve_left fun e => hk e.symm)

theorem any_map_of_mem {α : Type} (lane : α → Nat) (g : Nat → α) (hg : ∀ l, lane (g l) = l) (q : α → Bool) (ls : List Nat) (l : Nat)
    (h : l ∈ ls) : ((ls.map g).any fun p => lane p == l && q p) = q (g l) := by
  rw [Bool.eq_iff_iff, List.any_eq_true]
  constructor
  · rintro ⟨p, hp, same⟩
    obtain ⟨k, -, rfl⟩ := List.mem_map.1 hp
    simp only [hg, Bool.and_eq_true, beq_iff_eq] at same
    obtain ⟨rfl, hq⟩ := same
    exact hq
  · exact fun hq => ⟨g l, List.mem_map_of_mem h, by simp [hg, hq]⟩

/-- Whether a lane met a page with P = 0, as the mask of such lanes has it (R119). -/
theorem nonresMask_bit (s : State) (c : Cohort) (x : Ctx) (acc : Acc) (n : Nat) (m : Mask) (va : Nat → DWord)
    (h : (s.planLanes c x acc n m va).any LanePlan.faults = false) (l : Nat) (hl : m.getLsbD l = true) :
    (nonresMask (s.planLanes c x acc n m va)).getLsbD l = lanePending (s.xlat (.core c.core) c.core x acc (va l)) := by
  have mem := (mem_laneList m l).2 hl
  have pass : (s.planLane c x acc n (va l) l).faults = false := by
    simpa using List.any_eq_false.1 h _ (List.mem_map_of_mem mem)
  have found := any_map_of_mem LanePlan.lane (fun l => s.planLane c x acc n (va l) l) (fun _ => rfl) (fun p => lanePending p.out) _ l mem
  rw [s.planLane_out_of_not_faults c x acc n (va l) l pass] at found
  exact (maskOf_bit _ l (BitVec.lt_of_getLsbD hl)).trans found

theorem nonresMask_resident (ps : List LanePlan) (h : ∀ p ∈ ps, lanePending p.out = false) (l : Nat) : (nonresMask ps).getLsbD l = false := by
  by_cases hl : l < 64
  · have bit : (nonresMask ps).getLsbD l = ps.any fun p => p.lane == l && lanePending p.out := maskOf_bit _ l hl
    rw [bit, List.any_eq_false]
    intro p hp
    simp [h p hp]
  · exact BitVec.getLsbD_of_ge _ l (by omega)

/-! ### What an access writes to its cohort (R60, R119, R404) -/

/-- The predicate that an instruction writes, if it names one (R50). -/
theorem putPredOpt_writes (c : Cohort) (m : Mask) (o : Opnd) (bits : Mask) (h : ∀ p, o = .p p → p ≠ 7 → p.toNat < c.preds.length) :
    c.putPredOpt m o bits = { c with preds := (c.putPredOpt m o bits).preds } ∧
    (∀ p, o = .p p → p ≠ 7 → ∀ l, l < 64 →
      ((c.putPredOpt m o bits).pred p).getLsbD l = if m.getLsbD l then bits.getLsbD l else (c.pred p).getLsbD l) ∧
    ∀ p, (o ≠ .p p ∨ p = 7) → (c.putPredOpt m o bits).pred p = c.pred p := by
  unfold Cohort.putPredOpt
  split
  · next i =>
    by_cases h7 : i = 7
    · subst h7
      refine ⟨rfl, ?_, fun p _ => rfl⟩
      rintro p ⟨⟩ hp
      exact absurd rfl hp
    · obtain ⟨only, -, written, other⟩ := putPred_writes c m i bits (h i rfl h7)
      refine ⟨only, ?_, fun p hp => other p ?_⟩
      · rintro p ⟨⟩ -
        exact written h7
      · rintro rfl
        exact hp.elim (fun ne => ne rfl) h7
  · next none => exact ⟨rfl, fun p hp => (none p hp).elim, fun p _ => rfl⟩

/-- The registers of a memory instruction: the destination, or the pair for `.w64`, if it names one. -/
def regsLoaded (c d : Cohort) (m : Mask) (od : Opnd) (wide : Bool) (val : Nat → DWord) : Prop :=
  c.onlyRegs d ∧ (od = .none → d.regs = c.regs) ∧
  (od ≠ .none → regWritten c d m (opndIndex od) (fun l => DWord.lo (val l)) ∧
    (wide = true → regWritten c d m (opndIndex od + 1) (fun l => DWord.hi (val l))) ∧
    ∀ n, n ≠ opndIndex od → (wide = true → n ≠ opndIndex od + 1) → d.reg n = c.reg n)

theorem regsLoaded_none (c : Cohort) (m : Mask) (wide : Bool) (val : Nat → DWord) : regsLoaded c c m .none wide val :=
  ⟨⟨rfl, .inl rfl⟩, fun _ => rfl, fun h => absurd rfl h⟩

theorem regsLoaded_congr {c d : Cohort} {m : Mask} {od : Opnd} {wide : Bool} {val val' : Nat → DWord} (h : regsLoaded c d m od wide val)
    (hv : ∀ l, m.getLsbD l = true → val l = val' l) : regsLoaded c d m od wide val' := by
  obtain ⟨only, none, written⟩ := h
  refine ⟨only, none, fun hod => ?_⟩
  obtain ⟨low, high, other⟩ := written hod
  exact ⟨⟨fun l hw hl => (low.1 l hw hl).trans (congrArg DWord.lo (hv l hl)), low.2⟩,
    fun w => ⟨fun l hw hl => ((high w).1 l hw hl).trans (congrArg DWord.hi (hv l hl)), (high w).2⟩, other⟩

/-- Registers, and then the residency predicate, are what a memory instruction writes. -/
theorem accessWrites_of_regs {c d : Cohort} {f : Fields} {m : Mask} {od : Opnd} {wide : Bool} {val : Nat → DWord} {pending : Nat → Bool}
    {nonres : Mask} (h : regsLoaded c d m od wide val) (hp : ∀ p, f.oe = .p p → p ≠ 7 → p.toNat < c.preds.length)
    (hn : ∀ l, m.getLsbD l = true → nonres.getLsbD l = pending l) :
    accessWrites c (d.putPredOpt m f.oe nonres) f m od wide val pending := by
  obtain ⟨⟨only, latch⟩, none, written⟩ := h
  have preds : d.preds = c.preds := by rw [only]
  have pred (p : BitVec 3) : d.pred p = c.pred p := by rw [only]; rfl
  obtain ⟨frame, named, others⟩ := putPredOpt_writes d m f.oe nonres (by rw [preds]; exact hp)
  generalize d.putPredOpt m f.oe nonres = e at *
  refine ⟨?_, ?_, ?_, ?_, fun p hoe h7 l hl => ?_, fun p hp' => (others p hp').trans (pred p)⟩
  · have regs : e.regs = d.regs := by rw [frame]
    have held : e.latch = d.latch := by rw [frame]
    rw [only] at frame
    rw [regs, held]
    exact frame
  · rw [frame]
    exact latch
  · rw [frame]
    exact none
  · rw [frame]
    exact written
  · rw [named p hoe h7 l hl, pred p]
    split
    · next hm => exact hn l hm
    · rfl

/-- The tags of the registers are not touched by the residency predicate. -/
theorem accessTags_putPredOpt {c d : Cohort} {m : Mask} {od : Opnd} {wide : Bool} {sh : Shape} (o : Opnd) (bits : Mask)
    (h : accessTags c d m od wide sh) : accessTags c (d.putPredOpt m o bits) m od wide sh := by
  have reg (k : Nat) : (d.putPredOpt m o bits).reg k = d.reg k := by
    unfold Cohort.putPredOpt
    split
    · unfold Cohort.putPred
      split <;> rfl
    · rfl
  simpa only [accessTags, tagWritten, reg] using h

/-! ### Loaded values (R60, R404) -/

/-- A full load's register: U with the elected lane's word, or the lanes' words. -/
def Cohort.loadedShape (c : Cohort) (m : Mask) (uniform : Bool) (w : Nat → Word) : VReg := if uniform then .u (w (elect m)) else c.general w

theorem loadedShape_lane (c : Cohort) (m : Mask) (uniform : Bool) (w : Nat → Word)
    (hu : uniform = true → ∀ l, m.getLsbD l = true → w l = w (elect m)) (l : Nat) (hw : l < c.width) (hl : m.getLsbD l = true)
    (hd : c.dead.getLsbD l = false) : (c.loadedShape m uniform w).lane l = w l := by
  unfold Cohort.loadedShape
  split
  · next u => exact (hu u l hl).symm
  · exact general_lane c w l hw hd

theorem loadedShape_meets (c : Cohort) (m : Mask) (uniform : Bool) (w : Nat → Word) :
    (c.loadedShape m uniform w).meets (if uniform then .u else .g) := by
  unfold Cohort.loadedShape
  split
  · exact ⟨_, rfl⟩
  · exact general_meets c w

/-- A cohort with the register, or the pair, of a load written (R60, R404). -/
def Cohort.putLoaded (c : Cohort) (m : Mask) (od : Opnd) (uniform wide : Bool) (vals : Nat → DWord) : Cohort :=
  match od with
  | .none => c
  | od =>
    let d := c.putVec m (opndIndex od) (fun l => DWord.lo (vals l)) (c.loadedShape m uniform fun l => DWord.lo (vals l))
    if wide then d.putVec m (opndIndex od + 1) (fun l => DWord.hi (vals l)) (d.loadedShape m uniform fun l => DWord.hi (vals l)) else d

theorem loadDone_eq (f : Fields) (s : State) (c : Cohort) (m : Mask) (uniform wide : Bool) (vals : Nat → DWord) (nonres : Mask) :
    loadDone f s c m uniform wide vals nonres 0 = finish s ((c.putLoaded m f.od uniform wide vals).putPredOpt m f.oe nonres) := by
  unfold loadDone finishKill
  rw [if_pos rfl]
  rfl

theorem putLoaded_register (c : Cohort) (m : Mask) (od : Opnd) (uniform wide : Bool) (vals : Nat → DWord) (h : od ≠ .none) :
    c.putLoaded m od uniform wide vals =
      let d := c.putVec m (opndIndex od) (fun l => DWord.lo (vals l)) (c.loadedShape m uniform fun l => DWord.lo (vals l))
      if wide then d.putVec m (opndIndex od + 1) (fun l => DWord.hi (vals l)) (d.loadedShape m uniform fun l => DWord.hi (vals l)) else d := by
  unfold Cohort.putLoaded
  split
  · exact absurd rfl h
  · rfl

/-- THE REGISTERS OF A LOAD (R60, R404): the lanes' values, under the tag that the load's shape gives. -/
theorem putLoaded_writes (c : Cohort) (m : Mask) (od : Opnd) (uniform wide : Bool) (vals : Nat → DWord)
    (hk : od ≠ .none → opndIndex od + (if wide then 1 else 0) < c.regs.length)
    (hm : ∀ l, m.getLsbD l = true → c.dead.getLsbD l = false)
    (hu : uniform = true → ∀ l, m.getLsbD l = true → vals l = vals (elect m)) :
    regsLoaded c (c.putLoaded m od uniform wide vals) m od wide vals ∧
    accessTags c (c.putLoaded m od uniform wide vals) m od wide (if uniform then .u else .g) := by
  by_cases hod : od = .none
  · subst hod
    exact ⟨regsLoaded_none c m wide vals, fun h => absurd rfl h⟩
  have hk := hk hod
  rw [putLoaded_register c m od uniform wide vals hod]
  have low := putVec_writes c m (opndIndex od) (fun l => DWord.lo (vals l)) _ (by omega) hm
    fun _ l hw hl => loadedShape_lane c m uniform _ (fun u l hl => by rw [hu u l hl]) l hw hl (hm l hl)
  have lowTag := putVec_tag c m (opndIndex od) (fun l => DWord.lo (vals l)) _ _ (by omega)
    fun _ => loadedShape_meets c m uniform fun l => DWord.lo (vals l)
  obtain ⟨width, dead, length⟩ := putVec_frame c m (opndIndex od) (fun l => DWord.lo (vals l))
    (c.loadedShape m uniform fun l => DWord.lo (vals l))
  generalize c.putVec m (opndIndex od) (fun l => DWord.lo (vals l)) (c.loadedShape m uniform fun l => DWord.lo (vals l)) = d at *
  obtain ⟨only, written, other⟩ := low
  cases wide with
  | false =>
    exact ⟨⟨only, fun h => absurd h hod, fun _ => ⟨written, nofun, fun n hn _ => other n hn⟩⟩, fun _ => ⟨lowTag, nofun⟩⟩
  | true =>
    have hk : opndIndex od + 1 < c.regs.length := hk
    have high := putVec_writes d m (opndIndex od + 1) (fun l => DWord.hi (vals l)) _ (by omega) (by rw [dead]; exact hm)
      fun _ l hw hl => loadedShape_lane d m uniform _ (fun u l hl => by rw [hu u l hl]) l hw hl (by rw [dead]; exact hm l hl)
    have highTag := putVec_tag d m (opndIndex od + 1) (fun l => DWord.hi (vals l)) _ _ (by omega)
      fun _ => loadedShape_meets d m uniform fun l => DWord.hi (vals l)
    simp only [if_true]
    generalize d.putVec m (opndIndex od + 1) (fun l => DWord.hi (vals l)) (d.loadedShape m uniform fun l => DWord.hi (vals l)) = e at *
    obtain ⟨only', written', other'⟩ := high
    have before : d.reg (opndIndex od + 1) = c.reg (opndIndex od + 1) := other _ (by omega)
    have after : e.reg (opndIndex od) = d.reg (opndIndex od) := other' _ (by omega)
    refine ⟨⟨⟨?_, ?_⟩, fun h => absurd h hod, fun _ => ⟨?_, fun _ => ?_, fun n hn hn' => (other' n (hn' rfl)).trans (other n hn)⟩⟩,
      fun _ => ⟨?_, fun _ => ?_⟩⟩
    · have frame := only'.1
      rw [only.1] at frame
      exact frame
    · rcases only'.2 with same | dropped
      · rw [same]
        exact only.2
      · exact .inr dropped
    · rw [regWritten, after]
      exact written
    · rw [regWritten, width, dead, before] at written'
      exact written'
    · rw [tagWritten, after]
      exact lowTag
    · rw [tagWritten, before, Cohort.fullMask, width, dead] at highTag
      exact highTag

end Sys2Proof.Machine
end

section
/-!
LD (O26): each lane reads the number of its bytes from memory, or from an L1 whose line is what memory holds; a load writes no byte.
-/

namespace Sys2Proof.Machine

set_option Elab.async false

/-! ### What loads do to the state (R104, R105) -/

/-- What the loads of a core do: lines of L2, and of its L1, which come from memory as it stands. -/
structure State.loads (core : Nat) (s t : State) : Prop where
  frame : t = { s with cores := t.cores, l2 := t.l2 }
  l1 : ∀ e ∈ (t.core core).l1, e ∈ (s.core core).l1 ∨ e.data = memBytes s.mem (e.line * 128) 128

theorem State.loads.refl (core : Nat) (s : State) : State.loads core s s := ⟨rfl, fun _ => .inl⟩

theorem State.loads.mem {core : Nat} {s t : State} (h : State.loads core s t) : t.mem = s.mem := by rw [h.frame]

theorem State.loads.poisoned {core : Nat} {s t : State} (h : State.loads core s t) (a n : Nat) : t.poisoned a n = s.poisoned a n := by
  rw [h.frame]
  rfl

theorem State.loads.plainAccess {core : Nat} {s t : State} (h : State.loads core s t) : s.plainAccess t := by
  unfold State.plainAccess
  rw [h.frame]

theorem State.loads.trans {core : Nat} {s t u : State} (h : State.loads core s t) (g : State.loads core t u) : State.loads core s u := by
  refine ⟨?_, fun e he => ?_⟩
  · have frame := g.frame
    rw [h.frame] at frame
    exact frame
  · rw [← h.mem]
    rcases g.l1 e he with old | filled
    · rcases h.l1 e old with older | filled
      · exact .inl older
      · exact .inr (by rw [h.mem]; exact filled)
    · exact .inr filled

theorem State.noteLine_loads (core : Nat) (s : State) (key : Nat) (mt pol : BitVec 2) : State.loads core s (s.noteLine key mt pol) := by
  constructor
  all_goals rw [s.noteLine_frame key mt pol]
  exact fun e => .inl

/-- A core's L1 is replaced by lines that it held, or that come from memory. -/
theorem State.setL1_loads (core : Nat) (s : State) (lines : List L1Line)
    (h : ∀ e ∈ lines, e ∈ (s.core core).l1 ∨ e.data = memBytes s.mem (e.line * 128) 128) :
    State.loads core s (s.setCore { s.core core with l1 := lines }) := by
  have same := s.core_setCore_of_core { s.core core with l1 := lines } core (s.core_core core)
  refine ⟨rfl, ?_⟩
  rw [same]
  exact h

theorem State.l1Drop_loads (core : Nat) (s : State) (line : Nat) : State.loads core s (s.l1Drop core line) := by
  unfold State.l1Drop
  dsimp only
  split
  · exact State.setL1_loads core s _ fun e he => .inl (List.mem_filter.1 he).1
  · exact .refl core s

theorem State.l1Renew_loads (core : Nat) (s : State) (line : Nat) : State.loads core s (s.l1Renew core line) := by
  unfold State.l1Renew
  dsimp only
  split
  · refine State.setL1_loads core s _ fun e he => ?_
    obtain ⟨old, held, rfl⟩ := List.mem_map.1 he
    split
    · next same =>
      right
      rw [← same]
    · exact .inl held
  · exact .refl core s

theorem State.l1Put_loads (core : Nat) (s : State) (line : Nat) (data : Line)
    (h : ⟨line, data⟩ ∈ (s.core core).l1 ∨ data = memBytes s.mem (line * 128) 128) :
    State.loads core s (s.setCore ((s.core core).l1Put line data)) := by
  refine State.setL1_loads core s _ fun e he => ?_
  rcases List.mem_cons.1 he with rfl | others
  · exact h
  · exact .inl (List.mem_filter.1 (List.mem_filter.1 others).1).1

theorem CoreState.mem_l1_of_l1Data {k : CoreState} {line : Nat} {d : Line} (h : k.l1Data line = some d) : ⟨line, d⟩ ∈ k.l1 := by
  obtain ⟨e, found, rfl⟩ := Option.map_eq_some_iff.1 h
  have same : e.line = line := by simpa using List.find?_some found
  rw [← same]
  exact List.mem_of_find?_eq_some found

/-- The read of a line of L1: the bytes of the key in the line that is there. -/
theorem State.loadKey_weak (s : State) (core key n : Nat) (d : Line) (h : (s.core core).l1Data (key / 128) = some d) :
    s.loadKey core key n true = (leNat ((d.drop (key % 128)).take n), s.setCore ((s.core core).l1Put (key / 128) d)) := by
  simp only [State.loadKey, if_true, h]

/-- The read of a line that is not in L1: memory's number. -/
theorem State.loadKey_absent (s : State) (core key n : Nat) (fill : Bool) (h : (s.core core).l1Data (key / 128) = none) :
    ∃ t, s.loadKey core key n fill = (memNat s.mem key n, t) ∧ State.loads core s t := by
  cases fill with
  | false => exact ⟨s, rfl, .refl core s⟩
  | true => exact ⟨_, by simp only [State.loadKey, if_true, h], s.l1Put_loads core (key / 128) _ (.inr rfl)⟩

/-! ### One lane's load -/

theorem accSize_cases (sub : BitVec 4) : accSize sub = 1 ∨ accSize sub = 2 ∨ accSize sub = 4 ∨ accSize sub = 8 := by
  unfold accSize
  split <;> simp

/-- The bytes of an aligned number in the line that holds it. -/
theorem line_bytes (m : List Host.Cell) (key n : Nat) (h : key % 128 + n ≤ 128) :
    ((memBytes m (key / 128 * 128) 128).drop (key % 128)).take n = memBytes m key n := by
  apply List.ext_getElem
  · simp [memBytes]
    omega
  · intro i h1 h2
    simp only [memBytes, List.getElem_take, List.getElem_drop, List.getElem_map, List.getElem_range]
    congr 1
    omega

/-- A cohort without windows reads what memory gives it (R297). -/
theorem overlay_of_no_windows (c : Cohort) (va : DWord) (n v : Nat) (h : c.windows = []) : c.overlay va n v = v := by
  simp [Cohort.overlay, h]

/-- The number at the key of a translation. -/
def planNat (m : List Host.Cell) (n : Nat) (r : Xlat) : Nat :=
  match r with
  | .ok key _ _ _ => memNat m key n
  | _ => 0

/-- The lines of a core's L1 that the lanes of a list reach are what memory holds. -/
def State.l1Fresh (s : State) (core : Nat) (ps : List LanePlan) : Prop :=
  ∀ p ∈ ps, ∀ key mt leaf tile, p.out = .ok key mt leaf tile → ∀ e ∈ (s.core core).l1, e.line = key / 128 →
    e.data = memBytes s.mem (e.line * 128) 128

theorem State.l1Fresh_of_apart {s : State} {core : Nat} {ps : List LanePlan} (h : l1Apart s core ps = true) : s.l1Fresh core ps := by
  intro p hp key mt leaf tile out e he line
  have apart := List.all_eq_true.1 h p hp
  rw [out] at apart
  have none : (s.core core).l1.find? (fun x => x.line == key / 128) = none := by simpa [CoreState.l1Data] using apart
  have absent := List.find?_eq_none.1 none e he
  simp [line] at absent

theorem State.l1Fresh_of_loads {s t : State} {core : Nat} {ps : List LanePlan} (h : s.l1Fresh core ps) (g : State.loads core s t) :
    t.l1Fresh core ps := by
  intro p hp key mt leaf tile out e he line
  rw [g.mem]
  exact (g.l1 e he).elim (fun old => h p hp key mt leaf tile out e old line) id

/-- Whether a lane's load is weak: through a page of type N, with no hint that passes L1 by (R104, R105). -/
def weakLoad (f : Fields) (mt : BitVec 2) (tile : Bool) : Prop := mt = 0 ∧ tile = false ∧ hintFR f = false ∧ hintNL1 f = false

section OneLane

variable {s : State} {c : Cohort} {f : Fields} {n : Nat} {p : LanePlan} {key : Nat} {mt : BitVec 2} {leaf : Option TlbEntry} {tile : Bool}

/-- A weak load that finds its line in L1 reads it there. -/
theorem loadLane_hit {d : Line} (out : p.out = .ok key mt leaf tile) (regs : inRegs key = false) (hw : c.windows = [])
    (weak : weakLoad f mt tile) (held : (s.core c.core).l1Data (key / 128) = some d) :
    s.loadLane c f n p = (leNat ((d.drop (key % 128)).take n), false, s.setCore ((s.core c.core).l1Put (key / 128) d)) := by
  obtain ⟨rfl, rfl, fr, nl1⟩ := weak
  simp [State.loadLane, out, regs, fr, nl1, held, s.loadKey_weak _ _ _ d held, overlay_of_no_windows c _ _ _ hw]

/-- A weak load that does not find its line reads memory, and L1 takes the line unless a byte of it is poisoned. -/
theorem loadLane_miss (out : p.out = .ok key mt leaf tile) (regs : inRegs key = false) (hw : c.windows = []) (weak : weakLoad f mt tile)
    (clean : s.poisoned key n = false) (absent : (s.core c.core).l1Data (key / 128) = none) :
    ∃ t, s.loadLane c f n p = (memNat s.mem key n, false, t) ∧ State.loads c.core s t := by
  obtain ⟨rfl, rfl, fr, nl1⟩ := weak
  have noted := s.noteLine_loads c.core key 0#2 (hintL2 f)
  have absent' : ((s.noteLine key 0#2 (hintL2 f)).core c.core).l1Data (key / 128) = none := by
    rw [State.noteLine_frame]
    exact absent
  obtain ⟨t, read, loaded⟩ := State.loadKey_absent (s.noteLine key 0#2 (hintL2 f)) c.core key n
    (!s.poisoned (key / 128 * 128) 128) absent'
  refine ⟨t, ?_, noted.trans loaded⟩
  simp [State.loadLane, out, regs, fr, nl1, absent, noted.poisoned, clean, read, overlay_of_no_windows c _ _ _ hw]

/-- Any other load reads memory. -/
theorem loadLane_direct (out : p.out = .ok key mt leaf tile) (regs : inRegs key = false) (hw : c.windows = []) (strong : ¬ weakLoad f mt tile)
    (clean : s.poisoned key n = false) :
    ∃ t, s.loadLane c f n p = (memNat s.mem key n, false, t) ∧ State.loads c.core s t := by
  have prepared : ∃ s0, State.loads c.core s s0 ∧ s0 = (if tile then s
        else if hintFR f || mt == 1 then s.l1Drop c.core (key / 128)
        else if hintNL1 f || mt != 0 then s.l1Renew c.core (key / 128) else s) := by
    refine ⟨_, ?_, rfl⟩
    split
    · exact .refl c.core s
    · split
      · exact s.l1Drop_loads c.core _
      · split
        · exact s.l1Renew_loads c.core _
        · exact .refl c.core s
  obtain ⟨s0, loaded, prep⟩ := prepared
  have noted : State.loads c.core s (if tile then s0 else s0.noteLine key mt (hintL2 f)) := by
    split
    · exact loaded
    · exact loaded.trans (s0.noteLine_loads c.core key mt (hintL2 f))
  refine ⟨_, ?_, noted⟩
  unfold weakLoad at strong
  simp only [State.loadLane, out, regs, ← prep, strong, decide_false, Bool.false_and, Bool.false_or, Bool.false_eq_true, if_false,
    noted.poisoned, clean, and_false, State.loadKey, noted.mem, overlay_of_no_windows c _ _ _ hw, ite_self]

end OneLane

/-- ONE LANE'S LOAD (R104, R105, R127, R404): the number at its key, from L1 where a weak load finds its line there. -/
theorem State.loadLane_reads (s : State) (c : Cohort) (f : Fields) (types : List (BitVec 2)) (p : LanePlan) (hw : c.windows = [])
    (hp : laneReaches s (accSize f.sub) types p = true)
    (hl1 : hintFR f = true ∨ hintNL1 f = true ∨ s.l1Fresh c.core [p]) :
    ∃ t, s.loadLane c f (accSize f.sub) p = (planNat s.mem (accSize f.sub) p.out, false, t) ∧ State.loads c.core s t := by
  cases out : p.out with
  | ok key mt leaf tile =>
    obtain ⟨regs, clean, -, aligned⟩ := laneReaches_ok hp out
    by_cases weak : weakLoad f mt tile
    · cases held : (s.core c.core).l1Data (key / 128) with
      | none => exact loadLane_miss out regs hw weak clean held
      | some d =>
        have fresh : s.l1Fresh c.core [p] := by simpa [weak.2.2.1, weak.2.2.2] using hl1
        have entry := CoreState.mem_l1_of_l1Data held
        have data : d = memBytes s.mem (key / 128 * 128) 128 := fresh p (by simp) key mt leaf tile out _ entry rfl
        have inLine : key % 128 + accSize f.sub ≤ 128 := by
          rcases accSize_cases f.sub with e | e | e | e <;> rw [e] at aligned ⊢ <;> omega
        refine ⟨_, ?_, s.l1Put_loads c.core (key / 128) d (.inl entry)⟩
        rw [loadLane_hit out regs hw weak held, data, line_bytes _ _ _ inLine]
        rfl
    · exact loadLane_direct out regs hw weak clean
  | _ => exact ⟨s, by simp only [State.loadLane, out, planNat], .refl c.core s⟩

/-- THE LANES' LOADS: each lane has the number at its key, and none dies. -/
theorem State.loadLanes_reads (c : Cohort) (f : Fields) (types : List (BitVec 2)) (hw : c.windows = []) (ps : List LanePlan) (s : State)
    (hp : ps.all (laneReaches s (accSize f.sub) types) = true)
    (hl1 : hintFR f = true ∨ hintNL1 f = true ∨ s.l1Fresh c.core ps) :
    ∃ t, s.loadLanes c f (accSize f.sub) ps = (ps.map fun p => (p.lane, planNat s.mem (accSize f.sub) p.out), 0, t) ∧
      State.loads c.core s t := by
  induction ps generalizing s with
  | nil => exact ⟨s, rfl, .refl c.core s⟩
  | cons p ps ih =>
    rw [List.all_cons, Bool.and_eq_true] at hp
    obtain ⟨u, read, loaded⟩ := s.loadLane_reads c f types p hw hp.1
      (hl1.imp id (Or.imp id fun h q hq => h q (by simp [List.mem_singleton.1 hq])))
    have reach : laneReaches u (accSize f.sub) types = laneReaches s (accSize f.sub) types := by
      funext q
      unfold laneReaches
      simp only [loaded.poisoned]
    obtain ⟨t, rest, loaded'⟩ := ih u (reach ▸ hp.2)
      (hl1.imp id (Or.imp id fun h => State.l1Fresh_of_loads (fun q hq => h q (by simp [hq])) loaded))
    refine ⟨t, ?_, loaded.trans loaded'⟩
    simp only [State.loadLanes, read, rest, loaded.mem, List.map_cons, Bool.false_eq_true, if_false]

theorem State.loadLanes_of_one {s t : State} {c : Cohort} {f : Fields} {n v : Nat} {p : LanePlan} (h : s.loadLane c f n p = (v, false, t)) :
    s.loadLanes c f n [p] = ([(p.lane, v)], 0, t) := by
  simp only [State.loadLanes, h, Bool.false_eq_true, if_false]

/-! ### LD (R404 to R406) -/

/-- An instruction's cohort has its context. -/
theorem withCtx_some (s : State) (c : Cohort) (x : Ctx) (k : Ctx → Out) (h : s.ctx? c.ctx = some x) : withCtx s c k = k x := by
  simp only [withCtx, h]

/-- LD of a cohort of no pair whose lanes do not fault and do not wait: its lanes load, and the values are written. -/
theorem exec_ld (s : State) (c : Cohort) (x : Ctx) (f : Fields) (ps : List LanePlan) (hc : s.me? = some c) (hx : s.ctx? c.ctx = some x)
    (hr : c.role = .single) (hm : c.writeMask f ≠ 0) (hps : ps = s.planLanes c x .load (accSize f.sub) (c.writeMask f) (c.ea f f.oa f.ob))
    (hf : ps.any LanePlan.faults = false) (hb : s.plansBlocked c ps true = false) (hh : s.pageHeld ps = false)
    (ht : s.plansTaken c (accSize f.sub) ps = false) (vs : List (Nat × Nat)) (t : State)
    (hv : ((s.touchPlans c x ps).unpinAll c ps).loadLanes c f (accSize f.sub) ps = (vs, 0, t)) :
    exec (.ld f) s = finish t ((c.putLoaded (c.writeMask f) f.od (c.baseU f.oa && ps.all rule8) (f.sub == 1)
      fun l => extended f (accSize f.sub) (laneVal vs l)).putPredOpt (c.writeMask f) f.oe (nonresMask ps)) := by
  have own : c.fwdIn = .own := by simp [Cohort.fwdIn, hr]
  have give (u : State) (vals : List (Option DWord)) : u.fwdGive c vals 0 = (u, c) := by simp [State.fwdGive, hr]
  have free : s.loadHeld c x (accSize f.sub) ps = false := by simp [State.loadHeld, hr]
  refine (withMe_some s c _ hc).trans ((withCtx_some s c x _ hx).trans ((if_neg hm).trans ?_))
  simp only [← hps, hf, hb, hh, ht, free, own, hv, give, Bool.or_self, Bool.false_eq_true, if_false, loadDone_eq]

theorem laneVal_planLanes (s : State) (c : Cohort) (x : Ctx) (acc : Acc) (n : Nat) (m : Mask) (va : Nat → DWord) (g : Xlat → Nat) (l : Nat)
    (hl : m.getLsbD l = true) (h : (s.planLane c x acc n (va l) l).faults = false) :
    laneVal ((s.planLanes c x acc n m va).map fun p => (p.lane, g p.out)) l = g (s.xlat (.core c.core) c.core x acc (va l)) := by
  unfold laneVal State.planLanes
  rw [List.map_map, find_map_of_mem Prod.fst _ (fun _ => rfl) _ l ((mem_laneList m l).2 hl)]
  exact congrArg g (s.planLane_out_of_not_faults c x acc n (va l) l h)

/-- A base that is U gives every lane one address (R60, R96). -/
theorem ea_of_baseU (c : Cohort) (f : Fields) (b d : Opnd) (h : c.baseU b = true) (l k : Nat) : c.ea f b d l = c.ea f b d k := by
  unfold Cohort.baseU at h
  unfold Cohort.ea
  split at h
  · rw [Bool.and_eq_true] at h
    simp only [isU_lane _ h.1 l, isU_lane _ h.2 l, isU_lane _ h.1 k, isU_lane _ h.2 k]
  · simp only [isU_lane _ h l, isU_lane _ h k]
  · rfl

theorem extended_planNat (f : Fields) (n : Nat) (m : List Host.Cell) (r : Xlat) : extended f n (planNat m n r) = loadValue f n m r := by
  unfold planNat loadValue
  split
  · rfl
  · simp [extended, signedOf]

theorem loadShape_eq (c : Cohort) (f : Fields) (ps : List LanePlan) :
    loadShape c f ps = if c.baseU f.oa && ps.all rule8 then .u else .g := rfl

/-- LD OF LANES THAT GO THROUGH (R104, R105, R119, R404 to R406). -/
theorem exec_ld_reads (s : State) (c : Cohort) (x : Ctx) (f : Fields) (ps : List LanePlan) (hc : s.me? = some c) (hx : s.ctx? c.ctx = some x)
    (hr : c.role = .single) (hw : c.windows = []) (hm : c.writeMask f ≠ 0)
    (hps : ps = s.planLanes c x .load (accSize f.sub) (c.writeMask f) (c.ea f f.oa f.ob))
    (hp : ps.all (laneReaches s (accSize f.sub) [0, 1, 2, 3]) = true) (hb : s.plansBlocked c ps true = false)
    (ht : s.plansTaken c (accSize f.sub) ps = false) (hl1 : hintFR f = true ∨ hintNL1 f = true ∨ l1Apart s c.core ps = true)
    (hk : c.holds f f.od (f.sub == 1)) :
    ∃ (t : State) (d : Cohort), exec (.ld f) s = .next (t.setCohort d.complete) ∧ s.onlyAccess t ∧
      (∀ a, planLeaves ps a = false → memByte t.mem a = memByte s.mem a) ∧
      accessWrites c d f (c.writeMask f) f.od (f.sub == 1)
        (fun l => loadValue f (accSize f.sub) (s.touchPlans c x ps).mem (s.xlat (.core c.core) c.core x .load (c.ea f f.oa f.ob l)))
        (fun l => lanePending (s.xlat (.core c.core) c.core x .load (c.ea f f.oa f.ob l))) ∧
      accessTags c d (c.writeMask f) f.od (f.sub == 1) (loadShape c f ps) := by
  have pass := none_faults_of_reaches hp
  have touched := s.touchUnpin_touches c x ps
  have reach : laneReaches ((s.touchPlans c x ps).unpinAll c ps) (accSize f.sub) [0, 1, 2, 3] = laneReaches s (accSize f.sub) [0, 1, 2, 3] := by
    funext q
    unfold laneReaches
    simp only [touched.poisoned]
  have fresh : hintFR f = true ∨ hintNL1 f = true ∨ ((s.touchPlans c x ps).unpinAll c ps).l1Fresh c.core ps := by
    refine hl1.imp id (Or.imp id fun apart => State.l1Fresh_of_apart ?_)
    simpa only [l1Apart, CoreState.l1Data, touched.l1] using apart
  obtain ⟨t, read, loaded⟩ := State.loadLanes_reads c f [0, 1, 2, 3] hw ps ((s.touchPlans c x ps).unpinAll c ps) (by rw [reach]; exact hp) fresh
  have run := exec_ld s c x f ps hc hx hr hm hps pass hb (State.pageHeld_of_reaches hp) ht _ t read
  have lanes (l : Nat) (hl : (c.writeMask f).getLsbD l = true) : (s.planLane c x .load (accSize f.sub) (c.ea f f.oa f.ob l) l).faults = false := by
    rw [hps] at pass
    simpa using List.any_eq_false.1 pass _ (List.mem_map_of_mem ((mem_laneList _ l).2 hl))
  have value (m : List Host.Cell) (l : Nat) (hl : (c.writeMask f).getLsbD l = true) :
      extended f (accSize f.sub) (laneVal (ps.map fun p => (p.lane, planNat m (accSize f.sub) p.out)) l) =
      loadValue f (accSize f.sub) m (s.xlat (.core c.core) c.core x .load (c.ea f f.oa f.ob l)) := by
    rw [hps, laneVal_planLanes s c x .load _ _ _ (planNat m (accSize f.sub)) l hl (lanes l hl), extended_planNat]
  obtain ⟨written, tags⟩ := putLoaded_writes c (c.writeMask f) f.od (c.baseU f.oa && ps.all rule8) (f.sub == 1)
    (fun l => extended f (accSize f.sub) (laneVal (ps.map fun p => (p.lane, planNat (s.touchPlans c x ps).mem (accSize f.sub) p.out)) l))
    hk.1 (writeMask_alive c f) fun uniform l hl => by
      rw [Bool.and_eq_true] at uniform
      rw [value _ l hl, value _ _ (elect_mem _ hm), ea_of_baseU c f f.oa f.ob uniform.1 l]
  rw [State.unpinAll_mem] at run
  refine ⟨t, _, run, (touched.plainAccess.trans loaded.plainAccess).onlyAccess, fun a ha => ?_,
    accessWrites_of_regs (regsLoaded_congr written fun l hl => value _ l hl) hk.2 fun l hl => ?_, ?_⟩
  · rw [loaded.mem]
    exact touched.mem a ha
  · rw [hps] at pass ⊢
    exact nonresMask_bit s c x .load _ _ _ pass l hl
  · rw [loadShape_eq]
    exact accessTags_putPredOpt f.oe _ tags

/-- LD OF ONE LANE WHOSE LINE IS IN L1 (R104, R105): the lane's bytes of that line, whatever memory holds. -/
theorem exec_ld_hits (s : State) (c : Cohort) (x : Ctx) (f : Fields) (p : LanePlan) (key : Nat) (leaf : Option TlbEntry) (line : Line)
    (hc : s.me? = some c) (hx : s.ctx? c.ctx = some x) (hr : c.role = .single) (hw : c.windows = []) (hm : c.writeMask f ≠ 0)
    (hps : s.planLanes c x .load (accSize f.sub) (c.writeMask f) (c.ea f f.oa f.ob) = [p]) (hp : p.out = .ok key 0 leaf false)
    (regs : inRegs key = false) (ht : s.plansTaken c (accSize f.sub) [p] = false) (fr : hintFR f = false) (nl1 : hintNL1 f = false)
    (held : (s.core c.core).l1Data (key / 128) = some line) (hk : c.holds f f.od (f.sub == 1)) :
    ∃ (t : State) (d : Cohort), exec (.ld f) s = .next (t.setCohort d.complete) ∧ s.onlyAccess t ∧
      (∀ a, coversLeaf p.out a = false → memByte t.mem a = memByte s.mem a) ∧
      accessWrites c d f (c.writeMask f) f.od (f.sub == 1)
        (fun _ => extended f (accSize f.sub) (leNat ((line.drop (key % 128)).take (accSize f.sub)))) (fun _ => false) ∧
      accessTags c d (c.writeMask f) f.od (f.sub == 1) (if c.baseU f.oa then .u else .g) := by
  have touched := s.touchUnpin_touches c x [p]
  have held' : (((s.touchPlans c x [p]).unpinAll c [p]).core c.core).l1Data (key / 128) = some line := by
    unfold CoreState.l1Data
    rw [touched.l1]
    exact held
  have read := State.loadLanes_of_one (loadLane_hit (n := accSize f.sub) hp regs hw ⟨rfl, rfl, fr, nl1⟩ held')
  have loaded := State.l1Put_loads c.core ((s.touchPlans c x [p]).unpinAll c [p]) (key / 128) line (.inl (CoreState.mem_l1_of_l1Data held'))
  have run := exec_ld s c x f [p] hc hx hr hm hps.symm (by simp [LanePlan.faults, hp]) (by simp [State.plansBlocked, tileLine?, hp])
    (by simp [State.pageHeld, hp, regs]) ht _ _ read
  have only (l : Nat) (hl : (c.writeMask f).getLsbD l = true) : l = p.lane := by
    have planned := List.mem_map_of_mem (f := fun l => s.planLane c x .load (accSize f.sub) (c.ea f f.oa f.ob l) l) ((mem_laneList _ l).2 hl)
    rw [← State.planLanes, hps, List.mem_singleton] at planned
    exact congrArg LanePlan.lane planned
  have value (l : Nat) (hl : (c.writeMask f).getLsbD l = true) :
      laneVal [(p.lane, leNat ((line.drop (key % 128)).take (accSize f.sub)))] l = leNat ((line.drop (key % 128)).take (accSize f.sub)) := by
    simp [laneVal, only l hl]
  obtain ⟨written, tags⟩ := putLoaded_writes c (c.writeMask f) f.od (c.baseU f.oa && [p].all rule8) (f.sub == 1)
    (fun l => extended f (accSize f.sub) (laneVal [(p.lane, leNat ((line.drop (key % 128)).take (accSize f.sub)))] l))
    hk.1 (writeMask_alive c f) fun _ l hl => by rw [value l hl, value _ (elect_mem _ hm)]
  have rule : (c.baseU f.oa && [p].all rule8) = c.baseU f.oa := by simp [rule8, hp]
  rw [rule] at run written tags
  refine ⟨_, _, run, (touched.plainAccess.trans loaded.plainAccess).onlyAccess, fun a ha => ?_,
    accessWrites_of_regs (regsLoaded_congr written fun l hl => congrArg (extended f _) (value l hl)) hk.2 fun l hl => ?_, ?_⟩
  · exact touched.mem a (by simpa [planLeaves] using ha)
  · exact nonresMask_resident [p] (by simp [lanePending, hp]) l
  · exact accessTags_putPredOpt f.oe _ tags

/-- Settles O26: the lanes' loads of memory as it stands, and the load of a line that L1 holds. -/
theorem loadResult : Obligations.LoadResult := by
  unfold Obligations.LoadResult
  refine ⟨fun s c x f ps hc hx hr hw hm hps hp hb ht hl1 hk => exec_ld_reads s c x f ps hc hx hr hw hm hps hp hb ht hl1 hk, ?_⟩
  intro s c x f p key leaf line hc hx hr hw hm hps hp regs ht fr nl1 held hk
  exact exec_ld_hits s c x f p key leaf line hc hx hr hw hm hps hp regs ht fr nl1 held hk

end Sys2Proof.Machine
end

section
/-!
ST (O27): the lanes lay their bytes over memory one after the other, or a store to a WC page goes to the combining buffer.
-/

namespace Sys2Proof.Machine

set_option Elab.async false

/-! ### Memories that agree off leaf entries (R114) -/

/-- Two memories agree but for the bytes of leaf entries. -/
def agreesOff (leaf : Nat → Bool) (m m' : List Host.Cell) : Prop := ∀ a, leaf a = false → memByte m' a = memByte m a

theorem agreesOff.trans {leaf : Nat → Bool} {m m' m'' : List Host.Cell} (h : agreesOff leaf m m') (g : agreesOff leaf m' m'') :
    agreesOff leaf m m'' := fun a ha => (g a ha).trans (h a ha)

/-- The same number written into both keeps them in agreement. -/
theorem agreesOff.memPut {leaf : Nat → Bool} {m m' : List Host.Cell} (h : agreesOff leaf m m') (key n v : Nat) :
    agreesOff leaf (memPut m key n v) (memPut m' key n v) := by
  intro a ha
  rw [Machine.memPut, Machine.memPut, memByte_memWrite, memByte_memWrite, h a ha]

theorem memByte_memPut_other (m : List Host.Cell) (key n v a : Nat) (h : a < key ∨ key + n ≤ a) :
    memByte (memPut m key n v) a = memByte m a :=
  memByte_memWrite_other m key a _ (by rw [length_natBytes]; exact h)

theorem not_covered {key n a : Nat} {mt : BitVec 2} {leaf : Option TlbEntry} {tile : Bool} (h : covers (.ok key mt leaf tile) n a = false) :
    a < key ∨ key + n ≤ a := by
  simp only [covers, Bool.and_eq_false_iff, decide_eq_false_iff_not] at h
  omega

theorem memByte_storeFold_other (n : Nat) (val : Nat → Nat) (ps : List LanePlan) (m : List Host.Cell) (a : Nat)
    (h : ∀ p ∈ ps, covers p.out n a = false) : memByte (storeFold n val ps m) a = memByte m a := by
  induction ps generalizing m with
  | nil => rfl
  | cons p ps ih =>
    rw [List.forall_mem_cons] at h
    unfold storeFold
    split
    · next key mt leaf tile out =>
      rw [out] at h
      rw [ih _ h.2, memByte_memPut_other m key n _ a (not_covered h.1)]
    · exact ih m h.2

/-! ### One lane's store (R107, R114) -/

theorem State.dropPlan_loads (s : State) (c : Cohort) (p : LanePlan) : State.loads c.core s (s.dropPlan c p) := by
  unfold State.dropPlan
  split
  · exact s.l1Drop_loads c.core _
  · exact .refl c.core s

theorem State.dropPlan_wc (s : State) (c : Cohort) (p : LanePlan) : ((s.dropPlan c p).core c.core).wc = (s.core c.core).wc := by
  unfold State.dropPlan
  split
  · unfold State.l1Drop
    dsimp only
    split
    · rw [State.core_setCore_eq]
      split <;> rfl
    · rfl
  · rfl

/-- A STORE THAT IS PERFORMED AT ITS HOME: translations are noted, and then its bytes are written. -/
theorem State.storeLane_home (s : State) (c : Cohort) (rel : Bool) (n : Nat) (pol : BitVec 2) (p : LanePlan) (v : Nat) {key : Nat}
    {mt : BitVec 2} {leaf : Option TlbEntry} {tile : Bool} (out : p.out = .ok key mt leaf tile) (regs : inRegs key = false)
    (home : mt = 1 → rel = true) (hp : s.plainStores) :
    ∃ u, s.plainAccess u ∧ agreesOff (coversLeaf p.out) s.mem u.mem ∧ s.storeLane c rel n pol p v = u.writeMem key (natBytes n v) := by
  have dropped := s.dropPlan_loads c p
  have stay : agreesOff (coversLeaf p.out) s.mem (s.dropPlan c p).mem := fun a _ => by rw [dropped.mem]
  cases tile with
  | true =>
    refine ⟨s.dropPlan c p, dropped.plainAccess, stay, ?_⟩
    rw [← State.store_of_plainStores _ key _ (dropped.plainAccess.plainStores hp)]
    simp only [State.storeLane, State.storeHome, out, if_true]
    rfl
  | false =>
    have noted := (State.noteLine_touches (coversLeaf p.out) (s.dropPlan c p) key mt pol).trans (State.dirty_touches _ p.out)
    have all := dropped.plainAccess.trans noted.plainAccess
    refine ⟨_, all, stay.trans noted.mem, ?_⟩
    rw [← State.store_of_plainStores _ key _ (all.plainStores hp)]
    have direct : ¬(mt = 1 ∧ rel = false) := fun h => by simp [home h.1] at h
    simp only [State.storeLane, State.storeHome, out, regs, direct, Bool.false_eq_true, if_false]
    rfl

/-- THE LANES' STORES (R125): memory is the lanes' bytes laid over it in their order, but for leaf entries. -/
theorem State.storeLanes_agree (c : Cohort) (rel : Bool) (n : Nat) (pol : BitVec 2) (val : Nat → Nat) (leaf : Nat → Bool)
    (ps : List LanePlan) (s : State) (m : List Host.Cell)
    (home : ∀ p ∈ ps, ∀ key mt e tile, p.out = .ok key mt e tile → inRegs key = false ∧ (mt = 1 → rel = true)) (hp : s.plainStores)
    (hl : ∀ p ∈ ps, ∀ a, leaf a = false → coversLeaf p.out a = false) (agree : agreesOff leaf m s.mem) :
    s.plainAccess (ps.foldl (fun t p => t.storeLane c rel n pol p (val p.lane)) s) ∧
    agreesOff leaf (storeFold n val ps m) (ps.foldl (fun t p => t.storeLane c rel n pol p (val p.lane)) s).mem := by
  induction ps generalizing s m with
  | nil => exact ⟨s.plainAccess_refl, agree⟩
  | cons p ps ih =>
    rw [List.forall_mem_cons] at home hl
    rw [List.foldl_cons]
    cases out : p.out with
    | ok key mt e tile =>
      obtain ⟨regs, direct⟩ := home.1 key mt e tile out
      obtain ⟨u, noted, stay, stored⟩ := s.storeLane_home c rel n pol p (val p.lane) out regs direct hp
      have written : s.plainAccess (u.writeMem key (natBytes n (val p.lane))) := noted.trans rfl
      rw [stored, storeFold, out]
      obtain ⟨rest, agree'⟩ := ih _ (memPut m key n (val p.lane)) home.2 (written.plainStores hp) hl.2
        ((agree.trans fun a ha => stay a (hl.1 a ha)).memPut key n (val p.lane))
      exact ⟨written.trans rest, agree'⟩
    | _ =>
      have idle : s.storeLane c rel n pol p (val p.lane) = s := by simp only [State.storeLane, State.storeHome, State.dropPlan, out]
      rw [idle, storeFold, out]
      exact ih s m home.2 hp hl.2 agree

/-! ### A store to a WC page (R107, R108) -/

theorem mem_upsertBy {α : Type} (key : α → Nat) (x : α) (ys : List α) : x ∈ upsertBy key x ys := by
  induction ys with
  | nil => simp [upsertBy]
  | cons y ys ih =>
    unfold upsertBy
    split
    · simp
    · split
      · simp
      · exact List.mem_cons_of_mem y ih

theorem mem_upsertBy_of_ne {α : Type} (key : α → Nat) (x z : α) (ys : List α) (hz : z ∈ ys) (h : key z ≠ key x) : z ∈ upsertBy key x ys := by
  induction ys with
  | nil => cases hz
  | cons y ys ih =>
    unfold upsertBy
    split
    · next same =>
      rcases List.mem_cons.1 hz with rfl | hz
      · exact absurd same h
      · exact List.mem_cons_of_mem x hz
    · split
      · exact List.mem_cons_of_mem x hz
      · rcases List.mem_cons.1 hz with rfl | hz
        · simp
        · exact List.mem_cons_of_mem y (ih hz)

theorem length_upsertBy_le {α : Type} (key : α → Nat) (x : α) (ys : List α) : (upsertBy key x ys).length ≤ ys.length + 1 := by
  induction ys with
  | nil => simp [upsertBy]
  | cons y ys ih =>
    unfold upsertBy
    split
    · simp
    · split
      · simp
      · simpa using ih

/-- Elements of distinct keys put into a list: each is there, and the list has grown by no more than their number. -/
theorem foldl_upsertBy {α : Type} (key : α → Nat) (xs ys : List α) (hd : (xs.map key).Nodup) :
    (∀ x ∈ xs, x ∈ xs.foldl (fun acc e => upsertBy key e acc) ys) ∧
    (∀ y ∈ ys, key y ∉ xs.map key → y ∈ xs.foldl (fun acc e => upsertBy key e acc) ys) ∧
    (xs.foldl (fun acc e => upsertBy key e acc) ys).length ≤ ys.length + xs.length := by
  induction xs generalizing ys with
  | nil => exact ⟨nofun, fun y hy _ => hy, Nat.le_refl _⟩
  | cons x xs ih =>
    rw [List.map_cons, List.nodup_cons] at hd
    obtain ⟨each, kept, short⟩ := ih (upsertBy key x ys) hd.2
    rw [List.foldl_cons]
    refine ⟨fun z hz => ?_, fun y hy new => ?_, ?_⟩
    · rcases List.mem_cons.1 hz with rfl | hz
      · exact kept z (mem_upsertBy key z ys) hd.1
      · exact each z hz
    · rw [List.map_cons, List.mem_cons, not_or] at new
      exact kept y (mem_upsertBy_of_ne key x y ys hy new.1) new.2
    · have := length_upsertBy_le key x ys
      rw [List.length_cons]
      omega

theorem getElem_natBytes (n v i : Nat) (h : i < (natBytes n v).length) : (natBytes n v)[i] = BitVec.ofNat 8 (v / 256 ^ i) := by
  induction n generalizing v i with
  | zero => simp at h
  | succ n ih =>
    cases i with
    | zero => simp [natBytes]
    | succ i => simp [natBytes, ih, Nat.div_div_eq_div_mul, Nat.pow_succ']

/-- The entries of a combining buffer's line that a store makes. -/
def wcEntries (key n v : Nat) : List (Nat × Byte) := (natBytes n v).mapIdx fun i b => (key % 128 + i, b)

theorem mem_wcEntries (key n v i : Nat) (h : i < n) : (key % 128 + i, BitVec.ofNat 8 (v / 256 ^ i)) ∈ wcEntries key n v := by
  refine List.mem_iff_getElem.2 ⟨i, by simpa [wcEntries] using h, ?_⟩
  simp [wcEntries, getElem_natBytes]

theorem wcEntries_nodup (key n v : Nat) : ((wcEntries key n v).map Prod.fst).Nodup := by
  have offsets : (wcEntries key n v).map Prod.fst = (List.range n).map (key % 128 + ·) := by
    apply List.ext_getElem
    · simp [wcEntries]
    · intro i h1 h2
      simp [wcEntries]
  rw [offsets]
  exact List.Nodup.map (fun a b h => Nat.add_left_cancel h) List.nodup_range

/-- A STORE THAT THE COMBINING BUFFER TAKES (R108): its line, with its bytes and the cycle, is in the buffer, and memory stays. -/
theorem State.storeWc_taken (s : State) (core : Nat) (owner : Nat × Nat) (key n v : Nat) (few : (s.core core).wc.length < 8)
    (room : ∀ w ∈ (s.core core).wc, w.line = key / 128 → w.bytes.length + n < 128) :
    ∃ (ws : List WcLine) (w : WcLine), s.storeWc core owner key (natBytes n v) = s.setCore { s.core core with wc := ws } ∧ w ∈ ws ∧
      w.line = key / 128 ∧ w.last = s.cycle (dieOf core) ∧ ∀ i, i < n → (key % 128 + i, BitVec.ofNat 8 (v / 256 ^ i)) ∈ w.bytes := by
  unfold State.storeWc
  dsimp only
  cases found : (s.core core).wc.find? (·.line == key / 128) with
  | some w =>
    dsimp only
    have held := List.mem_of_find?_eq_some found
    have line : w.line = key / 128 := by simpa using List.find?_some found
    obtain ⟨each, -, short⟩ := foldl_upsertBy Prod.fst (wcEntries key n v) w.bytes (wcEntries_nodup key n v)
    have partly : ¬((wcEntries key n v).foldl (fun acc e => upsertBy Prod.fst e acc) w.bytes).length = 128 := by
      have := room w held line
      have : (wcEntries key n v).length = n := by simp [wcEntries]
      omega
    refine ⟨_, _, if_neg partly, List.mem_map_of_mem held, ?_⟩
    simp only [line, if_true, true_and]
    exact (fun i hi => each _ (mem_wcEntries key n v i hi))
  | none =>
    dsimp only
    exact ⟨_, _, if_neg (by omega), List.mem_append_right _ (List.mem_singleton.2 rfl), rfl, rfl, fun i hi => mem_wcEntries key n v i hi⟩

/-! ### The run of ST (R446, R447) -/

/-- A release of a cohort of no pair whose core's combining buffer is empty changes nothing first (R108, R131). -/
theorem releasing_of_canRelease (s : State) (c : Cohort) (k : State → Cohort → Out) (hr : c.role = .single) (h : s.canRelease c) :
    releasing s c k = k s c := by
  obtain ⟨write, wc⟩ := h
  have empty : s.wcTaken c.core = false := by simp [State.wcTaken, wc]
  have released : s.release c.core = s := if_pos wc
  simp only [releasing, write, empty, indigoClose, hr, released, Bool.or_self, Bool.false_eq_true, if_false, true_or, if_true]

theorem releasing_if_canRelease (s : State) (c : Cohort) (rel : Bool) (k : State → Cohort → Out) (hr : c.role = .single)
    (h : rel = true → s.canRelease c) : (if rel = true then releasing s c k else k s c) = k s c := by
  split
  · next ordered => exact releasing_of_canRelease s c k hr (h ordered)
  · rfl

/-- The number that a lane stores (R446). -/
def State.stored (s : State) (c : Cohort) (f : Fields) (l : Nat) : Nat :=
  (if f.sub = 1 then (c.opnd64 f f.oc l).toNat else (s.opnd c f f.oc l).toNat) % 2 ^ (8 * accSize f.sub)

theorem State.stored_eq (s : State) (c : Cohort) (f : Fields) (l : Nat) :
    (if f.sub = 1 then (lane64 (c.src64 f f.oc) l).toNat else (((s.src c f f.oc).lane l).toNat) % 2 ^ (8 * accSize f.sub)) =
      s.stored c f l := by
  unfold State.stored
  split
  · next two =>
    have width : accSize f.sub = 8 := by rw [two]; rfl
    rw [width]
    exact (Nat.mod_eq_of_lt (lane64 (c.src64 f f.oc) l).isLt).symm
  · rfl

theorem putPredOpt_role (c : Cohort) (m : Mask) (o : Opnd) (bits : Mask) : (c.putPredOpt m o bits).role = c.role := by
  unfold Cohort.putPredOpt
  split
  · unfold Cohort.putPred
    split <;> rfl
  · rfl

theorem storeLanes_of_single (s : State) (c : Cohort) (rel : Bool) (scope : Scope) (n : Nat) (pol : BitVec 2) (val : Nat → Nat)
    (ps : List LanePlan) (hr : c.role = .single) :
    storeLanes s c rel scope n pol val ps = (ps.foldl (fun t p => t.storeLane c rel n pol p (val p.lane)) s, c) := by
  unfold storeLanes
  rw [if_pos hr, if_pos hr]
  rfl

/-- ST of a cohort of no pair whose lanes do not fault and do not wait: its lanes store one after the other. -/
theorem exec_st (s : State) (c : Cohort) (x : Ctx) (f : Fields) (ps : List LanePlan) (rel : Bool) (hc : s.me? = some c)
    (hx : s.ctx? c.ctx = some x) (hr : c.role = .single) (hm : c.writeMask f ≠ 0)
    (htile : (c.hmode && anyTile x (c.writeMask f) (c.ea f f.oa f.ob)) = false)
    (hps : ps = s.planLanes c x .store (accSize f.sub) (c.writeMask f) (c.ea f f.oa f.ob)) (hrel : rel = (f.ord == .release || ps.any planSO))
    (hf : ps.any LanePlan.faults = false) (hb : s.plansBlocked c ps false = false) (ht : s.plansTaken c (accSize f.sub) ps = false)
    (can : rel = true → s.canRelease c) :
    exec (.st f) s = finish (ps.foldl (fun t p => t.storeLane c rel (accSize f.sub) (hintL2 f) p (s.stored c f p.lane))
      ((s.touchPlans c x ps).unpinAll c ps)) (c.putPredOpt (c.writeMask f) f.oe (nonresMask ps)) := by
  have agree : agreed c x (nonresMask ps) ps = ps := by simp [agreed, hr]
  have close : closeIf rel (c.putPredOpt (c.writeMask f) f.oe (nonresMask ps)) = c.putPredOpt (c.writeMask f) f.oe (nonresMask ps) := by
    simp [closeIf, putPredOpt_role, hr]
  refine (withMe_some s c _ hc).trans ((withCtx_some s c x _ hx).trans ((if_neg hm).trans ?_))
  simp only [htile, ← hps, hf, hb, ht, ← hrel, s.stored_eq, Bool.or_self, Bool.false_eq_true, if_false]
  refine (releasing_if_canRelease s c rel _ hr can).trans ?_
  simp only [outsideValue_of_single _ c _ _ hr, storeLanes_of_single _ c _ _ _ _ _ _ hr, agree, close]

/-- ST OF LANES THAT GO THROUGH TO THEIR HOMES (R107, R125, R447). -/
theorem exec_st_writes (s : State) (c : Cohort) (x : Ctx) (f : Fields) (ps : List LanePlan) (rel : Bool) (hc : s.me? = some c)
    (hx : s.ctx? c.ctx = some x) (hr : c.role = .single) (hm : c.writeMask f ≠ 0)
    (htile : (c.hmode && anyTile x (c.writeMask f) (c.ea f f.oa f.ob)) = false)
    (hps : ps = s.planLanes c x .store (accSize f.sub) (c.writeMask f) (c.ea f f.oa f.ob)) (hrel : rel = (f.ord == .release || ps.any planSO))
    (hp : ps.all (laneReaches s (accSize f.sub) (if rel then [0, 1, 2, 3] else [0, 2, 3])) = true)
    (hb : s.plansBlocked c ps false = false) (ht : s.plansTaken c (accSize f.sub) ps = false) (plain : s.plainStores)
    (can : rel = true → s.canRelease c) (hk : c.holds f .none false) :
    ∃ (t : State) (d : Cohort), exec (.st f) s = .next (t.setCohort d.complete) ∧ s.onlyAccess t ∧
      (∀ a, planLeaves ps a = false → memByte t.mem a = memByte (storeFold (accSize f.sub) (s.stored c f) ps s.mem) a) ∧
      (∀ a, (ps.any fun p => covers p.out (accSize f.sub) a || coversLeaf p.out a) = false → memByte t.mem a = memByte s.mem a) ∧
      accessWrites c d f (c.writeMask f) .none false (fun _ => 0)
        (fun l => lanePending (s.xlat (.core c.core) c.core x .store (c.ea f f.oa f.ob l))) := by
  have pass := none_faults_of_reaches hp
  have touched := s.touchUnpin_touches c x ps
  have home : ∀ p ∈ ps, ∀ key mt e tile, p.out = .ok key mt e tile → inRegs key = false ∧ (mt = 1 → rel = true) := by
    intro p mem key mt e tile out
    obtain ⟨regs, -, types, -⟩ := laneReaches_ok (List.all_eq_true.1 hp p mem) out
    refine ⟨regs, fun one => ?_⟩
    cases rel with
    | true => rfl
    | false => simp [one] at types
  obtain ⟨plainly, agree⟩ := State.storeLanes_agree c rel (accSize f.sub) (hintL2 f) (s.stored c f) (planLeaves ps) ps
    ((s.touchPlans c x ps).unpinAll c ps) s.mem home (touched.plainAccess.plainStores plain)
    (fun p mem a ha => coversLeaf_of_planLeaves ha mem) fun a ha => touched.mem a ha
  refine ⟨_, _, exec_st s c x f ps rel hc hx hr hm htile hps hrel pass hb ht can, (touched.plainAccess.trans plainly).onlyAccess,
    fun a ha => agree a ha, fun a ha => ?_, accessWrites_of_regs (regsLoaded_none c _ false _) hk.2 fun l hl => ?_⟩
  · have apart : ∀ p ∈ ps, covers p.out (accSize f.sub) a = false ∧ coversLeaf p.out a = false := by
      simpa [List.any_eq_false, Bool.or_eq_false_iff] using ha
    have leaves : planLeaves ps a = false := List.any_eq_false.2 fun p mem => by simp [(apart p mem).2]
    rw [agree a leaves, memByte_storeFold_other _ _ _ _ _ fun p mem => (apart p mem).1]
  · rw [hps] at pass ⊢
    exact nonresMask_bit s c x .store _ _ _ pass l hl

/-! ### A store to a WC page by one lane (R107, R108) -/

/-- An address of the tile window is translated to tile memory, or not at all (R93, R96). -/
theorem State.xlat_outside_tile {s : State} {p : XPort} {core : Nat} {x : Ctx} {acc : Acc} {va : DWord} {key : Nat} {mt : BitVec 2}
    {leaf : Option TlbEntry} (h : s.xlat p core x acc va = .ok key mt leaf false) : inTileWindow x va = false := by
  rw [Bool.eq_false_iff]
  intro tile
  unfold inTileWindow at tile
  unfold State.xlat at h
  simp only [tile, if_true] at h
  repeat' split at h
  all_goals simp at h

theorem State.anyTile_of_outside {s : State} {c : Cohort} {x : Ctx} {acc : Acc} {n : Nat} {m : Mask} {va : Nat → DWord} {p : LanePlan} {key : Nat}
    {mt : BitVec 2} {leaf : Option TlbEntry} (h : s.planLanes c x acc n m va = [p]) (out : p.out = .ok key mt leaf false) :
    anyTile x m va = false := by
  rw [anyTile, List.any_eq_false]
  intro l hl
  have planned := List.mem_map_of_mem (f := fun l => s.planLane c x acc n (va l) l) hl
  rw [← State.planLanes, h, List.mem_singleton] at planned
  have pass : (s.planLane c x acc n (va l) l).faults = false := by rw [planned, LanePlan.faults, out]
  have xlat := s.planLane_out_of_not_faults c x acc n (va l) l pass
  rw [planned, out] at xlat
  simp [State.xlat_outside_tile xlat.symm]

/-- A number cut to `n` bytes keeps its byte `i`. -/
theorem byte_mod (v n i : Nat) (h : i < n) : BitVec.ofNat 8 (v % 2 ^ (8 * n) / 256 ^ i) = BitVec.ofNat 8 (v / 256 ^ i) := by
  have base : 256 ^ i = 2 ^ (8 * i) := by rw [Nat.pow_mul]
  rw [base]
  apply BitVec.eq_of_getLsbD_eq
  intro j hj
  have inside : 8 * i + j < 8 * n := by omega
  simp only [BitVec.getLsbD_ofNat, Nat.testBit_div_two_pow, Nat.testBit_mod_two_pow]
  simp [Nat.add_comm j, inside]

/-- A STORE TO A WC PAGE THAT IS NO RELEASE (R108): the bytes are in the combining buffer of the core, and memory keeps its own. -/
theorem State.storeLane_combines (s : State) (c : Cohort) (n : Nat) (pol : BitVec 2) (p : LanePlan) (v : Nat) {key : Nat}
    {leaf : Option TlbEntry} (out : p.out = .ok key 1 leaf false) (regs : inRegs key = false) (few : (s.core c.core).wc.length < 8)
    (room : ∀ w ∈ (s.core c.core).wc, w.line = key / 128 → w.bytes.length + n < 128) :
    s.plainAccess (s.storeLane c false n pol p v) ∧ agreesOff (coversLeaf p.out) s.mem (s.storeLane c false n pol p v).mem ∧
    ∃ w ∈ ((s.storeLane c false n pol p v).core c.core).wc, w.line = key / 128 ∧ w.last = s.cycle (dieOf c.core) ∧
      ∀ i, i < n → (key % 128 + i, BitVec.ofNat 8 (v / 256 ^ i)) ∈ w.bytes := by
  have dropped := s.dropPlan_loads c p
  have noted := (State.noteLine_touches (coversLeaf p.out) (s.dropPlan c p) key 1 pol).trans (State.dirty_touches _ p.out)
  have all := dropped.plainAccess.trans noted.plainAccess
  have run : s.storeLane c false n pol p v =
      (((s.dropPlan c p).noteLine key 1 pol).dirty p.out).storeWc c.core (c.launch, c.cid) key (natBytes n v) := by
    simp only [State.storeLane, State.storeHome, out, regs, Bool.false_eq_true, if_false, and_self, if_true]
  rw [run]
  have wc : ((((s.dropPlan c p).noteLine key 1 pol).dirty p.out).core c.core).wc = (s.core c.core).wc := by
    rw [noted.wc, s.dropPlan_wc]
  have stay : agreesOff (coversLeaf p.out) s.mem (((s.dropPlan c p).noteLine key 1 pol).dirty p.out).mem := fun a ha => by
    rw [noted.mem a ha, dropped.mem]
  have cycle (d : Nat) : (((s.dropPlan c p).noteLine key 1 pol).dirty p.out).cycle d = s.cycle d := by rw [all]; rfl
  generalize ((s.dropPlan c p).noteLine key 1 pol).dirty p.out = u at *
  obtain ⟨ws, w, taken, held, line, last, bytes⟩ := u.storeWc_taken c.core (c.launch, c.cid) key n v (by rw [wc]; exact few)
    (by rw [wc]; exact room)
  rw [taken]
  refine ⟨all.trans rfl, stay, w, ?_, line, last.trans (cycle _), bytes⟩
  rw [State.core_setCore_eq, if_pos (u.core_core c.core).symm]
  exact held

/-- Settles O27: the lanes' bytes laid over memory, and the store of one lane that the combining buffer takes. -/
theorem storeResult : Obligations.StoreResult := by
  unfold Obligations.StoreResult
  refine ⟨fun s c x f ps rel hc hx hr hm htile hps hrel hp hb ht plain can hk =>
    exec_st_writes s c x f ps rel hc hx hr hm htile hps hrel hp hb ht plain can hk, ?_⟩
  intro s c x f p key v leaf hc hx hr hm hps out regs ord ht few room hk hv
  have touched := s.touchUnpin_touches c x [p]
  have norel : false = (f.ord == .release || [p].any planSO) := by simp [planSO, out, ord]
  have htile : (c.hmode && anyTile x (c.writeMask f) (c.ea f f.oa f.ob)) = false := by rw [State.anyTile_of_outside hps out, Bool.and_false]
  have run := exec_st s c x f [p] false hc hx hr hm htile hps.symm norel (by simp [LanePlan.faults, out])
    (by simp [State.plansBlocked, tileLine?, out]) ht nofun
  rw [List.foldl_cons, List.foldl_nil] at run
  obtain ⟨plainly, agree, w, held, line, last, bytes⟩ := ((s.touchPlans c x [p]).unpinAll c [p]).storeLane_combines c (accSize f.sub) (hintL2 f) p
    (s.stored c f p.lane) out regs (by rw [touched.wc]; exact few) (by rw [touched.wc]; exact room)
  refine ⟨_, _, w, run, (touched.plainAccess.trans plainly).onlyAccess, fun a ha => ?_, held, line, ?_, fun i hi => ?_,
    accessWrites_of_regs (regsLoaded_none c _ false _) hk.2 fun l _ => nonresMask_resident [p] (by simp [lanePending, out]) l⟩
  · rw [agree a ha]
    exact touched.mem a (by simpa [planLeaves] using ha)
  · rw [last, touched.plainAccess]
    rfl
  · rw [hv, ← byte_mod _ _ _ hi]
    exact bytes i hi

end Sys2Proof.Machine
end

section
/-!
ATOM (O28) and RED (O29): the lanes read and write their words one after the other; a device word of the host is read in one turn and written in the
next.
-/

namespace Sys2Proof.Machine

set_option Elab.async false

/-! ### One lane's write (R342, R343) -/

/-- The word that an atomic writes over the word it read; a `.cas` that fails writes none (R342, R343). -/
def AtomOp.writes (o : AtomOp) (l : Nat) (old : Word) : Option Word :=
  if o.sub = 7 then (if old = o.cmp l then some (o.val l) else none) else some (atomicNew o.sub o.typ old (o.val l))

/-- Memory after one lane's atomic. -/
def AtomOp.put (o : AtomOp) (l key : Nat) (old : Word) (m : List Host.Cell) : List Host.Cell :=
  match o.writes l old with
  | some w => memPut m key 4 w.toNat
  | none => m

theorem agreesOff.put {leaf : Nat → Bool} {m m' : List Host.Cell} (h : agreesOff leaf m m') (o : AtomOp) (l key : Nat) (old : Word) :
    agreesOff leaf (o.put l key old m) (o.put l key old m') := by
  unfold AtomOp.put
  split
  · exact h.memPut key 4 _
  · exact h

theorem AtomOp.put_other (o : AtomOp) (l key : Nat) (old : Word) (m : List Host.Cell) (a : Nat) (h : a < key ∨ key + 4 ≤ a) :
    memByte (o.put l key old m) a = memByte m a := by
  unfold AtomOp.put
  split
  · exact memByte_memPut_other m key 4 _ a h
  · rfl

theorem memNat_agrees {leaf : Nat → Bool} {m m' : List Host.Cell} (h : agreesOff leaf m m') (key n : Nat)
    (apart : ∀ a, key ≤ a → a < key + n → leaf a = false) : memNat m' key n = memNat m key n := by
  unfold memNat
  rw [memBytes_congr m m' key n fun i hi => h _ (apart _ (by omega) (by omega))]

/-- What a lane's atomic leaves: the state's other parts, and no poison that was not there. -/
structure State.rmws (s t : State) : Prop where
  frame : s.plainAccess t
  clean : ∀ a n, s.poisoned a n = false → t.poisoned a n = false

theorem State.rmws.refl (s : State) : s.rmws s := ⟨rfl, fun _ _ => id⟩

theorem State.rmws.trans {s t u : State} (h : s.rmws t) (g : t.rmws u) : s.rmws u :=
  ⟨h.frame.trans g.frame, fun a n hp => g.clean a n (h.clean a n hp)⟩

theorem State.touches.rmws {leaf : Nat → Bool} {s t : State} (h : State.touches leaf s t) : s.rmws t :=
  ⟨h.plainAccess, fun a n hp => (h.poisoned a n).trans hp⟩

theorem State.loads.rmws {core : Nat} {s t : State} (h : State.loads core s t) : s.rmws t :=
  ⟨h.plainAccess, fun a n hp => (h.poisoned a n).trans hp⟩

theorem State.writeMem_rmws (s : State) (key : Nat) (bs : List Byte) : s.rmws (s.writeMem key bs) := by
  refine ⟨rfl, fun a n hp => ?_⟩
  rw [State.poisoned, List.any_eq_false] at hp ⊢
  exact fun q hq => hp q (List.mem_filter.1 hq).1

/-- A LANE'S WRITE (R114, R342, R343): its new word where it has one, and the D bit of its leaf entry. -/
theorem State.atomWrite_puts (s : State) (o : AtomOp) (l : Nat) (old : Word) {p : LanePlan} {key : Nat} {mt : BitVec 2} {leaf : Option TlbEntry}
    {tile : Bool} (out : p.out = .ok key mt leaf tile) (plain : s.plainStores) :
    s.rmws (s.atomWrite o.sub o.typ p.out old (o.cmp l) (o.val l)) ∧
    agreesOff (coversLeaf p.out) (o.put l key old s.mem) (s.atomWrite o.sub o.typ p.out old (o.cmp l) (o.val l)).mem := by
  have run : s.atomWrite o.sub o.typ p.out old (o.cmp l) (o.val l) =
      match o.writes l old with
      | some w => (s.dirty p.out).writeMem key (natBytes 4 w.toNat)
      | none => s := by
    have stored (v : Nat) : (s.dirty p.out).storeNat p.out.key 4 v = (s.dirty p.out).writeMem key (natBytes 4 v) := by
      rw [out]
      exact State.store_of_plainStores _ key _ ((s.dirty_touches _).plainAccess.plainStores plain)
    unfold State.atomWrite AtomOp.writes
    by_cases seven : o.sub = 7
    · rw [if_pos seven, if_pos seven, stored]
      split <;> rfl
    · rw [if_neg seven, if_neg seven, stored]
  rw [run]
  unfold AtomOp.put
  split
  · exact ⟨(s.dirty_touches p.out).rmws.trans (State.writeMem_rmws _ key _),
      agreesOff.memPut (fun a ha => (s.dirty_touches p.out).mem a ha) key 4 _⟩
  · exact ⟨.refl s, fun _ _ => rfl⟩

/-- A LANE'S ATOMIC OF ONE TURN (R125, R342): the word at its key is read, and the new word is written. -/
theorem State.atomHome_puts (s : State) (o : AtomOp) {p : LanePlan} {key : Nat} {mt : BitVec 2} {leaf : Option TlbEntry} {tile : Bool}
    (out : p.out = .ok key mt leaf tile) (clean : s.poisoned key 4 = false) (plain : s.plainStores) :
    ∃ t, s.atomHome o.sub o.typ p.out (o.cmp p.lane) (o.val p.lane) o.pol = (BitVec.ofNat 32 (memNat s.mem key 4), false, t) ∧ s.rmws t ∧
      agreesOff (coversLeaf p.out) (o.put p.lane key (BitVec.ofNat 32 (memNat s.mem key 4)) s.mem) t.mem := by
  have noted : State.loads 0 s (if tile = true then s else s.noteLine key mt o.pol) := by
    split
    · exact .refl 0 s
    · exact s.noteLine_loads 0 key mt o.pol
  have run : s.atomHome o.sub o.typ p.out (o.cmp p.lane) (o.val p.lane) o.pol = (BitVec.ofNat 32 (memNat s.mem key 4), false,
      (if tile = true then s else s.noteLine key mt o.pol).atomWrite o.sub o.typ p.out (BitVec.ofNat 32 (memNat s.mem key 4)) (o.cmp p.lane)
        (o.val p.lane)) := by
    have unpoisoned := (noted.poisoned key 4).trans clean
    simp only [out, State.atomHome, unpoisoned, noted.mem, Bool.false_eq_true, if_false]
  obtain ⟨written, agree⟩ := State.atomWrite_puts _ o p.lane (BitVec.ofNat 32 (memNat s.mem key 4)) out (noted.plainAccess.plainStores plain)
  rw [noted.mem] at agree
  exact ⟨_, run, noted.rmws.trans written, agree⟩

/-! ### The lanes' atomics (R125) -/

/-- What holds of every lane of an atomic that reaches its words in one turn. -/
structure LanePlan.oneTurn (s : State) (leaf : Nat → Bool) (p : LanePlan) : Prop where
  clean : ∀ key mt e tile, p.out = .ok key mt e tile → s.poisoned key 4 = false
  apart : ∀ key mt e tile, p.out = .ok key mt e tile → ∀ a, key ≤ a → a < key + 4 → leaf a = false
  single : p.out.twoStep = false
  leaves : ∀ a, leaf a = false → coversLeaf p.out a = false

theorem LanePlan.oneTurn.rmws {s t : State} {leaf : Nat → Bool} {p : LanePlan} (h : p.oneTurn s leaf) (g : s.rmws t) : p.oneTurn t leaf :=
  { h with clean := fun key mt e tile out => g.clean key 4 (h.clean key mt e tile out) }

/-- What the lanes of an atomic have read, as their cohort notes it. -/
def doneOf (xs : List (Nat × Word)) : List (Nat × Nat) := xs.map fun e => (e.1, e.2.toNat)

theorem laneVal_cons (e : Nat × Nat) (vs : List (Nat × Nat)) (l : Nat) : laneVal (e :: vs) l = if e.1 = l then e.2 else laneVal vs l := by
  unfold laneVal
  rw [List.find?_cons]
  split
  · next same => simp [beq_iff_eq.1 same]
  · next other => simp [beq_eq_false_iff_ne.1 other]

theorem laneVal_of_none (vs : List (Nat × Nat)) (l : Nat) (h : ∀ e ∈ vs, e.1 ≠ l) : laneVal vs l = 0 := by
  unfold laneVal
  rw [List.find?_eq_none.2 fun e he => by simpa using h e he]
  rfl

/-- THE LANES' ATOMICS (R125, R342): they read and write one after the other, as a fold over memory says, but for leaf entries. -/
theorem State.rmwLanes_fold (c : Cohort) (o : AtomOp) (leaf : Nat → Bool) (ps : List LanePlan) (s : State) (m : List Host.Cell) (r : Rmw)
    (lanes : (ps.map LanePlan.lane).Nodup) (fresh : ∀ e ∈ r.done, e.1 ∉ ps.map LanePlan.lane) (each : ∀ p ∈ ps, p.oneTurn s leaf)
    (plain : s.plainStores) (agree : agreesOff leaf m s.mem) :
    ∃ (ds : List (Nat × Nat)) (t : State), State.rmwLanes c o ps s r = ({ r with done := r.done ++ ds }, true, t) ∧
      (∀ e ∈ ds, e.1 ∈ ps.map LanePlan.lane) ∧ (∀ l, laneVal ds l = laneVal (doneOf (rmwFold o.writes ps m).1) l) ∧ s.rmws t ∧
      agreesOff leaf (rmwFold o.writes ps m).2 t.mem := by
  induction ps generalizing s m r with
  | nil => exact ⟨[], s, by rw [State.rmwLanes, List.append_nil], nofun, fun _ => rfl, .refl s, agree⟩
  | cons p ps ih =>
    rw [List.map_cons, List.nodup_cons] at lanes
    rw [List.forall_mem_cons] at each
    have first : (r.done.any fun e => e.1 == p.lane) = false :=
      List.any_eq_false.2 fun e he same => fresh e he (by simp [beq_iff_eq.1 same])
    have rest : ∀ e ∈ r.done, e.1 ∉ ps.map LanePlan.lane := fun e he hq => fresh e he (List.mem_cons_of_mem _ hq)
    rw [State.rmwLanes, first, if_neg Bool.false_ne_true, rmwFold]
    cases out : p.out with
    | ok key mt e tile =>
      have dropped := s.dropPlan_loads c p
      have old : memNat (s.dropPlan c p).mem key 4 = memNat m key 4 := by
        rw [dropped.mem]
        exact memNat_agrees agree key 4 (each.1.apart key mt e tile out)
      obtain ⟨u, home, read, written⟩ := (s.dropPlan c p).atomHome_puts o out (dropped.rmws.clean key 4 (each.1.clean key mt e tile out))
        (dropped.plainAccess.plainStores plain)
      have step := dropped.rmws.trans read
      rw [old] at home written
      rw [dropped.mem] at written
      have single := each.1.single
      rw [out] at home single
      dsimp only
      generalize BitVec.ofNat 32 (memNat m key 4) = word at home written ⊢
      obtain ⟨ds, t, run, among, vals, after, agree'⟩ := ih u (o.put p.lane key word m) { r with done := r.done ++ [(p.lane, word.toNat)] } lanes.2
        (by
          intro x hx
          rcases List.mem_append.1 hx with hx | hx
          · exact rest x hx
          · rw [List.mem_singleton.1 hx]
            exact lanes.1)
        (fun q hq => (each.2 q hq).rmws step) (step.frame.plainStores plain)
        ((agree.put o p.lane key word).trans fun a ha => written a (each.1.leaves a ha))
      refine ⟨(p.lane, word.toNat) :: ds, t, ?_, ?_, fun l => ?_, step.trans after, agree'⟩
      · simp only [single, home, run, Bool.false_and, Bool.false_eq_true, if_false, List.append_assoc, List.singleton_append]
      · exact List.forall_mem_cons.2 ⟨List.mem_cons_self, fun e he => List.mem_cons_of_mem _ (among e he)⟩
      · rw [laneVal_cons, doneOf, List.map_cons, laneVal_cons, vals]
        rfl
    | _ =>
      obtain ⟨ds, t, run, among, vals, after, agree'⟩ := ih s m r lanes.2 rest each.2 plain agree
      refine ⟨ds, t, run, fun e he => List.mem_cons_of_mem _ (among e he), fun l => ?_, after, agree'⟩
      rw [doneOf, List.map_cons, laneVal_cons]
      split
      · next same => exact laneVal_of_none ds l fun e he eq => lanes.1 ((eq.trans same.symm : e.1 = p.lane) ▸ among e he)
      · exact vals l

/-- What a lane of `ps` has read, as the fold over memory says. -/
theorem ofNat_laneVal_doneOf (xs : List (Nat × Word)) (l : Nat) :
    BitVec.ofNat 64 (laneVal (doneOf xs) l) = ((xs.find? fun p => p.1 == l).map fun p => p.2.setWidth 64).getD 0 := by
  have wide (w : Word) : BitVec.ofNat 64 w.toNat = w.setWidth 64 := BitVec.eq_of_toNat_eq (by simp)
  unfold laneVal doneOf
  rw [List.find?_map]
  change BitVec.ofNat 64 ((((xs.find? fun p => p.1 == l).map _).map _).getD 0) = _
  cases xs.find? fun p => p.1 == l with
  | none => rfl
  | some e => exact wide e.2

theorem planLanes_nodup (s : State) (c : Cohort) (x : Ctx) (acc : Acc) (n : Nat) (m : Mask) (va : Nat → DWord) :
    ((s.planLanes c x acc n m va).map LanePlan.lane).Nodup := by
  have lanes : (s.planLanes c x acc n m va).map LanePlan.lane = laneList m := by
    unfold State.planLanes
    rw [List.map_map]
    exact List.map_id _
  rw [lanes]
  exact List.Nodup.filter _ List.nodup_range

/-- Lanes that reach their words in one turn and apart from the leaf entries (R125, R342). -/
theorem oneTurn_of_reaches {s t : State} {ps : List LanePlan} {types : List (BitVec 2)} (hp : ps.all (laneReaches s 4 types) = true)
    (one : ps.all (fun p => !p.out.twoStep) = true) (apart : leavesApart 4 ps = true) (h : s.rmws t) :
    ∀ p ∈ ps, p.oneTurn t (planLeaves ps) := by
  intro p mem
  refine ⟨fun key mt e tile out => h.clean key 4 (laneReaches_ok (List.all_eq_true.1 hp p mem) out).2.1, fun key mt e tile out a low high => ?_,
    by simpa using List.all_eq_true.1 one p mem, fun a ha => coversLeaf_of_planLeaves ha mem⟩
  rw [planLeaves, List.any_eq_false]
  intro q hq covered
  have alone := List.all_eq_true.1 (List.all_eq_true.1 apart p mem) q hq
  unfold coversLeaf at covered
  split at covered
  · next key' mt' entry tile' out' =>
    rw [out', out] at alone
    simp [covers, beq_iff_eq.1 covered, low, high] at alone
  · exact Bool.false_ne_true covered

theorem memByte_rmwFold_other (new : Nat → Word → Option Word) (ps : List LanePlan) (m : List Host.Cell) (a : Nat)
    (h : ∀ p ∈ ps, covers p.out 4 a = false) : memByte (rmwFold new ps m).2 a = memByte m a := by
  induction ps generalizing m with
  | nil => rfl
  | cons p ps ih =>
    rw [List.forall_mem_cons] at h
    rw [rmwFold]
    split
    · next key mt leaf tile out =>
      rw [out] at h
      refine (ih _ h.2).trans ?_
      split
      · exact memByte_memPut_other m key 4 _ a (not_covered h.1)
      · rfl
    · exact ih m h.2

/-- No byte outside the lanes' words and their leaf entries is written. -/
theorem rmwFold_stays {new : Nat → Word → Option Word} {ps : List LanePlan} {m m' : List Host.Cell}
    (agree : agreesOff (planLeaves ps) (rmwFold new ps m).2 m')
    {a : Nat} (h : (ps.any fun p => covers p.out 4 a || coversLeaf p.out a) = false) : memByte m' a = memByte m a := by
  have apart : ∀ p ∈ ps, covers p.out 4 a = false ∧ coversLeaf p.out a = false := by
    simpa [List.any_eq_false, Bool.or_eq_false_iff] using h
  have leaves : planLeaves ps a = false := List.any_eq_false.2 fun p mem => by simp [(apart p mem).2]
  rw [agree a leaves, memByte_rmwFold_other _ _ _ _ fun p mem => (apart p mem).1]

/-! ### The run of ATOM (R342 to R344) -/

/-- The operands of an ATOM. -/
def State.atomOp (s : State) (c : Cohort) (f : Fields) : AtomOp where
  sub := f.sub.toNat
  typ := f.typ
  pol := hintL2 f
  cmp l := if f.sub.toNat = 7 then (c.src64 f f.oc).1.lane l else 0
  val l := if f.sub.toNat = 7 then (c.src64 f f.oc).2.lane l else (s.src c f f.oc).lane l

theorem atomGo_eq (s : State) (c : Cohort) (o : AtomOp) (ps : List LanePlan) (k : State → Cohort → List (Nat × Nat) → Mask → Out)
    (q : Rmw × Bool × State) (hq : State.rmwLanes c o ps s (c.rmw.getD { Rmw.start with words := planWords ps }) = q) :
    atomGo s c o ps k = if q.2.1 then k q.2.2 { c with rmw := none } q.1.done q.1.dead else waitHere q.2.2 { c with rmw := some q.1 } := by
  subst hq
  rfl

/-- ATOM of a cohort of no pair whose lanes do not fault and are not kept waiting: its lanes act on their words as far as they go. -/
theorem exec_atom (s : State) (c : Cohort) (x : Ctx) (f : Fields) (ps : List LanePlan) (hc : s.me? = some c)
    (hx : s.ctx? c.ctx = some x) (hr : c.role = .single) (hm : c.writeMask f ≠ 0)
    (htile : (c.hmode && anyTile x (c.writeMask f) (c.ea f f.oa f.ob)) = false)
    (hps : ps = s.planLanes c x .atomic 4 (c.writeMask f) (c.ea f f.oa f.ob)) (hf : ps.any LanePlan.faults = false)
    (hb : s.plansBlocked c ps false = false) (ht : s.plansTaken c 4 ps = false)
    (can : (f.ord == .release || f.ord == .acqRel || ps.any planSO) = true → s.canRelease c) (q : Rmw × Bool × State)
    (hq : State.rmwLanes c (s.atomOp c f) ps ((s.touchPlans c x ps).unpinAll c ps) (c.rmw.getD { Rmw.start with words := planWords ps }) = q) :
    exec (.atom f) s =
      if q.2.1 then loadDone f q.2.2 { c with rmw := none } (c.writeMask f) false false (fun l => BitVec.ofNat 64 (laneVal q.1.done l))
        (nonresMask ps) q.1.dead
      else waitHere q.2.2 { c with rmw := some q.1 } := by
  have give (t : State) (d : Cohort) (vals : List (Option DWord)) (dead : Mask) (h : d.role = .single) : t.fwdGive d vals dead = (t, d) := by
    simp [State.fwdGive, h]
  have close (k : Cohort → Out) : indigoClose s c k = k c := by simp [indigoClose, hr]
  refine (withMe_some s c _ hc).trans ((withCtx_some s c x _ hx).trans ((if_neg hm).trans ?_))
  simp only [atomSize, htile, ← hps, hf, hb, ht, close, Bool.or_self, Bool.false_eq_true, if_false]
  refine (congrArg (fun k => if c.rmw.isSome = true then _ else k) (releasing_if_canRelease s c _ _ hr can)).trans ?_
  rw [ite_self]
  conv_lhs => rw [hr]
  refine (atomGo_eq _ c (s.atomOp c f) ps _ q hq).trans ?_
  rw [give q.2.2 { c with rmw := none } _ _ hr]

/-- The lanes of a plan of one lane. -/
theorem planLanes_single {s : State} {c : Cohort} {x : Ctx} {acc : Acc} {n : Nat} {m : Mask} {va : Nat → DWord} {p : LanePlan}
    (h : s.planLanes c x acc n m va = [p]) {l : Nat} (hl : m.getLsbD l = true) : l = p.lane := by
  have planned := List.mem_map_of_mem (f := fun l => s.planLane c x acc n (va l) l) ((mem_laneList m l).2 hl)
  rw [← State.planLanes, h, List.mem_singleton] at planned
  exact congrArg LanePlan.lane planned

theorem lo_pair (a b : Word) : DWord.lo (Word.pair a b) = a := by
  apply BitVec.eq_of_getLsbD_eq
  intro i hi
  rw [DWord.lo, Word.pair, BitVec.getLsbD_setWidth, BitVec.getLsbD_append]
  simp [hi]

theorem hi_pair (a b : Word) : DWord.hi (Word.pair a b) = b := by
  apply BitVec.eq_of_getLsbD_eq
  intro i hi
  rw [DWord.hi, Word.pair, BitVec.getLsbD_setWidth, BitVec.getLsbD_ushiftRight, BitVec.getLsbD_append]
  simp [hi]

theorem sub_seven (f : Fields) : f.sub.toNat = 7 ↔ f.sub = 7 := by rw [← BitVec.toNat_inj]; rfl

/-- What an ATOM's lanes write, as the statement says it (R342, R343). -/
theorem atomOp_writes (s : State) (c : Cohort) (f : Fields) : (s.atomOp c f).writes =
    atomWrites f (fun l => if f.sub = 7 then DWord.lo (c.opnd64 f f.oc l) else 0)
      (fun l => if f.sub = 7 then DWord.hi (c.opnd64 f f.oc l) else s.opnd c f f.oc l) := by
  funext l old
  simp only [AtomOp.writes, State.atomOp, atomWrites, sub_seven, Cohort.opnd64, lane64, lo_pair, hi_pair, State.opnd]

theorem planWords_of_oneTurn (ps : List LanePlan) (one : ps.all (fun p => !p.out.twoStep) = true) : planWords ps = [] := by
  refine if_neg ?_
  rw [Bool.not_eq_true, List.any_eq_false]
  exact fun p mem => by simpa using List.all_eq_true.1 one p mem

/-- ATOM OF LANES THAT REACH THEIR WORDS IN ONE TURN (R125, R342 to R344). -/
theorem exec_atom_folds (s : State) (c : Cohort) (x : Ctx) (f : Fields) (ps : List LanePlan) (hc : s.me? = some c) (hx : s.ctx? c.ctx = some x)
    (hr : c.role = .single) (hm : c.writeMask f ≠ 0) (htile : (c.hmode && anyTile x (c.writeMask f) (c.ea f f.oa f.ob)) = false)
    (hps : ps = s.planLanes c x .atomic 4 (c.writeMask f) (c.ea f f.oa f.ob)) (hp : ps.all (laneReaches s 4 [0, 2, 3]) = true)
    (one : ps.all (fun p => !p.out.twoStep) = true) (hb : s.plansBlocked c ps false = false) (ht : s.plansTaken c 4 ps = false)
    (plain : s.plainStores) (idle : c.rmw = none) (apart : leavesApart 4 ps = true)
    (can : (f.ord == .release || f.ord == .acqRel || ps.any planSO) = true → s.canRelease c) (hk : c.holds f f.od false) :
    ∃ (t : State) (d : Cohort), exec (.atom f) s = .next (t.setCohort d.complete) ∧ s.onlyAccess t ∧
      (∀ a, planLeaves ps a = false → memByte t.mem a = memByte (rmwFold (s.atomOp c f).writes ps s.mem).2 a) ∧
      (∀ a, (ps.any fun p => covers p.out 4 a || coversLeaf p.out a) = false → memByte t.mem a = memByte s.mem a) ∧
      accessWrites c d f (c.writeMask f) f.od false
        (fun l => (((rmwFold (s.atomOp c f).writes ps s.mem).1.find? fun p => p.1 == l).map fun p => p.2.setWidth 64).getD 0)
        (fun l => lanePending (s.xlat (.core c.core) c.core x .atomic (c.ea f f.oa f.ob l))) ∧
      accessTags c d (c.writeMask f) f.od false .g := by
  have pass := none_faults_of_reaches hp
  have touched := s.touchUnpin_touches c x ps
  have lanes : (ps.map LanePlan.lane).Nodup := by
    rw [hps]
    exact planLanes_nodup s c x .atomic 4 _ _
  obtain ⟨ds, t, run, -, vals, after, agree⟩ := State.rmwLanes_fold c (s.atomOp c f) (planLeaves ps) ps ((s.touchPlans c x ps).unpinAll c ps) s.mem
    .start lanes nofun (oneTurn_of_reaches hp one apart touched.rmws) (touched.plainAccess.plainStores plain) fun a ha => touched.mem a ha
  have same : { c with rmw := none } = c := by rw [← idle]
  have step := exec_atom s c x f ps hc hx hr hm htile hps pass hb ht can ({ Rmw.start with done := ds }, true, t)
    (by rw [idle, planWords_of_oneTurn ps one]; exact run)
  rw [if_pos rfl, same] at step
  replace step := step.trans (loadDone_eq f t c _ _ _ _ _)
  obtain ⟨written, tags⟩ := putLoaded_writes c (c.writeMask f) f.od false false (fun l => BitVec.ofNat 64 (laneVal ds l)) hk.1
    (writeMask_alive c f) nofun
  refine ⟨t, _, step, (touched.plainAccess.trans after.frame).onlyAccess, fun a ha => agree a ha, fun a ha => ?_,
    accessWrites_of_regs (regsLoaded_congr written fun l _ => ?_) hk.2 fun l hl => ?_, accessTags_putPredOpt f.oe _ tags⟩
  · exact rmwFold_stays agree ha
  · rw [vals, ofNat_laneVal_doneOf]
  · rw [hps] at pass ⊢
    exact nonresMask_bit s c x .atomic _ _ _ pass l hl

/-! ### A device word of the host (R142) -/

/-- THE FIRST TURN: the word is read, and the cohort waits in its atomic. -/
theorem State.rmwLanes_reads (s : State) (c : Cohort) (o : AtomOp) (p : LanePlan) (r : Rmw) {key : Nat} {leaf : Option TlbEntry}
    (out : p.out = .ok key 2 leaf false) (two : p.out.twoStep = true) (clean : s.poisoned key 4 = false) (fresh : r.done = [])
    (unread : r.read = none) :
    State.rmwLanes c o [p] s r =
      ({ r with read := some (key, BitVec.ofNat 32 (memNat (s.dropPlan c p).mem key 4)) }, false, s.dropPlan c p) := by
  have unpoisoned := ((s.dropPlan_loads c p).poisoned key 4).trans clean
  rw [out] at two
  simp only [State.rmwLanes, fresh, List.any_nil, out, two, unpoisoned, unread, Bool.false_eq_true, if_false, Bool.not_false, Bool.and_self, if_true]

/-- THE SECOND TURN: the new value is written, whatever the word holds by then. -/
theorem State.rmwLanes_writes (s : State) (c : Cohort) (o : AtomOp) (p : LanePlan) (r : Rmw) (k : Nat) (old : Word) {key : Nat}
    {leaf : Option TlbEntry} (out : p.out = .ok key 2 leaf false) (two : p.out.twoStep = true) (clean : s.poisoned key 4 = false)
    (fresh : r.done = []) (read : r.read = some (k, old)) :
    State.rmwLanes c o [p] s r = ({ r with done := [(p.lane, old.toNat)], read := none }, true,
      (s.dropPlan c p).atomWrite o.sub o.typ p.out old (o.cmp p.lane) (o.val p.lane)) := by
  have unpoisoned := ((s.dropPlan_loads c p).poisoned key 4).trans clean
  rw [out] at two
  simp only [State.rmwLanes, fresh, List.any_nil, out, two, unpoisoned, read, Bool.false_eq_true, if_false, Bool.not_false, Bool.and_self, if_true,
    List.nil_append]

theorem twoStep_of_host {key : Nat} {leaf : Option TlbEntry} {tile : Bool} (low : hostBase ≤ key) (high : key < 2 ^ 52) :
    (Xlat.ok key 2 leaf tile).twoStep = true := by
  simpa [Xlat.twoStep, low] using high

/-- What one lane's ATOM puts in memory, as the statement says it. -/
theorem atomOp_put (s : State) (c : Cohort) (f : Fields) (l key : Nat) (old cmp v : Word) (m : List Host.Cell)
    (hcmp : cmp = if f.sub = 7 then DWord.lo (c.opnd64 f f.oc l) else 0)
    (hv : v = if f.sub = 7 then DWord.hi (c.opnd64 f f.oc l) else s.opnd c f f.oc l) :
    (s.atomOp c f).put l key old m = match atomWrites f (fun _ => cmp) (fun _ => v) l old with
      | some w => memPut m key 4 w.toNat
      | none => m := by
  have same : (s.atomOp c f).writes l old = atomWrites f (fun _ => cmp) (fun _ => v) l old := by
    rw [atomOp_writes, hcmp, hv]
    simp only [atomWrites]
  exact congrArg (fun w : Option Word => match w with
    | some w => memPut m key 4 w.toNat
    | none => m) same

section DeviceWord
variable {s : State} {c : Cohort} {x : Ctx} {f : Fields} {p : LanePlan} {key : Nat} {leaf : Option TlbEntry}
variable (hc : s.me? = some c) (hx : s.ctx? c.ctx = some x) (hr : c.role = .single) (hm : c.writeMask f ≠ 0)
  (htile : (c.hmode && anyTile x (c.writeMask f) (c.ea f f.oa f.ob)) = false)
  (hps : s.planLanes c x .atomic 4 (c.writeMask f) (c.ea f f.oa f.ob) = [p]) (out : p.out = .ok key 2 leaf false) (low : hostBase ≤ key)
  (high : key < 2 ^ 52) (ht : s.plansTaken c 4 [p] = false) (norel : f.ord ≠ .release)
  (noacq : f.ord ≠ .acqRel)
include hc hx hr hm htile hps out low high ht norel noacq

/-- The run of ATOM by one lane at a device word of the host. -/
theorem exec_atom_device (q : Rmw × Bool × State)
    (hq : State.rmwLanes c (s.atomOp c f) [p] ((s.touchPlans c x [p]).unpinAll c [p]) (c.rmw.getD { Rmw.start with words := [key] }) = q) :
    exec (.atom f) s =
      if q.2.1 then loadDone f q.2.2 { c with rmw := none } (c.writeMask f) false false (fun l => BitVec.ofNat 64 (laneVal q.1.done l))
        (nonresMask [p]) q.1.dead
      else waitHere q.2.2 { c with rmw := some q.1 } := by
  have two := twoStep_of_host (leaf := leaf) (tile := false) low high
  have words : planWords [p] = [key] := by
    unfold planWords
    rw [if_pos (by rw [List.any_cons, out, two]; rfl)]
    simp [out]
  exact exec_atom s c x f [p] hc hx hr hm htile hps.symm (by simp [LanePlan.faults, out]) (by simp [State.plansBlocked, tileLine?, out]) ht
    (by simp [norel, noacq, planSO, out]) q (by rw [words]; exact hq)

/-- THE FIRST TURN of an ATOM at a device word (R142). -/
theorem exec_atom_read (clean : s.poisoned key 4 = false) (idle : c.rmw = none) : ∃ t : State, exec (.atom f) s = .next (t.setCohort
      { c with rmw := some { Rmw.start with read := some (key, BitVec.ofNat 32 (memNat t.mem key 4)), words := [key] }, wait := .retry }) ∧
    s.onlyAccess t ∧ ∀ a, coversLeaf p.out a = false → memByte t.mem a = memByte s.mem a := by
  have touched := s.touchUnpin_touches c x [p]
  have dropped := ((s.touchPlans c x [p]).unpinAll c [p]).dropPlan_loads c p
  have two : p.out.twoStep = true := by rw [out]; exact twoStep_of_host low high
  have turn := exec_atom_device hc hx hr hm htile hps out low high ht norel noacq _
    (State.rmwLanes_reads _ c _ p _ out two ((touched.poisoned key 4).trans clean) (by rw [idle]; rfl) (by rw [idle]; rfl))
  rw [idle] at turn
  refine ⟨_, turn, (touched.plainAccess.trans dropped.plainAccess).onlyAccess, fun a ha => ?_⟩
  rw [dropped.mem]
  exact touched.mem a (by simpa [planLeaves] using ha)

/-- THE SECOND TURN of an ATOM at a device word (R142). -/
theorem exec_atom_write (clean : s.poisoned key 4 = false) (plain : s.plainStores) (hk : c.holds f f.od false) {old : Word} {k : Nat} {r : Rmw}
    (waits : c.rmw = some r) (read : r.read = some (k, old)) (fresh : r.done = []) (alive : r.dead = 0) :
    ∃ (t : State) (d : Cohort), exec (.atom f) s = .next (t.setCohort d.complete) ∧ s.onlyAccess t ∧ d.rmw = none ∧
      (∀ a, coversLeaf p.out a = false → memByte t.mem a = memByte ((s.atomOp c f).put p.lane key old s.mem) a) ∧
      accessWrites { c with rmw := none } d f (c.writeMask f) f.od false (fun _ => old.setWidth 64) (fun _ => false) ∧
      accessTags c d (c.writeMask f) f.od false .g := by
  have touched := s.touchUnpin_touches c x [p]
  have dropped := ((s.touchPlans c x [p]).unpinAll c [p]).dropPlan_loads c p
  have two : p.out.twoStep = true := by rw [out]; exact twoStep_of_host low high
  have turn := exec_atom_device hc hx hr hm htile hps out low high ht norel noacq _
    (State.rmwLanes_writes _ c _ p _ k old out two ((touched.poisoned key 4).trans clean) (by rw [waits]; exact fresh) (by rw [waits]; exact read))
  have stay : agreesOff (coversLeaf p.out) s.mem (((s.touchPlans c x [p]).unpinAll c [p]).dropPlan c p).mem := fun a ha => by
    rw [dropped.mem]
    exact touched.mem a (by simpa [planLeaves] using ha)
  have reached := touched.plainAccess.trans dropped.plainAccess
  generalize ((s.touchPlans c x [p]).unpinAll c [p]).dropPlan c p = u at *
  obtain ⟨after, agree⟩ := u.atomWrite_puts (s.atomOp c f) p.lane old out (reached.plainStores plain)
  rw [waits] at turn
  simp only [if_true, Option.getD_some, alive, loadDone_eq] at turn
  obtain ⟨written, tags⟩ := putLoaded_writes { c with rmw := none } (c.writeMask f) f.od false false
    (fun l => BitVec.ofNat 64 (laneVal [(p.lane, old.toNat)] l)) hk.1 (writeMask_alive c f) nofun
  have value (l : Nat) (hl : (c.writeMask f).getLsbD l = true) : BitVec.ofNat 64 (laneVal [(p.lane, old.toNat)] l) = old.setWidth 64 := by
    have lane : l = p.lane := planLanes_single hps hl
    exact (ofNat_laneVal_doneOf [(p.lane, old)] l).trans (by simp [lane])
  have wrote := accessWrites_of_regs (f := f) (pending := fun _ => false) (nonres := nonresMask [p]) (regsLoaded_congr written value) hk.2
    fun l _ => nonresMask_resident [p] (by simp [lanePending, out]) l
  exact ⟨_, _, turn, (reached.trans after.frame).onlyAccess, by rw [wrote.1], (stay.put _ p.lane key old).trans agree, wrote,
    accessTags_putPredOpt f.oe _ tags⟩

end DeviceWord

/-- Settles O28: the lanes' words one after the other, and the two turns of a device word of the host. -/
theorem atomicResult : Obligations.AtomicResult := by
  unfold Obligations.AtomicResult
  constructor
  · intro s c x f ps cmp v hc hx hr hm htile hps hp one hb ht plain idle apart can hk hcmp hv
    rw [hcmp, hv, ← atomOp_writes s c f]
    exact exec_atom_folds s c x f ps hc hx hr hm htile hps hp one hb ht plain idle apart can hk
  intro s c x f p key leaf cmp v hc hx hr hm htile hps out low high clean ht plain norel noacq hk hcmp hv
  refine ⟨exec_atom_read hc hx hr hm htile hps out low high ht norel noacq clean, fun old k r waits read fresh alive => ?_⟩
  obtain ⟨t, d, run, only, done, mem, wrote, tags⟩ :=
    exec_atom_write hc hx hr hm htile hps out low high ht norel noacq clean plain hk waits read fresh alive
  exact ⟨t, d, run, only, done, fun a ha => (mem a ha).trans (congrArg (memByte · a) (atomOp_put s c f p.lane key old cmp v s.mem hcmp hv)), wrote, tags⟩

/-! ### RED (R433) -/

/-- The operands of a RED. -/
def State.redOp (s : State) (c : Cohort) (f : Fields) : AtomOp where
  sub := f.sub.toNat
  typ := f.typ
  pol := hintL2 f
  cmp _ := 0
  val l := (s.src c f f.oc).lane l

theorem redOp_writes (s : State) (c : Cohort) (f : Fields) : (s.redOp c f).writes = atomWrites f (fun _ => 0) (s.opnd c f f.oc) := by
  funext l old
  simp only [AtomOp.writes, State.redOp, atomWrites, sub_seven, State.opnd]
  rfl

/-- RED of a cohort of no pair whose lanes do not fault and are not kept waiting, and reach their words in one turn. -/
theorem exec_red (s : State) (c : Cohort) (x : Ctx) (f : Fields) (ps : List LanePlan) (hc : s.me? = some c)
    (hx : s.ctx? c.ctx = some x) (hr : c.role = .single) (hm : c.writeMask f ≠ 0)
    (htile : (c.hmode && anyTile x (c.writeMask f) (c.ea f f.oa f.ob)) = false)
    (hps : ps = s.planLanes c x .atomic 4 (c.writeMask f) (c.ea f f.oa f.ob)) (hf : ps.any LanePlan.faults = false)
    (hb : s.plansBlocked c ps false = false) (ht : s.plansTaken c 4 ps = false)
    (can : (f.ord == .release || ps.any planSO) = true → s.canRelease c) (idle : c.rmw = none) (r : Rmw) (t : State) (alive : r.dead = 0)
    (hq : State.rmwLanes c (s.redOp c f) ps ((s.touchPlans c x ps).unpinAll c ps) { Rmw.start with words := planWords ps } = (r, true, t)) :
    exec (.red f) s = finish t (c.putPredOpt (c.writeMask f) f.oe (nonresMask ps)) := by
  have agree : agreed c x (nonresMask ps) ps = ps := by simp [agreed, hr]
  have same : { c with rmw := none } = c := by rw [← idle]
  have close (rel : Bool) : closeIf rel (c.putPredOpt (c.writeMask f) f.oe (nonresMask ps)) = c.putPredOpt (c.writeMask f) f.oe (nonresMask ps) := by
    simp [closeIf, putPredOpt_role, hr]
  refine (withMe_some s c _ hc).trans ((withCtx_some s c x _ hx).trans ((if_neg hm).trans ?_))
  simp only [atomSize, htile, ← hps, hf, hb, ht, Bool.or_self, Bool.false_eq_true, if_false]
  refine (congrArg (fun k => if c.rmw.isSome = true then _ else k) (releasing_if_canRelease s c _ _ hr can)).trans ?_
  rw [ite_self, outsideValue_of_single _ c _ _ hr, agree]
  conv_lhs => rw [hr]
  refine (atomGo_eq _ c (s.redOp c f) ps _ (r, true, t) (by rw [idle]; exact hq)).trans ?_
  rw [if_pos rfl, same]
  refine (if_pos alive).trans ?_
  rw [← close]
  rfl

/-- Settles O29: the lanes' words one after the other, as for an ATOM, and no register. -/
theorem reductionResult : Obligations.ReductionResult := by
  unfold Obligations.ReductionResult
  intro s c x f ps hc hx hr _ hm htile hps hp one hb ht plain idle apart can hk
  have pass := none_faults_of_reaches hp
  have touched := s.touchUnpin_touches c x ps
  have lanes : (ps.map LanePlan.lane).Nodup := by
    rw [hps]
    exact planLanes_nodup s c x .atomic 4 _ _
  obtain ⟨ds, t, run, -, -, after, agree⟩ := State.rmwLanes_fold c (s.redOp c f) (planLeaves ps) ps ((s.touchPlans c x ps).unpinAll c ps) s.mem
    { Rmw.start with words := planWords ps } lanes nofun (oneTurn_of_reaches hp one apart touched.rmws) (touched.plainAccess.plainStores plain)
    fun a ha => touched.mem a ha
  have step := exec_red s c x f ps hc hx hr hm htile hps pass hb ht can idle _ t rfl run
  rw [redOp_writes] at agree
  refine ⟨t, _, step, (touched.plainAccess.trans after.frame).onlyAccess, fun a ha => agree a ha, fun a ha => ?_,
    accessWrites_of_regs (regsLoaded_none c _ false _) hk.2 fun l hl => ?_⟩
  · exact rmwFold_stays agree ha
  · rw [hps] at pass ⊢
    exact nonresMask_bit s c x .atomic _ _ _ pass l hl

end Sys2Proof.Machine
end

section
/-!
A lane access that faults (O30): the cohort takes the cause of its lowest faulting lane and its context stops; nothing is written but A bits.
-/

namespace Sys2Proof.Machine

set_option Elab.async false

/-! ### Translations leave the contexts as they are -/

theorem foldl_ctxs {α : Type} (g : State → α → State) (hg : ∀ t a, (g t a).ctxs = t.ctxs) (xs : List α) (s : State) :
    (xs.foldl g s).ctxs = s.ctxs := by
  induction xs generalizing s with
  | nil => rfl
  | cons a xs ih => exact (ih _).trans (hg s a)

@[simp] theorem State.noteLine_ctxs (s : State) (key : Nat) (mt pol : BitVec 2) : (s.noteLine key mt pol).ctxs = s.ctxs := by
  rw [s.noteLine_frame]

@[simp] theorem State.noteWalk_ctxs (s : State) (p : XPort) (x : Ctx) (va : Nat) : (s.noteWalk p x va).ctxs = s.ctxs := by
  unfold State.noteWalk
  dsimp only
  repeat' split
  all_goals simp [foldl_ctxs]

@[simp] theorem State.noteXlat_ctxs (s : State) (p : XPort) (x : Ctx) (va : DWord) (r : Xlat) : (s.noteXlat p x va r).ctxs = s.ctxs := by
  unfold State.noteXlat
  repeat' split
  all_goals simp

@[simp] theorem State.keepTranslation_ctxs (s : State) (p : XPort) (x : Ctx) (va : Nat) (e : TlbEntry) :
    (s.keepTranslation p x va e).ctxs = s.ctxs := by
  unfold State.keepTranslation
  dsimp only
  repeat' split
  all_goals rfl

@[simp] theorem State.setLeaf_ctxs (s : State) (leaf : Nat) (bits : Byte) : (s.setLeaf leaf bits).ctxs = s.ctxs := by
  unfold State.setLeaf
  dsimp only
  split <;> rfl

@[simp] theorem State.touch_ctxs (s : State) (p : XPort) (x : Ctx) (va : DWord) (r : Xlat) : (s.touch p x va r).ctxs = s.ctxs := by
  unfold State.touch
  split <;> simp

@[simp] theorem State.touchPlans_ctxs (s : State) (c : Cohort) (x : Ctx) (ps : List LanePlan) : (s.touchPlans c x ps).ctxs = s.ctxs :=
  foldl_ctxs _ (fun _ _ => State.touch_ctxs _ _ _ _ _) ps s

/-! ### What a raised cause leaves of its cohort (R226, R234) -/

/-- Two cohorts differ in what is pending for them alone. -/
def Cohort.pendOnly (c d : Cohort) : Prop := d = { c with pend := d.pend, pendInfo := d.pendInfo }

/-- The halt line leaves a cohort as it was, but for what is pending. -/
theorem State.halt_cohort (s : State) (k : BitVec 16) (g : BitVec 5) (core : BitVec 16) (pc : Word) (cid : Nat) (c : Cohort)
    (h : s.cohort? cid = some c) : ∃ d, (s.halt k g core pc).cohort? cid = some d ∧ c.pendOnly d := by
  have halted : (s.halt k g core pc).cohorts = (s.losePreempts k).cohorts := by
    unfold State.halt
    dsimp only
    repeat' split
    all_goals rfl
  obtain ⟨q, map, pend⟩ : ∃ q : Cohort → Cohort, (s.losePreempts k).cohorts = s.cohorts.map q ∧ ∀ e : Cohort, e.pendOnly (q e) := by
    refine ⟨_, rfl, fun e => ?_⟩
    dsimp only
    split <;> rfl
  refine ⟨q c, ?_, pend c⟩
  have same : (fun d : Cohort => d.cid == cid) ∘ q = fun d => d.cid == cid := by
    funext d
    have name : (q d).cid = d.cid := by rw [pend d]
    exact congrArg (· == cid) name
  rw [State.cohort?, halted, map, List.find?_map, same]
  exact congrArg (Option.map q) h

/-- A CAUSE THAT A COHORT TAKES (R226, R234): the cause and its instruction; the registers and predicates stay, and the context stops. -/
theorem State.raise_stops (s : State) (c : Cohort) (x : Ctx) (g : Nat) (detail : BitVec 96) (recs : List LaneRec) (hc : s.cohort? c.cid = some c)
    (hx : s.ctx? c.ctx = some x) (runs : x.halt = false) (free : (c.raised && !c.hmode) = false) :
    ∃ (d : Cohort) (y : Ctx), (s.raise c g detail recs).cohort? c.cid = some d ∧ (s.raise c g detail recs).ctx? c.ctx = some y ∧
      y.halt = true ∧ d.cause = BitVec.ofNat 5 g ∧ d.epc = c.here.pc ∧ d.regs = c.regs ∧ d.preds = c.preds := by
  unfold State.raise
  dsimp only
  rw [Cohort.meet_takes c _ free]
  generalize taken : ({ c.takeCause { group := g, detail := detail, pc := some c.here.pc, recs := recs, job := false } with
    lastS := c.issuer, wait := .none } : Cohort) = c'
  have name : c'.cid = c.cid := by rw [← taken]; rfl
  have cause : c'.cause = BitVec.ofNat 5 g ∧ c'.epc = c.here.pc ∧ c'.regs = c.regs ∧ c'.preds = c.preds := by
    rw [← taken]
    exact ⟨rfl, rfl, rfl, rfl⟩
  have held : (s.setCohort c').cohort? c.cid = some c' := by
    rw [← name]
    exact s.cohort_setCohort c' (by rw [name, hc]; rfl)
  obtain ⟨d, found, pend⟩ := (s.setCohort c').halt_cohort c.ctx (BitVec.ofNat 5 g) (BitVec.ofNat 16 c.core) c.here.pc c.cid c' held
  refine ⟨d, _, found, State.halt_ctx (s.setCohort c') c.ctx _ _ _ x hx runs, rfl, ?_⟩
  rw [pend]
  exact cause

/-- The cause of a plan is its lowest faulting lane's (R96, R405). -/
theorem State.raisePlans_of_first (s : State) (c : Cohort) (n : Nat) (ps : List LanePlan) (p : LanePlan) (h : ps.find? LanePlan.faults = some p) :
    ∃ (detail : BitVec 96) (recs : List LaneRec), s.raisePlans c n ps = s.raise c p.group detail recs := by
  unfold State.raisePlans
  rw [h]
  exact ⟨_, _, rfl⟩

theorem State.cohort_of_me {s : State} {c : Cohort} (h : s.me? = some c) : s.cohort? c.cid = some c := by
  obtain ⟨k, -, found⟩ := Option.bind_eq_some_iff.1 h
  rw [s.cohort_cid k c found]
  exact found

/-- The group that an address alone decides (R96, R97). -/
theorem State.planLane_group (s : State) (c : Cohort) (x : Ctx) (acc : Acc) (n : Nat) (va : DWord) (l : Nat) :
    (2 ^ 53 ≤ va.toNat → (s.planLane c x acc n va l).group = 4 ∧ (s.planLane c x acc n va l).reason = 1) ∧
    (va.toNat < 2 ^ 53 → va.toNat % n ≠ 0 → (s.planLane c x acc n va l).group = 3) := by
  unfold State.planLane
  dsimp only
  refine ⟨fun high => ?_, fun low odd => ?_⟩
  · rw [if_pos high]
    exact ⟨rfl, rfl⟩
  · rw [if_neg (Nat.not_le.2 low), if_pos odd]
    rfl

/-- Every lane access of which a lane faults raises its plan's cause, and does nothing else (R405). -/
theorem exec_access_faults (i : Instr) (s : State) (c : Cohort) (x : Ctx) (f : Fields) (acc : Acc) (n : Nat) (ps : List LanePlan)
    (access : accessOf i = some (f, acc, n)) (hc : s.me? = some c) (hx : s.ctx? c.ctx = some x) (hm : c.writeMask f ≠ 0)
    (htile : acc = .load ∨ (c.hmode && anyTile x (c.writeMask f) (c.ea f f.oa f.ob)) = false)
    (hps : ps = s.planLanes c x acc n (c.writeMask f) (c.ea f f.oa f.ob)) (faults : ps.any LanePlan.faults = true) :
    exec i s = .next ((s.touchPlans c x ps).raisePlans c n ps) := by
  have enter (k : Cohort → Ctx → Out) : (withMe s fun c => withCtx s c fun x => k c x) = k c x :=
    (withMe_some s c _ hc).trans (withCtx_some s c x _ hx)
  cases i
  case ld | pref =>
    obtain ⟨rfl, rfl, rfl⟩ : _ ∧ _ ∧ _ := by simpa [accessOf] using access
    refine (enter _).trans ((if_neg hm).trans ?_)
    dsimp only
    rw [← hps, if_pos faults]
  case st | atom | red =>
    obtain ⟨rfl, rfl, rfl⟩ : _ ∧ _ ∧ _ := by simpa [accessOf] using access
    have outside := htile.resolve_left nofun
    refine (enter _).trans ((if_neg hm).trans ?_)
    dsimp only [atomSize]
    rw [outside, if_neg Bool.false_ne_true, ← hps, if_pos faults]
  all_goals cases access

/-- Settles O30: the cause of the lowest faulting lane, the stop of its context, and only A bits in memory. -/
theorem faultingAccessWritesNothing : Obligations.FaultingAccessWritesNothing := by
  unfold Obligations.FaultingAccessWritesNothing
  intro i s c x f acc n ps p access hc hx runs free hm htile hps first
  obtain ⟨l, -, planned⟩ : ∃ l ∈ laneList (c.writeMask f), s.planLane c x acc n (c.ea f f.oa f.ob l) l = p := by
    have mem := List.mem_of_find?_eq_some first
    rw [hps] at mem
    exact List.mem_map.1 mem
  have va : c.ea f f.oa f.ob l = p.va := congrArg LanePlan.va planned
  obtain ⟨group4, group3⟩ := s.planLane_group c x acc n (c.ea f f.oa f.ob l) l
  rw [planned, va] at group4 group3
  have faults : ps.any LanePlan.faults = true := List.any_eq_true.2 ⟨p, List.mem_of_find?_eq_some first, List.find?_some first⟩
  have touched := s.touchPlans_touches c x ps
  obtain ⟨detail, recs, raised⟩ := (s.touchPlans c x ps).raisePlans_of_first c n ps p first
  obtain ⟨d, y, found, halted, stops⟩ := (s.touchPlans c x ps).raise_stops c x p.group detail recs
    (by rw [touched.frame]; exact State.cohort_of_me hc) (by rw [State.ctx?, State.touchPlans_ctxs]; exact hx) runs free
  rw [← raised] at found halted
  obtain ⟨halt, cause, epc, regs, preds⟩ := stops
  refine ⟨group4, group3, _, d, y, exec_access_faults i s c x f acc n ps access hc hx hm htile hps faults, found, halted, halt, cause, epc, regs, preds,
    fun a ha => ?_⟩
  rw [raised, State.raise_mem]
  exact touched.mem a ha

end Sys2Proof.Machine
end

section
/-!
PREF, CCTL, FENCE and PGREQ (O31): what they do to caches, the combining buffer, predicates and page requests.
-/

namespace Sys2Proof.Machine

set_option Elab.async false

/-! ### PREF (R430) -/

theorem State.l1Fill_plain (s : State) (core line : Nat) (data : Line) : s.plainAccess (s.setCore ((s.core core).l1Put line data)) := rfl

/-- ONE LANE'S PREFETCH (R430): its translation, and lines of L2 and L1. -/
theorem State.prefLane_plain (s : State) (c : Cohort) (x : Ctx) (f : Fields) (p : LanePlan) :
    s.plainAccess (s.prefLane c x f p) ∧ agreesOff (coversLeaf p.out) s.mem (s.prefLane c x f p).mem := by
  have touched := s.touch_touches c.core x p.va p.out
  have noted (key : Nat) (mt : BitVec 2) :=
    touched.trans (State.noteLine_touches (coversLeaf p.out) (s.touch (.core c.core) x p.va p.out) key mt (hintL2 f))
  cases out : p.out with
  | ok key mt leaf tile =>
    rw [out] at touched noted
    unfold State.prefLane
    rw [out]
    dsimp only
    by_cases ht : tile = true
    · rw [if_pos ht]
      exact ⟨s.plainAccess_refl, fun _ _ => rfl⟩
    · rw [if_neg ht]
      by_cases dev : mt ≠ 0
      · rw [if_pos dev]
        exact ⟨touched.plainAccess, touched.mem⟩
      · rw [if_neg dev]
        split
        · exact ⟨(noted key mt).plainAccess, (noted key mt).mem⟩
        · exact ⟨(noted key mt).plainAccess.trans (State.l1Fill_plain _ _ _ _), (noted key mt).mem⟩
  | _ =>
    unfold State.prefLane
    rw [out]
    exact ⟨s.plainAccess_refl, fun _ _ => rfl⟩

theorem State.prefLanes_plain (c : Cohort) (x : Ctx) (f : Fields) (leaf : Nat → Bool) (ps : List LanePlan)
    (hl : ∀ p ∈ ps, ∀ a, leaf a = false → coversLeaf p.out a = false) (s : State) :
    s.plainAccess (ps.foldl (fun t p => t.prefLane c x f p) s) ∧ agreesOff leaf s.mem (ps.foldl (fun t p => t.prefLane c x f p) s).mem := by
  induction ps generalizing s with
  | nil => exact ⟨s.plainAccess_refl, fun _ _ => rfl⟩
  | cons p ps ih =>
    rw [List.forall_mem_cons] at hl
    obtain ⟨plain, agree⟩ := s.prefLane_plain c x f p
    obtain ⟨plain', agree'⟩ := ih hl.2 (s.prefLane c x f p)
    exact ⟨plain.trans plain', agreesOff.trans (fun a ha => agree a (hl.1 a ha)) agree'⟩

/-- PREF OF LANES THAT DO NOT FAULT (R430). -/
theorem exec_pref (s : State) (c : Cohort) (x : Ctx) (f : Fields) (ps : List LanePlan) (hc : s.me? = some c) (hx : s.ctx? c.ctx = some x)
    (hr : c.role = .single) (hm : c.writeMask f ≠ 0) (hps : ps = s.planLanes c x .load 1 (c.writeMask f) (c.ea f f.oa f.ob))
    (pass : ps.any LanePlan.faults = false) (hk : c.holds f .none false) :
    ∃ (t : State) (d : Cohort), exec (.pref f) s = .next (t.setCohort d.complete) ∧ s.onlyAccess t ∧
      (∀ a, planLeaves ps a = false → memByte t.mem a = memByte s.mem a) ∧
      accessWrites c d f (c.writeMask f) .none false (fun _ => 0)
        (fun l => lanePending (s.xlat (.core c.core) c.core x .load (c.ea f f.oa f.ob l))) := by
  obtain ⟨plain, agree⟩ := State.prefLanes_plain c x f (planLeaves ps) ps (fun p mem a ha => coversLeaf_of_planLeaves ha mem) s
  have unpinned := State.unpinAll_touches (planLeaves ps) (ps.foldl (fun t p => t.prefLane c x f p) s) c ps
  have run : exec (.pref f) s = finish ((ps.foldl (fun t p => t.prefLane c x f p) s).unpinAll c ps)
      (c.putPredOpt (c.writeMask f) f.oe (nonresMask ps)) := by
    refine (withMe_some s c _ hc).trans ((withCtx_some s c x _ hx).trans ((if_neg hm).trans ?_))
    dsimp only
    rw [← hps, if_neg (by rw [pass]; exact Bool.false_ne_true)]
    exact outsideValue_of_single _ c _ _ hr
  refine ⟨_, _, run, (plain.trans unpinned.plainAccess).onlyAccess, agree.trans unpinned.mem,
    accessWrites_of_regs (regsLoaded_none c _ false _) hk.2 fun l hl => ?_⟩
  rw [hps] at pass ⊢
  exact nonresMask_bit s c x .load _ _ _ pass l hl

/-! ### The combining buffer is drained (R108, R116) -/

/-- Bytes that stores write: memory, its poison and open views alone differ. -/
def State.storesOnly (s t : State) : Prop := t = { s with mem := t.mem, poison := t.poison, views := t.views }

theorem State.store_storesOnly (s : State) (key : Nat) (bs : List Byte) : s.storesOnly (s.store key bs) := by
  obtain ⟨m, p, v, h⟩ := s.store_frame key bs
  unfold State.storesOnly
  rw [h]

theorem State.storesOnly.trans {s t u : State} (h : s.storesOnly t) (g : t.storesOnly u) : s.storesOnly u := by
  unfold State.storesOnly at *
  rw [h] at g
  exact g

theorem State.storesOnly_foldl {α : Type} (g : State → α → State) (hg : ∀ (s : State) a, s.storesOnly (g s a)) (xs : List α) (s : State) :
    s.storesOnly (xs.foldl g s) := by
  induction xs generalizing s with
  | nil => rfl
  | cons x xs ih => exact (hg s x).trans (ih _)

theorem State.writeWc_storesOnly (s : State) (w : WcLine) : s.storesOnly (s.writeWc w) :=
  State.storesOnly_foldl (fun (t : State) (b : Nat × Byte) => t.store (w.line * 128 + b.1) [b.2]) (fun _ _ => State.store_storesOnly _ _ _) w.bytes s

theorem State.drainWc_stores (s : State) (core : Nat) : State.storesOnly (s.setCore { s.core core with wc := [] }) (s.drainWc core) :=
  State.storesOnly_foldl _ (fun s w => s.writeWc_storesOnly w) _ _

/-- A DRAINED COMBINING BUFFER HOLDS NOTHING (R108). -/
theorem State.drainWc_empty (s : State) (core : Nat) : ((s.drainWc core).core core).wc = [] := by
  have same : (s.drainWc core).core core = (s.setCore { s.core core with wc := [] }).core core := by rw [s.drainWc_stores core]; rfl
  rw [same, State.core_setCore_eq, if_pos (s.core_core core).symm]

theorem State.release_empty (s : State) (core : Nat) : ((s.release core).core core).wc = [] := by
  unfold State.release
  split
  · next empty => exact empty
  · exact s.drainWc_empty core

/-- FENCE OF A COHORT OF NO PAIR (R108, R385, R136). -/
theorem exec_fence (s : State) (c : Cohort) (f : Fields) (hc : s.me? = some c) (hr : c.role = .single) (hm : c.writeMask f ≠ 0)
    (ready : f.ord = .acquire ∨ s.holdsWrite c.cid = false) (free : s.wcTaken c.core = false) :
    exec (.fence f) s = .next ((s.release c.core).setCohort c.complete) := by
  have close (k : Cohort → Out) : indigoClose s c k = k c := if_pos (.inl hr)
  refine (withMe_some s c _ hc).trans ((if_neg hm).trans ?_)
  by_cases acquire : f.ord = .acquire
  · rw [if_pos acquire, free, close]
    rfl
  · rw [if_neg acquire, releasing, ready.resolve_left acquire, free, close]
    rfl

/-! ### CCTL (R366) -/

/-- What a drain of cores leaves: stores, and cores. -/
def State.drains (s t : State) : Prop := t = { s with mem := t.mem, poison := t.poison, views := t.views, cores := t.cores }

theorem State.drains.trans {s t u : State} (h : s.drains t) (g : t.drains u) : s.drains u := by
  unfold State.drains at *
  rw [h] at g
  exact g

theorem State.drainWc_drains (s : State) (core : Nat) : s.drains (s.drainWc core) := by
  unfold State.drains
  rw [s.drainWc_stores core]
  rfl

theorem State.drainWhere_drains (s : State) (inC : Nat → Bool) : s.drains (s.drainWhere inC) := by
  unfold State.drainWhere
  generalize s.cores = ks
  induction ks generalizing s with
  | nil => rfl
  | cons k ks ih =>
    refine State.drains.trans ?_ (ih _)
    dsimp only
    split
    · exact s.drainWc_drains k.core
    · rfl

/-- AN INVALIDATION OF A CONTEXT (R116, R366): no translation of it is left in the cores, quads and dies of the scope. -/
theorem State.invalidate_removes (s : State) (k : BitVec 16) (inC inQ inD : Nat → Bool) :
    (∀ v ∈ (s.invalidate k none inC inQ inD).cores, inC v.core = true → ∀ e ∈ v.tlb, e.ctx ≠ k) ∧
    (∀ q ∈ (s.invalidate k none inC inQ inD).quads, inQ q.quad = true → (∀ e ∈ q.tlb, e.ctx ≠ k) ∧ ∀ e ∈ q.walk, e.ctx ≠ k) ∧
    ∀ d ∈ (s.invalidate k none inC inQ inD).dies, inD d.die = true → ∀ e ∈ d.walk, e.ctx ≠ k := by
  have kept (e : TlbEntry) (h : tlbKeep k none e = true) : e.ctx ≠ k := fun same => by simp [tlbKeep, same] at h
  have walked (e : WalkEntry) (h : walkKeep k none e = true) : e.ctx ≠ k := fun same => by simp [walkKeep, same] at h
  refine ⟨fun v hv inside e he => ?_, fun q hq inside => ?_, fun d hd inside e he => ?_⟩
  · obtain ⟨w, -, rfl⟩ := List.mem_map.1 hv
    by_cases hw : inC w.core = true
    · simp only [hw, if_true] at he
      exact kept e (List.mem_filter.1 he).2
    · simp only [hw] at inside
      exact absurd inside hw
  · obtain ⟨w, -, rfl⟩ := List.mem_map.1 hq
    by_cases hw : inQ w.quad = true
    · simp only [hw, if_true]
      exact ⟨fun e he => kept e (List.mem_filter.1 he).2, fun e he => walked e (List.mem_filter.1 he).2⟩
    · simp only [hw] at inside
      exact absurd inside hw
  · obtain ⟨w, -, rfl⟩ := List.mem_map.1 hd
    by_cases hw : inD w.die = true
    · simp only [hw, if_true] at he
      exact kept e (List.mem_filter.1 he).2
    · simp only [hw] at inside
      exact absurd inside hw

/-- What is still to be performed of a context is not changed by an invalidation (R116). -/
theorem State.translated_invalidate (s : State) (k : BitVec 16) (inC inQ inD : Nat → Bool) :
    (s.invalidate k none inC inQ inD).translated k none inC = s.translated k none inC := by
  unfold State.invalidate
  rw [s.drainWhere_drains inC]
  rfl

/-- CCTL OF TRANSLATIONS, without a range, when none is still in use (R116, R366). -/
theorem exec_cctl_tlb (s : State) (c : Cohort) (f : Fields) (hc : s.me? = some c) (hr : c.role = .single) (hm : c.writeMask f ≠ 0) (sub : f.sub = 1)
    (whole : f.oa = .none) (unused : s.translated c.ctx none (coreInScope f.scp c.core) = false)
    (free : (s.cores.any fun k => coreInScope f.scp c.core k.core && s.wcTaken k.core) = false) :
    exec (.cctl f) s = .next ((s.invalidate c.ctx none (coreInScope f.scp c.core) (quadMeets f.scp c.core) (dieMeets f.scp c.core)).setCohort
      c.complete) := by
  have close (t : State) (k : Cohort → Out) : indigoClose t c k = k c := if_pos (.inl hr)
  have one : f.sub.toNat = 1 := by rw [sub]; rfl
  refine (withMe_some s c _ hc).trans ((if_neg hm).trans ?_)
  simp only [one, free, whole, close, s.translated_invalidate, unused, Bool.false_eq_true, if_false, ite_self]
  rfl

/-! ### PGREQ (R426) -/

theorem State.dropReqs_frame (s : State) (k : BitVec 16) (cid : Option Nat) (pages : List Nat) :
    pages.foldl (fun t p => t.dropReq k cid p) s =
      { s with pageReqs := (pages.foldl (fun t p => t.dropReq k cid p) s).pageReqs } := by
  induction pages generalizing s with
  | nil => rfl
  | cons p pages ih =>
    rw [List.foldl_cons, ih]
    rfl

theorem putPred_predWrite (c : Cohort) (m : Mask) (p : BitVec 3) (bits : Mask) (bit : Nat → Bool) (h : p ≠ 7 → p.toNat < c.preds.length)
    (hb : ∀ l, bits.getLsbD l = bit l) : predWrite c (c.putPred m p bits) m p bit := by
  by_cases seven : p = 7
  · subst seven
    exact ⟨rfl, fun _ => rfl, fun h => absurd rfl h, fun _ _ => rfl⟩
  · rw [← funext hb]
    exact putPred_writes c m p bits (h seven)

/-- PGREQ ON RESIDENT PAGES (R426). -/
theorem exec_pgreq (s : State) (c : Cohort) (x : Ctx) (f : Fields) (p : BitVec 3) (hc : s.me? = some c) (hx : s.ctx? c.ctx = some x)
    (hr : c.role = .single) (hm : c.writeMask f ≠ 0) (od : f.od = .p p)
    (good : ∀ l ∈ laneList (c.writeMask f), pgreqBad x (c.ea f f.oa f.ob l) = 0)
    (resident : ∀ va ∈ s.pgreqPages x (c.writeMask f) (c.ea f f.oa f.ob), s.pageFate c x va = .resident) :
    exec (.pgreq f) s = finish ((s.pgreqPages x (c.writeMask f) (c.ea f f.oa f.ob)).foldl (fun t p => t.dropReq c.ctx (some c.cid) p) s)
      (c.putPred (c.writeMask f) p (maskOf fun _ => false)) := by
  have notBad : ((laneList (c.writeMask f)).any fun l => pgreqBad x (c.ea f f.oa f.ob l) != 0) = false :=
    List.any_eq_false.2 fun l hl => by simp [good l hl]
  have fates : (s.pgreqPages x (c.writeMask f) (c.ea f f.oa f.ob)).map (fun p => (p, s.pageFate c x p)) =
      (s.pgreqPages x (c.writeMask f) (c.ea f f.oa f.ob)).map fun p => (p, .resident) :=
    List.map_congr_left fun va hva => by rw [resident va hva]
  have secondary : ¬c.role = .secondary := by rw [hr]; exact nofun
  refine (withMe_some s c _ hc).trans ((withCtx_some s c x _ hx).trans ((if_neg hm).trans ?_))
  dsimp only
  rw [notBad, if_neg Bool.false_ne_true, if_neg secondary, fates]
  generalize s.pgreqPages x (c.writeMask f) (c.ea f f.oa f.ob) = pages
  have noError (g : Nat × PageFate → Option Nat) (hg : ∀ p, g (p, .resident) = none) : (pages.map fun p => (p, PageFate.resident)).findSome? g = none :=
    List.findSome?_eq_none_iff.2 fun q hq => by
      obtain ⟨p, -, rfl⟩ := List.mem_map.1 hq
      exact hg p
  have all (q : Nat × PageFate → Bool) (hq : ∀ p, q (p, .resident) = false) : (pages.map fun p => (p, PageFate.resident)).any q = false :=
    List.any_eq_false.2 fun e he => by
      obtain ⟨p, -, rfl⟩ := List.mem_map.1 he
      simp [hq p]
  rw [noError _ fun _ => rfl]
  dsimp only
  rw [if_neg Bool.false_ne_true, all _ fun _ => rfl, if_neg Bool.false_ne_true]
  refine (outsideValue_of_single _ c _ _ hr).trans ?_
  have served (l : Nat) : ((c.writeMask f).getLsbD l && (pages.map fun p => (p, PageFate.resident)).any fun q =>
      q.1 == s.pageBase c.ctx (c.ea f f.oa f.ob l).toNat && q.2 == .refused) = false := by
    rw [all _ fun _ => Bool.and_false _, Bool.and_false]
  rw [funext served, od]
  rfl

/-- Settles O31: prefetches, the caches of a scope, translations, the combining buffer, and requested pages. -/
theorem memoryHints : Obligations.MemoryHints := by
  unfold Obligations.MemoryHints
  intro s c x f hc hx hr hm
  refine ⟨fun ps hps pass hk => exec_pref s c x f ps hc hx hr hm hps pass hk, fun sub => ?_, fun sub => ?_, fun sub whole unused free => ?_,
    fun ready free => ?_, fun p od held good resident => ?_⟩
  · have zero : f.sub.toNat = 0 := by rw [sub]; rfl
    refine (withMe_some s c _ hc).trans ((if_neg hm).trans ?_)
    rw [zero]
    rfl
  · have two : f.sub.toNat = 2 := by rw [sub]; rfl
    refine (withMe_some s c _ hc).trans ((if_neg hm).trans ?_)
    rw [two]
    rfl
  · exact ⟨_, exec_cctl_tlb s c f hc hr hm sub whole unused free, s.invalidate_removes c.ctx _ _ _⟩
  · exact ⟨_, exec_fence s c f hc hr hm ready free, rfl, s.release_empty c.core, fun empty => if_pos empty⟩
  · have frame := s.dropReqs_frame c.ctx (some c.cid) (s.pgreqPages x (c.writeMask f) (c.ea f f.oa f.ob))
    refine ⟨_, _, exec_pgreq s c x f p hc hx hr hm od good resident, by rw [frame], frame,
      putPred_predWrite c _ p _ _ held fun l => ?_⟩
    by_cases hl : l < 64
    · exact maskOf_bit (fun _ => false) l hl
    · exact BitVec.getLsbD_of_ge _ l (by omega)

end Sys2Proof.Machine
end

section
/-!
TWIN, TMARK, GATE and LREL (O38): descriptors of tile windows, full lines, and the order of launches.
-/

namespace Sys2Proof.Machine

set_option Elab.async false

/-! ### Full lines of a core (R109) -/

theorem mem_upsertBy_id (n : Nat) (ys : List Nat) (m : Nat) : m ∈ upsertBy id n ys ↔ m = n ∨ m ∈ ys := by
  induction ys with
  | nil => simp [upsertBy]
  | cons y ys ih =>
    unfold upsertBy
    split
    · next same =>
      obtain rfl : y = n := same
      simp
    · split
      · simp
      · rw [List.mem_cons, ih, List.mem_cons]
        exact or_left_comm

theorem CoreState.mem_setFull (k : CoreState) (lines : List Nat) (n : Nat) : n ∈ (k.setFull lines).full ↔ n ∈ lines ∨ n ∈ k.full := by
  unfold CoreState.setFull
  dsimp only
  generalize k.full = acc
  induction lines generalizing acc with
  | nil => simp
  | cons m lines ih => rw [List.foldl_cons, ih, mem_upsertBy_id, List.mem_cons, or_left_comm, or_assoc]

theorem CoreState.mem_setEmpty (k : CoreState) (lines : List Nat) (n : Nat) : n ∈ (k.setEmpty lines).full ↔ n ∉ lines ∧ n ∈ k.full := by
  simp [CoreState.setEmpty, and_comm]

theorem mem_lines (lo k n : Nat) : n ∈ (List.range k).map (lo + ·) ↔ lo ≤ n ∧ n < lo + k := by
  simp only [List.mem_map, List.mem_range]
  constructor
  · rintro ⟨i, hi, rfl⟩
    omega
  · exact fun h => ⟨n - lo, by omega, by omega⟩

/-! ### TMARK (R448) -/

/-- A core's lines after TMARK of some lines. -/
def CoreState.marked (k : CoreState) (f : Fields) (lines : List Nat) : CoreState := if f.sub = 0 then k.setFull lines else k.setEmpty lines

theorem CoreState.mem_marked (k : CoreState) (f : Fields) (lo count n : Nat) : n ∈ (k.marked f ((List.range count).map (lo + ·))).full ↔
    if lo ≤ n ∧ n < lo + count then f.sub = 0 else n ∈ k.full := by
  unfold CoreState.marked
  by_cases zero : f.sub = 0
  · rw [if_pos zero, k.mem_setFull, mem_lines]
    split
    · next inside => simp [inside, zero]
    · next outside => simp [outside]
  · rw [if_neg zero, k.mem_setEmpty, mem_lines]
    split
    · next inside => simpa [inside] using zero
    · next outside => simp [outside]

/-- TMARK OF LINES OF ITS WINDOW that no job keeps (R448). -/
theorem exec_tmark (s : State) (c : Cohort) (f : Fields) (d : Word) (first k : Nat) (hc : s.me? = some c) (hr : c.role = .single)
    (can : s.canRelease c) (hm : c.writeMask f ≠ 0) (hfirst : first = (s.opnd c f f.ob (elect (c.writeMask f))).toNat)
    (hk : k = (s.opnd c f f.oc (elect (c.writeMask f))).toNat) (some_ : 0 < k) (window : c.tileOf f.oa = some d) (fits : first + k ≤ descLines d)
    (free : ∀ n, (s.regionOf c).1 + descBase d + first ≤ n → n < (s.regionOf c).1 + descBase d + first + k → s.boardBlocks c.core n false = false) :
    exec (.tmark f) s = finish
      (s.setCore ((s.core c.core).marked f ((List.range k).map ((s.regionOf c).1 + descBase d + first + ·)))) c := by
  have count : (s.atElected c f f.oc (c.writeMask f)).toNat = k := hk.symm
  have start : (s.atElected c f f.ob (c.writeMask f)).toNat = first := hfirst.symm
  have clear : (((List.range k).map ((s.regionOf c).1 + descBase d + first + ·)).any fun n => s.boardBlocks c.core n false) = false :=
    List.any_eq_false.2 fun n hn => by simp [free n ((mem_lines _ _ _).1 hn).1 ((mem_lines _ _ _).1 hn).2]
  refine (withMe_some s c _ hc).trans ((if_neg hm).trans ?_)
  simp only [count, start, Nat.ne_of_gt some_, window, Nat.not_lt.2 fits, clear, Bool.false_eq_true, if_false]
  unfold CoreState.marked
  split
  · exact releasing_of_canRelease s c _ hr can
  · rfl

/-- Settles O38: descriptors inside and outside the region, marked lines, the gate of a launch, and its release. -/
theorem tilesAndLaunchOrder : Obligations.TilesAndLaunchOrder := by
  unfold Obligations.TilesAndLaunchOrder
  intro s c f hc hr can
  have gate (k : Bool) (hk : (s.launchOf c).all s.gateOpen = k) : exec (.gate f) s = if k = true then finish s c else waitHere s c := by
    refine (withMe_some s c _ hc).trans ?_
    rw [← hk]
    cases s.launchOf c <;> rfl
  refine ⟨fun d hm hd => ⟨fun inside => ?_, fun outside => ?_⟩, fun d first k hm hfirst hk some_ window fits free => ?_, ⟨?_, ?_⟩, ?_⟩
  · refine (withMe_some s c _ hc).trans ((if_neg hm).trans ?_)
    rw [hd] at inside
    exact (if_neg (Nat.not_lt.2 inside)).trans (by rw [hd]; rfl)
  · refine (withMe_some s c _ hc).trans ((if_neg hm).trans ?_)
    rw [hd] at outside
    exact if_pos outside
  · refine ⟨_, exec_tmark s c f d first k hc hr can hm hfirst hk some_ window fits free, rfl, fun n => ?_⟩
    have kept : ((s.core c.core).marked f ((List.range k).map ((s.regionOf c).1 + descBase d + first + ·))).core = c.core := by
      unfold CoreState.marked
      split <;> exact s.core_core c.core
    rw [State.core_setCore_eq, if_pos kept.symm]
    exact CoreState.mem_marked _ f _ k n
  · exact gate true
  · exact gate false
  · exact (withMe_some s c _ hc).trans (releasing_of_canRelease s c _ hr can)

end Sys2Proof.Machine
end

section
/-!
Units and the ways of L2 (part of O60): fences by replays, Ochre tests, and a way that is disabled.
-/

namespace Sys2Proof.Machine

set_option Elab.async false

/-! ### A unit's record (R292, R294) -/

theorem State.unitRec_unit (s : State) (k : BitVec 16) : (s.unitRec k).unit = k := by
  unfold State.unitRec
  cases found : s.units.find? fun x => x.unit == k with
  | none => rfl
  | some r =>
    have same := List.find?_some found
    exact beq_iff_eq.1 same

/-- A unit's record is replaced, and no other. -/
theorem State.setUnit_reads (s : State) (k : BitVec 16) (r : UnitRec) (h : r.unit = k) :
    s.setUnit r = { s with units := (s.setUnit r).units } ∧ (s.setUnit r).unitRec k = r ∧ ∀ v, v ≠ k → (s.setUnit r).unitRec v = s.unitRec v := by
  subst h
  exact ⟨rfl, s.unitRec_setUnit r, fun v hv => s.unitRec_setUnit_other r v hv⟩

/-- Only a firmware core can be the last of its die (R224). -/
theorem State.checkFirmware_of_kind (s : State) (k : BitVec 16) (h : k.toNat / 8192 ≠ 6) : s.checkFirmware k = s :=
  if_neg fun last => h last.1

theorem max_one (n : Nat) : max 1 n = if n = 0 then 1 else n := by
  split <;> omega

/-! ### Fences by replays (R294) -/

theorem replaysOften_iff (r : UnitRec) : r.replaysOften = true ↔
    ∃ a rest b, r.recent = a :: rest ∧ rest.length = 15 ∧ rest.getLast? = some b ∧ a < b + 2 ^ 24 := by
  unfold UnitRec.replaysOften
  cases r.recent with
  | nil => exact ⟨nofun, fun ⟨_, _, _, h, _⟩ => nomatch h⟩
  | cons a rest =>
    dsimp only
    rw [Bool.and_eq_true, beq_iff_eq, Option.any_eq_true]
    constructor
    · rintro ⟨length, b, last, near⟩
      exact ⟨a, rest, b, rfl, length, last, of_decide_eq_true near⟩
    · rintro ⟨a', rest', b, same, length, last, near⟩
      obtain ⟨rfl, rfl⟩ := List.cons.inj same
      exact ⟨length, b, last, decide_eq_true near⟩

/-- A UNIT THAT REPLAYS OFTEN is fenced, and its test is scheduled (R294). -/
theorem exec_replayRateFence (s : State) (k : BitVec 16) (kind : k.toNat / 8192 ≠ 6) (real : unitExists k.toNat = true)
    (often : (s.unitRec k).replaysOften = true) : exec (.replayRateFence k) s = .next (s.setUnit
      { s.unitRec k with recent := [], state := if (s.unitRec k).state = 0 then 1 else (s.unitRec k).state, scheduled := true, passRow := 0 }) := by
  have acts : ¬(unitExists k.toNat = false ∨ (s.unitRec k).replaysOften = false) := by simp [real, often]
  refine (if_neg acts).trans ?_
  rw [State.checkFirmware_of_kind _ k kind, max_one]

theorem exec_replayRateFence_idle (s : State) (k : BitVec 16) (h : unitExists k.toNat = false ∨ (s.unitRec k).replaysOften = false) :
    exec (.replayRateFence k) s = .next s := if_pos h

theorem replaysOften_eq_false (r : UnitRec)
    (h : r.recent.length ≠ 16 ∨ ∃ a rest b, r.recent = a :: rest ∧ rest.getLast? = some b ∧ b + 2 ^ 24 ≤ a) : r.replaysOften = false := by
  rw [Bool.eq_false_iff]
  intro often
  obtain ⟨a, rest, b, recent, length, last, near⟩ := (replaysOften_iff r).1 often
  rw [recent] at h
  rcases h with short | ⟨a', rest', b', same, last', far⟩
  · exact short (by rw [List.length_cons, length])
  · obtain ⟨rfl, rfl⟩ := List.cons.inj same
    rw [last] at last'
    obtain rfl := Option.some.inj last'
    omega

/-! ### Ochre tests (R298) -/

/-- A TEST BEGINS on a unit that has been idle, where one is due (R298). -/
theorem exec_ochreTest (s : State) (k : BitVec 16) (can : testable k = true) (open_ : (s.unitRec k).state ≠ 2) (free : (s.unitRec k).testing = none)
    (idle : s.longIdle k = true)
    (due : (s.unitRec k).scheduled = true ∨ (s.unitRec k).last = 0 ∨ (s.unitRec k).lastC + 2 ^ 30 ≤ s.cycle (unitDie k)) :
    exec (.ochreTest k) s = .next (s.setUnit { s.unitRec k with testing := some (s.cycle (unitDie k)), scheduled := false }) := by
  refine if_neg ?_
  rintro (h | h | h | h | ⟨h, h', h''⟩)
  · simp [can] at h
  · exact open_ h
  · simp [free] at h
  · simp [idle] at h
  · rcases due with d | d | d
    · simp [h] at d
    · exact h' d
    · omega

/-- The record of a unit whose test ends (R298). -/
def State.testEnded (s : State) (k : BitVec 16) (pass arrived : Bool) : UnitRec :=
  if arrived || !s.unitIdle k then { s.unitRec k with testing := none, lastC := s.cycle (unitDie k), last := 3 }
  else (s.unitRec k).tested (s.cycle (unitDie k)) pass false

theorem exec_ochreTestComplete (s : State) (k : BitVec 16) (kind : k.toNat / 8192 ≠ 6) (pass arrived : Bool)
    (runs : (s.unitRec k).testing.isSome = true) : exec (.ochreTestComplete k pass arrived) s = .next (s.setUnit (s.testEnded k pass arrived)) := by
  have tests : ¬(s.unitRec k).testing.isNone = true := by
    rw [Option.isSome_iff_exists] at runs
    obtain ⟨n, testing⟩ := runs
    simp [testing]
  refine (if_neg tests).trans ?_
  unfold State.testEnded
  split
  · rfl
  · rw [State.checkFirmware_of_kind _ k kind]

/-- WHAT A TEST LEAVES IN THE REPORT (R298, R299): abandoned, passed, or failed, and a fourth failure in a row bars the unit. -/
theorem State.testEnded_report (s : State) (k : BitVec 16) (pass arrived : Bool) :
    (s.testEnded k pass arrived).unit = k ∧ (s.testEnded k pass arrived).testing = none ∧ (s.testEnded k pass arrived).lastC = s.cycle (unitDie k) ∧
    ((arrived = true ∨ s.unitIdle k = false) → (s.testEnded k pass arrived).last = 3 ∧ (s.testEnded k pass arrived).state = (s.unitRec k).state) ∧
    (arrived = false → s.unitIdle k = true → pass = true → (s.testEnded k pass arrived).last = 1 ∧
      (s.testEnded k pass arrived).state = (s.unitRec k).state ∧ (s.testEnded k pass arrived).passRow = (s.unitRec k).passRow + 1) ∧
    (arrived = false → s.unitIdle k = true → pass = false → (s.testEnded k pass arrived).last = 2 ∧ (s.testEnded k pass arrived).passRow = 0 ∧
      (s.testEnded k pass arrived).state = if 4 ≤ (s.unitRec k).failRow + 1 then 2 else max 1 (s.unitRec k).state) := by
  have name := s.unitRec_unit k
  unfold State.testEnded
  split
  · next busy =>
    rw [Bool.or_eq_true, Bool.not_eq_true'] at busy
    refine ⟨name, rfl, rfl, fun _ => ⟨rfl, rfl⟩, fun h h' => ?_, fun h h' => ?_⟩
    all_goals simp [h, h'] at busy
  · next idle =>
    rw [Bool.or_eq_true, Bool.not_eq_true'] at idle
    unfold UnitRec.tested
    cases pass with
    | true => exact ⟨name, rfl, rfl, fun h => absurd h idle, fun _ _ _ => ⟨rfl, rfl, rfl⟩, fun _ _ => nofun⟩
    | false => exact ⟨name, rfl, rfl, fun h => absurd h idle, fun _ _ => nofun, fun _ _ _ => ⟨rfl, rfl, by simp⟩⟩

/-! ### The ways of L2 (R301) -/

theorem State.l2Set_name (s : State) (die slice set : Nat) :
    (s.l2Set die slice set).die = die ∧ (s.l2Set die slice set).slice = slice ∧ (s.l2Set die slice set).set = set := by
  unfold State.l2Set
  cases found : s.l2sets.find? fun x => x.die == die && x.slice == slice && x.set == set with
  | none => exact ⟨rfl, rfl, rfl⟩
  | some x => simpa [and_assoc] using List.find?_some found

theorem State.l2Set_setL2Set (s : State) (x : L2Set) : (s.setL2Set x).l2Set x.die x.slice x.set = x := by
  simp [State.l2Set, State.setL2Set]

theorem State.l2Set_setL2Set_other (s : State) (x : L2Set) (d l n : Nat) (h : d ≠ x.die ∨ l ≠ x.slice ∨ n ≠ x.set) :
    (s.setL2Set x).l2Set d l n = s.l2Set d l n := by
  unfold State.l2Set State.setL2Set
  dsimp only
  have miss : (x.die == d && x.slice == l && x.set == n) = false := by
    rw [Bool.eq_false_iff]
    intro same
    simp only [Bool.and_eq_true, beq_iff_eq] at same
    omega
  rw [List.find?_cons, miss]
  dsimp only
  rw [List.find?_filter]
  congr 2
  funext y
  rw [Bool.eq_iff_iff]
  simp only [decide_eq_true_eq, Bool.and_eq_true, Bool.not_eq_true', beq_iff_eq]
  refine and_iff_right_of_imp fun same => ?_
  rw [Bool.eq_false_iff]
  intro kept
  simp only [Bool.and_eq_true, beq_iff_eq] at kept
  omega

/-- A WAY THAT IS DISABLED leaves the lines that the others hold (R301). -/
theorem exec_wayDisable (s : State) (die slice set way : Nat) (y : L2Set)
    (hy : y = { s.l2Set die slice set with disabled := (s.l2Set die slice set).disabled ||| BitVec.twoPow 16 way,
                                            counts := (s.l2Set die slice set).counts.set way 4 })
    (two : 2 ≤ ((List.range 16).filter fun w => !y.disabled.getLsbD w).length) :
    exec (.wayDisable die slice set way) s = .next ((s.setL2Set y).trimL2 (die, slice, set)) := by
  subst hy
  exact congrArg Host.Outcome.next (if_neg (Nat.not_lt.2 two))

theorem State.trimL2_frame (s : State) (home : Nat × Nat × Nat) :
    s.trimL2 home = { s with l2 := (s.trimL2 home).l2 } ∧ ∀ z ∈ (s.trimL2 home).l2, z ∈ s.l2 :=
  ⟨rfl, fun _ hz => (List.mem_filter.1 hz).1⟩

end Sys2Proof.Machine
end

section
/-!
The firmware of a die (part of O60): an error of one of its cores, the events that it dispatches, and a reset of its front end.
-/

namespace Sys2Proof.Machine

set_option Elab.async false

/-! ### An error of a firmware core (R224) -/

/-- The number of a firmware core of a die (R292). -/
def fwUnit (die core : Nat) : BitVec 16 := BitVec.ofNat 16 (6 * 8192 + 12 * die + core)

theorem fwUnit_toNat (die core : Nat) (hd : die < 16) (hc : core < 12) : (fwUnit die core).toNat = 6 * 8192 + 12 * die + core := by
  rw [fwUnit, BitVec.toNat_ofNat, Nat.mod_eq_of_lt (by omega)]

theorem unitDie_fwUnit (die core : Nat) (hd : die < 16) (hc : core < 12) : unitDie (fwUnit die core) = die := by
  have kind : (6 * 8192 + 12 * die + core) / 8192 = 6 := by omega
  unfold unitDie
  rw [fwUnit_toNat die core hd hc]
  simp only [kind]
  omega

/-- A die with another firmware core in service does not fail (R224). -/
theorem State.checkFirmware_of_service (s : State) (die core k : Nat) (hd : die < 16) (hc : core < 12) (hk : k < 12)
    (serves : s.fwInService die k = true) : s.checkFirmware (fwUnit die core) = s := by
  refine if_neg fun last => ?_
  rw [unitDie_fwUnit die core hd hc] at last
  exact absurd serves (List.any_eq_false.1 last.2 k (List.mem_range.2 hk))

/-- A die after an error of one of its firmware cores: its event is at the head of the queue again (R224). -/
def State.coreLost (s : State) (die core : Nat) : State :=
  s.setDie { s.die die with
    events := ((s.die die).fw.filter fun c => c.core == core).map (·.running) ++ (s.die die).events,
    fw := (s.die die).fw.filter fun c => c.core != core }

theorem State.fwInService_setUnit (s : State) (die core k : Nat) (r : UnitRec) (hd : die < 16) (hc : core < 12) (hk : k < 12) (other : k ≠ core)
    (name : r.unit = fwUnit die core) : (s.setUnit r).fwInService die k = s.fwInService die k := by
  have apart : fwUnit die k ≠ r.unit := by
    rw [name]
    intro same
    have := congrArg BitVec.toNat same
    rw [fwUnit_toNat die k hd hk, fwUnit_toNat die core hd hc] at this
    omega
  unfold State.fwInService
  exact congrArg (fun u : UnitRec => u.state == 0) (s.unitRec_setUnit_other r _ apart)

theorem UnitRec.tested_unit (r : UnitRec) (now : Nat) (pass reload : Bool) : (r.tested now pass reload).unit = r.unit := by
  unfold UnitRec.tested
  split <;> rfl

/-- AN ERROR OF A FIRMWARE CORE of a die that has another in service (R224, R298). -/
theorem exec_firmwareCoreError (s : State) (die core k : Nat) (pass : Bool) (hd : die < 16) (hc : core < 12) (hk : k < 12) (other : k ≠ core)
    (serves : s.fwInService die k = true) : exec (.firmwareCoreError die core pass) s = .next ((s.coreLost die core).setUnit
      (((s.coreLost die core).unitRec (fwUnit die core)).tested (s.cycle die) pass true)) := by
  have name : (((s.coreLost die core).unitRec (fwUnit die core)).tested (s.cycle die) pass true).unit = fwUnit die core :=
    (UnitRec.tested_unit _ _ _ _).trans (State.unitRec_unit _ _)
  refine congrArg Host.Outcome.next (State.checkFirmware_of_service _ die core k hd hc hk ?_)
  exact (State.fwInService_setUnit (s.coreLost die core) die core k _ hd hc hk other name).trans serves

/-- What the error leaves: the die's queue, and whether the core is in service. -/
theorem State.coreError_leaves (s : State) (die core : Nat) (pass : Bool) (t : State)
    (ht : t = (s.coreLost die core).setUnit (((s.coreLost die core).unitRec (fwUnit die core)).tested (s.cycle die) pass true)) :
    t = { s with dies := t.dies, units := t.units } ∧
    t.die die = { s.die die with
      events := ((s.die die).fw.filter fun c => c.core == core).map (·.running) ++ (s.die die).events,
      fw := (s.die die).fw.filter fun c => c.core != core } ∧
    (pass = false → t.fwInService die core = false) ∧ (pass = true → t.fwInService die core = s.fwInService die core) := by
  have die_ (d : DieState) (h : d.die = die) : (s.setDie d).die die = d := by
    subst h
    exact s.die_setDie d
  have unit (r : UnitRec) (h : r.unit = fwUnit die core) : ((s.coreLost die core).setUnit r).unitRec (fwUnit die core) = r := by
    rw [← h]
    exact State.unitRec_setUnit _ r
  have name := State.unitRec_unit (s.coreLost die core) (fwUnit die core)
  subst ht
  refine ⟨rfl, die_ _ (s.die_die die), fun failed => ?_, fun passed => ?_⟩
  · subst failed
    exact congrArg (fun u : UnitRec => u.state == 0) (unit _ ((UnitRec.tested_unit _ _ _ _).trans name))
  · subst passed
    exact (congrArg (fun u : UnitRec => u.state == 0) (unit _ ((UnitRec.tested_unit _ _ _ _).trans name))).trans rfl

/-! ### The events that a die dispatches (R221) -/

/-- A die's event queue once its sources have posted what they have (R221). -/
def State.posted (s : State) (die : Nat) : State := (s.dueFirmware die).foldl (fun t e => t.postEvent die e) s

/-- What an event that is dispatched does at once, `t` being the state before it (R214, R221, R294). -/
def State.dispatched (t q : State) (die : Nat) (e : FwEvent) : Out :=
  match e with
  | .joinZero _ id va =>
    match q.launch? id with
    | some l =>
      match q.startSuccessor l va.toNat with
      | .ok u => .next (u.fwCommit 0 (· == e))
      | .error u => .next (((t.stoppedBy u).getD t).fwRequeue 0 (· == e))
    | none => .next (q.fwCommit 0 (· == e))
  | .errorReport _ => .next (q.fwCommit die (· == e))
  | _ => .next q

/-- The state with an event at a core. -/
def State.fwStart (t : State) (die : Nat) (e : FwEvent) (n : Nat) : State :=
  t.setDie { t.die die with events := (t.die die).events.erase e, fw := (t.die die).fw ++ [{ core := n, running := e }] }

theorem exec_firmwareEvent_eq (s : State) (die : Nat) : exec (.firmwareEvent die) s =
    match ((s.posted die).die die).dispatchable, (s.posted die).fwIdle die with
    | some e, some n => (s.posted die).dispatched ((s.posted die).fwStart die e n) die e
    | _, _ => .next (s.posted die) := rfl

theorem exec_firmwareEvent_idle (s : State) (die : Nat) (h : ((s.posted die).die die).dispatchable = none ∨ (s.posted die).fwIdle die = none) :
    exec (.firmwareEvent die) s = .next (s.posted die) := by
  rw [exec_firmwareEvent_eq]
  split
  · next dispatch idle =>
    rcases h with h | h
    · exact nomatch dispatch.symm.trans h
    · exact nomatch idle.symm.trans h
  · rfl

/-- The oldest event that can be dispatched starts at the idle core (R221). -/
theorem exec_firmwareEvent_dispatch (s : State) (die : Nat) (e : FwEvent) (n : Nat) (dispatch : ((s.posted die).die die).dispatchable = some e)
    (idle : (s.posted die).fwIdle die = some n) :
    exec (.firmwareEvent die) s = (s.posted die).dispatched ((s.posted die).fwStart die e n) die e := by
  rw [exec_firmwareEvent_eq, dispatch, idle]

theorem State.dispatched_later (t q : State) (die : Nat) (e : FwEvent) (join : ∀ k l va, e ≠ .joinZero k l va) (report : ∀ u, e ≠ .errorReport u) :
    t.dispatched q die e = .next q := by
  unfold State.dispatched
  split
  · next k l va => exact absurd rfl (join k l va)
  · next u => exact absurd rfl (report u)
  · rfl

theorem State.dispatched_joinZero (t q u : State) (die k id : Nat) (va : DWord) (l : Launch) (found : q.launch? id = some l)
    (starts : q.startSuccessor l va.toNat = .ok u) : t.dispatched q die (.joinZero k id va) = .next (u.fwCommit 0 (· == .joinZero k id va)) := by
  unfold State.dispatched
  dsimp only
  rw [found]
  dsimp only
  rw [starts]

/-! ### A reset of the front end (R222 to R224) -/

theorem State.applyEffects_keep (es : List FwEffect) (s : State) :
    (es.foldl State.applyEffect s).upsets = s.upsets ∧ (es.foldl State.applyEffect s).dies = s.dies := by
  have one (t : State) (e : FwEffect) : (t.applyEffect e).upsets = t.upsets ∧ (t.applyEffect e).dies = t.dies := by
    unfold State.applyEffect
    split
    · exact ⟨rfl, rfl⟩
    · exact ⟨rfl, rfl⟩
    · exact ⟨rfl, rfl⟩
    · unfold State.setMail
      split <;> exact ⟨rfl, rfl⟩
  induction es generalizing s with
  | nil => exact ⟨rfl, rfl⟩
  | cons e es ih => exact ⟨(ih _).1.trans (one s e).1, (ih _).2.trans (one s e).2⟩

/-- A queue's entry with sound copies is read as it stands (R302). -/
theorem State.readEntry_of_sound (s : State) (p : PacketEntry) (h : s.upsets = []) : s.readEntry p = (some s, .ok s) := by
  unfold State.readEntry
  rw [h]
  simp only [List.contains_nil, Bool.and_self, Bool.false_eq_true, if_false, List.filter_nil]
  congr 2
  rw [← h]

/-- A commit of no event with an empty buffer changes nothing (R222). -/
theorem State.fwCommit_noEvent (s : State) (die : Nat) (h : (s.die die).buffer = []) : s.fwCommit die noEvent = s := by
  refine if_pos ⟨h, ?_, ?_⟩
  · simp [noEvent]
  · simp [noEvent]

/-- A die of which what was not committed is gone (R222). -/
def State.frontLost (s : State) (die : Nat) : State :=
  s.setDie { s.die die with events := (s.die die).fw.map (·.running) ++ (s.die die).events, fw := [], buffer := [] }

/-- The journal is applied again, unless both copies of its record are lost (R222, R302). -/
def State.reapplied (s : State) (die : Nat) : State :=
  if s.upsets.contains (.journalCopy die 0) && s.upsets.contains (.journalCopy die 1) then s.frontLost die
  else (s.die die).journal.foldl State.applyEffect (s.frontLost die)

/-- The entries of the queue tables are read from their copies (R302). -/
def State.reread (s : State) : State :=
  (s.packets.filter fun p => !p.done).foldl (fun t p =>
    match t.readEntry p with
    | (some u, _) => u
    | (none, r) => orBefore t r) s

theorem State.reread_of_sound (s : State) (h : s.upsets = []) : s.reread = s := by
  unfold State.reread
  generalize s.packets.filter (fun p => !p.done) = ps
  induction ps with
  | nil => rfl
  | cons p ps ih =>
    rw [List.foldl_cons, s.readEntry_of_sound p h]
    exact ih

theorem exec_frontEndReset_eq (s : State) (die : Nat) : exec (.frontEndReset die) s =
    if die ≠ 0 then .next (s.reapplied die) else .next ((s.reapplied die).reread.fwCommit 0 noEvent) := rfl

/-- A RESET OF A FRONT END (R222 to R224), with sound copies where it is die 0's. -/
theorem exec_frontEndReset (s : State) (die : Nat) (h : die ≠ 0 ∨ s.upsets = []) :
    exec (.frontEndReset die) s = .next (s.reapplied die) := by
  rw [exec_frontEndReset_eq]
  split
  · rfl
  · next zero =>
    obtain rfl : die = 0 := not_not.1 zero
    have sound := h.resolve_left zero
    obtain ⟨upsets, dies⟩ := State.applyEffects_keep (s.die 0).journal (s.frontLost 0)
    have whole : s.reapplied 0 = (s.die 0).journal.foldl State.applyEffect (s.frontLost 0) := by
      unfold State.reapplied
      rw [sound]
      rfl
    have lost : (s.frontLost 0).die (s.die 0).die = { s.die 0 with events := (s.die 0).fw.map (·.running) ++ (s.die 0).events, fw := [], buffer := [] } :=
      State.die_setDie s { s.die 0 with events := (s.die 0).fw.map (·.running) ++ (s.die 0).events, fw := [], buffer := [] }
    rw [s.die_die] at lost
    have empty : ((s.reapplied 0).die 0).buffer = [] := by
      rw [whole, State.die, dies]
      exact congrArg DieState.buffer lost
    rw [State.reread_of_sound _ (by rw [whole, upsets]; exact sound), State.fwCommit_noEvent _ 0 empty]

end Sys2Proof.Machine
end

section
/-!
Temperature and telemetry (part of O60): a throttled die, the shutdown of a hot package, and its reports.
-/

namespace Sys2Proof.Machine

set_option Elab.async false

/-! ### A context that is stopped for good (R226, R312) -/

/-- What a stop of a context leaves: the other contexts, and every part but cohorts, saved workgroups and contexts. -/
structure State.restops (k : BitVec 16) (s t : State) : Prop where
  frame : t = { s with cohorts := t.cohorts, saved := t.saved, ctxs := t.ctxs }
  names : t.ctxs.map (·.ctxid) = s.ctxs.map (·.ctxid)
  others : ∀ x ∈ t.ctxs, x.ctxid ≠ k → x ∈ s.ctxs
  lookup : ∀ j, j ≠ k → t.ctx? j = s.ctx? j

theorem State.restops.of_ctxs {k : BitVec 16} {s t : State} (frame : t = { s with cohorts := t.cohorts, saved := t.saved, ctxs := t.ctxs })
    (h : t.ctxs = s.ctxs) : State.restops k s t :=
  ⟨frame, by rw [h], fun x hx _ => h ▸ hx, fun j _ => by rw [State.ctx?, h]; rfl⟩

theorem State.restops.trans {k : BitVec 16} {s t u : State} (h : State.restops k s t) (g : State.restops k t u) : State.restops k s u := by
  refine ⟨?_, g.names.trans h.names, fun x hx other => h.others x (g.others x hx other) other, fun j hj => (g.lookup j hj).trans (h.lookup j hj)⟩
  have frame := g.frame
  rw [h.frame] at frame
  exact frame

theorem State.setCtx_restops (s : State) (x : Ctx) : State.restops x.ctxid s (s.setCtx x) := by
  refine ⟨rfl, ?_, fun y hy other => ?_, fun j hj => s.ctx_setCtx_other x j hj⟩
  · refine List.map_map.trans (List.map_congr_left fun y _ => ?_)
    dsimp only [Function.comp]
    split
    · next same => exact same.symm
    · rfl
  · obtain ⟨z, hz, rfl⟩ := List.mem_map.1 hy
    by_cases same : z.ctxid = x.ctxid
    · exact absurd (congrArg Ctx.ctxid (if_pos same)) other
    · rw [if_neg same]
      exact hz

theorem State.ctxs_setCtx (s : State) (x y : Ctx) (hy : y ∈ (s.setCtx x).ctxs) (same : y.ctxid = x.ctxid) : y = x := by
  obtain ⟨z, -, rfl⟩ := List.mem_map.1 hy
  by_cases h : z.ctxid = x.ctxid
  · exact if_pos h
  · have kept : (if z.ctxid = x.ctxid then x else z) = z := if_neg h
    exact absurd (kept ▸ same) h

/-- A context's record is replaced by another of its name. -/
theorem State.setCtx_stops (s : State) (k : BitVec 16) (x z : Ctx) (hx : s.ctx? k = some x) (name : z.ctxid = k) :
    State.restops k s (s.setCtx z) ∧ (s.setCtx z).ctx? k = some z := by
  subst name
  exact ⟨s.setCtx_restops z, s.ctx_setCtx z (by rw [hx]; rfl)⟩

/-- THE HALT LINE (R226): the context is halted, and its stop area is not written by it. -/
theorem State.halt_restops (s : State) (g : BitVec 5) (core : BitVec 16) (pc : Word) (x : Ctx) (hx : s.ctx? x.ctxid = some x) :
    State.restops x.ctxid s (s.halt x.ctxid g core pc) ∧
    ∃ z, (s.halt x.ctxid g core pc).ctx? x.ctxid = some z ∧ z.halt = true ∧ (x.stopWritten = false → z.stopWritten = false) := by
  have lost : State.restops x.ctxid s (s.losePreempts x.ctxid) := .of_ctxs rfl rfl
  have hx' : (s.losePreempts x.ctxid).ctx? x.ctxid = some x := hx
  unfold State.halt
  dsimp only
  rw [hx']
  dsimp only
  split
  · next halted =>
    split
    · obtain ⟨stops, found⟩ := State.setCtx_stops (s.losePreempts x.ctxid) x.ctxid x { x with inHandler := false, double := true, stopWritten := false } hx' rfl
      exact ⟨lost.trans stops, _, found, halted, fun _ => rfl⟩
    · split
      · obtain ⟨stops, found⟩ := State.setCtx_stops (s.losePreempts x.ctxid) x.ctxid x { x with firstCause := g, firstCore := core, firstPc := pc } hx' rfl
        exact ⟨lost.trans stops, _, found, halted, id⟩
      · exact ⟨lost, x, hx', halted, id⟩
  · obtain ⟨stops, found⟩ := State.setCtx_stops (s.losePreempts x.ctxid) x.ctxid x
      { x with halt := true, haltAt := s.cycles, enginesStopped := false, stopWritten := false, inHandler := false, double := false,
               stopNum := x.stopNum + 1, firstCause := g, firstCore := core, firstPc := pc } hx' rfl
    exact ⟨lost.trans stops, _, found, rfl, fun _ => rfl⟩

/-- The cohorts of a context meet a stop, or note it where the context has halted before (R226, R234). -/
def State.toldStop (s : State) (k : BitVec 16) (late : Bool) (e : PendEvent) : State :=
  { s with
    cohorts := s.cohorts.map fun c => if c.ctx == k && none != some c.cid then (if late then c.pending e else c.meet e) else c
    saved := s.saved.map fun v => { v with cohorts := v.cohorts.map fun c => if c.ctx == k && none != some c.cid then c.pending e else c } }

/-- The state after the halt line of a stop, before it is made final. -/
def State.stopLine (s : State) (x : Ctx) (group : Nat) (detail : BitVec 96) : State :=
  let late := x.halt && !x.haltsNow s.cycles
  let told := s.toldStop x.ctxid late { group := group, detail := detail, pc := none, recs := [], job := false }
  if late then told else told.halt x.ctxid (BitVec.ofNat 5 group) 0xFFFF 0

theorem State.stopContext_eq (s : State) (group : Nat) (detail : BitVec 96) (x y : Ctx) (hx : s.ctx? x.ctxid = some x)
    (hy : (s.stopLine x group detail).ctx? x.ctxid = some y) :
    s.stopContext x.ctxid group detail true = (s.stopLine x group detail).setCtx { y with noResume := true } := by
  unfold State.stopContext
  rw [hx]
  exact congrArg (fun o : Option Ctx => match o with
    | some z => (s.stopLine x group detail).setCtx { z with noResume := true }
    | none => s.stopLine x group detail) hy

theorem State.stopLine_restops (s : State) (group : Nat) (detail : BitVec 96) (x : Ctx) (hx : s.ctx? x.ctxid = some x) :
    State.restops x.ctxid s (s.stopLine x group detail) ∧
    ∃ y, (s.stopLine x group detail).ctx? x.ctxid = some y ∧ y.halt = true ∧ (x.stopWritten = false → y.stopWritten = false) := by
  have told (late : Bool) (e : PendEvent) : State.restops x.ctxid s (s.toldStop x.ctxid late e) := .of_ctxs rfl rfl
  unfold State.stopLine
  dsimp only
  split
  · next late => exact ⟨told _ _, x, hx, (Bool.and_eq_true_iff.1 late).1, id⟩
  · obtain ⟨stops, found⟩ := State.halt_restops (s.toldStop x.ctxid _ _) (BitVec.ofNat 5 group) 0xFFFF 0 x hx
    exact ⟨(told _ _).trans stops, found⟩

/-- A FINAL STOP OF A CONTEXT (R226, R312): it is halted and does not resume. -/
theorem State.stopContext_final (s : State) (group : Nat) (detail : BitVec 96) (x : Ctx) (hx : s.ctx? x.ctxid = some x) :
    State.restops x.ctxid s (s.stopContext x.ctxid group detail true) ∧
    (∀ z ∈ (s.stopContext x.ctxid group detail true).ctxs, z.ctxid = x.ctxid → z.halt = true ∧ z.noResume = true) ∧
    ∃ z, (s.stopContext x.ctxid group detail true).ctx? x.ctxid = some z ∧ (x.stopWritten = false → z.stopWritten = false) := by
  obtain ⟨stops, y, found, halted, unwritten⟩ := s.stopLine_restops group detail x hx
  rw [State.stopContext_eq s group detail x y hx found]
  generalize s.stopLine x group detail = t at *
  have name := State.ctx_ctxid t x.ctxid y found
  obtain ⟨final, here⟩ := t.setCtx_stops x.ctxid y { y with noResume := true } found name
  refine ⟨stops.trans final, fun z hz same => ?_, _, here, unwritten⟩
  rw [t.ctxs_setCtx _ z hz (same.trans name.symm)]
  exact ⟨halted, rfl⟩

/-! ### Every context is stopped (R312) -/

/-- What a stop of many contexts leaves. -/
structure State.stopsAll (s t : State) : Prop where
  frame : t = { s with cohorts := t.cohorts, saved := t.saved, ctxs := t.ctxs }
  names : t.ctxs.map (·.ctxid) = s.ctxs.map (·.ctxid)
  unwritten : ∀ k x, s.ctx? k = some x → x.stopWritten = false → ∃ z, t.ctx? k = some z ∧ z.stopWritten = false

theorem State.stopsAll.refl (s : State) : s.stopsAll s := ⟨rfl, rfl, fun _ x hx open_ => ⟨x, hx, open_⟩⟩

theorem State.stopsAll.trans {s t u : State} (h : s.stopsAll t) (g : t.stopsAll u) : s.stopsAll u := by
  refine ⟨?_, g.names.trans h.names, fun k x hx open_ => ?_⟩
  · have frame := g.frame
    rw [h.frame] at frame
    exact frame
  · obtain ⟨z, hz, still⟩ := h.unwritten k x hx open_
    exact g.unwritten k z hz still

/-- One context that is registered is stopped for good, and what was stopped stays stopped. -/
theorem State.stopContext_stops (s : State) (group : Nat) (detail : BitVec 96) (k : BitVec 16) (hk : k ∈ s.ctxs.map (·.ctxid)) :
    s.stopsAll (s.stopContext k group detail true) ∧
    ∀ z ∈ (s.stopContext k group detail true).ctxs, z ∈ s.ctxs ∧ z.ctxid ≠ k ∨ z.halt = true ∧ z.noResume = true := by
  obtain ⟨x, hx⟩ : ∃ x, s.ctx? k = some x := by
    obtain ⟨y, hy, name⟩ := List.mem_map.1 hk
    rw [← Option.isSome_iff_exists, State.ctx?, List.find?_isSome]
    exact ⟨y, hy, beq_iff_eq.2 name⟩
  obtain rfl := State.ctx_ctxid s k x hx
  obtain ⟨stops, final, z, found, unwritten⟩ := s.stopContext_final group detail x hx
  refine ⟨⟨stops.frame, stops.names, fun j y hy open_ => ?_⟩, fun z hz => ?_⟩
  · by_cases same : j = x.ctxid
    · subst same
      rw [hx] at hy
      obtain rfl := Option.some.inj hy
      exact ⟨z, found, unwritten open_⟩
    · exact ⟨y, (stops.lookup j same).trans hy, open_⟩
  · by_cases same : z.ctxid = x.ctxid
    · exact .inr (final z hz same)
    · exact .inl ⟨stops.others z hz same, same⟩

/-- EVERY CONTEXT OF A LIST is stopped for good. -/
theorem State.stopContexts_final (group : Nat) (detail : BitVec 96) (ks : List (BitVec 16)) (s : State) (hks : ∀ k ∈ ks, k ∈ s.ctxs.map (·.ctxid)) :
    s.stopsAll (ks.foldl (fun t k => t.stopContext k group detail true) s) ∧
    ∀ z ∈ (ks.foldl (fun t k => t.stopContext k group detail true) s).ctxs, z ∈ s.ctxs ∧ z.ctxid ∉ ks ∨ z.halt = true ∧ z.noResume = true := by
  induction ks generalizing s with
  | nil => exact ⟨.refl s, fun z hz => .inl ⟨hz, List.not_mem_nil⟩⟩
  | cons k ks ih =>
    rw [List.forall_mem_cons] at hks
    obtain ⟨stops, first⟩ := s.stopContext_stops group detail k hks.1
    obtain ⟨rest, all⟩ := ih (s.stopContext k group detail true) (by rw [stops.names]; exact hks.2)
    refine ⟨stops.trans rest, fun z hz => ?_⟩
    rcases all z hz with ⟨kept, other⟩ | done
    · refine (first z kept).imp_left fun ⟨old, new⟩ => ⟨old, ?_⟩
      rw [List.mem_cons, not_or]
      exact ⟨new, other⟩
    · exact .inr done

/-! ### The temperature of a die (R312) -/

/-- What the power stages leave when they turn off (R312). -/
theorem State.powerOff_of_stopped (s : State) (h : ∀ x ∈ s.ctxs, x.stopWritten = true) : s.powerOff =
    { s with powered := false, released := false, cxlUp := false, ports := s.ports.map fun p => { p with up := false } } :=
  if_pos (List.all_eq_true.2 h)

theorem State.powerOff_of_open (s : State) (h : ∃ x ∈ s.ctxs, x.stopWritten = false) : s.powerOff = s := by
  obtain ⟨x, hx, open_⟩ := h
  exact if_neg fun all => by simp [List.all_eq_true.1 all x hx] at open_

theorem State.powerOff_ctxs (s : State) : s.powerOff.ctxs = s.ctxs ∧ s.powerOff.shutdown = s.shutdown ∧ s.powerOff.mem = s.mem := by
  unfold State.powerOff
  split <;> exact ⟨rfl, rfl, rfl⟩

theorem ports_down (ps : List Port) : ∀ p ∈ ps.map fun p => { p with up := false }, p.up = false := by
  intro p hp
  obtain ⟨q, -, rfl⟩ := List.mem_map.1 hp
  rfl

/-- The package after every context has been told to stop for heat. -/
def State.overheated (s : State) (die : Nat) : State :=
  { (s.ctxs.map (·.ctxid)).foldl (fun t k => t.stopContext k 13 (hwDetail (0xE000 + 9) 6 die) true) s with shutdown := true }

theorem exec_overTemperature_first (s : State) (die c : Nat) (hot : 115 < c) (first : s.shutdown = false) :
    exec (.overTemperatureShutdown die c) s = .next (s.overheated die).powerOff := by
  refine (if_neg ?_).trans (if_neg (Nat.not_le.2 hot))
  rw [first]
  exact Bool.false_ne_true

/-- A PACKAGE ABOVE 115 °C (R312): every context stops for good, and power goes once each has stopped. -/
theorem State.overheated_stops (s : State) (die : Nat) (t : State) (ht : t = (s.overheated die).powerOff) :
    t.shutdown = true ∧ t.mem = s.mem ∧ (∀ x ∈ t.ctxs, x.halt = true ∧ x.noResume = true) ∧
    ((∃ x, s.ctx? x.ctxid = some x ∧ x.stopWritten = false) → t.powered = s.powered ∧ t.released = s.released) ∧
    (s.ctxs = [] → t.powered = false ∧ t.released = false ∧ t.cxlUp = false ∧ ∀ p ∈ t.ports, p.up = false) := by
  obtain ⟨stops, all⟩ := State.stopContexts_final 13 (hwDetail (0xE000 + 9) 6 die) (s.ctxs.map (·.ctxid)) s fun _ => id
  obtain ⟨ctxs, shutdown, mem⟩ := (s.overheated die).powerOff_ctxs
  have frame : s.overheated die = { s with
      cohorts := (s.overheated die).cohorts, saved := (s.overheated die).saved, ctxs := (s.overheated die).ctxs, shutdown := true } := by
    unfold State.overheated
    rw [stops.frame]
  subst ht
  refine ⟨shutdown, ?_, fun x hx => ?_, fun ⟨x, hx, open_⟩ => ?_, fun unregistered => ?_⟩
  · rw [mem, frame]
  · rw [ctxs] at hx
    rcases all x hx with ⟨kept, other⟩ | done
    · exact absurd (List.mem_map_of_mem kept) other
    · exact done
  · obtain ⟨z, found, still⟩ := stops.unwritten x.ctxid x hx open_
    have stays : (s.overheated die).powerOff = s.overheated die := State.powerOff_of_open _ ⟨z, List.mem_of_find?_eq_some found, still⟩
    rw [stays, frame]
    exact ⟨rfl, rfl⟩
  · have empty : (s.overheated die).ctxs = [] := List.map_eq_nil_iff.1 (stops.names.trans (by rw [unregistered]; rfl))
    rw [State.powerOff_of_stopped _ (by rw [empty]; exact fun _ h => nomatch h)]
    exact ⟨rfl, rfl, rfl, ports_down _⟩

end Sys2Proof.Machine
end

section
/-!
A reset of the module, and the host's CXL and SPDM requests (the end of O60).
-/

namespace Sys2Proof.Machine

set_option Elab.async false

/-! ### A reset of the module (R304 to R306) -/

/-- A memory of which only some cells are kept. -/
theorem memByte_filter_keys (keep : Nat → Bool) (m : List Host.Cell) (a : Nat) :
    memByte (m.filter fun c => keep c.1) a = if keep a then memByte m a else 0 := by
  induction m with
  | nil => simp [memByte]
  | cons c m ih =>
    rw [List.filter_cons]
    by_cases same : a = c.1
    · subst same
      by_cases kept : keep c.1 = true
      · simp [kept, memByte]
      · simp only [kept] at ih ⊢
        exact ih
    · have skip : memByte (c :: m) a = memByte m a := if_neg same
      rw [skip, ← ih]
      split
      · exact if_neg same
      · rfl

theorem eq_or_mem_of_upsertBy {α : Type} (key : α → Nat) (x z : α) (ys : List α) (h : z ∈ upsertBy key x ys) : z = x ∨ z ∈ ys := by
  induction ys with
  | nil => exact .inl (List.mem_singleton.1 h)
  | cons y ys ih =>
    unfold upsertBy at h
    split at h
    · exact (List.mem_cons.1 h).imp_right (List.mem_cons_of_mem y)
    · split at h
      · exact List.mem_cons.1 h
      · rcases List.mem_cons.1 h with rfl | h
        · exact .inr List.mem_cons_self
        · exact (ih h).imp_right (List.mem_cons_of_mem y)

/-- Of a unit's record nothing but its state is kept over a reset (R299). -/
def UnitRec.stateOnly (r : UnitRec) : Prop := r = { UnitRec.init r.unit with state := r.state }

theorem selfTest_stateOnly (failed : List (BitVec 16)) (us : List UnitRec) : ∀ r ∈ selfTest failed us, r.stateOnly := by
  unfold selfTest
  dsimp only
  generalize (failed.filter fun f => !(us.any fun u => u.unit == f)) = new
  have start : ∀ r ∈ us.map fun (u : UnitRec) => ({ UnitRec.init u.unit with
      state := if failed.contains u.unit then max 1 u.state else if u.state = 2 then 1 else u.state } : UnitRec), r.stateOnly := by
    intro r hr
    obtain ⟨u, -, rfl⟩ := List.mem_map.1 hr
    rfl
  generalize (us.map fun (u : UnitRec) => ({ UnitRec.init u.unit with
      state := if failed.contains u.unit then max 1 u.state else if u.state = 2 then 1 else u.state } : UnitRec)) = old at start
  induction new generalizing old with
  | nil => exact start
  | cons f new ih =>
    refine ih _ fun r hr => ?_
    rcases eq_or_mem_of_upsertBy _ _ _ _ hr with rfl | hr
    · rfl
    · exact start r hr

/-- Power-up passes stage 5 with the link to the host up (R304). -/
theorem cxlUp_of_boot (b : BootInfo) (us : List UnitRec) (h : bootFailure b us = none) : b.cxlUp = true := by
  unfold bootFailure at h
  dsimp only at h
  repeat' split at h
  all_goals cases h
  next up => exact Bool.eq_true_of_not_eq_false up

/-- Bytes of host memory stay over a reset, and HBM is cleared (R305). -/
theorem State.kept_memByte (s : State) (a : Nat) : memByte s.kept.mem a = if hostBase ≤ a ∧ a < 2 ^ 52 then memByte s.mem a else 0 := by
  have read := memByte_filter_keys (fun a => decide (hostBase ≤ a) && decide (a < 2 ^ 52)) s.mem a
  simp only [Bool.and_eq_true, decide_eq_true_eq] at read
  exact read

/-! ### The host's CXL accesses (R102, R307) -/

/-- A host write of HBM lands byte for byte (R307). -/
theorem State.store_memByte (s : State) (key : Nat) (bs : List Byte) (i : Nat) (h : i < bs.length) :
    memByte (s.store key bs).mem (key + i) = bs.getD i 0 := memByte_memWrite_at _ key i bs h

theorem State.store_memByte_other (s : State) (key : Nat) (bs : List Byte) (plain : s.plainStores) (a : Nat) (h : a < key ∨ key + bs.length ≤ a) :
    memByte (s.store key bs).mem a = memByte s.mem a := by
  rw [State.store_of_plainStores s key bs plain]
  exact memByte_memWrite_other s.mem key a bs h

theorem State.store_onlyAccess (s : State) (key : Nat) (bs : List Byte) : s.onlyAccess (s.store key bs) := by
  have stores := s.store_storesOnly key bs
  unfold State.onlyAccess
  rw [stores]

theorem exec_cxl_write (s : State) (pa n : Nat) (bs : List Byte) (up : s.cxlUp = true) (open_ : s.released = true) (fits : pa + bs.length ≤ 2 ^ 41) :
    exec (.cxlMemAccess pa n (some bs)) s = .next (s.store pa bs) :=
  (if_neg (by simp [up, open_])).trans (if_pos fits)

theorem exec_cxl_read (s : State) (pa n : Nat) (up : s.cxlUp = true) (open_ : s.released = true) (fits : pa + n ≤ 2 ^ 41) :
    exec (.cxlMemAccess pa n none) s =
      .next { s with outbox := s.outbox ++ [if s.poisoned pa n then .dataLost else .cxlData (memBytes s.mem pa n)] } :=
  (if_neg (by simp [up, open_])).trans (if_neg (Nat.not_lt.2 fits))

/-- What die 0's L2 answers to the host's snoop of a line (R102). -/
def State.snooped (s : State) (pa : Nat) : State :=
  if s.inL2 pa then { s with outbox := s.outbox ++ [if s.poisoned pa 128 then .dataLost else .snoopData (memBytes s.mem pa 128)] } else s

theorem State.snooped_mem (s : State) (pa : Nat) : (s.snooped pa).mem = s.mem := by
  unfold State.snooped
  split <;> rfl

theorem exec_snoop_none (s : State) (line : Nat) (up : s.cxlUp = true) (host : hostPa (128 * line) + 128 ≤ 2 ^ 52) :
    exec (.cxlCacheSnoop line none) s = .next (s.snooped (hostPa (128 * line))) :=
  if_neg (not_or.2 ⟨Nat.not_lt.2 host, by simp [up]⟩)

theorem exec_snoop_write (s : State) (line : Nat) (data : Line) (up : s.cxlUp = true) (host : hostPa (128 * line) + 128 ≤ 2 ^ 52) :
    exec (.cxlCacheSnoop line (some data)) s = .next { (s.snooped (hostPa (128 * line))).writeMem (hostPa (128 * line)) (data.take 128) with
      l2 := (s.snooped (hostPa (128 * line))).l2.filter fun y => y.line != hostPa (128 * line) / 128 } :=
  if_neg (not_or.2 ⟨Nat.not_lt.2 host, by simp [up]⟩)

theorem exec_spdm (s : State) (code : Byte) (block : Nat) (up : s.cxlUp = true) : exec (.spdmRequest code block) s = .next { s with outbox := s.outbox ++
      [.spdm code (Config.spdmDigest block Config.manifestDigest Config.fusedVersion (s.fences.map fun u => (u.unit.toNat, u.state)))] } := if_pos up

/-! ### The clauses of O60 -/

theorem units_clause (s : State) (k : BitVec 16) (r : UnitRec) (hr : r = s.unitRec k) (kind : k.toNat / 8192 ≠ 6) :
    (unitExists k.toNat = true → ∀ a rest b, r.recent = a :: rest → rest.length = 15 → rest.getLast? = some b → a < b + 2 ^ 24 →
      ∃ t : State, exec (.replayRateFence k) s = .next t ∧ t = { s with units := t.units } ∧
        t.unitRec k = { r with recent := [], state := if r.state = 0 then 1 else r.state, scheduled := true, passRow := 0 } ∧
        ∀ v, v ≠ k → t.unitRec v = s.unitRec v) ∧
    ((unitExists k.toNat = false ∨ r.recent.length ≠ 16 ∨ ∃ a rest b, r.recent = a :: rest ∧ rest.getLast? = some b ∧ b + 2 ^ 24 ≤ a) →
      exec (.replayRateFence k) s = .next s) ∧
    (testable k = true → r.state ≠ 2 → r.testing = none → s.longIdle k = true →
      (r.scheduled = true ∨ r.last = 0 ∨ r.lastC + 2 ^ 30 ≤ s.cycle (unitDie k)) → ∃ t : State, exec (.ochreTest k) s = .next t ∧
        t = { s with units := t.units } ∧ t.unitRec k = { r with testing := some (s.cycle (unitDie k)), scheduled := false }) ∧
    (r.testing.isSome = true → ∀ pass arrived, ∃ t : State, exec (.ochreTestComplete k pass arrived) s = .next t ∧ t = { s with units := t.units } ∧
      (∀ v, v ≠ k → t.unitRec v = s.unitRec v) ∧ t.unitRec k = s.testEnded k pass arrived) := by
  have name : r.unit = k := hr ▸ s.unitRec_unit k
  subst hr
  refine ⟨fun real a rest b recent length last near => ?_, fun idle => ?_, fun can open_ free idle due => ?_, fun runs pass arrived => ?_⟩
  · obtain ⟨frame, here, others⟩ := s.setUnit_reads k { s.unitRec k with
      recent := [], state := if (s.unitRec k).state = 0 then 1 else (s.unitRec k).state, scheduled := true, passRow := 0 } name
    exact ⟨_, exec_replayRateFence s k kind real ((replaysOften_iff _).2 ⟨a, rest, b, recent, length, last, near⟩), frame, here, others⟩
  · exact exec_replayRateFence_idle s k (idle.imp_right (replaysOften_eq_false _))
  · obtain ⟨frame, here, -⟩ := s.setUnit_reads k { s.unitRec k with testing := some (s.cycle (unitDie k)), scheduled := false } name
    exact ⟨_, exec_ochreTest s k can open_ free idle due, frame, here⟩
  · obtain ⟨frame, here, others⟩ := s.setUnit_reads k (s.testEnded k pass arrived) (s.testEnded_report k pass arrived).1
    exact ⟨_, exec_ochreTestComplete s k kind pass arrived runs, frame, others, here⟩

theorem ways_clause (s : State) (die slice set way : Nat) (y : L2Set)
    (hy : y = { s.l2Set die slice set with disabled := (s.l2Set die slice set).disabled ||| BitVec.twoPow 16 way,
                                            counts := (s.l2Set die slice set).counts.set way 4 })
    (two : 2 ≤ ((List.range 16).filter fun w => !y.disabled.getLsbD w).length) :
    ∃ t : State, exec (.wayDisable die slice set way) s = .next t ∧ t = { s with l2sets := t.l2sets, l2 := t.l2 } ∧ (∀ z ∈ t.l2, z ∈ s.l2) ∧
      t.l2Set die slice set = y ∧ ∀ d l n, (d ≠ die ∨ l ≠ slice ∨ n ≠ set) → t.l2Set d l n = s.l2Set d l n := by
  have run := exec_wayDisable s die slice set way y hy two
  have name : y.die = die ∧ y.slice = slice ∧ y.set = set := by
    rw [hy]
    exact s.l2Set_name die slice set
  obtain ⟨rfl, rfl, rfl⟩ := name
  exact ⟨_, run, rfl, ((s.setL2Set y).trimL2_frame _).2, s.l2Set_setL2Set y, fun d l n other => s.l2Set_setL2Set_other y d l n other⟩

theorem setDie_reads (s : State) (die : Nat) (d : DieState) (h : d.die = die) :
    s.setDie d = { s with dies := (s.setDie d).dies } ∧ (s.setDie d).die die = d := by
  subst h
  exact ⟨rfl, s.die_setDie d⟩

theorem temperature_clause (s : State) (die c : Nat) :
    (105 < c → ∃ t : State, exec (.thermalThrottle die c) s = .next t ∧ t = { s with dies := t.dies } ∧ t.die die = { s.die die with throttled := true }) ∧
    (c < 100 → ∃ t : State, exec (.throttleEnd die c) s = .next t ∧ t = { s with dies := t.dies } ∧ t.die die = { s.die die with throttled := false }) ∧
    (c ≤ 105 → exec (.thermalThrottle die c) s = .next s) ∧ (100 ≤ c → exec (.throttleEnd die c) s = .next s) :=
  ⟨fun hot => ⟨_, if_pos hot, setDie_reads s die { s.die die with throttled := true } (s.die_die die)⟩,
    fun cool => ⟨_, if_pos cool, setDie_reads s die { s.die die with throttled := false } (s.die_die die)⟩,
    fun cool => if_neg (Nat.not_lt.2 cool), fun hot => if_neg (Nat.not_lt.2 hot)⟩

theorem shutdown_clause (s : State) (die c : Nat) :
    (c ≤ 115 → s.shutdown = false → exec (.overTemperatureShutdown die c) s = .next s) ∧
    (115 < c → s.shutdown = false → ∃ t : State, exec (.overTemperatureShutdown die c) s = .next t ∧ t.shutdown = true ∧ t.mem = s.mem ∧
      (∀ x ∈ t.ctxs, x.halt = true ∧ x.noResume = true) ∧
      ((∃ x, s.ctx? x.ctxid = some x ∧ x.stopWritten = false) → t.powered = s.powered ∧ t.released = s.released) ∧
      (s.ctxs = [] → t.powered = false ∧ t.released = false ∧ t.cxlUp = false ∧ ∀ p ∈ t.ports, p.up = false)) ∧
    (s.shutdown = true → (∀ x ∈ s.ctxs, x.stopWritten = true) → ∃ t : State, exec (.overTemperatureShutdown die c) s = .next t ∧
      t = { s with powered := false, released := false, cxlUp := false, ports := t.ports } ∧ t.ports.length = s.ports.length ∧
      ∀ p ∈ t.ports, p.up = false) ∧
    (s.shutdown = true → (∃ x ∈ s.ctxs, x.stopWritten = false) → exec (.overTemperatureShutdown die c) s = .next s) := by
  refine ⟨fun cool first => ?_, fun hot first => ?_, fun again stopped => ?_, fun again open_ => ?_⟩
  · exact (if_neg (by rw [first]; exact Bool.false_ne_true)).trans (if_pos cool)
  · exact ⟨_, exec_overTemperature_first s die c hot first, s.overheated_stops die _ rfl⟩
  · have off : exec (.overTemperatureShutdown die c) s = .next s.powerOff := if_pos again
    rw [s.powerOff_of_stopped stopped] at off
    exact ⟨_, off, rfl, List.length_map _, ports_down _⟩
  · have stays : exec (.overTemperatureShutdown die c) s = .next s.powerOff := if_pos again
    rwa [s.powerOff_of_open open_] at stays

theorem telemetry_clause (s : State) (p a b j : Nat) :
    (s.reports < s.cycle 0 / 2 ^ 20 → ∃ t : State, exec (.telemetryReport p a b j) s = .next t ∧
      t = { s with outbox := t.outbox, reports := s.cycle 0 / 2 ^ 20 } ∧ s.sent t [.telemetry p a b j]) ∧
    (s.cycle 0 / 2 ^ 20 ≤ s.reports → exec (.telemetryReport p a b j) s = .next s) :=
  ⟨fun due => ⟨_, if_neg (Nat.not_le.2 due), rfl, rfl⟩, fun early => if_pos early⟩

/-- A module whose five stages pass (R304). -/
def State.booted (s : State) (b : BootInfo) : State :=
  { s.kept with
    pdom := b.pdom, cxlUp := b.cxlUp, units := selfTest b.failedUnits s.kept.units,
    ports := b.portsUp.map fun n => { Port.init n with up := true }, released := true, bootstat := bootstatOf b.pdom 0xFF 0 6 false }

/-- A module of which a stage fails: the safe talkative state (R306, R310). -/
def State.bootFailed (s : State) (b : BootInfo) (stage code die : Nat) : State :=
  let t : State := { s.kept with
    pdom := b.pdom, cxlUp := b.cxlUp, units := if 1 < stage then selfTest b.failedUnits s.kept.units else s.kept.units,
    ports := if 3 < stage then b.portsUp.map fun n => { Port.init n with up := true } else [] }
  { t with bootstat := bootstatOf b.pdom die code stage true, memState := .failed, watches := t.leaderWatches }

theorem exec_moduleReset_passes (s : State) (b : BootInfo) (h : bootFailure b (selfTest b.failedUnits s.kept.units) = none) :
    exec (.moduleReset b) s = .next (s.booted b) := by
  change execModuleReset b s = _
  unfold execModuleReset
  dsimp only
  rw [h]
  rfl

theorem exec_moduleReset_fails (s : State) (b : BootInfo) (stage code die : Nat)
    (h : bootFailure b (selfTest b.failedUnits s.kept.units) = some (stage, code, die)) :
    exec (.moduleReset b) s = .next (s.bootFailed b stage code die) := by
  change execModuleReset b s = _
  unfold execModuleReset
  dsimp only
  rw [h]
  simp only [decide_eq_true_eq]
  rfl

theorem reset_clause (s : State) (b : BootInfo) (us : List UnitRec) (hus : us = selfTest b.failedUnits s.kept.units) :
    (bootFailure b us = none → ∃ t : State, exec (.moduleReset b) s = .next t ∧ t.released = true ∧ t.powered = true ∧
      t.bootstat = bootstatOf b.pdom 0xFF 0 6 false ∧ t.pdom = b.pdom ∧ t.units = us ∧
      (∀ r ∈ t.units, r = { UnitRec.init r.unit with state := r.state }) ∧ t.cohorts = [] ∧ t.ctxs = [] ∧ t.queues = [] ∧ t.memState = .idle ∧
      t.faddr = s.faddr ∧ t.cxlUp = true ∧ (∀ a, hostBase ≤ a → a < 2 ^ 52 → memByte t.mem a = memByte s.mem a) ∧
      ∀ a, (a < hostBase ∨ 2 ^ 52 ≤ a) → memByte t.mem a = 0) ∧
    (∀ stage code die, bootFailure b us = some (stage, code, die) → ∃ t : State, exec (.moduleReset b) s = .next t ∧ t.released = false ∧
      t.bootstat = bootstatOf b.pdom die code stage true ∧ t.memState = .failed ∧ t.cohorts = [] ∧ t.ctxs = []) := by
  subst hus
  refine ⟨fun passes => ?_, fun stage code die fails => ⟨_, exec_moduleReset_fails s b stage code die fails, rfl, rfl, rfl, rfl, rfl⟩⟩
  refine ⟨s.booted b, exec_moduleReset_passes s b passes, rfl, rfl, rfl, rfl, rfl, selfTest_stateOnly _ _, rfl, rfl, rfl, rfl, rfl,
    cxlUp_of_boot b _ passes, fun a low high => ?_, fun a outside => ?_⟩
  · exact (s.kept_memByte a).trans (if_pos ⟨low, high⟩)
  · exact (s.kept_memByte a).trans (if_neg fun inside => by omega)

theorem snoop_clause (s : State) (up : s.cxlUp = true) (line pa : Nat) (hpa : pa = hostPa (128 * line)) (host : pa + 128 ≤ 2 ^ 52) :
    (s.inL2 pa = true → ∃ t : State, exec (.cxlCacheSnoop line none) s = .next t ∧ t = { s with outbox := t.outbox } ∧
      s.sent t [if s.poisoned pa 128 then .dataLost else .snoopData (memBytes s.mem pa 128)]) ∧
    (s.inL2 pa = false → exec (.cxlCacheSnoop line none) s = .next s) ∧
    (∀ data, data.length = 128 → ∃ t : State, exec (.cxlCacheSnoop line (some data)) s = .next t ∧ t.inL2 pa = false ∧
      (∀ i, i < 128 → memByte t.mem (pa + i) = data.getD i 0) ∧
      ∀ a, (a < pa ∨ pa + 128 ≤ a) → memByte t.mem a = memByte s.mem a) := by
  subst hpa
  have asked := exec_snoop_none s line up host
  refine ⟨fun held => ?_, fun out => ?_, fun data length => ?_⟩
  · rw [State.snooped, if_pos held] at asked
    exact ⟨_, asked, rfl, rfl⟩
  · rwa [State.snooped, if_neg (by rw [out]; exact Bool.false_ne_true)] at asked
  · have whole : data.take 128 = data := List.take_of_length_le (by omega)
    have run := exec_snoop_write s line data up host
    rw [whole] at run
    refine ⟨_, run, ?_, fun i hi => memByte_memWrite_at _ _ i data (by omega), fun a outside => ?_⟩
    · rw [State.inL2, List.any_eq_false]
      intro y hy same
      have other := (List.mem_filter.1 hy).2
      rw [bne, same] at other
      exact nomatch other
    · refine (memByte_memWrite_other _ _ a data (by omega)).trans ?_
      rw [s.snooped_mem]

theorem cxl_clause (s : State) (up : s.cxlUp = true) (open_ : s.released = true) (pa n : Nat) :
    (∀ bs, pa + bs.length ≤ 2 ^ 41 → ∃ t : State, exec (.cxlMemAccess pa n (some bs)) s = .next t ∧ s.onlyAccess t ∧
      (∀ i, i < bs.length → memByte t.mem (pa + i) = bs.getD i 0) ∧
      (s.plainStores → ∀ a, (a < pa ∨ pa + bs.length ≤ a) → memByte t.mem a = memByte s.mem a)) ∧
    (pa + n ≤ 2 ^ 41 → ∃ t : State, exec (.cxlMemAccess pa n none) s = .next t ∧ t = { s with outbox := t.outbox } ∧
      s.sent t [if s.poisoned pa n then .dataLost else .cxlData (memBytes s.mem pa n)]) :=
  ⟨fun bs fits => ⟨_, exec_cxl_write s pa n bs up open_ fits, s.store_onlyAccess pa bs, s.store_memByte pa bs, s.store_memByte_other pa bs⟩,
    fun fits => ⟨_, exec_cxl_read s pa n up open_ fits, rfl, rfl⟩⟩

theorem coreError_clause (s : State) (die core : Nat) (pass : Bool) (hd : die < 16) (hc : core < 12)
    (serves : ∃ k, k < 12 ∧ k ≠ core ∧ s.fwInService die k = true) :
    ∃ t : State, exec (.firmwareCoreError die core pass) s = .next t ∧ t = { s with dies := t.dies, units := t.units } ∧
      t.die die = { s.die die with
        events := ((s.die die).fw.filter fun c => c.core == core).map (·.running) ++ (s.die die).events,
        fw := (s.die die).fw.filter fun c => c.core != core } ∧
      (pass = false → t.fwInService die core = false) ∧ (pass = true → t.fwInService die core = s.fwInService die core) := by
  obtain ⟨k, hk, other, serves⟩ := serves
  exact ⟨_, exec_firmwareCoreError s die core k pass hd hc hk other serves, s.coreError_leaves die core pass _ rfl⟩

theorem events_clause (s : State) (die : Nat) (p : State) (f : DieState) (hp : p = s.posted die) (hf : f = p.die die) :
    ((f.dispatchable = none ∨ p.fwIdle die = none) → exec (.firmwareEvent die) s = .next p) ∧
    (∀ e n q, f.dispatchable = some e → p.fwIdle die = some n →
      q = p.setDie { f with events := f.events.erase e, fw := f.fw ++ [{ core := n, running := e }] } →
      ((∀ k l va, e ≠ .joinZero k l va) → (∀ u, e ≠ .errorReport u) → exec (.firmwareEvent die) s = .next q) ∧
      (∀ u, e = .errorReport u → exec (.firmwareEvent die) s = .next (q.fwCommit die (· == e))) ∧
      (∀ k id va l t1, e = .joinZero k id va → q.launch? id = some l → q.startSuccessor l va.toNat = .ok t1 →
        exec (.firmwareEvent die) s = .next (t1.fwCommit 0 (· == e)))) := by
  subst hf hp
  refine ⟨exec_firmwareEvent_idle s die, fun e n q dispatch idle hq => ?_⟩
  have run : exec (.firmwareEvent die) s = (s.posted die).dispatched q die e := by
    rw [hq]
    exact exec_firmwareEvent_dispatch s die e n dispatch idle
  refine ⟨fun join report => run.trans (State.dispatched_later _ q die e join report), fun u he => ?_, fun k id va l t1 he found starts => ?_⟩
  · subst he
    exact run
  · subst he
    exact run.trans (State.dispatched_joinZero _ q t1 die k id va l found starts)

/-- Settles O60: units and ways, the firmware of a die, its temperature, telemetry, a reset, and the host's requests. -/
theorem unitsAndModule : Obligations.UnitsAndModule := by
  unfold Obligations.UnitsAndModule
  intro s
  refine ⟨fun k r hr kind => ?_, fun die slice set way x y hx hy two => ?_, fun die d hd => ?_, fun p a b j => telemetry_clause s p a b j,
    fun b us hus => reset_clause s b us hus, fun up => ?_⟩
  · obtain ⟨fence, idle, test, ends⟩ := units_clause s k r hr kind
    refine ⟨fence, idle, test, fun runs pass arrived => ?_⟩
    obtain ⟨t, run, frame, others, here⟩ := ends runs pass arrived
    obtain ⟨-, testing, last, report⟩ := s.testEnded_report k pass arrived
    rw [← hr, ← here] at report
    rw [← here] at testing last
    exact ⟨t, run, frame, others, testing, last, report⟩
  · subst hx
    exact ways_clause s die slice set way y hy two
  · subst hd
    refine ⟨fun core pass hd hc serves => coreError_clause s die core pass hd hc serves, fun p f hp hf => events_clause s die p f hp hf,
      fun s1 lost hs1 hlost sound => ?_, fun c => ?_⟩
    · rw [hs1, hlost]
      exact exec_frontEndReset s die sound
    · obtain ⟨hot, cool, warm, warm'⟩ := temperature_clause s die c
      obtain ⟨below, above, off, stays⟩ := shutdown_clause s die c
      exact ⟨hot, cool, warm, warm', below, above, off, stays⟩
  · exact ⟨fun open_ pa n => cxl_clause s up open_ pa n, fun line pa hpa host => snoop_clause s up line pa hpa host,
      fun code block => ⟨_, exec_spdm s code block up, rfl, rfl⟩⟩

end Sys2Proof.Machine
end

section
/-!
The commands on tensors (O42): an engine's reads at acceptance (R166, R167, R174) change what no later check looks at, so that the counter
is reached, the scoreboard has room and the region stands as before the command; then the job is accepted.
-/

namespace Sys2Proof.Machine

set_option Elab.async false

/-! ### What an engine's reads change (R114, R115, R120) -/

/-- What a die's engines change when they read: accessed bits of leaf entries, the die's translations, the lines of L2 and the pins. -/
def State.engineReads (s t : State) : Prop := t = { s with mem := t.mem, dies := t.dies, l2 := t.l2, ctxs := t.ctxs }

theorem State.engineReads.refl (s : State) : s.engineReads s := rfl

theorem State.engineReads.trans {s t u : State} (h : s.engineReads t) (g : t.engineReads u) : s.engineReads u := by
  unfold State.engineReads at *
  rw [h] at g
  exact g

theorem State.engineReads.foldl {α : Type} (g : State → α → State) (hg : ∀ (s : State) a, s.engineReads (g s a)) (xs : List α) (s : State) :
    s.engineReads (xs.foldl g s) := by
  induction xs generalizing s with
  | nil => exact .refl s
  | cons a xs ih => exact (hg s a).trans (ih _)

theorem State.engineReads.jobs {s t : State} (h : s.engineReads t) : t.jobs = s.jobs := by rw [h]

theorem State.engineReads.regionOf {s t : State} (h : s.engineReads t) (c : Cohort) : t.regionOf c = s.regionOf c := by
  rw [h]
  rfl

theorem State.engineReads.boardFull {s t : State} (h : s.engineReads t) (core : Nat) : t.boardFull core = s.boardFull core := by
  rw [h]
  rfl

theorem State.noteLine_engineReads (s : State) (key : Nat) (mt pol : BitVec 2) : s.engineReads (s.noteLine key mt pol) := by
  rw [s.noteLine_frame]
  rfl

theorem State.noteRun_engineReads (s : State) (key n : Nat) (mt pol : BitVec 2) : s.engineReads (s.noteRun key n mt pol) := by
  unfold State.noteRun
  split
  · exact .refl s
  · exact .foldl _ (fun _ _ => State.noteLine_engineReads _ _ _ _) _ s

theorem State.noteWalk_engineReads (s : State) (d : Nat) (x : Ctx) (va : Nat) : s.engineReads (s.noteWalk (.die d) x va) := by
  unfold State.noteWalk
  dsimp only
  split
  · exact .refl s
  · exact .foldl _ (fun _ _ => State.noteLine_engineReads _ _ _ _) _ s

theorem State.noteXlat_engineReads (s : State) (d : Nat) (x : Ctx) (va : DWord) (r : Xlat) : s.engineReads (s.noteXlat (.die d) x va r) := by
  unfold State.noteXlat
  split
  · exact .refl s
  · split
    · exact s.noteWalk_engineReads d x _
    · exact .refl s
  · exact s.noteWalk_engineReads d x _

theorem State.keepTranslation_engineReads (s : State) (d : Nat) (x : Ctx) (va : Nat) (e : TlbEntry) :
    s.engineReads (s.keepTranslation (.die d) x va e) := by
  unfold State.keepTranslation
  dsimp only
  split <;> rfl

theorem State.setLeaf_engineReads (s : State) (leaf : Nat) (bits : Byte) : s.engineReads (s.setLeaf leaf bits) := by
  unfold State.setLeaf
  dsimp only
  split <;> rfl

theorem State.touch_engineReads (s : State) (d : Nat) (x : Ctx) (va : DWord) (r : Xlat) : s.engineReads (s.touch (.die d) x va r) := by
  unfold State.touch
  split
  · exact ((s.noteXlat_engineReads d x va _).trans (State.keepTranslation_engineReads _ d x _ _)).trans (State.setLeaf_engineReads _ _ _)
  · exact s.noteXlat_engineReads d x va r

theorem State.vaRead_engineReads {s t : State} {d core va n : Nat} {x : Ctx} {bs : List Byte} (h : s.vaRead (.die d) core x va n = .ok (bs, t)) :
    s.engineReads t := by
  unfold State.vaRead at h
  repeat' split at h
  all_goals cases h
  exact .foldl _ (fun t _ => (t.touch_engineReads d x _ _).trans (State.noteRun_engineReads _ _ _ _ _)) _ s

/-! ### The end of a pin changes no translation (R120) -/

/-- Only the contexts, which hold the pins, differ. -/
def State.unpins (s t : State) : Prop := t = { s with ctxs := t.ctxs }

theorem State.unpins.trans {s t u : State} (h : s.unpins t) (g : t.unpins u) : s.unpins u := by
  unfold State.unpins at *
  rw [h] at g
  exact g

theorem State.unpin_unpins (s : State) (c : Cohort) (va : Nat) : s.unpins (s.unpin c va) := by
  unfold State.unpin
  repeat' split
  all_goals rfl

theorem State.unpinRun_unpins (s : State) (c : Cohort) (va n : Nat) : s.unpins (s.unpinRun c va n) := by
  unfold State.unpinRun
  induction pagePieces (n / 8192 + 2) va n generalizing s with
  | nil => rfl
  | cons p ps ih => exact (s.unpin_unpins c p.1).trans (ih (s.unpin c p.1))

theorem State.unpins.engineReads {s t : State} (h : s.unpins t) : s.engineReads t := by
  unfold State.engineReads
  rw [h]

/-- A walk looks at memory and its poison alone (R115). -/
theorem walkLevels_congr {s t : State} (mem : t.mem = s.mem) (poison : t.poison = s.poison) (ctx : BitVec 16) (cache : List WalkEntry) (va : Nat)
    (ks : List Nat) (table : Nat) : walkLevels t ctx cache va ks table = walkLevels s ctx cache va ks table := by
  induction ks generalizing table with
  | nil => rfl
  | cons k ks ih =>
    have poisoned (a : Nat) : t.poisoned a 8 = s.poisoned a 8 := by rw [State.poisoned, poison, State.poisoned]
    simp only [walkLevels, poisoned, mem, ih]

theorem State.unpins.xlat {s t : State} (h : s.unpins t) (p : XPort) (core : Nat) (x : Ctx) (acc : Acc) (va : DWord) :
    t.xlat p core x acc va = s.xlat p core x acc va := by
  have mem : t.mem = s.mem := by rw [h]
  have poison : t.poison = s.poison := by rw [h]
  have held (k : Nat) : t.core k = s.core k ∧ t.quad k = s.quad k ∧ t.die k = s.die k := by
    rw [h]
    exact ⟨rfl, rfl, rfl⟩
  have walk (a : Nat) : t.walk p x a = s.walk p x a := by
    cases p <;> simp only [State.walk, held, walkLevels_congr mem poison]
  simp only [State.xlat, walk]

/-! ### The parts of an acceptance that pass (R111, R166, R167, R174) -/

theorem badAddress_of_good {as : List (DWord × Nat)} (h : ∀ a ∈ as, a.1.toNat % 2 ^ a.2 = 0 ∧ a.1.toNat < 2 ^ 53) : badAddress as = none := by
  have aligned : as.find? (fun a => a.1.toNat % 2 ^ a.2 != 0) = none := List.find?_eq_none.2 fun a ha => by simp [(h a ha).1]
  have low : as.find? (fun a => decide (2 ^ 53 ≤ a.1.toNat)) = none :=
    List.find?_eq_none.2 fun a ha => by simpa using (h a ha).2
  simp only [badAddress, aligned, low, Option.map_none]

theorem indigoClose_of_single (s : State) {c : Cohort} (k : Cohort → Out) (h : c.role = .single) : indigoClose s c k = k c := if_pos (.inl h)

theorem readRecord_of_read {s t : State} {c : Cohort} {x : Ctx} {va : DWord} {bs : List Byte} (l : Nat) (k : State → List Byte → Out)
    (stores : s.combining c.core x va.toNat 96 = false) (read : s.vaRead (.die (dieOf c.core)) c.core x va.toNat 96 = .ok (bs, t)) :
    readRecord s c x l va k = k (t.unpinRun c va.toNat 96) bs := by
  simp only [readRecord, stores, read, Bool.false_eq_true, if_false]

theorem reachCounter_of_xlat {s : State} {c : Cohort} {x : Ctx} {va : DWord} {key : Nat} {leaf : Option TlbEntry} {tile : Bool} (l : Nat)
    (k : State → Nat × Option Nat → Out) (h : s.xlat (.die (dieOf c.core)) c.core x .store va = .ok key 0 leaf tile) :
    reachCounter s c x l va k = k ((s.touch (.die (dieOf c.core)) x va (.ok key 0 leaf tile)).unpin c va.toNat) (key, leaf.map (·.leaf)) := by
  simp only [reachCounter, h, ne_eq, not_true, if_false]

/-- A JOB IS ACCEPTED where the scoreboard has room (R111, R137): it joins the jobs at their end, and the cohort moves on. -/
theorem acceptJob_of_room {s : State} {c : Cohort} (room : s.boardFull c.core = false) (j : Job) (lines : List Nat) (writes : Bool)
    (clear : List Nat) : ∃ t : State, acceptJob s c j lines writes clear = .next (t.setCohort ({ c with jobSeq := c.jobSeq + 1 } : Cohort).complete) ∧
      t.jobs = s.jobs ++ [j] := by
  simp only [acceptJob, room, Bool.false_eq_true, and_false, if_false]
  exact ⟨_, rfl, rfl⟩

theorem coordsOf_getElem? (c : Cohort) (o : Opnd) (l k : Nat) (h : k < 5) :
    (coordsOf c o l)[k]? = some ((c.reg (opndIndex o + k)).lane l).toInt := by
  simp [coordsOf, h]

/-! ### COPY, GATHER and SCATTER (R371, R393, R439) -/

/-- The three instructions are one command, whose kind tells whether it moves rows. -/
theorem exec_tensorCommand (s : State) {i : Instr} {f : Fields} {kind : JobKind} {rows : Bool}
    (h : (i = .copy f ∧ rows = false ∧ kind = if f.sub = 0 then .copyLd else .copySt) ∨ (i = .gather f ∧ rows = true ∧ kind = .gather) ∨
      (i = .scatter f ∧ rows = true ∧ kind = .scatter)) :
    (∃ opc, exec i s = tensorCommand kind opc f s) ∧ (kind == .gather || kind == .scatter) = rows := by
  obtain ⟨rfl, rfl, rfl⟩ | ⟨rfl, rfl, rfl⟩ | ⟨rfl, rfl, rfl⟩ := h
  · refine ⟨⟨_, rfl⟩, ?_⟩
    split <;> rfl
  · exact ⟨⟨_, rfl⟩, rfl⟩
  · exact ⟨⟨_, rfl⟩, rfl⟩

/-- Settles O42: the checks pass one after the other, each in the state that the reads before it left. -/
theorem tensorCommands : Obligations.TensorCommands := by
  unfold Obligations.TensorCommands
  intro s s1 c x f i kind rows ra ca ia d bs key count leaf tile hc hx hr ready hi hm hra hca hia aligned low aligned' low' index window stores
    read good hcount fits ilv reach room
  obtain ⟨⟨opc, run⟩, hrows⟩ := exec_tensorCommand s hi
  have addresses : badAddress ([(ra, 6), (ca, 3)] ++ if rows = true then [(ia, 2)] else []) = none := by
    refine badAddress_of_good (List.forall_mem_cons.2 ⟨⟨aligned, low⟩, List.forall_mem_cons.2 ⟨⟨aligned', low'⟩, ?_⟩⟩)
    split
    · next moves => exact List.forall_mem_singleton.2 (index moves)
    · exact List.forall_mem_nil _
  have unpinned := s1.unpinRun_unpins c ra.toNat 96
  rw [← unpinned.xlat] at reach
  have record := (State.vaRead_engineReads read).trans unpinned.engineReads
  have counter := (State.touch_engineReads (s1.unpinRun c ra.toNat 96) (dieOf c.core) x ca (.ok key 0 leaf tile)).trans
    (State.unpin_unpins _ c ca.toNat).engineReads
  have reads := record.trans counter
  -- `Cohort.opnd64` in the elected lane is the command's own `addrElected`
  change ra = c.addrElected f f.oa _ at hra
  change ca = c.addrElected f f.oc _ at hca
  change ia = c.addrElected f f.oe _ at hia
  rw [run, tensorCommand, withMe_some s c _ hc, withCtx_some s c x _ hx]
  simp only [hrows, ← hra, ← hca, ← hia, if_neg hm, addresses, window, ready, Bool.false_eq_true, if_false, indigoClose_of_single s _ hr,
    readRecord_of_read _ _ stores read, good, ← hcount, if_neg (Nat.not_lt.2 fits), ilv, ne_eq, not_true, reachCounter_of_xlat _ _ reach]
  obtain ⟨t, accepted, jobs⟩ := acceptJob_of_room ((reads.boardFull c.core).trans room) _ _ _ _
  refine ⟨t, _, accepted, reads.jobs ▸ jobs, rfl, rfl, rfl, rfl, rfl, rfl, rfl, rfl, ?_, rfl, rfl, rfl, rfl, ?_, ?_⟩
  · exact congrArg (·.1 + descBase d) (reads.regionOf c)
  · exact fun h => if_pos h
  · exact coordsOf_getElem? c f.ob _

end Sys2Proof.Machine
end

section
/-!
The baton and the accumulator banks (O34, O35).

A grant of ACCALLOC writes the handle to the V register that the instruction names (R335); the register becomes U, gives up its row, and memory
stays as it was. The statement about banks takes any fields. Where they name a pair as the destination, which the decoder never gives ACCALLOC,
`Cohort.granted` writes no register and `State.settleOpnd` still settles both of the pair: a G register that obtains no row goes to the spill area
(R58), which is memory. What the statement lacks is that the destination is a V register.
-/

namespace Sys2Proof.Machine

set_option Elab.async false

/-! ### The baton (R153, R354, R358) -/

/-- BTAKE by who holds the baton (R358). -/
theorem exec_btake (s : State) {c : Cohort} {f : Fields} (hc : s.me? = some c) (hm : c.writeMask f ≠ 0) :
    exec (.btake f) s = if (s.core c.core).baton = some c.cid then raiseR s c 10 9
      else if (s.core c.core).baton = none then finish (s.setCore { s.core c.core with baton := some c.cid }) c else waitFor s c .baton := by
  change execBtake f s = _
  simp only [execBtake, withMe_some s c _ hc, if_neg hm, State.holdsBaton, beq_iff_eq]
  cases (s.core c.core).baton <;> rfl

/-- BPASS by who holds the baton (R354). -/
theorem exec_bpass (s : State) {c : Cohort} {f : Fields} (hc : s.me? = some c) (hm : c.writeMask f ≠ 0) :
    exec (.bpass f) s = if (s.core c.core).baton = some c.cid then finish (s.passBaton c.core) { c with latch := none } else raiseR s c 10 10 := by
  change execBpass f s = _
  simp only [execBpass, withMe_some s c _ hc, if_neg hm, State.holdsBaton, beq_iff_eq]

theorem State.passBaton_of_no_taker (s : State) (core : Nat) (h : s.takers core = []) :
    s.passBaton core = s.setCore { s.core core with baton := none } := by
  rw [State.passBaton, h]
  rfl

/-- The best taker holds the baton that is passed, and memory stays (R153). -/
theorem State.passBaton_to_best (s : State) (core : Nat) {b : Cohort} (h : bestBy Cohort.ranksAbove (s.takers core) = some b) :
    ((s.passBaton core).core core).baton = some b.cid ∧ (s.passBaton core).mem = s.mem := by
  rw [State.passBaton, h]
  exact ⟨congrArg CoreState.baton (State.core_setCore_of_core _ { s.core core with baton := some b.cid } core (s.core_core core)), rfl⟩

/-- Settles O34, by who holds the baton and whether another cohort waits for it. -/
theorem batonMoves : Obligations.BatonMoves := by
  unfold Obligations.BatonMoves
  intro s c f hc hm
  rw [exec_btake s hc hm, exec_bpass s hc hm]
  refine ⟨fun free => ?_, fun k held other => ?_, fun mine => ?_, fun other => ?_, fun mine alone => ?_, fun b mine best _ => ?_⟩
  · rw [free, if_neg (Option.some_ne_none _).symm, if_pos rfl]
    rfl
  · rw [held, if_neg fun same => other (Option.some.inj same), if_neg (Option.some_ne_none k)]
    rfl
  · exact if_pos mine
  · exact if_neg other
  · rw [if_pos mine, s.passBaton_of_no_taker _ alone]
    rfl
  · rw [if_pos mine]
    exact ⟨_, rfl, s.passBaton_to_best c.core best⟩

/-! ### A grant that reaches memory (R58, R150, R335) -/

/-- The fields of an ACCALLOC of one bank with a pair as its destination. -/
def pairAlloc : Fields := { Fields.bare with od := .pair 0, oa := .imm 1 }

/-- The cohort of `pairGrant` before it asks: register 0 is G, no row is promised to it, and its spill area begins where the tile window does. -/
def pairAsker : Cohort := { pairTaker with wait := .none }

/-- Its turn, with every bank of core 0 free. -/
def pairAsks : State := { pairGrant with cohorts := [pairAsker, rowHolder], cores := [], cur := some 0 }

/-- The same machine once the request stands in the queue of core 0. -/
def pairAsked : State :=
  { pairGrant with cohorts := [{ pairTaker with waitSeq := pairAsks.fresh }, rowHolder], cur := some 0, fresh := pairAsks.fresh + 1 }

theorem exec_accalloc_pairAsks : exec (.accalloc pairAlloc) pairAsks = .next (pairAsked.grantBanks 0) := rfl

/-- The grant spills register 0 of the pair into tile memory. -/
theorem grantBanks_pairAsked_spills : memByte (pairAsked.grantBanks 0).mem (tileKey 0 0) = 5 := by decide +kernel

/-- Refutes O35: in `pairAsks` the request is granted at once, and ACCALLOC leaves other memory than it found. -/
theorem not_banksAreGranted : ¬ Obligations.BanksAreGranted := by
  unfold Obligations.BanksAreGranted
  intro h
  obtain ⟨alloc, -⟩ := h pairAsks pairAsker pairAlloc (CoreState.init 0) rfl (by decide) rfl rfl
  obtain ⟨t, d, run, mem, -⟩ := alloc 1 rfl le_rfl (by decide) rfl (by decide)
  have granted : pairAsked.grantBanks 0 = t := Host.Outcome.next.inj (exec_accalloc_pairAsks.symm.trans run)
  have spilled := grantBanks_pairAsked_spills
  rw [granted, mem] at spilled
  exact absurd spilled (by decide)

end Sys2Proof.Machine
end

section
/-!
MMA, MBATCH and MWAIT (O41).
-/

namespace Sys2Proof.Machine

set_option Elab.async false

/-! ### MMA (R144, R151, R413, R414) -/

/-- A command of a cohort that is no twin, or of a twin without store windows, goes on (R297). -/
theorem indigoClose_of_open (s : State) {c : Cohort} (k : Cohort → Out) (h : c.role = .single ∨ c.windows = []) : indigoClose s c k = k c := if_pos h

/-- A step whose lines all lie in the window passes R414's check of them. -/
theorem stepLines_inside {tr : Bool} {st lines : Nat} (h : ∀ n ∈ stepLines tr st, n < lines) :
    ((stepLines tr st).any fun n => lines ≤ n) = false :=
  List.any_eq_false.2 fun n hn => by simpa using h n hn

/-- The step that an MMA asks for, with its operands captured as R144 says. -/
def mmaStep (s : State) (c : Cohort) (f : Fields) (bank : Nat) (d : Word) : Mma :=
  { seq := s.fresh, cid := c.cid, wg := c.wg, ctx := c.ctx, batch := none, bank := bank, typA := (mmaTypes f).1, typB := (mmaTypes f).2,
    tr := f.sub.getLsbD 0, step := (s.opnd c f f.oc (elect (c.writeMask f))).toNat, lanes := c.writeMask f,
    aVals := (List.range 64).map fun i => lane64 (c.reg (opndIndex f.oa), c.reg (opndIndex f.oa + 1)) i,
    aScales := if isMx f.typ then (List.range 64).map fun i => bitsOf ((s.src c f f.oe).lane i).toNat 7 0 else [],
    line0 := (s.regionOf c).1 + descBase d, ilv := descIlv d, soff := descSoff d, place := c.place, pc := c.here.pc,
    pre := (s.core c.core).wc.map (·.line) }

/-- AN MMA WHOSE CHECKS PASS (R414) puts its step at the end of its core's queue. -/
theorem exec_mma (s : State) {c : Cohort} {f : Fields} {bank : Nat} {d : Word} (hc : s.me? = some c) (hm : c.writeMask f ≠ 0)
    (baton : (s.core c.core).baton = some c.cid) (handle : c.handleOk (opndIndex f.od) = true)
    (named : (s.banksOf c)[bitsOf ((c.reg (opndIndex f.od + 1)).lane (elect (c.writeMask f))).toNat 4 0]? = some bank)
    (tile : c.tileOf f.ob = some d)
    (lines : ∀ n ∈ stepLines (f.sub.getLsbD 0) (s.opnd c f f.oc (elect (c.writeMask f))).toNat, n < descLines d)
    (scales : isMx f.typ = true → descSoff d ≠ 0 ∧
      descBase d + descSoff d + (scaleByte f.typ (s.opnd c f f.oc (elect (c.writeMask f))).toNat + 31) / 128 < (s.regionOf c).2)
    (room : (s.core c.core).mmaQ.length < 64) (ready : s.holdsWrite c.cid = false) (twin : c.role = .single ∨ c.windows = []) :
    exec (.mma f) s = finish
      { s.setCore { s.core c.core with mmaQ := (s.core c.core).mmaQ ++ [mmaStep s c f bank d] } with fresh := s.fresh + 1 }
      { c with latch := if f.ru then some (BitVec.ofNat 8 (opndIndex f.oa)) else none } := by
  have holds : s.holdsBaton c = true := beq_iff_eq.2 baton
  have placed : ¬ (isMx f.typ = true ∧ descSoff d = 0) := fun ⟨mx, zero⟩ => (scales mx).1 zero
  have inside : ¬ (isMx f.typ = true ∧ (s.regionOf c).2 ≤
      descBase d + descSoff d + (scaleByte f.typ (s.opnd c f f.oc (elect (c.writeMask f))).toNat + 31) / 128) :=
    fun ⟨mx, out⟩ => Nat.not_lt.2 out (scales mx).2
  have passes : (decide (64 ≤ (s.core c.core).mmaQ.length) || s.holdsWrite c.cid) = false := by
    rw [ready, Bool.or_false, decide_eq_false_iff_not]
    omega
  have inWindow := stepLines_inside lines
  change execMma f s = _
  unfold State.opnd at inside inWindow
  simp only [execMma, withMe_some s c _ hc, if_neg hm, holds, handle, named, tile, State.atElected, inWindow, if_neg placed, if_neg inside, passes,
    Bool.true_eq_false, Bool.false_eq_true, if_false, indigoClose_of_open s _ twin]
  rfl

theorem exec_mma_without_baton (s : State) {c : Cohort} {f : Fields} (hc : s.me? = some c) (hm : c.writeMask f ≠ 0)
    (other : (s.core c.core).baton ≠ some c.cid) : exec (.mma f) s = .next (s.raiseReason c 10 1) := by
  have holds : s.holdsBaton c = false := beq_eq_false_iff_ne.2 other
  change execMma f s = _
  simp only [execMma, withMe_some s c _ hc, if_neg hm, holds, if_true]
  rfl

/-! ### Batches (R156, R157, R411, R419) -/

/-- A cohort's steps of the open batch, given a number. -/
def Mma.closedBy (cid : Nat) (n : BitVec 16) (m : Mma) : Mma := if m.cid = cid ∧ m.batch = none then { m with batch := some n } else m

/-- No step of the cohort is left in the open batch. -/
theorem Mma.closedBy_batch (cid : Nat) (n : BitVec 16) (m : Mma) (h : (m.closedBy cid n).cid = cid) : (m.closedBy cid n).batch ≠ none := by
  unfold Mma.closedBy at h ⊢
  split
  · exact Option.some_ne_none n
  · next left =>
    rw [if_neg left] at h
    exact fun none => left ⟨h, none⟩

theorem exec_mbatch (s : State) {c : Cohort} {f : Fields} (hc : s.me? = some c) (hm : c.writeMask f ≠ 0) (room : (s.openBatches c).length < 16) :
    exec (.mbatch f) s = finish (s.setCore { s.core c.core with mmaQ := (s.core c.core).mmaQ.map (Mma.closedBy c.cid (c.lastBatch + 1)) })
      (({ c with lastBatch := c.lastBatch + 1, closed := s.openBatches c ++ [c.lastBatch + 1] } : Cohort).putUniformOpt f.od
        ((c.lastBatch + 1).setWidth 32)) := by
  change execMbatch f s = _
  simp only [execMbatch, withMe_some s c _ hc, if_neg hm, if_neg (Nat.not_le.2 room)]
  rfl

/-- MWAIT by the number it waits for: not yet closed, closed and not complete, or complete (R157). -/
theorem exec_mwait (s : State) {c : Cohort} {f : Fields} {n : BitVec 16} (hc : s.me? = some c) (hm : c.writeMask f ≠ 0)
    (hn : n = (s.opnd c f f.oa (elect (c.writeMask f))).setWidth 16) :
    exec (.mwait f) s = if 1 ≤ (n - c.lastBatch).toNat ∧ (n - c.lastBatch).toNat < 2 ^ 15 then raiseR s c 10 11
      else if ∃ b ∈ s.openBatches c, (n - b).toNat < 2 ^ 15 then waitHere s c else finish s { c with closed := s.openBatches c } := by
  subst hn
  change execMwait f s = _
  simp only [execMwait, withMe_some s c _ hc, if_neg hm, List.any_eq_true, decide_eq_true_eq]
  rfl

/-- Settles O41, instruction by instruction. -/
theorem matrixInstructions : Obligations.MatrixInstructions := by
  unfold Obligations.MatrixInstructions
  intro s c f hc hm
  refine ⟨fun bank d baton handle named tile lines scales room ready twin => ?_, exec_mma_without_baton s hc hm, fun room => ?_, fun n hn => ?_⟩
  · refine ⟨_, mmaStep s c f bank d, exec_mma s hc hm baton handle named tile lines scales room ready twin, rfl, rfl, rfl, rfl, rfl, rfl, rfl, rfl,
      rfl, fun i hi => ?_⟩
    simp only [mmaStep, List.getElem?_map, List.getElem?_range hi]
    rfl
  · refine ⟨_, exec_mbatch s hc hm room, rfl, fun m hq own => ?_⟩
    have queue := State.core_setCore_of_core s
      { s.core c.core with mmaQ := (s.core c.core).mmaQ.map (Mma.closedBy c.cid (c.lastBatch + 1)) } c.core (s.core_core c.core)
    rw [queue] at hq
    obtain ⟨q, -, rfl⟩ := List.mem_map.1 hq
    exact q.closedBy_batch _ _ own
  · rw [exec_mwait s hc hm hn]
    refine ⟨fun low high => if_pos ⟨low, high⟩, fun reached => ?_⟩
    rw [if_neg fun ahead => by omega]
    refine ⟨fun waits => if_pos waits, fun done => if_neg ?_⟩
    rintro ⟨b, hb, early⟩
    exact Nat.not_lt.2 (done b hb) early

end Sys2Proof.Machine
end

section
/-!
RCOPY, EPI and COLL (O43). Reaching a command's counter changes no operand that is read after it, so an RCOPY finds its rank and core as they were;
the address of a counter that is reached lies below bit 53.
-/

namespace Sys2Proof.Machine

set_option Elab.async false

/-! ### The counter of a command (R166, R174) -/

/-- An address that translates has bits [63:53] clear (R96). -/
theorem State.xlat_low {s : State} {p : XPort} {core key : Nat} {x : Ctx} {acc : Acc} {va : DWord} {mt : BitVec 2} {leaf : Option TlbEntry}
    {tile : Bool} (h : s.xlat p core x acc va = .ok key mt leaf tile) : va.toNat < 2 ^ 53 := by
  by_contra high
  simp only [State.xlat, if_pos (Nat.not_lt.1 high)] at h
  cases h

/-- The state in which a command whose counter has been reached goes on (R114, R120). -/
def State.counterReached (s : State) (c : Cohort) (x : Ctx) (ca : DWord) (r : Xlat) : State :=
  (s.touch (.die (dieOf c.core)) x ca r).unpin c ca.toNat

theorem State.counterReached_engineReads (s : State) (c : Cohort) (x : Ctx) (ca : DWord) (r : Xlat) : s.engineReads (s.counterReached c x ca r) :=
  (s.touch_engineReads _ x ca r).trans (State.unpin_unpins _ c ca.toNat).engineReads

theorem State.engineReads.rankPresent {s t : State} (h : s.engineReads t) (r : Nat) : t.rankPresent r = s.rankPresent r := by
  rw [h]
  rfl

theorem State.setLeaf_die (s : State) (leaf : Nat) (bits : Byte) (k : Nat) : (s.setLeaf leaf bits).die k = s.die k := by
  unfold State.setLeaf
  dsimp only
  split <;> rfl

/-- A die that keeps a translation keeps its $LQVER. -/
theorem State.keepTranslation_lqver (s : State) (d k : Nat) (x : Ctx) (va : Nat) (e : TlbEntry) :
    ((s.keepTranslation (.die d) x va e).die k).lqver = (s.die k).lqver := by
  have kept (w : List TlbEntry) : (s.setDie { s.die d with walk := w }).die d = { s.die d with walk := w } :=
    (setDie_reads s d { s.die d with walk := w } (s.die_die d)).2
  simp only [State.keepTranslation]
  split
  · rfl
  · by_cases same : k = d
    · subst same
      rw [kept]
    · exact congrArg DieState.lqver (s.die_setDie_other _ k fun h => same (h.trans (s.die_die d)))

theorem State.touch_lqver (s : State) (d k : Nat) (x : Ctx) (va : DWord) (r : Xlat) :
    ((s.touch (.die d) x va r).die k).lqver = (s.die k).lqver := by
  have noted : ((s.noteXlat (.die d) x va r).die k).lqver = (s.die k).lqver := by
    rw [(s.noteXlat_touches (fun _ => false) (.die d) x va r).frame]
    rfl
  unfold State.touch
  split
  · next key mt e tile =>
    rw [State.setLeaf_die, State.keepTranslation_lqver]
    exact noted
  · exact noted

/-- Operands read the same values before the counter is reached and after it. -/
theorem State.counterReached_src (s : State) (c : Cohort) (x : Ctx) (ca : DWord) (r : Xlat) (f : Fields) (o : Opnd) :
    (s.counterReached c x ca r).src c f o = s.src c f o := by
  have lqver (k : Nat) : ((s.counterReached c x ca r).die k).lqver = (s.die k).lqver := by
    rw [State.counterReached, State.unpin_unpins _ c ca.toNat]
    exact s.touch_lqver _ k x ca r
  generalize ht : s.counterReached c x ca r = t at lqver
  have reads : s.engineReads t := ht ▸ s.counterReached_engineReads c x ca r
  have cores : t.idCore c = s.idCore c := by
    rw [reads]
    rfl
  have rank : t.pkgRank = s.pkgRank := by rw [reads]
  have generation : t.mgen = s.mgen := by rw [reads]
  simp only [State.src, State.special, cores, rank, generation, lqver]

/-! ### What COLL looks for among the collectives and the jobs (R184) -/

/-- COLL finds no collective of the workgroup under its index, and so replaces none (R184). -/
theorem colls_without {colls : List Coll} {wg index : Nat} (h : (colls.any fun k => k.wg == wg && k.index == index) = false) :
    colls.find? (fun k => k.wg == wg && k.index == index) = none ∧ colls.filter (fun k => !(k.wg == wg && k.index == index)) = colls := by
  have other := List.any_eq_false.1 h
  exact ⟨List.find?_eq_none.2 other, List.filter_eq_self.2 fun k hk => by rw [Bool.eq_false_of_not_eq_true (other k hk)]; rfl⟩

/-- A job that joins the jobs is found there. -/
theorem find_job_appended (jobs : List Job) {j : Job} {id : Nat} (h : j.id = id) : ((jobs ++ [j]).find? (·.id == id)).isNone = false := by
  have found : ((jobs ++ [j]).find? (·.id == id)).isSome = true :=
    List.find?_isSome.2 ⟨j, List.mem_append_right jobs (List.mem_singleton_self j), beq_iff_eq.2 h⟩
  rw [← Option.not_isSome, found]
  rfl

/-! ### The object of a collective (R181, R339) -/

theorem State.noteLines_frame (as : List Nat) (s : State) :
    as.foldl (fun t a => t.noteLine a 0 0) s = { s with l2 := (as.foldl (fun t a => t.noteLine a 0 0) s).l2 } := by
  induction as generalizing s with
  | nil => rfl
  | cons a as ih =>
    rw [List.foldl_cons, ih, s.noteLine_frame]

/-- The walk that a translation makes is noted in L2 alone (R115). -/
theorem State.noteXlat_frame (s : State) (k : Nat) (x : Ctx) (va : DWord) (r : Xlat) :
    s.noteXlat (.core k) x va r = { s with l2 := (s.noteXlat (.core k) x va r).l2 } := by
  have walked : s.noteWalk (.core k) x va.toNat = { s with l2 := (s.noteWalk (.core k) x va.toNat).l2 } := by
    simp only [State.noteWalk]
    split
    · rfl
    · exact State.noteLines_frame _ s
  unfold State.noteXlat
  split
  · rfl
  · split
    · exact walked
    · rfl
  · exact walked

/-- A translation does not look at L2 (R115). -/
theorem State.xlat_of_l2 {s t : State} (h : t = { s with l2 := t.l2 }) (k core : Nat) (x : Ctx) (acc : Acc) (va : DWord) :
    t.xlat (.core k) core x acc va = s.xlat (.core k) core x acc va := by
  have mem : t.mem = s.mem := by rw [h]
  have poison : t.poison = s.poison := by rw [h]
  have held (k : Nat) : t.core k = s.core k ∧ t.quad k = s.quad k := by
    rw [h]
    exact ⟨rfl, rfl⟩
  have walk (a : Nat) : t.walk (.core k) x a = s.walk (.core k) x a := by
    simp only [State.walk, held, walkLevels_congr mem poison]
  simp only [State.xlat, walk]

/-- AN OBJECT IS REACHED for an access that writes it and neither reads it nor drops its line (R339), whatever comes after. -/
theorem reachObject_of_objectAt {s : State} {c : Cohort} {x : Ctx} {va : DWord} {key : Nat} (l : Nat) (h : s.objectAt c x va key)
    (stores : ∀ g r, s.xlat (.core c.core) c.core x .store va ≠ .fault g r) :
    ∃ t r, s.plainAccess t ∧ r.key = key ∧ ∀ k, reachObject s c x ⟨true, false, false⟩ l va k = k t r := by
  obtain ⟨low, aligned, free, leaf, tile, found, -⟩ := h
  have reached := (s.touch_touches c.core x va (.ok key 0 leaf tile)).trans (State.unpin_touches _ _ c va.toNat)
  refine ⟨if tile then (s.touch (.core c.core) x va (.ok key 0 leaf tile)).unpin c va.toNat
    else ((s.touch (.core c.core) x va (.ok key 0 leaf tile)).unpin c va.toNat).noteLine key 0 0, .ok key 0 leaf tile, ?_, rfl, fun k => ?_⟩
  · cases tile with
    | true => exact reached.plainAccess
    | false => exact (reached.trans (State.noteLine_touches _ _ key 0 0)).plainAccess
  · have store := State.xlat_of_l2 (s.noteXlat_frame c.core x va (.ok key 0 leaf tile)) c.core c.core x .store va
    have taken : (s.noteXlat (.core c.core) x va (.ok key 0 leaf tile)).wordTaken c.cid key 32 = false := by
      rw [s.noteXlat_frame]
      exact free
    have in53 : ¬ 2 ^ 53 ≤ va.toNat := Nat.not_le.2 low
    -- that the store does not fault, `stores`, leaves one branch of its translation
    simp only [reachObject, found, in53, aligned, ne_eq, not_true, or_self, if_false, if_true, store, taken, Bool.and_false, Bool.false_and,
      Bool.false_eq_true]

/-! ### RCOPY, EPI and COLL (R158, R175, R184, R370, R378, R379, R431) -/

section Commands

variable {s : State} {c : Cohort} {x : Ctx} {f : Fields} {d : Word} (hc : s.me? = some c) (hx : s.ctx? c.ctx = some x) (hr : c.role = .single)
  (ready : s.holdsWrite c.cid = false) (hm : c.writeMask f ≠ 0)

include hc hx ready hm

/-- RCOPY of the communication cohort (R431). -/
theorem exec_rcopy_accepted (ca : DWord) (key n : Nat) (leaf : Option TlbEntry) (tile : Bool) (dest : c.tileOf f.od = some d)
    (comm : s.isComm c = some true) (hca : ca = c.opnd64 f f.oc (elect (c.writeMask f))) (aligned : ca.toNat % 8 = 0)
    (hn : n = bitsOf f.imm.toNat 18 13 + 1) (fits : n ≤ descLines d) (plain : descIlv d = 0)
    (reach : s.xlat (.die (c.core / 96)) c.core x .store ca = .ok key 0 leaf tile)
    (rank : s.rankPresent (s.opnd c f f.oa (elect (c.writeMask f))).toNat = true) (core : (s.opnd c f f.ob (elect (c.writeMask f))).toNat < 1536)
    (line : bitsOf f.imm.toNat 12 0 + n ≤ 6144) (room : s.boardFull c.core = false) :
    ∃ (t : State) (j : Job), exec (.rcopy f) s = .next (t.setCohort ({ c with jobSeq := c.jobSeq + 1 } : Cohort).complete) ∧ t.jobs = s.jobs ++ [j] ∧
      j.kind = .rcopy ∧ j.srcRank = (s.opnd c f f.oa (elect (c.writeMask f))).toNat ∧ j.srcCore = (s.opnd c f f.ob (elect (c.writeMask f))).toNat ∧
      j.srcLine = bitsOf f.imm.toNat 12 0 ∧ j.nlines = n ∧ j.line0 = (s.regionOf c).1 + descBase d ∧ j.ctrPa = key := by
  have addresses : badAddress [(ca, 3)] = none := badAddress_of_good (List.forall_mem_singleton.2 ⟨aligned, State.xlat_low reach⟩)
  have reads := s.counterReached_engineReads c x ca (.ok key 0 leaf tile)
  have operands := s.counterReached_src c x ca (.ok key 0 leaf tile) f
  have source : ¬ (s.rankPresent ((s.src c f f.oa).lane (elect (c.writeMask f))).toNat = false ∨
      1536 ≤ ((s.src c f f.ob).lane (elect (c.writeMask f))).toNat ∨ 6144 < bitsOf f.imm.toNat 12 0 + n) := by
    rintro (absent | far | past)
    · exact absurd (rank.symm.trans absent) (by decide)
    · exact Nat.not_lt.2 far core
    · exact Nat.not_lt.2 line past
  -- `Cohort.opnd64` in the elected lane is the command's own `addrElected`
  change ca = c.addrElected f f.oc _ at hca
  change ∃ t j, execRcopy f s = _ ∧ _
  rw [execRcopy, withMe_some s c _ hc, withCtx_some s c x _ hx]
  simp only [← hca, ← hn, if_neg hm, comm, addresses, dest, if_neg (Nat.not_lt.2 fits), plain, ne_eq, not_true, false_and, if_false, ready,
    Bool.false_eq_true, reachCounter_of_xlat _ _ reach]
  rw [← State.counterReached]
  simp only [State.atElected, operands, reads.rankPresent, if_neg source]
  obtain ⟨t, accepted, jobs⟩ := acceptJob_of_room ((reads.boardFull c.core).trans room) _ _ _ _
  exact ⟨t, _, accepted, reads.jobs ▸ jobs, rfl, rfl, rfl, rfl, rfl, rfl, rfl⟩

include hr

/-- EPI to a tile register (R378, R379). -/
theorem exec_epi_accepted (ctl bank key : Nat) (ca : DWord) (leaf : Option TlbEntry) (tile : Bool) (dest : c.tileOf f.od = some d)
    (hctl : ctl = ((c.reg (opndIndex f.oa + 1)).lane (elect (c.writeMask f))).toNat) (noBias : bitsOf ctl 5 5 = 0)
    (handle : c.handleOk (opndIndex f.oa) = true) (named : (s.banksOf c)[bitsOf ctl 4 0]? = some bank) (mx : isMx f.typ = false)
    (fits : c.width * epiRowBytes f.typ ≤ descLines d * 128) (hca : ca = c.opnd64 f f.oe (elect (c.writeMask f))) (aligned : ca.toNat % 8 = 0)
    (reach : s.xlat (.die (c.core / 96)) c.core x .store ca = .ok key 0 leaf tile) (room : s.boardFull c.core = false) :
    ∃ (t : State) (j : Job) (e : EpiOps), exec (.epi f) s = .next (t.setCohort ({ c with jobSeq := c.jobSeq + 1 } : Cohort).complete) ∧
      t.jobs = s.jobs ++ [j] ∧ j.kind = .epiTile ∧ j.epi = some e ∧ e.bank = bank ∧ e.typ = f.typ ∧ e.rnd = f.rnd ∧ e.zero = f.sub.getLsbD 0 ∧
      e.rows = c.width ∧ e.bias = none ∧ j.line0 = (s.regionOf c).1 + descBase d ∧ j.ctrPa = key ∧ j.total = c.width := by
  have addresses : badAddress [(ca, 3)] = none := badAddress_of_good (List.forall_mem_singleton.2 ⟨aligned, State.xlat_low reach⟩)
  have reads := s.counterReached_engineReads c x ca (.ok key 0 leaf tile)
  change ca = c.addrElected f f.oe _ at hca
  change ∃ t j e, epiCommand f s false = _ ∧ _
  rw [epiCommand, withMe_some s c _ hc, withCtx_some s c x _ hx]
  simp only [← hca, ← hctl, if_neg hm, handle, named, noBias, dest, mx, Nat.not_lt.2 fits, addresses, ready, Option.map_some, Option.getD_some,
    Bool.true_eq_false, Bool.false_eq_true, zero_ne_one, if_false, reduceCtorEq, and_false, false_and, or_self, List.nil_append,
    indigoClose_of_single s _ hr, reachCounter_of_xlat _ _ reach]
  rw [← State.counterReached]
  obtain ⟨t, accepted, jobs⟩ := acceptJob_of_room ((reads.boardFull c.core).trans room) _ _ _ _
  exact ⟨t, _, _, accepted, reads.jobs ▸ jobs, rfl, rfl, rfl, rfl, rfl, rfl, rfl, rfl, rfl, rfl, rfl⟩

/-- EPI through a tensor layout record (R378, R380): the record is read before the counter is reached. -/
theorem exec_epiRec_accepted (ctl bank key : Nat) (ca ra : DWord) (bs : List Byte) (s1 : State) (leaf : Option TlbEntry) (tile : Bool)
    (hctl : ctl = ((c.reg (opndIndex f.oa + 1)).lane (elect (c.writeMask f))).toNat) (noBias : bitsOf ctl 5 5 = 0)
    (handle : c.handleOk (opndIndex f.oa) = true) (named : (s.banksOf c)[bitsOf ctl 4 0]? = some bank)
    (hra : ra = c.opnd64 f f.od (elect (c.writeMask f))) (hca : ca = c.opnd64 f f.oe (elect (c.writeMask f))) (record : ra.toNat % 64 = 0)
    (low : ra.toNat < 2 ^ 53) (counter : ca.toNat % 8 = 0) (stores : s.combining c.core x ra.toNat 96 = false)
    (read : s.vaRead (.die (c.core / 96)) c.core x ra.toNat 96 = .ok (bs, s1)) (good : recReject false bs = none) (typ : (recOf bs).typ = f.typ)
    (reach : s1.xlat (.die (c.core / 96)) c.core x .store ca = .ok key 0 leaf tile) (room : s.boardFull c.core = false) :
    ∃ (t : State) (j : Job) (e : EpiOps), exec (.epiRec f) s = .next (t.setCohort ({ c with jobSeq := c.jobSeq + 1 } : Cohort).complete) ∧
      t.jobs = s.jobs ++ [j] ∧ j.kind = .epiRec ∧ j.epi = some e ∧ e.bank = bank ∧ j.trec = some (recOf bs) ∧ j.recAddr = ra ∧ j.ctrPa = key ∧
      j.total = 32 * c.width := by
  have unpinned := s1.unpinRun_unpins c ra.toNat 96
  rw [← unpinned.xlat] at reach
  have addresses : badAddress ([(ra, 6)] ++ [(ca, 3)]) = none :=
    badAddress_of_good (List.forall_mem_cons.2 ⟨⟨record, low⟩, List.forall_mem_singleton.2 ⟨counter, State.xlat_low reach⟩⟩)
  have reads := ((State.vaRead_engineReads read).trans unpinned.engineReads).trans
    (State.counterReached_engineReads (s1.unpinRun c ra.toNat 96) c x ca (.ok key 0 leaf tile))
  change ra = c.addrElected f f.od _ at hra
  change ca = c.addrElected f f.oe _ at hca
  change ∃ t j e, epiCommand f s true = _ ∧ _
  rw [epiCommand, withMe_some s c _ hc, withCtx_some s c x _ hx]
  simp only [← hca, ← hra, ← hctl, if_neg hm, handle, named, noBias, addresses, ready, Bool.true_eq_false, Bool.false_eq_true, zero_ne_one, if_false,
    if_true, false_and, or_self, indigoClose_of_single s _ hr, readRecord_of_read _ _ stores read, good, typ, ne_eq, not_true,
    reachCounter_of_xlat _ _ reach]
  rw [← State.counterReached]
  obtain ⟨t, accepted, jobs⟩ := acceptJob_of_room ((reads.boardFull c.core).trans room) _ _ _ _
  exact ⟨t, _, _, accepted, reads.jobs ▸ jobs, rfl, rfl, rfl, rfl, rfl, rfl, rfl⟩

/-- The first COLL of an index, by a cohort that is not the communication cohort: a collective begins that waits for its operands (R184). -/
theorem exec_coll_counted (comm : s.isComm c = some false) (new : (s.colls.any fun k => k.wg == c.wg && k.index == c.colls) = false) :
    ∃ (t : State) (k : Coll), exec (.coll f) s = .next (t.setCohort ({ c with colls := c.colls + 1 } : Cohort).complete) ∧ t.colls = s.colls ++ [k] ∧
      k.wg = c.wg ∧ k.index = c.colls ∧ k.issued = [c.cid] ∧ k.ready = false ∧ t.mem = s.mem := by
  obtain ⟨found, kept⟩ := colls_without new
  change ∃ t k, execColl f s = _ ∧ _
  rw [execColl, withMe_some s c _ hc, withCtx_some s c x _ hx]
  simp only [if_neg hm, comm, ready, Bool.false_eq_true, if_false, indigoClose_of_single s _ hr, found, Option.getD_none, id, kept, Bool.false_and]
  exact ⟨_, _, rfl, rfl, rfl, rfl, rfl, rfl, rfl⟩

/-- The first COLL of an index, by the communication cohort, which gives the operands: the collective is ready, and its job keeps it (R184,
R187). -/
theorem exec_coll_ready (va : DWord) (key : Nat) (dest : c.tileOf f.od = some d) (comm : s.isComm c = some true)
    (hva : va = c.opnd64 f f.oa (elect (c.writeMask f))) (object : s.objectAt c x va key)
    (stores : ∀ g r, s.xlat (.core c.core) c.core x .store va ≠ .fault g r)
    (new : (s.colls.any fun k => k.wg == c.wg && k.index == c.colls) = false) :
    ∃ (t : State) (k : Coll), exec (.coll f) s = .next (t.setCohort ({ c with colls := c.colls + 1, jobSeq := c.jobSeq + 1 } : Cohort).complete) ∧
      t.colls = s.colls ++ [k] ∧ k.ready = true ∧ k.sub = f.sub.toNat ∧ k.typ = f.typ ∧ k.objVa = va ∧ k.objPa = key ∧ k.nlines = descLines d ∧
      k.line0 = (s.regionOf c).1 + descBase d ∧ k.issued = [c.cid] := by
  obtain ⟨found, kept⟩ := colls_without new
  obtain ⟨t, r, access, place, reached⟩ := reachObject_of_objectAt (elect (c.writeMask f)) object stores
  have colls : t.colls = s.colls := by rw [access]
  have region : t.regionOf c = s.regionOf c := by
    rw [access]
    rfl
  change va = c.addrElected f f.oa _ at hva
  change ∃ t k, execColl f s = _ ∧ _
  rw [execColl, withMe_some s c _ hc, withCtx_some s c x _ hx]
  simp only [← hva, if_neg hm, comm, dest, ready, Bool.false_eq_true, if_false, indigoClose_of_single s _ hr, reached, colls, found, Option.getD_none,
    kept, region, place, State.job?, find_job_appended, Bool.and_false, Bool.false_and]
  exact ⟨_, _, rfl, rfl, rfl, rfl, rfl, rfl, rfl, rfl, rfl, rfl⟩

end Commands

/-- Settles O43, command by command: the checks pass one after the other, each in the state that the reads before it left. -/
theorem otherCommands : Obligations.OtherCommands := by
  unfold Obligations.OtherCommands
  intro s c x f d hc hx hr ready hm
  exact ⟨exec_rcopy_accepted hc hx ready hm, exec_epi_accepted hc hx hr ready hm, exec_epiRec_accepted hc hx hr ready hm,
    exec_coll_counted hc hx hr ready hm, exec_coll_ready hc hx hr ready hm⟩

end Sys2Proof.Machine
end

section
/-!
Flits (part of O56): what the bits of a flit read back as (R189).
-/

namespace Sys2Proof.Machine

set_option Elab.async false

/-! ### Fields of a number -/

/-- A field below bit `n` of a number is one of its lowest `n` bits. -/
theorem bitsOf_mod (x : Nat) {n hi lo : Nat} (inside : hi < n) (order : lo ≤ hi) : bitsOf (x % 2 ^ n) hi lo = bitsOf x hi lo := by
  have split : 2 ^ lo * 2 ^ (hi - lo + 1) = 2 ^ (hi + 1) := by rw [← Nat.pow_add]; congr 1; omega
  rw [bitsOf, bitsOf, ← Nat.mod_mul_right_div_self, ← Nat.mod_mul_right_div_self, split, Nat.mod_mod_of_dvd _ (Nat.pow_dvd_pow 2 inside)]

/-- A number below bit `a`, and one of `b` bits above it. -/
theorem add_mul_pow_lt {v c a b n : Nat} (low : v < 2 ^ a) (high : c < 2 ^ b) (bits : a + b = n) : v + c * 2 ^ a < 2 ^ n := calc
  v + c * 2 ^ a < (c + 1) * 2 ^ a := by rw [Nat.add_one_mul]; omega
  _ ≤ 2 ^ b * 2 ^ a := Nat.mul_le_mul_right _ high
  _ = 2 ^ n := by rw [← bits, Nat.pow_add, Nat.mul_comm]

theorem add_mul_pow_mod {v a : Nat} (low : v < 2 ^ a) (c : Nat) : (v + c * 2 ^ a) % 2 ^ a = v := by
  rw [Nat.add_mul_mod_self_right, Nat.mod_eq_of_lt low]

/-- The field above a number's lowest bits, where it holds all that is there. -/
theorem bitsOf_above {v c hi lo n : Nat} (low : v < 2 ^ lo) (high : c < 2 ^ n) (bits : hi - lo + 1 = n) : bitsOf (v + c * 2 ^ lo) hi lo = c := by
  rw [bitsOf, Nat.add_mul_div_right _ _ (Nat.two_pow_pos lo), Nat.div_eq_of_lt low, Nat.zero_add, bits, Nat.mod_eq_of_lt high]

theorem bitsOf_below (x : Nat) {hi n : Nat} (bits : hi + 1 = n) : bitsOf x hi 0 = x % 2 ^ n := by
  rw [bitsOf, Nat.pow_zero, Nat.div_one, Nat.sub_zero, bits]

/-- One field more of a packed number, by `rw`: the equation of a definition at a literal place would have the kernel compute with `2 ^ k`. -/
theorem foldl_packBits (acc k v : Nat) (fs : List (Nat × Nat)) : ((k, v) :: fs).foldl (fun acc f => acc + f.2 * 2 ^ f.1) acc =
    fs.foldl (fun acc f => acc + f.2 * 2 ^ f.1) (acc + v * 2 ^ k) := rfl

theorem toNat_ofNat_layers {v c a b n : Nat} (low : v < 2 ^ a) (high : c < 2 ^ b) (bits : a + b = n) :
    (BitVec.ofNat n (v + c * 2 ^ a)).toNat = v + c * 2 ^ a := by
  rw [BitVec.toNat_ofNat, Nat.mod_eq_of_lt (add_mul_pow_lt low high bits)]

/-- The bytes of the number that some bytes make are those bytes. -/
theorem natBytes_leNat (bs : List Byte) : natBytes bs.length (leNat bs) = bs := by
  induction bs with
  | nil => rfl
  | cons b bs ih =>
    have low : BitVec.ofNat 8 (b.toNat + 256 * leNat bs) = b := by
      apply BitVec.eq_of_toNat_eq
      rw [BitVec.toNat_ofNat, show 2 ^ 8 = 256 from rfl, Nat.add_mul_mod_self_left]
      exact Nat.mod_eq_of_lt b.isLt
    have high : (b.toNat + 256 * leNat bs) / 256 = leNat bs := by
      have := b.isLt
      omega
    rw [List.length_cons, leNat, natBytes, low, high, ih]

/-! ### CRC-32C -/

theorem crc32cByte_lt (acc b : Nat) (ha : acc < 2 ^ 32) (hb : b < 2 ^ 32) : crc32cByte acc b < 2 ^ 32 := by
  unfold crc32cByte
  generalize List.range 8 = steps
  have start : acc ^^^ b < 2 ^ 32 := Nat.xor_lt_two_pow ha hb
  generalize acc ^^^ b = a at start
  induction steps generalizing a with
  | nil => exact start
  | cons _ steps ih =>
    refine ih _ ?_
    have half : a / 2 < 2 ^ 32 := by omega
    dsimp only
    split
    · exact Nat.xor_lt_two_pow half (by decide)
    · exact half

/-- A function of two numbers, by cases of both. -/
theorem match_both (x y : Nat) (f : Nat → Nat → Nat) :
    (match x, y with
      | 0, 0 => f 0 0
      | 0, w + 1 => f (w + 1) 0
      | a + 1, 0 => f 0 (a + 1)
      | a + 1, w + 1 => f (w + 1) (a + 1)) = f y x := by
  cases x <;> cases y <;> rfl

theorem crc32cFrom_succ (n v acc : Nat) : crc32cFrom (n + 1) v acc = crc32cFrom n (v / 256) (crc32cByte acc (v % 256)) :=
  match_both (crc32cByte acc (v % 256)) (v / 256) (crc32cFrom n)

theorem crc32cFrom_lt (n v acc : Nat) (ha : acc < 2 ^ 32) : crc32cFrom n v acc < 2 ^ 32 := by
  induction n generalizing v acc with
  | zero => exact ha
  | succ n ih =>
    rw [crc32cFrom_succ]
    exact ih _ _ (crc32cByte_lt acc _ ha (by omega))

theorem crc32c_lt (n v : Nat) : crc32c n v < 2 ^ 32 := Nat.xor_lt_two_pow (crc32cFrom_lt n v _ (by decide)) (by decide)

/-! ### A flit (R189) -/

/-- The 64 bits before a flit's payload. -/
def flitHead (ft cls : Nat) (seq ack : BitVec 16) (xoff : BitVec 4) (len : Nat) : Nat :=
  ft + cls * 2 ^ 4 + seq.toNat * 2 ^ 8 + ack.toNat * 2 ^ 24 + xoff.toNat * 2 ^ 44 + (len - 1) * 2 ^ 56

/-- A flit's bits below its CRC. -/
def flitCovered (ft cls : Nat) (seq ack : BitVec 16) (xoff : BitVec 4) (data : List Byte) : Nat :=
  flitHead ft cls seq ack xoff data.length + leNat data * 2 ^ 64

section Flit
variable {ft cls : Nat} {seq ack : BitVec 16} {xoff : BitVec 4} {data : List Byte}
variable (hft : ft < 16) (hcls : cls < 4) (nonempty : 1 ≤ data.length) (fits : data.length ≤ flitBytes)
include fits

theorem leNat_data_lt : leNat data < 2 ^ (8 * flitBytes) := calc
  leNat data < 256 ^ data.length := leNat_lt data
  _ ≤ 256 ^ flitBytes := Nat.pow_le_pow_right (by decide) fits
  _ = 2 ^ (8 * flitBytes) := (Nat.pow_mul 2 8 flitBytes).symm

include hft hcls nonempty

theorem flitHead_lt : flitHead ft cls seq ack xoff data.length < 2 ^ 64 := by
  have hs := seq.isLt
  have ha := ack.isLt
  have hx := xoff.isLt
  unfold flitHead
  simp only [flitBytes] at fits
  omega

theorem flitCovered_lt : flitCovered ft cls seq ack xoff data < 2 ^ 2016 :=
  add_mul_pow_lt (flitHead_lt hft hcls nonempty fits) (leNat_data_lt fits) rfl

/-- A flit's bits: what its CRC covers, and the CRC above. -/
theorem flitOf_toNat : (flitOf ft cls seq ack xoff data).toNat =
    flitCovered ft cls seq ack xoff data + crc32c 252 (flitCovered ft cls seq ack xoff data) * 2 ^ 2016 := by
  have packed : packBits [(0, ft), (4, cls), (8, seq.toNat), (24, ack.toNat), (44, xoff.toNat), (56, data.length - 1), (64, leNat data)] =
      flitCovered ft cls seq ack xoff data := by
    rw [packBits, foldl_packBits, foldl_packBits, foldl_packBits, foldl_packBits, foldl_packBits, foldl_packBits, foldl_packBits, List.foldl_nil,
      pow_zero, Nat.mul_one, Nat.zero_add, flitCovered, flitHead]
  exact (congrArg (fun v => (BitVec.ofNat 2048 (v + crc32c 252 v * 2 ^ 2016)).toNat) packed).trans
    (toNat_ofNat_layers (flitCovered_lt hft hcls nonempty fits) (crc32c_lt 252 _) rfl)

theorem flitOf_mod_crc : (flitOf ft cls seq ack xoff data).toNat % 2 ^ 2016 = flitCovered ft cls seq ack xoff data :=
  (congrArg (· % 2 ^ 2016) (flitOf_toNat hft hcls nonempty fits)).trans (add_mul_pow_mod (flitCovered_lt hft hcls nonempty fits) _)

/-- A field of a flit's first 64 bits is that field of its head. -/
theorem flitField_head {hi lo : Nat} (inside : hi < 64) (order : lo ≤ hi) :
    flitField (flitOf ft cls seq ack xoff data) hi lo = bitsOf (flitHead ft cls seq ack xoff data.length) hi lo := calc
  flitField (flitOf ft cls seq ack xoff data) hi lo = bitsOf ((flitOf ft cls seq ack xoff data).toNat % 2 ^ 2016) hi lo :=
    (bitsOf_mod _ (Nat.lt_trans inside (by decide)) order).symm
  _ = bitsOf (flitCovered ft cls seq ack xoff data) hi lo := by rw [flitOf_mod_crc hft hcls nonempty fits]
  _ = bitsOf (flitCovered ft cls seq ack xoff data % 2 ^ 64) hi lo := (bitsOf_mod _ inside order).symm
  _ = bitsOf (flitHead ft cls seq ack xoff data.length) hi lo :=
    congrArg (bitsOf · hi lo) (add_mul_pow_mod (flitHead_lt hft hcls nonempty fits) _)

/-- The payload's bits. -/
theorem flitField_data : flitField (flitOf ft cls seq ack xoff data) 2015 64 = leNat data := calc
  flitField (flitOf ft cls seq ack xoff data) 2015 64 = bitsOf ((flitOf ft cls seq ack xoff data).toNat % 2 ^ 2016) 2015 64 :=
    (bitsOf_mod _ (by decide) (by decide)).symm
  _ = bitsOf (flitCovered ft cls seq ack xoff data) 2015 64 := by rw [flitOf_mod_crc hft hcls nonempty fits]
  _ = leNat data := bitsOf_above (flitHead_lt hft hcls nonempty fits) (leNat_data_lt fits) rfl

theorem flitCrcOk_flitOf : flitCrcOk (flitOf ft cls seq ack xoff data) = true := by
  have covered : flitField (flitOf ft cls seq ack xoff data) 2015 0 = flitCovered ft cls seq ack xoff data :=
    (bitsOf_below (n := 2016) _ rfl).trans (flitOf_mod_crc hft hcls nonempty fits)
  have crc : flitField (flitOf ft cls seq ack xoff data) 2047 2016 = crc32c 252 (flitCovered ft cls seq ack xoff data) :=
    (congrArg (bitsOf · 2047 2016) (flitOf_toNat hft hcls nonempty fits)).trans
      (bitsOf_above (n := 32) (flitCovered_lt hft hcls nonempty fits) (crc32c_lt 252 _) rfl)
  rw [flitCrcOk, covered, crc, beq_self_eq_true]

/-- A FLIT READS BACK AS IT WAS MADE (R189). -/
theorem flitOf_reads : flitField (flitOf ft cls seq ack xoff data) 3 0 = ft ∧ flitField (flitOf ft cls seq ack xoff data) 5 4 = cls ∧
    flitField (flitOf ft cls seq ack xoff data) 23 8 = seq.toNat ∧ flitField (flitOf ft cls seq ack xoff data) 39 24 = ack.toNat ∧
    flitField (flitOf ft cls seq ack xoff data) 47 44 = xoff.toNat ∧ flitPayload (flitOf ft cls seq ack xoff data) = data := by
  have hs := seq.isLt
  have ha := ack.isLt
  have hx := xoff.isLt
  have length : flitField (flitOf ft cls seq ack xoff data) 63 56 = data.length - 1 := by
    rw [flitField_head hft hcls nonempty fits (by decide) (by decide)]
    simp only [flitBytes] at fits
    simp only [bitsOf, flitHead]
    omega
  refine ⟨?_, ?_, ?_, ?_, ?_, ?_⟩
  case refine_6 =>
    have used : min flitBytes (data.length - 1 + 1) = data.length := by omega
    rw [flitPayload, length, used, flitField_data hft hcls nonempty fits, natBytes_leNat]
  all_goals
    rw [flitField_head hft hcls nonempty fits (by decide) (by decide)]
    simp only [flitBytes] at fits
    simp only [bitsOf, flitHead]
    omega

end Flit

end Sys2Proof.Machine
end

section
/-!
Fabric ports (part of O55 and O56): what leaves a port, one flit or one packet at a time (R189 to R192).
-/

namespace Sys2Proof.Machine

set_option Elab.async false

/-! ### One port changes -/

/-- Port `n` becomes `p`, the messages `ms` leave the package, and nothing else changes. -/
structure State.portTo (s t : State) (n : Nat) (p : Port) (ms : List OutMsg) : Prop where
  frame : s.onlyPorts t
  sent : s.sent t ms
  here : t.port n = p
  others : ∀ m, m ≠ n → t.port m = s.port m

theorem State.onlyPorts.trans {s t u : State} (h : s.onlyPorts t) (g : t.onlyPorts u) : s.onlyPorts u := by
  unfold State.onlyPorts at *
  rw [h] at g
  exact g

theorem State.portTo.trans {s t u : State} {n : Nat} {p q : Port} {ms ns : List OutMsg} (h : s.portTo t n p ms) (g : t.portTo u n q ns) :
    s.portTo u n q (ms ++ ns) := by
  refine ⟨h.frame.trans g.frame, ?_, g.here, fun m other => (g.others m other).trans (h.others m other)⟩
  have first := h.sent
  have second := g.sent
  unfold State.sent at *
  rw [second, first, List.append_assoc]

theorem State.setPort_portTo (s : State) {n : Nat} {p : Port} (name : p.num = n) : s.portTo (s.setPort p) n p [] := by
  subst name
  exact ⟨rfl, (List.append_nil _).symm, s.port_setPort p, fun m other => s.port_setPort_other p m other⟩

/-- Messages leave, and no port changes. -/
theorem State.outbox_portTo (s : State) (n : Nat) (ms : List OutMsg) : s.portTo { s with outbox := s.outbox ++ ms } n (s.port n) ms :=
  ⟨rfl, rfl, rfl, fun _ _ => rfl⟩

theorem State.sendIdle_portTo (s : State) (n : Nat) : s.portTo (s.sendIdle n) n (s.port n) [(s.port n).flit 0 0 0 []] := s.outbox_portTo n _

theorem State.sendNack_portTo (s : State) (n : Nat) : s.portTo (s.sendNack n) n (s.port n) [(s.port n).flit 3 0 0 []] := s.outbox_portTo n _

/-- What a port has to send leaves it (R190, R191). -/
theorem State.pump_portTo (s : State) {n : Nat} {q : Port} {ms : List OutMsg} (name : q.num = n)
    (run : pumpFlits (512 - (s.port n).replay.length) (s.port n) = (q, ms)) : s.portTo (s.pump n) n q ms := by
  have placed := s.setPort_portTo name
  have left := (s.setPort q).outbox_portTo n ms
  rw [placed.here] at left
  have pumped : s.pump n = { s.setPort q with outbox := (s.setPort q).outbox ++ ms } := by
    unfold State.pump
    dsimp only
    rw [run]
    rfl
  rw [pumped]
  exact placed.trans left

/-- Nothing leaves a port at which nothing waits. -/
theorem pumpFlits_idle (fuel : Nat) (p : Port) (idle : p.queued = []) : pumpFlits fuel p = (p, []) := by
  cases fuel with
  | zero => rfl
  | succ fuel =>
    have none_ready : p.nextClass = none := by simp [Port.nextClass, idle]
    rw [pumpFlits, none_ready]

theorem State.pump_idle (s : State) (n : Nat) (idle : (s.port n).queued = []) : s.portTo (s.pump n) n (s.port n) [] :=
  s.pump_portTo (s.port_num n) (pumpFlits_idle _ _ idle)

/-- A port is replaced by one at which nothing waits, and what it has to send leaves. -/
theorem State.setPort_pump_idle (s : State) {n : Nat} {p : Port} (name : p.num = n) (idle : p.queued = []) :
    s.portTo ((s.setPort p).pump n) n p [] := by
  have here := (s.setPort_portTo name).here
  have pumped := (s.setPort p).pump_idle n (by rw [here]; exact idle)
  rw [here] at pumped
  exact (s.setPort_portTo name).trans pumped

/-! ### A packet leaves in its flits (R190 to R192) -/

theorem State.send_onlyPorts (s : State) (die : Nat) (k : Packet) : s.onlyPorts (s.send die k) := by
  unfold State.send
  split
  · rfl
  · split <;> rfl

theorem pktBody_cls_lt (b : PktBody) : b.cls < 4 := by
  cases b <;> simp [PktBody.cls]

theorem packet_flits_pos (k : Packet) : 1 ≤ k.flits := by
  unfold Packet.flits flitBytes
  omega

/-- Flit `i` of a packet, under the next sequence number of a port. -/
def Port.nextFlit (p : Port) (k : Packet) (i : Nat) : TxFlit :=
  { seq := p.seqTx, ft := if i = 0 then 1 else 2, cls := k.body.cls, data := (k.bytes.drop (flitBytes * i)).take flitBytes }

/-- A port after flit `i` of the only packet that waits at it has left. -/
def Port.sentFlit (p : Port) (k : Packet) (i : Nat) (share : List Nat) : Port :=
  { p with seqTx := p.seqTx + 1, replay := p.replay ++ [p.nextFlit k i], queued := if k.flits ≤ i + 1 then [] else [(k, i + 1)], share := share }

/-- The flits of a packet from flit `i` on, `n` of them, as a port numbers them. -/
def Port.flitsFrom (p : Port) (k : Packet) (i n : Nat) : List TxFlit :=
  (List.range n).map fun j => { seq := p.seqTx + BitVec.ofNat 16 j, ft := if i + j = 0 then 1 else 2, cls := k.body.cls,
                                data := (k.bytes.drop (flitBytes * (i + j))).take flitBytes }

theorem Port.flitsOf_eq (p : Port) (k : Packet) : p.flitsOf k = p.flitsFrom k 0 k.flits := by
  simp only [Port.flitsOf, Port.flitsFrom, Nat.zero_add]

theorem Port.flitsFrom_succ (p : Port) (k : Packet) (i n : Nat) (share : List Nat) :
    p.flitsFrom k i (n + 1) = p.nextFlit k i :: (p.sentFlit k i share).flitsFrom k (i + 1) n := by
  unfold Port.flitsFrom
  rw [List.range_succ_eq_map, List.map_cons, List.map_map]
  refine congrArg₂ List.cons ?_ (List.map_congr_left fun j _ => ?_)
  · simp [Port.nextFlit]
  · have seq : p.seqTx + BitVec.ofNat 16 (j + 1) = p.seqTx + 1 + BitVec.ofNat 16 j := by bv_omega
    have place : i + (j + 1) = i + 1 + j := by omega
    simp only [Function.comp, Nat.succ_eq_add_one, seq, place, Port.sentFlit]

/-- The class of the only packet that waits is served next, unless the other end halts it. -/
theorem Port.nextClass_of_one (p : Port) (k : Packet) (i : Nat) (waits : p.queued = [(k, i)]) (open_ : p.xoff.getLsbD k.body.cls = false) :
    ∃ dealt, p.nextClass = some (k.body.cls, dealt) := by
  have low := pktBody_cls_lt k.body
  simp only [Port.nextClass, waits, List.any_cons, List.any_nil, Bool.or_false]
  generalize k.body.cls = c at *
  have classes : c = 0 ∨ c = 1 ∨ c = 2 ∨ c = 3 := by omega
  by_cases control : c = 0
  · subst control
    exact ⟨false, if_pos (by rw [open_]; rfl)⟩
  · by_cases spent : p.share.getD (c - 1) 0 = 0
    · exact ⟨true, by rcases classes with rfl | rfl | rfl | rfl <;> simp_all⟩
    · exact ⟨false, by rcases classes with rfl | rfl | rfl | rfl <;> simp_all⟩

/-- The share after a flit of a class has left (R191). -/
def Port.shareLeft (p : Port) (c : Nat) (dealt : Bool) : List Nat :=
  let share := if dealt then fullShare else p.share
  if c = 0 then p.share else share.set (c - 1) (share.getD (c - 1) 0 - 1)

theorem pumpFlits_of_one (n : Nat) (p : Port) (k : Packet) (i : Nat) (waits : p.queued = [(k, i)]) (open_ : p.xoff.getLsbD k.body.cls = false) :
    ∃ share, pumpFlits (n + 1) p = ((pumpFlits n (p.sentFlit k i share)).1,
      p.flit (p.nextFlit k i).ft k.body.cls (p.nextFlit k i).seq (p.nextFlit k i).data :: (pumpFlits n (p.sentFlit k i share)).2) := by
  obtain ⟨dealt, served⟩ := p.nextClass_of_one k i waits open_
  have found : p.queued.find? (fun q => q.1.body.cls == k.body.cls) = some (k, i) := by simp [waits]
  have queue : (if k.flits ≤ i + 1 then p.queued.erase (k, i) else p.queued.map fun q => if q = (k, i) then (k, i + 1) else q) =
      if k.flits ≤ i + 1 then [] else [(k, i + 1)] := by simp [waits]
  refine ⟨p.shareLeft k.body.cls dealt, ?_⟩
  rw [pumpFlits, served]
  dsimp only
  rw [found]
  dsimp only
  rw [queue]
  rfl

/-- THE FLITS OF ONE PACKET LEAVE a port at which nothing else waits (R190, R191). -/
theorem pumpFlits_packet (k : Packet) (n : Nat) : ∀ (fuel i : Nat) (p : Port), p.queued = [(k, i)] → p.xoff.getLsbD k.body.cls = false →
    i + n + 1 = k.flits → n < fuel → ∃ (seq : BitVec 16) (share : List Nat), pumpFlits fuel p =
      ({ p with seqTx := seq, replay := p.replay ++ p.flitsFrom k i (n + 1), queued := [], share := share },
        (p.flitsFrom k i (n + 1)).map fun f => p.flit f.ft f.cls f.seq f.data) := by
  induction n with
  | zero =>
    intro fuel i p waits open_ last room
    obtain ⟨fuel, rfl⟩ : ∃ m, fuel = m + 1 := ⟨fuel - 1, by omega⟩
    obtain ⟨share, step⟩ := pumpFlits_of_one fuel p k i waits open_
    have done : (p.sentFlit k i share).queued = [] := if_pos (by omega)
    rw [pumpFlits_idle _ _ done] at step
    refine ⟨p.seqTx + 1, share, step.trans ?_⟩
    rw [p.flitsFrom_succ k i 0 share]
    simp only [Port.sentFlit, Port.flitsFrom, List.range_zero, List.map_nil, List.map_cons, if_pos (show k.flits ≤ i + 1 by omega)]
    rfl
  | succ n ih =>
    intro fuel i p waits open_ more room
    obtain ⟨fuel, rfl⟩ : ∃ m, fuel = m + 1 := ⟨fuel - 1, by omega⟩
    obtain ⟨share, step⟩ := pumpFlits_of_one fuel p k i waits open_
    have next : (p.sentFlit k i share).queued = [(k, i + 1)] := if_neg (by omega)
    obtain ⟨seq, share', rest⟩ := ih fuel (i + 1) (p.sentFlit k i share) next open_ (by omega) (by omega)
    rw [rest] at step
    refine ⟨seq, share', step.trans ?_⟩
    rw [p.flitsFrom_succ k i (n + 1) share]
    simp only [Port.sentFlit, List.append_assoc, List.singleton_append, List.map_cons]
    rfl

/-- A port at which a packet is the only one that waits. -/
def Port.withPacket (p : Port) (k : Packet) : Port := { p with queued := [(k, 0)] }

/-- A PACKET LEAVES by its route, at once and in its flits (R190 to R192). -/
theorem State.send_portTo {s : State} {die n : Nat} {k : Packet} (h : s.sendsAt die k n) :
    ∃ q : Port, s.portTo (s.send die k) n q ((s.port n).leaves k) ∧ q.replay = (s.port n).replay ++ (s.port n).flitsOf k := by
  obtain ⟨⟨r, route, use⟩, idle, open_, room⟩ := h
  have pos := packet_flits_pos k
  have run : s.send die k = (s.setPort ((s.port n).withPacket k)).pump n := by
    unfold State.send
    rw [route]
    dsimp only
    rw [use]
    dsimp only [State.sendOn]
    rw [idle, List.nil_append]
    rfl
  have waiting := s.setPort_portTo (p := (s.port n).withPacket k) (s.port_num n)
  obtain ⟨seq, share, flits⟩ := pumpFlits_packet k (k.flits - 1) (512 - ((s.port n).withPacket k).replay.length) 0
    ((s.port n).withPacket k) rfl open_ (by omega) (by dsimp only [Port.withPacket]; omega)
  rw [show k.flits - 1 + 1 = k.flits by omega, ← waiting.here] at flits
  have pumped := (s.setPort ((s.port n).withPacket k)).pump_portTo (by exact (s.setPort _).port_num n) flits
  rw [waiting.here] at pumped
  rw [run, Port.leaves, Port.flitsOf_eq]
  exact ⟨_, waiting.trans pumped, rfl⟩

theorem State.send_sent {s : State} {die n : Nat} {k : Packet} (h : s.sendsAt die k n) : s.sent (s.send die k) ((s.port n).leaves k) := by
  obtain ⟨q, sends, -⟩ := State.send_portTo h
  exact sends.sent

end Sys2Proof.Machine
end

section
/-!
Flits at a port (part of O56): FLIT_RECEIVE, PORT_FAIL and HELD_PACKET_TIMEOUT (R189 to R193).
-/

namespace Sys2Proof.Machine

set_option Elab.async false

/-! ### What a flit's header does to its port (R190) -/

/-- The ACK and XOFF of a flit take effect at its port. -/
def Port.heard (p : Port) (f : BitVec 2048) : Port :=
  { p.applyAck (BitVec.ofNat 16 (flitField f 39 24)) with xoff := BitVec.ofNat 4 (flitField f 47 44) }

theorem Port.heard_frame (p : Port) (f : BitVec 2048) :
    p.heard f = { p with replay := (p.heard f).replay, ackRx := (p.heard f).ackRx, nacks := (p.heard f).nacks, xoff := (p.heard f).xoff } := by
  unfold Port.heard Port.applyAck
  split <;> rfl

theorem Port.heard_num (p : Port) (f : BitVec 2048) : (p.heard f).num = p.num := by rw [p.heard_frame f]

theorem Port.heard_queued (p : Port) (f : BitVec 2048) : (p.heard f).queued = p.queued := by rw [p.heard_frame f]

/-- A flit leaves with the ACK and XOFF of its port, which a received header does not change. -/
theorem Port.heard_flit (p : Port) (f : BitVec 2048) : (p.heard f).flit = p.flit := by
  funext ft cls seq data
  rw [p.heard_frame f]
  rfl

/-- A port's flits taken in keep all but the packets that are arriving and the classes that this end halts. -/
theorem Port.takeFlit_frame {p r : Port} {first : Bool} {cls : Nat} {data : List Byte} {o : Option Packet} (take : p.takeFlit first cls data = (o, r)) :
    r = { p with parts := r.parts, xoffOut := r.xoffOut } := by
  obtain rfl : r = (p.takeFlit first cls data).2 := by rw [take]
  unfold Port.takeFlit
  dsimp only
  split
  · rfl
  · split <;> rfl

/-! ### The cases of FLIT_RECEIVE (R189, R190) -/

section Receive
variable {s : State} {n : Nat} {f : BitVec 2048} (up : (s.port n).up = true)
include up

theorem exec_flitReceive_badCrc (bad : flitCrcOk f = false) :
    exec (.flitReceive n f) s = .next ((s.setPort ((s.port n).countUp 2)).sendNack n) := by
  change execFlitReceive n f s = _
  simp [execFlitReceive, up, bad]

theorem exec_flitReceive_reserved (good : flitCrcOk f = true) (ft : 4 ≤ flitField f 3 0) : exec (.flitReceive n f) s = .next s := by
  change execFlitReceive n f s = _
  simp [execFlitReceive, up, good, ft]

theorem exec_flitReceive_idle (good : flitCrcOk f = true) (ft : flitField f 3 0 = 0) :
    exec (.flitReceive n f) s = .next ((s.setPort ((s.port n).heard f)).pump n) := by
  change execFlitReceive n f s = _
  simp [execFlitReceive, up, good, ft, Port.heard]

theorem exec_flitReceive_nack (good : flitCrcOk f = true) (ft : flitField f 3 0 = 3) (q : Port)
    (hq : q = { (s.port n).heard f with nacks := ((s.port n).heard f).nacks + 1 }) : exec (.flitReceive n f) s =
      .next (if 32 ≤ q.nacks then (s.setPort q).failPort n else ((s.setPort q).replayFlits n).pump n) := by
  change execFlitReceive n f s = _
  simp [execFlitReceive, up, good, ft, hq, Port.heard]

variable (good : flitCrcOk f = true) (ft : flitField f 3 0 = 1 ∨ flitField f 3 0 = 2)
variable {seq : BitVec 16} (hseq : seq = BitVec.ofNat 16 (flitField f 23 8))
include good ft hseq

theorem exec_flitReceive_data : exec (.flitReceive n f) s =
    if (seq - (s.port n).lastRx).toNat = 1 then
      .next (s.takeData n ((s.port n).heard f) (flitField f 3 0 = 1) (flitField f 5 4) seq (flitPayload f))
    else if 2 ≤ (seq - (s.port n).lastRx).toNat ∧ (seq - (s.port n).lastRx).toNat < 2 ^ 15 then
      .next ((s.setPort ((s.port n).heard f)).sendNack n)
    else .next ((s.setPort ((s.port n).heard f)).pump n) := by
  have known : ¬ 4 ≤ flitField f 3 0 ∧ flitField f 3 0 ≠ 0 ∧ flitField f 3 0 ≠ 3 := by omega
  obtain ⟨known, data, noNack⟩ := known
  change execFlitReceive n f s = _
  unfold execFlitReceive
  dsimp only
  rw [if_neg (by simp [up]), if_neg (by simp [good]), if_neg known, if_neg data, if_neg noNack, hseq]
  rfl

theorem exec_flitReceive_inOrder (next : seq = (s.port n).lastRx + 1) : exec (.flitReceive n f) s =
    .next (s.takeData n ((s.port n).heard f) (flitField f 3 0 = 1) (flitField f 5 4) seq (flitPayload f)) := by
  rw [exec_flitReceive_data up good ft hseq, if_pos (by rw [next]; bv_omega)]

theorem exec_flitReceive_gap (above : 2 ≤ (seq - (s.port n).lastRx).toNat) (below : (seq - (s.port n).lastRx).toNat < 2 ^ 15) :
    exec (.flitReceive n f) s = .next ((s.setPort ((s.port n).heard f)).sendNack n) := by
  rw [exec_flitReceive_data up good ft hseq, if_neg (by omega), if_pos ⟨above, below⟩]

theorem exec_flitReceive_again (old : seq = (s.port n).lastRx ∨ 2 ^ 15 ≤ (seq - (s.port n).lastRx).toNat) :
    exec (.flitReceive n f) s = .next ((s.setPort ((s.port n).heard f)).pump n) := by
  have outside : (seq - (s.port n).lastRx).toNat = 0 ∨ 2 ^ 15 ≤ (seq - (s.port n).lastRx).toNat :=
    old.imp_left fun same => by rw [same, BitVec.sub_self]; rfl
  rw [exec_flitReceive_data up good ft hseq, if_neg (by omega), if_neg (by omega)]

end Receive

/-! ### A packet is received (R192, R193) -/

section Packets
variable {s : State} {n : Nat} {k : Packet} (mine : k.dst = s.faddr)
include mine

theorem State.receive_event (plain : ∀ m, k.body ≠ .reward m) {e : Instr} (he : packetEvent k = some e) (now : k.gen = s.mgen) :
    ∃ hs, s.receive n k = { s with agenda := { dt := 0, what := .event e } :: s.agenda, heardOn := hs } ∧
      ((∀ h, k.body ≠ .heartbeat h) → hs = s.heardOn) ∧ ∀ h, k.body = .heartbeat h → hs.find? (fun x => x.1 == h.src) = some (h.src, n) := by
  unfold State.receive
  rw [he, now]
  cases body : k.body with
  | heartbeat h =>
    refine ⟨(h.src, n) :: s.heardOn.filter fun p => p.1 != h.src, by simp [mine], fun no => absurd rfl (no h), fun g same => ?_⟩
    obtain rfl : h = g := PktBody.heartbeat.inj same
    simp
  | unknown x => exact absurd he (by simp [packetEvent, body])
  | reward m => exact absurd body (plain m)
  | _ => exact ⟨s.heardOn, by simp [mine], fun _ => rfl, fun _ h => by cases h⟩

theorem State.receive_held (plain : ∀ m, k.body ≠ .reward m) (data : k.body.cls ≠ 0) (later : newer k.gen s.mgen = true)
    (room : (s.port n).held.length < 256) :
    s.receive n k = s.setPort { s.port n with held := (s.port n).held ++ [(k, s.cycle (n / 2))] } := by
  have other : k.gen ≠ s.mgen := fun same => by simp [newer, same] at later
  unfold State.receive
  cases body : k.body with
  | reward m => exact absurd body (plain m)
  | pullReq _ _ | pullResp _ _ _ | cloneReq _ _ _ | cloneResp _ _ _ _ _ | rewardAck => simp [mine, later, other, room, PktBody.cls]
  | _ => exact absurd (by rw [body]; rfl) data

theorem State.receive_stale (data : k.body.cls ≠ 0) (other : k.gen ≠ s.mgen) (old : newer k.gen s.mgen = false) :
    s.receive n k = s.setPort ((s.port n).countUp 0) := by
  unfold State.receive
  cases body : k.body with
  | pullReq _ _ | pullResp _ _ _ | cloneReq _ _ _ | cloneResp _ _ _ _ _ | reward _ | rewardAck => simp [mine, old, other, PktBody.cls]
  | _ => exact absurd (by rw [body]; rfl) data

theorem State.receive_pod {x : PodPkt} (pod : k.body = .podArrive x ∨ k.body = .podComplete x) (other : k.gen ≠ s.mgen) :
    s.receive n k = s.setPort ((s.port n).countUp 5) := by
  unfold State.receive
  rcases pod with pod | pod <;> simp [mine, pod, other]

end Packets

/-! ### A flit in order is taken (R190) -/

/-- The state when a flit in order has joined its packet, which is received if that was its last flit. -/
def State.joined (s : State) (n : Nat) (r : Port) : Option Packet → State
  | some k => (s.setPort r).receive n k
  | none => s.setPort r

/-- What leaves a port after a flit has been taken: its traffic, or an idle flit where `sent` messages were there before and none is new. -/
def State.acknowledge (s : State) (n sent : Nat) : State :=
  let t := (s.setPort (s.port n).pressure).pump n
  if t.outbox.length = sent then t.sendIdle n else t

theorem State.takeData_eq {s : State} {n cls : Nat} {p r : Port} {first : Bool} {seq : BitVec 16} {data : List Byte} {o : Option Packet}
    (take : ({ p with lastRx := seq } : Port).takeFlit first cls data = (o, r)) :
    s.takeData n p first cls seq data = (s.joined n r o).acknowledge n s.outbox.length := by
  unfold State.takeData
  rw [take]
  cases o <;> rfl

/-- Where nothing waits to leave, what is taken is acknowledged by an idle flit. -/
theorem State.acknowledge_portTo {s : State} {n sent : Nat} {q : Port} (here : s.port n = q) (idle : q.queued = []) (silent : s.outbox.length = sent) :
    s.portTo (s.acknowledge n sent) n q.pressure [q.pressure.flit 0 0 0 []] := by
  have name : q.pressure.num = n := by rw [← here]; exact State.port_num _ n
  have pumped := s.setPort_pump_idle name (show q.pressure.queued = [] from idle)
  have nothing : ((s.setPort q.pressure).pump n).outbox.length = sent := by rw [pumped.sent, List.append_nil, silent]
  have acked := ((s.setPort q.pressure).pump n).sendIdle_portTo n
  rw [pumped.here] at acked
  have run : s.acknowledge n sent = ((s.setPort q.pressure).pump n).sendIdle n := by
    unfold State.acknowledge
    rw [here]
    exact if_pos nothing
  rw [run]
  exact pumped.trans acked

end Sys2Proof.Machine
end

section
/-!
Flits at a port, case by case (part of O56): what FLIT_RECEIVE leaves, PORT_FAIL and HELD_PACKET_TIMEOUT (R189 to R193).
-/

namespace Sys2Proof.Machine

set_option Elab.async false

/-! ### Flits that carry no data in order (R190) -/

section Receive
variable {s : State} {n : Nat} {f : BitVec 2048} (up : (s.port n).up = true)

theorem State.setPort_sendNack_portTo (s : State) {n : Nat} {q : Port} (name : q.num = n) :
    s.portTo ((s.setPort q).sendNack n) n q [q.flit 3 0 0 []] := by
  have answer := (s.setPort q).sendNack_portTo n
  rw [(s.setPort_portTo name).here] at answer
  exact (s.setPort_portTo name).trans answer

/-- The flits that are not acknowledged leave again, and are counted. -/
theorem State.replayFlits_portTo (s : State) (n : Nat) : s.portTo (s.replayFlits n) n ((s.port n).countBy 3 (s.port n).replay.length)
    ((s.port n).replay.map fun f => (s.port n).flit f.ft f.cls f.seq f.data) := by
  have counted := s.setPort_portTo (p := (s.port n).countBy 3 (s.port n).replay.length) (s.port_num n)
  have left := (s.setPort ((s.port n).countBy 3 (s.port n).replay.length)).outbox_portTo n
    ((s.port n).replay.map fun f => (s.port n).flit f.ft f.cls f.seq f.data)
  rw [counted.here] at left
  exact counted.trans left

/-- A flit with a bad CRC is answered with NACK and counted. -/
theorem flitReceive_badCrc_portTo (up : (s.port n).up = true) (bad : flitCrcOk f = false) :
    ∃ u, exec (.flitReceive n f) s = .next u ∧ s.portTo u n ((s.port n).countUp 2) [(s.port n).flit 3 0 0 []] :=
  ⟨_, exec_flitReceive_badCrc up bad, s.setPort_sendNack_portTo (s.port_num n)⟩

variable (good : flitCrcOk f = true)
include up good

/-- An idle flit, or one already taken, does no more than its header says. -/
theorem flitReceive_header_portTo (idle : (s.port n).queued = []) (old : flitField f 3 0 = 0 ∨ ((flitField f 3 0 = 1 ∨ flitField f 3 0 = 2) ∧
      (BitVec.ofNat 16 (flitField f 23 8) = (s.port n).lastRx ∨ 2 ^ 15 ≤ (BitVec.ofNat 16 (flitField f 23 8) - (s.port n).lastRx).toNat))) :
    ∃ u, exec (.flitReceive n f) s = .next u ∧ s.portTo u n ((s.port n).heard f) [] := by
  have heard := s.setPort_pump_idle ((Port.heard_num _ f).trans (s.port_num n)) ((Port.heard_queued _ f).trans idle)
  rcases old with ft | ⟨ft, old⟩
  · exact ⟨_, exec_flitReceive_idle up good ft, heard⟩
  · exact ⟨_, exec_flitReceive_again up good ft rfl old, heard⟩

/-- A flit that comes after a gap is answered with NACK. -/
theorem flitReceive_gap_portTo (ft : flitField f 3 0 = 1 ∨ flitField f 3 0 = 2)
    (above : 2 ≤ (BitVec.ofNat 16 (flitField f 23 8) - (s.port n).lastRx).toNat)
    (below : (BitVec.ofNat 16 (flitField f 23 8) - (s.port n).lastRx).toNat < 2 ^ 15) :
    ∃ u, exec (.flitReceive n f) s = .next u ∧ s.portTo u n ((s.port n).heard f) [(s.port n).flit 3 0 0 []] := by
  have answer := s.setPort_sendNack_portTo ((Port.heard_num _ f).trans (s.port_num n))
  rw [Port.heard_flit] at answer
  exact ⟨_, exec_flitReceive_gap up good ft rfl above below, answer⟩

/-- A NACK replays what the other end has not acknowledged. -/
theorem flitReceive_nack_portTo (ft : flitField f 3 0 = 3) (idle : (s.port n).queued = []) (few : ((s.port n).heard f).nacks + 1 < 32) :
    ∃ u q, exec (.flitReceive n f) s = .next u ∧
      s.portTo u n q (((s.port n).heard f).replay.map fun x => (s.port n).flit x.ft x.cls x.seq x.data) ∧
      q.nacks = ((s.port n).heard f).nacks + 1 ∧ q.replay = ((s.port n).heard f).replay := by
  obtain ⟨nacked, def_nacked⟩ : ∃ p, p = { (s.port n).heard f with nacks := ((s.port n).heard f).nacks + 1 } := ⟨_, rfl⟩
  have noted := s.setPort_portTo (n := n) (p := nacked) (by rw [def_nacked]; exact (Port.heard_num _ f).trans (s.port_num n))
  have replayed := (s.setPort nacked).replayFlits_portTo n
  rw [noted.here] at replayed
  have pumped := State.pump_idle _ n
    (by rw [replayed.here, def_nacked]; exact (Port.heard_queued _ f).trans idle : (((s.setPort nacked).replayFlits n).port n).queued = [])
  rw [replayed.here] at pumped
  have whole := noted.trans (replayed.trans pumped)
  have sends : nacked.flit = (s.port n).flit := by rw [def_nacked]; exact Port.heard_flit _ f
  rw [List.nil_append, List.append_nil, sends] at whole
  have run := exec_flitReceive_nack up good ft nacked def_nacked
  rw [if_neg (by rw [def_nacked]; dsimp only; omega)] at run
  subst def_nacked
  exact ⟨_, _, run, whole, rfl, rfl⟩

/-! ### A flit in order (R190, R192, R193) -/

variable (ft : flitField f 3 0 = 1 ∨ flitField f 3 0 = 2) (next : BitVec.ofNat 16 (flitField f 23 8) = (s.port n).lastRx + 1)
  (idle : (s.port n).queued = []) {o : Option Packet} {r : Port}
  (take : ({ (s.port n).heard f with lastRx := BitVec.ofNat 16 (flitField f 23 8) } : Port).takeFlit (flitField f 3 0 = 1) (flitField f 5 4)
    (flitPayload f) = (o, r))
include ft next take

/-- What is left of a flit in order: the packet that it ends is received, and it is acknowledged. -/
theorem flitReceive_inOrder_acknowledge :
    exec (.flitReceive n f) s = .next ((s.joined n r o).acknowledge n s.outbox.length) := by
  rw [exec_flitReceive_inOrder up good ft rfl next, State.takeData_eq take]

omit up good ft next in
theorem takeFlit_heard_kept : r.num = n ∧ r.queued = (s.port n).queued ∧ r.held = (s.port n).held := by
  rw [Port.takeFlit_frame take, Port.heard_frame]
  exact ⟨s.port_num n, rfl, rfl⟩

include idle

/-- Where receiving the packet changes the port alone, only the port changes and an idle flit leaves. -/
theorem flitReceive_inOrder_onlyPorts {q : Port} (joined : s.portTo (s.joined n r o) n q []) (still : q.queued = r.queued) :
    ∃ u : State, exec (.flitReceive n f) s = .next u ∧ s.onlyPorts u ∧ s.sent u [(u.port n).flit 0 0 0 []] ∧ u.port n = q.pressure := by
  obtain ⟨-, waits, -⟩ := takeFlit_heard_kept take
  have acked := joined.trans (State.acknowledge_portTo joined.here ((still.trans waits).trans idle)
    ((congrArg List.length joined.sent).trans (by rw [List.append_nil])))
  refine ⟨_, flitReceive_inOrder_acknowledge up good ft next take, acked.frame, ?_, acked.here⟩
  rw [acked.here]
  exact acked.sent

theorem flitReceive_part (part : o = none) :
    ∃ u : State, exec (.flitReceive n f) s = .next u ∧ s.onlyPorts u ∧ s.sent u [(u.port n).flit 0 0 0 []] ∧ u.port n = r.pressure := by
  subst part
  exact flitReceive_inOrder_onlyPorts up good ft next idle take (s.setPort_portTo (takeFlit_heard_kept take).1) rfl

variable {k : Packet} (whole : o = some k) (mine : k.dst = s.faddr)
include whole mine

theorem flitReceive_held (plain : ∀ m, k.body ≠ .reward m) (data : k.body.cls ≠ 0) (later : newer k.gen s.mgen = true)
    (room : (s.port n).held.length < 256) : ∃ u : State, exec (.flitReceive n f) s = .next u ∧ s.onlyPorts u ∧
      s.sent u [(u.port n).flit 0 0 0 []] ∧
      u.port n = ({ r with held := (s.port n).held ++ [(k, s.cycle (n / 2))] } : Port).pressure := by
  subst whole
  obtain ⟨name, -, holds⟩ := takeFlit_heard_kept take
  have placed := s.setPort_portTo name
  have received := State.receive_held (s := s.setPort r) (n := n) mine plain data later (by rw [placed.here, holds]; exact room)
  rw [placed.here, holds] at received
  refine flitReceive_inOrder_onlyPorts up good ft next idle take (q := { r with held := (s.port n).held ++ [(k, s.cycle (n / 2))] }) ?_ rfl
  dsimp only [State.joined]
  rw [received]
  exact placed.trans (State.setPort_portTo _ name)

omit mine in
theorem flitReceive_counted {i : Nat} (received : (s.setPort r).receive n k = (s.setPort r).setPort (((s.setPort r).port n).countUp i)) :
    ∃ u : State, exec (.flitReceive n f) s = .next u ∧ s.onlyPorts u ∧ s.sent u [(u.port n).flit 0 0 0 []] ∧
      u.port n = (r.countUp i).pressure := by
  subst whole
  have name := (takeFlit_heard_kept take).1
  have placed := s.setPort_portTo name
  rw [placed.here] at received
  refine flitReceive_inOrder_onlyPorts up good ft next idle take (q := r.countUp i) ?_ rfl
  dsimp only [State.joined]
  rw [received]
  exact placed.trans (State.setPort_portTo _ name)

theorem flitReceive_event (plain : ∀ m, k.body ≠ .reward m) {e : Instr} (he : packetEvent k = some e) (now : k.gen = s.mgen) :
    ∃ u : State, exec (.flitReceive n f) s = .next u ∧ u.agenda = { dt := 0, what := .event e } :: s.agenda ∧
      s.onlyPorts { u with agenda := s.agenda, heardOn := s.heardOn } ∧ ((∀ h, k.body ≠ .heartbeat h) → u.heardOn = s.heardOn) ∧
      (∀ h, k.body = .heartbeat h → u.heardOn.find? (fun x => x.1 == h.src) = some (h.src, n)) ∧
      s.sent u [(u.port n).flit 0 0 0 []] ∧ u.port n = r.pressure := by
  subst whole
  obtain ⟨name, waits, -⟩ := takeFlit_heard_kept take
  have placed := s.setPort_portTo name
  obtain ⟨hs, received, unheard, heard⟩ := State.receive_event (s := s.setPort r) (n := n) mine plain he now
  have joined : s.joined n r (some k) = { s.setPort r with agenda := { dt := 0, what := .event e } :: s.agenda, heardOn := hs } := received
  have acked := State.acknowledge_portTo (s := s.joined n r (some k)) (sent := s.outbox.length) (by rw [joined]; exact placed.here)
    (waits.trans idle) (by rw [joined]; rfl)
  have frame := acked.frame
  have sent := acked.sent
  have here := acked.here
  unfold State.onlyPorts at frame
  refine ⟨_, flitReceive_inOrder_acknowledge up good ft next take, ?_⟩
  generalize (s.joined n r (some k)).acknowledge n s.outbox.length = u at *
  rw [joined] at frame sent
  refine ⟨by rw [frame], by rw [frame]; rfl, fun no => ?_, fun h same => ?_, ?_, here⟩
  · rw [frame]
    exact unheard no
  · rw [frame]
    exact heard h same
  · rw [here]
    exact sent

end Receive

end Sys2Proof.Machine
end

section
/-!
Ports and the pod barrier's packets, and FABRIC EVENTS (O56): R189 to R194, R347.
-/

namespace Sys2Proof.Machine

set_option Elab.async false

/-! ### A port fails; packets held too long (R190, R193) -/

theorem exec_portFail_none {s : State} {n : Nat} {loss : Bool} (stays : loss = false) (few : (s.port n).nacks < 32) :
    exec (.portFail n loss) s = .next s := by
  change execPortFail n loss s = _
  exact if_pos (.inr ⟨stays, few⟩)

theorem exec_portFail {s : State} {n : Nat} {loss : Bool} (up : (s.port n).up = true) (fails : loss = true ∨ 32 ≤ (s.port n).nacks) :
    exec (.portFail n loss) s = .next (s.failPort n) := by
  change execPortFail n loss s = _
  refine if_neg fun keeps => ?_
  rcases keeps with down | ⟨stays, few⟩
  · rw [up] at down; cases down
  · rcases fails with lost | many
    · rw [stays] at lost; cases lost
    · omega

theorem State.failPort_portTo {s : State} {n : Nat} (idle : (s.port n).queued = []) : s.portTo (s.failPort n) n
    { s.port n with up := false, replay := [], queued := [], parts := [], nacks := 0, xoff := 0 } [] := by
  have none_moves : s.failPort n = s.setPort { s.port n with up := false, replay := [], queued := [], parts := [], nacks := 0, xoff := 0 } := by
    rw [State.failPort, idle]
    rfl
  rw [none_moves]
  exact s.setPort_portTo (s.port_num n)

/-- Sending a port's classes on changes the classes that it halts, and no more. -/
theorem State.regulate_portTo (s : State) (n : Nat) : ∃ x ms, s.portTo (s.regulate n) n { s.port n with xoffOut := x } ms := by
  have halted := s.setPort_portTo (p := (s.port n).pressure) (s.port_num n)
  unfold State.regulate
  dsimp only
  split
  · exact ⟨(s.port n).xoffOut, [], rfl, (List.append_nil _).symm, rfl, fun _ _ => rfl⟩
  · split
    · have told := (s.setPort (s.port n).pressure).sendIdle_portTo n
      rw [halted.here] at told
      exact ⟨_, _, halted.trans told⟩
    · exact ⟨_, _, halted⟩

/-- HELD_PACKET_TIMEOUT: what has been held for 2^24 cycles is dropped and counted. -/
theorem heldPacketTimeout_holds (s : State) (n : Nat) : ∃ u : State, exec (.heldPacketTimeout n) s = .next u ∧ s.onlyPorts u ∧
    (∀ h, h ∈ (u.port n).held ↔ h ∈ (s.port n).held ∧ s.cycle (n / 2) < h.2 + 2 ^ 24) ∧
    u.port n = { s.port n with
      held := (u.port n).held, xoffOut := (u.port n).xoffOut,
      counts := (s.port n).counts.set 1 (satAdd ((s.port n).counts.getD 1 0) ((s.port n).held.length - (u.port n).held.length)) } := by
  obtain ⟨old, def_old⟩ : ∃ old : Packet × Nat → Bool, old = fun h => decide (h.2 + 2 ^ 24 ≤ s.cycle (n / 2)) := ⟨_, rfl⟩
  have dropped : ((s.port n).held.filter old).length = (s.port n).held.length - ((s.port n).held.filter fun h => !old h).length := by
    have parts := List.length_eq_length_filter_add (l := (s.port n).held) old
    omega
  have placed := s.setPort_portTo (n := n) (p := ({ s.port n with held := (s.port n).held.filter fun h => !old h } : Port).countBy 1
    ((s.port n).held.filter old).length) (s.port_num n)
  obtain ⟨x, ms, regulated⟩ := State.regulate_portTo (s.setPort (({ s.port n with held := (s.port n).held.filter fun h => !old h } : Port).countBy 1
    ((s.port n).held.filter old).length)) n
  rw [placed.here] at regulated
  have whole := placed.trans regulated
  refine ⟨_, by rw [def_old]; rfl, whole.frame, fun h => ?_, ?_⟩
  · rw [whole.here]
    simp [Port.countBy, def_old]
  · rw [whole.here, dropped]
    rfl

/-! ### The pod barriers that stand (R347) -/

theorem State.podBar_key (s : State) (k : BitVec 16 × Nat × Word × Word) :
    ((s.podBar k).ctx, (s.podBar k).queue, (s.podBar k).seq, (s.podBar k).wgid) = k := by
  unfold State.podBar
  cases found : s.podBars.find? fun b => b.ctx == k.1 && b.queue == k.2.1 && b.seq == k.2.2.1 && b.wgid == k.2.2.2 with
  | none => rfl
  | some b =>
    have same := List.find?_some found
    simp only [Bool.and_eq_true, beq_iff_eq, and_assoc] at same
    obtain ⟨ctx, queue, seq, wgid⟩ := same
    simp [ctx, queue, seq, wgid]

theorem State.podBar_setPodBar (s : State) {b : PodBar} {k : BitVec 16 × Nat × Word × Word} (key : (b.ctx, b.queue, b.seq, b.wgid) = k) :
    (s.setPodBar b).podBar k = b := by
  subst key
  simp [State.podBar, State.setPodBar]

/-- A cohort after the pod barrier at which it waits has completed (R347). -/
def Cohort.podPassed (c : Cohort) : Cohort := { c.barDone false with podPhase := c.podPhase + 1 }

/-- A pod barrier completes: its cohorts go on, and it waits no longer. -/
theorem State.podDone_holds (s : State) {b : PodBar} {k : BitVec 16 × Nat × Word × Word} (key : (b.ctx, b.queue, b.seq, b.wgid) = k) :
    (s.podDone b false).podBar k = { b with sentAt := none } ∧
      s.podDone b false = { s with cohorts := (s.podDone b false).cohorts, podBars := (s.podDone b false).podBars } ∧
      ∀ c ∈ s.cohorts, c.atBar .pod = true → s.podKey c = k → c.podPassed ∈ (s.podDone b false).cohorts := by
  refine ⟨State.podBar_setPodBar _ key, rfl, fun c has waits mine => ?_⟩
  unfold State.podDone
  refine List.mem_map.2 ⟨c, has, if_pos ?_⟩
  simp [waits, mine, key]

theorem State.sends_onlyPorts {α : Type} (die : Nat) (pkt : State → α → Packet) (l : List α) :
    ∀ s : State, s.onlyPorts (l.foldl (fun t e => t.send die (pkt t e)) s) := by
  induction l with
  | nil => exact fun _ => rfl
  | cons e l ih => exact fun s => (s.send_onlyPorts die (pkt s e)).trans (ih _)

/-- The arrivals at a pod barrier after one of a source, which counts once. -/
def PodBar.arrive (b : PodBar) (src : BitVec 20) (phase : BitVec 16) : List (BitVec 20 × BitVec 16) :=
  if b.arrived.contains (src, phase) then b.arrived else (src, phase) :: b.arrived

/-- The arrivals of one phase. -/
def PodBar.arrivals (b : PodBar) (src : BitVec 20) (phase : BitVec 16) : Nat := ((b.arrive src phase).filter fun a => a.2 == phase).length

section Count
variable (s : State) (die : Nat) (b : PodBar) (src : BitVec 20) (phase : BitVec 16)

theorem State.podCount_waits (few : b.arrivals src phase < max 1 s.podRanks.length) :
    s.podCount die b src phase = s.setPodBar { b with arrived := b.arrive src phase } := if_pos few

/-- The last arrival of a phase completes it. -/
theorem State.podCount_completes {k : BitVec 16 × Nat × Word × Word} (key : (b.ctx, b.queue, b.seq, b.wgid) = k)
    (all : max 1 s.podRanks.length ≤ b.arrivals src phase) : ((s.podCount die b src phase).podBar k).done = phase.toNat + 1 ∧
      ∀ c ∈ s.cohorts, c.atBar .pod = true → s.podKey c = k → c.podPassed ∈ (s.podCount die b src phase).cohorts := by
  obtain ⟨b', def_b'⟩ : ∃ b' : PodBar, b' = { b with arrived := (b.arrive src phase).filter fun a => a.2 != phase, done := phase.toNat + 1 } :=
    ⟨_, rfl⟩
  obtain ⟨stands, -, passed⟩ := (s.setPodBar b').podDone_holds (b := b') (k := k) (by rw [def_b']; exact key)
  have frame := State.sends_onlyPorts die (fun t e => t.packetTo die e.faddr 0 0 (.podComplete (t.podPkt b phase)))
    (s.podRanks.filter fun e : RankEntry => e.faddr != s.faddr) ((s.setPodBar b').podDone b' false)
  have run : s.podCount die b src phase = (s.podRanks.filter fun e => e.faddr != s.faddr).foldl (fun t e => t.send die (t.packetTo die e.faddr 0 0
      (.podComplete (t.podPkt b phase)))) ((s.setPodBar b').podDone b' false) := by
    rw [def_b']
    exact if_neg (Nat.not_lt.2 all)
  rw [← run] at frame
  unfold State.onlyPorts at frame
  rw [frame]
  refine ⟨(congrArg PodBar.done stands).trans (by rw [def_b']), passed⟩

end Count

/-! ### The events of the pod barrier's packets (R347) -/

theorem exec_podBarrierArrive (k : PodPkt) (s : State) (now : k.gen = s.mgen) : exec (.podBarrierArrive k) s =
    if (s.podBar (podPktKey k)).past k.phase then
      .next (s.send 0 (s.packetTo 0 k.src 0 0 (.podComplete (s.podPkt (s.podBar (podPktKey k)) k.phase))))
    else .next (s.podCount 0 (s.podBar (podPktKey k)) k.src k.phase) := by
  change execPodBarrierArrive k s = _
  exact if_neg fun no => no now

theorem exec_podBarrierComplete {k : PodPkt} {s : State} (now : k.gen = s.mgen) (sent : (s.podBar (podPktKey k)).sentAt.isSome = true)
    (some_wait : s.cohorts.filter (fun c => s.podKey c == podPktKey k) ≠ [])
    (wait : ∀ c ∈ s.cohorts.filter (fun c => s.podKey c == podPktKey k), c.atBar .pod = true ∧ BitVec.ofNat 16 c.podPhase = k.phase) :
    exec (.podBarrierComplete k) s = .next (s.podDone (s.podBar (podPktKey k)) false) := by
  have all : (s.cohorts.filter fun c => s.podKey c == podPktKey k).all (fun c => c.atBar .pod && BitVec.ofNat 16 c.podPhase == k.phase) = true :=
    List.all_eq_true.2 fun c has => by simp [wait c has]
  change execPodBarrierComplete k s = _
  unfold execPodBarrierComplete
  dsimp only
  rw [if_neg fun no => no now, sent, all]
  exact if_pos (by simpa using some_wait)

/-- A packet of another generation is counted at port 0. -/
theorem podBarrier_other {k : PodPkt} {s : State} (other : k.gen ≠ s.mgen) {e : Instr} (one : e ∈ [Instr.podBarrierArrive k, .podBarrierComplete k]) :
    ∃ u : State, exec e s = .next u ∧ s.onlyPorts u ∧ u.port 0 = (s.port 0).countUp 5 := by
  have counted := s.setPort_portTo (p := (s.port 0).countUp 5) (s.port_num 0)
  have drops : exec e s = .next s.dropOther := by
    rcases List.mem_pair.1 one with rfl | rfl
    · change execPodBarrierArrive k s = _
      exact if_pos other
    · change execPodBarrierComplete k s = _
      exact if_pos other
  exact ⟨_, drops, counted.frame, counted.here⟩

theorem exec_podBarrierResend {s : State} {c : Cohort} {t : Nat} {root : RankEntry} (found : s.cohort? c.cid = some c)
    (sent : (s.podBar (s.podKey c)).sentAt = some t) (waits : c.atBar .pod = true) (long : t + 2 ^ 20 ≤ s.cycle (dieOf c.core))
    (first : s.podRanks.head? = some root) : exec (.podBarrierResend c.cid) s =
      .next ((s.setPodBar { s.podBar (s.podKey c) with sentAt := some (s.cycle (dieOf c.core)) }).send (dieOf c.core)
        (s.packetTo (dieOf c.core) root.faddr 0 0 (.podArrive (s.podPkt (s.podBar (s.podKey c)) (BitVec.ofNat 16 c.podPhase))))) := by
  change execPodBarrierResend c.cid s = _
  unfold execPodBarrierResend
  rw [found]
  dsimp only
  rw [sent, first]
  exact if_pos ⟨waits, long⟩

/-! ### A packet leaves (R192) -/

theorem State.send_noRoute {s : State} {die : Nat} {k : Packet} (none_leads : s.routes.find? (fun r => r.1 == die && r.2.1 == k.dst) = none) :
    s.send die k = s.setPort ((s.port (2 * die)).countUp 4) := by
  unfold State.send
  rw [none_leads]

/-! ### The obligation -/

/-- Settles O56: FABRIC EVENTS, case by case (R189 to R194, R347). -/
theorem fabricEvents : Obligations.FabricEvents := by
  unfold Obligations.FabricEvents
  rintro s n p rfl
  refine ⟨?flits, ?receive, ?fail, heldPacketTimeout_holds s n, ?send, ?pod, ?resend⟩
  case flits =>
    rintro ft cls seq ack xoff data f hft hcls nonempty fits rfl
    exact ⟨flitCrcOk_flitOf hft hcls nonempty fits, flitOf_reads hft hcls nonempty fits⟩
  case receive =>
    rintro f q ft seq up rfl rfl rfl
    refine ⟨fun bad => ?_, exec_flitReceive_reserved up, fun good idle old => ?_, fun good ft above below => ?_, fun good ft idle few => ?_,
      fun good ft many => ?_, fun good ft next idle o r take =>
        ⟨flitReceive_part up good ft next idle take, fun k whole mine plain => ⟨fun e he now => ?_, ?_, ?_, ?_⟩⟩⟩
    · obtain ⟨u, run, port⟩ := flitReceive_badCrc_portTo up bad
      exact ⟨u, run, port.frame, port.sent, port.here⟩
    · obtain ⟨u, run, port⟩ := flitReceive_header_portTo up good idle old
      exact ⟨u, run, port.frame, port.sent, port.here⟩
    · obtain ⟨u, run, port⟩ := flitReceive_gap_portTo up good ft above below
      exact ⟨u, run, port.frame, port.sent, port.here⟩
    · obtain ⟨u, q, run, port, nacks, replay⟩ := flitReceive_nack_portTo up good ft idle few
      exact ⟨u, run, port.frame, port.sent, (congrArg Port.nacks port.here).trans nacks, (congrArg Port.replay port.here).trans replay⟩
    · exact (exec_flitReceive_nack up good ft _ rfl).trans (congrArg Host.Outcome.next (if_pos many))
    · exact flitReceive_event up good ft next idle take whole mine plain he now
    · exact flitReceive_held up good ft next idle take whole mine plain
    · intro data other old
      exact flitReceive_counted up good ft next idle take whole (State.receive_stale mine data other old)
    · intro x pod other
      exact flitReceive_counted up good ft next idle take whole (State.receive_pod mine pod other)
  case fail =>
    intro loss up
    refine ⟨exec_portFail_none, fun fails => ⟨exec_portFail up fails, fun idle => ?_⟩⟩
    have down := State.failPort_portTo idle
    exact ⟨down.frame, down.sent, down.here, down.others⟩
  case send =>
    refine fun die k => ⟨fun m leads => ?_, State.send_noRoute⟩
    obtain ⟨q, sends, replay⟩ := State.send_portTo leads
    exact ⟨sends.frame, sends.sent, (congrArg Port.replay sends.here).trans replay, sends.others⟩
  case pod =>
    rintro k b rfl
    have key := s.podBar_key (podPktKey k)
    refine ⟨fun other e one => podBarrier_other other one, fun now past => (exec_podBarrierArrive k s now).trans (if_pos past), ?_, ?_⟩
    · rintro arr now open_ rfl
      have run := (exec_podBarrierArrive k s now).trans (if_neg (by rw [open_]; exact Bool.false_ne_true))
      refine ⟨fun few => ?_, fun all => ?_⟩
      · rw [State.podCount_waits s 0 _ _ _ few] at run
        exact ⟨_, run, rfl, State.podBar_setPodBar s key⟩
      · exact ⟨_, run, State.podCount_completes s 0 _ _ _ key all⟩
    · rintro cs now sent rfl some_wait wait
      obtain ⟨stands, frame, passed⟩ := s.podDone_holds key
      refine ⟨_, exec_podBarrierComplete now sent some_wait wait, congrArg PodBar.sentAt stands, frame, fun c has => ?_⟩
      obtain ⟨has, mine⟩ := List.mem_filter.1 has
      exact passed c has (wait c ‹_›).1 (beq_iff_eq.1 mine)
  case resend =>
    rintro c b t root found rfl waits sent long first
    have frame := (s.setPodBar { s.podBar (s.podKey c) with sentAt := some (s.cycle (dieOf c.core)) }).send_onlyPorts (dieOf c.core)
      (s.packetTo (dieOf c.core) root.faddr 0 0 (.podArrive (s.podPkt (s.podBar (s.podKey c)) (BitVec.ofNat 16 c.podPhase))))
    refine ⟨_, exec_podBarrierResend found sent waits long first, ?_, ?_, fun k m same leads => ?_⟩
    · unfold State.onlyPorts at *
      rw [frame]
      rfl
    · unfold State.onlyPorts at frame
      rw [frame]
      exact State.podBar_setPodBar s (s.podBar_key _)
    · subst same
      exact State.send_sent (s := s.setPodBar _) leads

end Sys2Proof.Machine
end

section
/-!
Pulls (part of O55): requests, answers and reissues (R175 to R179).
-/

namespace Sys2Proof.Machine

set_option Elab.async false

/-! ### A job's cause stops its context (R195, R226) -/

theorem State.ctx_of_running {s : State} {k : BitVec 16} (running : s.halted k = false) : ∃ x, s.ctx? k = some x ∧ x.halt = false := by
  unfold State.halted at running
  cases found : s.ctx? k with
  | none => rw [found] at running; cases running
  | some x => rw [found] at running; exact ⟨x, rfl, running⟩

/-- A job's cause: contexts, cohorts and what is saved of them alone differ. -/
theorem State.jobCause_frame (s : State) (cid : Nat) (k : BitVec 16) (group : Nat) (detail : BitVec 96) (pc : Word) :
    s.jobCause cid k group detail pc = { s with
      ctxs := (s.jobCause cid k group detail pc).ctxs, cohorts := (s.jobCause cid k group detail pc).cohorts,
      saved := (s.jobCause cid k group detail pc).saved } := by
  unfold State.jobCause State.causeAside
  cases s.ctx? k with
  | none => rfl
  | some x =>
    dsimp only
    split
    · rfl
    · rw [State.halt_frame]

/-- A job's cause stops a context that runs, and is the first cause of its stop. -/
theorem State.jobCause_stops {s : State} {k : BitVec 16} (running : s.halted k = false) (cid group : Nat) (detail : BitVec 96) (pc : Word) :
    ∃ y, (s.jobCause cid k group detail pc).ctx? k = some y ∧ y.halt = true ∧ y.firstCause = BitVec.ofNat 5 group := by
  obtain ⟨x, found, runs⟩ := State.ctx_of_running running
  unfold State.jobCause State.causeAside
  rw [found]
  dsimp only
  rw [if_neg (by simp [runs])]
  exact ⟨_, State.halt_ctx _ k _ _ pc x found runs, rfl, rfl⟩

/-! ### Requests and their answers (R176) -/

theorem State.answerPull_serves (s : State) (p : PullServe) (refused : Bool) (data : List Byte) :
    (s.answerPull p refused data).serves = s.serves.filter fun q => q.id != p.id := by
  have frame := State.send_onlyPorts { s with serves := s.serves.filter fun q => q.id != p.id } (dieOf p.core)
    (s.packetTo (dieOf p.core) p.src.addr p.src.die p.txid (.pullResp refused p.line data))
  unfold State.onlyPorts at frame
  exact congrArg State.serves frame

/-- The answer leaves in its flits, to the die that asked. -/
theorem State.answerPull_sent {s : State} {p : PullServe} {refused : Bool} {data : List Byte} {k : Packet} {n : Nat}
    (same : k = s.packetTo (dieOf p.core) p.src.addr p.src.die p.txid (.pullResp refused p.line data)) (leads : s.sendsAt (dieOf p.core) k n) :
    s.sent (s.answerPull p refused data) ((s.port n).leaves k) := by
  subst same
  exact State.send_sent (s := { s with serves := s.serves.filter fun q => q.id != p.id }) leads

theorem pullRequest_holds (s : State) (src : Sender) (gen : Word) (txid : BitVec 16) (core line : Nat) (p : PullServe)
    (hp : p = { id := s.fresh, src := src, gen := gen, txid := txid, core := core, line := line }) :
    (gen ≠ s.mgen → exec (.pullRequest src gen txid core line) s = .next s) ∧
    (gen = s.mgen → s.inJob src.addr = true → s.servesLine core line = true →
      exec (.pullRequest src gen txid core line) s = .next { s with fresh := s.fresh + 1, serves := s.serves ++ [p] }) ∧
    (gen = s.mgen → (s.inJob src.addr && s.servesLine core line) = false →
      ∃ u : State, exec (.pullRequest src gen txid core line) s = .next u ∧ u.mem = s.mem ∧ (∀ q ∈ u.serves, q ∈ s.serves) ∧
        ∀ k n, k = s.packetTo (dieOf core) src.addr src.die txid (.pullResp true line []) → s.sendsAt (dieOf core) k n →
          s.sent u ((s.port n).leaves k)) := by
  subst hp
  have run (now : gen = s.mgen) : exec (.pullRequest src gen txid core line) s = _ := if_neg fun no => no now
  refine ⟨fun other => if_pos other, fun now job serves => (run now).trans (if_pos (by rw [job, serves]; rfl)), fun now refuses => ?_⟩
  refine ⟨_, (run now).trans (if_neg (by rw [refuses]; exact Bool.false_ne_true)), State.answerPull_mem _ _ _ _, fun q has => ?_,
    fun k n same leads => State.answerPull_sent (s := { s with fresh := s.fresh + 1 }) same leads⟩
  rw [State.answerPull_serves] at has
  exact (List.mem_filter.1 has).1

section Read
variable {s : State} {p : PullServe} (found : s.serves.find? (fun q => q.id == p.id) = some p)
include found

/-- What a waiting request meets (R176): no owner any more, a line that is not full, or its line. -/
theorem exec_pullLineRead (good : s.lineBad p.core p.line = false ∨ s.servesLine p.core p.line = false ∨ s.linesFull p.core [p.line] = false) :
    exec (.pullLineRead p.id) s =
      if s.servesLine p.core p.line = false then .next (s.answerPull p true [])
      else if s.linesFull p.core [p.line] = false then .next s
      else .next (s.answerPull p false (memBytes s.mem (tileKey p.core (128 * p.line)) 128)) := by
  change execPullLineRead p.id s = _
  unfold execPullLineRead
  rw [found]
  dsimp only
  refine ite_congr rfl (fun _ => rfl) fun serves => ite_congr rfl (fun _ => rfl) fun full => if_neg ?_
  rcases good with good | no | no
  · rw [good]; exact Bool.false_ne_true
  · exact absurd no serves
  · exact absurd no full

theorem pullLineRead_holds (serves : s.servesLine p.core p.line = true) :
    (s.linesFull p.core [p.line] = false → exec (.pullLineRead p.id) s = .next s) ∧
    (s.linesFull p.core [p.line] = true → s.lineBad p.core p.line = false →
      ∃ u : State, exec (.pullLineRead p.id) s = .next u ∧ u.mem = s.mem ∧ (∀ q ∈ u.serves, q.id ≠ p.id) ∧
        ∀ k n, k = s.packetTo (dieOf p.core) p.src.addr p.src.die p.txid (.pullResp false p.line (memBytes s.mem (tileKey p.core (128 * p.line)) 128)) →
          s.sendsAt (dieOf p.core) k n → s.sent u ((s.port n).leaves k)) := by
  have served : ¬ s.servesLine p.core p.line = false := by rw [serves]; exact Bool.noConfusion
  refine ⟨fun waits => ?_, fun full good => ?_⟩
  · rw [exec_pullLineRead found (.inr (.inr waits)), if_neg served, if_pos waits]
  · refine ⟨_, by rw [exec_pullLineRead found (.inl good), if_neg served, if_neg (by rw [full]; exact Bool.noConfusion)],
      State.answerPull_mem _ _ _ _, fun q has => ?_, fun k n same leads => State.answerPull_sent same leads⟩
    rw [State.answerPull_serves] at has
    exact bne_iff_ne.1 (List.mem_filter.1 has).2

end Read

/-! ### A line lands (R109, R175) -/

theorem State.jobDone_full (s : State) (j : Job) (c : Nat) : ((s.jobDone j).core c).full = (s.core c).full := by
  change ((s.freeBoard j.core j.id).core c).full = _
  rw [State.freeBoard, State.core_setCore_eq]
  split
  · next same => rw [same, State.core_core]
  · rfl

theorem State.store_core (s : State) (key : Nat) (bs : List Byte) (c : Nat) : (s.store key bs).core c = s.core c := by
  rw [s.store_storesOnly key bs]
  rfl

/-- Lines become full in a core, and every line that was full stays so. -/
theorem State.mem_setCore_setFull (s : State) (c : Nat) (lines : List Nat) (d n : Nat) :
    n ∈ ((s.setCore ((s.core c).setFull lines)).core d).full ↔ (d = c ∧ n ∈ lines) ∨ n ∈ (s.core d).full := by
  rw [State.core_setCore_eq]
  have name : ((s.core c).setFull lines).core = c := s.core_core c
  rw [name]
  split
  · next same => rw [CoreState.mem_setFull, same]; simp
  · next other => simp [other]

/-- The line that an RCOPY's line lands in is full; no other is emptied. -/
theorem State.mem_landOne_full (s : State) (j : Job) (i : Nat) (data : List Byte) (c n : Nat) :
    n ∈ ((s.landOne j i data).core c).full ↔ (c = j.core ∧ n = j.line0 + i) ∨ n ∈ (s.core c).full := by
  have landed := (s.store (tileKey j.core (128 * (j.line0 + i))) data).mem_setCore_setFull j.core [j.line0 + i] c n
  rw [s.store_core _ _ c, List.mem_singleton] at landed
  unfold State.landOne
  dsimp only
  split
  · rw [State.jobDone_full]
    exact landed
  · exact landed

theorem State.landOne_mem (s : State) (j : Job) (i : Nat) (data : List Byte) :
    (s.landOne j i data).mem = (s.store (tileKey j.core (128 * (j.line0 + i))) data).mem := by
  unfold State.landOne
  dsimp only
  split <;> rfl

theorem State.landOne_pulls (s : State) (j : Job) (i : Nat) (data : List Byte) : (s.landOne j i data).pulls = s.pulls := by
  have stores := congrArg State.pulls (s.store_storesOnly (tileKey j.core (128 * (j.line0 + i))) data)
  unfold State.landOne
  dsimp only
  split <;> exact stores

theorem State.mem_landLine_full (s : State) (j : Job) (i : Nat) (data : List Byte) : j.line0 + i ∈ ((s.landLine j i data).core j.core).full := by
  have landed := (s.mem_landOne_full j i data j.core (j.line0 + i)).2 (.inl ⟨rfl, rfl⟩)
  unfold State.landLine
  dsimp only
  cases if j.role = .primary then s.twinJob j else none with
  | none => exact landed
  | some t => exact ((s.landOne j i data).mem_landOne_full t i data _ _).2 (.inr landed)

theorem State.landLine_pulls (s : State) (j : Job) (i : Nat) (data : List Byte) : (s.landLine j i data).pulls = s.pulls := by
  unfold State.landLine
  dsimp only
  cases if j.role = .primary then s.twinJob j else none with
  | none => exact s.landOne_pulls j i data
  | some t => exact ((s.landOne j i data).landOne_pulls t i data).trans (s.landOne_pulls j i data)

theorem State.landLine_single (s : State) {j : Job} (single : j.role = .single) (i : Nat) (data : List Byte) :
    s.landLine j i data = s.landOne j i data := by
  unfold State.landLine
  rw [single]
  rfl

/-! ### The answers to pulls, and requests that go out again (R176, R178) -/

/-- A request that goes out again: it has the next transaction of its die (R178). -/
def State.reissued (s : State) (p : Pull) : State :=
  { s.setDie { s.die p.txid.die with txid := (s.die p.txid.die).txid + 1 } with
    pulls := s.pulls.map fun (r : Pull) =>
      if r.txid = p.txid then { p with txid := ⟨p.txid.die, (s.die p.txid.die).txid⟩, sent := s.cycle p.txid.die } else r }

theorem State.reissued_txid (s : State) (p : Pull) : ((s.reissued p).die p.txid.die).txid = (s.die p.txid.die).txid + 1 := by
  have kept := s.die_setDie { s.die p.txid.die with txid := (s.die p.txid.die).txid + 1 }
  rw [s.die_die] at kept
  exact congrArg DieState.txid kept

section Response
variable {s : State} {p : Pull} {j : Job} (found : s.pulls.find? (fun q => q.txid == p.txid) = some p) (job : s.job? p.job = some j)
  (runs : s.halted j.ctx = false)
include found job runs

/-- The state without a pull that is answered. -/
def State.withoutPull (s : State) (p : Pull) : State := { s with pulls := s.pulls.filter fun q => q.txid != p.txid }

theorem exec_pullResponse (refused : Bool) (data : Line) : exec (.pullResponse p.txid refused data) s =
    if refused then .next ((s.withoutPull p).jobCause j.cid j.ctx 11 (BitVec.ofNat 96 (p.line + 7 * 2 ^ 64)) j.pc)
    else if j.landed.contains p.line then .next (s.withoutPull p)
    else .next ((s.withoutPull p).landLine j p.line (data.take 128 ++ List.replicate (128 - data.length) 0)) := by
  change execPullResponse p.txid refused data s = _
  unfold execPullResponse
  rw [found]
  dsimp only
  rw [job]
  dsimp only
  rw [runs]
  rfl

/-- An answer that refuses stops the context of the job (R176). -/
theorem pullResponse_refused (data : Line) : ∃ (u : State) (y : Ctx), exec (.pullResponse p.txid true data) s = .next u ∧ u.ctx? j.ctx = some y ∧
    y.halt = true ∧ y.firstCause = 11 ∧ u.mem = s.mem := by
  obtain ⟨y, ctx, halt, first⟩ := State.jobCause_stops (s := s.withoutPull p) runs j.cid 11 (BitVec.ofNat 96 (p.line + 7 * 2 ^ 64)) j.pc
  exact ⟨_, y, exec_pullResponse found job runs true data, ctx, halt, first, State.jobCause_mem _ _ _ _ _ _⟩

/-- An answer lands its line (R176). -/
theorem pullResponse_lands (data : Line) (new : p.line ∉ j.landed) (whole : data.length = 128) :
    ∃ u : State, exec (.pullResponse p.txid false data) s = .next u ∧
      (∀ q ∈ u.pulls, q.txid ≠ p.txid) ∧ j.line0 + p.line ∈ (u.core j.core).full ∧
      (j.role = .single → s.plainStores → (∀ i, i < 128 → memByte u.mem (tileKey j.core (128 * (j.line0 + p.line)) + i) = data.getD i 0) ∧
        ∀ a, (a < tileKey j.core (128 * (j.line0 + p.line)) ∨ tileKey j.core (128 * (j.line0 + p.line)) + 128 ≤ a) →
          memByte u.mem a = memByte s.mem a) := by
  have bytes : data.take 128 ++ List.replicate (128 - data.length) 0 = data := by
    rw [whole, List.take_of_length_le (Nat.le_of_eq whole), Nat.sub_self, List.replicate_zero, List.append_nil]
  have run := exec_pullResponse found job runs false data
  rw [bytes, if_neg Bool.false_ne_true, if_neg (by simpa using new)] at run
  refine ⟨_, run, fun q has => ?_, State.mem_landLine_full _ j p.line data, fun single plain => ?_⟩
  · rw [State.landLine_pulls] at has
    exact bne_iff_ne.1 (List.mem_filter.1 has).2
  · rw [State.landLine_single _ single, State.landOne_mem]
    refine ⟨fun i below => State.store_memByte _ _ _ i (by rw [whole]; exact below), fun a outside => ?_⟩
    exact State.store_memByte_other (s.withoutPull p) _ _ plain a (by rw [whole]; exact outside)

/-- A request unanswered for 2^20 cycles goes out again under a new transaction (R178). -/
theorem pullReissue_holds (t : RankTable) (e : RankEntry) (adopted : s.adopted = some t) (entry : t.entries[p.rank]? = some e)
    (late : p.sent + 2 ^ 20 ≤ s.cycle p.txid.die) :
    ∃ u : State, exec (.pullReissue p.txid) s = .next u ∧ u.mem = s.mem ∧ (u.die p.txid.die).txid = (s.die p.txid.die).txid + 1 ∧
      u.pulls = s.pulls.map (fun r => if r.txid = p.txid then { p with txid := ⟨p.txid.die, (s.die p.txid.die).txid⟩, sent := s.cycle p.txid.die } else r) ∧
      ∀ k n, k = s.packetTo p.txid.die e.faddr (j.srcCore / 96) (s.die p.txid.die).txid (.pullReq j.srcCore (j.srcLine + p.line)) →
        s.sendsAt p.txid.die k n → s.sent u ((s.port n).leaves k) := by
  have run : exec (.pullReissue p.txid) s = .next ((s.reissued p).send p.txid.die
      (s.packetTo p.txid.die e.faddr (j.srcCore / 96) (s.die p.txid.die).txid (.pullReq j.srcCore (j.srcLine + p.line)))) := by
    change execPullReissue p.txid s = _
    unfold execPullReissue
    rw [found]
    dsimp only
    rw [job, adopted]
    dsimp only [Option.bind]
    rw [entry]
    exact if_neg (by rw [runs]; simpa using late)
  have frame := (s.reissued p).send_onlyPorts p.txid.die
    (s.packetTo p.txid.die e.faddr (j.srcCore / 96) (s.die p.txid.die).txid (.pullReq j.srcCore (j.srcLine + p.line)))
  unfold State.onlyPorts at frame
  refine ⟨_, run, State.send_mem _ _ _, ?_, congrArg State.pulls frame, fun k n same leads => ?_⟩
  · rw [frame]
    exact s.reissued_txid p
  · subst same
    exact State.send_sent (s := s.reissued p) leads

end Response

end Sys2Proof.Machine
end

section
/-!
What a collective makes of its chunks (part of O55): one participant alone, and a broadcast (R185, R186).
-/

namespace Sys2Proof.Machine

set_option Elab.async false

/-! ### Bytes cut into chunks (R186) -/

theorem cutBytes_nil (n z : Nat) : cutBytes n z [] = [] := by cases n <;> rfl

theorem cutBytes_succ (n z : Nat) {bs : List Byte} (some_left : bs ≠ []) : cutBytes (n + 1) z bs = bs.take z :: cutBytes n z (bs.drop z) :=
  if_neg some_left

theorem cutBytes_flatten {z : Nat} (n : Nat) : ∀ bs : List Byte, bs.length ≤ n * z → (cutBytes n z bs).flatten = bs := by
  induction n with
  | zero =>
    intro bs fits
    rw [List.eq_nil_of_length_eq_zero (by omega : bs.length = 0)]
    rfl
  | succ n ih =>
    intro bs fits
    by_cases empty : bs = []
    · rw [empty, cutBytes_nil]
      rfl
    · rw [Nat.add_mul] at fits
      rw [cutBytes_succ n z empty, List.flatten_cons, ih _ (by rw [List.length_drop]; omega), List.take_append_drop]

theorem length_cutBytes {z : Nat} (pos : 0 < z) (n : Nat) : ∀ bs : List Byte, bs.length ≤ n * z →
    (cutBytes n z bs).length = (bs.length + (z - 1)) / z := by
  induction n with
  | zero =>
    intro bs fits
    rw [List.eq_nil_of_length_eq_zero (by omega : bs.length = 0)]
    exact (Nat.div_eq_of_lt (by rw [List.length_nil]; omega)).symm
  | succ n ih =>
    intro bs fits
    by_cases empty : bs = []
    · rw [empty, cutBytes_nil]
      exact (Nat.div_eq_of_lt (by rw [List.length_nil]; omega)).symm
    · rw [Nat.add_mul] at fits
      have some_left : 0 < bs.length := List.length_pos_of_ne_nil empty
      rw [cutBytes_succ n z empty, List.length_cons, ih _ (by rw [List.length_drop]; omega), List.length_drop]
      by_cases more : z ≤ bs.length
      · rw [← Nat.add_div_right _ pos]
        exact congrArg (· / z) (by omega)
      · rw [show bs.length - z = 0 by omega, Nat.zero_add, Nat.div_eq_of_lt (by omega)]
        exact (Nat.div_eq_of_lt_le (by omega) (by omega)).symm

/-- A chunk holds whole elements where the chunk size and all the bytes do. -/
theorem dvd_length_of_mem_cutBytes {w z : Nat} (size : w ∣ z) (n : Nat) : ∀ bs : List Byte, w ∣ bs.length → ∀ x ∈ cutBytes n z bs, w ∣ x.length := by
  induction n with
  | zero => exact fun _ _ x has => nomatch has
  | succ n ih =>
    intro bs whole x has
    by_cases empty : bs = []
    · rw [empty, cutBytes_nil] at has
      cases has
    · rw [cutBytes_succ n z empty, List.mem_cons] at has
      rcases has with rfl | has
      · rw [List.length_take]
        rcases Nat.le_total z bs.length with le | le
        · rwa [Nat.min_eq_left le]
        · rwa [Nat.min_eq_right le]
      · exact ih _ (by rw [List.length_drop]; exact Nat.dvd_sub whole size) x has

/-- Elements of `w` bytes, one after the other, are the bytes again. -/
theorem flatMap_elements (b : List Byte) (w n : Nat) : ((List.range n).flatMap fun i => (b.drop (i * w)).take w) = b.take (n * w) := by
  induction n with
  | zero => simp
  | succ n ih =>
    rw [List.range_succ, List.flatMap_append, ih, Nat.add_mul, Nat.one_mul, List.take_add]
    simp

/-! ### One participant alone (R185, R186) -/

theorem foldAll_one (alg : Nat) (f : Nat → Nat → Nat) (x : Nat) : foldAll alg 0 f [x] = x := by
  unfold foldAll
  split
  · rfl
  · split <;> rfl

/-- A chunk to which one participant contributes is that contribution. -/
theorem chunkFinal_one {sub root : Nat} {t : Typ} (red alg c : Nat) {b : List Byte} (root_exists : sub = 3 → root = 0)
    (op : sub = 2 ∨ sub = 3 ∨ t ∈ [Typ.u32, .s32, .f32, .f16, .bf16]) (whole : 4 ∣ b.length) : chunkFinal sub t red alg root c [b] = b := by
  unfold chunkFinal
  dsimp only [List.length_singleton]
  rw [Nat.mod_one]
  split
  · rfl
  · next noGather =>
    split
    · next broadcast => rw [root_exists broadcast]; rfl
    · next noBroadcast =>
      have size : elemBits t / 8 ∣ 4 := by
        have typed := (op.resolve_left noGather).resolve_left noBroadcast
        simp only [List.mem_cons, List.not_mem_nil, or_false] at typed
        rcases typed with rfl | rfl | rfl | rfl | rfl <;> decide
      generalize elemBits t / 8 = w at *
      have elements : b.length / w * w = b.length := Nat.div_mul_cancel (size.trans whole)
      have own (i : Nat) (below : i < b.length / w) :
          natBytes w (foldAll alg 0 (collFold t red) [leNat ((b.drop (i * w)).take w)]) = (b.drop (i * w)).take w := by
        have room : (i + 1) * w ≤ b.length := elements ▸ Nat.mul_le_mul_right w below
        rw [Nat.add_mul, Nat.one_mul] at room
        have len : ((b.drop (i * w)).take w).length = w := by
          rw [List.length_take, List.length_drop]
          omega
        rw [foldAll_one]
        conv => lhs; arg 1; rw [← len]
        exact natBytes_leNat _
      have all := List.flatMap_congr (f := fun i => natBytes w (foldAll alg 0 (collFold t red) [leNat ((b.drop (i * w)).take w)]))
        (g := fun i => (b.drop (i * w)).take w) fun i (has : i ∈ List.range (b.length / w)) => own i (List.mem_range.1 has)
      exact all.trans ((flatMap_elements b w _).trans (by rw [elements, List.take_length]))

theorem chunksByPos_one (z : Nat) (b : List Byte) : chunksByPos z [b] = (cutBytes 64 z b).map fun x => [x] := by
  refine List.ext_getElem (by simp [chunksByPos]) fun i _ below => ?_
  rw [List.length_map] at below
  simp [chunksByPos, List.getElem?_eq_getElem below]

/-- Alone, every chunk is final as it is. -/
theorem collOutcome_one (id : Nat) {sub root : Nat} {t : Typ} (red alg : Nat) {b : List Byte} (root_exists : sub = 3 → root = 0)
    (op : sub = 2 ∨ sub = 3 ∨ t ∈ [Typ.u32, .s32, .f32, .f16, .bf16]) (whole : 4 ∣ b.length) :
    collOutcome id sub t red alg root 0 false (chunksByPos 256 [b]) = (cutBytes 64 256 b).map fun x => (2, x) := by
  rw [chunksByPos_one]
  refine List.ext_getElem (by simp [collOutcome]) fun i _ below => ?_
  have chunk := dvd_length_of_mem_cutBytes (by decide : 4 ∣ 256) 64 b whole _ (List.getElem_mem (by simpa using below))
  simp [collOutcome, Nat.mod_one, chunkFinal_one red alg i root_exists op chunk]

/-! ### A broadcast (R185) -/

/-- A broadcast leaves the bytes of its root. -/
theorem collOutcome_broadcast (id : Nat) (t : Typ) (red alg me : Nat) {root len : Nat} {all : List (List Byte)} (root_exists : root < all.length)
    (same : ∀ x ∈ all, x.length = len) (fits : len ≤ 64 * 256) :
    (collOutcome id 3 t red alg root me false (chunksByPos 256 all)).flatMap (·.2) = all.getD root [] := by
  obtain ⟨first, rest, hall⟩ : ∃ x xs, all = x :: xs := List.exists_cons_of_length_pos (by omega)
  have cut (x : List Byte) (has : x ∈ all) : (cutBytes 64 256 x).length = (len + 255) / 256 := by
    rw [length_cutBytes (by decide) 64 x (by rw [same x has]; exact fits), same x has]
  have chunks : ((all.map (cutBytes 64 256)).headD []).length = (cutBytes 64 256 all[root]).length := by
    rw [cut _ (List.getElem_mem root_exists)]
    subst hall
    exact cut first List.mem_cons_self
  have outcome : collOutcome id 3 t red alg root me false (chunksByPos 256 all) =
      (cutBytes 64 256 all[root]).map fun x => (2, x) := by
    refine List.ext_getElem ?_ fun i _ below => ?_
    · simpa [collOutcome, chunksByPos] using chunks
    · rw [List.length_map] at below
      simp [collOutcome, chunksByPos, chunkFinal, root_exists, List.getElem?_eq_getElem below]
  rw [outcome, List.flatMap_map, List.getD_eq_getElem _ _ root_exists]
  have joined := cutBytes_flatten (z := 256) 64 all[root] (by rw [same _ (List.getElem_mem root_exists)]; exact fits)
  exact (congrArg List.flatten (List.map_id _)).trans joined

end Sys2Proof.Machine
end

section
/-!
How a collective ends on a package (part of O55): its window, its lines and its object (R147, R181, R185, R187).
-/

namespace Sys2Proof.Machine

set_option Elab.async false

/-! ### Where a window's bytes lie (R147) -/

/-- Where software byte `i` of a collective's window is stored. -/
def Coll.key (k : Coll) (i : Nat) : Nat := tileKey k.core (128 * (k.line0 + i / 128) + ilvByte k.ilv (k.line0 + i / 128) (i % 128))

/-- Interleaving exchanges the pieces of a line, and no piece with itself twice. -/
theorem ilvByte_pieces {ilv n b m z : Nat} (interleaved : ilv ≠ 0) (size : 8 * 2 ^ ilv = z) (pieces : 128 / z = 2 ^ m) (line : z * 2 ^ m = 128)
    (inside : b < 128) : ilvByte ilv n b < 128 ∧ ilvByte ilv n b / z = (b / z) ^^^ (n % 2 ^ m) ∧ ilvByte ilv n b % z = b % z := by
  have pos : 0 < z := by rw [← size]; positivity
  have piece : b / z < 2 ^ m := Nat.div_lt_of_lt_mul (by omega)
  have moved : (b / z) ^^^ (n % 2 ^ m) < 2 ^ m := Nat.xor_lt_two_pow piece (Nat.mod_lt _ (by positivity))
  have offset : b % z < z := Nat.mod_lt _ pos
  have here : ilvByte ilv n b = z * ((b / z) ^^^ (n % 2 ^ m)) + b % z := by
    unfold ilvByte
    rw [if_neg interleaved, size]
    dsimp only
    rw [pieces, Nat.mul_comm]
  rw [here]
  refine ⟨?_, by rw [Nat.mul_add_div pos, Nat.div_eq_of_lt offset, Nat.add_zero], by rw [Nat.mul_add_mod, Nat.mod_mod]⟩
  calc z * ((b / z) ^^^ (n % 2 ^ m)) + b % z < z * (((b / z) ^^^ (n % 2 ^ m)) + 1) := by rw [Nat.mul_add]; omega
    _ ≤ z * 2 ^ m := Nat.mul_le_mul_left z moved
    _ = 128 := line

theorem ilvByte_inverse {ilv n b m z : Nat} (interleaved : ilv ≠ 0) (size : 8 * 2 ^ ilv = z) (pieces : 128 / z = 2 ^ m) (line : z * 2 ^ m = 128)
    (inside : b < 128) : ilvByte ilv n b < 128 ∧ ilvByte ilv n (ilvByte ilv n b) = b := by
  obtain ⟨lt, high, low⟩ := ilvByte_pieces (n := n) interleaved size pieces line inside
  obtain ⟨-, high', low'⟩ := ilvByte_pieces (n := n) interleaved size pieces line lt
  refine ⟨lt, ?_⟩
  rw [← Nat.div_add_mod (ilvByte ilv n (ilvByte ilv n b)) z, high', low', high, low, Nat.xor_xor_cancel_right, Nat.div_add_mod]

/-- The four interleaves each permute a line. -/
theorem ilvByte_permutes {ilv n b : Nat} (modes : ilv ≤ 3) (inside : b < 128) : ilvByte ilv n b < 128 ∧ ilvByte ilv n (ilvByte ilv n b) = b := by
  match ilv, modes with
  | 0, _ => exact ⟨inside, rfl⟩
  | 1, _ => exact ilvByte_inverse (m := 3) (z := 16) (by decide) rfl rfl rfl inside
  | 2, _ => exact ilvByte_inverse (m := 2) (z := 32) (by decide) rfl rfl rfl inside
  | 3, _ => exact ilvByte_inverse (m := 1) (z := 64) (by decide) rfl rfl rfl inside

theorem Coll.key_injective {k : Coll} (modes : k.ilv ≤ 3) {i j : Nat} (same : k.key i = k.key j) : i = j := by
  obtain ⟨lt, back⟩ := ilvByte_permutes (n := k.line0 + i / 128) modes (Nat.mod_lt i (by decide))
  obtain ⟨lt', back'⟩ := ilvByte_permutes (n := k.line0 + j / 128) modes (Nat.mod_lt j (by decide))
  unfold Coll.key tileKey at same
  have line : i / 128 = j / 128 := by omega
  rw [line] at same back lt
  have byte : ilvByte k.ilv (k.line0 + j / 128) (i % 128) = ilvByte k.ilv (k.line0 + j / 128) (j % 128) := by omega
  rw [byte, back'] at back
  omega

/-- A window's bytes lie in its lines. -/
theorem Coll.key_mem {k : Coll} (modes : k.ilv ≤ 3) {i : Nat} (inside : i < 128 * k.nlines) :
    tileKey k.core (128 * k.line0) ≤ k.key i ∧ k.key i < tileKey k.core (128 * (k.line0 + k.nlines)) := by
  have lt := (ilvByte_permutes (n := k.line0 + i / 128) modes (Nat.mod_lt i (by decide))).1
  unfold Coll.key tileKey
  omega

theorem State.length_collWindow (s : State) (k : Coll) : (s.collWindow k).length = 128 * k.nlines := by
  simp [State.collWindow]

/-! ### A window is written (R185) -/

/-- What an ending collective touches before it is dropped: memory with its poison and amber views, lines of L2, and cores. -/
def State.landsOnly (s t : State) : Prop := t = { s with mem := t.mem, poison := t.poison, views := t.views, l2 := t.l2, cores := t.cores }

theorem State.landsOnly.trans {s t u : State} (h : s.landsOnly t) (g : t.landsOnly u) : s.landsOnly u := by
  unfold State.landsOnly at *
  rw [h] at g
  exact g

theorem State.storesOnly.landsOnly {s t : State} (h : s.storesOnly t) : s.landsOnly t := by
  unfold State.landsOnly
  unfold State.storesOnly at h
  rw [h]

theorem State.putWindow_storesOnly (s : State) (k : Coll) (bs : List Byte) : s.storesOnly (s.putWindow k bs) :=
  State.storesOnly_foldl _ (fun _ _ => State.store_storesOnly _ _ _) _ s

theorem State.store_plainStores {s : State} (plain : s.plainStores) (key : Nat) (bs : List Byte) : (s.store key bs).plainStores := by
  rw [s.store_of_plainStores _ _ plain]
  exact plain

/-- What a byte of memory holds after bytes of a window have been written: what the last byte written there was, or what it held. -/
theorem memByte_putTileBytes (P : Byte → Prop) (k : Coll) (a : Nat) (l : List (Nat × Byte)) : ∀ s : State, s.plainStores →
    (P (memByte s.mem a) ∨ ∃ x ∈ l, k.key x.1 = a) → (∀ x ∈ l, k.key x.1 = a → P x.2) →
    P (memByte (l.foldl (fun t ib => t.putTileByte k.core k.line0 k.ilv ib.1 ib.2) s).mem a) := by
  induction l with
  | nil =>
    intro s _ holds _
    exact holds.resolve_right fun ⟨_, has, _⟩ => nomatch has
  | cons x l ih =>
    intro s plain holds writes
    have put : s.putTileByte k.core k.line0 k.ilv x.1 x.2 = s.writeMem (k.key x.1) [x.2] := s.store_of_plainStores _ _ plain
    refine ih _ (State.store_plainStores plain _ _) ?_ fun y has => writes y (List.mem_cons_of_mem x has)
    by_cases here : k.key x.1 = a
    · have byte := memByte_memWrite_at s.mem (k.key x.1) 0 [x.2] Nat.zero_lt_one
      rw [Nat.add_zero, here] at byte
      refine .inl ?_
      dsimp only
      rw [put]
      change P (memByte (memWrite s.mem (k.key x.1) [x.2]) a)
      rw [here, byte]
      exact writes x List.mem_cons_self here
    · refine holds.imp (fun held => ?_) fun ⟨y, has, there⟩ => ?_
      · dsimp only
        rw [put]
        change P (memByte (memWrite s.mem (k.key x.1) [x.2]) a)
        rwa [memByte_memWrite_other _ _ _ _ (by rw [List.length_singleton]; omega)]
      · rcases List.mem_cons.1 has with rfl | has
        · exact absurd there here
        · exact ⟨y, has, there⟩

theorem State.putWindow_plainStores {s : State} (k : Coll) (bs : List Byte) (plain : s.plainStores) : (s.putWindow k bs).plainStores :=
  List.foldlRecOn _ _ plain fun _ stands _ _ => State.store_plainStores stands _ _

theorem mem_mapIdx_pair {bs : List Byte} {x : Nat × Byte} (has : x ∈ bs.mapIdx fun i b => (i, b)) : x.1 < bs.length ∧ x.2 = bs.getD x.1 0 := by
  obtain ⟨i, below, same⟩ := List.mem_mapIdx.1 has
  rw [← same]
  exact ⟨below, (List.getD_eq_getElem bs 0 below).symm⟩

/-- Each byte of a window is read back as it was written. -/
theorem State.putWindow_memByte {s : State} {k : Coll} {bs : List Byte} (plain : s.plainStores) (modes : k.ilv ≤ 3) {i : Nat} (inside : i < bs.length) :
    memByte (s.putWindow k bs).mem (k.key i) = bs.getD i 0 := by
  refine memByte_putTileBytes (· = bs.getD i 0) k (k.key i) _ s plain (.inr ⟨(i, bs[i]), List.mem_mapIdx.2 ⟨i, inside, rfl⟩, rfl⟩)
    fun x has here => ?_
  rw [(mem_mapIdx_pair has).2, Coll.key_injective modes here]

/-- A window whose bytes are written as they were changes nothing that still is as it was. -/
theorem State.putWindow_collWindow {s t : State} {k : Coll} (plain : t.plainStores) {a : Nat} (same : memByte t.mem a = memByte s.mem a) :
    memByte (t.putWindow k (s.collWindow k)).mem a = memByte s.mem a := by
  refine memByte_putTileBytes (· = memByte s.mem a) k a _ t plain (.inl same) fun x has here => ?_
  obtain ⟨inside, byte⟩ := mem_mapIdx_pair has
  rw [byte, List.getD_eq_getElem _ _ inside, ← here]
  simp [State.collWindow, State.tileByte, Coll.key]

/-! ### The window lands and the object is written (R181, R185) -/

theorem State.landColl_landsOnly (s : State) (k : Coll) (out : List (Nat × List Byte)) : s.landsOnly (s.landColl k out) := by
  have stores := (s.putWindow_storesOnly k (out.flatMap (·.2))).landsOnly
  exact stores.trans rfl

theorem State.landColl_mem (s : State) (k : Coll) (out : List (Nat × List Byte)) :
    (s.landColl k out).mem = (s.putWindow k (out.flatMap (·.2))).mem := rfl

theorem State.mem_landColl_full (s : State) (k : Coll) (out : List (Nat × List Byte)) {n : Nat} (line : n ∈ k.lines) :
    n ∈ ((s.landColl k out).core k.core).full :=
  (State.mem_setCore_setFull _ k.core k.lines k.core n).2 (.inl ⟨rfl, line⟩)

/-- An object is reached: its leaf becomes dirty and its line is used (R114, R181). -/
def State.objReached (s : State) (k : Coll) : State :=
  (match k.objLeaf with
    | some l => s.setLeaf l 0x40
    | none => s).noteLine k.objPa 0 0

/-- The state in which an ending collective writes its object. -/
def State.collLanded (s : State) (k : Coll) (out : List (Nat × List Byte)) : State := (s.objReached k).landColl k out

theorem State.setLeaf_frame (s : State) (leaf : Nat) (bits : Byte) : s.setLeaf leaf bits = { s with mem := (s.setLeaf leaf bits).mem } := by
  unfold State.setLeaf
  dsimp only
  split <;> rfl

theorem State.objReached_frame (s : State) (k : Coll) : s.objReached k = { s with mem := (s.objReached k).mem, l2 := (s.objReached k).l2 } := by
  unfold State.objReached
  cases k.objLeaf with
  | none =>
    dsimp only
    rw [s.noteLine_frame]
  | some l =>
    dsimp only
    rw [State.noteLine_frame, s.setLeaf_frame]

theorem State.objReached_landsOnly (s : State) (k : Coll) : s.landsOnly (s.objReached k) := by
  unfold State.landsOnly
  rw [s.objReached_frame k]

theorem State.objReached_plainStores {s : State} (k : Coll) (plain : s.plainStores) : (s.objReached k).plainStores := by
  rw [s.objReached_frame k]
  exact plain

theorem State.objReached_memByte (s : State) {k : Coll} {a : Nat} (apart : k.objLeaf ≠ some a) : memByte (s.objReached k).mem a = memByte s.mem a := by
  unfold State.objReached
  rw [State.noteLine_mem]
  cases leaf : k.objLeaf with
  | none => rfl
  | some l => exact memByte_setLeaf s l 0x40 a fun same => apart (by rw [leaf, same])

theorem State.collLanded_landsOnly (s : State) (k : Coll) (out : List (Nat × List Byte)) : s.landsOnly (s.collLanded k out) :=
  (s.objReached_landsOnly k).trans (State.landColl_landsOnly _ k out)

theorem State.storeNat_landsOnly (s : State) (key n v : Nat) : s.landsOnly (s.storeNat key n v) := (s.store_storesOnly _ _).landsOnly

/-- The number that an ending collective leaves in its object: its MAP, and an arrival or an abort's end of the phase. -/
def collWord (o map : Nat) (gen : Word) (abort : Bool) : Nat :=
  if !abort && objExpect o == 0 then collMap o map else collObject o map gen abort

/-- A collective has landed, its object is written, and it is dropped. -/
def State.collEnded (s : State) (k : Coll) (out : List (Nat × List Byte)) (abort : Bool) : State :=
  let t := s.collLanded k out
  (t.storeNat k.objPa 32 (collWord (memNat t.mem k.objPa 32) (mapOf (out.map (·.1))) s.mgen abort)).dropColl k

section End
variable {s : State} {k : Coll} {j : Job} (job : s.job? k.id = some j) (held : k.held = true) (clean : s.poisoned k.objPa 32 = false)
include job held clean

/-- HOW A COLLECTIVE ENDS whose object can be reached: with EXPECT 0 its completion stops the context (R181, R185, R187). -/
theorem State.endColl_of_held (out : List (Nat × List Byte)) (abort : Bool) (free : abort = false → s.wordHeld k.objPa 32 = false) :
    s.endColl k out abort = if (!abort && objExpect (memNat (s.collLanded k out).mem k.objPa 32) == 0) = true then
      (s.collEnded k out abort).jobCause j.cid j.ctx 11 (BitVec.ofNat 96 (6 * 2 ^ 64)) j.pc else s.collEnded k out abort := by
  have here : s.endPlace j k.held k.objVa k.objPa k.objLeaf 1 = .ok (s, k.objPa, k.objLeaf) := by
    unfold State.endPlace
    rw [held]
  unfold State.endColl
  rw [job]
  dsimp only
  rw [here]
  dsimp only
  rw [if_neg (by cases abort with | true => exact Bool.false_ne_true | false => rw [free rfl]; exact Bool.false_ne_true),
    if_neg (by rw [clean]; exact Bool.false_ne_true)]
  unfold State.collEnded collWord
  dsimp only
  by_cases expect : (!abort && objExpect (memNat (s.collLanded k out).mem k.objPa 32) == 0) = true
  · rw [if_pos expect, if_pos expect]
    exact if_pos expect
  · rw [if_neg expect, if_neg expect]
    exact if_neg expect

end End

theorem State.dropColl_colls {s : State} {k : Coll} (issued : s.collSize k ≤ k.issued.length) : ∀ x ∈ (s.dropColl k).colls, x.id ≠ k.id := by
  intro x has
  unfold State.dropColl at has
  rw [if_pos issued] at has
  exact bne_iff_ne.1 (List.mem_filter.1 has).2

section Ended
variable (s : State) (k : Coll) (out : List (Nat × List Byte)) (abort : Bool)

/-- An ended collective changes what it lands in, and the lists that it leaves. -/
theorem State.collEnded_frame : ∃ t : State, s.landsOnly t ∧ s.collEnded k out abort = t.dropColl k :=
  ⟨_, (s.collLanded_landsOnly k out).trans (State.storeNat_landsOnly _ _ _ _), rfl⟩

theorem State.collEnded_ctx (c : BitVec 16) : (s.collEnded k out abort).ctx? c = s.ctx? c := by
  obtain ⟨t, lands, ended⟩ := s.collEnded_frame k out abort
  unfold State.landsOnly at lands
  rw [ended, lands]
  rfl

theorem State.collEnded_colls (issued : s.collSize k ≤ k.issued.length) : ∀ x ∈ (s.collEnded k out abort).colls, x.id ≠ k.id := by
  obtain ⟨t, lands, ended⟩ := s.collEnded_frame k out abort
  unfold State.landsOnly at lands
  rw [ended, lands]
  exact State.dropColl_colls issued

theorem State.mem_collEnded_full {n : Nat} (line : n ∈ k.lines) : n ∈ ((s.collEnded k out abort).core k.core).full := by
  have landed := State.mem_landColl_full (s.objReached k) k out line
  unfold State.collEnded
  change n ∈ ((State.store _ _ _).core k.core).full
  rw [State.store_core]
  exact landed

variable (plain : s.plainStores)
include plain

theorem State.collEnded_mem : (s.collEnded k out abort).mem = memPut (s.collLanded k out).mem k.objPa 32
    (collWord (memNat (s.collLanded k out).mem k.objPa 32) (mapOf (out.map (·.1))) s.mgen abort) := by
  have plain' : (s.collLanded k out).plainStores := State.putWindow_plainStores k _ (State.objReached_plainStores k plain)
  exact congrArg State.mem (State.store_of_plainStores _ k.objPa (natBytes 32 (collWord _ _ _ _)) plain')

end Ended

end Sys2Proof.Machine
end

section
/-!
COLLECTIVES AND PULLS (O55): collectives start and end, and pulls are taken, answered, landed and reissued (R175 to R179, R184 to R187).
-/

namespace Sys2Proof.Machine

set_option Elab.async false

/-! ### COLLECTIVE_START (R184, R185) -/

/-- The state in which a collective has started. -/
def State.collStarted (s : State) (k : Coll) : State :=
  { s with colls := s.colls.map fun (x : Coll) => if x.id = k.id then { x with started := true } else x }

section Start
variable {s : State} {k : Coll} {j : Job} (found : s.colls.find? (fun (x : Coll) => x.id == k.id) = some k) (job : s.job? k.id = some j)
  (fresh : k.started = false) (ready : k.ready = true) (issued : s.collSize k ≤ k.issued.length) (runs : s.halted k.ctx = false)
  (free : s.jobBlocked j = false) (full : s.linesFull k.core k.lines = true) (fits : s.collMisfit k = false)
  (active : s.groupActive k.group = true) (good : ∀ n ∈ k.lines, s.lineBad k.core n = false) (live : k.aborted = false)
include found job fresh ready issued runs free full fits active good live

theorem exec_collectiveStart : exec (.collectiveStart k.id) s =
    if (s.groupRanks k.group).length = 1 then .next ((s.collStarted k).finishColl k 0 []) else .next (s.collStarted k) := by
  have no_bad : k.lines.find? (s.lineBad k.core) = none := List.find?_eq_none.2 fun n has => by simp [good n has]
  change execCollectiveStart k.id s = _
  unfold execCollectiveStart
  rw [found, job]
  dsimp only
  rw [if_neg (by rw [runs]; exact Bool.false_ne_true), if_neg (by rw [live]; exact Bool.false_ne_true),
    if_neg (by simp [fresh, ready, free, full, issued]), if_neg (by rw [fits]; exact Bool.false_ne_true),
    if_neg (by rw [active]; exact Bool.noConfusion), no_bad]
  rfl

end Start

/-! ### A collective that is alone in its group (R185) -/

/-- A participant that fits its group and is alone in it is its only root. -/
theorem State.root_of_alone {s : State} {k : Coll} (fits : s.collMisfit k = false) (alone : (s.groupRanks k.group).length = 1) :
    k.sub = 3 → k.root = 0 := by
  intro broadcast
  unfold State.collMisfit at fits
  rw [broadcast, alone] at fits
  simpa using (Bool.or_eq_false_iff.1 fits).2

/-- What a lone participant makes of its window: every chunk final, as it is. -/
def State.collOwn (s : State) (k : Coll) : List (Nat × List Byte) := (cutBytes 64 256 (s.collWindow k)).map fun x => (2, x)

section Alone
variable {s : State} {k : Coll} (small : k.nlines ≤ 64)
include small

theorem State.collOwn_bytes : (s.collOwn k).flatMap (·.2) = s.collWindow k := by
  unfold State.collOwn
  rw [List.flatMap_map]
  exact (congrArg List.flatten (List.map_id _)).trans (cutBytes_flatten 64 _ (by rw [State.length_collWindow]; omega))

theorem State.collOwn_codes : (s.collOwn k).map (·.1) = List.replicate ((k.nlines + 1) / 2) 2 := by
  have chunks := length_cutBytes (z := 256) (by decide) 64 (s.collWindow k) (by rw [State.length_collWindow]; omega)
  rw [State.length_collWindow] at chunks
  refine List.eq_replicate_iff.2 ⟨?_, by simp [State.collOwn]⟩
  rw [State.collOwn, List.length_map, List.length_map, chunks]
  omega

/-- Where a lone collective has landed, memory is as it was but for its object's leaf. -/
theorem State.collLanded_own {a : Nat} (plain : s.plainStores) (apart : k.objLeaf ≠ some a) :
    memByte (s.collLanded k (s.collOwn k)).mem a = memByte s.mem a := by
  unfold State.collLanded
  rw [State.landColl_mem, State.collOwn_bytes small]
  exact State.putWindow_collWindow (State.objReached_plainStores k plain) (s.objReached_memByte apart)

end Alone

/-! ### A broadcast (R185) -/

/-- The contributions of all positions, in position order. -/
def State.collAll (s : State) (k : Coll) (me : Nat) (peers : List (List Byte)) : List (List Byte) :=
  peers.take me ++ [s.collWindow k] ++ peers.drop me

theorem State.length_collAll (s : State) (k : Coll) {me : Nat} {peers : List (List Byte)} (member : me < peers.length + 1) :
    (s.collAll k me peers).length = peers.length + 1 := by
  simp only [State.collAll, List.length_append, List.length_take, List.length_drop, List.length_singleton]
  omega

theorem State.length_of_mem_collAll (s : State) {k : Coll} {me : Nat} {peers : List (List Byte)} (windows : ∀ b ∈ peers, b.length = 128 * k.nlines) :
    ∀ x ∈ s.collAll k me peers, x.length = 128 * k.nlines := by
  intro x has
  simp only [State.collAll, List.mem_append, List.mem_singleton] at has
  rcases has with (has | rfl) | has
  · exact windows x (List.mem_of_mem_take has)
  · exact s.length_collWindow k
  · exact windows x (List.mem_of_mem_drop has)

/-- A collective that ended with some bytes for its window shows them there, unless its object lies in it. -/
theorem State.collEnded_tileByte {s : State} {k : Coll} {out : List (Nat × List Byte)} {bytes : List Byte} (made : out.flatMap (·.2) = bytes)
    (whole : bytes.length = 128 * k.nlines) (modes : k.ilv ≤ 3)
    (apart : k.objPa + 32 ≤ tileKey k.core (128 * k.line0) ∨ tileKey k.core (128 * (k.line0 + k.nlines)) ≤ k.objPa) (plain : s.plainStores)
    (abort : Bool) {i : Nat} (inside : i < 128 * k.nlines) : (s.collEnded k out abort).tileByte k.core k.line0 k.ilv i = bytes.getD i 0 := by
  obtain ⟨low, high⟩ := Coll.key_mem modes inside
  change memByte (s.collEnded k out abort).mem (k.key i) = _
  rw [s.collEnded_mem k out abort plain, memByte_memPut_other _ _ _ _ _ (by omega), State.collLanded, State.landColl_mem, made]
  exact State.putWindow_memByte (State.objReached_plainStores k plain) modes (by rw [whole]; exact inside)

section Finish
variable {s : State} {k : Coll} {j : Job} (job : s.job? k.id = some j) (held : k.held = true) (clean : s.poisoned k.objPa 32 = false)
  (free : s.wordHeld k.objPa 32 = false)
include job held clean free

/-- A collective that is alone ends with its window as it was and one arrival at its object. -/
theorem State.finishColl_alone (issued : s.collSize k ≤ k.issued.length) (root_exists : k.sub = 3 → k.root = 0) (small : k.nlines ≤ 64)
    (op : k.sub = 2 ∨ k.sub = 3 ∨ k.typ ∈ [Typ.u32, .s32, .f32, .f16, .bf16]) (plain : s.plainStores)
    (expects : objExpect (memNat s.mem k.objPa 32) ≠ 0) (leaf_apart : ∀ l, k.objLeaf = some l → l < k.objPa ∨ k.objPa + 32 ≤ l) :
    (∀ n ∈ k.lines, n ∈ ((s.finishColl k 0 []).core k.core).full) ∧ (∀ x ∈ (s.finishColl k 0 []).colls, x.id ≠ k.id) ∧
      memNat (s.finishColl k 0 []).mem k.objPa 32 =
        collObject (memNat s.mem k.objPa 32) (mapOf (List.replicate ((k.nlines + 1) / 2) 2)) s.mgen false % 2 ^ 256 ∧
      ∀ a, (a < k.objPa ∨ k.objPa + 32 ≤ a) → k.objLeaf ≠ some a → memByte (s.finishColl k 0 []).mem a = memByte s.mem a := by
  have own : s.finishColl k 0 [] = s.endColl k (s.collOwn k) false :=
    congrArg (s.endColl k · false) (collOutcome_one k.id k.red _ root_exists op (by rw [State.length_collWindow]; omega))
  have object : memNat (s.collLanded k (s.collOwn k)).mem k.objPa 32 = memNat s.mem k.objPa 32 :=
    congrArg leNat (memBytes_congr _ _ _ _ fun i below => State.collLanded_own small plain fun leaf => by
      rcases leaf_apart _ leaf with before | after <;> omega)
  have ended := State.endColl_of_held job held clean (s.collOwn k) false fun _ => free
  rw [object, if_neg (by simpa using expects), ← own] at ended
  have mem := s.collEnded_mem k (s.collOwn k) false plain
  rw [object, State.collOwn_codes small, collWord, if_neg (by simpa using expects)] at mem
  rw [ended, mem]
  refine ⟨fun n line => s.mem_collEnded_full k _ false line, s.collEnded_colls k _ false issued, ?_, fun a outside apart => ?_⟩
  · rw [memNat_memPut_same]
    rfl
  · exact (memByte_memPut_other _ _ _ _ a outside).trans (State.collLanded_own small plain apart)

/-- A broadcast ends with the root's window in every participant's. -/
theorem State.finishColl_broadcast (issued : s.collSize k ≤ k.issued.length) {me : Nat} {peers : List (List Byte)} (broadcast : k.sub = 3)
    (root_exists : k.root < peers.length + 1) (windows : ∀ b ∈ peers, b.length = 128 * k.nlines) (small : k.nlines ≤ 64) (modes : k.ilv ≤ 3)
    (apart : k.objPa + 32 ≤ tileKey k.core (128 * k.line0) ∨ tileKey k.core (128 * (k.line0 + k.nlines)) ≤ k.objPa) (plain : s.plainStores)
    (member : me < peers.length + 1) :
    (∀ x ∈ (s.finishColl k me peers).colls, x.id ≠ k.id) ∧ (∀ n ∈ k.lines, n ∈ ((s.finishColl k me peers).core k.core).full) ∧
      ∀ i, i < 128 * k.nlines →
        (s.finishColl k me peers).tileByte k.core k.line0 k.ilv i = ((s.collAll k me peers).getD k.root []).getD i 0 := by
  rw [← s.length_collAll k member] at root_exists
  have same := s.length_of_mem_collAll (me := me) windows
  obtain ⟨out, def_out⟩ : ∃ out, out = collOutcome k.id k.sub k.typ k.red (collAlg k.alg k.nlines (s.collAll k me peers).length 8) k.root me false
    (chunksByPos 256 (s.collAll k me peers)) := ⟨_, rfl⟩
  have made : out.flatMap (·.2) = (s.collAll k me peers).getD k.root [] := by
    rw [def_out, broadcast]
    exact collOutcome_broadcast k.id k.typ k.red _ me root_exists same (by omega)
  have whole : ((s.collAll k me peers).getD k.root []).length = 128 * k.nlines := by
    rw [List.getD_eq_getElem _ _ root_exists]
    exact same _ (List.getElem_mem _)
  have finishes : s.finishColl k me peers = s.endColl k out false := congrArg (s.endColl k · false) def_out.symm
  have gone := s.collEnded_colls k out false issued
  have full (n : Nat) (line : n ∈ k.lines) := s.mem_collEnded_full k out false line
  have window (i : Nat) (inside : i < 128 * k.nlines) := State.collEnded_tileByte made whole modes apart plain false inside
  rw [finishes, State.endColl_of_held job held clean out false fun _ => free]
  split
  · rw [State.jobCause_frame]
    exact ⟨gone, full, window⟩
  · exact ⟨gone, full, window⟩

end Finish

/-! ### COLLECTIVE_COMPLETE (R184, R185) -/

/-- An abort ends a collective whose object can be reached. -/
theorem State.abortColl_ended {s : State} {k : Coll} {j : Job} (job : s.job? k.id = some j) (held : k.held = true)
    (clean : s.poisoned k.objPa 32 = false) : ∃ out, s.abortColl k = s.collEnded k out true := by
  have ended (out : List (Nat × List Byte)) : s.endColl k out true = s.collEnded k out true :=
    (State.endColl_of_held job held clean out true fun no => Bool.noConfusion no).trans (if_neg Bool.false_ne_true)
  unfold State.abortColl
  dsimp only
  split
  · split
    · exact ⟨_, ended _⟩
    · exact ⟨_, ended _⟩
  · exact ⟨_, ended _⟩

/-- A mismatch aborts the participant and stops its context (R184). -/
theorem State.collMismatch_holds {s : State} {k : Coll} {j : Job} (job : s.job? k.id = some j) (held : k.held = true)
    (clean : s.poisoned k.objPa 32 = false) (issued : s.collSize k ≤ k.issued.length) (runs : s.halted k.ctx = false) :
    (∀ x ∈ (s.collMismatch k).colls, x.id ≠ k.id) ∧ ∃ y, (s.collMismatch k).ctx? k.ctx = some y ∧ y.halt = true ∧ y.firstCause = 11 := by
  obtain ⟨out, aborts⟩ := State.abortColl_ended job held clean
  have still : (s.collEnded k out true).halted k.ctx = false := by
    rw [State.halted, State.collEnded_ctx]
    exact runs
  unfold State.collMismatch
  rw [aborts]
  refine ⟨?_, State.jobCause_stops still k.cid 11 _ k.pc⟩
  rw [State.jobCause_frame]
  exact s.collEnded_colls k out true issued

theorem exec_collectiveComplete {s : State} {k : Coll} (found : s.colls.find? (fun (x : Coll) => x.id == k.id) = some k)
    (started : k.started = true) (runs : s.halted k.ctx = false) (peers : List (List Byte)) (mismatch : Bool) :
    exec (.collectiveComplete k.id peers mismatch) s =
      if mismatch then .next (s.collMismatch k)
      else match s.position k.group with
        | none => .next (s.collMismatch k)
        | some me =>
          if peers.length + 1 = (s.groupRanks k.group).length ∧ peers.all (fun b => b.length == 128 * k.nlines) = true then
            .next (s.finishColl k me peers)
          else .next s := by
  change execCollectiveComplete k.id peers mismatch s = _
  unfold execCollectiveComplete
  rw [found]
  exact if_neg (by simp [started, runs])

/-- A package's position is one of its group's. -/
theorem State.position_lt {s : State} {g me : Nat} (here : s.position g = some me) : me < (s.groupRanks g).length :=
  (List.findIdx?_eq_some_iff_findIdx_eq.1 here).1

/-! ### The obligation -/

/-- Settles O55: COLLECTIVES AND PULLS, event by event (R175 to R179, R184 to R187). -/
theorem collectivesAndPulls : Obligations.CollectivesAndPulls := by
  unfold Obligations.CollectivesAndPulls
  intro s
  refine ⟨?start, ?complete, fun src gen txid core line p => pullRequest_holds s src gen txid core line p,
    fun p found serves => pullLineRead_holds found serves, fun p found unserved => ?unowned, fun p j data found job runs => ⟨?refused, ?lands, ?reissue⟩⟩
  case start =>
    rintro k j t found job fresh ready issued runs free full fits active good live rfl
    have run := exec_collectiveStart found job fresh ready issued runs free full fits active good live
    refine ⟨fun others => run.trans (if_neg others), fun alone small _ op plain held unheld clean expects leaf_apart => ?_⟩
    exact ⟨_, run.trans (if_pos alone), State.finishColl_alone (s := s.collStarted k) job held clean unheld issued
      (State.root_of_alone fits alone) small op plain expects leaf_apart⟩
  case complete =>
    intro k j peers found job started runs issued held clean
    refine ⟨?_, fun me position count windows broadcast root_exists small modes apart unheld plain => ?_⟩
    · obtain ⟨gone, y, ctx, halt, first⟩ := State.collMismatch_holds job held clean issued runs
      exact ⟨_, y, exec_collectiveComplete found started runs peers true, gone, ctx, halt, first⟩
    · have run := exec_collectiveComplete found started runs peers false
      rw [if_neg Bool.false_ne_true, position] at run
      have sizes : peers.all (fun b => b.length == 128 * k.nlines) = true := List.all_eq_true.2 fun b has => beq_iff_eq.2 (windows b has)
      have member := State.position_lt position
      rw [← count] at root_exists member
      exact ⟨_, run.trans (if_pos ⟨count, sizes⟩), State.finishColl_broadcast job held clean unheld issued broadcast root_exists windows small modes
        apart plain member⟩
  case unowned => exact (exec_pullLineRead found (.inr (.inl unserved))).trans (if_pos unserved)
  case refused => exact pullResponse_refused found job runs data
  case lands => exact pullResponse_lands found job runs data
  case reissue => exact fun t e adopted entry late => pullReissue_holds found job runs t e adopted entry late

end Sys2Proof.Machine
end

section
/-!
Waits on counters and pages, and remote register writes (O36, O37): AWAITC, CWAIT, the split forms, RWR.
-/

namespace Sys2Proof.Machine

set_option Elab.async false

/-! ### A counter is read (R375) -/

/-- The machine once a counter's address has been translated and its line read afresh (R127, R375). -/
def State.seesCounter (s : State) (c : Cohort) (x : Ctx) (va : DWord) (key : Nat) (mt : BitVec 2) (leaf : Option TlbEntry) (tile : Bool) : State :=
  let s0 := s.touch (.core c.core) x va (.ok key mt leaf tile)
  (if tile then s0 else (s0.noteLine key mt 0).l1Renew c.core (key / 128)).unpin c va.toNat

theorem memNat_lt (m : List Host.Cell) (a n : Nat) : memNat m a n < 256 ^ n := by
  have bound := leNat_lt (memBytes m a n)
  rwa [length_memBytes] at bound

section Counter

variable {s : State} {c : Cohort} {x : Ctx} {va : DWord} {key : Nat} {mt : BitVec 2} {leaf : Option TlbEntry} {tile : Bool}

/-- The read of a counter is an access that writes no byte but that of its leaf entry. -/
theorem State.seesCounter_plain : s.plainAccess (s.seesCounter c x va key mt leaf tile) ∧
    agreesOff (coversLeaf (.ok key mt leaf tile)) s.mem (s.seesCounter c x va key mt leaf tile).mem := by
  have touched := s.touch_touches c.core x va (.ok key mt leaf tile)
  unfold State.seesCounter
  cases tile with
  | true =>
    have unpinned := touched.trans (State.unpin_touches _ _ c va.toNat)
    exact ⟨unpinned.plainAccess, unpinned.mem⟩
  | false =>
    have noted := touched.trans (State.noteLine_touches _ _ key mt 0)
    have renewed := State.l1Renew_loads c.core ((s.touch (.core c.core) x va (.ok key mt leaf false)).noteLine key mt 0) (key / 128)
    have unpinned := State.unpin_touches (coversLeaf (.ok key mt leaf false))
      (((s.touch (.core c.core) x va (.ok key mt leaf false)).noteLine key mt 0).l1Renew c.core (key / 128)) c va.toNat
    refine ⟨(noted.plainAccess.trans renewed.plainAccess).trans unpinned.plainAccess, agreesOff.trans ?_ unpinned.mem⟩
    rw [renewed.mem]
    exact noted.mem

theorem State.seesCounter_bytes : onlyBytes s.mem (s.seesCounter c x va key mt leaf tile).mem key 0 (.ok key mt leaf tile) :=
  fun a _ other => State.seesCounter_plain.2 a other

/-- A counter that its leaf entry does not share is read as it stood. -/
theorem State.seesCounter_value (apart : ∀ e, leaf = some e → e.leaf < key ∨ key + 8 ≤ e.leaf) :
    memNat (s.seesCounter c x va key mt leaf tile).mem key 8 = memNat s.mem key 8 := by
  refine memNat_agrees State.seesCounter_plain.2 key 8 fun a low high => ?_
  cases leaf with
  | none => rfl
  | some e =>
    have := apart e rfl
    exact beq_false_of_ne (by omega)

/-- CWAIT AND CWAIT.split where the counter's page can be read (R375). -/
theorem cwaitOut_of_ok {f : Fields} (split : Bool) (hc : s.me? = some c) (hx : s.ctx? c.ctx = some x) (hr : c.role = .single)
    (hm : c.writeMask f ≠ 0) (hva : va = c.opnd64 f f.oa (elect (c.writeMask f))) (aligned : va.toNat % 8 = 0)
    (fate : s.xlat (.core c.core) c.core x .load va = .ok key mt leaf tile) :
    cwaitOut f s split =
      if split then splitOut (s.seesCounter c x va key mt leaf tile) c f 2
        (.counter key va ((s.opnd c f f.ob (elect (c.writeMask f))).setWidth 64) f.scp) none
      else if inRegs key = false ∧ s.poisoned key 8 = true then
        raiseHw (s.touch (.core c.core) x va (.ok key mt leaf tile)) c 5 key
      else
        let v := BitVec.ofNat 64 (if inRegs key then (s.seesCounter c x va key mt leaf tile).hostRead (regOff key) 8
          else memNat (s.seesCounter c x va key mt leaf tile).mem key 8)
        if v.toNat < ((s.opnd c f f.ob (elect (c.writeMask f))).setWidth 64 : DWord).toNat then waitHere (s.seesCounter c x va key mt leaf tile) c
        else finish (s.seesCounter c x va key mt leaf tile) c := by
  have whole : ¬ va.toNat % 8 ≠ 0 := not_not_intro aligned
  have alone : (c.role != .single) = false := by rw [hr]; rfl
  have primary : ¬ c.role = .secondary := by rw [hr]; exact nofun
  subst hva
  have clean := (s.touch_touches c.core x (c.opnd64 f f.oa (elect (c.writeMask f))) (.ok key mt leaf tile)).poisoned key 8
  unfold Cohort.opnd64 at *
  simp only [cwaitOut, withMe_some s c _ hc, withCtx_some s c x _ hx, if_neg hm, Cohort.addrElected, if_neg whole, fate, alone, if_neg primary,
    Bool.false_and, Bool.false_eq_true, if_false, clean, outsideValue_of_single _ c _ _ hr]
  rfl

/-- CWAIT by the comparison of the counter with the value waited for (R375). -/
theorem exec_cwait {f : Fields} (hc : s.me? = some c) (hx : s.ctx? c.ctx = some x) (hr : c.role = .single) (hm : c.writeMask f ≠ 0)
    (hva : va = c.opnd64 f f.oa (elect (c.writeMask f))) (aligned : va.toNat % 8 = 0)
    (fate : s.xlat (.core c.core) c.core x .load va = .ok key mt leaf tile) (memory : inRegs key = false) (clean : s.poisoned key 8 = false)
    (apart : ∀ e, leaf = some e → e.leaf < key ∨ key + 8 ≤ e.leaf) :
    exec (.cwait f) s = if memNat s.mem key 8 < (s.opnd c f f.ob (elect (c.writeMask f))).toNat
      then waitHere (s.seesCounter c x va key mt leaf tile) c else finish (s.seesCounter c x va key mt leaf tile) c := by
  have read : (BitVec.ofNat 64 (memNat s.mem key 8)).toNat = memNat s.mem key 8 := Nat.mod_eq_of_lt (memNat_lt s.mem key 8)
  have want : ((s.opnd c f f.ob (elect (c.writeMask f))).setWidth 64 : DWord).toNat = (s.opnd c f f.ob (elect (c.writeMask f))).toNat :=
    BitVec.toNat_setWidth_of_le (by decide)
  refine (cwaitOut_of_ok false hc hx hr hm hva aligned fate).trans ?_
  rw [if_neg Bool.false_ne_true, if_neg (by rw [clean]; exact fun h => Bool.false_ne_true h.2)]
  simp only [memory, Bool.false_eq_true, if_false, State.seesCounter_value apart, read, want]

/-- A split form takes the lowest free entry of its die's wait table, and its handle (R216). -/
theorem splitOut_of_free {f : Fields} {i : Nat} (t : State) (kind : Nat) (op : SplitOp) (done : Option Word) (hr : c.role = .single)
    (free : t.freeWait (c.core / 96) = some i) :
    splitOut t c f kind op done = finish
      { t with waitTable := t.waitTable ++ [{ die := dieOf c.core, index := i, op := op, cid := c.cid, ctx := c.ctx, seq := t.fresh,
                                              done := done.map fun v => (v, t.cycle (dieOf c.core)), parked := false }], fresh := t.fresh + 1 }
      (c.putUniformOpt f.od (BitVec.ofNat 32 (kind * 2 ^ 28 + i))) := by
  have primary : ¬ c.role = .secondary := by rw [hr]; exact nofun
  have handle : DWord.lo (BitVec.ofNat 64 (kind * 2 ^ 28 + i)) = BitVec.ofNat 32 (kind * 2 ^ 28 + i) := by
    unfold DWord.lo
    bv_omega
  change t.freeWait (dieOf c.core) = some i at free
  rw [← handle]
  simp only [splitOut, if_neg primary, free, outsideValue_of_single _ c _ _ hr]

end Counter
/-! ### PGREQ.split and AWAITC (R216, R345, R426) -/

/-- PGREQ.split ON RESIDENT PAGES (R426) asks for nothing and takes an entry that is complete. -/
theorem exec_pgreqSplit (s : State) (c : Cohort) (x : Ctx) (f : Fields) (hc : s.me? = some c) (hx : s.ctx? c.ctx = some x)
    (hr : c.role = .single) (hm : c.writeMask f ≠ 0) (good : ∀ l ∈ laneList (c.writeMask f), pgreqBad x (c.ea f f.oa f.ob l) = 0)
    (resident : ∀ va ∈ s.pgreqPages x (c.writeMask f) (c.ea f f.oa f.ob), s.pageFate c x va = .resident) :
    exec (.pgreqSplit f) s = splitOut s c f 1 (.pages (s.pgreqPages x (c.writeMask f) (c.ea f f.oa f.ob))) (some 0) := by
  have notBad : ((laneList (c.writeMask f)).any fun l => pgreqBad x (c.ea f f.oa f.ob l) != 0) = false :=
    List.any_eq_false.2 fun l hl => by simp [good l hl]
  have fates : (s.pgreqPages x (c.writeMask f) (c.ea f f.oa f.ob)).map (fun p => (p, s.pageFate c x p)) =
      (s.pgreqPages x (c.writeMask f) (c.ea f f.oa f.ob)).map fun p => (p, .resident) :=
    List.map_congr_left fun va hva => by rw [resident va hva]
  have primary : ¬ c.role = .secondary := by rw [hr]; exact nofun
  change pgreqOut f s true = _
  simp only [pgreqOut, withMe_some s c _ hc, withCtx_some s c x _ hx, if_neg hm, notBad, Bool.false_eq_true, if_false, if_neg primary, fates]
  generalize s.pgreqPages x (c.writeMask f) (c.ea f f.oa f.ob) = pages
  have noError (g : Nat × PageFate → Option Nat) (hg : ∀ p, g (p, .resident) = none) :
      (pages.map fun p => (p, PageFate.resident)).findSome? g = none :=
    List.findSome?_eq_none_iff.2 fun q hq => by
      obtain ⟨p, -, rfl⟩ := List.mem_map.1 hq
      exact hg p
  have nothing : (pages.map fun p => (p, PageFate.resident)).filter (fun p => p.2 == .pending) = [] :=
    List.filter_eq_nil_iff.2 fun q hq => by
      obtain ⟨p, -, rfl⟩ := List.mem_map.1 hq
      exact Bool.false_ne_true
  rw [noError _ fun _ => rfl, nothing]
  simp

/-- AWAITC by $ARRIVE's distance from the operand (R345). -/
theorem exec_awaitc (s : State) {c : Cohort} {f : Fields} (hc : s.me? = some c) :
    exec (.awaitc f) s = if (c.arrive - s.opnd c f f.oa (elect (c.writeMask f))).toNat < 2 ^ 31 then finish s c else waitHere s c :=
  withMe_some s c _ hc

/-- Settles O36: $ARRIVE or the counter is compared, and a split form takes the lowest free entry. -/
theorem counterWaits : Obligations.CounterWaits := by
  unfold Obligations.CounterWaits
  intro s c x f hc hx hr hm
  refine ⟨fun reached => ?_, fun ahead => ?_, fun va key mt leaf tile hva aligned fate => ⟨fun memory clean apart => ?_, fun i free => ?_⟩,
    fun i good resident free => ?_⟩
  · rw [exec_awaitc s hc, if_pos reached, finish_eq]
  · rw [exec_awaitc s hc, if_neg (Nat.not_lt.2 ahead), waitHere_eq]
  · rw [exec_cwait hc hx hr hm hva aligned fate memory clean apart]
    refine ⟨fun reached => ⟨_, if_neg (Nat.not_lt.2 reached), State.seesCounter_plain.1.onlyAccess, State.seesCounter_bytes⟩,
      fun below => ⟨_, if_pos below, State.seesCounter_plain.1.onlyAccess⟩⟩
  · have table : (s.seesCounter c x va key mt leaf tile).waitTable = s.waitTable := by rw [State.seesCounter_plain.1]
    have still : (s.seesCounter c x va key mt leaf tile).freeWait (c.core / 96) = some i := by
      rw [State.freeWait, table]
      exact free
    have run := (cwaitOut_of_ok true hc hx hr hm hva aligned fate).trans ((if_pos rfl).trans (splitOut_of_free _ 2 _ none hr still))
    exact ⟨_, _, run, congrArg (· ++ _) table, rfl, rfl, rfl, rfl, rfl, State.seesCounter_bytes⟩
  · have run := (exec_pgreqSplit s c x f hc hx hr hm good resident).trans (splitOut_of_free s 1 _ (some 0) hr free)
    exact ⟨_, _, run, rfl, rfl, rfl, ⟨_, rfl⟩, rfl⟩

/-! ### RWR (R219, R437) -/

/-- The cohort that a remote write names: its workgroup by a position in the quad group, and its number there. -/
def State.remoteTarget (s : State) (c : Cohort) (pos chid : Nat) : Option Cohort :=
  s.cohorts.find? fun e => e.launch == c.launch && e.wgid.toNat == c.wgid.toNat / 4 * 4 + pos && e.chid.toNat == chid

/-- What RWR and RWR.vec send to a cohort: the elected lane's word, or the whole register. -/
def State.landingFor (s : State) (c : Cohort) (f : Fields) (vec : Bool) (d : Cohort) : Landing :=
  { sender := c.cid, target := d.cid, reg := opndIndex f.od,
    val := if vec then s.src c f f.oa else .u (s.opnd c f f.oa (elect (c.writeMask f))) }

theorem rwrOut_outside_quadGroup {s : State} {c : Cohort} {f : Fields} {l : Launch} (hc : s.me? = some c) (hl : s.launchOf c = some l)
    (alone : l.kern.qg = false) : ∃ detail, ∀ vec, rwrOut f s vec = .next (s.raise c 1 detail (c.plainRecs 0 1 9)) := by
  refine ⟨_, fun vec => (withMe_some s c _ hc).trans (if_pos ?_)⟩
  simp [hl, alone]

section QuadGroup

variable {s : State} {c : Cohort} {f : Fields} {l : Launch} (vec : Bool) (hc : s.me? = some c) (hl : s.launchOf c = some l)
  (group : l.kern.qg = true)

include hc hl group

theorem rwrOut_of_empty_mask (empty : c.writeMask f = 0) : rwrOut f s vec = .next (s.setCohort c.complete) := by
  have inGroup : (s.launchOf c).all (fun l => !l.kern.qg) = false := by simp [hl, group]
  simp only [rwrOut, withMe_some s c _ hc, inGroup, Bool.false_eq_true, if_false, if_pos empty]
  rfl

variable (hm : c.writeMask f ≠ 0)

include hm

/-- A position or a cohort number that does not exist (R437). -/
theorem rwrOut_of_no_target (bad : 3 < (s.opnd c f f.ob (elect (c.writeMask f))).toNat ∨
    c.nch.toNat ≤ (s.opnd c f f.oc (elect (c.writeMask f))).toNat) :
    rwrOut f s vec = .next (s.raiseElected c (elect (c.writeMask f)) 4 8 0 0) := by
  have inGroup : (s.launchOf c).all (fun l => !l.kern.qg) = false := by simp [hl, group]
  unfold State.opnd at bad
  simp only [rwrOut, withMe_some s c _ hc, inGroup, Bool.false_eq_true, if_false, if_neg hm, State.atElected]
  exact if_pos bad

/-- RWR OF A COHORT THAT MAY RELEASE (R219): a landing for the cohort that is found goes on its way. -/
theorem rwrOut_of_canRelease {pos chid : Nat} (hpos : pos = (s.opnd c f f.ob (elect (c.writeMask f))).toNat)
    (hchid : chid = (s.opnd c f f.oc (elect (c.writeMask f))).toNat) (near : pos ≤ 3) (among : chid < c.nch.toNat) (hr : c.role = .single)
    (ready : s.canRelease c) (resident : (s.saved.any fun v => v.wg.launch == c.launch && v.wg.wgid == c.wgid.toNat / 4 * 4 + pos) = false) :
    rwrOut f s vec = match s.remoteTarget c pos chid with
      | none => finish s c
      | some d => finish { s with landings := s.landings ++ [s.landingFor c f vec d] } c := by
  have inGroup : (s.launchOf c).all (fun l => !l.kern.qg) = false := by simp [hl, group]
  have good : ¬ (3 < pos ∨ c.nch.toNat ≤ chid) := by omega
  subst hpos hchid
  unfold State.opnd at *
  simp only [rwrOut, withMe_some s c _ hc, inGroup, Bool.false_eq_true, if_false, if_neg hm, State.atElected, if_neg good, resident,
    releasing_of_canRelease s c _ hr ready]
  rfl

end QuadGroup

/-- Settles O37: outside a quad group the refusal, inside it the checks, and then the landing of a cohort that may release. -/
theorem remoteWrites : Obligations.RemoteWrites := by
  unfold Obligations.RemoteWrites
  rintro s c f l pos chid hc hl hpos hchid
  have forms {o : Out} (h : ∀ vec, rwrOut f s vec = o) : ∀ i ∈ [Instr.rwr f, .rwrVec f], exec i s = o := by
    simp only [List.forall_mem_cons, List.not_mem_nil, false_imp_iff, implies_true, and_true]
    exact ⟨h false, h true⟩
  refine ⟨fun alone => ?_, fun group empty => forms fun vec => rwrOut_of_empty_mask vec hc hl group empty,
    fun group hm bad => forms fun vec => rwrOut_of_no_target vec hc hl group hm (by rwa [← hpos, ← hchid]),
    fun group hm near among hr ready resident => ?_⟩
  · obtain ⟨detail, refused⟩ := rwrOut_outside_quadGroup hc hl alone
    exact fun i hi => ⟨detail, forms refused i hi⟩
  have run (vec : Bool) := rwrOut_of_canRelease vec hc hl group hm hpos hchid near among hr ready resident
  refine ⟨fun d found => ⟨(run false).trans ?_, (run true).trans ?_⟩, fun missing => ⟨(run false).trans ?_, (run true).trans ?_⟩⟩
  · rw [State.remoteTarget, found]
    rfl
  · rw [State.remoteTarget, found]
    rfl
  · rw [State.remoteTarget, missing]
    rfl
  · rw [State.remoteTarget, missing]
    rfl

end Sys2Proof.Machine
end

section
/-!
DESTROY hands banks on (O49).

DESTROY frees what its context held, and every core then serves its bank requests (R155, R336). A grant writes a V register, which becomes U and
gives up its row (R335), and memory stays as it was. The statement says that DESTROY leaves memory as it found it, and asks nothing of the other
contexts' requests. Where a cohort of another context waits with a pair as destination, which no decoded ACCALLOC leaves behind, the grant settles
both registers of the pair, and a G register that obtains no row goes to the spill area (R58), which is memory. What the statement lacks is that a
kept destination is a V register, or that no request stands.
-/

namespace Sys2Proof.Machine

set_option Elab.async false

/-- `pairGrant` with compute released, the host's link up, and a second context, which has no work. -/
def pairBystander : State :=
  { pairGrant with ctxs := [progCtx, { progCtx with ctxid := 2, ctxva := 0x80 }], released := true, powered := true, cxlUp := true }

/-- The host's DESTROY of the second context. -/
def destroySecond : MailCmd := { i3c := false, tag := 0, payload := [2] }

/-- That machine once the front end has taken the command up. -/
def secondAsked : State := { pairBystander with mailbox := { cmd := cmdWord 8 0, result := 0, payload := [(0, 2)] } }

theorem openMail_destroySecond : pairBystander.openMail destroySecond 8 = some secondAsked := rfl

theorem mailMay_pairBystander : pairBystander.mailMay false = true := by decide

theorem exec_destroySecond : exec (.destroy destroySecond) pairBystander = .next ((secondAsked.destroyCtx 2).closeMail destroySecond 8 0 0) := rfl

/-- The grant to the first context's cohort spills register 0 of the pair into tile memory. -/
theorem destroySecond_spills : memByte ((secondAsked.destroyCtx 2).closeMail destroySecond 8 0 0).mem (tileKey 0 0) = 5 := by decide +kernel

/-- Refutes O49: in `pairBystander` a context without work is destroyed, and DESTROY leaves other memory than it found. -/
theorem not_mailboxCommands : ¬ Obligations.MailboxCommands := by
  unfold Obligations.MailboxCommands
  intro h
  obtain ⟨-, -, -, released⟩ := h pairBystander destroySecond
  obtain ⟨-, -, -, -, -, -, -, destroy, -, -⟩ := released rfl
  have taken : pairBystander.mailOpen secondAsked destroySecond 8 := ⟨.inr rfl, rfl, mailMay_pairBystander, openMail_destroySecond⟩
  obtain ⟨u, run, -, -, -, -, -, mem⟩ := destroy secondAsked _ taken (by decide) rfl (by decide) (by decide)
  have destroyed := Host.Outcome.next.inj (exec_destroySecond.symm.trans run)
  have spilled := destroySecond_spills
  rw [destroyed, mem] at spilled
  exact absurd spilled (by decide)

end Sys2Proof.Machine
end

section
/-!
What the front end's accesses leave as it was (part of O51): pages may be made resident and others evicted for them (R122, R123, R201, R480), a
read writes only accessed bits (R114), and a write may go to die 0's register space (R100, R308); no access registers a queue or removes one.
-/

namespace Sys2Proof.Machine

set_option Elab.async false

/-! ### Reads, and the pages made resident for them (R114, R122, R480) -/

/-- What the front end's reads may change: memory, what caches and translates it, and the effects that die 0's handler has collected. -/
def State.frontReads (s t : State) : Prop := t =
  { s with mem := t.mem, poison := t.poison, views := t.views, cores := t.cores, quads := t.quads, dies := t.dies, l2 := t.l2, ctxs := t.ctxs }

theorem State.frontReads.refl (s : State) : s.frontReads s := rfl

theorem State.frontReads.trans {s t u : State} (h : s.frontReads t) (g : t.frontReads u) : s.frontReads u := by
  unfold State.frontReads at *
  rw [h] at g
  exact g

theorem State.frontReads.foldl {α : Type} (g : State → α → State) (hg : ∀ (s : State) a, s.frontReads (g s a)) (xs : List α) (s : State) :
    s.frontReads (xs.foldl g s) := by
  induction xs generalizing s with
  | nil => exact .refl s
  | cons a xs ih => exact (hg s a).trans (ih _)

theorem State.engineReads.frontReads {s t : State} (h : s.engineReads t) : s.frontReads t := by
  unfold State.frontReads
  rw [h]

theorem State.storesOnly.frontReads {s t : State} (h : s.storesOnly t) : s.frontReads t := by
  unfold State.frontReads
  rw [h]

theorem State.drains.frontReads {s t : State} (h : s.drains t) : s.frontReads t := by
  unfold State.frontReads
  rw [h]

/-- The front end keeps no translation of its own, so that a translation for it sets the accessed bit of a leaf and nothing else (R114). -/
theorem State.touch_front (s : State) (x : Ctx) (va : DWord) (r : Xlat) : s.frontReads (s.touch .front x va r) := by
  have noted (r : Xlat) : s.noteXlat .front x va r = s := by
    unfold State.noteXlat
    split
    · rfl
    · exact ite_self s
    · rfl
  unfold State.touch
  split
  · rw [noted]
    exact (s.setLeaf_engineReads _ _).frontReads
  · rw [noted]
    exact .refl s

theorem State.invalidate_frontReads (s : State) (k : BitVec 16) (range : Option (Nat × Nat)) (inC inQ inD : Nat → Bool) :
    s.frontReads (s.invalidate k range inC inQ inD) := (s.drainWhere_drains inC).frontReads.trans rfl

theorem State.writeMem_frontReads (s : State) (a : Nat) (bs : List Byte) : s.frontReads (s.writeMem a bs) := rfl

theorem State.copyBytes_frontReads (s : State) (src dst n : Nat) : s.frontReads (s.copyBytes src dst n) := rfl

theorem State.fwNote_frontReads (s : State) (e : FwEffect) : s.frontReads (s.fwNote e) := rfl

theorem State.setCtx_frontReads (s : State) (x : Ctx) : s.frontReads (s.setCtx x) := rfl

theorem State.copyBack_frontReads (s : State) (e : TlbEntry) (host : Nat) : s.frontReads (s.copyBack e host) := by
  unfold State.copyBack
  dsimp only
  split
  · exact (s.copyBytes_frontReads _ _ _).trans (State.writeMem_frontReads _ _ _)
  · exact .refl s

theorem State.evictRange_frontReads (s : State) (x : Ctx) (va len base : Nat) : s.frontReads (s.evictRange x va len base) := by
  unfold State.evictRange
  refine .trans (.trans (.trans (.foldl _ ?_ _ s) (State.invalidate_frontReads _ _ _ _ _ _)) (.foldl _ ?_ _ _)) (State.setCtx_frontReads _ _)
  · exact fun t _ => (t.writeMem_frontReads _ _).trans (State.fwNote_frontReads _ _)
  · exact fun t _ => t.copyBack_frontReads _ _

/-- What a page that is made resident from a state leaves. -/
def Residency.reads (s : State) : Residency → Prop
  | .done t => s.frontReads t
  | _ => True

/-- What a state differs from by is passed on to what is found from there. -/
theorem Residency.reads.trans {s t : State} (h : s.frontReads t) {r : Residency} (g : r.reads t) : r.reads s := by
  cases r with
  | done u => exact State.frontReads.trans h g
  | _ => exact g

/-- Frames are found by evictions (R122). -/
theorem takeFrame_frontReads (fuel : Nat) (s : State) (k : BitVec 16) (size : Nat) :
    (takeFrame fuel s k size).elim (Residency.reads s) fun r => s.frontReads r.2 := by
  induction fuel generalizing s with
  | zero => exact trivial
  | succ fuel ih =>
    unfold takeFrame
    dsimp only
    split
    · exact trivial
    · split
      · exact .refl s
      · split
        · split
          · exact trivial
          · next x _ _ _ _ r _ _ =>
            have evicted := s.evictRange_frontReads x r.1 r.2 (x.rangeHost r.1 r.2)
            have found := ih (s.evictRange x r.1 r.2 (x.rangeHost r.1 r.2))
            revert found
            cases takeFrame fuel (s.evictRange x r.1 r.2 (x.rangeHost r.1 r.2)) k size with
            | inl r => exact .trans evicted
            | inr r => exact evicted.trans
        · split <;> exact trivial

/-- A PAGE THAT IS MADE RESIDENT (R480): ranges may be evicted for it, its bytes come, and its leaf is written. -/
theorem State.makeResident_frontReads (s : State) (k : BitVec 16) (va : Nat) : (s.makeResident k va).reads s := by
  unfold State.makeResident
  dsimp only
  split
  · exact trivial
  · split
    · split
      · exact trivial
      · exact .refl s
    · split
      · exact trivial
      · split
        · exact trivial
        · next x _ _ e _ _ r _ _ =>
          have frame := takeFrame_frontReads (x.resident.length + 2) s k e.size
          split
          · next found =>
            rw [found] at frame
            exact frame
          · next found =>
            rw [found] at frame
            split
            · exact trivial
            · exact (((frame.trans (State.copyBytes_frontReads _ _ _ _)).trans (State.writeMem_frontReads _ _ _)).trans
                (State.fwNote_frontReads _ _)).trans (State.setCtx_frontReads _ _)
    · exact trivial

theorem feResident_frontReads {s t : State} {k : BitVec 16} {x : Ctx} {acc : Acc} {ps : List (Nat × Nat)} (h : feResident k x acc ps s = .ok t) :
    s.frontReads t := by
  induction ps generalizing s with
  | nil =>
    cases h
    exact .refl _
  | cons p ps ih =>
    unfold feResident at h
    split at h
    · exact ih h
    · split at h
      · next made =>
        have reads := s.makeResident_frontReads k p.1
        rw [made] at reads
        exact State.frontReads.trans reads (ih h)
      · cases h
      · cases h
    · cases h

theorem State.vaRead_frontReads {s t : State} {x : Ctx} {va n : Nat} {bs : List Byte} (h : s.vaRead .front 0 x va n = .ok (bs, t)) :
    s.frontReads t := by
  unfold State.vaRead at h
  repeat' split at h
  all_goals cases h
  exact .foldl _ (fun t _ => (State.touch_front t x _ _).trans (State.noteRun_engineReads _ _ _ _ _).frontReads) _ _

/-- A READ BY THE FRONT END (R201). -/
theorem State.feRead_frontReads {s t : State} {k : BitVec 16} {va n : Nat} {bs : List Byte} (h : s.feRead k va n = .ok (bs, t)) : s.frontReads t := by
  unfold State.feRead at h
  split at h
  · cases h
  · split at h
    · cases h
    · next resident =>
      split at h
      · next read =>
        cases h
        exact (feResident_frontReads resident).trans (State.vaRead_frontReads read)
      all_goals cases h

/-! ### Writes (R100, R222, R308) -/

/-- The same queues are registered. -/
def State.sameQueues (s t : State) : Prop := t.queues.map Queue.num = s.queues.map Queue.num

theorem State.sameQueues.trans {s t u : State} (h : s.sameQueues t) (g : t.sameQueues u) : s.sameQueues u := Eq.trans g h

theorem State.sameQueues.of_eq {s t : State} (h : t.queues = s.queues) : s.sameQueues t := congrArg _ h

theorem State.sameQueues.foldl {α : Type} (g : State → α → State) (hg : ∀ (s : State) a, s.sameQueues (g s a)) (xs : List α) (s : State) :
    s.sameQueues (xs.foldl g s) := by
  induction xs generalizing s with
  | nil => rfl
  | cons a xs ih => exact (hg s a).trans (ih _)

theorem State.frontReads.sameQueues {s t : State} (h : s.frontReads t) : s.sameQueues t := .of_eq (by rw [h])

/-- A registered queue stays registered. -/
theorem State.sameQueues.queue {s t : State} (h : s.sameQueues t) {n : Nat} {k : Queue} (registered : s.queue? n = some k) :
    (t.queue? n).isSome := by
  have num := s.queue_num n k registered
  have listed : n ∈ s.queues.map Queue.num := by
    rw [← num]
    exact List.mem_map_of_mem (List.mem_of_find?_eq_some registered)
  unfold State.sameQueues at h
  rw [← h, List.mem_map] at listed
  obtain ⟨q, hq, same⟩ := listed
  rw [State.queue?, List.find?_isSome]
  exact ⟨q, hq, beq_iff_eq.2 same⟩

theorem State.setQueue_sameQueues (s : State) (q : Queue) : s.sameQueues (s.setQueue q) := by
  unfold State.sameQueues State.setQueue
  rw [List.map_map]
  refine List.map_congr_left fun d _ => ?_
  dsimp only [Function.comp]
  split
  · next same => exact same.symm
  · rfl

theorem State.notify_sameQueues (s : State) (n : Nat) (v : DWord) : s.sameQueues (s.notify n v) := by
  unfold State.notify
  split
  · rfl
  · dsimp only
    split
    · exact s.setQueue_sameQueues _
    · rfl

theorem State.memPageApply_queues {s t : State} {off : Nat} {v : DWord} (h : s.memPageApply off v = some t) : t.queues = s.queues := by
  unfold State.memPageApply at h
  dsimp only at h
  repeat' split at h
  all_goals cases h
  all_goals rfl

theorem State.memPageWrite_queues (s : State) (cid : Option Nat) (off : Nat) (v : DWord) : (s.memPageWrite cid off v).queues = s.queues := by
  unfold State.memPageWrite
  split
  · rfl
  · split
    · next decided => exact State.memPageApply_queues decided
    · rfl

theorem State.mailCmd_queues (s : State) (v : DWord) : (s.mailCmd v).queues = s.queues := by
  unfold State.mailCmd
  dsimp only
  repeat' split
  all_goals rfl

/-- A WRITE TO DIE 0's REGISTER SPACE (R308) may notify a queue; it registers none and removes none. -/
theorem State.hostWrite_sameQueues (s : State) (cid : Option Nat) (off n v : Nat) : s.sameQueues (s.hostWrite cid off n v) := by
  unfold State.hostWrite
  split
  · exact .of_eq (s.mailCmd_queues _)
  · split
    · rfl
    · split
      · exact s.notify_sameQueues _ _
      · split
        · exact .of_eq (s.memPageWrite_queues _ _ _)
        · split <;> rfl

theorem State.putAt_sameQueues (s : State) (key : Nat) (bs : List Byte) : s.sameQueues (s.putAt key bs) := by
  unfold State.putAt
  split
  · refine .foldl _ (fun t i => ?_) _ s
    dsimp only
    split
    · exact t.hostWrite_sameQueues _ _ _ _
    · rfl
  · exact (s.store_storesOnly key bs).frontReads.sameQueues

theorem State.dirty_frontReads (s : State) (r : Xlat) : s.frontReads (s.dirty r) := by
  unfold State.dirty
  split
  · exact (s.setLeaf_engineReads _ _).frontReads
  · exact .refl s

theorem State.vaWrite_sameQueues {s t : State} {x : Ctx} {va : Nat} {bs : List Byte} (h : s.vaWrite .front 0 x va bs = .ok t) : s.sameQueues t := by
  unfold State.vaWrite at h
  split at h
  · cases h
  · obtain rfl := Except.ok.inj h
    refine .foldl _ (fun t q => ?_) _ s
    have touched := State.touch_front t x (BitVec.ofNat 64 q.1.1) q.1.2.2
    have noted := touched.trans (State.noteRun_engineReads _ q.1.2.2.key q.2.length q.1.2.2.mt 0).frontReads
    exact (noted.trans (State.dirty_frontReads _ q.1.2.2)).sameQueues.trans (State.putAt_sameQueues _ _ _)

theorem State.feStore_sameQueues {s t : State} {k : BitVec 16} {va : Nat} {bs : List Byte} (h : s.feStore k va bs = .ok t) : s.sameQueues t := by
  unfold State.feStore at h
  split at h
  · cases h
  · split at h
    · cases h
    · next resident =>
      split at h
      · cases h
      · split at h
        · next written =>
          cases h
          exact (feResident_frontReads resident).sameQueues.trans (State.vaWrite_sameQueues written)
        all_goals cases h

theorem noteWrites_frontReads (k : BitVec 16) (ps : List (Nat × Nat)) (bs : List Byte) (s : State) : s.frontReads (noteWrites k ps bs s) := by
  induction ps generalizing s bs with
  | nil => exact .refl s
  | cons p ps ih =>
    refine .trans ?_ (ih _ _)
    split
    · split <;> rfl
    · rfl

/-- A WRITE BY THE FRONT END (R222). -/
theorem State.feWrite_sameQueues {s t : State} {k : BitVec 16} {va : Nat} {bs : List Byte} (h : s.feWrite k va bs = .ok t) : s.sameQueues t := by
  unfold State.feWrite at h
  split at h
  all_goals cases h
  next written => exact (State.feStore_sameQueues written).trans (noteWrites_frontReads _ _ _ _).sameQueues

end Sys2Proof.Machine
end

section
/-!
The table of packets, and how the front end's events end (part of O51): an entry is read, set and completed, and a handler commits (R206 to R208,
R222, R223).
-/

namespace Sys2Proof.Machine

set_option Elab.async false

/-! ### A handler commits (R222) -/

/-- A commit changes die 0's queue, firmware and journal, and ends the errors of a journal that is written anew. -/
theorem State.fwCommit_frame (s : State) (d : Nat) (hit : FwEvent → Bool) :
    s.fwCommit d hit = { s with dies := (s.fwCommit d hit).dies, upsets := (s.fwCommit d hit).upsets } := by
  unfold State.fwCommit
  dsimp only
  split <;> rfl

/-- A die that is set with the translations that it has caches nothing new. -/
theorem State.setDie_walks {good : Nat → List TlbEntry → Prop} {s : State} {d : DieState} (empty : ∀ k, good k [])
    (all : ∀ e ∈ s.dies, good e.die e.walk) (same : d.walk = (s.die d.die).walk) : ∀ e ∈ (s.setDie d).dies, good e.die e.walk := by
  intro e he
  rcases eq_or_mem_of_upsertBy DieState.die d e s.dies he with rfl | old
  · rw [same, State.die]
    cases found : s.dies.find? (·.die == e.die) with
    | none => exact empty e.die
    | some x =>
      have name : x.die = e.die := beq_iff_eq.1 (List.find?_some (p := fun y : DieState => y.die == e.die) found)
      rw [← name]
      exact all x (List.mem_of_find?_eq_some found)
  · exact all e old

theorem State.fwNote_walks {good : Nat → List TlbEntry → Prop} {s : State} (e : FwEffect) (empty : ∀ k, good k [])
    (all : ∀ e ∈ s.dies, good e.die e.walk) : ∀ d ∈ (s.fwNote e).dies, good d.die d.walk :=
  State.setDie_walks empty all (congrArg (fun k => (s.die k).walk) (s.die_die 0).symm)

theorem State.fwCommit_walks {good : Nat → List TlbEntry → Prop} {s : State} (d : Nat) (hit : FwEvent → Bool) (empty : ∀ k, good k [])
    (all : ∀ e ∈ s.dies, good e.die e.walk) : ∀ e ∈ (s.fwCommit d hit).dies, good e.die e.walk := by
  unfold State.fwCommit
  dsimp only
  split
  · exact all
  · exact State.setDie_walks empty all (congrArg (fun k => (s.die k).walk) (s.die_die d).symm)

/-! ### The table of packets (R201, R208, R223) -/

theorem State.packet_name {s : State} {q : Nat} {seq : Word} {p : PacketEntry} (h : s.packet? q seq = some p) : p.queue = q ∧ p.seq = seq := by
  have name := List.find?_some h
  rwa [Bool.and_eq_true, beq_iff_eq, beq_iff_eq] at name

/-- A packet that is set is the one of its name. -/
theorem State.packet_setPacket {s : State} {p r : PacketEntry} (h : s.packet? p.queue p.seq = some r) :
    (s.setPacket p).packet? p.queue p.seq = some p := by
  unfold State.packet? at h ⊢
  unfold State.setPacket
  dsimp only
  generalize s.packets = ps at h ⊢
  induction ps with
  | nil => cases h
  | cons e es ih =>
    rw [List.map_cons, List.find?_cons]
    by_cases same : e.queue = p.queue ∧ e.seq = p.seq
    · simp [same]
    · have skip : (e.queue == p.queue && e.seq == p.seq) = false := by simpa using same
      rw [List.find?_cons, skip] at h
      rw [if_neg same, skip]
      exact ih h

/-- A packet of another name stays, and one of its name is it. -/
theorem State.mem_setPacket {s : State} {p r : PacketEntry} : r ∈ (s.setPacket p).packets ↔
    (r ∈ s.packets ∧ ¬ (r.queue = p.queue ∧ r.seq = p.seq)) ∨ (r = p ∧ ∃ e ∈ s.packets, e.queue = p.queue ∧ e.seq = p.seq) := by
  unfold State.setPacket
  dsimp only
  rw [List.mem_map]
  constructor
  · rintro ⟨e, he, rfl⟩
    split
    · next same => exact .inr ⟨rfl, e, he, same⟩
    · next other => exact .inl ⟨he, other⟩
  · rintro (⟨hr, other⟩ | ⟨rfl, e, he, same⟩)
    · exact ⟨r, hr, if_neg other⟩
    · exact ⟨e, he, if_pos same⟩

/-- The state in which an entry is used: a bad copy has been written again from the other (R223). -/
def State.mended (s : State) (p : PacketEntry) : State :=
  { s with upsets := s.upsets.filter fun u => !(u == p.copyBad 0 || u == p.copyBad 1) }

theorem State.mended_of_clean {s : State} {p : PacketEntry} (clean : ∀ i, i < 2 → p.copyBad i ∉ s.upsets) : s.mended p = s := by
  have kept : s.upsets.filter (fun u => !(u == p.copyBad 0 || u == p.copyBad 1)) = s.upsets := by
    refine List.filter_eq_self.2 fun u hu => ?_
    have first : u ≠ p.copyBad 0 := fun same => clean 0 (by decide) (same ▸ hu)
    have second : u ≠ p.copyBad 1 := fun same => clean 1 (by decide) (same ▸ hu)
    simp [first, second]
  rw [State.mended, kept]

theorem State.mended_mended (s : State) (p : PacketEntry) : (s.mended p).mended p = s.mended p := by
  simp [State.mended]

theorem State.readEntry_of_good_copy {s : State} {p : PacketEntry} (good : p.copyBad 0 ∉ s.upsets ∨ p.copyBad 1 ∉ s.upsets) :
    s.readEntry p = (some (s.mended p), .ok s) := by
  refine if_neg ?_
  simp only [Bool.and_eq_true, List.contains_iff_mem]
  tauto

theorem State.readEntry_of_lost {s : State} {p : PacketEntry} {k : Queue} (first : p.copyBad 0 ∈ s.upsets) (second : p.copyBad 1 ∈ s.upsets)
    (hk : s.queue? p.queue = some k) (whole : k.broken = false) :
    s.readEntry p = (none, s.breakQueue p.queue p.seq 9 (s.lostDetail k)) := by
  refine (if_pos ?_).trans ?_
  · simp only [Bool.and_eq_true, List.contains_iff_mem]
    exact ⟨first, second⟩
  · rw [hk]
    dsimp only
    rw [whole, if_neg Bool.false_ne_true]

/-! ### An event about a packet (R223) -/

section Entry

variable {s : State} {q : Nat} {seq : Word} {p : PacketEntry} (found : s.packet? q seq = some p) (open_ : p.done = false)

include found open_

/-- The event goes on with the entry of a good copy. -/
theorem withEntry_of_good_copy (good : p.copyBad 0 ∉ s.upsets ∨ p.copyBad 1 ∉ s.upsets) (hit : FwEvent → Bool)
    (k : State → PacketEntry → Out) : withEntry s q seq hit k = k (s.mended p) p := by
  rw [withEntry, found]
  dsimp only
  rw [open_, if_neg Bool.false_ne_true, State.readEntry_of_good_copy good]

theorem withEntry_of_clean (clean : ∀ i, i < 2 → p.copyBad i ∉ s.upsets) (hit : FwEvent → Bool) (k : State → PacketEntry → Out) :
    withEntry s q seq hit k = k s p := by
  rw [withEntry_of_good_copy found open_ (.inl (clean 0 (by decide))), State.mended_of_clean clean]

/-- A bad copy that is written again first makes no difference. -/
theorem withEntry_mended (good : p.copyBad 0 ∉ s.upsets ∨ p.copyBad 1 ∉ s.upsets) (hit : FwEvent → Bool) (k : State → PacketEntry → Out) :
    withEntry s q seq hit k = withEntry (s.mended p) q seq hit k := by
  have mended : p.copyBad 0 ∉ (s.mended p).upsets ∨ p.copyBad 1 ∉ (s.mended p).upsets := .inl (by simp [State.mended])
  rw [withEntry_of_good_copy found open_ good, withEntry_of_good_copy (s := s.mended p) found open_ mended, State.mended_mended]

/-- An entry whose copies are both lost breaks its queue. -/
theorem withEntry_of_lost {k : Queue} {t : State} (first : p.copyBad 0 ∈ s.upsets) (second : p.copyBad 1 ∈ s.upsets)
    (hk : s.queue? q = some k) (whole : k.broken = false) (broke : s.breakQueue q seq 9 (s.lostDetail k) = .ok t) (hit : FwEvent → Bool)
    (after : State → PacketEntry → Out) : withEntry s q seq hit after = .next (t.fwCommit 0 hit) := by
  obtain ⟨rfl, rfl⟩ := State.packet_name found
  rw [withEntry, found]
  dsimp only
  rw [open_, if_neg Bool.false_ne_true, State.readEntry_of_lost first second hk whole, broke]
  rfl

end Entry

/-- The four events about a packet look at its entry first. -/
theorem exec_withEntry {q : Nat} {seq : Word} {e : Instr} (he : e ∈ [Instr.launch q seq, .bundle q seq, .inval q seq, .packetComplete q seq]) :
    ∃ hit k, ∀ s, exec e s = withEntry s q seq hit k := by
  simp only [List.mem_cons, List.not_mem_nil, or_false] at he
  rcases he with rfl | rfl | rfl | rfl
  all_goals exact ⟨_, _, fun _ => rfl⟩

/-! ### Completion (R207, R208) -/

theorem State.signalDec_zero (s : State) (k : BitVec 16) : s.signalDec k 0 = .ok s := if_pos (.inl rfl)

/-- A packet that has completed: DONE is set, its launches leave, and the table is pruned. -/
def State.completed (s : State) (p : PacketEntry) : State :=
  let t := (s.setPacket { p with done := true, started := true }).fwNote (.done p.queue p.seq)
  { t with launches := t.launches.filter fun l => !(l.queue == p.queue && l.seq == p.seq) }.prunePackets

theorem State.completePacket_of_signal {s t : State} {p : PacketEntry} (h : s.signalDec p.ctx p.signal = .ok t) :
    s.completePacket p = .ok (t.completed p) := by
  rw [State.completePacket, h]
  rfl

theorem State.completed_frame (s : State) (p : PacketEntry) :
    s.completed p = { s with packets := (s.completed p).packets, launches := (s.completed p).launches,
                             dies := (s.fwNote (.done p.queue p.seq)).dies } := rfl

theorem State.completed_launches (s : State) (p : PacketEntry) : ∀ l ∈ (s.completed p).launches, l.queue ≠ p.queue ∨ l.seq ≠ p.seq := by
  intro l hl
  have other := (List.mem_filter.1 hl).2
  rw [Bool.not_eq_true', Bool.and_eq_false_iff, beq_eq_false_iff_ne, beq_eq_false_iff_ne] at other
  exact other

/-- No packet of the name is left that is not done. -/
theorem State.completed_done (s : State) (p : PacketEntry) :
    ∀ r ∈ (s.completed p).packets, r.queue = p.queue → r.seq = p.seq → r.done = true := by
  intro r hr queue seq
  rcases State.mem_setPacket.1 (List.mem_filter.1 hr).1 with ⟨-, other⟩ | ⟨rfl, -⟩
  · exact absurd ⟨queue, seq⟩ other
  · rfl

/-- The last packet that its queue has accepted stays in the table (R211). -/
theorem State.completed_keeps_last {s : State} {p : PacketEntry} {k : Queue} (listed : p ∈ s.packets) (hk : s.queue? p.queue = some k)
    (last : k.lastSeq = some p.seq) : ({ p with done := true, started := true } : PacketEntry) ∈ (s.completed p).packets := by
  refine List.mem_filter.2 ⟨State.mem_setPacket.2 (.inr ⟨rfl, p, listed, rfl, rfl⟩), ?_⟩
  have kept : (s.queues.any fun q => q.num == p.queue && q.lastSeq == some p.seq) = true :=
    List.any_eq_true.2 ⟨k, List.mem_of_find?_eq_some hk, by rw [s.queue_num _ _ hk, last, beq_self_eq_true, beq_self_eq_true]; rfl⟩
  exact Bool.or_eq_true_iff.2 (.inl (Bool.or_eq_true_iff.2 (.inr kept)))

end Sys2Proof.Machine
end

section
/-!
The packets of a queue (O51): a packet is accepted and judged, starts, and completes; a collective program of one participant goes on by a step.
-/

namespace Sys2Proof.Machine

set_option Elab.async false

/-! ### Acceptance (R201, R206, R207) -/

/-- The machine once a packet has been copied into its queue's table, and ACCIDX has moved on. -/
def State.entered (s : State) (k : Queue) (ws : List Byte) : State :=
  ({ s.setQueue { k with next := k.next + 1, lastSeq := some k.next } with
    packets := s.packets ++ [k.packetOf ws],
    upsets := s.upsets.filter fun v => !(v == (k.packetOf ws).copyBad 0 || v == (k.packetOf ws).copyBad 1) } : State).fwNote (.entry k.num k.next)

section Accept

variable {s s1 s2 s3 : State} {q : Nat} {k : Queue} {bs ws : List Byte}

/-- A PACKET THAT STANDS IN SLOT E (R201) is copied, ACCIDX takes E + 1, and it is judged. -/
theorem exec_packetAccept (hk : s.queue? q = some k) (whole : k.broken = false) (some_ : 1 ≤ ((k.widx.getD k.next) - k.next).toNat)
    (fits : ((k.widx.getD k.next) - k.next).toNat ≤ 2 ^ (k.logsz + 4)) (room : s.unfinished q < 256)
    (may : s.fwMay 0 (some q) (isNotify q) = true)
    (header : s.feRead k.ctx (k.ring + 64 * (k.next.toNat % 2 ^ (k.logsz + 4))) 8 = .ok (bs, s1)) (valid : leNat bs % 2 = 1)
    (seq : BitVec.ofNat 32 (bitsOf (leNat bs) 63 32) = k.next)
    (body : s1.feRead k.ctx (k.ring + 64 * (k.next.toNat % 2 ^ (k.logsz + 4))) 64 = .ok (ws, s2))
    (index : s2.feWrite k.ctx k.accidx (natBytes 8 (k.next + 1).toNat) = .ok s3) :
    exec (.packetAccept q) s = feOut s (isNotify q) ((s3.entered k ws).judgePacket (k.packetOf ws)) := by
  have accepts : ¬ (k.broken = true ∨ ((k.widx.getD k.next) - k.next).toNat = 0 ∨ 2 ^ (k.logsz + 4) < ((k.widx.getD k.next) - k.next).toNat ∨
      256 ≤ s.unfinished q) := by
    rw [whole, not_or, not_or, not_or]
    exact ⟨Bool.false_ne_true, by omega, by omega, by omega⟩
  change execPacketAccept q s = _
  unfold execPacketAccept
  rw [hk]
  dsimp only
  rw [may, if_neg Bool.false_ne_true.symm, if_neg accepts, header]
  dsimp only
  rw [if_pos ⟨valid, seq⟩, State.takePacket, body]
  dsimp only
  rw [index]
  rfl

end Accept

/-- The last packet of a queue that it has entered is that of slot E, if the queue is still registered. -/
theorem State.queue_entered {s : State} {k : Queue} (ws : List Byte) (registered : (s.queue? k.num).isSome) :
    (s.entered k ws).queue? k.num = some { k with next := k.next + 1, lastSeq := some k.next } :=
  s.queue_setQueue { k with next := k.next + 1, lastSeq := some k.next } registered

/-! ### The words of a packet (R198) -/

theorem recWord_lt (bs : List Byte) (i : Nat) : recWord bs i < 2 ^ 64 :=
  (leNat_lt _).trans_le (Nat.pow_le_pow_right (by decide) (List.length_take_le 8 _))

theorem recWord_toNat (bs : List Byte) (i : Nat) : (BitVec.ofNat 64 (recWord bs i)).toNat = recWord bs i := Nat.mod_eq_of_lt (recWord_lt bs i)

theorem Queue.packetOf_word (k : Queue) (ws : List Byte) {i : Nat} (h : i < 8) : (k.packetOf ws).words.getD i 0 = BitVec.ofNat 64 (recWord ws i) := by
  simp [Queue.packetOf, List.getD_eq_getElem?_getD, h]

theorem Queue.packetOf_word_zero (k : Queue) {ws : List Byte} {i : Nat} (h : i < 8) (zero : recWord ws i = 0) :
    (k.packetOf ws).words.getD i 0 = 0 := by
  rw [k.packetOf_word ws h, zero]
  rfl

theorem Queue.packetOf_type (k : Queue) (ws : List Byte) : (k.packetOf ws).type = bitsOf (recWord ws 0) 15 8 := by
  rw [PacketEntry.type, k.packetOf_word ws (by decide), recWord_toNat]

/-- No reserved bit of a packet's first word is set, and CHAIN comes with ORDER (R198, R206). -/
def PacketEntry.soundHeader (p : PacketEntry) : Prop :=
  let h := (p.words.getD 0 0).toNat
  bitsOf h 31 16 = 0 ∧ bitsOf h 7 3 = 0 ∧ (bitsOf h 2 2 = 1 → bitsOf h 1 1 = 1)

theorem Queue.packetOf_soundHeader {k : Queue} {ws : List Byte} (high : bitsOf (recWord ws 0) 31 16 = 0) (low : bitsOf (recWord ws 0) 7 3 = 0)
    (flags : bitsOf (recWord ws 0) 2 2 = 1 → bitsOf (recWord ws 0) 1 1 = 1) : (k.packetOf ws).soundHeader := by
  unfold PacketEntry.soundHeader
  rw [k.packetOf_word ws (by decide), recWord_toNat]
  exact ⟨high, low, flags⟩

/-! ### A packet is judged (R206) -/

section Judge

variable {s : State} {p : PacketEntry} (header : p.soundHeader)

include header

theorem State.judgePacket_launch {x : LaunchSpec} {t : State} (type : p.type = 1) (good : s.checkLaunch p.ctx p.words = .good x t) :
    s.judgePacket p = .ok (t.addLaunch fun id => x.launch id p.queue p.seq p.ctx false p.prev none) := by
  obtain ⟨high, low, flags⟩ := header
  rw [State.judgePacket]
  rw [if_neg (by omega), if_neg (by omega), if_pos type, good]

/-- A NOP or a BUNDLE without reserved bits. -/
theorem State.judgePacket_plain (low : 2 ≤ p.type) (high : p.type ≤ 4) (plain : packetReserved p.words p.type = none) :
    s.judgePacket p = if p.type = 2 then s.judgeBundle p
      else if p.type = 4 ∧ s.mayStart p = true ∧ s.halted p.ctx = false then s.completePacket p else .ok s := by
  obtain ⟨reserved, reserved', flags⟩ := header
  rw [State.judgePacket]
  rw [if_neg (by omega), if_neg (by omega), if_neg (by omega), plain]

/-- A NOP completes at its acceptance if it may start then (R207, R211). -/
theorem State.judgePacket_nop (type : p.type = 4) (plain : ∀ i, 1 ≤ i → i < 8 → p.words.getD i 0 = 0) (signal : p.signal = 0)
    (runs : s.halted p.ctx = false) : s.judgePacket p = .ok (if s.mayStart p = true then s.completed p else s) := by
  have none : packetReserved p.words p.type = none := by
    rw [packetReserved, Option.map_eq_none_iff, List.find?_eq_none]
    intro i hi
    have word (positive : ¬ i = 0) := plain i (by omega) (List.mem_range.1 hi)
    rw [type]
    by_cases zero : i = 0
    · simp [zero]
    · simpa using fun _ _ => word zero
  have complete := State.completePacket_of_signal (signal ▸ s.signalDec_zero p.ctx)
  rw [State.judgePacket_plain header (by omega) (by omega) none, if_neg (by omega), runs, complete]
  by_cases may : s.mayStart p = true
  · rw [if_pos ⟨type, may, rfl⟩, if_pos may]
  · rw [if_neg fun all => may all.2.1, if_neg may]

/-- A BUNDLE is judged by its blocks (R209). -/
theorem State.judgePacket_bundle (type : p.type = 2) (first : p.words.getD 6 0 = 0) (second : p.words.getD 7 0 = 0) :
    s.judgePacket p = s.judgeBundle p := by
  have none : packetReserved p.words p.type = none := by
    rw [packetReserved, Option.map_eq_none_iff, List.find?_eq_none]
    intro i hi
    have last : i < 6 ∨ i = 6 ∨ i = 7 := by
      have := List.mem_range.1 hi
      omega
    rw [type]
    rcases last with low | rfl | rfl
    · have : ¬ 6 ≤ i := by omega
      simp [this]
    · simpa using first
    · simpa using second
  rw [State.judgePacket_plain header (by omega) (by omega) none, if_pos type]

end Judge

theorem State.judgeBundle_good {s t : State} {p : PacketEntry} {bs : List SubLaunch} (some_ : p.blocks ≠ [])
    (good : checkBlocks p.ctx p.blocks s = .good bs t) :
    s.judgeBundle p = .ok (t.setPacket { p with subs := bs, grids := bs.any SubLaunch.isGrid }) := by
  rw [State.judgeBundle, if_neg some_, good]

theorem State.judgeBundle_bad {s t : State} {p : PacketEntry} {code d : Nat} (some_ : p.blocks ≠ [])
    (bad : checkBlocks p.ctx p.blocks s = .bad code d t) : s.judgeBundle p = t.refusePacket p code d := by
  rw [State.judgeBundle, if_neg some_, bad]

/-! ### Starts (R202, R204, R211) -/

section Start

variable {s : State} {q : Nat} {seq : Word} {p : PacketEntry} (found : s.packet? q seq = some p) (open_ : p.done = false)
  (clean : ∀ i, i < 2 → p.copyBad i ∉ s.upsets)

include found open_ clean

/-- A LAUNCH THAT STARTS (R204). -/
theorem exec_launch (type : p.type = 1) (may : s.mayStart p = true) : exec (.launch q seq) s =
    .next { s.setPacket { p with started := true } with
      launches := s.launches.map fun (l : Launch) =>
        if l.queue = q ∧ l.seq = seq ∧ l.successor = false then { l with started := true } else l } := by
  refine (withEntry_of_clean found open_ clean _ _).trans ?_
  rw [if_neg (by simp [type, may])]
  rfl

/-- A BUNDLE (R209): a stopped context holds it. -/
theorem exec_bundle (type : p.type = 2) (may : s.mayStart p = true) : exec (.bundle q seq) s =
    if s.halted p.ctx = true then .next s
    else .next ((p.subs.foldl (fun u b => u.startSub p b) (s.setPacket { p with started := true })).fwCommit 0 noEvent) := by
  refine (withEntry_of_clean found open_ clean _ _).trans ?_
  cases s.halted p.ctx with
  | true => exact (if_pos (.inr (.inr rfl))).trans (if_pos rfl).symm
  | false =>
    rw [if_neg Bool.false_ne_true]
    exact if_neg (by simp [type, may])

/-- A NOP THAT COMPLETES LATER (R207). -/
theorem exec_packetComplete_nop {t : State} (type : p.type = 4) (may : s.mayStart p = true) (fine : p.refused = false)
    (runs : s.halted p.ctx = false) (handles : s.fwMay 0 (some q) (isCompletion q seq) = true) (completes : s.completePacket p = .ok t) :
    exec (.packetComplete q seq) s = .next (t.fwCommit 0 (isCompletion q seq)) := by
  refine (withEntry_of_clean found open_ clean _ _).trans ?_
  rw [if_neg (by simp [runs, fine, handles]), if_pos type, if_pos may, completes]
  rfl

/-- AN INVAL THAT STARTS, of a range that is not empty (R116, R202): it waits for what was translated before, or completes. -/
theorem exec_inval {t : State} (type : p.type = 3) (may : s.mayStart p = true) (runs : s.halted p.ctx = false) (signal : p.signal = 0)
    {a n : Nat} (ha : a = (p.words.getD 1 0).toNat) (hn : n = (p.words.getD 2 0).toNat) (some_ : 0 < n) {all : Bool}
    (hall : all = decide (wordBits p.words 3 2 0 = 4))
    (ht : t = s.invalidate p.ctx (some (a, n)) (fun k => all || dieOf k == 0) (fun z => all || z / 24 == 0) (fun d => all || d == 0)) :
    exec (.inval q seq) s = if t.translated p.ctx (some (a, n)) (fun k => all || dieOf k == 0) = true then .next t
      else .next ((t.completed p).fwCommit 0 noEvent) := by
  have starts : ¬ (p.type ≠ 3 ∨ s.mayStart p = false ∨ s.halted p.ctx = true) := by simp [type, may, runs]
  have completes := State.completePacket_of_signal (signal ▸ t.signalDec_zero p.ctx)
  refine (withEntry_of_clean found open_ clean _ _).trans ((if_neg starts).trans ?_)
  dsimp only
  rw [← ha, ← hn, ← hall, if_neg (by omega : ¬ n = 0), ← ht, completes]
  by_cases used : t.translated p.ctx (some (a, n)) (fun k => all || dieOf k == 0) = true
  · rw [if_pos ⟨by omega, used⟩, if_pos used]
  · rw [if_neg fun h => used h.2, if_neg used]
    rfl

end Start

/-! ### The sub-launches of a bundle (R209) -/

/-- Work of a bundle has been added, from a state whose entry of the bundle is `r` to one whose entry is `r'`. -/
structure State.addsWork (s t : State) (r r' : PacketEntry) : Prop where
  mem : t.mem = s.mem
  entry : r' = { r with copies := r'.copies }
  copies : ∀ i ∈ r.copies, i ∈ r'.copies
  launches : ∀ l ∈ s.launches, l ∈ t.launches
  jobs : ∀ j ∈ s.jobs, j ∈ t.jobs
  progs : ∀ g ∈ s.progs, g ∈ t.progs

theorem State.addsWork.refl (s : State) (r : PacketEntry) : s.addsWork s r r :=
  ⟨rfl, rfl, fun _ => id, fun _ => id, fun _ => id, fun _ => id⟩

theorem State.addsWork.trans {s t u : State} {r r' r'' : PacketEntry} (h : s.addsWork t r r') (g : t.addsWork u r' r'') : s.addsWork u r r'' := by
  refine ⟨g.mem.trans h.mem, ?_, fun i hi => g.copies i (h.copies i hi), fun l hl => g.launches l (h.launches l hl),
    fun j hj => g.jobs j (h.jobs j hj), fun k hk => g.progs k (h.progs k hk)⟩
  have entry := g.entry
  rw [h.entry] at entry
  exact entry

/-- A sub-launch of packet `p` has started; `r` is the packet's entry. -/
def State.subStarted (t : State) (p r : PacketEntry) : SubLaunch → Prop
  | .grid x => ∃ l ∈ t.launches, l.queue = p.queue ∧ l.seq = p.seq ∧ l.kern = x.kern ∧ l.nwg = x.nwg ∧ l.started = true
  | .copies list count => ∃ j ∈ t.jobs, j.kind = .copyList ∧ j.idxVa = list ∧ j.total = count ∧ j.id ∈ r.copies
  | .prog list count _ => ∃ g ∈ t.progs, g.queue = p.queue ∧ g.seq = p.seq ∧ g.list = BitVec.ofNat 64 list ∧ g.count = count

theorem State.subStarted.mono {t u : State} {p r r' : PacketEntry} (h : t.addsWork u r r') {b : SubLaunch} (g : t.subStarted p r b) :
    u.subStarted p r' b := by
  cases b with
  | grid x =>
    obtain ⟨l, hl, started⟩ := g
    exact ⟨l, h.launches l hl, started⟩
  | copies list count =>
    obtain ⟨j, hj, kind, va, total, id⟩ := g
    exact ⟨j, h.jobs j hj, kind, va, total, h.copies j.id id⟩
  | prog list count tag =>
    obtain ⟨k, hk, started⟩ := g
    exact ⟨k, h.progs k hk, started⟩

/-- The job of a copy list is listed. -/
def State.addCopies (s : State) (p : PacketEntry) (list count : Nat) : State :=
  { s with jobs := s.jobs ++ [copyListJob s.fresh p.ctx list count], fresh := s.fresh + 1 }

theorem State.startSub_copies {s : State} {p r : PacketEntry} {list count : Nat} (found : s.packet? p.queue p.seq = some r) :
    s.startSub p (.copies list count) = (s.addCopies p list count).setPacket { r with copies := s.fresh :: r.copies } := by
  have still : (s.addCopies p list count).packet? p.queue p.seq = some r := found
  unfold State.addCopies at still ⊢
  simp only [State.startSub, still]

/-- ONE SUB-LAUNCH STARTS (R209). -/
theorem State.startSub_starts {s : State} {p r : PacketEntry} (found : s.packet? p.queue p.seq = some r) (b : SubLaunch) :
    ∃ r', (s.startSub p b).packet? p.queue p.seq = some r' ∧ s.addsWork (s.startSub p b) r r' ∧ (s.startSub p b).subStarted p r' b := by
  have last {α : Type} (xs : List α) (x : α) : x ∈ xs ++ [x] := List.mem_append_right _ (List.mem_singleton.2 rfl)
  cases b with
  | grid x =>
    exact ⟨r, found, ⟨rfl, rfl, fun _ => id, fun _ => List.mem_append_left _, fun _ => id, fun _ => id⟩, _, last _ _, rfl, rfl, rfl, rfl,
      rfl⟩
  | copies list count =>
    obtain ⟨queue, seq⟩ := State.packet_name found
    rw [State.startSub_copies found]
    refine ⟨{ r with copies := s.fresh :: r.copies }, ?_, ⟨rfl, rfl, fun _ => List.mem_cons_of_mem _, fun _ => id,
      fun _ => List.mem_append_left _, fun _ => id⟩, _, last _ _, rfl, rfl, rfl, List.mem_cons_self⟩
    rw [← queue, ← seq] at found ⊢
    exact State.packet_setPacket (s := s.addCopies p list count) (p := { r with copies := s.fresh :: r.copies }) found
  | prog list count tag =>
    exact ⟨r, found, ⟨rfl, rfl, fun _ => id, fun _ => id, fun _ => id, fun _ => List.mem_append_left _⟩, _, last _ _, rfl, rfl, rfl, rfl⟩

/-- ALL SUB-LAUNCHES OF A BUNDLE START (R209). -/
theorem State.startSubs_start {p : PacketEntry} (bs : List SubLaunch) {s : State} {r : PacketEntry}
    (found : s.packet? p.queue p.seq = some r) :
    ∃ r', (bs.foldl (fun u b => u.startSub p b) s).packet? p.queue p.seq = some r' ∧
      s.addsWork (bs.foldl (fun u b => u.startSub p b) s) r r' ∧ ∀ b ∈ bs, (bs.foldl (fun u b => u.startSub p b) s).subStarted p r' b := by
  induction bs generalizing s r with
  | nil => exact ⟨r, found, .refl s r, fun _ h => nomatch h⟩
  | cons b bs ih =>
    obtain ⟨r', found', adds, started⟩ := State.startSub_starts found b
    obtain ⟨r'', found'', adds', all⟩ := ih found'
    refine ⟨r'', found'', adds.trans adds', fun c hc => ?_⟩
    rcases List.mem_cons.1 hc with rfl | hc
    · exact started.mono adds'
    · exact all c hc

/-! ### An invalidation of a range (R116) -/

/-- Of a context and a range no translation is left in a die's cache, if a test selects the die. -/
def walkInvalidated (k : BitVec 16) (range : Option (Nat × Nat)) (inD : Nat → Bool) (die : Nat) (walk : List TlbEntry) : Prop :=
  inD die = true → ∀ e ∈ walk, tlbKeep k range e = true

theorem State.invalidate_keeps (s : State) (k : BitVec 16) (range : Option (Nat × Nat)) (inC inQ inD : Nat → Bool) :
    (∀ v ∈ (s.invalidate k range inC inQ inD).cores, inC v.core = true → ∀ e ∈ v.tlb, tlbKeep k range e = true) ∧
    ∀ d ∈ (s.invalidate k range inC inQ inD).dies, walkInvalidated k range inD d.die d.walk := by
  refine ⟨fun v hv inside e he => ?_, fun d hd inside e he => ?_⟩
  · obtain ⟨w, -, rfl⟩ := List.mem_map.1 hv
    by_cases hw : inC w.core = true
    · simp only [hw, if_true] at he
      exact (List.mem_filter.1 he).2
    · simp only [hw] at inside
      exact absurd inside hw
  · obtain ⟨w, -, rfl⟩ := List.mem_map.1 hd
    by_cases hw : inD w.die = true
    · simp only [hw, if_true] at he
      exact (List.mem_filter.1 he).2
    · simp only [hw] at inside
      exact absurd inside hw

/-! ### A launch that has ended (R207) -/

/-- The packet's launches once its only one has been marked. -/
theorem State.launches_marked {s : State} {q : Nat} {seq : Word} {l : Launch}
    (only : s.launches.filter (fun m => m.queue == q && m.seq == seq) = [l]) :
    ∀ m ∈ (s.setLaunch { l with complete := true }).launches.filter (fun m => m.queue == q && m.seq == seq), m = { l with complete := true } := by
  intro m hm
  obtain ⟨hm, name⟩ := List.mem_filter.1 hm
  obtain ⟨d, hd, rfl⟩ := List.mem_map.1 hm
  by_cases same : d.id = l.id
  · exact if_pos same
  · rw [if_neg same] at name
    have listed : d ∈ s.launches.filter (fun m => m.queue == q && m.seq == seq) := List.mem_filter.2 ⟨hd, name⟩
    rw [only, List.mem_singleton] at listed
    exact absurd (congrArg Launch.id listed) same

/-- A packet whose launches, copy lists and programs have ended, none of them with dead lanes, completes (R207, R209). -/
theorem State.endPacket_of_ended {s : State} {p : PacketEntry}
    (launches : ∀ m ∈ s.launches.filter (fun m => m.queue == p.queue && m.seq == p.seq), m.complete = true ∧ m.degraded = false)
    (jobs : ∀ j ∈ s.jobs, j.id ∉ p.copies) (progs : ∀ g ∈ s.progs, g.queue ≠ p.queue ∨ g.seq ≠ p.seq) :
    s.endPacket p = s.completePacket p := by
  have complete : (s.launches.filter fun m => m.queue == p.queue && m.seq == p.seq).all (·.complete) = true :=
    List.all_eq_true.2 fun m hm => (launches m hm).1
  have healthy : (s.launches.filter fun m => m.queue == p.queue && m.seq == p.seq).any (·.degraded) = false :=
    List.any_eq_false.2 fun m hm => by simp [(launches m hm).2]
  have copied : (s.jobs.any fun j => p.copies.contains j.id) = false := List.any_eq_false.2 fun j hj => by simpa using jobs j hj
  have run : (s.progs.any fun g => g.queue == p.queue && g.seq == p.seq) = false :=
    List.any_eq_false.2 fun g hg => by simpa [imp_iff_not_or] using progs g hg
  rw [State.endPacket]
  simp only [complete, healthy, copied, run, Bool.not_false, Bool.and_self, Bool.false_eq_true, if_true, if_false]

/-- THE ONLY LAUNCH OF A PACKET HAS ENDED: it is marked, and the packet completes. -/
theorem exec_packetComplete_ended {s t : State} {q : Nat} {seq : Word} {p : PacketEntry} {l : Launch} (found : s.packet? q seq = some p)
    (open_ : p.done = false) (clean : ∀ i, i < 2 → p.copyBad i ∉ s.upsets) (started : p.started = true) (fine : p.refused = false)
    (type : p.type ≠ 4) (runs : s.halted p.ctx = false) (handles : s.fwMay 0 (some q) (isCompletion q seq) = true)
    (only : s.launches.filter (fun m => m.queue == q && m.seq == seq) = [l]) (named : s.launch? l.id = some l)
    (ended : s.launchEnded l = true) (own : l.successor = false) (whole : l.degraded = false) (jobs : ∀ j ∈ s.jobs, j.id ∉ p.copies)
    (progs : ∀ g ∈ s.progs, g.queue ≠ q ∨ g.seq ≠ seq)
    (signals : (s.setLaunch { l with complete := true }).signalDec p.ctx p.signal = .ok t) :
    exec (.packetComplete q seq) s = .next ((t.completed p).fwCommit 0 (isCompletion q seq)) := by
  have marked : endLaunches q seq (([l].map (·.id)).reverse) s = .ok (s.setLaunch { l with complete := true }) := by
    simp [endLaunches, named, ended, own]
  refine (withEntry_of_clean found open_ clean _ _).trans ?_
  rw [if_neg (by simp [runs, fine, handles]), if_neg type, if_neg (by simp [started])]
  dsimp only
  rw [only, marked]
  dsimp only
  obtain ⟨rfl, rfl⟩ := State.packet_name found
  have all (m : Launch) (hm : m ∈ (s.setLaunch { l with complete := true }).launches.filter fun m => m.queue == p.queue && m.seq == p.seq) :
      m.complete = true ∧ m.degraded = false := by
    rw [State.launches_marked only m hm]
    exact ⟨rfl, whole⟩
  rw [State.endPacket_of_ended all jobs progs, State.completePacket_of_signal signals]
  rfl

/-! ### A step of a collective program (R210) -/

/-- A PROGRAM'S STEP, alone in its group: the entry is read, the buffer folded, and MAP written (R185, R210). -/
theorem exec_collProgramStep_alone {s s1 s2 s3 s4 : State} {g : CollProg} {bs own : List Byte} {p : ProgStep} {e : Nat × RankEntry}
    {out : List (Nat × List Byte)} (found : s.progs.find? (fun h => h.id == g.id) = some g) (runs : s.halted g.ctx = false) (lives : g.dead = false)
    (entry : s.feRead g.ctx (g.list.toNat + 32 * g.next) 32 = .ok (bs, s1)) (hp : p = progStepOf bs) (good : p.ok = true)
    (alone : s1.groupRanks (bitsOf p.imm 7 4) = [e]) (here : e.2.faddr = s1.faddr) (active : e.2.state = 0)
    (root : p.sub = 3 → bitsOf p.imm 31 8 = 0) (read : s1.feRead g.ctx p.buf p.len = .ok (own, s2))
    (hout : out = p.outcome (g.id + g.next) 1 0 false [own]) (written : s2.feWrite g.ctx p.buf (out.flatMap (·.2)) = .ok s3)
    (map : s3.feWrite g.ctx (g.list.toNat + 32 * g.next + 24) (natBytes 8 (mapOf (out.map (·.1)))) = .ok s4) :
    exec (.collProgramStep g.id [] false) s = .next (State.fwCommit { s4 with
      progs := if g.count ≤ g.next + 1 then s4.progs.filter (fun x => x.id != g.id)
        else s4.progs.map fun (x : CollProg) => if x.id = g.id then { x with next := g.next + 1 } else x } 0 noEvent) := by
  have position : s1.position (bitsOf p.imm 7 4) = some 0 := by
    rw [State.position, alone]
    simp [here, active]
  have together : s1.groupActive (bitsOf p.imm 7 4) = true := by
    rw [State.groupActive, alone]
    simp [active]
  have goes : ¬ (false = true ∨ p.ok = false ∨ (p.sub = 3 ∧ (s1.groupRanks (bitsOf p.imm 7 4)).length ≤ bitsOf p.imm 31 8)) := by
    rw [good, alone]
    rintro (h | h | ⟨h, h'⟩)
    · exact Bool.false_ne_true h
    · exact Bool.false_ne_true h.symm
    · rw [root h] at h'
      exact absurd h' (by simp)
  have come : ¬ (s1.groupActive (bitsOf p.imm 7 4) = false ∨ ([] : List (List Byte)).length + 1 ≠ (s1.groupRanks (bitsOf p.imm 7 4)).length ∨
      ([] : List (List Byte)).all (fun b => b.length == p.len) = false) := by
    rw [together, alone]
    simp
  have finished : s1.progFinish g p 0 [] = s3.progEnd g false (out.map (·.1)) := by
    subst hout
    rw [State.progFinish, read]
    simp only [List.take_nil, List.nil_append, List.drop_nil, List.append_nil, List.length_singleton, written]
  have ended : s3.progEnd g false (out.map (·.1)) = .ok { s4 with
      progs := if g.count ≤ g.next + 1 then s4.progs.filter (fun x => x.id != g.id)
        else s4.progs.map fun (x : CollProg) => if x.id = g.id then { x with next := g.next + 1 } else x } := by
    rw [State.progEnd, map]
    dsimp only
    rw [if_neg Bool.false_ne_true]
    split <;> rfl
  change execCollProgramStep g.id [] false s = _
  unfold execCollProgramStep
  rw [found]
  dsimp only
  rw [runs, if_neg Bool.false_ne_true, lives, if_neg Bool.false_ne_true, entry]
  dsimp only
  rw [← hp, position]
  dsimp only
  rw [if_neg goes, if_neg come, finished, ended]
  rfl

/-! ### The obligation -/

/-- A NOP IS ACCEPTED: it stands in its queue's table, and is done if it may start (R201, R207). -/
theorem exec_packetAccept_nop {s s3 : State} {k : Queue} {ws : List Byte} (run : exec (.packetAccept k.num) s =
      feOut s (isNotify k.num) ((s3.entered k ws).judgePacket (k.packetOf ws))) (sound : (k.packetOf ws).soundHeader)
    (type : (k.packetOf ws).type = 4) (plain : ∀ i, 1 ≤ i → i < 8 → recWord ws i = 0)
    (runs : (s3.entered k ws).halted k.ctx = false) (registered : (s3.queue? k.num).isSome) :
    ∃ (t : State) (p : PacketEntry), exec (.packetAccept k.num) s = .next t ∧ t.mem = s3.mem ∧
      t.queue? k.num = some { k with next := k.next + 1, lastSeq := some k.next } ∧ p ∈ t.packets ∧
      p = { k.packetOf ws with done := (s3.entered k ws).mayStart (k.packetOf ws), started := (s3.entered k ws).mayStart (k.packetOf ws) } := by
  have word (i : Nat) (low : 1 ≤ i) (high : i < 8) : (k.packetOf ws).words.getD i 0 = 0 :=
    k.packetOf_word_zero high (plain i low high)
  have signal : (k.packetOf ws).signal = 0 := (recWord_toNat ws 5).trans (plain 5 (by decide) (by decide))
  have listed : k.packetOf ws ∈ (s3.entered k ws).packets := List.mem_append_right _ (List.mem_singleton.2 rfl)
  have queue := State.queue_entered ws registered
  rw [State.judgePacket_nop sound type word signal runs] at run
  cases may : (s3.entered k ws).mayStart (k.packetOf ws) with
  | true =>
    rw [may, if_pos rfl] at run
    refine ⟨_, { k.packetOf ws with done := true, started := true }, run, ?_⟩
    rw [State.fwCommit_frame]
    exact ⟨rfl, queue, State.completed_keeps_last listed queue rfl, rfl⟩
  | false =>
    rw [may, if_neg Bool.false_ne_true] at run
    refine ⟨_, k.packetOf ws, run, ?_⟩
    rw [State.fwCommit_frame]
    exact ⟨rfl, queue, listed, rfl⟩

/-- Settles O51, event by event (R201, R202, R204, R206 to R211, R223). -/
theorem packetsRun : Obligations.PacketsRun := by
  unfold Obligations.PacketsRun
  intro s q
  refine ⟨?accept, fun seq p found open_ may clean => ⟨?launch, ?bundle_held, ?bundle, ?inval, ?nop⟩, ?complete,
    fun seq p e found open_ he => ⟨?lost, ?mended⟩, ?program⟩
  case accept =>
    intro k bs ws s1 s2 s3 u hk whole some_ fits room may header valid seq body index hu high low flags
    obtain rfl := s.queue_num q k hk
    have run := exec_packetAccept hk whole some_ fits room may header valid seq body index
    have sound : (k.packetOf ws).soundHeader := Queue.packetOf_soundHeader high low flags
    have type := k.packetOf_type ws
    have registered : (s3.queue? k.num).isSome := State.sameQueues.queue (((State.feRead_frontReads header).trans
      (State.feRead_frontReads body)).sameQueues.trans (State.feWrite_sameQueues index)) hk
    obtain rfl : u = s3.entered k ws := hu
    refine ⟨fun nop plain runs => exec_packetAccept_nop run sound (type.trans nop) plain runs registered, fun x v launch good => ?_,
      fun bundle six seven some_ => ?_⟩
    · rw [State.judgePacket_launch sound (type.trans launch) good] at run
      refine ⟨_, x.launch v.fresh k.num k.next k.ctx false k.lastSeq none, run, ?_⟩
      rw [State.fwCommit_frame]
      exact ⟨rfl, rfl, rfl, rfl, rfl, rfl, rfl, rfl, rfl, rfl, rfl⟩
    · rw [State.judgePacket_bundle sound (type.trans bundle) (k.packetOf_word_zero (by decide) six)
        (k.packetOf_word_zero (by decide) seven)] at run
      refine ⟨fun bs v good => ?_, fun code d v w bad refused => ?_⟩
      · rw [State.judgeBundle_good some_ good] at run
        exact run
      · rw [State.judgeBundle_bad some_ bad, refused] at run
        exact run
  case launch =>
    intro type
    obtain ⟨rfl, rfl⟩ := State.packet_name found
    refine ⟨_, exec_launch found open_ clean type may, rfl, State.packet_setPacket (p := { p with started := true }) found, fun l hl => ?_⟩
    exact List.mem_map_of_mem hl
  case bundle_held =>
    intro type held
    rw [exec_bundle found open_ clean type may, if_pos held]
  case bundle =>
    intro type runs
    obtain ⟨rfl, rfl⟩ := State.packet_name found
    have first := State.packet_setPacket (p := { p with started := true }) found
    obtain ⟨r, entry, adds, all⟩ := State.startSubs_start p.subs first
    have run := (exec_bundle found open_ clean type may).trans (if_neg (by rw [runs]; exact Bool.false_ne_true))
    refine ⟨_, r, run, ?_⟩
    rw [State.fwCommit_frame]
    exact ⟨adds.mem, entry, by rw [adds.entry], by rw [adds.entry], adds.launches, fun x hx => all _ hx, fun list count hb => all _ hb,
      fun list count tag hb => all _ hb⟩
  case inval =>
    intro a n all t type signal runs ha hn some_ hall ht
    obtain ⟨rfl, rfl⟩ := State.packet_name found
    have run := exec_inval found open_ clean type may runs signal ha hn some_ hall ht
    obtain ⟨cores, dies⟩ := s.invalidate_keeps p.ctx (some (a, n)) (fun k => all || dieOf k == 0) (fun z => all || z / 24 == 0)
      (fun d => all || d == 0)
    have cohorts : t.cohorts = s.cohorts := by
      rw [ht, State.invalidate_frontReads]
    rw [← ht] at cores dies
    cases used : t.translated p.ctx (some (a, n)) (fun k => all || dieOf k == 0) with
    | true =>
      rw [used, if_pos rfl] at run
      exact ⟨t, run, cohorts, fun _ => rfl, fun h => absurd h Bool.false_ne_true.symm, cores, dies⟩
    | false =>
      rw [used, if_neg Bool.false_ne_true] at run
      refine ⟨_, run, ?_⟩
      rw [State.fwCommit_frame]
      refine ⟨cohorts, fun h => absurd h Bool.false_ne_true, fun _ => t.completed_done p, cores, ?_⟩
      have empty (d : Nat) : walkInvalidated p.ctx (some (a, n)) (fun d => all || d == 0) d [] := fun _ _ h => nomatch h
      have noted := State.fwNote_walks (good := walkInvalidated p.ctx (some (a, n)) fun d => all || d == 0) (s := t) (.done p.queue p.seq) empty dies
      exact State.fwCommit_walks (s := t.completed p) 0 noEvent empty noted
  case nop =>
    intro t type fine runs handles completes
    exact exec_packetComplete_nop found open_ clean type may fine runs handles completes
  case complete =>
    intro seq p l t found open_ started fine type runs clean handles only named ended own whole _ jobs progs signals
    refine ⟨_, exec_packetComplete_ended found open_ clean started fine type runs handles only named ended own whole jobs progs signals, ?_⟩
    obtain ⟨rfl, rfl⟩ := State.packet_name found
    rw [State.fwCommit_frame]
    exact ⟨rfl, t.completed_launches p, t.completed_done p⟩
  case lost =>
    intro k t first second hk whole broke
    obtain ⟨hit, after, run⟩ := exec_withEntry he
    exact ⟨hit, (run s).trans (withEntry_of_lost found open_ first second hk whole broke hit after)⟩
  case mended =>
    intro good
    obtain ⟨hit, after, run⟩ := exec_withEntry he
    exact (run s).trans ((withEntry_mended found open_ good hit after).trans (run (s.mended p)).symm)
  case program =>
    intro g bs s1 own s2 s3 s4 p e out found runs lives entry hp good alone here active root read hout written map
    refine ⟨_, exec_collProgramStep_alone found runs lives entry hp good alone here active root read hout written map, ?_⟩
    rw [State.fwCommit_frame]
    exact ⟨rfl, rfl⟩

end Sys2Proof.Machine
end
